-- ==== Sys2Proof/Word.lean ====
section
/-! DEFINITION. The plain carriers of the model: bytes, timers and small tables of fixed size. -/

namespace Sys2Proof

/-- A byte on a serial line. -/
abbrev Byte := BitVec 8

/-- A timer: stopped, or running with the milliseconds left. -/
abbrev Timer := Option Nat

/-- A vessel's mark, as its characters. -/
abbrev Mark := List Char

/-- Three like things, numbered 1..3: the chambers. -/
structure Tri (α : Type) where
  one : α
  two : α
  three : α
  deriving DecidableEq, Repr

/-- The entry of chamber `c`. -/
def Tri.get {α : Type} (t : Tri α) : Nat → α
  | 0 => t.one
  | 1 => t.one
  | 2 => t.two
  | _ + 3 => t.three

/-- Replace the entry of chamber `c`; a number outside 1..3 changes nothing. -/
def Tri.set {α : Type} (t : Tri α) (c : Nat) (x : α) : Tri α :=
  match c with
  | 1 => { t with one := x }
  | 2 => { t with two := x }
  | 3 => { t with three := x }
  | _ => t

/-- Four like things, numbered 0..3: the passages, the quote slots. -/
structure Quad (α : Type) where
  zero : α
  one : α
  two : α
  three : α
  deriving DecidableEq, Repr

/-- The entry numbered `k`. -/
def Quad.get {α : Type} (q : Quad α) : Nat → α
  | 0 => q.zero
  | 1 => q.one
  | 2 => q.two
  | _ + 3 => q.three

/-- Replace the entry numbered `k`; a number above 3 changes nothing. -/
def Quad.set {α : Type} (q : Quad α) (k : Nat) (x : α) : Quad α :=
  match k with
  | 0 => { q with zero := x }
  | 1 => { q with one := x }
  | 2 => { q with two := x }
  | 3 => { q with three := x }
  | _ => q

/-- The same function on every entry. -/
def Quad.map {α β : Type} (f : α → β) (q : Quad α) : Quad β :=
  { zero := f q.zero, one := f q.one, two := f q.two, three := f q.three }

/-- The entries in order. -/
def Quad.toList {α : Type} (q : Quad α) : List α := [q.zero, q.one, q.two, q.three]

/-- The same value four times. -/
def Quad.all {α : Type} (x : α) : Quad α := ⟨x, x, x, x⟩

/-- Five like things, numbered 0..4: the pounds. -/
structure Quin (α : Type) where
  zero : α
  one : α
  two : α
  three : α
  four : α
  deriving DecidableEq, Repr

/-- The entry of pound `p`. -/
def Quin.get {α : Type} (q : Quin α) : Nat → α
  | 0 => q.zero
  | 1 => q.one
  | 2 => q.two
  | 3 => q.three
  | _ + 4 => q.four

/-- Replace the entry of pound `p`; a number above 4 changes nothing. -/
def Quin.set {α : Type} (q : Quin α) (p : Nat) (x : α) : Quin α :=
  match p with
  | 0 => { q with zero := x }
  | 1 => { q with one := x }
  | 2 => { q with two := x }
  | 3 => { q with three := x }
  | 4 => { q with four := x }
  | _ => q

/-- The same function on every entry. -/
def Quin.map {α β : Type} (f : α → β) (q : Quin α) : Quin β :=
  { zero := f q.zero, one := f q.one, two := f q.two, three := f q.three, four := f q.four }

/-- The same value five times. -/
def Quin.all {α : Type} (x : α) : Quin α := ⟨x, x, x, x, x⟩

end Sys2Proof
end

