-- ==== Sys2Proof/Syntax.lean ====
section
/-! DEFINITION. The commands of the LF3: one constructor for each row of spec/opcode_table.json, and the fields each carries. A field that the wire carries as a code of a list is an Option: absent stands for a code outside the list (log 10). -/

namespace Sys2Proof

/-- The stations, one on each port (R188): port A CONSOLE, port B REGION, port C TOLL. -/
inductive Station where
  | console
  | region
  | toll
  deriving DecidableEq, Repr

/-- The direction of a vessel or a transit (00 section 1.2). -/
inductive Direction where
  | up
  | down
  deriving DecidableEq, Repr

/-- The vessel classes (04 section 4.1). -/
inductive VesselClass where
  | cargo
  | passenger
  | pleasure
  | service
  deriving DecidableEq, Repr

/-- The side of a passage a lamp head stands on (03). -/
inductive Side where
  | above
  | below
  deriving DecidableEq, Repr

/-- The kinds of CONFIRM (R113): IN, MOVED, CLEAR. -/
inductive ConfirmKind where
  | entered
  | moved
  | cleared
  deriving DecidableEq, Repr

/-- The actions of MANUAL_GATE (R45): OPEN, CLOSE, STOP. -/
inductive GateAction where
  | openGate
  | closeGate
  | stopGate
  deriving DecidableEq, Repr

/-- The actions of VISUAL_EQUAL (R44). -/
inductive PermitAction where
  | grant
  | withdraw
  deriving DecidableEq, Repr

/-- Why a frame being assembled is discarded at a byte (R190). -/
inductive DiscardCause where
  | wrongStation
  | tooLong
  | badCheck
  | stopBit
  deriving DecidableEq, Repr

/-- How READ_VESSEL names its vessel (R79). -/
inductive VesselSelector where
  | byMark (mark : Mark)
  | byPosition (dir : Option Direction) (position : Nat)
  deriving DecidableEq, Repr

/-- How READ_ACCOUNT names its account (R168). -/
inductive AccountSelector where
  | byNumber (number : Nat)
  | nextAbove (number : Nat)
  deriving DecidableEq, Repr

/-- The head of a request frame: its port, its tag, and whether its payload length is one that its kind allows (R193 test 1). -/
structure Hdr where
  port : Station
  tag : Nat
  lengthOk : Bool
  deriving DecidableEq, Repr

/-- The particulars of a vessel that AMEND replaces (R68). -/
structure Particulars where
  length : Nat
  beam : Nat
  deadweight : Nat
  cls : Option VesselClass
  account : Nat
  deriving DecidableEq, Repr

/-- One chamber record of SET_FLIGHT (11 section 11.1). -/
structure Chamber where
  area : Nat
  hMax : Nat
  hBot : Nat
  usable : Nat
  width : Nat
  deriving DecidableEq, Repr

/-- The payload of SET_FLIGHT: the count, one record for each chamber counted, and the clearance (11 section 11.1). -/
structure FlightFields where
  n : Nat
  chambers : List Chamber
  clearance : Nat
  deriving DecidableEq, Repr

/-- A calibration item of SET_SENSOR (11 section 11.2). -/
structure Calibration where
  zero : Int
  span : Nat
  deriving DecidableEq, Repr

/-- The payload of SET_SENSOR: four window settings and an item, or none, for each of pounds 0..4 (11 section 11.2). -/
structure SensorFields where
  w : Nat
  eqTol : Nat
  rippleLim : Nat
  stillCount : Nat
  items : Quin (Option Calibration)
  deriving DecidableEq, Repr

/-- The settings of SET_TIMING, in the order of the table of R207. -/
structure Timing where
  scan : Nat
  gateLimit : Nat
  slowPct : Nat
  sluiceTarget : Nat
  rampInterval : Nat
  moveLimit : Nat
  eqLimit : Nat
  entryLimit : Nat
  exitLimit : Nat
  silence : Nat
  handover : Nat
  discard : Nat
  runLimit : Nat
  skipLimit : Nat
  deriving DecidableEq, Repr

/-- One class record of a tariff (07 section 7.1). -/
structure ClassRate where
  base : Nat
  lengthRate : Nat
  tonnageRate : Nat
  waterRate : Nat
  nightPct : Nat
  cap : Nat
  deriving DecidableEq, Repr

/-- A tariff: four class records, the night window and the allowance (07 section 7.1). -/
structure Tariff where
  cargo : ClassRate
  passenger : ClassRate
  pleasure : ClassRate
  service : ClassRate
  nightStart : Nat
  nightEnd : Nat
  allowance : Nat
  deriving DecidableEq, Repr

/-- A request as a station makes it: the kind (R194) with the fields of its payload. -/
inductive Request where
  | status
  | readLevels
  | readPassage (k : Nat)
  | readVessel (sel : VesselSelector)
  | readTransit (id : Nat)
  | readAccount (sel : AccountSelector)
  | announce (mark : Mark) (dir : Option Direction) (p : Particulars)
  | amend (mark : Mark) (p : Particulars)
  | withdraw (mark : Mark)
  | autoCall (on : Option Bool)
  | planTransit (dir : Option Direction) (marks : List Mark)
  | cancelTransit (id : Nat)
  | confirm (id : Nat) (kind : Option ConfirmKind)
  | abandonTransit (id : Nat)
  | retryLevel (k : Nat)
  | manualGate (k : Nat) (action : Option GateAction)
  | manualSluice (k : Nat) (position : Nat)
  | visualEqual (k : Nat) (action : Option PermitAction)
  | emergencyStop
  | resumeService
  | claim
  | release
  | deny
  | enterConfig
  | leaveConfig
  | restart
  | setFlight (f : FlightFields)
  | setSensor (f : SensorFields)
  | setTiming (t : Timing)
  | setClock (day sec : Nat)
  | setTariff (t : Tariff)
  | openAccount (number credit limit : Nat)
  | setCredit (number limit : Nat)
  | holdAccount (number : Nat)
  | releaseAccount (number : Nat)
  | closeAccount (number : Nat)
  | postPayment (number amount : Nat)
  | takeCharges (n : Nat)
  | quote (mark : Mark)
  | subscribe (settings : List Nat)
  deriving DecidableEq, Repr

/-- The kind code of a request: its row number in the table of R194. -/
def Request.code : Request → Nat
  | .status => 1
  | .readLevels => 2
  | .readPassage _ => 3
  | .readVessel _ => 4
  | .readTransit _ => 5
  | .readAccount _ => 6
  | .announce _ _ _ => 7
  | .amend _ _ => 8
  | .withdraw _ => 9
  | .autoCall _ => 10
  | .planTransit _ _ => 11
  | .cancelTransit _ => 12
  | .confirm _ _ => 13
  | .abandonTransit _ => 14
  | .retryLevel _ => 15
  | .manualGate _ _ => 16
  | .manualSluice _ _ => 17
  | .visualEqual _ _ => 18
  | .emergencyStop => 19
  | .resumeService => 20
  | .claim => 21
  | .release => 22
  | .deny => 23
  | .enterConfig => 24
  | .leaveConfig => 25
  | .restart => 26
  | .setFlight _ => 27
  | .setSensor _ => 28
  | .setTiming _ => 29
  | .setClock _ _ => 30
  | .setTariff _ => 31
  | .openAccount _ _ _ => 32
  | .setCredit _ _ => 33
  | .holdAccount _ => 34
  | .releaseAccount _ => 35
  | .closeAccount _ => 36
  | .postPayment _ _ => 37
  | .takeCharges _ => 38
  | .quote _ => 39
  | .subscribe _ => 40

/-- The commands: one constructor for each row of spec/opcode_table.json. A request's constructor is the event in which its frame arrives good (log 1). -/
inductive Instr where
  | powerOn
  | resetAsserted
  | resetReleased
  | estopAsserted
  | estopReleased
  | scanTick
  | pollValueReply (address raw : Nat)
  | pollFaultReply (address : Nat)
  | pollTimeout
  | gateLimitChange (k : Nat) (openLimit closedLimit : Bool)
  | gateTravelTimeout (k : Nat)
  | sluiceFeedback (k position : Nat)
  | sluiceMoveTimeout (k : Nat)
  | rampTimerExpiry (k : Nat)
  | equaliseTimeout (k : Nat)
  | lampIndicationChange (k : Nat) (side : Side) (red green : Bool)
  | lampAgreementExpiry (k : Nat) (side : Side)
  | overdueTimerExpiry (id : Nat)
  | quoteDiscardExpiry (slot : Nat)
  | dayClockSecond
  | silenceExpiry (port : Station)
  | handoverTimerExpiry
  | gapTimerExpiry (port : Station)
  | frameDiscarded (port : Station) (cause : DiscardCause)
  | idleFrame (port : Station)
  | busyAnswer (port : Station) (tag kind : Nat) (payload : List Byte)
  | frameSent (port : Station)
  | status (h : Hdr)
  | readLevels (h : Hdr)
  | readPassage (h : Hdr) (k : Nat)
  | readVessel (h : Hdr) (sel : VesselSelector)
  | readTransit (h : Hdr) (id : Nat)
  | readAccount (h : Hdr) (sel : AccountSelector)
  | announce (h : Hdr) (mark : Mark) (dir : Option Direction) (p : Particulars)
  | amend (h : Hdr) (mark : Mark) (p : Particulars)
  | withdraw (h : Hdr) (mark : Mark)
  | autoCall (h : Hdr) (on : Option Bool)
  | planTransit (h : Hdr) (dir : Option Direction) (marks : List Mark)
  | cancelTransit (h : Hdr) (id : Nat)
  | confirm (h : Hdr) (id : Nat) (kind : Option ConfirmKind)
  | abandonTransit (h : Hdr) (id : Nat)
  | retryLevel (h : Hdr) (k : Nat)
  | manualGate (h : Hdr) (k : Nat) (action : Option GateAction)
  | manualSluice (h : Hdr) (k : Nat) (position : Nat)
  | visualEqual (h : Hdr) (k : Nat) (action : Option PermitAction)
  | emergencyStop (h : Hdr)
  | resumeService (h : Hdr)
  | claim (h : Hdr)
  | release (h : Hdr)
  | deny (h : Hdr)
  | enterConfig (h : Hdr)
  | leaveConfig (h : Hdr)
  | restart (h : Hdr)
  | setFlight (h : Hdr) (f : FlightFields)
  | setSensor (h : Hdr) (f : SensorFields)
  | setTiming (h : Hdr) (t : Timing)
  | setClock (h : Hdr) (day sec : Nat)
  | setTariff (h : Hdr) (t : Tariff)
  | openAccount (h : Hdr) (number credit limit : Nat)
  | setCredit (h : Hdr) (number limit : Nat)
  | holdAccount (h : Hdr) (number : Nat)
  | releaseAccount (h : Hdr) (number : Nat)
  | closeAccount (h : Hdr) (number : Nat)
  | postPayment (h : Hdr) (number amount : Nat)
  | takeCharges (h : Hdr) (n : Nat)
  | quote (h : Hdr) (mark : Mark)
  | subscribe (h : Hdr) (settings : List Nat)
  | byteReceived (port : Station) (byte : Byte)
  | badKindRequest (port : Station) (tag kind : Nat)
  deriving DecidableEq, Repr

end Sys2Proof
end

