-- ==== Sys2Proof/Decode.lean ====
section
/-! DEFINITION. The command that a word of the command table spells. -/

namespace Sys2Proof

/-- The command that a word spells. spec/opcode_table.json gives no row any bits, so no word spells one (log 35). -/
def decodeTableWord (_nbits _w : Nat) : Option Instr := none

end Sys2Proof
end

