-- ==== Sys2Proof/Machine/Records.lean ====
section
/-! DEFINITION. The records of the ten blocks, as their chapters give them. -/

namespace Sys2Proof.Machine

/-! ## Level Monitor (01) -/

/-- The window in progress of one pound (R8). The least and greatest samples are absent while it is empty. -/
structure Accum where
  count : Nat
  sum : Nat
  least : Option Nat
  greatest : Option Nat
  clamped : Bool
  deriving DecidableEq, Repr

/-- The last closed window of one pound (R9). -/
structure LevelRecord where
  mean : Nat
  min : Nat
  max : Nat
  ripple : Nat
  clamped : Bool
  stale : Bool
  count : Nat
  deriving DecidableEq, Repr

/-- A sensor's status (01 section 1.3). -/
inductive SensorStatus where
  | good
  | failed
  deriving DecidableEq, Repr

/-- The sensor record of one pound (01 section 1.1). -/
structure Sensor where
  zero : Int
  span : Nat
  calibrated : Bool
  status : SensorStatus
  badRun : Nat
  goodRun : Nat
  accum : Accum
  level : LevelRecord
  deriving DecidableEq, Repr

/-- The poll in flight: the pound polled and the poll timeout (R3). -/
structure Poll where
  pound : Nat
  left : Nat
  deriving DecidableEq, Repr

/-- The Level Monitor. A round is in progress exactly while a poll is in flight (R2). -/
structure LevelMonitor where
  sensors : Quin Sensor
  still : Quad Nat
  w : Nat
  eqTol : Nat
  rippleLim : Nat
  stillCount : Nat
  poll : Option Poll
  scanTimer : Timer
  tickHeld : Bool
  /-- The N that the polling follows (R1, R16). -/
  polledN : Option Nat
  /-- The records are set afresh when the poll in flight ends (R16). -/
  reformDue : Bool
  deriving DecidableEq, Repr

/-! ## Flight description (11) -/

/-- The flight description of SET_FLIGHT (11 section 11.1). The flight-set mark is set exactly when `n` is present. -/
structure Flight where
  n : Option Nat
  chambers : Tri Chamber
  clearance : Nat
  deriving DecidableEq, Repr

/-! ## Passage Control Unit (02) -/

/-- A gate's state (02 section 2.2). -/
inductive GateState where
  | closed
  | opening
  | opened
  | closing
  | stopped
  | fault
  deriving DecidableEq, Repr

/-- A gate's position, read from its limits (R20). -/
inductive GatePosition where
  | atClosed
  | between
  | atOpen
  deriving DecidableEq, Repr

/-- Why a gate is in FAULT (R22, R23). -/
inductive GateFault where
  | limitLost
  | travelTimeout
  deriving DecidableEq, Repr

/-- The drive lines of a gate (02 section 2.2). -/
inductive GateDrive where
  | off
  | opening
  | closing
  deriving DecidableEq, Repr

/-- The gate record (02 section 2.1). -/
structure Gate where
  state : GateState
  position : GatePosition
  cause : Option GateFault
  lastTravel : Nat
  limit : Nat
  slowPct : Nat
  timer : Timer
  pendingOpen : Option Nat
  drive : GateDrive
  deriving DecidableEq, Repr

/-- A sluice's state (02 section 2.3). -/
inductive SluiceState where
  | shut
  | moving
  | set
  | fault
  deriving DecidableEq, Repr

/-- Why a sluice is in FAULT (R27). -/
inductive SluiceFault where
  | moveTimeout
  | uncommanded
  deriving DecidableEq, Repr

/-- The sluice record (02 section 2.1). `stepHeld` marks a step held back by the interlock (R42). -/
structure Sluice where
  position : Nat
  state : SluiceState
  commanded : Option Nat
  cause : Option SluiceFault
  target : Nat
  rampInterval : Nat
  moveLimit : Nat
  moveTimer : Timer
  rampTimer : Timer
  driven : Bool
  stepHeld : Bool
  deriving DecidableEq, Repr

/-- The purposes of a level operation (02 section 2.4). -/
inductive Purpose where
  | move
  | charge
  | drain
  | manual
  deriving DecidableEq, Repr

/-- The phases of a level operation (02 section 2.4). -/
inductive OpPhase where
  | waiting
  | ramping
  | flowing
  | equalised
  | shutting
  | stalled
  deriving DecidableEq, Repr

/-- Stall reasons (02 section 2.4). -/
inductive StallReason where
  | timeout
  | sensor
  | hold
  | overflowRisk
  deriving DecidableEq, Repr

/-- A captured reading of chamber 1 (R14). -/
structure Reading where
  mean : Nat
  count : Nat
  stale : Bool
  deriving DecidableEq, Repr

/-- A level operation (02 section 2.4). `started` marks that its first start has been made (R32); `aborted` is its outcome (R40). -/
structure Op where
  purpose : Purpose
  transit : Option Nat
  phase : OpPhase
  stall : Option StallReason
  claimsHeld : Bool
  order : Nat
  target : Nat
  timer : Timer
  highWater : Bool
  hStar : Option Nat
  started : Bool
  startReading : Option Reading
  endReading : Option Reading
  predicted : Option Nat
  aborted : Bool
  deriving DecidableEq, Repr

/-- What the PCU holds for one passage (02 section 2.1). `slotFreeOwed` marks that a slot-free event is owed (R28). -/
structure Passage where
  gate : Gate
  sluice : Sluice
  slot : Option Op
  slotFreeOwed : Bool
  permit : Bool
  deriving DecidableEq, Repr

/-- The Passage Control Unit. -/
structure Pcu where
  passages : Quad Passage
  claims : Tri (Option Nat)
  nextOrder : Nat
  deriving DecidableEq, Repr

/-! ## Lamp Driver (03) -/

/-- The outputs of a head (03 section 3.1). -/
inductive Aspect where
  | red
  | redGreen
  | green
  | redFlash
  | dark
  deriving DecidableEq, Repr

/-- A head record (03 section 3.1). `fault` is set while the head is in FAULT. -/
structure Head where
  output : Aspect
  red : Bool
  green : Bool
  fault : Bool
  timer : Timer
  faultCount : Nat
  deriving DecidableEq, Repr

/-- The two heads of one passage. -/
structure HeadPair where
  above : Head
  below : Head
  deriving DecidableEq, Repr

/-! ## Vessel Register (04) -/

/-- A vessel's state with the fields that are present in it (04 sections 4.1, 4.4). -/
inductive VesselState where
  | waiting
  | called (transit estimate : Nat)
  | exited (transit estimate : Nat)
  deriving DecidableEq, Repr

/-- A register entry in use (04 section 4.1). -/
structure Vessel where
  mark : Mark
  account : Nat
  cls : VesselClass
  length : Nat
  beam : Nat
  deadweight : Nat
  dir : Direction
  station : Station
  arrival : Nat
  skips : Nat
  precedence : Bool
  state : VesselState
  deriving DecidableEq, Repr

/-- The vessel register: the entries in use in the order of the arrival list (R62), the approach queues, the arrival counter. -/
structure Register where
  entries : List Vessel
  up : List Mark
  down : List Mark
  counter : Nat
  deriving DecidableEq, Repr

/-! ## Call Arbiter (05) -/

/-- Blocking reasons (R81). -/
inductive BlockReason where
  | autoOff
  | notService
  | queueFull
  | noVessel
  | journalFull
  deriving DecidableEq, Repr

/-- The Call Arbiter (R81). -/
structure Arbiter where
  autoOn : Bool
  lastDir : Direction
  runCount : Nat
  reason : BlockReason
  queue : List Nat
  lastId : Nat
  idle : Bool
  deriving DecidableEq, Repr

/-! ## Lockage Sequencer (06) -/

/-- Kinds of move (R102). -/
inductive MoveKind where
  | entry
  | shift
  | exit
  deriving DecidableEq, Repr

/-- Phases of a move (R102): PREP, EQUALISE, OPEN, AWAIT, CLOSE. -/
inductive MovePhase where
  | prep
  | equalise
  | opened
  | await
  | close
  deriving DecidableEq, Repr

/-- The current move of a transit (R102). -/
structure Move where
  kind : MoveKind
  passage : Nat
  source : Nat
  destination : Nat
  phase : MovePhase
  confirmed : Bool
  cascade : List Nat
  blockedAt : Option Nat
  owed : Option Nat
  deriving DecidableEq, Repr

/-- Transit states (R102, R103). -/
inductive TransitState where
  | queued
  | moving
  | waitingNext
  | settled
  deriving DecidableEq, Repr

/-- Origin of a transit (R91). -/
inductive Origin where
  | call
  | plan
  deriving DecidableEq, Repr

/-- An entry of a transit's operations list (R117). -/
structure OpEntry where
  passage : Nat
  purpose : Purpose
  waterTaken : Bool
  deriving DecidableEq, Repr

/-- A berth: the vessel, its berth length and its solo estimate (R91). -/
structure Berth where
  mark : Mark
  length : Nat
  estimate : Nat
  deriving DecidableEq, Repr

/-- A reading of the day clock: day and seconds, or absent for UNSET (R134). -/
abbrev Stamp := Option (Nat × Nat)

/-- The water record of a transit (R102). -/
structure Water where
  predicted : Nat
  measured : Nat
  anomaly : Bool
  stale : Bool
  deriving DecidableEq, Repr

/-- The overdue timer: the limit it was started with, in s, and the time left, in ms (R112). -/
inductive Overdue where
  | stopped
  | running (limit left : Nat)
  | paused (limit left : Nat)
  deriving DecidableEq, Repr

/-- A transit record (R102). -/
structure Transit where
  id : Nat
  dir : Direction
  state : TransitState
  origin : Origin
  held : List Nat
  move : Option Move
  ops : List OpEntry
  berths : List Berth
  generation : Nat
  night : Bool
  callTime : Stamp
  water : Water
  overdue : Overdue
  deriving DecidableEq, Repr

/-! ## Toll Calculator (07) -/

/-- A tariff with its generation number (R129). -/
structure Generation where
  number : Nat
  tariff : Tariff
  deriving DecidableEq, Repr

/-- The day clock (R132). `second` runs toward the next second while the clock is SET. -/
structure DayClock where
  isSet : Bool
  day : Nat
  sec : Nat
  second : Timer
  deriving DecidableEq, Repr

/-- The Toll Calculator. -/
structure Toll where
  current : Generation
  previous : Generation
  clock : DayClock
  deriving DecidableEq, Repr

/-- The parts of a charge or an estimate (R139 to R141). -/
structure Parts where
  base : Nat
  length : Nat
  tonnage : Nat
  water : Nat
  surcharge : Nat
  amount : Nat
  capped : Bool
  deriving DecidableEq, Repr

/-- A charge record (R142). -/
structure Charge where
  mark : Mark
  cls : VesselClass
  account : Nat
  transit : Nat
  generation : Nat
  share : Nat
  parts : Parts
  night : Bool
  anomaly : Bool
  deriving DecidableEq, Repr

/-! ## Toll Accounts (08) -/

/-- An account (R148). Account 0 has number 0, limit 0 and hold clear; no limit or hold applies to it. -/
structure Account where
  number : Nat
  opening : Nat
  balance : Int
  limit : Nat
  hold : Bool
  commitment : Nat
  deriving DecidableEq, Repr

/-- Status of an account (R149). -/
inductive AccountStatus where
  | opened
  | blocked
  deriving DecidableEq, Repr

/-- What a journal entry records (R158). -/
inductive EntryKind where
  | charge (c : Charge)
  | payment (account amount : Nat)
  deriving DecidableEq, Repr

/-- A journal entry (R158). -/
structure JournalEntry where
  seq : Nat
  kind : EntryKind
  stamp : Stamp
  deriving DecidableEq, Repr

/-- The result held in a RESOLVED quote slot (08 section 8.6). -/
inductive QuoteResult where
  | charge (e : JournalEntry)
  | withdrawn
  | noCharge
  deriving DecidableEq, Repr

/-- A quote slot (R161). The discard timer runs, in ms, while RESOLVED. -/
inductive QuoteSlot where
  | free
  | pending (mark : Mark)
  | resolved (mark : Mark) (result : QuoteResult) (left : Nat)
  deriving DecidableEq, Repr

/-- The Toll Accounts. `table` is kept in rising order of account number. -/
structure Accounts where
  counter : Account
  table : List Account
  journal : List JournalEntry
  reserved : Nat
  nextSeq : Nat
  slots : Quad QuoteSlot
  deriving DecidableEq, Repr

/-! ## Authority Controller (09) -/

/-- Service modes (09 section 9.2). -/
inductive Mode where
  | config
  | service
  | safeHold
  deriving DecidableEq, Repr

/-- Causes of SAFE_HOLD (R174). -/
inductive HoldCause where
  | estop
  | emergencyStop (sender : Station)
  | gateFault (k : Nat)
  | sluiceFault (k : Nat)
  | authorityLost
  | warmReset
  deriving DecidableEq, Repr

/-- Cause of a change of mode (R171). -/
inductive ModeCause where
  | leaveConfig
  | enterConfig
  | resumeService
  | hold (c : HoldCause)
  deriving DecidableEq, Repr

/-- The Authority Controller (R170). `claim` is the pending claim of REGION with the time left on the handover timer, in ms. -/
structure Authority where
  mode : Mode
  holder : Option Station
  claim : Timer
  holdCause : Option HoldCause
  estop : Bool
  deriving DecidableEq, Repr

/-! ## Inputs -/

/-- The limit inputs of a gate. -/
structure LimitPins where
  openLimit : Bool
  closedLimit : Bool
  deriving DecidableEq, Repr

/-- The lit inputs of the two heads of a passage. -/
structure LampPins where
  aboveRed : Bool
  aboveGreen : Bool
  belowRed : Bool
  belowGreen : Bool
  deriving DecidableEq, Repr

/-- The inputs of the part as they stand on its lines (11 section 11.6). -/
structure Pins where
  limits : Quad LimitPins
  feedback : Quad Nat
  lamps : Quad LampPins
  estop : Bool
  reset : Bool
  deriving DecidableEq, Repr

end Sys2Proof.Machine
end

