-- ==== Sys2Proof/Machine/Messages.lean ====
section
/-! DEFINITION. What the part sends to its stations: notices (10 section 10.6) and replies (R195, R196), as the fields the rules name, and the records of a port (R188). -/

namespace Sys2Proof.Machine

/-! ## Notices -/

/-- Notice classes, in class-code order (10 section 10.6). -/
inductive NoticeClass where
  | transit
  | water
  | passage
  | lamp
  | authority
  | account
  | service
  | level
  deriving DecidableEq, Repr

/-- Why a vessel left the register (R79). -/
inductive WithdrawCause where
  | withdraw
  | gauge
  | abandoned
  deriving DecidableEq, Repr

/-- Why a transit was cancelled (R96, R97). -/
inductive CancelCause where
  | cancel
  | withdrawn
  deriving DecidableEq, Repr

/-- Why the transit queue became empty (R99). -/
inductive EmptyCause where
  | started
  | cancel
  | withdrawn
  deriving DecidableEq, Repr

/-- Why a poll was bad (R7). -/
inductive BadPollCause where
  | timeout
  | faultReply
  deriving DecidableEq, Repr

/-- Cause of an AUTHORITY notice (R178). -/
inductive AuthorityCause where
  | claim
  | release
  | silence
  | reset
  deriving DecidableEq, Repr

/-- Outcome of a pending claim (R181, R182, R183). -/
inductive ClaimOutcome where
  | granted
  | denied
  | lapsed
  deriving DecidableEq, Repr

/-- Cause of ACCOUNT_BLOCKED (R149). -/
inductive BlockedCause where
  | hold
  | limit
  deriving DecidableEq, Repr

/-- The kind of a quote result (R165). -/
inductive QuoteKind where
  | charge
  | withdrawn
  | noCharge
  deriving DecidableEq, Repr

/-- The notices, each with what its rule says it carries. The former state that VESSEL_WITHDRAWN carries (R79) is WAITING where no transit stands in it and CALLED where one does. DESIGN CHOICE (log 52): SLUICE_FAULT carries the fault cause beside the three fields of R27. -/
inductive Notice where
  | vesselAnnounced (mark : Mark) (dir : Direction) (cls : VesselClass) (arrival position : Nat)
  | vesselAmended (mark : Mark) (length beam deadweight : Nat) (cls : VesselClass) (account : Nat)
  | vesselWithdrawn (mark : Mark) (cause : WithdrawCause) (transit : Option Nat)
  | transitCalled (id : Nat) (dir : Direction) (origin : Origin) (position generation : Nat) (night : Bool) (berths : List Berth)
  | transitCancelled (id : Nat) (cause : CancelCause) (marks : List Mark)
  | queueOverflow (dir : Direction) (marks : Nat)
  | queueEmpty (id : Nat) (cause : EmptyCause)
  | flightIdle (stamp : Stamp)
  | transitStarted (id : Nat) (dir : Direction) (chamber : Nat)
  | moveBegun (id : Nat) (kind : MoveKind) (passage source destination : Nat)
  | moveBlocked (id passage chamber : Nat)
  | moveReady (id : Nat) (kind : MoveKind) (passage : Nat) (awaited : ConfirmKind)
  | moveOverdue (id : Nat) (kind : MoveKind) (passage limit : Nat)
  | moveDone (id : Nat) (kind : MoveKind) (passage : Nat)
  | transitSettled (id : Nat) (water : Water) (volume : Nat) (amounts : List (Mark × Nat))
  | transitEnded (id : Nat)
  | transitAbandoned (id : Nat) (marks : List Mark)
  | sensorFailed (pound : Nat) (cause : BadPollCause)
  | sensorGood (pound : Nat)
  | highWater (passage hStar hMax : Nat)
  | volumeAnomaly (id predicted measured bound volume : Nat)
  | gateSlow (passage seconds : Nat)
  | gateFault (passage : Nat) (cause : GateFault) (position : GatePosition)
  | sluiceFault (passage : Nat) (cause : SluiceFault) (commanded : Option Nat) (position : Nat)
  | levelTimeout (passage : Nat) (purpose : Purpose) (transit : Option Nat) (position : Nat)
  | lampFault (passage : Nat) (side : Side) (output : Aspect) (red green : Bool)
  | lampRestored (passage : Nat) (side : Side) (output : Aspect)
  | authority (holder previous : Option Station) (cause : AuthorityCause) (outcome : Option ClaimOutcome)
  | claimPending (claimant : Station) (seconds : Nat)
  | accountBlocked (number : Nat) (balance : Int) (limit : Nat) (cause : BlockedCause)
  | accountOpened (number : Nat) (balance : Int) (limit : Nat)
  | quoteReady (mark : Mark) (slot : Nat) (kind : QuoteKind)
  | tariffChanged (current previous : Nat)
  | serviceMode (mode previous : Mode) (cause : ModeCause)
  | estopReleased
  | levelWindow (pound : Nat) (level : LevelRecord) (equal : List (Nat × Bool))
  deriving DecidableEq, Repr

/-- The class of a notice (10 section 10.6). -/
def Notice.cls : Notice → NoticeClass
  | .vesselAnnounced _ _ _ _ _ => .transit
  | .vesselAmended _ _ _ _ _ _ => .transit
  | .vesselWithdrawn _ _ _ => .transit
  | .transitCalled _ _ _ _ _ _ _ => .transit
  | .transitCancelled _ _ _ => .transit
  | .queueOverflow _ _ => .transit
  | .queueEmpty _ _ => .transit
  | .flightIdle _ => .transit
  | .transitStarted _ _ _ => .transit
  | .moveBegun _ _ _ _ _ => .transit
  | .moveBlocked _ _ _ => .transit
  | .moveReady _ _ _ _ => .transit
  | .moveOverdue _ _ _ _ => .transit
  | .moveDone _ _ _ => .transit
  | .transitSettled _ _ _ _ => .transit
  | .transitEnded _ => .transit
  | .transitAbandoned _ _ => .transit
  | .sensorFailed _ _ => .water
  | .sensorGood _ => .water
  | .highWater _ _ _ => .water
  | .volumeAnomaly _ _ _ _ _ => .water
  | .gateSlow _ _ => .passage
  | .gateFault _ _ _ => .passage
  | .sluiceFault _ _ _ _ => .passage
  | .levelTimeout _ _ _ _ => .passage
  | .lampFault _ _ _ _ _ => .lamp
  | .lampRestored _ _ _ => .lamp
  | .authority _ _ _ _ => .authority
  | .claimPending _ _ => .authority
  | .accountBlocked _ _ _ _ => .account
  | .accountOpened _ _ _ => .account
  | .quoteReady _ _ _ => .account
  | .tariffChanged _ _ => .account
  | .serviceMode _ _ _ => .service
  | .estopReleased => .service
  | .levelWindow _ _ _ => .level

/-- The kind code of a notice (10 section 10.6). -/
def Notice.code : Notice → Nat
  | .vesselAnnounced _ _ _ _ _ => 65
  | .vesselAmended _ _ _ _ _ _ => 66
  | .vesselWithdrawn _ _ _ => 67
  | .transitCalled _ _ _ _ _ _ _ => 68
  | .transitCancelled _ _ _ => 69
  | .queueOverflow _ _ => 70
  | .queueEmpty _ _ => 71
  | .flightIdle _ => 72
  | .transitStarted _ _ _ => 73
  | .moveBegun _ _ _ _ _ => 74
  | .moveBlocked _ _ _ => 75
  | .moveReady _ _ _ _ => 76
  | .moveOverdue _ _ _ _ => 77
  | .moveDone _ _ _ => 78
  | .transitSettled _ _ _ _ => 79
  | .transitEnded _ => 80
  | .transitAbandoned _ _ => 81
  | .sensorFailed _ _ => 82
  | .sensorGood _ => 83
  | .highWater _ _ _ => 84
  | .volumeAnomaly _ _ _ _ _ => 85
  | .gateSlow _ _ => 86
  | .gateFault _ _ _ => 87
  | .sluiceFault _ _ _ _ => 88
  | .levelTimeout _ _ _ _ => 89
  | .lampFault _ _ _ _ _ => 90
  | .lampRestored _ _ _ => 91
  | .authority _ _ _ _ => 92
  | .claimPending _ _ => 93
  | .accountBlocked _ _ _ _ => 94
  | .accountOpened _ _ _ => 95
  | .quoteReady _ _ _ => 96
  | .tariffChanged _ _ => 97
  | .serviceMode _ _ _ => 98
  | .estopReleased => 99
  | .levelWindow _ _ _ => 100

/-! ## Subscriptions -/

/-- A port's subscription for one class (R198). -/
inductive Sub where
  | off
  | each
  | once
  deriving DecidableEq, Repr

/-- The eight subscriptions of a port (R198). -/
structure Subs where
  transit : Sub
  water : Sub
  passage : Sub
  lamp : Sub
  authority : Sub
  account : Sub
  service : Sub
  level : Sub
  deriving DecidableEq, Repr

/-- The subscription for a class. -/
def Subs.get (s : Subs) : NoticeClass → Sub
  | .transit => s.transit
  | .water => s.water
  | .passage => s.passage
  | .lamp => s.lamp
  | .authority => s.authority
  | .account => s.account
  | .service => s.service
  | .level => s.level

/-- Replace the subscription for a class. -/
def Subs.set (s : Subs) (c : NoticeClass) (x : Sub) : Subs :=
  match c with
  | .transit => { s with transit := x }
  | .water => { s with water := x }
  | .passage => { s with passage := x }
  | .lamp => { s with lamp := x }
  | .authority => { s with authority := x }
  | .account => { s with account := x }
  | .service => { s with service := x }
  | .level => { s with level := x }

/-! ## Replies -/

/-- Reply statuses (R196). -/
inductive Status where
  | ok
  | okClamped
  | deferred
  | pending
  | busy
  | notAuthorised
  | wrongMode
  | wrongState
  | unknown
  | duplicate
  | full
  | outOfRange
  | outOfGauge
  | interlock
  | tariffBusy
  | journalFull
  | incomplete
  | badRequest
  deriving DecidableEq, Repr

/-- Status codes on the wire (R196). -/
def Status.code : Status → Nat
  | .ok => 0
  | .okClamped => 1
  | .deferred => 2
  | .pending => 3
  | .busy => 4
  | .notAuthorised => 5
  | .wrongMode => 6
  | .wrongState => 7
  | .unknown => 8
  | .duplicate => 9
  | .full => 10
  | .outOfRange => 11
  | .outOfGauge => 12
  | .interlock => 13
  | .tariffBusy => 14
  | .journalFull => 15
  | .incomplete => 16
  | .badRequest => 17

/-- An item of the configuration that is missing (R208). -/
inductive ConfigItem where
  | flight
  | calibration (pound : Nat)
  deriving DecidableEq, Repr

/-- A test that bars the return to SERVICE (R186). -/
inductive Blocker where
  | mode
  | incomplete (item : ConfigItem)
  | estop
  | faultAt (passage : Nat)
  | sensorFailedAt (chamber : Nat)
  deriving DecidableEq, Repr

/-- The fields of SET_FLIGHT that a refusal names (R204). -/
inductive FlightField where
  | n
  | area
  | hMax
  | hBot
  | usable
  | width
  | clearance
  deriving DecidableEq, Repr

/-- The window settings of SET_SENSOR (R206). -/
inductive SensorSetting where
  | w
  | eqTol
  | rippleLim
  | stillCount
  deriving DecidableEq, Repr

/-- What a refusal carries beside its status, where its rule names something. -/
inductive Detail where
  | nothing
  | mark (m : Mark)
  | creditHeld (m : Mark)
  | field (f : FlightField) (chamber : Option Nat)
  | passage (k : Nat)
  | pound (p : Nat)
  | test (n : Nat)
  | blocked (b : Blocker)
  | generation (previous references : Nat)
  deriving DecidableEq, Repr

/-- One pound of a READ_LEVELS reply (R17). -/
structure LevelItem where
  status : SensorStatus
  badRun : Nat
  goodRun : Nat
  level : LevelRecord
  deriving DecidableEq, Repr

/-- The answer to a prediction request (R12, R13): NO_DATA with the STALE pounds, or h*, both means, the receiving pound and whether the overflow check passes. -/
inductive Prediction where
  | noData (pounds : List Nat)
  | level (hStar above below : Nat) (receiver : Option Nat) (passes : Bool)
  deriving DecidableEq, Repr

/-- A head in a READ_PASSAGE reply (R59). -/
structure HeadItem where
  output : Aspect
  red : Bool
  green : Bool
  agrees : Bool
  fault : Bool
  faultCount : Nat
  deriving DecidableEq, Repr

/-- The slot in a READ_PASSAGE reply (R49). -/
structure SlotItem where
  purpose : Purpose
  transit : Option Nat
  phase : OpPhase
  stall : Option StallReason
  target : Nat
  hStar : Option Nat
  left : Option Nat
  startReading : Option Reading
  endReading : Option Reading
  predicted : Option Nat
  deriving DecidableEq, Repr

/-- The READ_PASSAGE reply (R17, R49, R59). -/
structure PassageReport where
  still : Nat
  equal : Bool
  prediction : Prediction
  gateState : GateState
  gatePosition : GatePosition
  gateCause : Option GateFault
  lastTravel : Nat
  openPending : Bool
  sluicePosition : Nat
  sluiceState : SluiceState
  sluiceCommanded : Option Nat
  sluiceCause : Option SluiceFault
  slot : Option SlotItem
  claims : List (Nat × Option Nat)
  permit : Bool
  above : HeadItem
  below : HeadItem
  deriving DecidableEq, Repr

/-- Credit-held status as a reply shows it (R202). -/
inductive CreditStatus where
  | notHeld
  | held
  | notApplicable
  deriving DecidableEq, Repr

/-- The READ_VESSEL reply (R79). -/
structure VesselReport where
  vessel : Vessel
  queuePosition : Option Nat
  berthPosition : Option Nat
  credit : CreditStatus
  deriving DecidableEq, Repr

/-- What a transit waits for (R126). -/
inductive WaitCondition where
  | entryBlocked
  | destinationHeld
  | cascadeBlocked (chamber : Nat)
  | slotBusy (passage : Nat)
  | operation (passage : Nat) (phase : OpPhase) (stall : Option StallReason)
  | gatePending
  | gateTravel
  | confirmation (kind : ConfirmKind) (left : Overdue)
  | hold
  | none
  deriving DecidableEq, Repr

/-- The READ_TRANSIT reply (R126). -/
structure TransitReport where
  record : Transit
  queuePosition : Option Nat
  wait : WaitCondition
  deriving DecidableEq, Repr

/-- The READ_ACCOUNT reply (R168). Limit and headroom are absent for account 0. -/
structure AccountReport where
  number : Nat
  opening : Nat
  balance : Int
  limit : Option Nat
  hold : Bool
  commitment : Nat
  status : AccountStatus
  headroom : Option Int
  deriving DecidableEq, Repr

/-- A transit of the queue in STATUS (R100). -/
structure QueueItem where
  id : Nat
  dir : Direction
  origin : Origin
  berths : Nat
  deriving DecidableEq, Repr

/-- The STATUS reply (R201), block by block. -/
structure StatusReport where
  sensors : List SensorStatus
  equal : List Bool
  upSuspended : Bool
  downSuspended : Bool
  entries : Nat
  upLength : Nat
  downLength : Nat
  autoOn : Bool
  lastDir : Direction
  runCount : Nat
  reason : BlockReason
  capacity : Nat
  queue : List QueueItem
  idle : Bool
  flightDir : Option Direction
  holders : List (Option Nat)
  records : Nat
  currentGen : Nat
  previousGen : Nat
  previousRefs : Nat
  clock : Stamp
  nightNow : Bool
  accounts : Nat
  journalHeld : Nat
  journalFree : Nat
  journalReserved : Nat
  journalMargin : Nat
  nextSeq : Nat
  slots : List (Option Mark × Bool)
  mode : Mode
  holdCause : Option HoldCause
  holder : Option Station
  consoleHeard : Bool
  regionHeard : Bool
  claimLeft : Option Nat
  estop : Bool
  blockers : List Blocker
  lost : Bool
  queued : Nat
  subs : Subs
  heard : List Bool
  deriving DecidableEq, Repr

/-- The result fields of a reply. -/
inductive Body where
  | empty
  | refused (d : Detail)
  | status (r : StatusReport)
  | levels (l : List LevelItem)
  | passage (r : PassageReport)
  | vessel (r : VesselReport)
  | transit (r : TransitReport)
  | account (r : AccountReport)
  | announced (arrival position : Nat)
  | amended (position : Nat) (credit : Bool)
  | withdrawn (transit : Option (Nat × Nat))
  | autoCall (on : Bool)
  | planned (id position : Nat)
  | cancelled (vessels : Nat)
  | confirmed (phase : MovePhase) (charge : Option (Nat × Nat))
  | passageState (gate : GateState) (sluice : SluiceState) (phase : Option OpPhase)
  | authority (mode : Mode) (holder : Option Station) (left : Option Nat) (d : Detail)
  | flight (n minUsable minWidth withdrawn : Nat)
  | sensor (w eqTol rippleLim stillCount : Nat) (clamped : List SensorSetting) (calibrated : Quin Bool)
  | timing (applied : Timing) (clamped : List Nat)
  | clock (day sec : Nat)
  | tariff (number : Nat)
  | accountState (a : Account) (status : AccountStatus)
  | payment (balance : Int) (status : AccountStatus) (seq : Nat)
  | taken (entries : List JournalEntry) (held nextSeq : Nat)
  | takenMore (entries : List JournalEntry)
  | estimate (parts : Parts) (generation : Nat) (night : Bool)
  | deferred (slot transit estimate : Nat)
  | quoted (r : QuoteResult)
  | journal (e : JournalEntry)
  | subscriptions (s : Subs)
  deriving DecidableEq, Repr

/-- A block's answer to a request: the status and the result fields (R193). -/
structure Answer where
  status : Status
  body : Body
  deriving DecidableEq, Repr

/-! ## Ports -/

/-- An outgoing frame: a part of a reply, a busy answer, or a notice (R197). -/
inductive OutFrame where
  | reply (tag kind : Nat) (status : Status) (part parts : Nat) (body : Body)
  | busy (tag kind : Nat)
  | notice (n : Notice)
  deriving DecidableEq, Repr

/-- The reply in progress: its frames and the number already sent (R188, R195). -/
structure ReplyProgress where
  frames : List OutFrame
  sent : Nat
  deriving DecidableEq, Repr

/-- Receiver states (R189). -/
inductive ReceiverState where
  | hunt
  | header
  | payload
  | check
  deriving DecidableEq, Repr

/-- Port states (R195). -/
inductive PortState where
  | idle
  | replying
  deriving DecidableEq, Repr

/-- What the SLU holds for one port (R188). `assembled` is the frame being assembled with its sync byte, empty in HUNT. `sent` is how much of the frame on the line has been sent, in hundredths of a byte (log 13); 0 while there is none. -/
structure Port where
  assembled : List Byte
  gap : Timer
  silence : Timer
  heard : Bool
  reply : Option ReplyProgress
  busy : Option (Nat × Nat)
  queue : List Notice
  lost : Bool
  subs : Subs
  line : Option OutFrame
  sent : Nat
  deriving DecidableEq, Repr

/-- The three ports. -/
structure Ports where
  console : Port
  region : Port
  toll : Port
  deriving DecidableEq, Repr

/-- The port of a station. -/
def Ports.get (p : Ports) : Station → Port
  | .console => p.console
  | .region => p.region
  | .toll => p.toll

/-- Replace the port of a station. -/
def Ports.set (p : Ports) (st : Station) (x : Port) : Ports :=
  match st with
  | .console => { p with console := x }
  | .region => { p with region := x }
  | .toll => { p with toll := x }

/-- The same function on every port. -/
def Ports.map (f : Port → Port) (p : Ports) : Ports :=
  { console := f p.console, region := f p.region, toll := f p.toll }

end Sys2Proof.Machine
end

