-- ==== Sys2Proof/Config.lean ====
section
/-! DEFINITION. What the manual fixes for every LF3 (capacities and fixed times), and the free functions for what the manual leaves open: the payload layouts it does not give and the position that a feedback code above 8 leaves. -/

namespace Sys2Proof

/-- The poll timeout, in ms (01, table of 1.1). -/
def Config.pollTimeout : Nat := 20
/-- The receive gap, in ms (R188). -/
def Config.gapTime : Nat := 50
/-- The lamp agreement time, in ms (R56). -/
def Config.agreementTime : Nat := 2000
/-- One second of the timebase, in ms. -/
def Config.second : Nat := 1000
/-- The places of a notice queue (R200). -/
def Config.noticeDepth : Nat := 16
/-- The entries of the charge journal (R158). -/
def Config.journalDepth : Nat := 128
/-- The entries of the vessel register (R61). -/
def Config.registerSize : Nat := 32
/-- The entries of the account table (R148). -/
def Config.accountTableSize : Nat := 256
/-- The places of the transit queue (R81). -/
def Config.transitQueueSize : Nat := 4
/-- The most berths of a transit (R88). -/
def Config.maxBerths : Nat := 8
/-- The greatest payload length (R189). -/
def Config.maxPayload : Nat := 240
/-- The hundredths of a byte that a line sends in a millisecond: 115,200 baud, 10 bits a byte (R188). -/
def Config.lineRate : Nat := 1152
/-- The bytes of a reply part behind its three header bytes (R195). -/
def Config.partBytes : Nat := 237
/-- The greatest balance a payment may reach, in cents (R148). -/
def Config.maxBalance : Int := 2000000000

/-- FREE (log 16): the position that the record of a sluice takes from a feedback code above 8, to which the manual gives no position. -/
opaque Config.strayPosition (code : Nat) : Fin 9

/-- FREE (log 9): the result fields of a reply as bytes, for a result whose layout the manual does not give. -/
opaque Config.resultBytes (body : Machine.Body) : List Byte

/-- FREE (log 9): the fields of a notice behind its class code, whose layouts the manual does not give. -/
opaque Config.noticeBytes (n : Machine.Notice) : List Byte

/-- FREE (log 9): the request that a payload of a given kind spells, or none where the payload's length is not one that the kind allows. The manual gives no layout for the payloads of requests but CONFIRM's, so nothing is known of this function. -/
opaque Config.readPayload (kind : Nat) (payload : List Byte) : Option Request

end Sys2Proof
end

