-- ==== Sys2Proof/Machine/Heads.lean ====
section
/-! DEFINITION. One lamp head: what it should show, whether it agrees, and its agreement timer (03 section 3.3). -/

namespace Sys2Proof.Machine

/-- The red and green indications a healthy head gives for an output (R56). -/
def Aspect.expects : Aspect → Bool × Bool
  | .red => (true, false)
  | .redGreen => (true, true)
  | .green => (false, true)
  | .redFlash => (true, false)
  | .dark => (false, false)

/-- A head agrees when both its indications match the commanded output (R56). -/
def Head.agrees (h : Head) : Bool := decide ((h.red, h.green) = h.output.expects)

/-- The agreement timer after an event on the head (R56): it runs while the head stands against its fault state (CLEAR and disagreeing, or FAULT and agreeing), from 0 again where the output has just changed, and is stopped otherwise. -/
def Head.retime (changed : Bool) (h : Head) : Head :=
  if h.agrees = h.fault then
    { h with timer := if changed then some Config.agreementTime else some (h.timer.getD Config.agreementTime) }
  else
    { h with timer := none }

/-- Command an output; a head that already has it keeps its command and its timer (R53, R56). -/
def Head.command (a : Aspect) (h : Head) : Head :=
  if h.output = a then h else Head.retime true { h with output := a }

/-- Take a change of the head's indications (R56). -/
def Head.indicate (red green : Bool) (h : Head) : Head :=
  Head.retime false { h with red := red, green := green }

/-- A head set for a fresh output with the fault CLEAR, its agreement timer restarted for that output (R52, R60). -/
def Head.restart (a : Aspect) (h : Head) : Head :=
  Head.retime true { h with output := a, fault := false }

/-- The head of a side. -/
def HeadPair.get (p : HeadPair) : Side → Head
  | .above => p.above
  | .below => p.below

/-- Replace the head of a side. -/
def HeadPair.set (p : HeadPair) (side : Side) (h : Head) : HeadPair :=
  match side with
  | .above => { p with above := h }
  | .below => { p with below := h }

/-- The same function on both heads. -/
def HeadPair.map (f : Head → Head) (p : HeadPair) : HeadPair :=
  { above := f p.above, below := f p.below }

end Sys2Proof.Machine
end

