-- ==== Sys2Proof/Machine/Defaults.lean ====
section
/-! DEFINITION. The values of every record at power-on (R18, R50, R60, R80, R101, R128, R147, R169, R187, R203, R209), as functions of the settings and the inputs they are read from. -/

namespace Sys2Proof.Machine

/-! ## Level Monitor (R18) -/

/-- An empty accumulator (R7). -/
def Accum.empty : Accum := { count := 0, sum := 0, least := none, greatest := none, clamped := false }

/-- The level record at power-on (R18). -/
def LevelRecord.powerOn : LevelRecord :=
  { mean := 0, min := 0, max := 0, ripple := 0, clamped := false, stale := true, count := 0 }

/-- The sensor record at power-on (R18, R208). -/
def Sensor.powerOn : Sensor :=
  { zero := 0, span := 20000, calibrated := false, status := .good, badRun := 0, goodRun := 0,
    accum := Accum.empty, level := LevelRecord.powerOn }

/-- A sensor record set as at power-on, its calibration kept (R16). -/
def Sensor.afresh (s : Sensor) : Sensor :=
  { Sensor.powerOn with zero := s.zero, span := s.span, calibrated := s.calibrated }

/-- A sensor record at warm reset: GOOD, runs and accumulator empty, the level record STALE with its values kept (R19). -/
def Sensor.warm (s : Sensor) : Sensor :=
  { s with status := .good, badRun := 0, goodRun := 0, accum := Accum.empty, level := { s.level with stale := true } }

/-- The Level Monitor at power-on (R18, R209). -/
def LevelMonitor.powerOn : LevelMonitor :=
  { sensors := Quin.all Sensor.powerOn, still := Quad.all 0, w := 8, eqTol := 30, rippleLim := 60, stillCount := 3,
    poll := none, scanTimer := some 500, tickHeld := false, polledN := none, reformDue := false }

/-! ## Flight description and settings -/

/-- A chamber not described yet (log 5). -/
def Chamber.unset : Chamber := { area := 0, hMax := 0, hBot := 0, usable := 0, width := 0 }

/-- The flight description at power-on: N unset (R18, R208), the rest DESIGN CHOICE (log 5). -/
def Flight.powerOn : Flight :=
  { n := none, chambers := ⟨Chamber.unset, Chamber.unset, Chamber.unset⟩, clearance := 0 }

/-- The default settings (R207). -/
def Timing.powerOn : Timing :=
  { scan := 500, gateLimit := 120, slowPct := 80, sluiceTarget := 6, rampInterval := 10, moveLimit := 30,
    eqLimit := 600, entryLimit := 900, exitLimit := 900, silence := 10, handover := 30, discard := 120,
    runLimit := 2, skipLimit := 3 }

/-! ## Passages (R50) -/

/-- A gate's position from its limit inputs (R20). -/
def LimitPins.position (p : LimitPins) : GatePosition :=
  match p.openLimit, p.closedLimit with
  | false, true => .atClosed
  | true, false => .atOpen
  | _, _ => .between

/-- The gate state taken from the limit inputs (R50). -/
def GatePosition.initialState : GatePosition → GateState
  | .atClosed => .closed
  | .atOpen => .opened
  | .between => .stopped

/-- The gate record read afresh from its inputs (R50). The copies in force are the settings (log 6). -/
def Gate.fromPins (t : Timing) (p : LimitPins) : Gate :=
  { state := p.position.initialState, position := p.position, cause := none, lastTravel := 0, limit := t.gateLimit,
    slowPct := t.slowPct, timer := none, pendingOpen := none, drive := .off }

/-- The position that a feedback code reports: 0..8 as it stands; for a code above 8 the manual states none (FREE, log 16). -/
def feedbackPosition (code : Nat) : Nat := if code ≤ 8 then code else (Config.strayPosition code).val

/-- The sluice record read afresh from its feedback (R50). The copies in force are the settings (log 6). -/
def Sluice.fromPins (t : Timing) (code : Nat) : Sluice :=
  { position := feedbackPosition code, state := if code = 0 then .shut else .set, commanded := none, cause := none,
    target := t.sluiceTarget, rampInterval := t.rampInterval, moveLimit := t.moveLimit, moveTimer := none,
    rampTimer := none, driven := false, stepHeld := false }

/-- A passage read afresh from its inputs (R50). -/
def Passage.fromPins (t : Timing) (limits : LimitPins) (feedback : Nat) : Passage :=
  { gate := Gate.fromPins t limits, sluice := Sluice.fromPins t feedback, slot := none, slotFreeOwed := false,
    permit := false }

/-- The Passage Control Unit at power-on and at warm reset (R50, R51). -/
def Pcu.fromPins (t : Timing) (p : Pins) : Pcu :=
  { passages :=
      { zero := Passage.fromPins t p.limits.zero p.feedback.zero
        one := Passage.fromPins t p.limits.one p.feedback.one
        two := Passage.fromPins t p.limits.two p.feedback.two
        three := Passage.fromPins t p.limits.three p.feedback.three }
    claims := ⟨none, none, none⟩
    nextOrder := 0 }

/-! ## Lamps (R60) -/

/-- A head at power-on: RED_FLASH, its indications read from its lines (R60). -/
def Head.powerOn (red green : Bool) : Head :=
  Head.retime true { output := .redFlash, red := red, green := green, fault := false, timer := none, faultCount := 0 }

/-- The two heads of a passage at power-on (R60). -/
def HeadPair.powerOn (p : LampPins) : HeadPair :=
  { above := Head.powerOn p.aboveRed p.aboveGreen, below := Head.powerOn p.belowRed p.belowGreen }

/-! ## Vessels, calling, transits (R80, R101, R128) -/

/-- The empty register (R80). -/
def Register.powerOn : Register := { entries := [], up := [], down := [], counter := 0 }

/-- The Call Arbiter at either reset (R101). -/
def Arbiter.powerOn : Arbiter :=
  { autoOn := false, lastDir := .down, runCount := 0, reason := .autoOff, queue := [], lastId := 0, idle := true }

/-! ## Money (R129, R132, R169) -/

/-- The class record of generation 0 at power-on (R129). -/
def ClassRate.powerOn : ClassRate :=
  { base := 0, lengthRate := 0, tonnageRate := 0, waterRate := 0, nightPct := 0, cap := 10000000 }

/-- The tariff of generation 0 at power-on (R129). -/
def Tariff.powerOn : Tariff :=
  { cargo := ClassRate.powerOn, passenger := ClassRate.powerOn, pleasure := ClassRate.powerOn,
    service := ClassRate.powerOn, nightStart := 0, nightEnd := 0, allowance := 10 }

/-- The Toll Calculator at power-on (R147). -/
def Toll.powerOn : Toll :=
  { current := { number := 0, tariff := Tariff.powerOn }, previous := { number := 0, tariff := Tariff.powerOn },
    clock := { isSet := false, day := 0, sec := 0, second := none } }

/-- Account 0 at power-on (R169). -/
def Account.counterPowerOn : Account :=
  { number := 0, opening := 0, balance := 0, limit := 0, hold := false, commitment := 0 }

/-- The Toll Accounts at power-on (R169). -/
def Accounts.powerOn : Accounts :=
  { counter := Account.counterPowerOn, table := [], journal := [], reserved := 0, nextSeq := 0,
    slots := Quad.all .free }

/-! ## Authority and links (R187, R203) -/

/-- The Authority Controller at power-on, the ESTOP level read from its input (R187). -/
def Authority.powerOn (estop : Bool) : Authority :=
  { mode := .config, holder := some .console, claim := none, holdCause := none, estop := estop }

/-- The subscriptions of ports A and B after either reset (R203). -/
def Subs.command : Subs :=
  { transit := .each, water := .each, passage := .each, lamp := .each, authority := .each, account := .each,
    service := .each, level := .off }

/-- The subscriptions of port C after either reset (R203). -/
def Subs.tollDefault : Subs :=
  { transit := .each, water := .off, passage := .off, lamp := .off, authority := .off, account := .each,
    service := .off, level := .off }

/-- A port after either reset, its silence timer started with a silence time in seconds (R203). -/
def Port.fresh (silence : Nat) (subs : Subs) : Port :=
  { assembled := [], gap := none, silence := some (silence * Config.second), heard := false, reply := none,
    busy := none, queue := [], lost := false, subs := subs, line := none, sent := 0 }

/-- The ports after either reset (R203). -/
def Ports.fresh (silence : Nat) : Ports :=
  { console := Port.fresh silence Subs.command, region := Port.fresh silence Subs.command,
    toll := Port.fresh silence Subs.tollDefault }

/-! ## Inputs -/

/-- The inputs that `State.reset` stands on: gates shut, sluices shut, red lamps lit, ESTOP and RESET released (DESIGN CHOICE, log 4). -/
def Pins.quiet : Pins :=
  { limits := Quad.all { openLimit := false, closedLimit := true }, feedback := Quad.all 0,
    lamps := Quad.all { aboveRed := true, aboveGreen := false, belowRed := true, belowGreen := false },
    estop := false, reset := false }

end Sys2Proof.Machine
end

