-- ==== Sys2Proof/Machine/State.lean ====
section
/-! DEFINITION. The state of the LF3 as plain data, its faults and refusals, and the state after reset. -/

namespace Sys2Proof.Machine

/-- What a report of a level operation tells the Lockage Sequencer (R36, R37, R40, R48). -/
inductive Outcome where
  | equalised
  | done
  | aborted
  | takenOver
  deriving DecidableEq, Repr

/-- A report of a level operation to its transit, with its volumes (R38, R118). -/
structure Report where
  transit : Nat
  passage : Nat
  purpose : Purpose
  outcome : Outcome
  predicted : Nat
  measured : Nat
  stale : Bool
  deriving DecidableEq, Repr

/-- A hand-over from one block to another inside an event (00 section 4.4; log 20). -/
inductive Task where
  /-- EQUAL became true on passage k (R11). -/
  | equalTrue (k : Nat)
  /-- Passage k's operation is examined (R31). -/
  | examine (k : Nat)
  /-- The gate or sluice of passage k changed its state (R31, R42, R43). -/
  | passageChanged (k : Nat)
  /-- Chambers were released and are arbitrated (R30). -/
  | arbitrate (chambers : List Nat)
  /-- An operation reports to its transit (R117). -/
  | report (r : Report)
  /-- The slot of passage k has been freed and a slot-free event is owed (R28). -/
  | slotFree (k : Nat)
  /-- A transit requests a level operation (R28). -/
  | request (id k : Nat) (purpose : Purpose)
  /-- The gate of passage k stands at an end (R22, R111, R114). -/
  | gateEnd (k : Nat)
  /-- The queue head is examined (R105). -/
  | examineHead
  /-- A transit in WAITING_NEXT is examined (R106). -/
  | examineNext (id : Nat)
  /-- A chamber holder has been released (R105, R106, R109). -/
  | released (chamber : Nat)
  /-- An account event (R157). -/
  | accountEvent (number : Nat)
  deriving DecidableEq, Repr

/-- The state of the LF3. -/
structure State where
  /-- The inputs as they stand on the lines. -/
  pins : Pins
  /-- The flight description (11). -/
  flight : Flight
  /-- The settings of SET_TIMING (R207). -/
  timing : Timing
  /-- The Level Monitor (01). -/
  lm : LevelMonitor
  /-- The Passage Control Unit (02). -/
  pcu : Pcu
  /-- The lamp heads (03). -/
  lamps : Quad HeadPair
  /-- The vessel register (04). -/
  reg : Register
  /-- The Call Arbiter (05). -/
  arb : Arbiter
  /-- The transit table (06). -/
  table : List Transit
  /-- The Toll Calculator (07). -/
  toll : Toll
  /-- The Toll Accounts (08). -/
  acc : Accounts
  /-- The Authority Controller (09). -/
  auth : Authority
  /-- The Station Link Unit (10). -/
  ports : Ports
  /-- The MODEL's own: hand-overs raised and not yet taken (log 20). -/
  agenda : List Task
  /-- The MODEL's own: a calling event waits (R83; log 20). -/
  callDue : Bool
  /-- The MODEL's own: the commands that wait, the front first. -/
  pending : List Instr
  deriving DecidableEq, Repr

/-- The model's faults. -/
inductive Fault where
  /-- Raised by a field or timer event of a passage above 3 or a quote slot outside 1..4: the part has no such line or record (log 16). Safe. -/
  | noSuchLine
  deriving DecidableEq, Repr

/-- The model's refusals. -/
inductive Refusal where
  /-- Raised by exec for a command that has no meaning yet; no arm does. Safe. -/
  | notModelled (mnemonic : String)
  deriving DecidableEq, Repr

/-- The machine right after power-on (R209) on the inputs of log 4, with no command waiting. -/
def State.reset : State :=
  { pins := Pins.quiet
    flight := Flight.powerOn
    timing := Timing.powerOn
    lm := LevelMonitor.powerOn
    pcu := Pcu.fromPins Timing.powerOn Pins.quiet
    lamps := Pins.quiet.lamps.map HeadPair.powerOn
    reg := Register.powerOn
    arb := Arbiter.powerOn
    table := []
    toll := Toll.powerOn
    acc := Accounts.powerOn
    auth := Authority.powerOn Pins.quiet.estop
    ports := Ports.fresh Timing.powerOn.silence
    agenda := []
    callDue := false
    pending := [] }

end Sys2Proof.Machine
end

