-- ==== Sys2Proof/Machine/Operands.lean ====
section
/-! DEFINITION. The forms of operands: ranges and clamping, well-formed marks, the rights of each role, the frame envelope, and the byte layouts of 10 section 10.8. -/

namespace Sys2Proof.Machine

/-! ## Ranges -/

/-- A value within a closed range. -/
def within (lo hi n : Nat) : Bool := decide (lo ≤ n) && decide (n ≤ hi)

/-- An integer within a closed range. -/
def withinInt (lo hi n : Int) : Bool := decide (lo ≤ n) && decide (n ≤ hi)

/-- A value brought to the nearest limit of its range (R206, R207). -/
def clampTo (lo hi n : Nat) : Nat := if n < lo then lo else if hi < n then hi else n

/-- The scan interval as applied: limited to its range, then the nearest multiple of 100 ms with 50 ms rounded up (R207). -/
def clampScan (n : Nat) : Nat := (clampTo 100 2000 n + 50) / 100 * 100

/-- The window length as applied: the nearest of 4, 8, 16 and 32, the larger where halfway (R206). -/
def clampWindow (n : Nat) : Nat := if n < 6 then 4 else if n < 12 then 8 else if n < 24 then 16 else 32

/-- Division rounded up. A divisor of 0 gives 0. -/
def ceilDiv (a b : Nat) : Nat := (a + b - 1) / b

/-! ## Marks (04 section 4.1) -/

/-- A character of a mark: A to Z, 0 to 9, or a hyphen. -/
def markChar (c : Char) : Bool := within 65 90 c.toNat || within 48 57 c.toNat || decide (c.toNat = 45)

/-- A mark has 1..12 characters, all of them characters of a mark (R63 test 2). -/
def markOk (m : Mark) : Bool := within 1 12 m.length && m.all markChar

/-! ## Rights (R194) -/

/-- What a role may do with a kind. -/
inductive Right where
  | yes
  | holder
  | no
  deriving DecidableEq, Repr

/-- A role's column where CONSOLE and REGION have one right and TOLL another. -/
def Right.split (command toll : Right) : Station → Right
  | .console => command
  | .region => command
  | .toll => toll

/-- A role's column where only CONSOLE as holder has the right. -/
def Right.consoleOnly : Station → Right
  | .console => .holder
  | .region => .no
  | .toll => .no

/-- The role columns of the table of R194. -/
def right (kind : Nat) (st : Station) : Right :=
  if within 1 9 kind then .yes
  else if within 10 17 kind then Right.split .holder .no st
  else if kind = 18 then Right.consoleOnly st
  else if kind = 19 then Right.split .yes .no st
  else if kind = 20 then Right.split .holder .no st
  else if kind = 21 then Right.split .yes .no st
  else if within 22 25 kind then Right.split .holder .no st
  else if kind = 26 then Right.consoleOnly st
  else if within 27 30 kind then Right.split .holder .no st
  else if within 31 38 kind then Right.split .no .yes st
  else if kind = 39 then Right.split .holder .yes st
  else if kind = 40 then .yes
  else .no

/-- The station code of a port (R188). -/
def stationCode : Station → Nat
  | .console => 1
  | .region => 2
  | .toll => 3

/-! ## Bytes -/

/-- A byte of a natural number, modulo 256. -/
def byteOf (n : Nat) : Byte := BitVec.ofNat 8 n

/-- A number in a given count of bytes, least significant first (00 section 4.7). -/
def leBytes : Nat → Nat → List Byte
  | 0, _ => []
  | size + 1, n => byteOf n :: leBytes size (n / 256)

/-- The value of bytes, least significant first. -/
def leValue : List Byte → Nat
  | [] => 0
  | b :: rest => b.toNat + 256 * leValue rest

/-- A signed number in 8 bytes, two's complement (R202). -/
def leSigned (n : Int) : List Byte := leBytes 8 (n % (2 ^ 64)).toNat

/-- The sum of bytes. -/
def byteSum : List Byte → Nat
  | [] => 0
  | b :: rest => b.toNat + byteSum rest

/-- The sync byte (R189). -/
def syncByte : Byte := 0xA5

/-- The check of the bytes behind the sync: their sum modulo 65536 (R189). -/
def checkOf (body : List Byte) : Nat := byteSum body % 65536

/-- The bytes of a frame behind its sync and ahead of its check (R189). -/
def frameBody (code tag kind : Nat) (payload : List Byte) : List Byte :=
  byteOf code :: byteOf tag :: byteOf kind :: byteOf payload.length :: payload

/-- A frame on the wire (R189). -/
def frameBytes (code tag kind : Nat) (payload : List Byte) : List Byte :=
  syncByte :: (frameBody code tag kind payload ++ leBytes 2 (checkOf (frameBody code tag kind payload)))

/-! ## Codes of list values (R202) -/

/-- Class codes: CARGO 0, PASSENGER 1, PLEASURE 2, SERVICE 3. -/
def classCode : VesselClass → Nat
  | .cargo => 0
  | .passenger => 1
  | .pleasure => 2
  | .service => 3

/-- Direction codes: UP 0, DOWN 1. -/
def directionCode : Direction → Nat
  | .up => 0
  | .down => 1

/-- Confirmation codes: IN 0, MOVED 1, CLEAR 2 (10 section 10.5). -/
def confirmCode : ConfirmKind → Nat
  | .entered => 0
  | .moved => 1
  | .cleared => 2

/-- The confirmation kind of a code; absent outside the list. -/
def confirmOfCode : Nat → Option ConfirmKind
  | 0 => some .entered
  | 1 => some .moved
  | 2 => some .cleared
  | _ => none

/-- 0 or 1. -/
def bit (b : Bool) : Nat := if b then 1 else 0

/-! ## The two central layouts (10 section 10.8) -/

/-- A mark: its length, then 12 bytes of characters, unused bytes 0. -/
def markBytes (m : Mark) : List Byte :=
  byteOf m.length :: ((m.take 12).map (fun c => byteOf c.toNat) ++ List.replicate (12 - m.length) (byteOf 0))

/-- The state code, the transit id (0 when absent) and the solo estimate of a vessel. -/
def VesselState.fields : VesselState → Nat × Nat × Option Nat
  | .waiting => (0, 0, none)
  | .called t e => (1, t, some e)
  | .exited t e => (2, t, some e)

/-- Credit-held codes: not held 0, held 1, not applicable 2. -/
def CreditStatus.code : CreditStatus → Nat
  | .notHeld => 0
  | .held => 1
  | .notApplicable => 2

/-- The 37 bytes of the vessel entry in a READ_VESSEL reply. -/
def VesselReport.bytes (r : VesselReport) : List Byte :=
  markBytes r.vessel.mark
    ++ leBytes 2 r.vessel.account
    ++ leBytes 1 (classCode r.vessel.cls)
    ++ leBytes 2 r.vessel.length
    ++ leBytes 1 r.vessel.beam
    ++ leBytes 2 r.vessel.deadweight
    ++ leBytes 1 (directionCode r.vessel.dir)
    ++ leBytes 1 (stationCode r.vessel.station)
    ++ leBytes 2 r.vessel.arrival
    ++ leBytes 1 r.vessel.skips
    ++ leBytes 1 (bit r.vessel.precedence)
    ++ leBytes 1 r.vessel.state.fields.1
    ++ leBytes 1 r.vessel.state.fields.2.1
    ++ leBytes 1 (bit r.vessel.state.fields.2.2.isSome)
    ++ leBytes 4 (r.vessel.state.fields.2.2.getD 0)
    ++ leBytes 1 (r.queuePosition.getD 0)
    ++ leBytes 1 (r.berthPosition.getD 0)
    ++ leBytes 1 r.credit.code

/-- The flag byte of a charge: NIGHT 1, CAPPED 2, ANOMALY 4, summed. -/
def Charge.flags (c : Charge) : Nat := bit c.night + 2 * bit c.parts.capped + 4 * bit c.anomaly

/-- The six bytes of a stamp: SET mark, day number, seconds of day. -/
def stampBytes : Stamp → List Byte
  | none => leBytes 1 0 ++ leBytes 2 0 ++ leBytes 3 0
  | some (day, sec) => leBytes 1 1 ++ leBytes 2 day ++ leBytes 3 sec

/-- The 56 bytes of a charge journal entry. -/
def JournalEntry.bytes (e : JournalEntry) : List Byte :=
  match e.kind with
  | .charge c =>
    leBytes 2 e.seq ++ leBytes 1 0 ++ leBytes 2 c.account ++ leBytes 4 c.parts.amount ++ stampBytes e.stamp
      ++ markBytes c.mark ++ leBytes 1 (classCode c.cls) ++ leBytes 1 c.transit ++ leBytes 1 c.generation
      ++ leBytes 4 c.share ++ leBytes 4 c.parts.base ++ leBytes 4 c.parts.length ++ leBytes 4 c.parts.tonnage
      ++ leBytes 4 c.parts.water ++ leBytes 4 c.parts.surcharge ++ leBytes 1 c.flags
  | .payment account amount =>
    leBytes 2 e.seq ++ leBytes 1 1 ++ leBytes 2 account ++ leBytes 4 amount ++ stampBytes e.stamp
      ++ List.replicate 41 (byteOf 0)

end Sys2Proof.Machine
end

