-- ==== Sys2Proof/Machine/Flags.lean ====
section
/-! DEFINITION. The conditions that the rules derive from the records and never store: equality, predictions, the interlock, holders, account status, completeness, port and receiver states. -/

namespace Sys2Proof.Machine

/-! ## Passages and chambers (00 section 1.1) -/

/-- The chamber count in force; while N is unset the part works as for N = 3 (R1, R45, R52, R173; log 14). -/
def State.count (s : State) : Nat := s.flight.n.getD 3

/-- The passage is in use. -/
def State.inUse (s : State) (k : Nat) : Bool := decide (k ≤ s.count)

/-- The passages in use, in order. -/
def State.passagesInUse (s : State) : List Nat := List.range (s.count + 1)

/-- The pounds in use, in order. -/
def State.poundsInUse (s : State) : List Nat := List.range (s.count + 2)

/-- The chambers in use, in order. -/
def State.chambersInUse (s : State) : List Nat := (List.range s.count).map (· + 1)

/-- The chambers adjacent to a passage of a flight of n chambers (R29). -/
def chambersBeside (n k : Nat) : List Nat := [k, k + 1].filter (within 1 n)

/-- The chambers adjacent to a passage (R29). -/
def State.chambersOf (s : State) (k : Nat) : List Nat := chambersBeside s.count k

/-- The other passages of the chambers adjacent to a passage (R42). -/
def State.othersOf (s : State) (k : Nat) : List Nat :=
  (if 1 ≤ k ∧ k ≤ s.count then [k - 1] else []) ++ (if k + 1 ≤ s.count then [k + 1] else [])

/-- What the PCU holds for a passage. -/
def State.passage (s : State) (k : Nat) : Passage := s.pcu.passages.get k

/-- The description of a chamber. -/
def State.chamber (s : State) (c : Nat) : Chamber := s.flight.chambers.get c

/-- The sensor record of a pound. -/
def State.sensor (s : State) (p : Nat) : Sensor := s.lm.sensors.get p

/-! ## Level Monitor (01) -/

/-- EQUAL of a passage (R11). -/
def LevelMonitor.equal (lm : LevelMonitor) (k : Nat) : Bool := decide (lm.stillCount ≤ lm.still.get k)

/-- EQUAL of a passage (R11). -/
def State.equal (s : State) (k : Nat) : Bool := s.lm.equal k

/-- Both pounds of a passage have a GOOD sensor. -/
def State.sensorsGood (s : State) (k : Nat) : Bool :=
  decide ((s.sensor k).status = .good) && decide ((s.sensor (k + 1)).status = .good)

/-- The difference of two levels. -/
def levelGap (a b : Nat) : Nat := (a - b) + (b - a)

/-- The conditions under which a window close counts a passage still (R10). -/
def LevelMonitor.stillHolds (lm : LevelMonitor) (k : Nat) : Bool :=
  decide ((lm.sensors.get k).status = .good) && decide ((lm.sensors.get (k + 1)).status = .good)
    && !(lm.sensors.get k).level.stale && !(lm.sensors.get (k + 1)).level.stale
    && decide (levelGap (lm.sensors.get k).level.mean (lm.sensors.get (k + 1)).level.mean ≤ lm.eqTol)
    && decide ((lm.sensors.get k).level.ripple ≤ lm.rippleLim)
    && decide ((lm.sensors.get (k + 1)).level.ripple ≤ lm.rippleLim)

/-- The area-weighted mean of two levels, rounded half up (R12). -/
def weightedLevel (areaA levelA areaB levelB : Nat) : Nat :=
  (2 * (areaA * levelA + areaB * levelB) + (areaA + areaB)) / (2 * (areaA + areaB))

/-- The predicted equalisation level h* of a passage of a flight of n chambers (R12). -/
def State.predictedLevelIn (s : State) (n k : Nat) : Nat :=
  if k = 0 then (s.sensor 0).level.mean
  else if k = n then (s.sensor (k + 1)).level.mean
  else weightedLevel (s.chamber k).area (s.sensor k).level.mean (s.chamber (k + 1)).area (s.sensor (k + 1)).level.mean

/-- The predicted equalisation level h* of a passage (R12). -/
def State.predictedLevel (s : State) (k : Nat) : Nat := s.predictedLevelIn s.count k

/-- The receiving pound of a passage: the one with the lower mean (R13). -/
def State.receiver (s : State) (k : Nat) : Option Nat :=
  if (s.sensor k).level.mean < (s.sensor (k + 1)).level.mean then some k
  else if (s.sensor (k + 1)).level.mean < (s.sensor k).level.mean then some (k + 1)
  else none

/-- The overflow check on a receiving pound of a flight of n chambers and a level (R13). -/
def State.overflowPassesIn (s : State) (n : Nat) (receiver : Option Nat) (hStar : Nat) : Bool :=
  match receiver with
  | none => true
  | some p => !(within 1 n p) || decide (hStar ≤ (s.chamber p).hMax)

/-- The overflow check on a receiving pound and a level (R13). -/
def State.overflowPasses (s : State) (receiver : Option Nat) (hStar : Nat) : Bool :=
  s.overflowPassesIn s.count receiver hStar

/-- The answer to a prediction request in a flight of n chambers (R12, R13). -/
def State.predictIn (s : State) (n k : Nat) : Prediction :=
  if (s.sensor k).level.stale || (s.sensor (k + 1)).level.stale then
    .noData ((if (s.sensor k).level.stale then [k] else []) ++ (if (s.sensor (k + 1)).level.stale then [k + 1] else []))
  else
    .level (s.predictedLevelIn n k) (s.sensor k).level.mean (s.sensor (k + 1)).level.mean (s.receiver k)
      (s.overflowPassesIn n (s.receiver k) (s.predictedLevelIn n k))

/-- The answer to a prediction request (R12, R13) of the part itself. DESIGN CHOICE (log 49): it is formed with the present N, so that an operation examined between a SET_FLIGHT that changes N and the end of the poll in flight is judged with the new N, as its passages are (R205); R16 holds only the replies READ_LEVELS and READ_PASSAGE to the former N, and R1 moves the pounds in use at the next round. -/
def State.predict (s : State) (k : Nat) : Prediction := s.predictIn s.count k

/-- The prediction has data. -/
def Prediction.hasData : Prediction → Bool
  | .noData _ => false
  | .level _ _ _ _ _ => true

/-- The overflow check of the prediction fails; NO_DATA fails nothing (R31). -/
def Prediction.overflows : Prediction → Bool
  | .noData _ => false
  | .level _ _ _ _ passes => !passes

/-- The level h* of a prediction with data. -/
def Prediction.hStar : Prediction → Option Nat
  | .noData _ => none
  | .level h _ _ _ _ => some h

/-- The volume of a rise of chamber 1, 0 for a fall (R14, R38). -/
def State.riseVolume (s : State) (start finish : Nat) : Nat := (s.chamber 1).area * (finish - start)

/-! ## Passage Control Unit (02) -/

/-- The passage is fully closed (R20). -/
def Passage.fullyClosed (p : Passage) : Bool := decide (p.gate.state = .closed) && decide (p.sluice.state = .shut)

/-- The check of R42 for an opening of a passage: every other passage of its chambers is fully closed. -/
def State.interlockOk (s : State) (k : Nat) : Bool := (s.othersOf k).all (fun j => (s.passage j).fullyClosed)

/-- The permissive of R43 for a gate OPEN. -/
def State.permissive (s : State) (k : Nat) : Bool := (s.equal k && s.sensorsGood k) || (s.passage k).permit

/-- A gate may be commanded OPEN (R42, R43). -/
def State.mayOpen (s : State) (k : Nat) : Bool := s.permissive k && s.interlockOk k

/-- A gate is in travel. -/
def GateState.travelling (g : GateState) : Bool := decide (g = .opening) || decide (g = .closing)

/-- The chambers a passage needs are all unclaimed (R29). -/
def State.unclaimed (s : State) (k : Nat) : Bool := (s.chambersOf k).all (fun c => (s.pcu.claims.get c).isNone)

/-- The volumes an operation reports: predicted, measured, and the STALE indication (R38). -/
def State.opVolumes (s : State) (o : Op) : Nat × Nat × Bool :=
  match o.startReading, o.endReading with
  | some a, some b => (o.predicted.getD 0, s.riseVolume a.mean b.mean, a.stale || b.stale)
  | some a, none => (o.predicted.getD 0, 0, a.stale)
  | none, _ => (0, 0, false)

/-! ## Transits and holders (06) -/

/-- The transit holding a chamber (R104). -/
def State.holderOf (s : State) (c : Nat) : Option Nat := (s.table.find? (fun t => t.held.contains c)).map Transit.id

/-- Some chamber has a holder. -/
def State.anyHolder (s : State) : Bool := s.table.any (fun t => !t.held.isEmpty)

/-- The flight direction (R104). -/
def State.flightDir (s : State) : Option Direction := (s.table.find? (fun t => !t.held.isEmpty)).map Transit.dir

/-- The transit of an id. -/
def State.transit (s : State) (id : Nat) : Option Transit := s.table.find? (fun t => decide (t.id = id))

/-- A transit is unsettled (07 R130). -/
def Transit.unsettled (t : Transit) : Bool := !decide (t.state = .settled)

/-- The marks of a transit in berth order. -/
def Transit.marks (t : Transit) : List Mark := t.berths.map Berth.mark

/-- The number of unsettled transits that refer to the previous generation; 0 when the two numbers are equal (R146). -/
def State.previousRefs (s : State) : Nat :=
  if s.toll.previous.number = s.toll.current.number then 0
  else (s.table.filter (fun t => t.unsettled && decide (t.generation = s.toll.previous.number))).length

/-- How far along the flight direction a transit's furthest held chamber lies (R30). -/
def Transit.lead (t : Transit) : Nat :=
  match t.dir with
  | .down => t.held.foldl max 0
  | .up => t.held.foldl (fun best c => max best (4 - c)) 0

/-! ## Gauge (04 section 4.1) -/

/-- The least of a field over the chambers in use. -/
def State.leastOver (s : State) (f : Chamber → Nat) : Nat :=
  match s.chambersInUse with
  | [] => 0
  | c :: rest => rest.foldl (fun best d => min best (f (s.chamber d))) (f (s.chamber c))

/-- The minimum usable length. -/
def State.minUsable (s : State) : Nat := s.leastOver Chamber.usable

/-- The minimum width. -/
def State.minWidth (s : State) : Nat := s.leastOver Chamber.width

/-- The berth length of a vessel length. -/
def State.berthLength (s : State) (length : Nat) : Nat := length + s.flight.clearance

/-- A vessel fits the flight (R63 test 6). -/
def State.fits (s : State) (length beam : Nat) : Bool :=
  decide (s.berthLength length ≤ s.minUsable) && decide (beam ≤ s.minWidth)

/-! ## Vessels (04) -/

/-- The register entry of a mark. -/
def State.vessel (s : State) (m : Mark) : Option Vessel := s.reg.entries.find? (fun v => decide (v.mark = m))

/-- The approach queue of a direction. -/
def Register.queue (r : Register) : Direction → List Mark
  | .up => r.up
  | .down => r.down

/-- Position of an item in a list, counted from 1; 0 when it is not there. -/
def positionIn {α : Type} [DecidableEq α] (x : α) : List α → Nat
  | [] => 0
  | y :: rest => if y = x then 1 else if positionIn x rest = 0 then 0 else positionIn x rest + 1

/-- The approach of a direction is suspended by a fault of its approach head (R58). -/
def State.suspended (s : State) : Direction → Bool
  | .down => (s.lamps.get 0).above.fault
  | .up => (s.lamps.get s.count).below.fault

/-! ## Accounts (08) -/

/-- Status of an account (R149). -/
def Account.status (a : Account) : AccountStatus :=
  if a.number = 0 then .opened
  else if a.hold || decide (a.balance < -(a.limit : Int)) then .blocked
  else .opened

/-- The account of a number, if any. -/
def Accounts.find (a : Accounts) (n : Nat) : Option Account :=
  if n = 0 then some a.counter else a.table.find? (fun x => decide (x.number = n))

/-- Entries the journal can still take (R158). -/
def Accounts.free (a : Accounts) : Nat := Config.journalDepth - a.journal.length

/-- Journal free minus journal reserved. -/
def Accounts.margin (a : Accounts) : Nat := a.free - a.reserved

/-- The berth capacity (R88). -/
def State.capacity (s : State) : Nat := min Config.maxBerths s.acc.margin

/-- The mark of a slot that is not FREE. -/
def QuoteSlot.mark : QuoteSlot → Option Mark
  | .free => none
  | .pending m => some m
  | .resolved m _ _ => some m

/-! ## Authority and configuration (09, 11) -/

/-- The first item of the configuration that is missing (R208). -/
def State.missing (s : State) : Option ConfigItem :=
  match s.flight.n with
  | none => some .flight
  | some _ => (s.poundsInUse.find? (fun p => !(s.sensor p).calibrated)).map ConfigItem.calibration

/-- A gate or the sluice of a passage is in FAULT. -/
def Passage.faulted (p : Passage) : Bool := decide (p.gate.state = .fault) || decide (p.sluice.state = .fault)

/-- A station sends the requests marked holder-only (R178). -/
def State.isHolder (s : State) (st : Station) : Bool := decide (s.auth.holder = some st)

/-! ## Ports (10) -/

/-- Port state (R195). -/
def Port.state (p : Port) : PortState := if p.reply.isSome || p.busy.isSome then .replying else .idle

/-- The payload length a frame being assembled carries. -/
def assembledLength (l : List Byte) : Nat := ((l[4]?).map BitVec.toNat).getD 0

/-- Receiver state (R189). -/
def Port.receiver (p : Port) : ReceiverState :=
  if p.assembled.isEmpty then .hunt
  else if p.assembled.length < 5 then .header
  else if p.assembled.length < 5 + assembledLength p.assembled then .payload
  else .check

end Sys2Proof.Machine
end

