-- ==== Sys2Proof/Machine/Ops.lean ====
section
/-! DEFINITION. The shared operations: updating a record in its place, raising a notice, handing work to another block, and the transmitter of a port. -/

namespace Sys2Proof.Machine

/-! ## Updating a record -/

/-- Change what the PCU holds for a passage. -/
def State.setPassage (k : Nat) (f : Passage → Passage) (s : State) : State :=
  { s with pcu := { s.pcu with passages := s.pcu.passages.set k (f (s.passage k)) } }

/-- Change a gate record. -/
def State.setGate (k : Nat) (f : Gate → Gate) (s : State) : State :=
  s.setPassage k (fun p => { p with gate := f p.gate })

/-- Change a sluice record. -/
def State.setSluice (k : Nat) (f : Sluice → Sluice) (s : State) : State :=
  s.setPassage k (fun p => { p with sluice := f p.sluice })

/-- Change the operation in a slot, if there is one. -/
def State.setOp (k : Nat) (f : Op → Op) (s : State) : State :=
  s.setPassage k (fun p => { p with slot := p.slot.map f })

/-- Set or clear a permit. -/
def State.setPermit (k : Nat) (on : Bool) (s : State) : State := s.setPassage k (fun p => { p with permit := on })

/-- Set the claim of each of a list of chambers. -/
def State.setClaims (chambers : List Nat) (owner : Option Nat) (s : State) : State :=
  { s with pcu := { s.pcu with claims := chambers.foldl (fun t c => t.set c owner) s.pcu.claims } }

/-- Change a transit record. -/
def State.setTransit (id : Nat) (f : Transit → Transit) (s : State) : State :=
  { s with table := s.table.map (fun t => if t.id = id then f t else t) }

/-- Change the current move of a transit, if it has one. -/
def State.setMove (id : Nat) (f : Move → Move) (s : State) : State :=
  s.setTransit id (fun t => { t with move := t.move.map f })

/-- Free a transit record (R102). -/
def State.freeTransit (id : Nat) (s : State) : State :=
  { s with table := s.table.filter (fun t => !decide (t.id = id)) }

/-- Change a register entry. -/
def State.setVessel (m : Mark) (f : Vessel → Vessel) (s : State) : State :=
  { s with reg := { s.reg with entries := s.reg.entries.map (fun v => if v.mark = m then f v else v) } }

/-- Change an approach queue. -/
def State.setQueue (d : Direction) (f : List Mark → List Mark) (s : State) : State :=
  match d with
  | .up => { s with reg := { s.reg with up := f s.reg.up } }
  | .down => { s with reg := { s.reg with down := f s.reg.down } }

/-- Change an account, account 0 among them. -/
def Accounts.update (n : Nat) (f : Account → Account) (a : Accounts) : Accounts :=
  if n = 0 then { a with counter := f a.counter }
  else { a with table := a.table.map (fun x => if x.number = n then f x else x) }

/-- Change a port. -/
def State.setPort (st : Station) (f : Port → Port) (s : State) : State :=
  { s with ports := s.ports.set st (f (s.ports.get st)) }

/-- Change a lamp head. -/
def State.setHead (k : Nat) (side : Side) (f : Head → Head) (s : State) : State :=
  { s with lamps := s.lamps.set k ((s.lamps.get k).set side (f ((s.lamps.get k).get side))) }

/-! ## Notices (R198, R200) -/

/-- Place a notice in a port's queue, or drop it and set the lost-notice flag where 16 are held (R200). -/
def Port.place (n : Notice) (p : Port) : Port :=
  if p.queue.length < Config.noticeDepth then { p with queue := p.queue ++ [n] } else { p with lost := true }

/-- Offer a notice to a port by its subscription for the notice's class (R198). -/
def Port.offer (n : Notice) (p : Port) : Port :=
  match p.subs.get n.cls with
  | .off => p
  | .each => p.place n
  | .once =>
    if p.queue.length < Config.noticeDepth then { p.place n with subs := p.subs.set n.cls .off } else p.place n

/-- Raise a notice: offer it to every port (R198). -/
def State.raise (n : Notice) (s : State) : State := { s with ports := s.ports.map (Port.offer n) }

/-- Raise notices in order. -/
def State.raiseAll (l : List Notice) (s : State) : State := l.foldl (fun t n => t.raise n) s

/-! ## Hand-overs inside an event (log 20) -/

/-- Hand work to another block. -/
def State.push (t : Task) (s : State) : State := { s with agenda := s.agenda ++ [t] }

/-- Hand several pieces of work on, in order. -/
def State.pushAll (l : List Task) (s : State) : State := { s with agenda := s.agenda ++ l }

/-- Hand the Call Arbiter a calling event (R83). -/
def State.calling (s : State) : State := { s with callDue := true }

/-- A condition decides whether a change is made. -/
def State.when (c : Bool) (f : State → State) (s : State) : State := if c then f s else s

/-- The same work for each of a list, in order. -/
def State.each {α : Type} (l : List α) (f : α → State → State) (s : State) : State := l.foldl (fun t x => f x t) s

/-! ## The transmitter (R197) -/

/-- The frame the transmitter would start next, if any: a part of the reply in progress, then the busy answer, then the head notice (R197). -/
def Port.nextFrame (p : Port) : Option OutFrame :=
  match p.reply, p.busy, p.queue with
  | some r, _, _ => r.frames[r.sent]?
  | none, some (tag, kind), _ => some (.busy tag kind)
  | none, none, n :: _ => some (.notice n)
  | none, none, [] => none

/-- Start a frame on the line, none of its bytes sent; a notice leaves the queue in that event (R197). -/
def Port.start (f : OutFrame) (p : Port) : Port :=
  match f with
  | .notice _ => { p with line := some f, sent := 0, queue := p.queue.tail }
  | .reply _ _ _ _ _ _ => { p with line := some f, sent := 0 }
  | .busy _ _ => { p with line := some f, sent := 0 }

/-- Where the line is free, the transmitter starts the next frame (R197). -/
def Port.pump (p : Port) : Port :=
  match p.line, p.nextFrame with
  | none, some f => p.start f
  | _, _ => p

/-- The transmitters of all three ports at the end of an event (R197). DESIGN CHOICE (log 47): a transmitter starts its next frame only when all the notices of the event stand in the queues, so that a queue whose line is free holds 16 notices of one event and a seventeenth is dropped (R200). The spec does not say whether the head leaves the queue before a later notice of the same event is placed. -/
def State.pump (s : State) : State := { s with ports := s.ports.map Port.pump }

/-! ## Timers -/

/-- A timer of a number of seconds. -/
def seconds (n : Nat) : Timer := some (n * Config.second)

/-- The elapsed whole seconds of a timer that was started with a number of seconds (R22). -/
def elapsed (limit : Nat) (t : Timer) : Nat := (limit * Config.second - t.getD 0) / Config.second

end Sys2Proof.Machine
end

