-- ==== Sys2Proof/Machine/Toll.lean ====
section
/-! DEFINITION. The Toll Calculator (07): the night window, the parts of a charge, the charged volume and its shares, the charges of a settlement, the solo estimate. -/

namespace Sys2Proof.Machine

/-! ## Tariffs and the clock -/

/-- The class record of a class. -/
def tariffRate (t : Tariff) : VesselClass → ClassRate
  | .cargo => t.cargo
  | .passenger => t.passenger
  | .pleasure => t.pleasure
  | .service => t.service

/-- The tariff of a live generation number (R129). -/
def Toll.tariffOf (t : Toll) (g : Nat) : Tariff :=
  if g = t.current.number then t.current.tariff else t.previous.tariff

/-- The reading of the day clock (R134). -/
def DayClock.stamp (c : DayClock) : Stamp := if c.isSet then some (c.day, c.sec) else none

/-- A minute of day lies in a night window (R133). -/
def inNightWindow (nightStart nightEnd minute : Nat) : Bool :=
  if nightStart = nightEnd then false
  else if nightStart < nightEnd then decide (nightStart ≤ minute) && decide (minute < nightEnd)
  else decide (nightStart ≤ minute) || decide (minute < nightEnd)

/-- The clock is in the night window of the current generation (R133). -/
def Toll.nightNow (t : Toll) : Bool :=
  t.clock.isSet && inNightWindow t.current.tariff.nightStart t.current.tariff.nightEnd (t.clock.sec / 60)

/-- The clock one second on (R132). -/
def DayClock.advance (c : DayClock) : DayClock :=
  if c.sec < 86399 then { c with sec := c.sec + 1 } else { c with sec := 0, day := (c.day + 1) % 65536 }

/-! ## Parts of a charge (R139 to R141) -/

/-- The parts, surcharge and amount of one vessel for a share of water. -/
def formParts (r : ClassRate) (length deadweight share : Nat) (night : Bool) : Parts :=
  let base := r.base
  let lengthPart := r.lengthRate * ceilDiv length 10
  let tonnage := r.tonnageRate * ceilDiv deadweight 10
  let water := ceilDiv (share * r.waterRate) 1000
  let subtotal := base + lengthPart + tonnage + water
  let surcharge := if night then (subtotal * r.nightPct + 50) / 100 else 0
  { base := base, length := lengthPart, tonnage := tonnage, water := water, surcharge := surcharge,
    amount := min (subtotal + surcharge) r.cap, capped := decide (r.cap < subtotal + surcharge) }

/-! ## Charged volume and shares (R136 to R138) -/

/-- The bound of a transit's water (R136). -/
def waterBound (predicted allowance : Nat) : Nat := predicted + predicted * allowance / 100

/-- The charged volume (R136). -/
def chargedVolume (predicted measured allowance : Nat) : Nat := min measured (waterBound predicted allowance)

/-- The floor shares of a volume over berth lengths (R137). -/
def floorShares (volume : Nat) (lengths : List Nat) : List Nat :=
  lengths.map (fun l => volume * l / lengths.sum)

/-- The remainders of the floor shares (R137). -/
def shareRemainders (volume : Nat) (lengths : List Nat) : List Nat :=
  lengths.map (fun l => volume * l % lengths.sum)

/-- The residue left over by the floor shares (R137). -/
def shareResidue (volume : Nat) (lengths : List Nat) : Nat := volume - (floorShares volume lengths).sum

/-- How many berths rank ahead of berth i by remainder: those with a larger one, and the earlier ones with an equal one (R138). -/
def rankAhead (remainders : List Nat) (i : Nat) : Nat :=
  (remainders.filter (fun r => decide (remainders.getD i 0 < r))).length
    + ((remainders.take i).filter (fun r => decide (r = remainders.getD i 0))).length

/-- The water share of berth i: its floor share, and a litre of the residue where it ranks among the first (R138). -/
def waterShare (volume : Nat) (lengths : List Nat) (i : Nat) : Nat :=
  (floorShares volume lengths).getD i 0
    + if rankAhead (shareRemainders volume lengths) i < shareResidue volume lengths then 1 else 0

/-- The water shares in berth order (R137, R138). -/
def waterShares (volume : Nat) (lengths : List Nat) : List Nat :=
  (List.range lengths.length).map (waterShare volume lengths)

/-! ## Charges of a settlement (R135, R142) -/

/-- The charge record of one berth. -/
def chargeOf (tariff : Tariff) (t : Transit) (anomaly : Bool) (v : Vessel) (share : Nat) : Charge :=
  { mark := v.mark, cls := v.cls, account := v.account, transit := t.id, generation := t.generation, share := share,
    parts := formParts (tariffRate tariff v.cls) v.length v.deadweight share t.night, night := t.night,
    anomaly := anomaly }

/-- The result of the Toll Calculator for a settlement (R142). -/
structure Settlement where
  volume : Nat
  bound : Nat
  anomaly : Bool
  charges : List Charge
  deriving DecidableEq, Repr

/-- The settlement of a transit (R135 to R142). -/
def State.settlement (s : State) (t : Transit) : Settlement :=
  let tariff := s.toll.tariffOf t.generation
  let bound := waterBound t.water.predicted tariff.allowance
  let volume := min t.water.measured bound
  let anomaly := decide (bound < t.water.measured)
  { volume := volume, bound := bound, anomaly := anomaly,
    charges := (t.berths.zip (waterShares volume (t.berths.map Berth.length))).filterMap
      (fun (b, share) => (s.vessel b.mark).map (fun v => chargeOf tariff t anomaly v share)) }

/-! ## The solo estimate (R143 to R145) -/

/-- The upper-reach level of an estimate (R144). -/
def State.upperLevel (s : State) : Nat :=
  if (s.sensor 0).level.stale then (s.chamber 1).hMax else (s.sensor 0).level.mean

/-- The estimated volume (R143). -/
def State.estimatedVolume (s : State) : Nat := (s.chamber 1).area * (s.upperLevel - (s.chamber 1).hBot)

/-- The solo estimate with its parts (R143), under the current generation and the clock as it stands (R145). -/
def State.estimateParts (s : State) (v : Vessel) : Parts :=
  formParts (tariffRate s.toll.current.tariff v.cls) v.length v.deadweight
    (s.estimatedVolume * s.berthLength v.length / s.minUsable) s.toll.nightNow

/-- The solo estimate (R143). -/
def State.estimate (s : State) (v : Vessel) : Nat := (s.estimateParts v).amount

/-! ## Credit (04 R74) -/

/-- The credit-held status of a vessel against an account with further estimates counted as committed (R74, R90). -/
def creditHeldOn (a : Account) (cls : VesselClass) (extra estimate : Nat) : Bool :=
  decide (a.status = .blocked)
    || (!decide (a.number = 0) && !decide (cls = .service)
      && decide (a.balance - (a.commitment + extra : Nat) - (estimate : Int) < -(a.limit : Int)))

/-- The credit-held status of a waiting vessel with further estimates on its account counted as committed (R74, R90). A vessel whose account is not in the table counts as held: CLOSE_ACCOUNT keeps that from arising (log 38). -/
def State.creditHeldWith (s : State) (extra : Nat) (v : Vessel) : Bool :=
  match s.acc.find v.account with
  | some a => creditHeldOn a v.cls extra (s.estimate v)
  | none => true

/-- The credit-held status of a waiting vessel (R74). -/
def State.creditHeld (s : State) (v : Vessel) : Bool := s.creditHeldWith 0 v

end Sys2Proof.Machine
end

