-- ==== Sys2Proof/Machine/Accounts.lean ====
section
/-! DEFINITION. The Toll Accounts (08): balances and commitments, the charge journal, posting, the quote slots. -/

namespace Sys2Proof.Machine

/-! ## The journal (R158) -/

/-- Append an entry at the tail with the next sequence number (R158). -/
def Accounts.append (kind : EntryKind) (stamp : Stamp) (a : Accounts) : Accounts :=
  { a with journal := a.journal ++ [{ seq := a.nextSeq, kind := kind, stamp := stamp }],
           nextSeq := (a.nextSeq + 1) % 65536 }

/-- Reserve places for berths called (R92, R159). -/
def Accounts.reserve (n : Nat) (a : Accounts) : Accounts := { a with reserved := a.reserved + n }

/-- Give reserved places back (R159). -/
def Accounts.unreserve (n : Nat) (a : Accounts) : Accounts := { a with reserved := a.reserved - n }

/-! ## Balances and commitments (R148, R155) -/

/-- Raise or lower a balance. -/
def Accounts.credit (n : Nat) (amount : Int) (a : Accounts) : Accounts :=
  a.update n (fun x => { x with balance := x.balance + amount })

/-- Add a solo estimate to a commitment (R92). -/
def Accounts.commit (n estimate : Nat) (a : Accounts) : Accounts :=
  a.update n (fun x => { x with commitment := x.commitment + estimate })

/-- Remove a solo estimate from a commitment (R155). -/
def Accounts.uncommit (n estimate : Nat) (a : Accounts) : Accounts :=
  a.update n (fun x => { x with commitment := x.commitment - estimate })

/-- The notice of a status change of one account, if its status changed (R149). -/
def statusNotice (before after : Account) : List Notice :=
  match before.status, after.status with
  | .opened, .blocked =>
    [.accountBlocked after.number after.balance after.limit (if after.hold then .hold else .limit)]
  | .blocked, .opened => [.accountOpened after.number after.balance after.limit]
  | _, _ => []

/-- The status notices of accounts over an event, once for each account (R149), in the order of their first charges. DESIGN CHOICE (log 43): the manual gives no order. -/
def statusNotices (before after : Accounts) (numbers : List Nat) : List Notice :=
  numbers.eraseDups.flatMap (fun n =>
    match before.find n, after.find n with
    | some x, some y => statusNotice x y
    | _, _ => [])

/-- Compare the status of accounts over an event and raise what follows (R149). -/
def State.compareStatus (before : Accounts) (numbers : List Nat) (s : State) : State :=
  s.raiseAll (statusNotices before s.acc numbers)

/-- The account of a mark in the register; account 0 for a mark not in it (DESIGN CHOICE, log 38). -/
def State.accountOf (s : State) (m : Mark) : Nat := ((s.vessel m).map Vessel.account).getD 0

/-- Remove the estimate of each berth from its account's commitment (R155). -/
def State.lowerCommitments (berths : List Berth) (s : State) : State :=
  { s with acc := berths.foldl (fun a b => a.uncommit (s.accountOf b.mark) b.estimate) s.acc }

/-- One account event for each account whose commitment falls with these berths, in the order of their first berths (R157; log 43). -/
def State.accountEvents (s : State) (berths : List Berth) : List Task :=
  (((berths.filter (fun b => decide (0 < b.estimate))).map (fun b => s.accountOf b.mark)).eraseDups).map Task.accountEvent

/-- Remove the estimate of each berth from its account's commitment and hand on the account events (R155, R157). -/
def State.uncommitBerths (berths : List Berth) (s : State) : State :=
  (s.lowerCommitments berths).pushAll (s.accountEvents berths)

/-- Give back the reservation of berths that are unsettled no longer, and hand on the calling event (R159). -/
def State.unreserveBerths (n : Nat) (s : State) : State :=
  { s with acc := s.acc.unreserve n, callDue := true }

/-! ## Posting (R156) -/

/-- Post one charge: the balance falls, the journal takes the entry, the reservation falls by one (R156). -/
def Accounts.post (stamp : Stamp) (a : Accounts) (c : Charge) : Accounts :=
  ((a.credit c.account (-(c.parts.amount : Int))).append (.charge c) stamp).unreserve 1

/-- Post the charges of a settlement in berth order, then compare the status of each account touched (R156). -/
def State.postCharges (charges : List Charge) (s : State) : State :=
  State.compareStatus s.acc (charges.map Charge.account)
    { s with acc := charges.foldl (Accounts.post s.toll.clock.stamp) s.acc }

/-! ## Quote slots (R161 to R167) -/

/-- The slot number (1..4) that holds a mark (R161). -/
def Accounts.slotOf (a : Accounts) (m : Mark) : Option Nat :=
  ([0, 1, 2, 3].find? (fun i => decide ((a.slots.get i).mark = some m))).map (· + 1)

/-- The number of the lowest FREE slot (R163; log 30). -/
def Accounts.freeSlot (a : Accounts) : Option Nat :=
  ([0, 1, 2, 3].find? (fun i => decide (a.slots.get i = .free))).map (· + 1)

/-- The contents of slot n. -/
def Accounts.slot (a : Accounts) (n : Nat) : QuoteSlot := a.slots.get (n - 1)

/-- Replace the contents of slot n. -/
def Accounts.setSlot (n : Nat) (x : QuoteSlot) (a : Accounts) : Accounts := { a with slots := a.slots.set (n - 1) x }

/-- The kind of a quote result (R165). -/
def QuoteResult.kind : QuoteResult → QuoteKind
  | .charge _ => .charge
  | .withdrawn => .withdrawn
  | .noCharge => .noCharge

/-- Resolve the slot of a mark, if it holds one (R165). -/
def State.resolveQuote (m : Mark) (r : QuoteResult) (s : State) : State :=
  match s.acc.slotOf m with
  | none => s
  | some n =>
    State.raise (.quoteReady m n r.kind)
      { s with acc := s.acc.setSlot n (.resolved m r (s.timing.discard * Config.second)) }

/-- The marks of the orphaned slots (R167), by slot number. DESIGN CHOICE (log 44): the manual gives no order. -/
def State.orphans (s : State) : List Mark :=
  s.acc.slots.toList.filterMap (fun q =>
    match q with
    | .pending m => if (s.vessel m).isNone then some m else none
    | .free => none
    | .resolved _ _ _ => none)

/-- Resolve every orphaned slot with WITHDRAWN (R167). -/
def State.resolveOrphans (s : State) : State := s.each s.orphans (fun m => State.resolveQuote m .withdrawn)

/-- The newest CHARGE entry of a mark in the journal (R164 case 2). -/
def Accounts.newestCharge (a : Accounts) (m : Mark) : Option JournalEntry :=
  a.journal.reverse.find? (fun e =>
    match e.kind with
    | .charge c => decide (c.mark = m)
    | .payment _ _ => false)

end Sys2Proof.Machine
end

