-- ==== Sys2Proof/Machine/Vessels.lean ====
section
/-! DEFINITION. The vessel register (04): placements in the approach queues, the changes of an entry's state, skips, and the account event. -/

namespace Sys2Proof.Machine

/-- A mark names a vessel of class SERVICE. -/
def State.isService (s : State) (m : Mark) : Bool :=
  match s.vessel m with
  | some v => decide (v.cls = .service)
  | none => false

/-- Insert a block directly behind the front run, the longest run of SERVICE vessels from position 1 (04 section 4.3, R65). -/
def insertBehindRun (service : Mark → Bool) (block : List Mark) (queue : List Mark) : List Mark :=
  queue.takeWhile service ++ block ++ queue.dropWhile service

/-- Queue a vessel just announced (R65). -/
def State.placeAnnounced (v : Vessel) (s : State) : State :=
  s.setQueue v.dir (fun q => if v.cls = .service then insertBehindRun s.isService [v.mark] q else q ++ [v.mark])

/-- Return a block of vessels to the front of a queue behind its front run (R65). -/
def State.returnBlock (d : Direction) (marks : List Mark) (s : State) : State :=
  s.setQueue d (insertBehindRun s.isService marks)

/-- Take a mark out of a queue (R65). -/
def State.dequeue (d : Direction) (m : Mark) (s : State) : State :=
  s.setQueue d (fun q => q.filter (fun x => !decide (x = m)))

/-- Free a register entry; the arrival list is the order of the entries (R61, R62). -/
def State.freeVessel (m : Mark) (s : State) : State :=
  { s with reg := { s.reg with entries := s.reg.entries.filter (fun v => !decide (v.mark = m)) } }

/-- A vessel leaves its queue and becomes CALLED (R66, R92). -/
def State.callVessel (id : Nat) (v : Vessel) (estimate : Nat) (s : State) : State :=
  (s.dequeue v.dir v.mark).setVessel v.mark
    (fun x => { x with state := .called id estimate, skips := 0, precedence := false })

/-- The vessels of a cancelled transit become WAITING and return as one block in berth order (R66, R96, R125). -/
def State.returnVessels (d : Direction) (marks : List Mark) (s : State) : State :=
  (((s.each marks (fun m => State.setVessel m (fun x => { x with state := .waiting }))).returnBlock d marks)).calling

/-- A vessel passed over for fit (R73). -/
def skipVessel (limit : Nat) (v : Vessel) : Vessel :=
  { v with skips := min 7 (v.skips + 1), precedence := v.precedence || decide (limit ≤ min 7 (v.skips + 1)) }

/-- The account event of R157: where a waiting vessel of the account is not credit-held now, one calling event (R75). -/
def State.takeAccountEvent (n : Nat) (s : State) : State :=
  s.when (s.reg.entries.any (fun v => decide (v.account = n) && decide (v.state = .waiting) && !s.creditHeld v))
    State.calling

/-- The vessels of an approach queue, front first. -/
def State.queued (s : State) (d : Direction) : List Vessel := (s.reg.queue d).filterMap s.vessel

/-- Withdraw a waiting vessel, raising its notice with the cause (R70, R76). -/
def State.withdrawWaiting (cause : WithdrawCause) (v : Vessel) (s : State) : State :=
  ((s.dequeue v.dir v.mark).freeVessel v.mark).raise (.vesselWithdrawn v.mark cause none)

/-- The waiting vessels that no longer fit, UP queue before DOWN queue, in queue order (R76). -/
def State.outOfGauge (s : State) : List Vessel :=
  (s.queued .up ++ s.queued .down).filter (fun v => !s.fits v.length v.beam)

/-- The queue position of a mark (1 is the front); 0 where it is in neither queue. -/
def State.queuePosition (s : State) (v : Vessel) : Nat := positionIn v.mark (s.reg.queue v.dir)

end Sys2Proof.Machine
end

