-- ==== Sys2Proof/Machine/Passage.lean ====
section
/-! DEFINITION. The Passage Control Unit (02): gate travels, sluice moves, level operations, claims, and what SAFE_HOLD and the return to SERVICE do to them. -/

namespace Sys2Proof.Machine

/-! ## Gates (02 section 2.2) -/

/-- The limits showing that a gate stands at the end of a travel. -/
def GateState.goal : GateState → Option GatePosition
  | .opening => some .atOpen
  | .closing => some .atClosed
  | .closed => none
  | .opened => none
  | .stopped => none
  | .fault => none

/-- A gate state reached at a limit (R22). -/
def GatePosition.endState : GatePosition → GateState
  | .atOpen => .opened
  | .atClosed => .closed
  | .between => .stopped

/-- Reaching CLOSED ends the permit of the passage (R22, R44). -/
def Passage.dropPermit (p : Passage) : Passage := if p.gate.state = .closed then { p with permit := false } else p

/-- A gate reached a limit: its state, the end of the permit, and the hand-overs of R22. -/
def State.gateReached (k : Nat) (state : GateState) (s : State) : State :=
  (s.setPassage k (fun p => Passage.dropPermit { p with gate := { p.gate with state := state } })).pushAll
    [.passageChanged k, .gateEnd k]

/-- The notice of a slow travel (R22). -/
def Gate.slow (g : Gate) (time : Nat) : Bool := decide (g.limit * g.slowPct < time * 100)

/-- A travel ends at its limit (R22). -/
def State.endTravel (k : Nat) (s : State) : State :=
  let g := (s.passage k).gate
  let time := elapsed g.limit g.timer
  ((s.setGate k (fun x => { x with drive := .off, timer := none, lastTravel := time })).when (g.slow time)
      (State.raise (.gateSlow k time))).gateReached k g.position.endState

/-- A travel begins or is reversed, with freshly copied limits (R21); the limit already asserted ends it in the same event. -/
def State.travel (k : Nat) (state : GateState) (drive : GateDrive) (s : State) : State :=
  let moved := (s.setGate k (fun g =>
    { g with state := state, cause := none, limit := s.timing.gateLimit, slowPct := s.timing.slowPct,
             timer := seconds s.timing.gateLimit, drive := drive })).push (.passageChanged k)
  moved.when (decide (state.goal = some (s.passage k).gate.position)) (State.endTravel k)

/-- An OPEN command that has passed its checks (R21). `manual` tells the two requesters apart. -/
def State.commandOpen (manual : Bool) (k : Nat) (s : State) : State :=
  match (s.passage k).gate.state with
  | .opened => if manual then s else s.push (.gateEnd k)
  | .opening => s
  | .fault => if manual then s.travel k .opening .opening else s
  | .closed => s.travel k .opening .opening
  | .closing => s.travel k .opening .opening
  | .stopped => s.travel k .opening .opening

/-- A CLOSE command (R21); it removes a pending open order (R43). -/
def State.commandClose (manual : Bool) (k : Nat) (s : State) : State :=
  let cleared := s.setGate k (fun g => { g with pendingOpen := none })
  match (s.passage k).gate.state with
  | .closed => if manual then cleared else cleared.push (.gateEnd k)
  | .closing => cleared
  | .fault => if manual then cleared.travel k .closing .closing else cleared
  | .opened => cleared.travel k .closing .closing
  | .opening => cleared.travel k .closing .closing
  | .stopped => cleared.travel k .closing .closing

/-- A STOP (R24). -/
def State.stopGate (k : Nat) (s : State) : State :=
  if (s.passage k).gate.state.travelling then
    (s.setGate k (fun g => { g with state := .stopped, drive := .off, timer := none, pendingOpen := none })).push
      (.passageChanged k)
  else s.setGate k (fun g => { g with pendingOpen := none })

/-- A pending open order is commanded once the permissive and the interlock pass (R43). -/
def State.retryOpen (k : Nat) (s : State) : State :=
  if (s.passage k).gate.pendingOpen.isSome && s.mayOpen k then
    (s.setGate k (fun g => { g with pendingOpen := none })).commandOpen false k
  else s

/-- The Sequencer's OPEN order: refused by a FAULT gate, given, or kept pending (R21, R43, R111). -/
def State.orderOpen (id k : Nat) (s : State) : State :=
  if (s.passage k).gate.state = .fault then s
  else if s.mayOpen k then s.commandOpen false k
  else s.setGate k (fun g => { g with pendingOpen := some id })

/-! ## Operations: reports and ends (02 section 2.4) -/

/-- The reading of chamber 1 (R14). -/
def State.readingOne (s : State) : Reading :=
  { mean := (s.sensor 1).level.mean, count := (s.sensor 1).level.count, stale := (s.sensor 1).level.stale }

/-- The end reading is captured once, at passage 0, for an operation that captured a start reading (R38). -/
def State.captureEnd (k : Nat) (s : State) : State :=
  s.setOp k (fun o =>
    if k = 0 ∧ o.startReading.isSome ∧ o.endReading.isNone then { o with endReading := some s.readingOne } else o)

/-- The report of an operation to its transit, where it has one (R36 to R40). -/
def State.reportTasks (k : Nat) (o : Op) (outcome : Outcome) (s : State) : List Task :=
  match o.transit with
  | none => []
  | some id =>
    [.report { transit := id, passage := k, purpose := o.purpose, outcome := outcome, predicted := (s.opVolumes o).1,
               measured := (s.opVolumes o).2.1, stale := (s.opVolumes o).2.2 }]

/-- Free a slot, handing on the slot-free event where one is owed (R28). -/
def State.freeSlot (k : Nat) (s : State) : State :=
  (s.setPassage k (fun p => { p with slot := none, slotFreeOwed := false })).pushAll
    (if (s.passage k).slotFreeOwed then [.slotFree k] else [])

/-- The end of an operation whose claims are released and whose slot is freed, in the order of R36. -/
def State.closeOp (k : Nat) (o : Op) (s : State) : State :=
  let chambers := if o.claimsHeld then s.chambersOf k else []
  (((s.setClaims chambers none).pushAll (s.reportTasks k o (if o.aborted then .aborted else .done))).freeSlot k).push
    (.arbitrate chambers)

/-- An operation in SHUTTING ends when its sluice is SHUT (R36). -/
def State.endOp (k : Nat) (s : State) : State :=
  let t := s.captureEnd k
  match (t.passage k).slot with
  | none => s
  | some o => t.closeOp k o

/-! ## Sluices (02 section 2.3) -/

/-- The sluice record when its move is complete (R25, R26). -/
def Sluice.arrived (x : Sluice) : Sluice :=
  { x with state := if x.position = 0 then .shut else .set, commanded := none, moveTimer := none, driven := false }

/-- What the completion of a move does to the operation in the slot (R25, R26, R33, R36). -/
def State.afterMove (k : Nat) (s : State) : State :=
  let x := (s.passage k).sluice
  match (s.passage k).slot.map Op.phase with
  | some .shutting => if x.position = 0 then s.endOp k else s
  | some .ramping =>
    if x.position < x.target then s.setSluice k (fun y => { y with rampTimer := seconds y.rampInterval })
    else s.setOp k (fun o => { o with phase := .flowing })
  | _ => s

/-- A move completes (R25, R26). -/
def State.finishMove (k : Nat) (s : State) : State :=
  ((s.setSluice k Sluice.arrived).push (.passageChanged k)).afterMove k

/-- A lowering move to a position (R26). A sluice in FAULT is left alone: only a manual request moves it. -/
def State.lower (k target : Nat) (s : State) : State :=
  let x := (s.passage k).sluice
  if x.state = .fault then s
  else if x.state ≠ .moving ∧ x.position = target then
    (s.setSluice k (fun y => { y with rampTimer := none, stepHeld := false })).finishMove k
  else
    (s.setSluice k (fun y =>
      { y with state := .moving, commanded := some target, rampTimer := none, moveTimer := seconds y.moveLimit,
               driven := true, stepHeld := false })).push (.passageChanged k)

/-- The manual lowering move to 0, from any state, with the move limit copied afresh (R26, R47; log 23). -/
def State.lowerManual (k : Nat) (s : State) : State :=
  let fresh := s.setSluice k (fun y =>
    { y with moveLimit := s.timing.moveLimit, cause := none, state := if y.state = .fault then .set else y.state })
  if (s.passage k).sluice.state = .shut then s else fresh.lower k 0

/-- An opening step, held back while the interlock does not pass (R25, R42). -/
def State.stepUp (k : Nat) (s : State) : State :=
  let x := (s.passage k).sluice
  if x.state = .shut ∨ x.state = .set then
    if s.interlockOk k then
      (s.setSluice k (fun y =>
        { y with state := .moving, commanded := some (y.position + 1), moveTimer := seconds y.moveLimit, driven := true,
                 stepHeld := false })).push (.passageChanged k)
    else s.setSluice k (fun y => { y with stepHeld := true })
  else s

/-- A held step is commanded once the check passes, its operation still in RAMPING (R42). -/
def State.retryStep (k : Nat) (s : State) : State :=
  if (s.passage k).sluice.stepHeld ∧ (s.passage k).slot.map Op.phase = some .ramping then s.stepUp k else s

/-! ## Finishing (R36, R37) -/

/-- The phase SHUTTING is entered (R36). -/
def State.enterShutting (k : Nat) (s : State) : State :=
  let t := s.setOp k (fun o => { o with phase := .shutting, stall := none })
  if (t.passage k).sluice.state = .shut then t.endOp k else t.lower k 0

/-- An operation reaches EQUALISED (R33, R37). -/
def State.reachEqualised (k : Nat) (s : State) : State :=
  let t := (s.captureEnd k).setOp k (fun o => { o with phase := .equalised, timer := none, stall := none })
  match (t.passage k).slot with
  | none => s
  | some o => (t.pushAll (t.reportTasks k o .equalised)).when (decide (o.purpose ≠ .move)) (State.enterShutting k)

/-! ## Creation and claims (R28 to R30) -/

/-- An operation takes its claims (R29). -/
def State.takeClaims (k : Nat) (s : State) : State :=
  (s.setClaims (s.chambersOf k) (some k)).setOp k (fun o => { o with claimsHeld := true })

/-- A fresh operation in WAITING (R28). -/
def Op.fresh (purpose : Purpose) (transit : Option Nat) (target order : Nat) : Op :=
  { purpose := purpose, transit := transit, phase := .waiting, stall := none, claimsHeld := false, order := order,
    target := target, timer := none, highWater := false, hStar := none, started := false, startReading := none,
    endReading := none, predicted := none, aborted := false }

/-- An operation enters a free slot in the last place of creation order (R28). -/
def State.enterSlot (k : Nat) (purpose : Purpose) (transit : Option Nat) (target : Nat) (s : State) : State :=
  { s with pcu := { s.pcu with
      passages := s.pcu.passages.set k
        { s.passage k with slot := some (Op.fresh purpose transit target s.pcu.nextOrder) }
      nextOrder := s.pcu.nextOrder + 1 } }

/-- An operation is created in a free slot; it takes its claims where all are free and is then examined (R28, R29). -/
def State.createOp (k : Nat) (purpose : Purpose) (transit : Option Nat) (target : Nat) (s : State) : State :=
  let t := s.enterSlot k purpose transit target
  if s.unclaimed k then (t.takeClaims k).push (.examine k) else t

/-- The rank of an operation in arbitration, greater first: with a transit, then how far its transit leads (R30). -/
def State.claimRank (s : State) (o : Op) : Nat :=
  match o.transit with
  | none => 0
  | some id => 1 + ((s.transit id).map Transit.lead).getD 0

/-- One operation ranks ahead of another in arbitration (R30). -/
def State.ranksAhead (s : State) (a b : Op) : Bool :=
  decide (s.claimRank b < s.claimRank a) || (decide (s.claimRank a = s.claimRank b) && decide (a.order < b.order))

/-- The operation of passage k is a candidate for a release of chambers (R30). -/
def State.candidate (s : State) (released : List Nat) (k : Nat) : Option (Nat × Op) :=
  match (s.passage k).slot with
  | some o =>
    if o.phase = .waiting ∧ ¬ o.claimsHeld ∧ (s.chambersOf k).any (fun c => released.contains c) ∧ s.unclaimed k then
      some (k, o)
    else none
  | none => none

/-- The first-ranked of a list of candidates (R30). -/
def State.bestOf (s : State) : List (Nat × Op) → Option (Nat × Op)
  | [] => none
  | x :: rest =>
    match s.bestOf rest with
    | none => some x
    | some y => if s.ranksAhead y.2 x.2 then some y else some x

/-- Arbitrate released chambers, candidate by candidate (R30). Each grant claims a chamber, so three rounds are enough. -/
def State.arbitrate (released : List Nat) : Nat → State → State
  | 0, s => s
  | fuel + 1, s =>
    match s.bestOf (s.passagesInUse.filterMap (s.candidate released)) with
    | none => s
    | some (k, _) => State.arbitrate released fuel ((s.takeClaims k).push (.examine k))

/-! ## Leaving WAITING (R31, R32) -/

/-- A MANUAL operation under a permit is exempt from the sensor and overflow conditions (R31). -/
def Passage.exempt (p : Passage) (o : Op) : Bool := decide (o.purpose = .manual) && p.permit

/-- Condition 2 of R31. -/
def State.sensorsServe (s : State) (k : Nat) : Bool := s.sensorsGood k && (s.predict k).hasData

/-- All five conditions of R31. -/
def State.mayStart (s : State) (k : Nat) (o : Op) : Bool :=
  (decide (s.auth.mode = .service) || decide (o.purpose = .manual))
    && ((s.passage k).exempt o || (s.sensorsServe k && !(s.predict k).overflows))
    && s.interlockOk k
    && !decide ((s.passage k).sluice.state = .fault) && !decide ((s.passage k).sluice.state = .moving)

/-- The stall reason shown while WAITING (R31). -/
def State.waitReason (s : State) (k : Nat) (o : Op) : Option StallReason :=
  if (s.passage k).exempt o then none
  else if (s.predict k).overflows then some .overflowRisk
  else if s.sensorsServe k then none
  else some .sensor

/-- The captures of a first start (R32, R38). -/
def State.captureStart (s : State) (k : Nat) (o : Op) : Op :=
  if o.started then o
  else if k = 0 ∧ o.purpose ≠ .manual then
    { o with started := true, hStar := (s.predict k).hStar, startReading := some s.readingOne,
             predicted := some (s.riseVolume (s.sensor 1).level.mean (s.sensor 0).level.mean) }
  else { o with started := true, hStar := (s.predict k).hStar }

/-- The settings an operation copies into the sluice record at its start (R32). -/
def State.copySettings (s : State) (o : Op) (x : Sluice) : Sluice :=
  { x with target := if o.purpose = .manual then o.target else s.timing.sluiceTarget,
           rampInterval := s.timing.rampInterval, moveLimit := s.timing.moveLimit }

/-- An operation starts (R32). -/
def State.startOp (k : Nat) (o : Op) (s : State) : State :=
  let t := (s.setSluice k (s.copySettings o)).setOp k (fun _ =>
    { s.captureStart k o with stall := none, timer := seconds s.timing.eqLimit, highWater := false })
  let x := (t.passage k).sluice
  if s.equal k then t.reachEqualised k
  else if x.position < x.target then (t.setOp k (fun y => { y with phase := .ramping })).stepUp k
  else if x.position = x.target then t.setOp k (fun y => { y with phase := .flowing })
  else (t.setOp k (fun y => { y with phase := .flowing })).lower k x.target

/-- The notice of a failed overflow check, once in a wait (R31). -/
def State.highWaterNotice (s : State) (k : Nat) (o : Op) : List Notice :=
  match s.predict k, o.highWater with
  | .level h _ _ (some p) false, false => [.highWater k h (s.chamber p).hMax]
  | _, _ => []

/-- An operation that stays WAITING shows its stall reason and may raise HIGH_WATER (R31). -/
def State.keepWaiting (k : Nat) (o : Op) (s : State) : State :=
  let risk := decide (s.waitReason k o = some .overflowRisk)
  (s.setOp k (fun y => { y with stall := s.waitReason k o, highWater := y.highWater || risk })).when risk
    (State.raiseAll (s.highWaterNotice k o))

/-- The examination of a passage's operation (R31). -/
def State.examine (k : Nat) (s : State) : State :=
  match (s.passage k).slot with
  | none => s
  | some o =>
    if o.phase = .waiting ∧ o.claimsHeld then
      if s.mayStart k o then s.startOp k o else s.keepWaiting k o
    else s

/-! ## EQUAL, sensor failure, retry, abort, take-over -/

/-- EQUAL became true on a passage (R33, R43). -/
def State.takeEqual (k : Nat) (s : State) : State :=
  let t := match (s.passage k).slot.map Op.phase with
    | some .ramping => s.reachEqualised k
    | some .flowing => s.reachEqualised k
    | _ => s
  t.retryOpen k

/-- What a sensor failure does to the operation of an adjacent passage (R35). -/
def State.sensorStall (k : Nat) (s : State) : State :=
  match (s.passage k).slot with
  | none => s
  | some o =>
    let stalled := (s.setOp k (fun y => { y with phase := .stalled, stall := some .sensor })).lower k 0
    match o.phase, o.stall with
    | .ramping, _ => if (s.passage k).exempt o then s else stalled
    | .flowing, _ => if (s.passage k).exempt o then s else stalled
    | .stalled, some .timeout => stalled
    | .waiting, _ => s.push (.examine k)
    | _, _ => s

/-- A stalled operation returns to WAITING and is examined (R39). -/
def State.returnToWaiting (k : Nat) (s : State) : State :=
  (s.setOp k (fun o => { o with phase := .waiting, stall := none, timer := none, highWater := false })).push (.examine k)

/-- The Sequencer aborts the operation of a transit on a passage (R40); its pending open order goes with it (R43). DESIGN CHOICE (log 51): an operation already in SHUTTING enters it again, so that a shut in flight is commanded again and its move timer restarts (R36 commands the lowering on entry, and R40 does not say whether this is one). -/
def State.abortOp (id k : Nat) (s : State) : State :=
  match (s.passage k).slot with
  | none => s
  | some o =>
    if o.transit = some id then
      let cleared := s.setGate k (fun g => if g.pendingOpen = some id then { g with pendingOpen := none } else g)
      if o.phase = .waiting ∧ ¬ o.claimsHeld then cleared.freeSlot k
      else
        ((cleared.setSluice k (fun x => { x with rampTimer := none })).setOp k
          (fun y => { y with timer := none, aborted := true })).enterShutting k
    else s

/-- A manual request takes an operation over from its transit (R48). One that already waits stays in its wait, with its mark of a HIGH_WATER raised (R31). DESIGN CHOICE (log 31): "the timers are stopped" means the timers of the operation, the ramp timer and the equalise timer; the move timer of a sluice move in flight runs on, so that the move still ends under R25 to R27. -/
def State.takeOver (k target : Nat) (o : Op) (s : State) : State :=
  let t := s.captureEnd k
  let o' := ((t.passage k).slot).getD o
  (((t.pushAll (t.reportTasks k o' .takenOver)).setSluice k (fun x => { x with rampTimer := none })).setOp k (fun y =>
    { y with transit := none, purpose := .manual, target := target, phase := .waiting, stall := none, timer := none,
             startReading := none, endReading := none, predicted := none, aborted := false,
             highWater := y.highWater && decide (y.phase = .waiting) })).push
    (.examine k)

/-! ## SAFE_HOLD and the return to SERVICE (R41) -/

/-- What SAFE_HOLD entry does to one passage (R41). -/
def State.holdPassage (k : Nat) (s : State) : State :=
  let t := s.stopGate k
  match (t.passage k).slot with
  | none => t
  | some o =>
    if o.phase = .ramping ∨ o.phase = .flowing ∨ (o.phase = .stalled ∧ o.stall = some .timeout) then
      ((t.setSluice k (fun x => { x with rampTimer := none })).setOp k
          (fun y => { y with phase := .stalled, stall := some .hold, timer := none })).when
        (!decide ((t.passage k).sluice.state = .fault) && !decide ((t.passage k).sluice.state = .shut))
        (State.lower k 0)
    else t

/-- The PCU's part of SAFE_HOLD entry (R41). -/
def State.pcuHold (s : State) : State := s.each s.passagesInUse State.holdPassage

/-- What the return to SERVICE does to one passage: a HOLD stall returns to WAITING, a waiting operation is examined (R31, R41). -/
def State.resumePassage (k : Nat) (s : State) : State :=
  match (s.passage k).slot with
  | none => s
  | some o =>
    if o.phase = .stalled ∧ o.stall = some .hold then s.returnToWaiting k
    else if o.phase = .waiting then s.push (.examine k)
    else s

/-- The PCU's part of the return to SERVICE (R41, R31). -/
def State.pcuResume (s : State) : State := s.each s.passagesInUse State.resumePassage

/-! ## A change of a passage's state reaches its neighbours -/

/-- What the change of passage k does to a neighbouring passage: its pending open order, its held step, its operation (R31, R42, R43). -/
def State.neighbourChanged (j : Nat) (s : State) : State := ((s.retryOpen j).retryStep j).push (.examine j)

/-- The gate or sluice of passage k changed its state (R31, R42, R43). -/
def State.takePassageChanged (k : Nat) (s : State) : State :=
  (s.each (s.othersOf k) State.neighbourChanged).push (.examine k)

end Sys2Proof.Machine
end

