-- ==== Sys2Proof/Machine/Lamps.lean ====
section
/-! DEFINITION. The Lamp Driver (03): aspects, head faults and the suspension of an approach. -/

namespace Sys2Proof.Machine

/-- The side of a passage that faces the pound a direction's vessels come from (R54). -/
def sourceSide : Direction → Side
  | .down => .above
  | .up => .below

/-- The current move across a passage whose source head stands on a side (R54). -/
def State.sourceMove (s : State) (k : Nat) (side : Side) : Option Move :=
  s.table.findSome? (fun t =>
    match t.move with
    | some m => if m.passage = k ∧ sourceSide t.dir = side then some m else none
    | none => none)

/-- The aspect of a source head by the state of the move's gate (R54). -/
def GateState.aspect : GateState → Aspect
  | .opening => .redGreen
  | .opened => .green
  | .closed => .red
  | .closing => .red
  | .stopped => .red
  | .fault => .red

/-- The aspect of a source head (R54, R55). -/
def Move.aspect (m : Move) (g : GateState) : Aspect :=
  match m.phase with
  | .opened => if m.confirmed then .red else g.aspect
  | .await => if m.confirmed then .red else g.aspect
  | .prep => .red
  | .equalise => .red
  | .close => .red

/-- The output of a head (R52 to R55). -/
def State.aspectOf (s : State) (k : Nat) (side : Side) : Aspect :=
  if !s.inUse k then .dark
  else if s.auth.mode ≠ .service then .redFlash
  else
    match s.sourceMove k side with
    | some m => m.aspect (s.passage k).gate.state
    | none => .red

/-- Command the two heads of a passage what the state derives for them (R53). -/
def State.commandHeads (s : State) (k : Nat) : HeadPair :=
  { above := Head.command (s.aspectOf k .above) (s.lamps.get k).above,
    below := Head.command (s.aspectOf k .below) (s.lamps.get k).below }

/-- Re-derive the aspects of all heads (R53). -/
def State.deriveAspects (s : State) : State :=
  { s with lamps :=
      { zero := s.commandHeads 0, one := s.commandHeads 1, two := s.commandHeads 2, three := s.commandHeads 3 } }

/-- The head of a passage and side. -/
def State.head (s : State) (k : Nat) (side : Side) : Head := (s.lamps.get k).get side

/-- An approach head (03 section 3.1). -/
def State.approachHead (s : State) (k : Nat) (side : Side) : Bool :=
  match side with
  | .above => decide (k = 0)
  | .below => decide (k = s.count)

/-- The fault state of a head toggles at the expiry of its agreement timer (R57). -/
def Head.toggle (h : Head) : Head :=
  if h.fault then { h with fault := false, timer := none }
  else { h with fault := true, timer := none, faultCount := min 255 (h.faultCount + 1) }

/-- The notice of a head that toggles (R57). -/
def Head.toggleNotice (k : Nat) (side : Side) (h : Head) : Notice :=
  if h.fault then .lampRestored k side h.output else .lampFault k side h.output h.red h.green

/-- The expiry of a head's agreement timer (R57, R58). -/
def State.agreementExpired (k : Nat) (side : Side) (s : State) : State :=
  ((s.setHead k side Head.toggle).raise (Head.toggleNotice k side (s.head k side))).when
    (s.approachHead k side && (s.head k side).fault) State.calling

/-- The heads of a passage formed again for a new N (R52): one that leaves use goes DARK with its fault CLEAR, one that enters or stays in use shows RED_FLASH. -/
def reformHead (wasInUse nowInUse : Bool) (h : Head) : Head :=
  if nowInUse then Head.command .redFlash h
  else if wasInUse then Head.restart .dark h
  else Head.command .dark h

/-- The heads are formed again when N is set or changed (R52); an approach whose suspension ends hands on a calling event (R58). -/
def State.reformHeads (before : State) (s : State) : State :=
  let form := fun k => HeadPair.map (reformHead (before.inUse k) (s.inUse k)) (s.lamps.get k)
  let t := { s with lamps := { zero := form 0, one := form 1, two := form 2, three := form 3 } }
  t.when ((before.suspended .up && !t.suspended .up) || (before.suspended .down && !t.suspended .down)) State.calling

end Sys2Proof.Machine
end

