-- ==== Sys2Proof/Machine/Sequencer.lean ====
section
/-! DEFINITION. The Lockage Sequencer (06): starting a transit, its moves, cascades, reports, gate ends, settlement, and its part in SAFE_HOLD. -/

namespace Sys2Proof.Machine

/-- The mode is SERVICE. -/
def State.inService (s : State) : Bool := decide (s.auth.mode = .service)

/-! ## Moves (R105, R106) -/

/-- The entry chamber of a direction (R105). -/
def State.entryChamber (s : State) : Direction → Nat
  | .down => 1
  | .up => s.count

/-- A move in PREP. -/
def Move.fresh (kind : MoveKind) (passage source destination : Nat) : Move :=
  { kind := kind, passage := passage, source := source, destination := destination, phase := .prep,
    confirmed := false, cascade := [], blockedAt := none, owed := none }

/-- The ENTRY move of a direction (R106). -/
def State.entryMove (s : State) : Direction → Move
  | .down => Move.fresh .entry 0 0 1
  | .up => Move.fresh .entry s.count (s.count + 1) s.count

/-- The next move of a transit that holds chamber c (R106). -/
def State.nextMove (s : State) (d : Direction) (c : Nat) : Move :=
  match d with
  | .down => if c = s.count then Move.fresh .exit c c (c + 1) else Move.fresh .shift c c (c + 1)
  | .up => if c = 1 then Move.fresh .exit 0 1 0 else Move.fresh .shift (c - 1) c (c - 1)

/-- The confirmation a move awaits (R112). -/
def MoveKind.awaits : MoveKind → ConfirmKind
  | .entry => .entered
  | .shift => .moved
  | .exit => .cleared

/-- A move enters EQUALISE and, in SERVICE, requests its MOVE operation (R110, R122). -/
def State.enterEqualise (id : Nat) (m : Move) (s : State) : State :=
  (s.setMove id (fun x => { x with phase := .equalise })).when s.inService (State.push (.request id m.passage .move))

/-! ## Cascades (R107 to R109) -/

/-- The outcome of a walk: the passages visited in the order visited, or the chamber that blocks it. -/
inductive Walk where
  | formed (passages : List Nat)
  | blocked (chamber : Nat)
  deriving DecidableEq, Repr

/-- A passage visited ahead of the rest of a walk. -/
def Walk.visit (j : Nat) : Walk → Walk
  | .formed l => .formed (j :: l)
  | .blocked c => .blocked c

/-- The walk down the flight of a DOWN shift (R107). A flight has at most four passages. -/
def State.walkDown (s : State) : Nat → Nat → Walk
  | 0, j => .formed [j]
  | fuel + 1, j =>
    if s.count ≤ j then .formed [j]
    else if (s.holderOf (j + 1)).isSome then .blocked (j + 1)
    else if (s.predict j).hasData && !(s.predict j).overflows then .formed [j]
    else (s.walkDown fuel (j + 1)).visit j

/-- The walk up the flight of an UP shift (R108). -/
def State.walkUp (s : State) : Nat → Walk
  | 0 => .formed [0]
  | j + 1 => if (s.holderOf (j + 1)).isSome then .blocked (j + 1) else (s.walkUp j).visit (j + 1)

/-- The walk of a shift into chamber d (R107, R108). -/
def State.walk (s : State) (dir : Direction) (d : Nat) : Walk :=
  match dir with
  | .down => s.walkDown 4 d
  | .up => s.walkUp (d - 1)

/-- The purpose of a cascade's operations (R107, R108). -/
def cascadePurpose : Direction → Purpose
  | .down => .drain
  | .up => .charge

/-- Request the operation at the head of the cascade, in SERVICE (R109). -/
def State.requestCascade (id : Nat) (dir : Direction) (cascade : List Nat) (s : State) : State :=
  match cascade with
  | [] => s
  | k :: _ => s.when s.inService (State.push (.request id k (cascadePurpose dir)))

/-- Form the cascade of a shift, or block the move (R107 to R109). The walk visits the passage worked last first. -/
def State.formCascade (id : Nat) (dir : Direction) (m : Move) (s : State) : State :=
  match s.walk dir m.destination with
  | .blocked c =>
    (s.setMove id (fun x => { x with blockedAt := some c })).raise (.moveBlocked id m.passage c)
  | .formed l =>
    (s.setMove id (fun x => { x with blockedAt := none, cascade := l.reverse })).requestCascade id dir l.reverse

/-! ## Starting and going on (R105, R106) -/

/-- A transit leaves the transit queue (R93): QUEUE_EMPTY where it was the last (R99), and a calling event. -/
def State.leaveQueue (id : Nat) (cause : EmptyCause) (s : State) : State :=
  let rest := s.arb.queue.filter (fun x => !decide (x = id))
  (({ s with arb := { s.arb with queue := rest } }).when (rest.isEmpty && !s.arb.queue.isEmpty)
    (State.raise (.queueEmpty id cause))).calling

/-- A transit that has become head of the queue is examined (R105). -/
def State.newHead (before : Option Nat) (s : State) : State :=
  s.when (!decide (s.arb.queue.head? = before)) (State.push .examineHead)

/-- The start of the queue head (R105). -/
def State.startTransit (t : Transit) (s : State) : State :=
  let m := s.entryMove t.dir
  let c := s.entryChamber t.dir
  ((((s.leaveQueue t.id .started).setTransit t.id
    (fun x => { x with state := .moving, held := [c], move := some m })).raiseAll
      [.transitStarted t.id t.dir c, .moveBegun t.id .entry m.passage m.source m.destination]).enterEqualise t.id
        m).newHead s.arb.queue.head?

/-- The conditions of R105 for a queue head. -/
def State.mayStartTransit (s : State) (t : Transit) : Bool :=
  s.inService && (decide (s.flightDir = none) || decide (s.flightDir = some t.dir))
    && (s.holderOf (s.entryChamber t.dir)).isNone && decide (t.state = .queued)

/-- The examination of the queue head (R105). -/
def State.takeExamineHead (s : State) : State :=
  match s.arb.queue.head?.bind s.transit with
  | none => s
  | some t => if s.mayStartTransit t then s.startTransit t else s

/-- A move begins (R106). -/
def State.beginMove (id : Nat) (held : List Nat) (m : Move) (s : State) : State :=
  (s.setTransit id (fun x => { x with state := .moving, held := held, move := some m })).raise
    (.moveBegun id m.kind m.passage m.source m.destination)

/-- The next move of a transit in WAITING_NEXT that holds chamber c (R106). -/
def State.goOn (t : Transit) (c : Nat) (s : State) : State :=
  let m := s.nextMove t.dir c
  match m.kind with
  | .shift =>
    if (s.holderOf m.destination).isSome then s
    else (s.beginMove t.id [c, m.destination] m).formCascade t.id t.dir m
  | .exit => (s.beginMove t.id [c] m).enterEqualise t.id m
  | .entry => s

/-- The examination of a transit in WAITING_NEXT (R106). -/
def State.takeExamineNext (id : Nat) (s : State) : State :=
  match s.transit id with
  | some t =>
    match t.state, t.held with
    | .waitingNext, c :: _ => if s.inService then s.goOn t c else s
    | _, _ => s
  | none => s

/-- A chamber holder has been released: the queue head, every transit in WAITING_NEXT and every move blocked there are taken up (R105, R106, R109, R116, R121). -/
def State.takeReleased (c : Nat) (s : State) : State :=
  let waiting := (s.table.filter (fun t => decide (t.state = .waitingNext))).map (fun t => Task.examineNext t.id)
  let blocked := s.table.filterMap (fun t =>
    match t.move with
    | some m => if m.blockedAt = some c then some (t.id, t.dir, m) else none
    | none => none)
  ((s.push .examineHead).pushAll waiting).when s.inService
    (fun x => x.each blocked (fun b y => y.formCascade b.1 b.2.1 b.2.2))

/-! ## Requests to the PCU (R28, R109, R110, R117) -/

/-- An operation of a passage and purpose stands in a transit's list. -/
def Transit.hasOp (t : Transit) (k : Nat) (purpose : Purpose) : Bool :=
  t.ops.any (fun e => decide (e.passage = k) && decide (e.purpose = purpose))

/-- A cascade operation stands in a transit's list. -/
def Transit.hasCascadeOp (t : Transit) : Bool := t.ops.any (fun e => !decide (e.purpose = .move))

/-- The move still wants the operation requested. -/
def Move.wants (m : Move) (t : Transit) (k : Nat) (purpose : Purpose) : Bool :=
  if purpose = .move then decide (m.phase = .equalise) && decide (m.passage = k) && !t.hasOp k .move
  else decide (m.phase = .prep) && decide (m.cascade.head? = some k) && !t.hasCascadeOp

/-- The request is accepted: the operation enters the list, and a cascade's passage leaves the cascade (R109, R117). -/
def Transit.accepted (k : Nat) (purpose : Purpose) (t : Transit) : Transit :=
  { t with
    ops := t.ops ++ [{ passage := k, purpose := purpose, waterTaken := false }]
    move := t.move.map (fun m =>
      { m with owed := none, cascade := if purpose = .move then m.cascade else m.cascade.tail }) }

/-- A transit's request for a level operation reaches the PCU (R28). -/
def State.takeRequestOp (id k : Nat) (purpose : Purpose) (s : State) : State :=
  match s.transit id with
  | some t =>
    match t.move with
    | some m =>
      if s.inService && m.wants t k purpose then
        if (s.passage k).slot.isNone then
          (s.setTransit id (Transit.accepted k purpose)).createOp k purpose (some id) s.timing.sluiceTarget
        else
          (s.setPassage k (fun p => { p with slotFreeOwed := true })).setMove id (fun x => { x with owed := some k })
      else s
    | none => s
  | none => s

/-- The request that a move owes for a passage, if it owes one there (R109, R110). -/
def Transit.owedRequest (t : Transit) (k : Nat) : Option Task :=
  match t.move with
  | some m =>
    if m.owed = some k then
      some (.request t.id k (if m.phase = .equalise then .move else cascadePurpose t.dir))
    else none
  | none => none

/-- The slot-free event of a passage (R28): the owed requests are made again, in SERVICE (R109, R121). -/
def State.takeSlotFree (k : Nat) (s : State) : State :=
  s.when s.inService (State.pushAll (s.table.filterMap (fun t => t.owedRequest k)))

/-! ## Reports (R117 to R119) -/

/-- Add a report's water to a transit's record (R118). -/
def Transit.addWater (r : Report) (t : Transit) : Transit :=
  { t with water :=
      { t.water with predicted := t.water.predicted + r.predicted, measured := t.water.measured + r.measured,
                     stale := t.water.stale || r.stale } }

/-- The report names this entry of the operations list. -/
def Report.names (r : Report) (e : OpEntry) : Bool := decide (e.passage = r.passage) && decide (e.purpose = r.purpose)

/-- The water of a passage-0 report is taken once (R118). -/
def Transit.takeWater (r : Report) (t : Transit) : Transit :=
  if r.passage = 0 ∧ t.ops.any (fun e => r.names e && !e.waterTaken) then t.addWater r else t

/-- The water of a passage-0 entry is marked taken (R118). -/
def Transit.markWater (r : Report) (t : Transit) : Transit :=
  { t with ops := t.ops.map (fun e => if r.names e ∧ r.passage = 0 then { e with waterTaken := true } else e) }

/-- The entry leaves the list (R117). -/
def Transit.dropOp (r : Report) (t : Transit) : Transit := { t with ops := t.ops.filter (fun e => !r.names e) }

/-- The move of an equalised MOVE operation enters OPEN and orders its gate, in SERVICE (R110, R111). -/
def State.enterOpen (id : Nat) (m : Move) (s : State) : State :=
  (s.setMove id (fun x => { x with phase := .opened })).orderOpen id m.passage

/-- A cascade goes on after one of its operations: the next request, or EQUALISE (R109). -/
def State.cascadeOn (t : Transit) (m : Move) (s : State) : State :=
  if m.phase = .prep then
    if m.cascade.isEmpty then s.enterEqualise t.id m else s.requestCascade t.id t.dir m.cascade
  else s

/-- A cascade operation that was aborted or taken over puts its passage back (R109). -/
def State.cascadeBack (t : Transit) (m : Move) (k : Nat) (s : State) : State :=
  if m.phase = .prep then
    (s.setMove t.id (fun x => { x with cascade := k :: x.cascade })).requestCascade t.id t.dir (k :: m.cascade)
  else s

/-- What a report does to the move of its transit (R109, R110). A MOVE operation's DONE, ABORTED or TAKEN_OVER leaves the move where it stands (log 24). -/
def State.reportMove (r : Report) (t : Transit) (m : Move) (s : State) : State :=
  match r.outcome with
  | .equalised =>
    if r.purpose = .move ∧ m.phase = .equalise ∧ m.passage = r.passage ∧ s.inService then s.enterOpen t.id m else s
  | .done => if r.purpose = .move then s else s.cascadeOn t m
  | .aborted => if r.purpose = .move then s else s.cascadeBack t m r.passage
  | .takenOver => if r.purpose = .move then s else s.cascadeBack t m r.passage

/-- What a report does to the record of its transit (R117, R118). -/
def Transit.takeReport (r : Report) (t : Transit) : Transit :=
  match r.outcome with
  | .equalised => (t.takeWater r).markWater r
  | .done => (t.takeWater r).dropOp r
  | .aborted => (t.takeWater r).dropOp r
  | .takenOver => (t.takeWater r).dropOp r

/-- A report of the PCU is taken, or discarded where its transit has no such operation (R117). -/
def State.takeReport (r : Report) (s : State) : State :=
  match s.transit r.transit with
  | some t =>
    if t.ops.any r.names then
      match t.move with
      | some m => (s.setTransit t.id (Transit.takeReport r)).reportMove r t m
      | none => s.setTransit t.id (Transit.takeReport r)
    else s
  | none => s

/-! ## Gate ends (R111, R112, R114, R116) -/

/-- A move enters AWAIT (R112). -/
def State.enterAwait (t : Transit) (m : Move) (s : State) : State :=
  let limit := if m.kind = .entry then s.timing.entryLimit else s.timing.exitLimit
  let timer := if s.inService then Overdue.running limit (limit * Config.second)
    else Overdue.paused limit (limit * Config.second)
  ((s.setTransit t.id (fun x => { x with overdue := timer })).setMove t.id (fun x => { x with phase := .await })).raise
    (.moveReady t.id m.kind m.passage m.kind.awaits)

/-- The closing is reported to an EQUALISED MOVE operation of the transit (R37, R114 step 1). -/
def State.reportClosed (id k : Nat) (s : State) : State :=
  match (s.passage k).slot with
  | some o => s.when (decide (o.purpose = .move) && decide (o.phase = .equalised) && decide (o.transit = some id))
      (State.enterShutting k)
  | none => s

/-- A move ends, leaving its transit in WAITING_NEXT with the chambers given (R114). -/
def State.endMove (t : Transit) (m : Move) (held : List Nat) (s : State) : State :=
  (s.setTransit t.id (fun x => { x with state := .waitingNext, held := held, move := none })).raise
    (.moveDone t.id m.kind m.passage)

/-- The gate behind a move in CLOSE has closed (R114, R116). -/
def State.moveClosed (t : Transit) (m : Move) (s : State) : State :=
  match m.kind with
  | .entry => (s.endMove t m t.held).push (.examineNext t.id)
  | .shift => (s.endMove t m [m.destination]).pushAll [.released m.source, .examineNext t.id]
  | .exit => ((s.raise (.transitEnded t.id)).freeTransit t.id).pushAll (t.held.map Task.released)

/-- The transit whose current move crosses a passage (R104). -/
def State.moverOf (s : State) (k : Nat) : Option (Transit × Move) :=
  s.table.findSome? (fun t =>
    match t.move with
    | some m => if m.passage = k then some (t, m) else none
    | none => none)

/-- The gate of a passage has reached CLOSED (R114). -/
def State.gateClosed (t : Transit) (m : Move) (s : State) : State :=
  match m.phase with
  | .close => (s.reportClosed t.id m.passage).moveClosed t m
  | .opened => s.reportClosed t.id m.passage
  | .await => s.reportClosed t.id m.passage
  | .prep => s
  | .equalise => s

/-- A gate stands at an end (R22, R111, R114). -/
def State.takeGateEnd (k : Nat) (s : State) : State :=
  match s.moverOf k with
  | none => s
  | some (t, m) =>
    match (s.passage k).gate.state with
    | .opened => if m.phase = .opened then s.enterAwait t m else s
    | .closed => s.gateClosed t m
    | .opening => s
    | .closing => s
    | .stopped => s
    | .fault => s

/-! ## Settlement (R115) -/

/-- A transit's overdue timer is stopped (R112). -/
def Transit.stopOverdue (t : Transit) : Transit := { t with overdue := .stopped }

/-- The register's part of a settlement: entries become EXITED, and are freed once the commitments are removed (R77). -/
def State.exitVessels (t : Transit) (s : State) : State :=
  s.each t.berths (fun b => State.setVessel b.mark (fun v => { v with state := .exited t.id b.estimate }))

/-- Free the entries of a transit's vessels (R77). -/
def State.freeVessels (marks : List Mark) (s : State) : State := s.each marks State.freeVessel

/-- The journal entry of a mark's charge appended from a place of the journal on (R165). -/
def State.entryOf (s : State) (start : Nat) (m : Mark) : Option JournalEntry :=
  (s.acc.journal.drop start).find? (fun e =>
    match e.kind with
    | .charge c => decide (c.mark = m)
    | .payment _ _ => false)

/-- Resolve the quote slot of each mark with its charge (R115 step 4, R165). -/
def State.resolveCharges (start : Nat) (marks : List Mark) (s : State) : State :=
  s.each marks (fun m t =>
    match t.entryOf start m with
    | some e => t.resolveQuote m (.charge e)
    | none => t)

/-- The settlement of a transit with the Toll Calculator's result (R115). -/
def State.settleWith (t : Transit) (r : Settlement) (s : State) : State :=
  let water := { t.water with anomaly := r.anomaly }
  let flagged := (s.setTransit t.id (fun x => { x with water := water })).when r.anomaly
    (State.raise (.volumeAnomaly t.id t.water.predicted t.water.measured r.bound r.volume))
  let posted := (flagged.exitVessels t).postCharges r.charges
  let freed := (posted.uncommitBerths t.berths).freeVessels t.marks
  (((freed.resolveCharges s.acc.journal.length t.marks).setTransit t.id (fun x => { x with state := .settled })).raise
    (.transitSettled t.id water r.volume (r.charges.map (fun c => (c.mark, c.parts.amount))))).calling

/-! ## SAFE_HOLD and the return to SERVICE (R121, R123) -/

/-- A running overdue timer is paused (R112, R121). -/
def Transit.pauseOverdue (t : Transit) : Transit :=
  match t.overdue with
  | .running limit left => { t with overdue := .paused limit left }
  | .stopped => t
  | .paused _ _ => t

/-- A paused overdue timer runs on from the time it kept (R112, R123). -/
def Transit.resumeOverdue (t : Transit) : Transit :=
  match t.overdue with
  | .paused limit left => { t with overdue := .running limit left }
  | .stopped => t
  | .running _ _ => t

/-- The Sequencer's part of SAFE_HOLD entry (R121). -/
def State.seqHold (s : State) : State := { s with table := s.table.map Transit.pauseOverdue }

/-- A move re-enters EQUALISE: an operation in EQUALISED takes it to OPEN, another goes on, and where there is none one is requested (R123). DESIGN CHOICE (log 24): an operation still SHUTTING goes on like any other, and its DONE requests no new one: the move stays in EQUALISE. -/
def State.reEqualise (t : Transit) (m : Move) (s : State) : State :=
  let x := (s.setTransit t.id Transit.stopOverdue).setMove t.id (fun y => { y with phase := .equalise, owed := none })
  match (s.passage m.passage).slot with
  | some o =>
    if o.transit = some t.id ∧ o.purpose = .move ∧ t.hasOp m.passage .move then
      if o.phase = .equalised then x.enterOpen t.id m else x
    else x.push (.request t.id m.passage .move)
  | none => x.push (.request t.id m.passage .move)

/-- A PREP is taken up (R123). -/
def State.rePrep (t : Transit) (m : Move) (s : State) : State :=
  match m.blockedAt with
  | some c => if (s.holderOf c).isSome then s else s.formCascade t.id t.dir m
  | none => if t.hasCascadeOp then s else s.requestCascade t.id t.dir m.cascade

/-- The move of a transit is taken up at the return to SERVICE (R123). DESIGN CHOICE (log 24): a move in CLOSE whose gate is already CLOSED has no row in R123 and is left as it stands. -/
def State.resumeMove (t : Transit) (m : Move) (s : State) : State :=
  match m.phase with
  | .prep => s.rePrep t m
  | .equalise => s.reEqualise t m
  | .opened => s.reEqualise t m
  | .await =>
    if (s.passage m.passage).gate.state = .opened then s.setTransit t.id Transit.resumeOverdue else s.reEqualise t m
  | .close => if (s.passage m.passage).gate.state = .closed then s else s.commandClose false m.passage

/-- A transit is taken up at the return to SERVICE (R123). -/
def State.resumeTransit (t : Transit) (s : State) : State :=
  match t.state, t.move with
  | .waitingNext, _ => s.push (.examineNext t.id)
  | _, some m => s.resumeMove t m
  | _, none => s

/-- The Sequencer's part of the return to SERVICE (R105, R106, R123). -/
def State.seqResume (s : State) : State := (s.each s.table State.resumeTransit).push .examineHead

/-! ## Freeing a transit early (R124, R125) -/

/-- Abort every operation in a transit's list (R124 step 1). -/
def State.abortAll (t : Transit) (s : State) : State := s.each t.ops (fun e => State.abortOp t.id e.passage)

/-- Abandon one vessel (R78). -/
def State.abandonBerth (id : Nat) (b : Berth) (s : State) : State :=
  (((s.lowerCommitments [b]).resolveQuote b.mark .noCharge).freeVessel b.mark).raise
    (.vesselWithdrawn b.mark .abandoned (some id))

/-- Abandon a transit, in the order of R124; each account whose commitment fell is handed one account event (R157). -/
def State.abandonTransit (t : Transit) (s : State) : State :=
  (((((((s.abortAll t).setTransit t.id (fun x => { x with held := [] })).each t.berths (State.abandonBerth t.id)).pushAll
    (s.accountEvents t.berths)).freeTransit t.id).unreserveBerths t.berths.length).raise
      (.transitAbandoned t.id t.marks)).pushAll (t.held.map Task.released)

/-- Cancel a transit in its ENTRY, in the order of R125. -/
def State.cancelEntry (t : Transit) (m : Move) (s : State) : State :=
  let stopped := s.abortAll t
  let closed := stopped.when (!decide ((stopped.passage m.passage).gate.state = .closed))
    (State.commandClose false m.passage)
  (((((closed.setTransit t.id (fun x => { x with held := [] })).uncommitBerths t.berths).returnVessels t.dir
    t.marks).freeTransit t.id).unreserveBerths t.berths.length).raise
      (.transitCancelled t.id .cancel t.marks) |>.pushAll (t.held.map Task.released)

/-- Cancel a queued transit, in the order of R96. -/
def State.cancelQueued (t : Transit) (s : State) : State :=
  (((((s.leaveQueue t.id .cancel).uncommitBerths t.berths).returnVessels t.dir t.marks).unreserveBerths
    t.berths.length).freeTransit t.id).raise (.transitCancelled t.id .cancel t.marks)
    |>.newHead s.arb.queue.head?

end Sys2Proof.Machine
end

