-- ==== Sys2Proof/Machine/Calling.lean ====
section
/-! DEFINITION. The Call Arbiter (05): the calling event, passes, direction choice, composition, and the creation of a transit. -/

namespace Sys2Proof.Machine

/-- The other direction. -/
def opposite : Direction → Direction
  | .up => .down
  | .down => .up

/-- A vessel is callable by automatic calling (R85). -/
def State.callable (s : State) (v : Vessel) : Bool :=
  decide (v.state = .waiting) && !s.creditHeld v && !s.suspended v.dir

/-- The callable vessels of a direction, front of the queue first. -/
def State.callables (s : State) (d : Direction) : List Vessel := (s.queued d).filter s.callable

/-- The first callable SERVICE vessel of a direction in the arrival list. -/
def State.firstService (s : State) : Option Vessel :=
  s.reg.entries.find? (fun v => decide (v.cls = .service) && s.callable v)

/-- The direction of a pass, if there is a candidate (R86). The earliest callable SERVICE vessel decides wherever one direction or both hold one. -/
def State.chooseDirection (s : State) : Option Direction :=
  let kept := !(s.callables s.arb.lastDir).isEmpty
  let other := !(s.callables (opposite s.arb.lastDir)).isEmpty
  match s.firstService with
  | some v => some v.dir
  | none =>
    if other && decide (s.timing.runLimit ≤ s.arb.runCount) then some (opposite s.arb.lastDir)
    else if kept then some s.arb.lastDir
    else if other then some (opposite s.arb.lastDir)
    else none

/-- Berth 1 of an automatic call (R89). -/
def State.berthOne (s : State) (d : Direction) : Option Vessel :=
  match (s.callables d).find? Vessel.precedence with
  | some v => some v
  | none => (s.callables d).head?

/-- A berth list being composed: the vessels with their estimates, the length left, and the vessels passed over for fit (R90). -/
structure Composition where
  berths : List (Vessel × Nat)
  left : Nat
  skipped : List Mark
  deriving DecidableEq, Repr

/-- The estimates already counted on an account within a berth list (R90). -/
def countedOn (berths : List (Vessel × Nat)) (account : Nat) : Nat :=
  ((berths.filter (fun b => decide (b.1.account = account))).map Prod.snd).sum

/-- One vessel of the scan (R90). -/
def State.scanOne (s : State) (c : Composition) (v : Vessel) : Composition :=
  if s.creditHeldWith (countedOn c.berths v.account) v then c
  else if s.berthLength v.length ≤ c.left then
    { c with berths := c.berths ++ [(v, s.estimate v)], left := c.left - s.berthLength v.length }
  else { c with skipped := c.skipped ++ [v.mark] }

/-- The scan of a queue from the front, ending at the capacity or at the tail (R90). -/
def State.scan (s : State) (capacity : Nat) : List Vessel → Composition → Composition
  | [], c => c
  | v :: rest, c => if capacity ≤ c.berths.length then c else s.scan capacity rest (s.scanOne c v)

/-- The composition of a pass (R89, R90). -/
def State.compose (s : State) (d : Direction) (first : Vessel) : Composition :=
  s.scan s.capacity ((s.queued d).filter (fun v => !decide (v.mark = first.mark)))
    { berths := [(first, s.estimate first)], left := s.minUsable - s.berthLength first.length, skipped := [] }

/-- The next transit id: the one after the last, wrapping from 255 to 1, passing over ids in use (R91). The table holds at most 8 records, so nine tries are enough. -/
def State.nextId (s : State) : Nat → Nat → Nat
  | 0, n => n
  | fuel + 1, n =>
    let next := if n < 255 then n + 1 else 1
    if (s.transit next).isSome then s.nextId fuel next else next

/-- The transit record at creation (R91). -/
def State.newTransit (s : State) (id : Nat) (d : Direction) (origin : Origin) (berths : List (Vessel × Nat)) : Transit :=
  { id := id, dir := d, state := .queued, origin := origin, held := [], move := none, ops := [],
    berths := berths.map (fun b => { mark := b.1.mark, length := s.berthLength b.1.length, estimate := b.2 }),
    generation := s.toll.current.number, night := s.toll.nightNow, callTime := s.toll.clock.stamp,
    water := { predicted := 0, measured := 0, anomaly := false, stale := false }, overdue := .stopped }

/-- Create and queue a transit, handing on in the order of R92. -/
def State.createTransit (d : Direction) (origin : Origin) (berths : List (Vessel × Nat)) (s : State) : State :=
  let id := s.nextId 9 s.arb.lastId
  let t := s.newTransit id d origin berths
  let called := State.each berths (fun b => State.callVessel id b.1 b.2) { s with table := s.table ++ [t] }
  let booked := { called with
    acc := (berths.foldl (fun (a : Accounts) (b : Vessel × Nat) => a.commit b.1.account b.2) called.acc).reserve berths.length
    arb := { called.arb with queue := called.arb.queue ++ [id], lastId := id } }
  (booked.raise (.transitCalled id d origin (s.arb.queue.length + 1) t.generation t.night t.berths)).newHead
    s.arb.queue.head?

/-- The direction memory after a pass that queued a transit (R87). -/
def Arbiter.remember (d : Direction) (a : Arbiter) : Arbiter :=
  if d = a.lastDir then { a with runCount := min 15 (a.runCount + 1) } else { a with runCount := 1, lastDir := d }

/-- Set the blocking reason (R83, R84). -/
def State.block (r : BlockReason) (s : State) : State := { s with arb := { s.arb with reason := r } }

/-- The rest of a pass that calls from a direction (R84 steps 3 and 4). -/
def State.callFrom (d : Direction) (first : Vessel) (s : State) : State :=
  let c := s.compose d first
  let skipped := s.each c.skipped (fun m => State.setVessel m (skipVessel s.timing.skipLimit))
  let made := skipped.createTransit d .call c.berths
  { made with arb := made.arb.remember d }

/-- The passes of an attempt (R84). The transit queue has four places, so five passes are enough. -/
def State.passes : Nat → State → State
  | 0, s => s
  | fuel + 1, s =>
    if Config.transitQueueSize ≤ s.arb.queue.length then s.block .queueFull
    else if s.capacity = 0 then s.block .journalFull
    else
      match s.chooseDirection with
      | none => s.block .noVessel
      | some d =>
        match s.berthOne d with
        | none => s.block .noVessel
        | some v => State.passes fuel (s.callFrom d v)

/-- The calling event is taken (R83). -/
def State.takeCalling (s : State) : State :=
  if !s.arb.autoOn then s.block .autoOff
  else if !s.inService then s.block .notService
  else s.passes 5

/-- The mode leaves SERVICE: the blocking reason (R83). -/
def State.blockNotService (s : State) : State := if s.arb.reason = .autoOff then s else s.block .notService

/-- The flight idle condition as it stands (R99). -/
def State.idleNow (s : State) : Bool := s.arb.queue.isEmpty && !s.anyHolder

/-- The flight idle condition is formed at the end of an event, with FLIGHT_IDLE where it has become true (R99; log 25). -/
def State.reformIdle (s : State) : State :=
  (s.when (s.idleNow && !s.arb.idle) (State.raise (.flightIdle s.toll.clock.stamp))) |> fun t =>
    { t with arb := { t.arb with idle := s.idleNow } }

end Sys2Proof.Machine
end

