-- ==== Sys2Proof/Machine/Authority.lean ====
section
/-! DEFINITION. The Authority Controller (09): changes of mode, causes of SAFE_HOLD, changes of holder, and the tests that bar the return to SERVICE. -/

namespace Sys2Proof.Machine

/-! ## Changes of mode (R171, R174) -/

/-- Set the mode; the hold cause is present in SAFE_HOLD only (R174). -/
def State.setMode (m : Mode) (cause : Option HoldCause) (s : State) : State :=
  { s with auth := { s.auth with mode := m, holdCause := cause } }

/-- SAFE_HOLD is entered: every block acts on its own records, then SERVICE_MODE is raised, and what the blocks hand on follows behind it (R41, R53, R83, R121, R171). DESIGN CHOICE (log 20): the notices that the hand-overs bring stand behind SERVICE_MODE. -/
def State.holdBlocks (previous : Mode) (c : HoldCause) (s : State) : State :=
  (s.pcuHold.seqHold.blockNotService.deriveAspects).raise (.serviceMode .safeHold previous (.hold c))

/-- A cause of SAFE_HOLD other than a warm reset (R174). -/
def State.enterSafeHold (c : HoldCause) (s : State) : State :=
  if s.auth.mode = .safeHold then s
  else (s.setMode .safeHold (some c)).holdBlocks s.auth.mode c

/-- The mode becomes CONFIG (R171, R173). -/
def State.enterConfigMode (s : State) : State :=
  (((s.setMode .config none).blockNotService).deriveAspects).raise (.serviceMode .config s.auth.mode .enterConfig)

/-- The mode becomes SERVICE: every block takes the change up on its own records, then SERVICE_MODE is raised, and what the blocks hand on follows behind it (R123, R171). DESIGN CHOICE (log 20): the notice of a cascade formed again and still blocked (MOVE_BLOCKED) stands ahead of SERVICE_MODE, and those that the examinations and requests handed on bring (HIGH_WATER, MOVE_BEGUN, TRANSIT_STARTED and what follows them) stand behind it. -/
def State.enterService (cause : ModeCause) (s : State) : State :=
  ((((s.setMode .service none).pcuResume).seqResume).calling.deriveAspects).raise
    (.serviceMode .service s.auth.mode cause)

/-! ## Changes of holder (R178 to R183) -/

/-- The holder changes, or a pending claim ends, with its AUTHORITY notice (R178). -/
def State.setHolder (holder : Option Station) (cause : AuthorityCause) (outcome : Option ClaimOutcome) (s : State) :
    State :=
  State.raise (.authority holder s.auth.holder cause outcome)
    { s with auth := { s.auth with holder := holder, claim := none } }

/-- A command station is heard (R170). -/
def State.hears (s : State) (st : Station) : Bool := (s.ports.get st).heard

/-- The other command station. -/
def otherCommand : Station → Station
  | .console => .region
  | .region => .console
  | .toll => .toll

/-- The outcome of a pending claim, where there is one. -/
def State.claimOutcome (s : State) (o : ClaimOutcome) : Option ClaimOutcome := s.auth.claim.map (fun _ => o)

/-- The holder's own silence (R183). -/
def State.holderSilent (st : Station) (s : State) : State :=
  if s.hears (otherCommand st) then
    s.setHolder (some (otherCommand st)) .silence (s.claimOutcome .granted)
  else (s.setHolder none .silence (s.claimOutcome .lapsed)).enterSafeHold .authorityLost

/-- The expiry of a port's silence timer reaches the Authority Controller (R183). -/
def State.takeSilence (st : Station) (s : State) : State := if s.isHolder st then s.holderSilent st else s

/-- A pending claim lapses (R182). -/
def State.lapseClaim (s : State) : State :=
  State.raise (.authority s.auth.holder s.auth.holder .claim (some .lapsed))
    { s with auth := { s.auth with claim := none } }

/-! ## What bars the return to SERVICE (R172, R177, R186) -/

/-- The passages in use with a gate or sluice in FAULT (R177 test 4). -/
def State.faultBlockers (s : State) : List Blocker :=
  (s.passagesInUse.filter (fun k => (s.passage k).faulted)).map Blocker.faultAt

/-- The held chambers whose sensor is FAILED (R177 test 5). -/
def State.sensorBlockers (s : State) : List Blocker :=
  (s.chambersInUse.filter (fun c => (s.holderOf c).isSome && decide ((s.sensor c).status = .failed))).map
    Blocker.sensorFailedAt

/-- A failing completeness test, with the first item missing (R208). DESIGN CHOICE (log 46): STATUS too names the first item only. -/
def State.incompleteBlockers (s : State) : List Blocker := (s.missing.map Blocker.incomplete).toList

/-- A failing ESTOP test. -/
def State.estopBlockers (s : State) : List Blocker := if s.auth.estop then [.estop] else []

/-- A failing mode test. -/
def State.modeBlockers (s : State) (m : Mode) : List Blocker := if s.auth.mode = m then [] else [.mode]

/-- The tests of R177 that fail, in order. -/
def State.resumeBlockers (s : State) : List Blocker :=
  s.modeBlockers .safeHold ++ s.incompleteBlockers ++ s.estopBlockers ++ s.faultBlockers ++ s.sensorBlockers

/-- The tests of R172 that fail, in order. -/
def State.leaveBlockers (s : State) : List Blocker := s.modeBlockers .config ++ s.incompleteBlockers ++ s.estopBlockers

/-- The resume blockers of STATUS (R186). -/
def State.blockers (s : State) : List Blocker := if s.auth.mode = .config then s.leaveBlockers else s.resumeBlockers

/-- The status of a refusal for a failing test (R172, R177). -/
def Blocker.status : Blocker → Status
  | .mode => .wrongMode
  | .incomplete _ => .incomplete
  | .estop => .wrongState
  | .faultAt _ => .wrongState
  | .sensorFailedAt _ => .wrongState

/-- What a refusal for a failing test names (R172, R177, R208). DEDUCED (log 28): WRONG_MODE names nothing, since R172 and R177 let WRONG_STATE and INCOMPLETE alone name anything, and a refusal carries only the fields its rule names (R195). -/
def Blocker.detail (b : Blocker) : Detail :=
  match b with
  | .mode => .nothing
  | .incomplete _ => .blocked b
  | .estop => .blocked b
  | .faultAt _ => .blocked b
  | .sensorFailedAt _ => .blocked b

/-- The first condition of ENTER_CONFIG that fails: 1 the mode, 2 a transit record, 3 an operation slot, 4 a gate or sluice (R173). -/
def State.configBar (s : State) : Option (Nat × Detail) :=
  if s.auth.mode = .config then some (1, .nothing)
  else if !s.table.isEmpty then some (2, .test 2)
  else if s.passagesInUse.any (fun k => (s.passage k).slot.isSome) then some (3, .test 3)
  else if s.passagesInUse.any (fun k => !(s.passage k).fullyClosed) then some (4, .test 4)
  else none

end Sys2Proof.Machine
end

