-- ==== Sys2Proof/Machine/Handover.lean ====
section
/-! DEFINITION. The work that follows inside an event: hand-overs are taken first in, first out, then a calling event, until nothing is left; then aspects and the flight idle condition are formed (log 20, log 21, log 25). -/

namespace Sys2Proof.Machine

/-- A hand-over reaches the block it is for. -/
def State.take (t : Task) (s : State) : State :=
  match t with
  | .equalTrue k => s.takeEqual k
  | .examine k => s.examine k
  | .passageChanged k => s.takePassageChanged k
  | .arbitrate chambers => s.arbitrate chambers 3
  | .report r => s.takeReport r
  | .slotFree k => s.takeSlotFree k
  | .request id k purpose => s.takeRequestOp id k purpose
  | .gateEnd k => s.takeGateEnd k
  | .examineHead => s.takeExamineHead
  | .examineNext id => s.takeExamineNext id
  | .released c => s.takeReleased c
  | .accountEvent n => s.takeAccountEvent n

/-- Take what waits, first in, first out, and a calling event once nothing else waits. What the fuel does not reach stays in the state (log 20). -/
def State.drain : Nat → State → State
  | 0, s => s
  | fuel + 1, s =>
    match s.agenda with
    | t :: rest => State.drain fuel (State.take t { s with agenda := rest })
    | [] => if s.callDue then State.drain fuel (State.takeCalling { s with callDue := false }) else s

/-- How many hand-overs one event may take (log 20). -/
def drainFuel : Nat := 400

/-- All the work that follows in an event. -/
def State.settle (s : State) : State := ((s.drain drainFuel).deriveAspects).reformIdle

end Sys2Proof.Machine
end

