-- ==== Sys2Proof/Machine/Level.lean ====
section
/-! DEFINITION. The Level Monitor (01): polling, conversion, sensor status, windows, equality, and changes of its settings. -/

namespace Sys2Proof.Machine

/-! ## Polling (R1 to R3) -/

/-- The LM sends a poll and starts its timeout (R3). -/
def LevelMonitor.send (p : Nat) (lm : LevelMonitor) : LevelMonitor :=
  { lm with poll := some { pound := p, left := Config.pollTimeout } }

/-- The last pound polled in a round (R1). -/
def LevelMonitor.lastPound (lm : LevelMonitor) : Nat := lm.polledN.getD 3 + 1

/-- A round ends; a held tick starts the next one at once (R2). -/
def LevelMonitor.endRound (lm : LevelMonitor) : LevelMonitor :=
  if lm.tickHeld then LevelMonitor.send 0 { lm with tickHeld := false } else { lm with poll := none }

/-- The next poll of the round, after the poll of pound p has ended (R2). -/
def LevelMonitor.nextPoll (p : Nat) (lm : LevelMonitor) : LevelMonitor :=
  if p < lm.lastPound then lm.send (p + 1) else lm.endRound

/-- A scan tick is taken: it restarts the timer, and starts a round or is held (R2). -/
def LevelMonitor.tick (interval : Nat) (lm : LevelMonitor) : LevelMonitor :=
  match lm.poll with
  | some _ => { lm with scanTimer := some interval, tickHeld := true }
  | none => LevelMonitor.send 0 { lm with scanTimer := some interval }

/-- The records are set afresh for a new N (R16). -/
def LevelMonitor.reform (n : Option Nat) (lm : LevelMonitor) : LevelMonitor :=
  { lm with sensors := lm.sensors.map Sensor.afresh, still := Quad.all 0, polledN := n, reformDue := false }

/-! ## Conversion (R4) -/

/-- The level of a raw code before it is limited (R4). -/
def rawLevel (zero : Int) (span raw : Nat) : Int := zero + (((raw * span + 2048) / 4096 : Nat) : Int)

/-- The level of a raw code, limited to 0..20000 (R4). -/
def convertLevel (zero : Int) (span raw : Nat) : Nat := (max 0 (min 20000 (rawLevel zero span raw))).toNat

/-- The sample is clamped: below 0, above 20000, or over-range (R4). -/
def convertClamped (zero : Int) (span raw : Nat) : Bool :=
  decide (rawLevel zero span raw < 0) || decide (20000 < rawLevel zero span raw) || decide (raw = 4095)

/-! ## Windows (R8, R9) -/

/-- A sample joins an accumulator (R8). -/
def Accum.join (level : Nat) (clamped : Bool) (a : Accum) : Accum :=
  { count := a.count + 1, sum := a.sum + level, least := some (min level (a.least.getD level)),
    greatest := some (max level (a.greatest.getD level)), clamped := a.clamped || clamped }

/-- The record of a closed window (R9). -/
def Accum.close (w : Nat) (previous : Nat) (a : Accum) : LevelRecord :=
  { mean := (a.sum + w / 2) / w, min := a.least.getD 0, max := a.greatest.getD 0,
    ripple := a.greatest.getD 0 - a.least.getD 0, clamped := a.clamped, stale := false,
    count := (previous + 1) % 65536 }

/-- The passages in use beside a pound (R7, R10). -/
def State.passagesBeside (s : State) (p : Nat) : List Nat :=
  (if 1 ≤ p then [p - 1] else []) ++ (if p ≤ s.count then [p] else [])

/-- Re-evaluate the still counter of a passage (R10). -/
def LevelMonitor.evaluate (lm : LevelMonitor) (k : Nat) : LevelMonitor :=
  { lm with still := lm.still.set k (if lm.stillHolds k then min 15 (lm.still.get k + 1) else 0) }

/-- Change a sensor record. -/
def LevelMonitor.setSensor (p : Nat) (f : Sensor → Sensor) (lm : LevelMonitor) : LevelMonitor :=
  { lm with sensors := lm.sensors.set p (f (lm.sensors.get p)) }

/-- The passages of a list on which EQUAL has become true (R11). -/
def equalRisen (before after : LevelMonitor) (passages : List Nat) : List Nat :=
  passages.filter (fun k => !before.equal k && after.equal k)

/-- A window closes: the record is replaced and the passages beside it are evaluated (R9, R10). -/
def LevelMonitor.closeWindow (p : Nat) (beside : List Nat) (lm : LevelMonitor) : LevelMonitor :=
  beside.foldl LevelMonitor.evaluate
    (lm.setSensor p (fun x => { x with level := x.accum.close lm.w x.level.count, accum := Accum.empty }))

/-- What follows a window close: LEVEL_WINDOW, the hand-over of EQUAL, and the examinations (R9, R11, R31). -/
def State.windowClosed (p : Nat) (s : State) : State :=
  let beside := s.passagesBeside p
  let lm := s.lm.closeWindow p beside
  ((State.raise (.levelWindow p (lm.sensors.get p).level (beside.map (fun k => (k, lm.equal k)))) { s with lm := lm }).pushAll
    ((equalRisen s.lm lm beside).map Task.equalTrue)).pushAll (beside.map Task.examine)

/-- A good sample of a GOOD sensor joins its window, which may close (R8). -/
def State.accumulate (p raw : Nat) (s : State) : State :=
  let t := { s with lm := s.lm.setSensor p (fun x =>
    { x with accum := x.accum.join (convertLevel x.zero x.span raw) (convertClamped x.zero x.span raw) }) }
  t.when (decide (t.lm.w ≤ (t.sensor p).accum.count)) (State.windowClosed p)

/-! ## Sensor status (R5 to R7) -/

/-- The good-poll runs (R6). -/
def Sensor.countGood (x : Sensor) : Sensor := { x with badRun := 0, goodRun := min 8 (x.goodRun + 1) }

/-- The bad-poll runs (R5). -/
def Sensor.countBad (x : Sensor) : Sensor := { x with goodRun := 0, badRun := min 3 (x.badRun + 1) }

/-- A FAILED sensor becomes GOOD (R6); the operations beside it are examined (R31). -/
def State.sensorRecovers (p : Nat) (s : State) : State :=
  (State.raise (.sensorGood p) { s with lm := s.lm.setSensor p (fun x => { x with status := .good }) }).pushAll
    ((s.passagesBeside p).map Task.examine)

/-- A poll ends good (R6). -/
def State.goodPoll (p raw : Nat) (s : State) : State :=
  let t := { s with lm := s.lm.setSensor p Sensor.countGood }
  match (s.sensor p).status with
  | .good => t.accumulate p raw
  | .failed => t.when (decide ((t.sensor p).goodRun = 8)) (State.sensorRecovers p)

/-- What a sensor record becomes at a failure (R7 steps 1 and 2). -/
def Sensor.fail (x : Sensor) : Sensor :=
  { x with status := .failed, accum := Accum.empty, level := { x.level with stale := true } }

/-- A sensor becomes FAILED (R7), and the operations beside it act on it (R35). -/
def State.sensorFails (p : Nat) (cause : BadPollCause) (s : State) : State :=
  let beside := s.passagesBeside p
  (State.raise (.sensorFailed p cause)
    { s with lm := { s.lm.setSensor p Sensor.fail with
        still := beside.foldl (fun t k => t.set k 0) s.lm.still } }).each beside State.sensorStall

/-- A poll ends bad (R5). -/
def State.badPoll (p : Nat) (cause : BadPollCause) (s : State) : State :=
  let t := { s with lm := s.lm.setSensor p Sensor.countBad }
  t.when (decide ((s.sensor p).status = .good) && decide ((t.sensor p).badRun = 3)) (State.sensorFails p cause)

/-! ## The end of a poll (R3, R16) -/

/-- The poll of pound p has ended: its result is taken, or discarded where N has changed, and polling goes on (R2, R16). -/
def State.pollEnded (p : Nat) (result : State → State) (s : State) : State :=
  if s.lm.reformDue then { s with lm := (s.lm.reform s.flight.n).endRound }
  else (result s) |> fun t => { t with lm := t.lm.nextPoll p }

/-! ## Changes of settings (R15, R16) -/

/-- The calibration of a pound from its item; an absent item changes nothing (R206). -/
def Sensor.calibrate (item : Option Calibration) (x : Sensor) : Sensor :=
  match item with
  | none => x
  | some c =>
    if x.zero = c.zero ∧ x.span = c.span then { x with calibrated := true }
    else { x with zero := c.zero, span := c.span, calibrated := true, accum := Accum.empty,
                  level := { x.level with stale := true } }

/-- An item changes the calibration of a pound (R15). -/
def Sensor.recalibrated (item : Option Calibration) (x : Sensor) : Bool :=
  match item with
  | none => false
  | some c => !(decide (x.zero = c.zero) && decide (x.span = c.span))

/-- The sensors after the items of a SET_SENSOR (R206). -/
def calibrateAll (items : Quin (Option Calibration)) (x : Quin Sensor) : Quin Sensor :=
  { zero := x.zero.calibrate items.zero, one := x.one.calibrate items.one, two := x.two.calibrate items.two,
    three := x.three.calibrate items.three, four := x.four.calibrate items.four }

/-- The passages whose still counter a SET_SENSOR sets to 0 (R15). -/
def LevelMonitor.zeroes (f : SensorFields) (lm : LevelMonitor) (k : Nat) : Bool :=
  !decide (lm.w = f.w) || !decide (lm.eqTol = f.eqTol) || !decide (lm.rippleLim = f.rippleLim)
    || (lm.sensors.get k).recalibrated (f.items.get k) || (lm.sensors.get (k + 1)).recalibrated (f.items.get (k + 1))

/-- One still counter after a SET_SENSOR (R15). -/
def LevelMonitor.stillAfter (f : SensorFields) (lm : LevelMonitor) (k : Nat) : Nat :=
  if lm.zeroes f k then 0 else lm.still.get k

/-- A SET_SENSOR with its settings already clamped is applied to the LM (R15). -/
def LevelMonitor.applySensor (f : SensorFields) (lm : LevelMonitor) : LevelMonitor :=
  let cal := calibrateAll f.items lm.sensors
  { lm with
    sensors := if lm.w = f.w then cal else cal.map (fun x => { x with accum := Accum.empty })
    still := { zero := lm.stillAfter f 0, one := lm.stillAfter f 1, two := lm.stillAfter f 2, three := lm.stillAfter f 3 }
    w := f.w, eqTol := f.eqTol, rippleLim := f.rippleLim, stillCount := f.stillCount }

/-- An accepted SET_FLIGHT that sets or changes N (R16). -/
def LevelMonitor.renumber (n : Option Nat) (lm : LevelMonitor) : LevelMonitor :=
  match lm.poll with
  | some _ => { lm with reformDue := true }
  | none => lm.reform n

/-- The Level Monitor at warm reset (R19). DEDUCED (log 49): where a new N still waits for the end of the poll in flight, the reset ends that poll and so sets the records afresh as R16 has it. -/
def LevelMonitor.warm (interval : Nat) (n : Option Nat) (lm : LevelMonitor) : LevelMonitor :=
  let base := if lm.reformDue then lm.reform n else lm
  { base with sensors := base.sensors.map Sensor.warm, still := Quad.all 0, poll := none,
              scanTimer := some interval, tickHeld := false, polledN := n, reformDue := false }

end Sys2Proof.Machine
end

