-- ==== Sys2Proof/Machine/Fields.lean ====
section
/-! DEFINITION. What a field input or a timer of the PCU does to its passage: gate limits, gate travel, sluice feedback, sluice move, ramp, equalise limit (02). -/

namespace Sys2Proof.Machine

/-! ## Inputs -/

/-- The limit inputs of a gate as they stand. -/
def State.setLimits (k : Nat) (x : LimitPins) (s : State) : State :=
  { s with pins := { s.pins with limits := s.pins.limits.set k x } }

/-- The sluice feedback of a passage as it stands. -/
def State.setFeedback (k position : Nat) (s : State) : State :=
  { s with pins := { s.pins with feedback := s.pins.feedback.set k position } }

/-- The lit inputs of one head. -/
def LampPins.setSide (side : Side) (red green : Bool) (x : LampPins) : LampPins :=
  match side with
  | .above => { x with aboveRed := red, aboveGreen := green }
  | .below => { x with belowRed := red, belowGreen := green }

/-- The lit inputs of a head as they stand. -/
def State.setLit (k : Nat) (side : Side) (red green : Bool) (s : State) : State :=
  { s with pins := { s.pins with lamps := s.pins.lamps.set k ((s.pins.lamps.get k).setSide side red green) } }

/-! ## Gates (R22, R23) -/

/-- A gate goes to FAULT, is reported, and brings the flight to SAFE_HOLD (R22, R23). DEDUCED (log 52): the GATE_FAULT of a lost limit carries the fields of R23, with the position that the change brought. -/
def State.gateFails (k : Nat) (cause : GateFault) (s : State) : State :=
  (((s.setGate k (fun g => { g with state := .fault, cause := some cause, drive := .off, timer := none })).push
    (.passageChanged k)).raise (.gateFault k cause (s.passage k).gate.position)).enterSafeHold (.gateFault k)

/-- A change of a gate's position acts on its state (R22). -/
def State.gateMoved (k : Nat) (position : GatePosition) (s : State) : State :=
  let t := s.setGate k (fun g => { g with position := position })
  match (s.passage k).gate.state with
  | .opening => t.when (decide (position = .atOpen)) (State.endTravel k)
  | .closing => t.when (decide (position = .atClosed)) (State.endTravel k)
  | .stopped => t.when (decide (position ≠ .between)) (State.gateReached k position.endState)
  | .closed => t.when (decide (position ≠ .atClosed)) (State.gateFails k .limitLost)
  | .opened => t.when (decide (position ≠ .atOpen)) (State.gateFails k .limitLost)
  | .fault => t

/-- A travel timer expires (R23). -/
def State.travelExpired (k : Nat) (s : State) : State :=
  if (s.passage k).gate.state.travelling then s.gateFails k .travelTimeout
  else s.setGate k (fun g => { g with timer := none })

/-! ## Sluices (R25 to R27) -/

/-- A sluice goes to FAULT, is reported, and brings the flight to SAFE_HOLD (R27). DESIGN CHOICE (log 52): SLUICE_FAULT carries the fault cause too, which R27 does not name; DEDUCED: that of an uncommanded move carries no commanded position and the position that the feedback brought. -/
def State.sluiceFails (k : Nat) (cause : SluiceFault) (s : State) : State :=
  (((s.setSluice k (fun x =>
      { x with state := .fault, cause := some cause, commanded := none, moveTimer := none, driven := false })).push
    (.passageChanged k)).raise
      (.sluiceFault k cause (s.passage k).sluice.commanded (s.passage k).sluice.position)).enterSafeHold (.sluiceFault k)

/-- A feedback is taken (R25 to R27). A code above 8 is no position commanded and none that stood before: it completes no move, and is an uncommanded move of a sluice at rest; the position it leaves in the record is free (log 16). -/
def State.feedbackTaken (k code : Nat) (s : State) : State :=
  let x := (s.passage k).sluice
  let t := s.setSluice k (fun y => { y with position := feedbackPosition code })
  match x.state with
  | .moving => t.when (decide (x.commanded = some code)) (State.finishMove k)
  | .fault => t
  | .shut => t.when (decide (x.position ≠ code)) (State.sluiceFails k .uncommanded)
  | .set => t.when (decide (x.position ≠ code)) (State.sluiceFails k .uncommanded)

/-- A move timer expires (R27). -/
def State.moveExpired (k : Nat) (s : State) : State :=
  if (s.passage k).sluice.state = .moving then s.sluiceFails k .moveTimeout
  else s.setSluice k (fun x => { x with moveTimer := none })

/-- A ramp timer expires: the next step, with the operation still in RAMPING (R25, R33). -/
def State.rampExpired (k : Nat) (s : State) : State :=
  (s.setSluice k (fun x => { x with rampTimer := none })).when
    (decide ((s.passage k).slot.map Op.phase = some .ramping)) (State.stepUp k)

/-- An equalise timer expires (R34). -/
def State.equaliseExpired (k : Nat) (s : State) : State :=
  match (s.passage k).slot with
  | none => s
  | some o =>
    let t := s.setOp k (fun y => { y with timer := none })
    if o.phase = .ramping ∨ o.phase = .flowing then
      ((t.setOp k (fun y => { y with phase := .stalled, stall := some .timeout })).setSluice k
        (fun x => { x with rampTimer := none })).raise
          (.levelTimeout k o.purpose o.transit (s.passage k).sluice.position)
    else t

end Sys2Proof.Machine
end

