-- ==== Sys2Proof/Machine/Links.lean ====
section
/-! DEFINITION. The Station Link Unit (10): good frames, the tests of a request, replies and busy answers, the receiver. -/

namespace Sys2Proof.Machine

/-! ## The end of an event -/

/-- All the work that follows in an event, then the transmitters (R197). -/
def State.finish (s : State) : State := s.settle.pump

/-- An event that the part takes unless the RESET input is held asserted (R185). -/
def State.event (f : State → State) (s : State) : State := if s.pins.reset then s else (f s).finish

/-! ## Good frames (R191) -/

/-- A good frame restarts the silence timer, sets heard, and leaves the receiver in HUNT (R189, R191). -/
def Port.goodFrame (silence : Nat) (p : Port) : Port :=
  { p with silence := seconds silence, heard := true, assembled := [], gap := none }

/-- A good frame arrives on a port (R191). -/
def State.goodFrame (st : Station) (s : State) : State := s.setPort st (Port.goodFrame s.timing.silence)

/-! ## Replies (R195, R196) -/

/-- A refusal that carries nothing. -/
def refuse (status : Status) : Answer := { status := status, body := .empty }

/-- A refusal that names something. -/
def refuseWith (status : Status) (d : Detail) : Answer := { status := status, body := .refused d }

/-- An accepted answer. -/
def accept (body : Body) : Answer := { status := .ok, body := body }

/-- The frames of a reply. The entries of TAKE_CHARGES go four to a part, every other result fits one (R195, R202; log 12). -/
def replyFrames (tag kind : Nat) (a : Answer) : List OutFrame :=
  match a.body with
  | .taken entries held nextSeq =>
    if entries.length ≤ 4 then [.reply tag kind a.status 0 1 a.body]
    else [.reply tag kind a.status 0 2 (.taken (entries.take 4) held nextSeq),
          .reply tag kind a.status 1 2 (.takenMore (entries.drop 4))]
  | _ => [.reply tag kind a.status 0 1 a.body]

/-- The reply becomes the reply in progress (R195). -/
def State.respond (st : Station) (tag kind : Nat) (a : Answer) (s : State) : State :=
  s.setPort st (fun p => { p with reply := some { frames := replyFrames tag kind a, sent := 0 } })

/-- A request on a port that is REPLYING: one busy answer, and nothing for a later request (R196). -/
def Port.answerBusy (tag kind : Nat) (p : Port) : Port :=
  match p.busy with
  | none => { p with busy := some (tag, kind) }
  | some _ => p

/-! ## The tests of a request (R193) -/

/-- A role may send a kind at this event (R193 tests 2 and 3). -/
def State.admits (s : State) (kind : Nat) (st : Station) : Bool :=
  match right kind st with
  | .yes => true
  | .holder => s.isHolder st
  | .no => false

/-- A reply of the Authority Controller: the mode and the holder after the event, with the time left of a claim in a PENDING reply and what a refusal names (R180, R186). DESIGN CHOICE (log 45): the reply to a claim just lodged carries the time left as well, though R180 names it only for a claim already present; and the time left is in milliseconds, as the handover timer holds it. -/
def State.authorityAnswer (s : State) (status : Status) (d : Detail) : Answer :=
  { status := status,
    body := .authority s.auth.mode s.auth.holder (if status = .pending then s.auth.claim else none) d }

/-- The answer to a request that is turned away before its block: a request of the Authority Controller (kinds 19 to 26) is told the mode and the holder like any other of its replies (R186), another one nothing (R193). -/
def State.turnAway (s : State) (kind : Nat) (status : Status) : Answer :=
  if within 19 26 kind then s.authorityAnswer status .nothing else refuse status

/-- A request on an IDLE port: its tests, then its block (R193). -/
def State.dispatch (h : Hdr) (kind : Nat) (block : State → State × Answer) (s : State) : State × Answer :=
  if !(h.lengthOk && within 1 40 kind) then (s, s.turnAway kind .badRequest)
  else if !s.admits kind h.port then (s, s.turnAway kind .notAuthorised)
  else block s

/-- The block's work and the reply that follows it. -/
def State.reply (h : Hdr) (kind : Nat) (r : State × Answer) : State := r.1.respond h.port h.tag kind r.2

/-- A request frame arrives good (R191, R193, R195, R196). While RESET is held it is lost (R185). -/
def State.takeRequest (h : Hdr) (kind : Nat) (block : State → State × Answer) (s : State) : State :=
  if s.pins.reset then s
  else if (s.ports.get h.port).state = .replying then
    ((s.goodFrame h.port).setPort h.port (Port.answerBusy h.tag kind)).pump
  else (State.reply h kind ((s.goodFrame h.port).dispatch h kind block)).pump

/-- An accepted request: what follows in the event, then the reply read from the state that results. -/
def accepted (s : State) (a : State → Answer) : State × Answer :=
  let t := s.settle
  (t, a t)

/-! ## The receiver (R189, R190) -/

/-- The receiver hunts. -/
def Port.hunt (p : Port) : Port := { p with assembled := [], gap := none }

/-- A byte joins the frame being assembled (R189). -/
def Port.join (b : Byte) (p : Port) : Port := { p with assembled := p.assembled ++ [b], gap := some Config.gapTime }

/-- The frame being assembled is complete (R189). -/
def frameComplete (l : List Byte) : Bool := decide (5 ≤ l.length) && decide (l.length = 7 + assembledLength l)

/-- A complete frame's check agrees (R189, R190). -/
def checkAgrees (l : List Byte) : Bool :=
  decide (leValue (l.drop (5 + assembledLength l)) = checkOf ((l.drop 1).take (4 + assembledLength l)))

/-- The frame being assembled is discarded at this byte (R190). -/
def frameBad (code : Nat) (l : List Byte) : Bool :=
  (decide (l.length = 2) && !decide (l[1]? = some (byteOf code)))
    || (decide (l.length = 5) && decide (Config.maxPayload < assembledLength l))
    || (frameComplete l && !checkAgrees l)

/-- A byte is taken by the receiver of a port: the port, and the good frame that the byte completes (R189, R190). -/
def Port.receive (code : Nat) (b : Byte) (p : Port) : Port × Option (List Byte) :=
  if p.assembled.isEmpty ∧ b ≠ syncByte then (p, none)
  else if frameBad code (p.assembled ++ [b]) then (p.hunt, none)
  else if frameComplete (p.assembled ++ [b]) then (p.hunt, some (p.assembled ++ [b]))
  else (p.join b, none)

/-- The tag, kind and payload of a good frame (R189). -/
def frameFields (l : List Byte) : Nat × Nat × List Byte :=
  (((l[2]?).map BitVec.toNat).getD 0, ((l[3]?).map BitVec.toNat).getD 0, (l.drop 5).take (assembledLength l))

/-- The request that a payload spells, if its length is one that the kind allows. CONFIRM's layout is the manual's (10 section 10.5), the others' is free (log 9). -/
def readRequest (kind : Nat) (payload : List Byte) : Option Request :=
  if kind = 13 then
    match payload with
    | [id, code] => some (.confirm id.toNat (confirmOfCode code.toNat))
    | _ => none
  else (Config.readPayload kind payload).filter (fun r => decide (r.code = kind))

/-! ## The transmitter's frame ends (R195 to R197) -/

/-- The next part of a reply, if there is one (R195). -/
def ReplyProgress.next (r : ReplyProgress) : Option ReplyProgress :=
  if r.sent + 1 < r.frames.length then some { r with sent := r.sent + 1 } else none

/-- The frame on the line has left it (R195 to R197). -/
def Port.frameEnds (p : Port) : Port :=
  match p.line with
  | some (.reply _ _ _ _ _ _) => { p with line := none, sent := 0, reply := p.reply.bind ReplyProgress.next }
  | some (.busy _ _) => { p with line := none, sent := 0, busy := none }
  | some (.notice _) => { p with line := none, sent := 0 }
  | none => p

/-- The frame on the line is the OK reply to a RESTART (R185). -/
def restartReply : Option OutFrame → Bool
  | some (.reply _ kind status _ _ _) => decide (kind = 26) && decide (status = .ok)
  | _ => false

end Sys2Proof.Machine
end

