-- ==== Sys2Proof/Machine/Reports.lean ====
section
/-! DEFINITION. What the reads show: the parts each block gives to STATUS and to the READ replies (R17, R49, R59, R79, R100, R126, R146, R168, R186, R201). -/

namespace Sys2Proof.Machine

/-! ## Levels (R17) -/

/-- The pounds that the LM reports: those in use, and those of the former N until the records are set afresh (R16, R17). -/
def LevelMonitor.reported (lm : LevelMonitor) : List Nat := List.range (lm.polledN.getD 3 + 2)

/-- The passages that the LM reports; none while N is unset (R16, R17). -/
def LevelMonitor.reportedPassages (lm : LevelMonitor) : List Nat :=
  match lm.polledN with
  | none => []
  | some n => List.range (n + 1)

/-- One pound of READ_LEVELS (R17). -/
def LevelMonitor.item (lm : LevelMonitor) (p : Nat) : LevelItem :=
  { status := (lm.sensors.get p).status, badRun := (lm.sensors.get p).badRun, goodRun := (lm.sensors.get p).goodRun,
    level := (lm.sensors.get p).level }

/-! ## Passages (R49, R59) -/

/-- A head in READ_PASSAGE (R59). -/
def Head.item (h : Head) : HeadItem :=
  { output := h.output, red := h.red, green := h.green, agrees := h.agrees, fault := h.fault, faultCount := h.faultCount }

/-- A slot in READ_PASSAGE; the time left is shown in RAMPING and FLOWING (R49). DESIGN CHOICE (log 45): it is the equalise timer as it stands, in milliseconds; R49 gives the field no unit. -/
def Op.item (o : Op) : SlotItem :=
  { purpose := o.purpose, transit := o.transit, phase := o.phase, stall := o.stall, target := o.target, hStar := o.hStar,
    left := if o.phase = .ramping ∨ o.phase = .flowing then o.timer else none, startReading := o.startReading,
    endReading := o.endReading, predicted := o.predicted }

/-- The chamber count whose pounds and passages the LM reports: the former N until the records are set afresh (R16). -/
def LevelMonitor.reportedCount (lm : LevelMonitor) : Nat := lm.polledN.getD 3

/-- The READ_PASSAGE reply (R17, R49, R59), in the flight that the LM reports (R16). -/
def State.passageReport (s : State) (k : Nat) : PassageReport :=
  let p := s.passage k
  { still := s.lm.still.get k, equal := s.equal k, prediction := s.predictIn s.lm.reportedCount k, gateState := p.gate.state,
    gatePosition := p.gate.position, gateCause := p.gate.cause, lastTravel := p.gate.lastTravel,
    openPending := p.gate.pendingOpen.isSome, sluicePosition := p.sluice.position, sluiceState := p.sluice.state,
    sluiceCommanded := p.sluice.commanded, sluiceCause := p.sluice.cause, slot := p.slot.map Op.item,
    claims := (chambersBeside s.lm.reportedCount k).map (fun c => (c, s.pcu.claims.get c)), permit := p.permit,
    above := (s.lamps.get k).above.item, below := (s.lamps.get k).below.item }

/-! ## Vessels (R79) -/

/-- The berth position of a called vessel; absent for another (R79). -/
def State.berthPosition (s : State) (v : Vessel) : Option Nat :=
  match v.state with
  | .called id _ => (s.transit id).map (fun t => positionIn v.mark t.marks)
  | .waiting => none
  | .exited _ _ => none

/-- The READ_VESSEL reply (R79). -/
def State.vesselReport (s : State) (v : Vessel) : VesselReport :=
  { vessel := v, queuePosition := if v.state = .waiting then some (s.queuePosition v) else none,
    berthPosition := s.berthPosition v,
    credit := if v.state = .waiting then (if s.creditHeld v then .held else .notHeld) else .notApplicable }

/-! ## Transits (R126) -/

/-- The queue position of a transit, 1..4; absent for one that is not queued (R100). -/
def State.transitPosition (s : State) (t : Transit) : Option Nat :=
  if t.state = .queued then some (positionIn t.id s.arb.queue) else none

/-- The operation of the current move that has not reached EQUALISED, if there is one (R126). -/
def State.openOperation (s : State) (t : Transit) (m : Move) : Option WaitCondition :=
  (t.ops.filter (fun e => !decide (e.purpose = .move) || decide (e.passage = m.passage))).findSome? (fun e =>
    match (s.passage e.passage).slot with
    | some o =>
      if o.transit = some t.id ∧ o.phase ≠ .equalised ∧ o.phase ≠ .shutting then
        some (.operation e.passage o.phase o.stall)
      else none
    | none => none)

/-- What the gate or the confirmation of a move waits for (R126). DESIGN CHOICE (log 45): the time remaining of a confirmation is the overdue timer as it stands, in milliseconds. -/
def State.gateWait (s : State) (t : Transit) (m : Move) : WaitCondition :=
  let g := (s.passage m.passage).gate
  match m.phase with
  | .opened =>
    if g.pendingOpen.isSome then .gatePending else if g.state.travelling then .gateTravel else .none
  | .close => if g.state.travelling then .gateTravel else .none
  | .await => .confirmation m.kind.awaits t.overdue
  | .prep => .none
  | .equalise => .none

/-- What a current move waits for (R126). -/
def State.moveWait (s : State) (t : Transit) (m : Move) : WaitCondition :=
  match m.blockedAt, m.owed with
  | some c, _ => .cascadeBlocked c
  | none, some k => .slotBusy k
  | none, none =>
    match s.openOperation t m with
    | some w => w
    | none => s.gateWait t m

/-- A queue head cannot enter: the flight direction is opposite, or its entry chamber is held (R126). -/
def State.entryBlocked (s : State) (t : Transit) : Bool :=
  decide (s.arb.queue.head? = some t.id)
    && (decide (s.flightDir = some (opposite t.dir)) || (s.holderOf (s.entryChamber t.dir)).isSome)

/-- The destination of the next shift of a transit is held (R126). -/
def State.destinationHeld (s : State) (t : Transit) : Bool :=
  match t.held with
  | c :: _ =>
    decide ((s.nextMove t.dir c).kind = .shift) && (s.holderOf (s.nextMove t.dir c).destination).isSome
  | [] => false

/-- The wait condition (R126). -/
def State.waitCondition (s : State) (t : Transit) : WaitCondition :=
  if s.auth.mode = .safeHold then .hold
  else
    match t.state, t.move with
    | .queued, _ => if s.entryBlocked t then .entryBlocked else .none
    | .waitingNext, _ => if s.destinationHeld t then .destinationHeld else .none
    | _, some m => s.moveWait t m
    | _, none => .none

/-- The READ_TRANSIT reply (R126). -/
def State.transitReport (s : State) (t : Transit) : TransitReport :=
  { record := t, queuePosition := s.transitPosition t, wait := s.waitCondition t }

/-! ## Accounts (R168) -/

/-- The READ_ACCOUNT reply; limit and headroom do not apply to account 0 (R168). -/
def Account.report (a : Account) : AccountReport :=
  { number := a.number, opening := a.opening, balance := a.balance,
    limit := if a.number = 0 then none else some a.limit, hold := a.hold, commitment := a.commitment,
    status := a.status,
    headroom := if a.number = 0 then none else some (a.balance - (a.commitment : Int) + (a.limit : Int)) }

/-- The account with the least number above a given one (R168). -/
def Accounts.above (a : Accounts) (n : Nat) : Option Account := a.table.find? (fun x => decide (n < x.number))

/-! ## STATUS (R201) -/

/-- A transit of the queue in STATUS (R100). -/
def Transit.item (t : Transit) : QueueItem :=
  { id := t.id, dir := t.dir, origin := t.origin, berths := t.berths.length }

/-- A quote slot in STATUS: its mark where not FREE, and whether it is RESOLVED (R168). -/
def QuoteSlot.item : QuoteSlot → Option Mark × Bool
  | .free => (none, false)
  | .pending m => (some m, false)
  | .resolved m _ _ => (some m, true)

/-- The STATUS reply for a station (R201). DESIGN CHOICE (log 50): from a SET_FLIGHT that sets or changes N until the poll in flight ends, the sensors and the EQUAL status it lists are those of the former N, as READ_LEVELS and READ_PASSAGE report them (R16), and no EQUAL status is listed where N was unset; R17 lists EQUAL "once N is set", and R16 names the two reads only. -/
def State.statusReport (s : State) (st : Station) : StatusReport :=
  { sensors := s.lm.reported.map (fun p => (s.sensor p).status)
    equal := s.lm.reportedPassages.map s.equal
    upSuspended := s.suspended .up
    downSuspended := s.suspended .down
    entries := s.reg.entries.length
    upLength := s.reg.up.length
    downLength := s.reg.down.length
    autoOn := s.arb.autoOn
    lastDir := s.arb.lastDir
    runCount := s.arb.runCount
    reason := s.arb.reason
    capacity := s.capacity
    queue := (s.arb.queue.filterMap s.transit).map Transit.item
    idle := s.arb.idle
    flightDir := s.flightDir
    holders := s.chambersInUse.map s.holderOf
    records := s.table.length
    currentGen := s.toll.current.number
    previousGen := s.toll.previous.number
    previousRefs := s.previousRefs
    clock := s.toll.clock.stamp
    nightNow := s.toll.nightNow
    accounts := s.acc.table.length
    journalHeld := s.acc.journal.length
    journalFree := s.acc.free
    journalReserved := s.acc.reserved
    journalMargin := s.acc.margin
    nextSeq := s.acc.nextSeq
    slots := s.acc.slots.toList.map QuoteSlot.item
    mode := s.auth.mode
    holdCause := s.auth.holdCause
    holder := s.auth.holder
    consoleHeard := s.hears .console
    regionHeard := s.hears .region
    claimLeft := s.auth.claim
    estop := s.auth.estop
    blockers := s.blockers
    lost := (s.ports.get st).lost
    queued := (s.ports.get st).queue.length
    subs := (s.ports.get st).subs
    heard := [s.hears .console, s.hears .region, s.hears .toll] }

end Sys2Proof.Machine
end

