-- ==== Sys2Proof/Machine/Reset.lean ====
section
/-! DEFINITION. Power-on, the RESET input and the warm reset (R19, R51, R60, R80, R101, R128, R147, R169, R185, R203, R209). -/

namespace Sys2Proof.Machine

/-- A head at warm reset: its fault CLEAR and its agreement timer restarted for the output now commanded, the count kept (R60; log 34). -/
def Head.warm (a : Aspect) (red green : Bool) (h : Head) : Head := Head.restart a { h with red := red, green := green }

/-- The heads of a passage at warm reset (R60). -/
def State.warmHeads (s : State) (k : Nat) : HeadPair :=
  let a := if s.inUse k then Aspect.redFlash else Aspect.dark
  let x := s.pins.lamps.get k
  { above := Head.warm a x.aboveRed x.aboveGreen (s.lamps.get k).above,
    below := Head.warm a x.belowRed x.belowGreen (s.lamps.get k).below }

/-- An account at warm reset (R169). -/
def Account.warm (a : Account) : Account := { a with commitment := 0 }

/-- The Toll Accounts at warm reset (R169). -/
def Accounts.warm (a : Accounts) : Accounts :=
  { a with counter := a.counter.warm, table := a.table.map Account.warm, reserved := 0, slots := Quad.all .free }

/-- The Authority Controller at warm reset (R185). -/
def Authority.warm (estop : Bool) : Authority :=
  { mode := .safeHold, holder := some .console, claim := none, holdCause := some .warmReset, estop := estop }

/-- Every block at warm reset, before the two notices (R185). -/
def State.warmBlocks (s : State) : State :=
  { s with
    lm := s.lm.warm s.timing.scan s.flight.n
    pcu := Pcu.fromPins s.timing s.pins
    lamps := { zero := s.warmHeads 0, one := s.warmHeads 1, two := s.warmHeads 2, three := s.warmHeads 3 }
    reg := Register.powerOn
    arb := Arbiter.powerOn
    table := []
    acc := s.acc.warm
    auth := Authority.warm s.pins.estop
    ports := Ports.fresh s.timing.silence
    agenda := []
    callDue := false }

/-- The warm reset (R185). -/
def State.warmReset (s : State) : State :=
  (s.warmBlocks.raiseAll
    [.serviceMode .safeHold s.auth.mode (.hold .warmReset), .authority (some .console) s.auth.holder .reset none]).pump

/-- Every block at power-on, read from the inputs as they stand (R209). -/
def State.powerOnBlocks (s : State) : State :=
  { State.reset with
    pins := s.pins
    pcu := Pcu.fromPins Timing.powerOn s.pins
    lamps := s.pins.lamps.map HeadPair.powerOn
    auth := Authority.powerOn s.pins.estop
    pending := s.pending }

/-- The power-on sequence (R209); an ESTOP that reads asserted is taken at its end (R187). -/
def State.supplied (s : State) : State := ((s.powerOnBlocks).when s.pins.estop (State.enterSafeHold .estop)).finish

/-- A gate and sluice whose drives are dropped (R185). -/
def Passage.dropDrives (p : Passage) : Passage :=
  { p with gate := { p.gate with drive := .off }, sluice := { p.sluice with driven := false } }

/-- The heads of a passage while RESET is held: those in use are driven RED_FLASH (R185). -/
def State.flashHeads (s : State) (k : Nat) : HeadPair :=
  if s.inUse k then HeadPair.map (Head.command .redFlash) (s.lamps.get k) else s.lamps.get k

/-- RESET is asserted: drives drop and the heads flash (R185). -/
def State.resetHeld (s : State) : State :=
  { s with
    pins := { s.pins with reset := true }
    pcu := { s.pcu with passages := s.pcu.passages.map Passage.dropDrives }
    lamps := { zero := s.flashHeads 0, one := s.flashHeads 1, two := s.flashHeads 2, three := s.flashHeads 3 } }

/-- RESET is released: the warm reset is made (R185). -/
def State.resetEnds (s : State) : State := State.warmReset { s with pins := { s.pins with reset := false } }

end Sys2Proof.Machine
end

