-- ==== Sys2Proof/Machine/Setup.lean ====
section
/-! DEFINITION. SET_FLIGHT, SET_SENSOR and SET_TIMING (11). -/

namespace Sys2Proof.Machine

/-! ## SET_FLIGHT (R204, R205) -/

/-- The first field of a chamber record outside its range (11 section 11.1). -/
def chamberBar (c : Nat) (x : Chamber) : Option Detail :=
  if !within 100 5000 x.area then some (.field .area (some c))
  else if !within 0 20000 x.hMax then some (.field .hMax (some c))
  else if !within 0 20000 x.hBot then some (.field .hBot (some c))
  else if !within 200 2500 x.usable then some (.field .usable (some c))
  else if !within 30 300 x.width then some (.field .width (some c))
  else none

/-- The chamber records numbered from 1. -/
def numbered (l : List Chamber) : List (Nat × Chamber) := l.zipIdx.map (fun (x, i) => (i + 1, x))

/-- The first field outside its range (R204 test 2). -/
def flightRangeBar (f : FlightFields) : Option Detail :=
  if !within 1 3 f.n then some (.field .n none)
  else
    match (numbered f.chambers).findSome? (fun (c, x) => chamberBar c x) with
    | some d => some d
    | none => if within 0 50 f.clearance then none else some (.field .clearance none)

/-- The first chamber whose H_bot is above its H_max (R204 test 3). -/
def flightBottomBar (f : FlightFields) : Option Detail :=
  (numbered f.chambers).findSome? (fun (c, x) => if x.hMax < x.hBot then some (.field .hBot (some c)) else none)

/-- A passage is at rest: its slot free, its gate not in travel, its sluice not MOVING (R204 test 4). -/
def Passage.atRest (p : Passage) : Bool :=
  p.slot.isNone && !p.gate.state.travelling && !decide (p.sluice.state = .moving)

/-- The first passage that bars a change of N (R204 test 4). -/
def State.restBar (s : State) (f : FlightFields) : Option Detail :=
  if s.flight.n = some f.n then none
  else ([0, 1, 2, 3].find? (fun k => !(s.passage k).atRest)).map Detail.passage

/-- The tests of SET_FLIGHT in order (R204). -/
def State.flightBar (s : State) (f : FlightFields) : Option Answer :=
  if s.auth.mode ≠ .config then some (refuse .wrongMode)
  else
    match flightRangeBar f, flightBottomBar f, s.restBar f with
    | some d, _, _ => some (refuseWith .outOfRange d)
    | none, some d, _ => some (refuseWith .outOfRange d)
    | none, none, some d => some (refuseWith .wrongState d)
    | none, none, none => none

/-- The flight description of a SET_FLIGHT (R205). -/
def flightOf (f : FlightFields) : Flight :=
  { n := some f.n,
    chambers := { one := f.chambers.getD 0 Chamber.unset, two := f.chambers.getD 1 Chamber.unset,
                  three := f.chambers.getD 2 Chamber.unset },
    clearance := f.clearance }

/-- A passage as the change of N leaves it: one that leaves use loses its permit, one that enters use is read afresh (R205). -/
def State.renewPassage (before : State) (s : State) (k : Nat) : Passage :=
  if before.inUse k ∧ ¬ s.inUse k then { s.passage k with permit := false }
  else if ¬ before.inUse k ∧ s.inUse k then
    Passage.fromPins s.timing (s.pins.limits.get k) (s.pins.feedback.get k)
  else s.passage k

/-- N is set or changed: polling, passages and heads follow (R16, R52, R205). -/
def State.renumber (before : State) (s : State) : State :=
  State.reformHeads before
    { s with
      lm := s.lm.renumber s.flight.n
      pcu := { s.pcu with passages :=
        { zero := State.renewPassage before s 0, one := State.renewPassage before s 1,
          two := State.renewPassage before s 2, three := State.renewPassage before s 3 } } }

/-- The gauge may have changed: N, the clearance, a usable length or a width (R76, R205). -/
def Flight.gaugeChanged (a b : Flight) : Bool :=
  !decide (a.n = b.n) || !decide (a.clearance = b.clearance)
    || !decide (a.chambers.one.usable = b.chambers.one.usable) || !decide (a.chambers.one.width = b.chambers.one.width)
    || !decide (a.chambers.two.usable = b.chambers.two.usable) || !decide (a.chambers.two.width = b.chambers.two.width)
    || !decide (a.chambers.three.usable = b.chambers.three.usable)
    || !decide (a.chambers.three.width = b.chambers.three.width)

/-- The waiting vessels that lose their gauge are withdrawn (R76). -/
def State.regauge (before : State) (s : State) : State :=
  s.when (before.flight.gaugeChanged s.flight) (fun t => t.each t.outOfGauge (State.withdrawWaiting .gauge))

/-- The area or H_max of a chamber changed (R31). -/
def State.waterChanged (before : State) (s : State) (c : Nat) : Bool :=
  !decide ((before.chamber c).area = (s.chamber c).area) || !decide ((before.chamber c).hMax = (s.chamber c).hMax)

/-- The operations in WAITING whose chambers changed are examined (R31, R205). -/
def State.reexamine (before : State) (s : State) : State :=
  s.pushAll ((s.passagesInUse.filter (fun k => (s.chambersOf k).any (State.waterChanged before s))).map Task.examine)

/-- An accepted SET_FLIGHT (R205). -/
def State.applyFlight (f : FlightFields) (s : State) : State :=
  let t := { s with flight := flightOf f }
  State.reexamine s (State.regauge s (t.when (!decide (s.flight.n = some f.n)) (State.renumber s)))

/-- The number of vessels in the register. -/
def State.vessels (s : State) : Nat := s.reg.entries.length

/-! ## SET_SENSOR (R206) -/

/-- A calibration item is in range (R206 test 3). -/
def calibrationOk (c : Calibration) : Bool := withinInt (-5000) 15000 c.zero && within 1000 20000 c.span

/-- The first present item of a list of pounds that fails a test. -/
def firstBadItem (f : SensorFields) (bad : Nat → Calibration → Bool) : Option Nat :=
  [0, 1, 2, 3, 4].find? (fun p =>
    match f.items.get p with
    | some c => bad p c
    | none => false)

/-- The tests of SET_SENSOR in order (R206). The worked sequence of chapter 11 names the pound that fails test 2; that test 3 names its pound too is DEDUCED (log 28). -/
def State.sensorBar (s : State) (f : SensorFields) : Option Answer :=
  if s.auth.mode ≠ .config then some (refuse .wrongMode)
  else
    match firstBadItem f (fun p _ => decide (s.count + 1 < p)), firstBadItem f (fun _ c => !calibrationOk c) with
    | some p, _ => some (refuseWith .outOfRange (.pound p))
    | none, some p => some (refuseWith .outOfRange (.pound p))
    | none, none => none

/-- The window settings as applied (R206). -/
def clampSensor (f : SensorFields) : SensorFields :=
  { f with w := clampWindow f.w, eqTol := clampTo 5 200 f.eqTol, rippleLim := clampTo 10 500 f.rippleLim,
           stillCount := clampTo 1 15 f.stillCount }

/-- The settings that the clamping altered (R206). -/
def alteredSensor (f : SensorFields) : List SensorSetting :=
  (if (clampSensor f).w = f.w then [] else [.w]) ++ (if (clampSensor f).eqTol = f.eqTol then [] else [.eqTol])
    ++ (if (clampSensor f).rippleLim = f.rippleLim then [] else [.rippleLim])
    ++ (if (clampSensor f).stillCount = f.stillCount then [] else [.stillCount])

/-- An accepted SET_SENSOR; EQUAL that becomes true is handed over (R11, R15, R206). -/
def State.applySensor (f : SensorFields) (s : State) : State :=
  let lm := s.lm.applySensor (clampSensor f)
  { s with lm := lm, agenda := s.agenda ++ (equalRisen s.lm lm s.passagesInUse).map Task.equalTrue }

/-! ## SET_TIMING (R207) -/

/-- The settings as applied (R207). -/
def clampTiming (t : Timing) : Timing :=
  { scan := clampScan t.scan, gateLimit := clampTo 10 300 t.gateLimit, slowPct := clampTo 50 95 t.slowPct,
    sluiceTarget := clampTo 1 8 t.sluiceTarget, rampInterval := clampTo 2 60 t.rampInterval,
    moveLimit := clampTo 5 120 t.moveLimit, eqLimit := clampTo 30 1800 t.eqLimit,
    entryLimit := clampTo 60 3600 t.entryLimit, exitLimit := clampTo 60 3600 t.exitLimit,
    silence := clampTo 2 60 t.silence, handover := clampTo 10 120 t.handover, discard := clampTo 30 600 t.discard,
    runLimit := clampTo 1 4 t.runLimit, skipLimit := clampTo 1 7 t.skipLimit }

/-- The settings in the order of the table of R207. -/
def timingList (t : Timing) : List Nat :=
  [t.scan, t.gateLimit, t.slowPct, t.sluiceTarget, t.rampInterval, t.moveLimit, t.eqLimit, t.entryLimit, t.exitLimit,
   t.silence, t.handover, t.discard, t.runLimit, t.skipLimit]

/-- The places, from 0, of the fields that the clamping altered (R207). -/
def alteredTiming (t : Timing) : List Nat :=
  (List.range 14).filter (fun i => !decide ((timingList t).getD i 0 = (timingList (clampTiming t)).getD i 0))

/-- OK, or OK_CLAMPED where something was altered. -/
def clampStatus {α : Type} (altered : List α) : Status := if altered.isEmpty then .ok else .okClamped

end Sys2Proof.Machine
end

