-- ==== Sys2Proof/Machine/Supply.lean ====
section
/-! DEFINITION. Commands: the supply, the RESET input and the ESTOP input. -/

namespace Sys2Proof.Machine

/-- A command's outcome in this model. -/
abbrev Result := Host.Outcome State Fault Refusal

/-- POWER_ON (R209). -/
def execPowerOn (s : State) : Result := .next s.supplied

/-- RESET_ASSERTED (R185). -/
def execResetAsserted (s : State) : Result := .next s.resetHeld

/-- RESET_RELEASED (R185). -/
def execResetReleased (s : State) : Result := .next s.resetEnds

/-- The ESTOP input as it stands. -/
def State.setEstopPin (level : Bool) (s : State) : State := { s with pins := { s.pins with estop := level } }

/-- The ESTOP level as last read (R175). -/
def State.setEstop (level : Bool) (s : State) : State := { s with auth := { s.auth with estop := level } }

/-- The ESTOP input has become asserted (R175). -/
def State.takeEstop (s : State) : State :=
  if s.auth.estop then s else (s.setEstop true).enterSafeHold .estop

/-- ESTOP_ASSERTED (R175). -/
def execEstopAsserted (s : State) : Result := .next ((s.setEstopPin true).event State.takeEstop)

/-- The ESTOP input has become released (R175). -/
def State.endEstop (s : State) : State := if s.auth.estop then (s.setEstop false).raise .estopReleased else s

/-- ESTOP_RELEASED (R175). -/
def execEstopReleased (s : State) : Result := .next ((s.setEstopPin false).event State.endEstop)

end Sys2Proof.Machine
end

