-- ==== Sys2Proof/Machine/SensorEvents.lean ====
section
/-! DEFINITION. Commands: the scan tick and the ends of a poll (01). -/

namespace Sys2Proof.Machine

/-- The scan tick is taken (R2). -/
def State.takeTick (s : State) : State := { s with lm := s.lm.tick s.timing.scan }

/-- SCAN_TICK (R2): the scan tick timer expires, if it has run out (log 3). -/
def execScanTick (s : State) : Result := .next (if s.pins.reset = false ∧ s.lm.scanTimer = some 0 then s.takeTick else s)

/-- A reply that is readable and comes from the address polled (R1, R3). -/
def replyMatches (q : Poll) (address : Nat) : Bool := decide (address = q.pound + 1)

/-- A value reply is taken; one that belongs to no poll, or that cannot be read, is discarded (R3). -/
def State.takeValue (address raw : Nat) (s : State) : State :=
  match s.lm.poll with
  | some q => if replyMatches q address && decide (raw ≤ 4095) then s.pollEnded q.pound (State.goodPoll q.pound raw) else s
  | none => s

/-- POLL_VALUE_REPLY (R3). -/
def execPollValueReply (address raw : Nat) (s : State) : Result := .next (s.event (State.takeValue address raw))

/-- A fault reply is taken; one that belongs to no poll is discarded (R3). -/
def State.takeFaultReply (address : Nat) (s : State) : State :=
  match s.lm.poll with
  | some q => if replyMatches q address then s.pollEnded q.pound (State.badPoll q.pound .faultReply) else s
  | none => s

/-- POLL_FAULT_REPLY (R3). -/
def execPollFaultReply (address : Nat) (s : State) : Result := .next (s.event (State.takeFaultReply address))

/-- The poll timeout expires (R3). The timeout has run out only where no reply ended its poll first: an expiry that meets a poll with time left (the next pound's) changes nothing (log 3). -/
def State.takePollTimeout (s : State) : State :=
  match s.lm.poll with
  | some q => if q.left = 0 then s.pollEnded q.pound (State.badPoll q.pound .timeout) else s
  | none => s

/-- POLL_TIMEOUT (R3). -/
def execPollTimeout (s : State) : Result := .next (s.event State.takePollTimeout)

end Sys2Proof.Machine
end

