-- ==== Sys2Proof/Machine/FieldEvents.lean ====
section
/-! DEFINITION. Commands: gate limits, gate travel, sluice feedback and timers, lamp indications (02, 03). -/

namespace Sys2Proof.Machine

/-- A field or timer event of a passage that the part has (log 16). -/
def onPassage (k : Nat) (s : State) : Result := if k < 4 then .next s else .fault .noSuchLine

/-- A change of the limit inputs of a passage in use is taken; for another it is recorded at the inputs only (R22; log 27). -/
def State.takeLimits (k : Nat) (x : LimitPins) (s : State) : State :=
  if s.inUse k ∧ x.position ≠ (s.passage k).gate.position then s.gateMoved k x.position else s

/-- GATE_LIMIT_CHANGE (R22). -/
def execGateLimitChange (k : Nat) (openLimit closedLimit : Bool) (s : State) : Result :=
  onPassage k ((s.setLimits k { openLimit := openLimit, closedLimit := closedLimit }).event
    (State.takeLimits k { openLimit := openLimit, closedLimit := closedLimit }))

/-- The travel timer of a gate expires, if it has run out: one that a reversal has restarted in an earlier event has not (R21, R23; log 3). -/
def State.takeTravelTimeout (k : Nat) (s : State) : State :=
  if (s.passage k).gate.timer = some 0 then s.travelExpired k else s

/-- GATE_TRAVEL_TIMEOUT (R23). -/
def execGateTravelTimeout (k : Nat) (s : State) : Result := onPassage k (s.event (State.takeTravelTimeout k))

/-- A feedback of a passage in use is taken; for another it is recorded at the inputs only (R25 to R27; log 27). -/
def State.takeFeedback (k code : Nat) (s : State) : State := if s.inUse k then s.feedbackTaken k code else s

/-- SLUICE_FEEDBACK (R25 to R27). -/
def execSluiceFeedback (k code : Nat) (s : State) : Result :=
  onPassage k ((s.setFeedback k code).event (State.takeFeedback k code))

/-- The move timer of a sluice expires, if it has run out: one that another move has restarted in an earlier event has not (R26, R27; log 3). -/
def State.takeMoveTimeout (k : Nat) (s : State) : State :=
  if (s.passage k).sluice.moveTimer = some 0 then s.moveExpired k else s

/-- SLUICE_MOVE_TIMEOUT (R27). -/
def execSluiceMoveTimeout (k : Nat) (s : State) : Result := onPassage k (s.event (State.takeMoveTimeout k))

/-- The ramp timer of a sluice expires, if it has run out (R33; log 3). -/
def State.takeRampExpiry (k : Nat) (s : State) : State :=
  if (s.passage k).sluice.rampTimer = some 0 then s.rampExpired k else s

/-- RAMP_TIMER_EXPIRY (R25, R33). -/
def execRampTimerExpiry (k : Nat) (s : State) : Result := onPassage k (s.event (State.takeRampExpiry k))

/-- The equalise timer of an operation expires, if it has run out: one that a fresh start has set again has not (R32, R34; log 3). -/
def State.takeEqualiseTimeout (k : Nat) (s : State) : State :=
  if (s.passage k).slot.bind Op.timer = some 0 then s.equaliseExpired k else s

/-- EQUALISE_TIMEOUT (R34). -/
def execEqualiseTimeout (k : Nat) (s : State) : Result := onPassage k (s.event (State.takeEqualiseTimeout k))

/-- A change of a head's indications is taken (R56). -/
def State.takeIndication (k : Nat) (side : Side) (red green : Bool) (s : State) : State :=
  if s.pins.reset then s else s.setHead k side (Head.indicate red green)

/-- LAMP_INDICATION_CHANGE (R56). -/
def execLampIndicationChange (k : Nat) (side : Side) (red green : Bool) (s : State) : Result :=
  onPassage k ((s.setLit k side red green).takeIndication k side red green)

/-- The agreement timer of a head expires, if it has run out: one that a new output has restarted in an earlier event has not, so that a new output always gets its full time (R56, R57; log 3). -/
def State.takeAgreementExpiry (k : Nat) (side : Side) (s : State) : State :=
  if (s.head k side).timer = some 0 then s.agreementExpired k side else s

/-- LAMP_AGREEMENT_EXPIRY (R57). -/
def execLampAgreementExpiry (k : Nat) (side : Side) (s : State) : Result :=
  onPassage k (s.event (State.takeAgreementExpiry k side))

end Sys2Proof.Machine
end

