-- ==== Sys2Proof/Machine/TimerEvents.lean ====
section
/-! DEFINITION. Commands: overdue timers, quote discard, the day clock, silence, handover (06, 07, 08, 09, 10). -/

namespace Sys2Proof.Machine

/-- The overdue timer of a transit expires, if it runs and has run out (R112; log 3). -/
def State.takeOverdue (id : Nat) (s : State) : State :=
  match s.transit id with
  | some t =>
    match t.overdue, t.move with
    | .running limit 0, some m =>
      (s.setTransit id Transit.stopOverdue).raise (.moveOverdue id m.kind m.passage limit)
    | _, _ => s
  | none => s

/-- OVERDUE_TIMER_EXPIRY (R112). -/
def execOverdueTimerExpiry (id : Nat) (s : State) : Result :=
  .next (if s.pins.reset then s else (s.takeOverdue id).pump)

/-- The discard timer of a slot expires, if it has run out: one that a hand-over has started afresh in an earlier event has not (R166; log 3). -/
def State.takeDiscard (slot : Nat) (s : State) : State :=
  match s.acc.slot slot with
  | .resolved _ _ 0 => { s with acc := s.acc.setSlot slot .free }
  | .resolved _ _ (_ + 1) => s
  | .free => s
  | .pending _ => s

/-- QUOTE_DISCARD_EXPIRY (R166). -/
def execQuoteDiscardExpiry (slot : Nat) (s : State) : Result :=
  if within 1 4 slot then .next (if s.pins.reset then s else s.takeDiscard slot) else .fault .noSuchLine

/-- The day clock's second elapses, if it has run out: one that a SET_CLOCK has started afresh in an earlier event has not (R132; log 3). -/
def DayClock.elapse (c : DayClock) : DayClock :=
  if c.isSet = true ∧ c.second = some 0 then { c.advance with second := some Config.second } else c

/-- DAY_CLOCK_SECOND (R132). It runs through a held RESET (log 7). -/
def execDayClockSecond (s : State) : Result :=
  .next { s with toll := { s.toll with clock := s.toll.clock.elapse } }

/-- A port's silence timer stops, its station no longer heard (R192). -/
def Port.fallSilent (p : Port) : Port := { p with silence := none, heard := false }

/-- The silence timer of a port expires, if it has run out: one that a good frame has restarted in an earlier event has not (R183, R184, R192; log 3). -/
def State.takeSilenceExpiry (st : Station) (s : State) : State :=
  if (s.ports.get st).silence = some 0 then (s.setPort st Port.fallSilent).takeSilence st else s

/-- SILENCE_EXPIRY (R183, R192). -/
def execSilenceExpiry (port : Station) (s : State) : Result := .next (s.event (State.takeSilenceExpiry port))

/-- The handover timer expires, if it has run out: a claim lodged afresh has its full time (R182; log 3). -/
def State.takeHandover (s : State) : State := if s.auth.claim = some 0 then s.lapseClaim else s

/-- HANDOVER_TIMER_EXPIRY (R182). -/
def execHandoverTimerExpiry (s : State) : Result := .next (if s.pins.reset then s else s.takeHandover.pump)

end Sys2Proof.Machine
end

