-- ==== Sys2Proof/Machine/LineEvents.lean ====
section
/-! DEFINITION. Commands: the receive gap, discarded frames, idle frames, and frames that have left a line (10). -/

namespace Sys2Proof.Machine

/-- GAP_TIMER_EXPIRY (R190). The gap has run out only where no byte restarted the timer first: an expiry that meets a timer with time left, or a stopped one, changes nothing (log 3). -/
def execGapTimerExpiry (port : Station) (s : State) : Result :=
  .next (if !s.pins.reset && decide ((s.ports.get port).gap = some 0) then s.setPort port Port.hunt else s)

/-- FRAME_DISCARDED (R190): whatever the cause, the receiver hunts and no reply is sent. -/
def execFrameDiscarded (port : Station) (_cause : DiscardCause) (s : State) : Result :=
  .next (if s.pins.reset then s else s.setPort port Port.hunt)

/-- IDLE_FRAME (R191). -/
def execIdleFrame (port : Station) (s : State) : Result := .next (if s.pins.reset then s else s.goodFrame port)

/-- The frame on a port's line has left it; the OK reply to a RESTART brings the warm reset (R185, R195 to R197). -/
def State.takeFrameSent (port : Station) (s : State) : State :=
  if port = .console ∧ restartReply (s.ports.get port).line then s.warmReset
  else (s.setPort port Port.frameEnds).pump

/-- FRAME_SENT (R195, R197). -/
def execFrameSent (port : Station) (s : State) : Result := .next (if s.pins.reset then s else s.takeFrameSent port)

end Sys2Proof.Machine
end

