-- ==== Sys2Proof/WellFormed.lean ====
section
/-! DEFINITION. When a command is one that can arrive: line numbers the part has, values its lines can carry, tags and counts as the frame envelope has them. The meanings are total and do not read these checks. -/

namespace Sys2Proof

/-- A request's tag is 1..255 (R191). -/
def Hdr.wf (h : Hdr) : Bool := decide (1 ≤ h.tag) && decide (h.tag ≤ 255)

/-- The part has lines for passages 0..3 (11 section 11.6). -/
def passageWf (k : Nat) : Bool := decide (k ≤ 3)

/-- Sensor addresses are 1..5 (R1). -/
def addressWf (a : Nat) : Bool := decide (1 ≤ a) && decide (a ≤ 5)

/-- A raw code is 0..4095 (01 section 1.2). -/
def rawWf (r : Nat) : Bool := decide (r ≤ 4095)

/-- The four feedback inputs of a sluice carry a code 0..15 (11 section 11.6). -/
def feedbackWf (p : Nat) : Bool := decide (p ≤ 15)

/-- The quote slots are numbered 1..4 (log 30). -/
def slotWf (n : Nat) : Bool := decide (1 ≤ n) && decide (n ≤ 4)

/-- A transit id is 1..255 (R102). -/
def transitIdWf (n : Nat) : Bool := decide (1 ≤ n) && decide (n ≤ 255)

/-- A SET_FLIGHT carries as many chamber records as its count says (R194). -/
def FlightFields.wf (f : FlightFields) : Bool := decide (f.chambers.length = f.n)

/-- SUBSCRIBE carries one setting for each of eight classes (R199). -/
def subscribeWf (l : List Nat) : Bool := decide (l.length = 8)

/-- A request frame: tag 1..255, one kind byte, a payload of at most 240 bytes (R189). -/
def frameWf (tag kind : Nat) (payload : List Byte) : Bool :=
  decide (1 ≤ tag) && decide (tag ≤ 255) && decide (kind ≤ 255) && decide (payload.length ≤ 240)

/-- A kind byte that is no request kind: 0 or above 40 (R194). -/
def badKindWf (kind : Nat) : Bool := (decide (kind = 0) || decide (40 < kind)) && decide (kind ≤ 255)

/-- The well-formed commands. -/
def Instr.wf : Instr → Bool
  | .powerOn => true
  | .resetAsserted => true
  | .resetReleased => true
  | .estopAsserted => true
  | .estopReleased => true
  | .scanTick => true
  | .pollValueReply a r => addressWf a && rawWf r
  | .pollFaultReply a => addressWf a
  | .pollTimeout => true
  | .gateLimitChange k _ _ => passageWf k
  | .gateTravelTimeout k => passageWf k
  | .sluiceFeedback k p => passageWf k && feedbackWf p
  | .sluiceMoveTimeout k => passageWf k
  | .rampTimerExpiry k => passageWf k
  | .equaliseTimeout k => passageWf k
  | .lampIndicationChange k _ _ _ => passageWf k
  | .lampAgreementExpiry k _ => passageWf k
  | .overdueTimerExpiry id => transitIdWf id
  | .quoteDiscardExpiry n => slotWf n
  | .dayClockSecond => true
  | .silenceExpiry _ => true
  | .handoverTimerExpiry => true
  | .gapTimerExpiry _ => true
  | .frameDiscarded _ _ => true
  | .idleFrame _ => true
  | .busyAnswer _ tag kind payload => frameWf tag kind payload
  | .frameSent _ => true
  | .status h => h.wf
  | .readLevels h => h.wf
  | .readPassage h _ => h.wf
  | .readVessel h _ => h.wf
  | .readTransit h _ => h.wf
  | .readAccount h _ => h.wf
  | .announce h _ _ _ => h.wf
  | .amend h _ _ => h.wf
  | .withdraw h _ => h.wf
  | .autoCall h _ => h.wf
  | .planTransit h _ _ => h.wf
  | .cancelTransit h _ => h.wf
  | .confirm h _ _ => h.wf
  | .abandonTransit h _ => h.wf
  | .retryLevel h _ => h.wf
  | .manualGate h _ _ => h.wf
  | .manualSluice h _ _ => h.wf
  | .visualEqual h _ _ => h.wf
  | .emergencyStop h => h.wf
  | .resumeService h => h.wf
  | .claim h => h.wf
  | .release h => h.wf
  | .deny h => h.wf
  | .enterConfig h => h.wf
  | .leaveConfig h => h.wf
  | .restart h => h.wf
  | .setFlight h f => h.wf && f.wf
  | .setSensor h _ => h.wf
  | .setTiming h _ => h.wf
  | .setClock h _ _ => h.wf
  | .setTariff h _ => h.wf
  | .openAccount h _ _ _ => h.wf
  | .setCredit h _ _ => h.wf
  | .holdAccount h _ => h.wf
  | .releaseAccount h _ => h.wf
  | .closeAccount h _ => h.wf
  | .postPayment h _ _ => h.wf
  | .takeCharges h _ => h.wf
  | .quote h _ => h.wf
  | .subscribe h l => h.wf && subscribeWf l
  | .byteReceived _ _ => true
  | .badKindRequest _ tag kind => frameWf tag kind [] && badKindWf kind

end Sys2Proof
end

