-- ==== Sys2Proof/Machine/ReadRequests.lean ====
section
/-! DEFINITION. Commands: the reads, and SUBSCRIBE (R17, R49, R59, R79, R126, R168, R199, R201). A read changes nothing but what R201 and R199 say. -/

namespace Sys2Proof.Machine

/-- STATUS on a port: the report as it stands, then the port's lost-notice flag cleared (R200, R201). -/
def State.doStatus (st : Station) (s : State) : State × Answer :=
  (s.setPort st (fun p => { p with lost := false }), accept (.status (s.statusReport st)))

/-- STATUS (R201). -/
def execStatus (h : Hdr) (s : State) : Result := .next (s.takeRequest h 1 (State.doStatus h.port))

/-- The READ_LEVELS reply (R17). -/
def State.doReadLevels (s : State) : State × Answer := (s, accept (.levels (s.lm.reported.map s.lm.item)))

/-- READ_LEVELS (R17). -/
def execReadLevels (h : Hdr) (s : State) : Result := .next (s.takeRequest h 2 State.doReadLevels)

/-- The READ_PASSAGE reply (R17, R49, R59). -/
def State.doReadPassage (k : Nat) (s : State) : State × Answer :=
  (s, if s.lm.reportedPassages.contains k then accept (.passage (s.passageReport k)) else refuse .outOfRange)

/-- READ_PASSAGE (R17, R49, R59). -/
def execReadPassage (h : Hdr) (k : Nat) (s : State) : Result := .next (s.takeRequest h 3 (State.doReadPassage k))

/-- The vessel that READ_VESSEL names; a direction that is none of the list or a position outside 1..32 is out of range (R79; log 33). -/
def State.selectVessel (s : State) : VesselSelector → Except Status Vessel
  | .byMark m =>
    match s.vessel m with
    | some v => .ok v
    | none => .error .unknown
  | .byPosition none _ => .error .outOfRange
  | .byPosition (some d) n =>
    if !within 1 32 n then .error .outOfRange
    else
      match (s.reg.queue d)[n - 1]?.bind s.vessel with
      | some v => .ok v
      | none => .error .unknown

/-- The READ_VESSEL reply (R79). -/
def State.doReadVessel (sel : VesselSelector) (s : State) : State × Answer :=
  (s, match s.selectVessel sel with
    | .ok v => accept (.vessel (s.vesselReport v))
    | .error e => refuse e)

/-- READ_VESSEL (R79). -/
def execReadVessel (h : Hdr) (sel : VesselSelector) (s : State) : Result :=
  .next (s.takeRequest h 4 (State.doReadVessel sel))

/-- The READ_TRANSIT reply (R126). -/
def State.doReadTransit (id : Nat) (s : State) : State × Answer :=
  (s, match s.transit id with
    | some t => accept (.transit (s.transitReport t))
    | none => refuse .unknown)

/-- READ_TRANSIT (R126). -/
def execReadTransit (h : Hdr) (id : Nat) (s : State) : Result := .next (s.takeRequest h 5 (State.doReadTransit id))

/-- The account that READ_ACCOUNT names (R168). DESIGN CHOICE (log 33): an account asked for by a number above 65535 is OUT_OF_RANGE, a field out of its range (R193), where R168 names only UNKNOWN; the walk's number has its range in R168. -/
def Accounts.select (a : Accounts) : AccountSelector → Except Status Account
  | .byNumber n =>
    if 65535 < n then .error .outOfRange
    else
      match a.find n with
      | some x => .ok x
      | none => .error .unknown
  | .nextAbove n =>
    if 65535 < n then .error .outOfRange
    else
      match a.above n with
      | some x => .ok x
      | none => .error .unknown

/-- The READ_ACCOUNT reply (R168). -/
def State.doReadAccount (sel : AccountSelector) (s : State) : State × Answer :=
  (s, match s.acc.select sel with
    | .ok x => accept (.account x.report)
    | .error e => refuse e)

/-- READ_ACCOUNT (R168). -/
def execReadAccount (h : Hdr) (sel : AccountSelector) (s : State) : Result :=
  .next (s.takeRequest h 6 (State.doReadAccount sel))

/-- One subscription after a setting: OFF 0, EACH 1, ONCE 2, KEEP 3 (R199). -/
def Sub.apply (setting : Nat) (present : Sub) : Sub :=
  match setting with
  | 0 => .off
  | 1 => .each
  | 2 => .once
  | _ => present

/-- The subscriptions after eight settings in class-code order (R199). -/
def Subs.apply (l : List Nat) (x : Subs) : Subs :=
  { transit := x.transit.apply (l.getD 0 3), water := x.water.apply (l.getD 1 3),
    passage := x.passage.apply (l.getD 2 3), lamp := x.lamp.apply (l.getD 3 3),
    authority := x.authority.apply (l.getD 4 3), account := x.account.apply (l.getD 5 3),
    service := x.service.apply (l.getD 6 3), level := x.level.apply (l.getD 7 3) }

/-- SUBSCRIBE on a port (R199). -/
def State.doSubscribe (st : Station) (settings : List Nat) (s : State) : State × Answer :=
  if settings.any (fun n => decide (3 < n)) then (s, refuse .badRequest)
  else
    let t := s.setPort st (fun p => { p with subs := p.subs.apply settings })
    (t, accept (.subscriptions (t.ports.get st).subs))

/-- SUBSCRIBE (R199). A payload that has not eight settings has a wrong length (R193 test 1). -/
def execSubscribe (h : Hdr) (settings : List Nat) (s : State) : Result :=
  .next (s.takeRequest { h with lengthOk := h.lengthOk && subscribeWf settings } 40 (State.doSubscribe h.port settings))

end Sys2Proof.Machine
end

