-- ==== Sys2Proof/Machine/VesselRequests.lean ====
section
/-! DEFINITION. Commands: ANNOUNCE, AMEND, WITHDRAW (04). -/

namespace Sys2Proof.Machine

/-! ## ANNOUNCE (R63, R64) -/

/-- The fields of a vessel's particulars are within their ranges (04 section 4.1). -/
def particularsOk (p : Particulars) : Bool :=
  within 50 1350 p.length && within 10 240 p.beam && within 0 9999 p.deadweight && p.cls.isSome
    && within 0 65535 p.account

/-- Test 1 of ANNOUNCE: the mode, then the flight-set mark (R63). -/
def State.announceModeBar (s : State) : Option Status :=
  if s.auth.mode = .config then some .wrongMode else if s.flight.n.isNone then some .incomplete else none

/-- Tests 5 and 6 of ANNOUNCE: the account, then the gauge (R63). -/
def State.particularsBar (s : State) (p : Particulars) : Option Status :=
  if (s.acc.find p.account).isNone then some .unknown
  else if !s.fits p.length p.beam then some .outOfGauge
  else none

/-- Tests 3 and 4 of ANNOUNCE: the mark, then a free entry (R63). -/
def State.entryBar (s : State) (mark : Mark) : Option Status :=
  if (s.vessel mark).isSome then some .duplicate
  else if Config.registerSize ≤ s.reg.entries.length then some .full
  else none

/-- The tests of ANNOUNCE in order, the first that fails (R63). -/
def State.announceBar (s : State) (mark : Mark) (dir : Option Direction) (p : Particulars) : Option Status :=
  (s.announceModeBar).or
    ((if markOk mark && particularsOk p && dir.isSome then none else some .outOfRange).or
      ((s.entryBar mark).or (s.particularsBar p)))

/-- The entry that an accepted ANNOUNCE fills (R62, R64 step 1). -/
def State.newVessel (s : State) (st : Station) (mark : Mark) (dir : Direction) (cls : VesselClass) (p : Particulars) :
    Vessel :=
  { mark := mark, account := p.account, cls := cls, length := p.length, beam := p.beam, deadweight := p.deadweight,
    dir := dir, station := st, arrival := s.reg.counter, skips := 0, precedence := false, state := .waiting }

/-- A vessel enters the register, the arrival list and its queue (R62, R64 steps 1 to 3). -/
def State.enterVessel (v : Vessel) (s : State) : State :=
  State.placeAnnounced v
    { s with reg := { s.reg with entries := s.reg.entries ++ [v], counter := (s.reg.counter + 1) % 65536 } }

/-- An accepted ANNOUNCE (R64). -/
def State.announceVessel (v : Vessel) (s : State) : State × Answer :=
  let t := s.enterVessel v
  let position := t.queuePosition v
  (((t.raise (.vesselAnnounced v.mark v.dir v.cls v.arrival position)).calling).settle,
    accept (.announced v.arrival position))

/-- ANNOUNCE from a station (R63, R64). -/
def State.doAnnounce (st : Station) (mark : Mark) (dir : Option Direction) (p : Particulars) (s : State) :
    State × Answer :=
  match s.announceBar mark dir p, dir, p.cls with
  | none, some d, some c => s.announceVessel (s.newVessel st mark d c p)
  | some e, _, _ => (s, refuse e)
  | none, none, _ => (s, refuse .outOfRange)
  | none, some _, none => (s, refuse .outOfRange)

/-- ANNOUNCE (R63, R64). -/
def execAnnounce (h : Hdr) (mark : Mark) (dir : Option Direction) (p : Particulars) (s : State) : Result :=
  .next (s.takeRequest h 7 (State.doAnnounce h.port mark dir p))

/-! ## AMEND (R67 to R69) -/

/-- The sender may amend or withdraw a vessel: the holder, or the announcing station (R67 test 2). -/
def State.mayHandle (s : State) (st : Station) (v : Vessel) : Bool := s.isHolder st || decide (v.station = st)

/-- The entry with the new particulars, the rest kept (R68 steps 1 and 2). -/
def amendedVessel (p : Particulars) (cls : VesselClass) (v : Vessel) : Vessel :=
  { v with length := p.length, beam := p.beam, deadweight := p.deadweight, cls := cls, account := p.account }

/-- Tests 2, 5 and 6 of R63 on new particulars (R68). -/
def State.amendBar (s : State) (p : Particulars) : Option Status :=
  if !particularsOk p then some .outOfRange else s.particularsBar p

/-- The reply to an accepted AMEND (R68). -/
def State.amendAnswer (s : State) (v : Vessel) : Answer :=
  accept (.amended (s.queuePosition v) (s.creditHeld v))

/-- An accepted AMEND of a waiting vessel. Values equal to the present ones change nothing (R68; log 22). -/
def State.amendVessel (v : Vessel) (p : Particulars) (cls : VesselClass) (s : State) : State × Answer :=
  let w := amendedVessel p cls v
  if w = v then (s, s.amendAnswer v)
  else
    let t := s.setVessel v.mark (fun _ => w)
    (((t.when (s.creditHeld v && !t.creditHeld w) State.calling).raise
        (.vesselAmended w.mark w.length w.beam w.deadweight w.cls w.account)).settle,
      t.amendAnswer w)

/-- AMEND of an entry by a sender that R67 admits (R68, R69). -/
def State.amendEntry (v : Vessel) (p : Particulars) (s : State) : State × Answer :=
  if v.state ≠ .waiting then (s, refuse .wrongState)
  else
    match s.amendBar p, p.cls with
    | none, some cls => s.amendVessel v p cls
    | some e, _ => (s, refuse e)
    | none, none => (s, refuse .outOfRange)

/-- AMEND from a station (R67 to R69). -/
def State.doAmend (st : Station) (mark : Mark) (p : Particulars) (s : State) : State × Answer :=
  match s.vessel mark with
  | none => (s, refuse .unknown)
  | some v => if s.mayHandle st v then s.amendEntry v p else (s, refuse .notAuthorised)

/-- AMEND (R67 to R69). -/
def execAmend (h : Hdr) (mark : Mark) (p : Particulars) (s : State) : Result :=
  .next (s.takeRequest h 8 (State.doAmend h.port mark p))

/-! ## WITHDRAW (R70 to R72) -/

/-- A transit whose berth list a withdrawal emptied is cancelled (R97). -/
def State.cancelEmptied (t : Transit) (s : State) : State :=
  (((s.leaveQueue t.id .withdrawn).freeTransit t.id).raise (.transitCancelled t.id .withdrawn [])).newHead
    s.arb.queue.head?

/-- A vessel's berth leaves the list of its queued transit; an emptied transit is cancelled (R71 step 1, R97). -/
def State.dropBerth (t : Transit) (m : Mark) (s : State) : State :=
  let left := t.berths.filter (fun b => !decide (b.mark = m))
  if left.isEmpty then s.cancelEmptied t else s.setTransit t.id (fun x => { x with berths := left })

/-- The berths that a queued transit keeps when one vessel is withdrawn (R71). -/
def Transit.berthsLeft (t : Transit) (m : Mark) : Nat := (t.berths.filter (fun b => !decide (b.mark = m))).length

/-- WITHDRAW of a called vessel of a queued transit, in the order of R71. -/
def State.withdrawCalled (v : Vessel) (t : Transit) (s : State) : State :=
  (((((s.dropBerth t v.mark).uncommitBerths (t.berths.filter (fun b => decide (b.mark = v.mark)))).resolveQuote v.mark
    .withdrawn).freeVessel v.mark).raise (.vesselWithdrawn v.mark .withdraw (some t.id))).unreserveBerths 1

/-- WITHDRAW of an entry by a sender that R67 admits (R70 to R72). -/
def State.withdrawEntry (v : Vessel) (s : State) : State × Answer :=
  match v.state with
  | .waiting => (s.withdrawWaiting .withdraw v, accept (.withdrawn none))
  | .called id _ =>
    match s.transit id with
    | some t =>
      if t.state = .queued then
        ((s.withdrawCalled v t).settle, accept (.withdrawn (some (t.id, t.berthsLeft v.mark))))
      else (s, refuse .wrongState)
    | none => (s, refuse .wrongState)
  | .exited _ _ => (s, refuse .wrongState)

/-- WITHDRAW from a station (R67, R70 to R72). -/
def State.doWithdraw (st : Station) (mark : Mark) (s : State) : State × Answer :=
  match s.vessel mark with
  | none => (s, refuse .unknown)
  | some v => if s.mayHandle st v then s.withdrawEntry v else (s, refuse .notAuthorised)

/-- WITHDRAW (R67, R70 to R72). -/
def execWithdraw (h : Hdr) (mark : Mark) (s : State) : Result := .next (s.takeRequest h 9 (State.doWithdraw h.port mark))

end Sys2Proof.Machine
end

