-- ==== Sys2Proof/Machine/CallRequests.lean ====
section
/-! DEFINITION. Commands: AUTO_CALL, PLAN_TRANSIT, CANCEL_TRANSIT, CONFIRM, ABANDON_TRANSIT (05, 06). -/

namespace Sys2Proof.Machine

/-! ## AUTO_CALL (R82) -/

/-- Switch auto calling to a setting that differs from the present one (R82). -/
def State.switchAuto (on : Bool) (s : State) : State :=
  if on then State.calling { s with arb := { s.arb with autoOn := true } }
  else { s with arb := { s.arb with autoOn := false, reason := .autoOff } }

/-- AUTO_CALL; a setting outside the list is out of range (R82; log 10). -/
def State.doAutoCall (on : Option Bool) (s : State) : State × Answer :=
  match on with
  | none => (s, refuse .outOfRange)
  | some b =>
    if b = s.arb.autoOn then (s, accept (.autoCall b)) else ((s.switchAuto b).settle, accept (.autoCall b))

/-- AUTO_CALL (R82). -/
def execAutoCall (h : Hdr) (on : Option Bool) (s : State) : Result := .next (s.takeRequest h 10 (State.doAutoCall on))

/-! ## PLAN_TRANSIT (R94, R95) -/

/-- The marks of a plan are as many as it may have and well formed (R94 test 2). -/
def planMarksOk (marks : List Mark) : Bool := within 1 Config.maxBerths marks.length && marks.all markOk

/-- The plan's vessels, in the list's order, those that the register holds. -/
def State.planVessels (s : State) (marks : List Mark) : List Vessel := marks.filterMap s.vessel

/-- The first mark that names no entry in use (R94 test 4). -/
def State.planUnknown (s : State) (marks : List Mark) : Option Mark := marks.find? (fun m => (s.vessel m).isNone)

/-- The first vessel that is not WAITING in the plan's direction (R94 test 5). -/
def State.planMisplaced (s : State) (d : Direction) (marks : List Mark) : Option Mark :=
  ((s.planVessels marks).find? (fun v => !decide (v.state = .waiting) || !decide (v.dir = d))).map Vessel.mark

/-- A plan's vessels with their estimates (R94 test 6, R95). -/
def State.planBerths (s : State) (marks : List Mark) : List (Vessel × Nat) :=
  (s.planVessels marks).map (fun v => (v, s.estimate v))

/-- The first credit-held vessel of a list, the estimates ahead of it on its account counted as committed (R94 test 6). -/
def State.firstHeld (s : State) (ahead : List (Vessel × Nat)) : List (Vessel × Nat) → Option Mark
  | [] => none
  | b :: rest =>
    if s.creditHeldWith (countedOn ahead b.1.account) b.1 then some b.1.mark else s.firstHeld (ahead ++ [b]) rest

/-- The sum of the berth lengths of a plan (R94 test 7). -/
def State.planLength (s : State) (marks : List Mark) : Nat :=
  ((s.planVessels marks).map (fun v => s.berthLength v.length)).sum

/-- Tests 4 to 6 of PLAN_TRANSIT, which name the first mark that fails (R94). -/
def State.planMarkBar (s : State) (d : Direction) (marks : List Mark) : Option Answer :=
  match s.planUnknown marks, s.planMisplaced d marks, s.firstHeld [] (s.planBerths marks) with
  | some m, _, _ => some (refuseWith .unknown (.mark m))
  | none, some m, _ => some (refuseWith .wrongState (.mark m))
  | none, none, some m => some (refuseWith .wrongState (.creditHeld m))
  | none, none, none => none

/-- Tests 1 to 3 of PLAN_TRANSIT (R94). -/
def State.planFormBar (s : State) (marks : List Mark) : Option Answer :=
  if s.auth.mode = .config then some (refuse .wrongMode)
  else if !planMarksOk marks then some (refuse .outOfRange)
  else if decide marks.Nodup then none
  else some (refuse .badRequest)

/-- Tests 7 and 8 of PLAN_TRANSIT (R94). -/
def State.planRoomBar (s : State) (marks : List Mark) : Option Answer :=
  if s.minUsable < s.planLength marks then some (refuse .outOfGauge)
  else if s.capacity < marks.length then some (refuse .journalFull)
  else none

/-- Tests 1 to 8 of PLAN_TRANSIT in order for a direction of the list (R94). -/
def State.planBar (s : State) (d : Direction) (marks : List Mark) : Option Answer :=
  (s.planFormBar marks).or ((s.planMarkBar d marks).or (s.planRoomBar marks))

/-- A plan that has passed tests 1 to 8: test 9, then the transit (R94, R95). -/
def State.plan (d : Direction) (marks : List Mark) (s : State) : State × Answer :=
  if Config.transitQueueSize ≤ s.arb.queue.length then
    (s.raise (.queueOverflow d marks.length), refuse .full)
  else
    ((s.createTransit d .plan (s.planBerths marks)).settle,
      accept (.planned (s.nextId 9 s.arb.lastId) (s.arb.queue.length + 1)))

/-- PLAN_TRANSIT (R94, R95). A direction outside the list fails test 2, behind the mode (log 10). -/
def State.doPlanTransit (dir : Option Direction) (marks : List Mark) (s : State) : State × Answer :=
  match dir with
  | none => (s, if s.auth.mode = .config then refuse .wrongMode else refuse .outOfRange)
  | some d =>
    match s.planBar d marks with
    | some a => (s, a)
    | none => s.plan d marks

/-- PLAN_TRANSIT (R94, R95). -/
def execPlanTransit (h : Hdr) (dir : Option Direction) (marks : List Mark) (s : State) : Result :=
  .next (s.takeRequest h 11 (State.doPlanTransit dir marks))

/-! ## CANCEL_TRANSIT (R96, R125) -/

/-- The transit is MOVING in its ENTRY with no confirmation taken (R125). -/
def Transit.inEntry (t : Transit) : Option Move :=
  match t.state, t.move with
  | .moving, some m => if m.kind = .entry ∧ ¬ m.confirmed then some m else none
  | _, _ => none

/-- CANCEL_TRANSIT of a transit in the table (R96, R125). -/
def State.cancelTransit (t : Transit) (s : State) : State × Answer :=
  if t.state = .queued then
    if s.auth.mode = .config then (s, refuse .wrongMode)
    else ((s.cancelQueued t).settle, accept (.cancelled t.berths.length))
  else
    match t.inEntry with
    | none => (s, refuse .wrongState)
    | some m =>
      if s.inService then ((s.cancelEntry t m).settle, accept (.cancelled t.berths.length))
      else (s, refuse .wrongMode)

/-- CANCEL_TRANSIT (R96, R125). -/
def State.doCancelTransit (id : Nat) (s : State) : State × Answer :=
  match s.transit id with
  | none => (s, refuse .unknown)
  | some t => s.cancelTransit t

/-- CANCEL_TRANSIT (R96, R125). -/
def execCancelTransit (h : Hdr) (id : Nat) (s : State) : Result :=
  .next (s.takeRequest h 12 (State.doCancelTransit id))

/-! ## CONFIRM (R113, R115) -/

/-- The confirmation is taken: timer stopped, source head RED, move in CLOSE, gate closed in SERVICE (R113 steps 1 to 3). -/
def State.takeConfirmation (t : Transit) (m : Move) (s : State) : State :=
  (((s.setTransit t.id Transit.stopOverdue).setMove t.id (fun x => { x with confirmed := true, phase := .close })).deriveAspects).when
    s.inService (State.commandClose false m.passage)

/-- A confirmation of a move that awaits it, with the settlement for CLEAR (R113, R115). -/
def State.confirmMove (t : Transit) (m : Move) (kind : ConfirmKind) (s : State) : State × Answer :=
  let r := s.settlement t
  let taken := s.takeConfirmation t m
  match kind with
  | .cleared =>
    ((taken.settleWith t r).settle,
      accept (.confirmed .close (some (r.volume, (r.charges.map (fun c => c.parts.amount)).sum))))
  | .entered => (taken.settle, accept (.confirmed .close none))
  | .moved => (taken.settle, accept (.confirmed .close none))

/-- CONFIRM for a transit in the table (R113). -/
def State.confirmTransit (t : Transit) (kind : ConfirmKind) (s : State) : State × Answer :=
  match t.move with
  | some m =>
    if m.phase = .await ∧ m.kind.awaits = kind then s.confirmMove t m kind else (s, refuse .wrongState)
  | none => (s, refuse .wrongState)

/-- CONFIRM: the mode, a kind of the list, the id, the move (R113; log 10, log 29). -/
def State.doConfirm (id : Nat) (kind : Option ConfirmKind) (s : State) : State × Answer :=
  if s.auth.mode = .config then (s, refuse .wrongMode)
  else
    match kind, s.transit id with
    | none, _ => (s, refuse .outOfRange)
    | some _, none => (s, refuse .unknown)
    | some k, some t => s.confirmTransit t k

/-- CONFIRM (R113, R115). -/
def execConfirm (h : Hdr) (id : Nat) (kind : Option ConfirmKind) (s : State) : Result :=
  .next (s.takeRequest h 13 (State.doConfirm id kind))

/-! ## ABANDON_TRANSIT (R124) -/

/-- ABANDON_TRANSIT for a transit in the table (R124). -/
def State.abandon (t : Transit) (s : State) : State × Answer :=
  match t.state with
  | .queued => (s, refuse .wrongState)
  | .settled => (s, refuse .wrongState)
  | .moving => ((s.abandonTransit t).settle, accept .empty)
  | .waitingNext => ((s.abandonTransit t).settle, accept .empty)

/-- ABANDON_TRANSIT: the mode, the id, the state (R124). -/
def State.doAbandonTransit (id : Nat) (s : State) : State × Answer :=
  if s.auth.mode ≠ .safeHold then (s, refuse .wrongMode)
  else
    match s.transit id with
    | none => (s, refuse .unknown)
    | some t => s.abandon t

/-- ABANDON_TRANSIT (R124). -/
def execAbandonTransit (h : Hdr) (id : Nat) (s : State) : Result :=
  .next (s.takeRequest h 14 (State.doAbandonTransit id))

end Sys2Proof.Machine
end

