-- ==== Sys2Proof/Machine/PassageRequests.lean ====
section
/-! DEFINITION. Commands: RETRY_LEVEL, MANUAL_GATE, MANUAL_SLUICE, VISUAL_EQUAL (02). -/

namespace Sys2Proof.Machine

/-! ## Replies (R49) -/

/-- The gate state, the sluice state and the operation's phase of a passage, as its replies carry them (R49). -/
def State.passageBody (s : State) (k : Nat) : Body :=
  .passageState (s.passage k).gate.state (s.passage k).sluice.state ((s.passage k).slot.map Op.phase)

/-- The reply about a passage in use: the status, and the passage as it stands (R49; log 28). -/
def State.passageAnswer (s : State) (k : Nat) (status : Status) : Answer := { status := status, body := s.passageBody k }

/-- A refusal about a passage in use (R49). -/
def State.refusePassage (s : State) (k : Nat) (status : Status) : State × Answer := (s, s.passageAnswer k status)

/-- An accepted request about a passage: what follows in the event, then the reply (R49). -/
def State.acceptPassage (k : Nat) (s : State) : State × Answer := accepted s (fun t => t.passageAnswer k .ok)

/-! ## RETRY_LEVEL (R39) -/

/-- RETRY_LEVEL for a passage in use (R39). DESIGN CHOICE (log 33): an operation of a transit that is not STALLED is WRONG_STATE in every mode; R39 gives WRONG_MODE and WRONG_STATE there outside SERVICE and no order. -/
def State.retryLevel (k : Nat) (s : State) : State × Answer :=
  match (s.passage k).slot with
  | none => s.refusePassage k .wrongState
  | some o =>
    if o.phase ≠ .stalled then s.refusePassage k .wrongState
    else if o.transit.isSome ∧ s.auth.mode ≠ .service then s.refusePassage k .wrongMode
    else (s.returnToWaiting k).acceptPassage k

/-- RETRY_LEVEL (R39). DESIGN CHOICE (log 33): a passage above N is OUT_OF_RANGE, ahead of the state. -/
def State.doRetryLevel (k : Nat) (s : State) : State × Answer :=
  if s.inUse k then s.retryLevel k else (s, refuse .outOfRange)

/-- RETRY_LEVEL (R39). -/
def execRetryLevel (h : Hdr) (k : Nat) (s : State) : Result := .next (s.takeRequest h 15 (State.doRetryLevel k))

/-! ## When a manual request is admitted (R45) -/

/-- The slot of a passage is free or holds a MANUAL operation (R45). -/
def Passage.manualSlot (p : Passage) : Bool :=
  match p.slot with
  | none => true
  | some o => decide (o.purpose = .manual)

/-- A manual request is admitted on a passage in use (R45). -/
def State.manualAdmitted (s : State) (k : Nat) : Bool :=
  !s.inService || ((s.passage k).manualSlot && (s.chambersOf k).all (fun c => (s.holderOf c).isNone))

/-! ## MANUAL_GATE (R46) -/

/-- An action on the gate of a passage (R46). -/
def State.manualGate (k : Nat) (action : GateAction) (s : State) : State × Answer :=
  match action with
  | .openGate => if s.mayOpen k then (s.commandOpen true k).acceptPassage k else s.refusePassage k .interlock
  | .closeGate => (s.commandClose true k).acceptPassage k
  | .stopGate => (s.stopGate k).acceptPassage k

/-- MANUAL_GATE; an action outside the list is out of range (R45, R46; log 10). -/
def State.doManualGate (k : Nat) (action : Option GateAction) (s : State) : State × Answer :=
  if !s.inUse k then (s, refuse .outOfRange)
  else
    match action with
    | none => s.refusePassage k .outOfRange
    | some a => if s.manualAdmitted k then s.manualGate k a else s.refusePassage k .wrongState

/-- MANUAL_GATE (R45, R46). -/
def execManualGate (h : Hdr) (k : Nat) (action : Option GateAction) (s : State) : Result :=
  .next (s.takeRequest h 16 (State.doManualGate k action))

/-! ## MANUAL_SLUICE (R47, R48) -/

/-- A manual shut (R47). -/
def State.manualShut (k : Nat) (s : State) : State :=
  match (s.passage k).slot with
  | none => s.lowerManual k
  | some o =>
    if o.purpose = .manual then
      let t := s.setOp k (fun x => { x with phase := .shutting, stall := none })
      if (t.passage k).sluice.state = .shut then t.endOp k else t.lowerManual k
    else s.lowerManual k

/-- What a new target does to a MANUAL operation in RAMPING or FLOWING (R48). DESIGN CHOICE (log 23): the lowering to a lower target runs on the move limit copied at the operation's start. -/
def State.retarget (k p : Nat) (o : Op) (s : State) : State :=
  let t := s.setSluice k (fun x => { x with target := p })
  let position := (s.passage k).sluice.position
  if position < p then
    (t.setOp k (fun x => { x with phase := .ramping })).when (decide (o.phase = .flowing)) (State.stepUp k)
  else if position = p then t.setOp k (fun x => { x with phase := .flowing })
  else (t.setOp k (fun x => { x with phase := .flowing })).lower k p

/-- A position 1..8 for a passage whose slot holds a MANUAL operation (R48). -/
def State.moveManual (k p : Nat) (o : Op) (s : State) : State :=
  let t := s.setOp k (fun x => { x with target := p })
  if o.phase = .ramping ∨ o.phase = .flowing then t.retarget k p o else t

/-- A position 1..8 by what the slot holds (R48). -/
def State.manualRaise (k p : Nat) (s : State) : State :=
  match (s.passage k).slot with
  | none => s.createOp k .manual none p
  | some o => if o.purpose = .manual then s.moveManual k p o else s.takeOver k p o

/-- The slot holds a MANUAL operation in SHUTTING (R48). -/
def Passage.manualShutting (p : Passage) : Bool :=
  match p.slot with
  | none => false
  | some o => decide (o.purpose = .manual) && decide (o.phase = .shutting)

/-- MANUAL_SLUICE on a passage that admits it (R47, R48). -/
def State.manualSluice (k p : Nat) (s : State) : State × Answer :=
  if p = 0 then (s.manualShut k).acceptPassage k
  else if (s.passage k).sluice.state = .fault ∨ (s.passage k).manualShutting then s.refusePassage k .wrongState
  else (s.manualRaise k p).acceptPassage k

/-- The position is one that R45 admits. -/
def State.positionOk (s : State) (p : Nat) : Bool := decide (p ≤ 8) && (decide (p = 0) || s.flight.n.isSome)

/-- MANUAL_SLUICE (R45, R47, R48). -/
def State.doManualSluice (k p : Nat) (s : State) : State × Answer :=
  if !s.inUse k then (s, refuse .outOfRange)
  else if !s.positionOk p then s.refusePassage k .outOfRange
  else if s.manualAdmitted k then s.manualSluice k p
  else s.refusePassage k .wrongState

/-- MANUAL_SLUICE (R45, R47, R48). -/
def execManualSluice (h : Hdr) (k position : Nat) (s : State) : Result :=
  .next (s.takeRequest h 17 (State.doManualSluice k position))

/-! ## VISUAL_EQUAL (R44) -/

/-- The permit of a passage is granted or withdrawn (R31, R43, R44). -/
def State.visualEqual (k : Nat) (action : PermitAction) (s : State) : State :=
  match action with
  | .grant => ((s.setPermit k true).push (.examine k)).retryOpen k
  | .withdraw => (s.setPermit k false).push (.examine k)

/-- VISUAL_EQUAL; an action outside the list is out of range (R44; log 10). -/
def State.doVisualEqual (k : Nat) (action : Option PermitAction) (s : State) : State × Answer :=
  if !s.inUse k then (s, refuse .outOfRange)
  else
    match action with
    | none => s.refusePassage k .outOfRange
    | some a => (s.visualEqual k a).acceptPassage k

/-- VISUAL_EQUAL (R44). -/
def execVisualEqual (h : Hdr) (k : Nat) (action : Option PermitAction) (s : State) : Result :=
  .next (s.takeRequest h 18 (State.doVisualEqual k action))

end Sys2Proof.Machine
end

