-- ==== Sys2Proof/Machine/AuthorityRequests.lean ====
section
/-! DEFINITION. Commands: EMERGENCY_STOP, RESUME_SERVICE, CLAIM, RELEASE, DENY, ENTER_CONFIG, LEAVE_CONFIG, RESTART (09). -/

namespace Sys2Proof.Machine

/-! ## Replies (R186) -/

/-- A refusal of the Authority Controller (R186). -/
def State.refuseAuthority (s : State) (status : Status) (d : Detail) : State × Answer := (s, s.authorityAnswer status d)

/-- An accepted request of the Authority Controller that leaves no other block work. -/
def State.acceptAuthority (status : Status) (s : State) : State × Answer := (s, s.authorityAnswer status .nothing)

/-- An accepted change of mode: what follows in the event, then the reply. -/
def State.acceptMode (s : State) : State × Answer := accepted s (fun t => t.authorityAnswer .ok .nothing)

/-! ## EMERGENCY_STOP and RESUME_SERVICE (R176, R177) -/

/-- EMERGENCY_STOP from a station (R176). -/
def State.doEmergencyStop (st : Station) (s : State) : State × Answer := (s.enterSafeHold (.emergencyStop st)).acceptMode

/-- EMERGENCY_STOP (R176). -/
def execEmergencyStop (h : Hdr) (s : State) : Result := .next (s.takeRequest h 19 (State.doEmergencyStop h.port))

/-- RESUME_SERVICE (R177); what a refusal names is DEDUCED for WRONG_MODE (log 28). -/
def State.doResumeService (s : State) : State × Answer :=
  match s.resumeBlockers with
  | b :: _ => s.refuseAuthority b.status b.detail
  | [] => (s.enterService .resumeService).acceptMode

/-- RESUME_SERVICE (R177). -/
def execResumeService (h : Hdr) (s : State) : Result := .next (s.takeRequest h 20 State.doResumeService)

/-! ## CLAIM, RELEASE, DENY (R179 to R181) -/

/-- CLAIM from CONSOLE (R179). -/
def State.claimConsole (s : State) : State × Answer :=
  if s.auth.holder = some .console then s.acceptAuthority .ok
  else (s.setHolder (some .console) .claim none).acceptAuthority .ok

/-- A claim of REGION is lodged; CLAIM_PENDING carries the claimant and the time allowed, in seconds as handover_wait is (R180). -/
def State.lodgeClaim (s : State) : State :=
  State.raise (.claimPending .region s.timing.handover) { s with auth := { s.auth with claim := seconds s.timing.handover } }

/-- CLAIM from REGION (R180). -/
def State.claimRegion (s : State) : State × Answer :=
  match s.auth.holder with
  | some .region => s.acceptAuthority .ok
  | some .console => (if s.auth.claim.isSome then s else s.lodgeClaim).acceptAuthority .pending
  | some .toll => (s.setHolder (some .region) .claim none).acceptAuthority .ok
  | none => (s.setHolder (some .region) .claim none).acceptAuthority .ok

/-- CLAIM from a station (R179, R180). -/
def State.doClaim (st : Station) (s : State) : State × Answer :=
  match st with
  | .console => s.claimConsole
  | .region => s.claimRegion
  | .toll => s.refuseAuthority .notAuthorised .nothing

/-- CLAIM (R179, R180). -/
def execClaim (h : Hdr) (s : State) : Result := .next (s.takeRequest h 21 (State.doClaim h.port))

/-- RELEASE (R181). -/
def State.doRelease (s : State) : State × Answer :=
  if s.auth.claim.isSome then (s.setHolder (some .region) .release (some .granted)).acceptAuthority .ok
  else s.refuseAuthority .wrongState .nothing

/-- RELEASE (R181). -/
def execRelease (h : Hdr) (s : State) : Result := .next (s.takeRequest h 22 State.doRelease)

/-- DENY (R181). -/
def State.doDeny (s : State) : State × Answer :=
  if s.auth.claim.isSome then (s.setHolder s.auth.holder .claim (some .denied)).acceptAuthority .ok
  else s.refuseAuthority .wrongState .nothing

/-- DENY (R181). -/
def execDeny (h : Hdr) (s : State) : Result := .next (s.takeRequest h 23 State.doDeny)

/-! ## ENTER_CONFIG, LEAVE_CONFIG, RESTART (R172, R173, R185) -/

/-- The status of a refused ENTER_CONFIG by the condition that fails (R173). -/
def configStatus (condition : Nat) : Status := if condition = 1 then .wrongMode else .wrongState

/-- ENTER_CONFIG (R173). -/
def State.doEnterConfig (s : State) : State × Answer :=
  match s.configBar with
  | some (n, d) => s.refuseAuthority (configStatus n) d
  | none => s.enterConfigMode.acceptMode

/-- ENTER_CONFIG (R173). -/
def execEnterConfig (h : Hdr) (s : State) : Result := .next (s.takeRequest h 24 State.doEnterConfig)

/-- LEAVE_CONFIG (R172); what a refusal names is DEDUCED for WRONG_MODE (log 28). -/
def State.doLeaveConfig (s : State) : State × Answer :=
  match s.leaveBlockers with
  | b :: _ => s.refuseAuthority b.status b.detail
  | [] => (s.enterService .leaveConfig).acceptMode

/-- LEAVE_CONFIG (R172). -/
def execLeaveConfig (h : Hdr) (s : State) : Result := .next (s.takeRequest h 25 State.doLeaveConfig)

/-- RESTART: the reply only; the warm reset is made when its last byte has left port A (R185). -/
def State.doRestart (s : State) : State × Answer := s.acceptAuthority .ok

/-- RESTART (R185). -/
def execRestart (h : Hdr) (s : State) : Result := .next (s.takeRequest h 26 State.doRestart)

end Sys2Proof.Machine
end

