-- ==== Sys2Proof/Machine/SetupRequests.lean ====
section
/-! DEFINITION. Commands: SET_FLIGHT, SET_SENSOR, SET_TIMING, SET_CLOCK, SET_TARIFF (07, 11). -/

namespace Sys2Proof.Machine

/-! ## SET_FLIGHT, SET_SENSOR, SET_TIMING (R204 to R207) -/

/-- SET_FLIGHT (R204, R205). The reply is read as the register stands once the gauge has been tested. -/
def State.doSetFlight (f : FlightFields) (s : State) : State × Answer :=
  match s.flightBar f with
  | some a => (s, a)
  | none =>
    let t := s.applyFlight f
    (t.settle, accept (.flight f.n t.minUsable t.minWidth (s.vessels - t.vessels)))

/-- SET_FLIGHT (R204, R205). A payload whose records do not match its count has a wrong length (R194). -/
def execSetFlight (h : Hdr) (f : FlightFields) (s : State) : Result :=
  .next (s.takeRequest { h with lengthOk := h.lengthOk && f.wf } 27 (State.doSetFlight f))

/-- The calibrated mark of each pound (R206). -/
def State.calibratedMarks (s : State) : Quin Bool := s.lm.sensors.map Sensor.calibrated

/-- SET_SENSOR (R206). -/
def State.doSetSensor (f : SensorFields) (s : State) : State × Answer :=
  match s.sensorBar f with
  | some a => (s, a)
  | none =>
    let t := s.applySensor f
    let c := clampSensor f
    (t.settle,
      { status := clampStatus (alteredSensor f),
        body := .sensor c.w c.eqTol c.rippleLim c.stillCount (alteredSensor f) t.calibratedMarks })

/-- SET_SENSOR (R206). -/
def execSetSensor (h : Hdr) (f : SensorFields) (s : State) : Result := .next (s.takeRequest h 28 (State.doSetSensor f))

/-- SET_TIMING (R207). -/
def State.doSetTiming (x : Timing) (s : State) : State × Answer :=
  ({ s with timing := clampTiming x },
    { status := clampStatus (alteredTiming x), body := .timing (clampTiming x) (alteredTiming x) })

/-- SET_TIMING (R207). -/
def execSetTiming (h : Hdr) (t : Timing) (s : State) : Result := .next (s.takeRequest h 29 (State.doSetTiming t))

/-! ## SET_CLOCK (R132) -/

/-- A clock loaded, SET, with a fresh second (R132). -/
def DayClock.loaded (day sec : Nat) : DayClock := { isSet := true, day := day, sec := sec, second := some Config.second }

/-- SET_CLOCK (R132). -/
def State.doSetClock (day sec : Nat) (s : State) : State × Answer :=
  if within 0 65535 day && within 0 86399 sec then
    ({ s with toll := { s.toll with clock := DayClock.loaded day sec } }, accept (.clock day sec))
  else (s, refuse .outOfRange)

/-- SET_CLOCK (R132). -/
def execSetClock (h : Hdr) (day sec : Nat) (s : State) : Result := .next (s.takeRequest h 30 (State.doSetClock day sec))

/-! ## SET_TARIFF (R130, R131) -/

/-- Every field of a class record is within its range (07 section 7.1). -/
def rateOk (r : ClassRate) : Bool :=
  within 0 1000000 r.base && within 0 10000 r.lengthRate && within 0 10000 r.tonnageRate && within 0 1000 r.waterRate
    && within 0 200 r.nightPct && within 1 10000000 r.cap

/-- Every field of a tariff is within its range (R130 test 1). -/
def tariffOk (t : Tariff) : Bool :=
  rateOk t.cargo && rateOk t.passenger && rateOk t.pleasure && rateOk t.service && within 0 1439 t.nightStart
    && within 0 1439 t.nightEnd && within 0 50 t.allowance

/-- The generation slots after an accepted SET_TARIFF (R131 steps 1 and 2). -/
def Toll.advance (t : Tariff) (x : Toll) : Toll :=
  { x with previous := x.current, current := { number := (x.current.number + 1) % 256, tariff := t } }

/-- An accepted SET_TARIFF (R131). -/
def State.applyTariff (t : Tariff) (s : State) : State :=
  State.raise (.tariffChanged ((s.toll.current.number + 1) % 256) s.toll.current.number)
    { s with toll := s.toll.advance t }

/-- SET_TARIFF (R130, R131). -/
def State.doSetTariff (t : Tariff) (s : State) : State × Answer :=
  if !tariffOk t then (s, refuse .outOfRange)
  else if 0 < s.previousRefs then
    (s, refuseWith .tariffBusy (.generation s.toll.previous.number s.previousRefs))
  else (s.applyTariff t, accept (.tariff ((s.toll.current.number + 1) % 256)))

/-- SET_TARIFF (R130, R131). -/
def execSetTariff (h : Hdr) (t : Tariff) (s : State) : Result := .next (s.takeRequest h 31 (State.doSetTariff t))

end Sys2Proof.Machine
end

