-- ==== Sys2Proof/Machine/AccountRequests.lean ====
section
/-! DEFINITION. Commands: the account requests, POST_PAYMENT, TAKE_CHARGES, QUOTE (08). -/

namespace Sys2Proof.Machine

/-! ## Replies and shared tests -/

/-- The reply that carries an account as it stands (08 section 8.2). -/
def State.accountAnswer (s : State) (n : Nat) : Answer :=
  match s.acc.find n with
  | some a => accept (.accountState a a.status)
  | none => accept .empty

/-- The tests that name an account: account 0, then an account in use (R151 to R153). -/
def State.withAccount (n : Nat) (f : Account → State × Answer) (s : State) : State × Answer :=
  if n = 0 then (s, refuse .wrongState)
  else
    match s.acc.find n with
    | none => (s, refuse .unknown)
    | some a => f a

/-- Change an account and compare its status over the event (R149). -/
def State.changeAccount (n : Nat) (f : Account → Account) (s : State) : State :=
  State.compareStatus s.acc [n] { s with acc := s.acc.update n f }

/-- A changed account, with the account event where one is handed (R157), and the reply read from the account as it stands after the event (08 section 8.2). -/
def State.acceptAccount (n : Nat) (event : Bool) (s : State) : State × Answer :=
  let t := s.when event (fun x => (x.push (.accountEvent n)).settle)
  (t, t.accountAnswer n)

/-! ## OPEN_ACCOUNT (R150) -/

/-- Insert an account in rising order of number. -/
def insertAccount (x : Account) : List Account → List Account
  | [] => [x]
  | y :: rest => if x.number < y.number then x :: y :: rest else y :: insertAccount x rest

/-- A new account (R150). -/
def Account.fresh (number credit limit : Nat) : Account :=
  { number := number, opening := credit, balance := credit, limit := limit, hold := false, commitment := 0 }

/-- The tests of OPEN_ACCOUNT in order (R150). -/
def State.openBar (s : State) (number credit limit : Nat) : Option Status :=
  if !(within 1 65535 number && within 0 2000000000 credit && within 0 10000000 limit) then some .outOfRange
  else if (s.acc.find number).isSome then some .duplicate
  else if Config.accountTableSize ≤ s.acc.table.length then some .full
  else none

/-- An accepted OPEN_ACCOUNT (R150). -/
def State.openAccount (number credit limit : Nat) (s : State) : State :=
  { s with acc := { s.acc with table := insertAccount (Account.fresh number credit limit) s.acc.table } }

/-- OPEN_ACCOUNT (R150). -/
def State.doOpenAccount (number credit limit : Nat) (s : State) : State × Answer :=
  match s.openBar number credit limit with
  | some e => (s, refuse e)
  | none =>
    (s.openAccount number credit limit,
      accept (.accountState (Account.fresh number credit limit) (Account.fresh number credit limit).status))

/-- OPEN_ACCOUNT (R150). -/
def execOpenAccount (h : Hdr) (number credit limit : Nat) (s : State) : Result :=
  .next (s.takeRequest h 32 (State.doOpenAccount number credit limit))

/-! ## SET_CREDIT, HOLD_ACCOUNT, RELEASE_ACCOUNT, CLOSE_ACCOUNT (R151 to R153) -/

/-- SET_CREDIT (R151). -/
def State.doSetCredit (n limit : Nat) (s : State) : State × Answer :=
  if !within 0 10000000 limit then (s, refuse .outOfRange)
  else
    s.withAccount n (fun a =>
      if a.limit = limit then (s, s.accountAnswer n)
      else (s.changeAccount n (fun x => { x with limit := limit })).acceptAccount n true)

/-- SET_CREDIT (R151). -/
def execSetCredit (h : Hdr) (number limit : Nat) (s : State) : Result :=
  .next (s.takeRequest h 33 (State.doSetCredit number limit))

/-- HOLD_ACCOUNT (R152). -/
def State.doHoldAccount (n : Nat) (s : State) : State × Answer :=
  s.withAccount n (fun a =>
    if a.hold then (s, s.accountAnswer n)
    else (s.changeAccount n (fun x => { x with hold := true })).acceptAccount n false)

/-- HOLD_ACCOUNT (R152). -/
def execHoldAccount (h : Hdr) (number : Nat) (s : State) : Result := .next (s.takeRequest h 34 (State.doHoldAccount number))

/-- RELEASE_ACCOUNT (R152). -/
def State.doReleaseAccount (n : Nat) (s : State) : State × Answer :=
  s.withAccount n (fun a =>
    if a.hold then (s.changeAccount n (fun x => { x with hold := false })).acceptAccount n true
    else (s, s.accountAnswer n))

/-- RELEASE_ACCOUNT (R152). -/
def execReleaseAccount (h : Hdr) (number : Nat) (s : State) : Result :=
  .next (s.takeRequest h 35 (State.doReleaseAccount number))

/-- The first of the three tests of CLOSE_ACCOUNT that fails (R153). -/
def State.closeBar (s : State) (a : Account) : Option Nat :=
  if a.balance ≠ 0 then some 1
  else if a.commitment ≠ 0 then some 2
  else if s.reg.entries.any (fun v => decide (v.account = a.number)) then some 3
  else none

/-- Free an account (R153). -/
def State.freeAccount (n : Nat) (s : State) : State :=
  { s with acc := { s.acc with table := s.acc.table.filter (fun x => !decide (x.number = n)) } }

/-- CLOSE_ACCOUNT; nothing of the account is left to reply with (R153; log 28). -/
def State.doCloseAccount (n : Nat) (s : State) : State × Answer :=
  s.withAccount n (fun a =>
    match s.closeBar a with
    | some i => (s, refuseWith .wrongState (.test i))
    | none => (s.freeAccount n, accept .empty))

/-- CLOSE_ACCOUNT (R153). -/
def execCloseAccount (h : Hdr) (number : Nat) (s : State) : Result :=
  .next (s.takeRequest h 36 (State.doCloseAccount number))

/-! ## POST_PAYMENT (R154) -/

/-- The tests of POST_PAYMENT in order (R154). -/
def State.paymentBar (s : State) (n amount : Nat) : Option Status :=
  if !within 1 100000000 amount then some .outOfRange
  else
    match s.acc.find n with
    | none => some .unknown
    | some a =>
      if Config.maxBalance < a.balance + amount then some .outOfRange
      else if s.acc.margin < 1 then some .journalFull
      else none

/-- A payment posted: balance, journal entry, status, account event, in the order of R154. -/
def State.postPayment (n amount : Nat) (s : State) : State :=
  (State.compareStatus s.acc [n]
    { s with acc := (s.acc.credit n amount).append (.payment n amount) s.toll.clock.stamp }).push (.accountEvent n)

/-- The reply to an accepted POST_PAYMENT (R154). -/
def State.paymentAnswer (s : State) (n seq : Nat) : Answer :=
  match s.acc.find n with
  | some a => accept (.payment a.balance a.status seq)
  | none => accept .empty

/-- POST_PAYMENT (R154). -/
def State.doPostPayment (n amount : Nat) (s : State) : State × Answer :=
  match s.paymentBar n amount with
  | some e => (s, refuse e)
  | none => ((s.postPayment n amount).settle, (s.postPayment n amount).paymentAnswer n s.acc.nextSeq)

/-- POST_PAYMENT (R154). -/
def execPostPayment (h : Hdr) (number amount : Nat) (s : State) : Result :=
  .next (s.takeRequest h 37 (State.doPostPayment number amount))

/-! ## TAKE_CHARGES (R160) -/

/-- Remove entries at the head of the journal (R160). -/
def Accounts.takeEntries (n : Nat) (a : Accounts) : Accounts := { a with journal := a.journal.drop n }

/-- TAKE_CHARGES (R160); entries removed raise journal free and hand a calling event (R159). -/
def State.doTakeCharges (n : Nat) (s : State) : State × Answer :=
  if !within 1 8 n then (s, refuse .outOfRange)
  else
    let taken := s.acc.journal.take n
    let t := { s with acc := s.acc.takeEntries n }
    (t.when (!taken.isEmpty) (fun x => x.calling.settle),
      accept (.taken taken t.acc.journal.length t.acc.nextSeq))

/-- TAKE_CHARGES (R160). -/
def execTakeCharges (h : Hdr) (n : Nat) (s : State) : Result := .next (s.takeRequest h 38 (State.doTakeCharges n))

/-! ## QUOTE (R162 to R164, R167) -/

/-- QUOTE for a vessel that waits: its estimate (R162). -/
def State.quoteWaiting (v : Vessel) (s : State) : State × Answer :=
  (s, accept (.estimate (s.estimateParts v) s.toll.current.number s.toll.nightNow))

/-- A slot becomes PENDING for a mark, with the DEFERRED reply (R163). -/
def State.deferQuote (m : Mark) (slot transit estimate : Nat) (s : State) : State × Answer :=
  ({ s with acc := s.acc.setSlot slot (.pending m) },
    { status := .deferred, body := .deferred slot transit estimate })

/-- QUOTE for a called vessel (R163): the slot that holds its mark, else the lowest FREE one (log 30), else FULL. -/
def State.quoteCalled (m : Mark) (transit estimate : Nat) (s : State) : State × Answer :=
  match (s.acc.slotOf m).or s.acc.freeSlot with
  | some n => s.deferQuote m n transit estimate
  | none => (s, refuse .full)

/-- QUOTE for a mark in no register entry, behind the slots: the journal, else UNKNOWN (R164 cases 2 and 3). -/
def State.quoteJournal (m : Mark) (s : State) : State × Answer :=
  match s.acc.newestCharge m with
  | some e => (s, accept (.journal e))
  | none => (s, refuse .unknown)

/-- QUOTE for a mark in no register entry (R164). -/
def State.quoteGone (m : Mark) (s : State) : State × Answer :=
  match s.acc.slotOf m with
  | none => s.quoteJournal m
  | some n =>
    match s.acc.slot n with
    | .resolved _ r _ => ({ s with acc := s.acc.setSlot n .free }, accept (.quoted r))
    | .pending _ => s.quoteJournal m
    | .free => s.quoteJournal m

/-- QUOTE answered, the orphaned slots already resolved (R162 to R164). -/
def State.answerQuote (m : Mark) (s : State) : State × Answer :=
  match s.vessel m with
  | none => s.quoteGone m
  | some v =>
    match v.state with
    | .waiting => s.quoteWaiting v
    | .called t e => s.quoteCalled m t e
    | .exited t e => s.quoteCalled m t e

/-- QUOTE (R162, R167). DEDUCED (log 44): a mark that is not well formed is refused before the orphaned slots are resolved, as R162 orders its sentences. -/
def State.doQuote (m : Mark) (s : State) : State × Answer :=
  if markOk m then s.resolveOrphans.answerQuote m else (s, refuse .outOfRange)

/-- QUOTE (R162 to R164, R167). -/
def execQuote (h : Hdr) (mark : Mark) (s : State) : Result := .next (s.takeRequest h 39 (State.doQuote mark))

end Sys2Proof.Machine
end

