-- ==== Sys2Proof/Machine/Receive.lean ====
section
/-! DEFINITION. Commands: a byte on a line, a request that meets a REPLYING port, a request of no kind (10). -/

namespace Sys2Proof.Machine

/-- The work of a request's block for a station (R194). -/
def serve (st : Station) : Request → State → State × Answer
  | .status => State.doStatus st
  | .readLevels => State.doReadLevels
  | .readPassage k => State.doReadPassage k
  | .readVessel sel => State.doReadVessel sel
  | .readTransit id => State.doReadTransit id
  | .readAccount sel => State.doReadAccount sel
  | .announce mark dir p => State.doAnnounce st mark dir p
  | .amend mark p => State.doAmend st mark p
  | .withdraw mark => State.doWithdraw st mark
  | .autoCall on => State.doAutoCall on
  | .planTransit dir marks => State.doPlanTransit dir marks
  | .cancelTransit id => State.doCancelTransit id
  | .confirm id kind => State.doConfirm id kind
  | .abandonTransit id => State.doAbandonTransit id
  | .retryLevel k => State.doRetryLevel k
  | .manualGate k action => State.doManualGate k action
  | .manualSluice k position => State.doManualSluice k position
  | .visualEqual k action => State.doVisualEqual k action
  | .emergencyStop => State.doEmergencyStop st
  | .resumeService => State.doResumeService
  | .claim => State.doClaim st
  | .release => State.doRelease
  | .deny => State.doDeny
  | .enterConfig => State.doEnterConfig
  | .leaveConfig => State.doLeaveConfig
  | .restart => State.doRestart
  | .setFlight f => State.doSetFlight f
  | .setSensor f => State.doSetSensor f
  | .setTiming t => State.doSetTiming t
  | .setClock day sec => State.doSetClock day sec
  | .setTariff t => State.doSetTariff t
  | .openAccount number credit limit => State.doOpenAccount number credit limit
  | .setCredit number limit => State.doSetCredit number limit
  | .holdAccount number => State.doHoldAccount number
  | .releaseAccount number => State.doReleaseAccount number
  | .closeAccount number => State.doCloseAccount number
  | .postPayment number amount => State.doPostPayment number amount
  | .takeCharges n => State.doTakeCharges n
  | .quote mark => State.doQuote mark
  | .subscribe settings => State.doSubscribe st settings

/-- The counts a request carries match its lists (R194, R199). -/
def Request.countsOk : Request → Bool
  | .setFlight f => f.wf
  | .subscribe settings => subscribeWf settings
  | _ => true

/-- A block that answers BAD_REQUEST; test 1 keeps a request from reaching it. -/
def noBlock (s : State) : State × Answer := (s, refuse .badRequest)

/-- A good frame of a port is taken by its tag (R191, R193). -/
def State.takeFrame (st : Station) (tag kind : Nat) (payload : List Byte) (s : State) : State :=
  if tag = 0 then (if s.pins.reset then s else s.goodFrame st)
  else
    match readRequest kind payload with
    | some r => s.takeRequest { port := st, tag := tag, lengthOk := Request.countsOk r } kind (serve st r)
    | none => s.takeRequest { port := st, tag := tag, lengthOk := false } kind noBlock

/-- A byte on a port's line (R189, R190), and the good frame that it may complete (R191). -/
def State.takeByte (st : Station) (b : Byte) (s : State) : State :=
  match Port.receive (stationCode st) b (s.ports.get st) with
  | (p, none) => s.setPort st (fun _ => p)
  | (p, some l) =>
    (s.setPort st (fun _ => p)).takeFrame st (frameFields l).1 (frameFields l).2.1 (frameFields l).2.2

/-- BYTE_RECEIVED (R189). While RESET is held no byte is taken (R185). -/
def execByteReceived (port : Station) (byte : Byte) (s : State) : Result :=
  .next (if s.pins.reset then s else s.takeByte port byte)

/-- BUSY_ANSWER (R196). A request frame on a port: where the port is REPLYING it gets the busy answer, or nothing; where it is IDLE it is taken like any other (log 11). -/
def execBusyAnswer (port : Station) (tag kind : Nat) (payload : List Byte) (s : State) : Result :=
  .next (s.takeFrame port tag kind payload)

/-- BAD_KIND_REQUEST (R193 test 1, R194). -/
def execBadKindRequest (port : Station) (tag kind : Nat) (s : State) : Result :=
  .next (s.takeRequest { port := port, tag := tag, lengthOk := false } kind noBlock)

end Sys2Proof.Machine
end

