-- ==== Sys2Proof/Machine/Dispatch.lean ====
section
/-! DEFINITION. One arm for each command: its meaning. -/

namespace Sys2Proof.Machine

/-- The effect of a command on everything but the queue of commands. -/
def exec (i : Instr) (s : State) : Host.Outcome State Fault Refusal :=
  match i with
  | .powerOn => Sys2Proof.Machine.execPowerOn s
  | .resetAsserted => Sys2Proof.Machine.execResetAsserted s
  | .resetReleased => Sys2Proof.Machine.execResetReleased s
  | .estopAsserted => Sys2Proof.Machine.execEstopAsserted s
  | .estopReleased => Sys2Proof.Machine.execEstopReleased s
  | .scanTick => Sys2Proof.Machine.execScanTick s
  | .pollValueReply address raw => Sys2Proof.Machine.execPollValueReply address raw s
  | .pollFaultReply address => Sys2Proof.Machine.execPollFaultReply address s
  | .pollTimeout => Sys2Proof.Machine.execPollTimeout s
  | .gateLimitChange k openLimit closedLimit => Sys2Proof.Machine.execGateLimitChange k openLimit closedLimit s
  | .gateTravelTimeout k => Sys2Proof.Machine.execGateTravelTimeout k s
  | .sluiceFeedback k position => Sys2Proof.Machine.execSluiceFeedback k position s
  | .sluiceMoveTimeout k => Sys2Proof.Machine.execSluiceMoveTimeout k s
  | .rampTimerExpiry k => Sys2Proof.Machine.execRampTimerExpiry k s
  | .equaliseTimeout k => Sys2Proof.Machine.execEqualiseTimeout k s
  | .lampIndicationChange k side red green => Sys2Proof.Machine.execLampIndicationChange k side red green s
  | .lampAgreementExpiry k side => Sys2Proof.Machine.execLampAgreementExpiry k side s
  | .overdueTimerExpiry id => Sys2Proof.Machine.execOverdueTimerExpiry id s
  | .quoteDiscardExpiry slot => Sys2Proof.Machine.execQuoteDiscardExpiry slot s
  | .dayClockSecond => Sys2Proof.Machine.execDayClockSecond s
  | .silenceExpiry port => Sys2Proof.Machine.execSilenceExpiry port s
  | .handoverTimerExpiry => Sys2Proof.Machine.execHandoverTimerExpiry s
  | .gapTimerExpiry port => Sys2Proof.Machine.execGapTimerExpiry port s
  | .frameDiscarded port cause => Sys2Proof.Machine.execFrameDiscarded port cause s
  | .idleFrame port => Sys2Proof.Machine.execIdleFrame port s
  | .busyAnswer port tag kind payload => Sys2Proof.Machine.execBusyAnswer port tag kind payload s
  | .frameSent port => Sys2Proof.Machine.execFrameSent port s
  | .status h => Sys2Proof.Machine.execStatus h s
  | .readLevels h => Sys2Proof.Machine.execReadLevels h s
  | .readPassage h k => Sys2Proof.Machine.execReadPassage h k s
  | .readVessel h sel => Sys2Proof.Machine.execReadVessel h sel s
  | .readTransit h id => Sys2Proof.Machine.execReadTransit h id s
  | .readAccount h sel => Sys2Proof.Machine.execReadAccount h sel s
  | .announce h mark dir p => Sys2Proof.Machine.execAnnounce h mark dir p s
  | .amend h mark p => Sys2Proof.Machine.execAmend h mark p s
  | .withdraw h mark => Sys2Proof.Machine.execWithdraw h mark s
  | .autoCall h on => Sys2Proof.Machine.execAutoCall h on s
  | .planTransit h dir marks => Sys2Proof.Machine.execPlanTransit h dir marks s
  | .cancelTransit h id => Sys2Proof.Machine.execCancelTransit h id s
  | .confirm h id kind => Sys2Proof.Machine.execConfirm h id kind s
  | .abandonTransit h id => Sys2Proof.Machine.execAbandonTransit h id s
  | .retryLevel h k => Sys2Proof.Machine.execRetryLevel h k s
  | .manualGate h k action => Sys2Proof.Machine.execManualGate h k action s
  | .manualSluice h k position => Sys2Proof.Machine.execManualSluice h k position s
  | .visualEqual h k action => Sys2Proof.Machine.execVisualEqual h k action s
  | .emergencyStop h => Sys2Proof.Machine.execEmergencyStop h s
  | .resumeService h => Sys2Proof.Machine.execResumeService h s
  | .claim h => Sys2Proof.Machine.execClaim h s
  | .release h => Sys2Proof.Machine.execRelease h s
  | .deny h => Sys2Proof.Machine.execDeny h s
  | .enterConfig h => Sys2Proof.Machine.execEnterConfig h s
  | .leaveConfig h => Sys2Proof.Machine.execLeaveConfig h s
  | .restart h => Sys2Proof.Machine.execRestart h s
  | .setFlight h f => Sys2Proof.Machine.execSetFlight h f s
  | .setSensor h f => Sys2Proof.Machine.execSetSensor h f s
  | .setTiming h t => Sys2Proof.Machine.execSetTiming h t s
  | .setClock h day sec => Sys2Proof.Machine.execSetClock h day sec s
  | .setTariff h t => Sys2Proof.Machine.execSetTariff h t s
  | .openAccount h number credit limit => Sys2Proof.Machine.execOpenAccount h number credit limit s
  | .setCredit h number limit => Sys2Proof.Machine.execSetCredit h number limit s
  | .holdAccount h number => Sys2Proof.Machine.execHoldAccount h number s
  | .releaseAccount h number => Sys2Proof.Machine.execReleaseAccount h number s
  | .closeAccount h number => Sys2Proof.Machine.execCloseAccount h number s
  | .postPayment h number amount => Sys2Proof.Machine.execPostPayment h number amount s
  | .takeCharges h n => Sys2Proof.Machine.execTakeCharges h n s
  | .quote h mark => Sys2Proof.Machine.execQuote h mark s
  | .subscribe h settings => Sys2Proof.Machine.execSubscribe h settings s
  | .byteReceived port byte => Sys2Proof.Machine.execByteReceived port byte s
  | .badKindRequest port tag kind => Sys2Proof.Machine.execBadKindRequest port tag kind s

end Sys2Proof.Machine
end

