-- ==== Sys2Proof/Machine/Wire.lean ====
section
/-! DEFINITION. Replies and notices as bytes (R195, 10 section 10.6, R202): the codes of list values, the payloads whose layout the manual gives, and how much of the frame on a line has been sent. -/

namespace Sys2Proof.Machine

/-! ## Codes of list values: the place in the list of the field, counted from 0 (R202; log 42) -/

/-- The place of a value in a list, counted from 0. -/
def listCode {α : Type} [DecidableEq α] (values : List α) (x : α) : Nat := positionIn x values - 1

/-- Sensor status (01 section 1.3). -/
def SensorStatus.code (x : SensorStatus) : Nat := listCode [.good, .failed] x

/-- Gate states (02 section 2.2). -/
def GateState.code (x : GateState) : Nat := listCode [.closed, .opening, .opened, .closing, .stopped, .fault] x

/-- Gate positions (R20). -/
def GatePosition.code (x : GatePosition) : Nat := listCode [.atClosed, .atOpen, .between] x

/-- Gate fault causes (R22, R23). -/
def GateFault.code (x : GateFault) : Nat := listCode [.limitLost, .travelTimeout] x

/-- Sluice states (02 section 2.3). -/
def SluiceState.code (x : SluiceState) : Nat := listCode [.shut, .moving, .set, .fault] x

/-- Sluice fault causes (R27). -/
def SluiceFault.code (x : SluiceFault) : Nat := listCode [.moveTimeout, .uncommanded] x

/-- Purposes of a level operation (02 section 2.4). -/
def Purpose.code (x : Purpose) : Nat := listCode [.move, .charge, .drain, .manual] x

/-- Phases of a level operation (02 section 2.4). -/
def OpPhase.code (x : OpPhase) : Nat := listCode [.waiting, .ramping, .flowing, .equalised, .shutting, .stalled] x

/-- Stall reasons (02 section 2.4). -/
def StallReason.code (x : StallReason) : Nat := listCode [.timeout, .sensor, .hold, .overflowRisk] x

/-- Sides of a passage (03 section 3.1). -/
def sideCode (x : Side) : Nat := listCode [.above, .below] x

/-- Commanded outputs of a head (03 section 3.1). -/
def Aspect.code (x : Aspect) : Nat := listCode [.red, .redGreen, .green, .redFlash, .dark] x

/-- Blocking reasons (R81). -/
def BlockReason.code (x : BlockReason) : Nat :=
  listCode [.autoOff, .notService, .queueFull, .noVessel, .journalFull] x

/-- Kinds of move (R102). -/
def MoveKind.code (x : MoveKind) : Nat := listCode [.entry, .shift, .exit] x

/-- Phases of a move (R102). -/
def MovePhase.code (x : MovePhase) : Nat := listCode [.prep, .equalise, .opened, .await, .close] x

/-- Transit states (R102). -/
def TransitState.code (x : TransitState) : Nat := listCode [.queued, .moving, .waitingNext, .settled] x

/-- States of an overdue timer (06 section 6.1). -/
def Overdue.code : Overdue → Nat
  | .stopped => 0
  | .running _ _ => 1
  | .paused _ _ => 2

/-- Origins of a transit (R91). -/
def Origin.code (x : Origin) : Nat := listCode [.call, .plan] x

/-- Service modes (R170). -/
def Mode.code (x : Mode) : Nat := listCode [.config, .service, .safeHold] x

/-- The holder: CONSOLE, REGION, NONE (R170). -/
def holderCode (x : Option Station) : Nat := listCode [some .console, some .region, none] x

/-- Hold causes (R170, R174). -/
def HoldCause.code : HoldCause → Nat
  | .estop => 0
  | .emergencyStop _ => 1
  | .gateFault _ => 2
  | .sluiceFault _ => 3
  | .authorityLost => 4
  | .warmReset => 5

/-- Causes of SERVICE_MODE: the three requests, then the causes of SAFE_HOLD in their list (R171). -/
def ModeCause.code : ModeCause → Nat
  | .leaveConfig => 0
  | .enterConfig => 1
  | .resumeService => 2
  | .hold c => 3 + c.code

/-- Causes of AUTHORITY (R178). -/
def AuthorityCause.code (x : AuthorityCause) : Nat := listCode [.claim, .release, .silence, .reset] x

/-- Outcomes of a pending claim, as the rules that end one name them in turn (R181, R182). -/
def ClaimOutcome.code (x : ClaimOutcome) : Nat := listCode [.granted, .denied, .lapsed] x

/-- Causes of VESSEL_WITHDRAWN (R79). -/
def WithdrawCause.code (x : WithdrawCause) : Nat := listCode [.withdraw, .gauge, .abandoned] x

/-- Causes of TRANSIT_CANCELLED (R96, R97). -/
def CancelCause.code (x : CancelCause) : Nat := listCode [.cancel, .withdrawn] x

/-- Wait conditions of a transit, in the order of their table (R126). -/
def WaitCondition.code : WaitCondition → Nat
  | .entryBlocked => 0
  | .destinationHeld => 1
  | .cascadeBlocked _ => 2
  | .slotBusy _ => 3
  | .operation _ _ _ => 4
  | .gatePending => 5
  | .gateTravel => 6
  | .confirmation _ _ => 7
  | .hold => 8
  | .none => 9

/-- Causes of QUEUE_EMPTY (R99). -/
def EmptyCause.code (x : EmptyCause) : Nat := listCode [.started, .cancel, .withdrawn] x

/-- Causes of SENSOR_FAILED (R7). -/
def BadPollCause.code (x : BadPollCause) : Nat := listCode [.timeout, .faultReply] x

/-- Causes of ACCOUNT_BLOCKED (R149). -/
def BlockedCause.code (x : BlockedCause) : Nat := listCode [.hold, .limit] x

/-- Status of an account (R149). -/
def AccountStatus.code (x : AccountStatus) : Nat := listCode [.opened, .blocked] x

/-- Kinds of quote result (R165). -/
def QuoteKind.code (x : QuoteKind) : Nat := listCode [.charge, .withdrawn, .noCharge] x

/-- States of a quote slot (08 section 8.6). -/
def QuoteSlot.code : QuoteSlot → Nat
  | .free => 0
  | .pending _ => 1
  | .resolved _ _ _ => 2

/-- Auto calling: ON, OFF (05 section 5.1). -/
def autoCallCode (on : Bool) : Nat := listCode [true, false] on

/-- The ESTOP level: ASSERTED, RELEASED (R170). -/
def estopCode (asserted : Bool) : Nat := listCode [true, false] asserted

/-- An indication of a head: lit, dark (03 section 3.1). -/
def indicationCode (lit : Bool) : Nat := listCode [true, false] lit

/-- The agreement of a head: AGREE, DISAGREE (03 section 3.1). -/
def agreementCode (agrees : Bool) : Nat := listCode [true, false] agrees

/-- The fault of a head: CLEAR, FAULT (03 section 3.1). -/
def headFaultCode (fault : Bool) : Nat := listCode [false, true] fault

/-- Subscriptions (R198, R199). -/
def Sub.code (x : Sub) : Nat := listCode [.off, .each, .once] x

/-- Class codes of notices (10 section 10.6). -/
def NoticeClass.code (x : NoticeClass) : Nat :=
  listCode [.transit, .water, .passage, .lamp, .authority, .account, .service, .level] x

/-! ## Payloads (R195, R202) -/

/-- The eight subscriptions of a port, in class-code order (R199). -/
def Subs.toList (s : Subs) : List Sub :=
  [s.transit, s.water, s.passage, s.lamp, s.authority, s.account, s.service, s.level]

/-- An optional field: a presence byte, then its value bytes, 0 where it is absent (R202). -/
def optionBytes {α : Type} (value : α → List Byte) (absent : List Byte) : Option α → List Byte
  | none => leBytes 1 0 ++ absent
  | some x => leBytes 1 1 ++ value x

/-- The fields of an account in the order of the table of R148 (DEDUCED, log 9); the balance and the commitment are signed, in 8 bytes (R202), and the limit is optional, since account 0 has none. -/
def AccountReport.fieldBytes (r : AccountReport) : List Byte :=
  leBytes 2 r.number ++ leBytes 4 r.opening ++ leSigned r.balance ++ optionBytes (leBytes 4) (leBytes 4 0) r.limit
    ++ leBytes 1 (bit r.hold) ++ leSigned r.commitment ++ leBytes 1 r.status.code

/-- The result fields of READ_ACCOUNT: the account, then its headroom, a difference of balances (R168; DEDUCED, log 9). -/
def AccountReport.bytes (r : AccountReport) : List Byte :=
  r.fieldBytes ++ optionBytes leSigned (leSigned 0) r.headroom

/-- The fields that a refusal names: none, a mark (R202), or a mark with the cause CREDIT_HELD, whose size no layout gives (R94); `rest` stands for the fields whose layout is free (log 9). -/
def Detail.bytes (rest : List Byte) : Detail → List Byte
  | .nothing => []
  | .mark m => markBytes m
  | .creditHeld m => markBytes m ++ rest.take (Config.partBytes - 13)
  | _ => rest.take Config.partBytes

/-- The result fields of a reply part. Where the manual gives the layout (10 sections 10.5 and 10.8) or sizes every field (a mark, a balance, a commitment, a field that stands in one of those layouts: DEDUCED, log 9), they are these bytes; where it does not, they are free, within the 237 bytes of a part (log 9). DEDUCED (log 48): the mark JOURNAL of a QUOTE answered from the journal (R164) has no byte of its own, since R202 makes the 56 bytes of the entry the result of a QUOTE answered from a slot or from the journal, so that the two answers read alike on the line. -/
def Body.bytes (b : Body) : List Byte :=
  match b with
  | .empty => []
  | .refused d => d.bytes (Config.resultBytes b)
  | .announced arrival position => leBytes 2 arrival ++ leBytes 1 position
  | .amended position credit => leBytes 1 position ++ leBytes 1 (bit credit)
  | .autoCall on => leBytes 1 (autoCallCode on)
  | .clock day sec => leBytes 2 day ++ leBytes 3 sec
  | .tariff number => leBytes 1 number
  | .vessel r => r.bytes
  | .confirmed phase none => leBytes 1 phase.code
  | .confirmed phase (some (volume, total)) => leBytes 1 phase.code ++ leBytes 4 volume ++ leBytes 4 total
  | .taken entries held nextSeq => leBytes 1 held ++ leBytes 2 nextSeq ++ entries.flatMap JournalEntry.bytes
  | .takenMore entries => entries.flatMap JournalEntry.bytes
  | .quoted (.charge e) => e.bytes
  | .journal e => e.bytes
  | .account r => r.bytes
  | .accountState a standing =>
    AccountReport.fieldBytes
      { number := a.number, opening := a.opening, balance := a.balance, limit := some a.limit, hold := a.hold,
        commitment := a.commitment, status := standing, headroom := none }
  | .payment balance standing seq => leSigned balance ++ leBytes 1 standing.code ++ leBytes 2 seq
  | .subscriptions s => s.toList.flatMap (fun x => leBytes 1 x.code)
  | other => (Config.resultBytes other).take Config.partBytes

/-- The fields of a notice behind its class code: none where it carries none, in the order in which its rule names them where the manual sizes each of them (R202; DEDUCED, log 9), and free where it does not, within the 240 bytes of one frame (log 9). The former state of VESSEL_WITHDRAWN is WAITING 0 or CALLED 1, and its transit id, which no layout lets stand at 0 for absent, has a presence byte (R202). -/
def Notice.fieldBytes (n : Notice) : List Byte :=
  match n with
  | .accountBlocked number balance limit cause =>
    leBytes 2 number ++ leSigned balance ++ leBytes 4 limit ++ leBytes 1 cause.code
  | .accountOpened number balance limit => leBytes 2 number ++ leSigned balance ++ leBytes 4 limit
  | .vesselAnnounced mark dir cls arrival position =>
    markBytes mark ++ leBytes 1 (directionCode dir) ++ leBytes 1 (classCode cls) ++ leBytes 2 arrival
      ++ leBytes 1 position
  | .vesselAmended mark length beam deadweight cls account =>
    markBytes mark ++ leBytes 2 length ++ leBytes 1 beam ++ leBytes 2 deadweight ++ leBytes 1 (classCode cls)
      ++ leBytes 2 account
  | .vesselWithdrawn mark cause transit =>
    markBytes mark ++ leBytes 1 cause.code ++ leBytes 1 (bit transit.isSome)
      ++ optionBytes (leBytes 1) (leBytes 1 0) transit
  | .queueEmpty id cause => leBytes 1 id ++ leBytes 1 cause.code
  | .flightIdle stamp => stampBytes stamp
  | .transitEnded id => leBytes 1 id
  | .authority holder previous cause outcome =>
    leBytes 1 (holderCode holder) ++ leBytes 1 (holderCode previous) ++ leBytes 1 cause.code
      ++ optionBytes (fun x => leBytes 1 x.code) (leBytes 1 0) outcome
  | .tariffChanged current previous => leBytes 1 current ++ leBytes 1 previous
  | .estopReleased => []
  | .quoteReady mark _ _ => markBytes mark ++ (Config.noticeBytes n).take (Config.maxPayload - 14)
  | other => (Config.noticeBytes other).take (Config.maxPayload - 1)

/-- The payload of a notice: the class code, then its fields (10 section 10.6). -/
def Notice.bytes (n : Notice) : List Byte := byteOf n.cls.code :: n.fieldBytes

/-- An outgoing frame on the wire: a reply part behind its status, part index and number of parts, a busy answer, or a notice with tag 0 (R189, R195, R196). -/
def OutFrame.bytes (st : Station) : OutFrame → List Byte
  | .reply tag kind status part parts body =>
    frameBytes (stationCode st) tag kind (byteOf status.code :: byteOf part :: byteOf parts :: body.bytes)
  | .busy tag kind => frameBytes (stationCode st) tag kind [byteOf Status.busy.code, byteOf 0, byteOf 1]
  | .notice n => frameBytes (stationCode st) 0 n.code n.bytes

/-- The number of bytes of the frame on the line that have been sent (R188). -/
def Port.bytesSent (p : Port) : Nat := p.sent / 100

end Sys2Proof.Machine
end

