-- ==== Sys2Proof/Machine/Tick.lean ====
section
/-! DEFINITION. What happens while no command waits: a millisecond of the timebase, and the expiry of a timer that has run out (log 2). -/

namespace Sys2Proof.Machine

/-- A timer has run out. -/
def expired (t : Timer) : Bool := decide (t = some 0)

/-- A timer one millisecond on. -/
def countDown (t : Timer) : Timer := t.map (fun n => n - 1)

/-- A command where a timer has run out. -/
def whenExpired (t : Timer) (c : Instr) : Option Instr := if expired t then some c else none

/-! ## Which timer has run out (log 2) -/

/-- The expired timers of the Level Monitor (01). -/
def LevelMonitor.due (lm : LevelMonitor) : Option Instr :=
  (whenExpired (lm.poll.map Poll.left) .pollTimeout).or (whenExpired lm.scanTimer .scanTick)

/-- The expired timers of a passage (02). -/
def Passage.due (k : Nat) (p : Passage) : Option Instr :=
  (whenExpired p.gate.timer (.gateTravelTimeout k)).or
    ((whenExpired p.sluice.moveTimer (.sluiceMoveTimeout k)).or
      ((whenExpired p.sluice.rampTimer (.rampTimerExpiry k)).or
        (whenExpired (p.slot.bind Op.timer) (.equaliseTimeout k))))

/-- The expired timers of a passage's heads (03). -/
def HeadPair.due (k : Nat) (h : HeadPair) : Option Instr :=
  (whenExpired h.above.timer (.lampAgreementExpiry k .above)).or
    (whenExpired h.below.timer (.lampAgreementExpiry k .below))

/-- The overdue timer of a transit has run out (R112). -/
def Transit.due (t : Transit) : Option Instr :=
  match t.overdue with
  | .running _ 0 => some (.overdueTimerExpiry t.id)
  | .running _ (_ + 1) => none
  | .stopped => none
  | .paused _ _ => none

/-- The discard timer of a quote slot has run out (R166). -/
def QuoteSlot.due (n : Nat) (q : QuoteSlot) : Option Instr :=
  match q with
  | .resolved _ _ 0 => some (.quoteDiscardExpiry n)
  | .resolved _ _ (_ + 1) => none
  | .free => none
  | .pending _ => none

/-- The last byte of the frame on a port's line has been sent (R197; log 13). -/
def Port.lastByteSent (st : Station) (p : Port) : Bool :=
  match p.line with
  | some f => decide ((f.bytes st).length ≤ p.bytesSent)
  | none => false

/-- The expired timers of a port, then the end of the frame on its line (10). -/
def Port.due (st : Station) (p : Port) : Option Instr :=
  ((whenExpired p.gap (.gapTimerExpiry st)).or (whenExpired p.silence (.silenceExpiry st))).or
    (if p.lastByteSent st then some (.frameSent st) else none)

/-- The expiry of the first timer, in a fixed order, that has run out; while RESET is held only the day clock's second elapses (log 2, log 7). -/
def State.due (s : State) : Option Instr :=
  if s.pins.reset then whenExpired s.toll.clock.second .dayClockSecond
  else
    s.lm.due.or
      (([0, 1, 2, 3].findSome? (fun k => (s.passage k).due k)).or
        (([0, 1, 2, 3].findSome? (fun k => (s.lamps.get k).due k)).or
          ((s.table.findSome? Transit.due).or
            (([0, 1, 2, 3].findSome? (fun i => (s.acc.slots.get i).due (i + 1))).or
              ((whenExpired s.toll.clock.second .dayClockSecond).or
                (([Station.console, .region, .toll].findSome? (fun st => (s.ports.get st).due st)).or
                  (whenExpired s.auth.claim .handoverTimerExpiry)))))))

/-! ## One millisecond (log 2) -/

/-- The timers of the Level Monitor one millisecond on. -/
def LevelMonitor.countDown (lm : LevelMonitor) : LevelMonitor :=
  { lm with poll := lm.poll.map (fun q => { q with left := q.left - 1 }),
            scanTimer := Sys2Proof.Machine.countDown lm.scanTimer }

/-- The timers of a passage one millisecond on. -/
def Passage.countDown (p : Passage) : Passage :=
  { p with
    gate := { p.gate with timer := Sys2Proof.Machine.countDown p.gate.timer }
    sluice := { p.sluice with moveTimer := Sys2Proof.Machine.countDown p.sluice.moveTimer,
                              rampTimer := Sys2Proof.Machine.countDown p.sluice.rampTimer }
    slot := p.slot.map (fun o => { o with timer := Sys2Proof.Machine.countDown o.timer }) }

/-- The timer of a head one millisecond on. -/
def Head.countDown (h : Head) : Head := { h with timer := Sys2Proof.Machine.countDown h.timer }

/-- The overdue timer of a transit one millisecond on. -/
def Transit.countDown (t : Transit) : Transit :=
  match t.overdue with
  | .running limit left => { t with overdue := .running limit (left - 1) }
  | .stopped => t
  | .paused _ _ => t

/-- The discard timer of a quote slot one millisecond on. -/
def QuoteSlot.countDown : QuoteSlot → QuoteSlot
  | .resolved m r left => .resolved m r (left - 1)
  | .free => .free
  | .pending m => .pending m

/-- The timers of a port and the frame on its line one millisecond on (log 13). -/
def Port.countDown (p : Port) : Port :=
  { p with gap := Sys2Proof.Machine.countDown p.gap, silence := Sys2Proof.Machine.countDown p.silence,
           sent := if p.line.isSome then p.sent + Config.lineRate else p.sent }

/-- The day clock's second one millisecond on. -/
def Toll.countDown (t : Toll) : Toll :=
  { t with clock := { t.clock with second := Sys2Proof.Machine.countDown t.clock.second } }

/-- Every running timer one millisecond on; while RESET is held only the day clock's second (log 2, log 7). -/
def State.countDown (s : State) : State :=
  if s.pins.reset then { s with toll := s.toll.countDown }
  else
    { s with
      lm := s.lm.countDown
      pcu := { s.pcu with passages := s.pcu.passages.map Passage.countDown }
      lamps := s.lamps.map (HeadPair.map Head.countDown)
      table := s.table.map Transit.countDown
      toll := s.toll.countDown
      acc := { s.acc with slots := s.acc.slots.map QuoteSlot.countDown }
      auth := { s.auth with claim := Sys2Proof.Machine.countDown s.auth.claim }
      ports := s.ports.map Port.countDown }

/-- What the part does while no command waits: an expired timer's event, else a millisecond passes (log 2). -/
def State.idle (s : State) : Result :=
  match s.due with
  | some c => exec c s
  | none => .next s.countDown

end Sys2Proof.Machine
end

