-- ==== Sys2Proof/Safety.lean ====
section
/-! DEFINITION. The vocabulary of the claims: which command is a request, when a request reaches its block, what the work that follows in an event leaves alone, and the invariants that every step keeps. -/

namespace Sys2Proof.Machine

/-! ## Requests -/

/-- The header and the kind code of a command that is a request with a kind, the counts of its lists taken into its length check (R193, R194). -/
def requestOf : Instr → Option (Hdr × Nat)
  | .powerOn => none
  | .resetAsserted => none
  | .resetReleased => none
  | .estopAsserted => none
  | .estopReleased => none
  | .scanTick => none
  | .pollValueReply _ _ => none
  | .pollFaultReply _ => none
  | .pollTimeout => none
  | .gateLimitChange _ _ _ => none
  | .gateTravelTimeout _ => none
  | .sluiceFeedback _ _ => none
  | .sluiceMoveTimeout _ => none
  | .rampTimerExpiry _ => none
  | .equaliseTimeout _ => none
  | .lampIndicationChange _ _ _ _ => none
  | .lampAgreementExpiry _ _ => none
  | .overdueTimerExpiry _ => none
  | .quoteDiscardExpiry _ => none
  | .dayClockSecond => none
  | .silenceExpiry _ => none
  | .handoverTimerExpiry => none
  | .gapTimerExpiry _ => none
  | .frameDiscarded _ _ => none
  | .idleFrame _ => none
  | .busyAnswer _ _ _ _ => none
  | .frameSent _ => none
  | .status h => some (h, 1)
  | .readLevels h => some (h, 2)
  | .readPassage h _ => some (h, 3)
  | .readVessel h _ => some (h, 4)
  | .readTransit h _ => some (h, 5)
  | .readAccount h _ => some (h, 6)
  | .announce h _ _ _ => some (h, 7)
  | .amend h _ _ => some (h, 8)
  | .withdraw h _ => some (h, 9)
  | .autoCall h _ => some (h, 10)
  | .planTransit h _ _ => some (h, 11)
  | .cancelTransit h _ => some (h, 12)
  | .confirm h _ _ => some (h, 13)
  | .abandonTransit h _ => some (h, 14)
  | .retryLevel h _ => some (h, 15)
  | .manualGate h _ _ => some (h, 16)
  | .manualSluice h _ _ => some (h, 17)
  | .visualEqual h _ _ => some (h, 18)
  | .emergencyStop h => some (h, 19)
  | .resumeService h => some (h, 20)
  | .claim h => some (h, 21)
  | .release h => some (h, 22)
  | .deny h => some (h, 23)
  | .enterConfig h => some (h, 24)
  | .leaveConfig h => some (h, 25)
  | .restart h => some (h, 26)
  | .setFlight h f => some ({ h with lengthOk := h.lengthOk && f.wf }, 27)
  | .setSensor h _ => some (h, 28)
  | .setTiming h _ => some (h, 29)
  | .setClock h _ _ => some (h, 30)
  | .setTariff h _ => some (h, 31)
  | .openAccount h _ _ _ => some (h, 32)
  | .setCredit h _ _ => some (h, 33)
  | .holdAccount h _ => some (h, 34)
  | .releaseAccount h _ => some (h, 35)
  | .closeAccount h _ => some (h, 36)
  | .postPayment h _ _ => some (h, 37)
  | .takeCharges h _ => some (h, 38)
  | .quote h _ => some (h, 39)
  | .subscribe h l => some ({ h with lengthOk := h.lengthOk && subscribeWf l }, 40)
  | .byteReceived _ _ => none
  | .badKindRequest _ _ _ => none

/-- The row of the opcode table that a request stands for, with the header of its frame (R194). -/
def Request.command (h : Hdr) : Request → Instr
  | .status => .status h
  | .readLevels => .readLevels h
  | .readPassage k => .readPassage h k
  | .readVessel sel => .readVessel h sel
  | .readTransit id => .readTransit h id
  | .readAccount sel => .readAccount h sel
  | .announce mark dir p => .announce h mark dir p
  | .amend mark p => .amend h mark p
  | .withdraw mark => .withdraw h mark
  | .autoCall on => .autoCall h on
  | .planTransit dir marks => .planTransit h dir marks
  | .cancelTransit id => .cancelTransit h id
  | .confirm id kind => .confirm h id kind
  | .abandonTransit id => .abandonTransit h id
  | .retryLevel k => .retryLevel h k
  | .manualGate k action => .manualGate h k action
  | .manualSluice k position => .manualSluice h k position
  | .visualEqual k action => .visualEqual h k action
  | .emergencyStop => .emergencyStop h
  | .resumeService => .resumeService h
  | .claim => .claim h
  | .release => .release h
  | .deny => .deny h
  | .enterConfig => .enterConfig h
  | .leaveConfig => .leaveConfig h
  | .restart => .restart h
  | .setFlight f => .setFlight h f
  | .setSensor f => .setSensor h f
  | .setTiming t => .setTiming h t
  | .setClock day sec => .setClock h day sec
  | .setTariff t => .setTariff h t
  | .openAccount number credit limit => .openAccount h number credit limit
  | .setCredit number limit => .setCredit h number limit
  | .holdAccount number => .holdAccount h number
  | .releaseAccount number => .releaseAccount h number
  | .closeAccount number => .closeAccount h number
  | .postPayment number amount => .postPayment h number amount
  | .takeCharges n => .takeCharges h n
  | .quote mark => .quote h mark
  | .subscribe settings => .subscribe h settings

/-- A request frame arrives in a running part on a port that is IDLE (R185, R195). -/
def State.reaches (s : State) (h : Hdr) : Prop :=
  s.pins.reset = false ∧ (s.ports.get h.port).reply = none ∧ (s.ports.get h.port).busy = none

/-- A request reaches its block: RESET is not held, its port is IDLE, its length is one its kind allows, and its station has the right (R193). -/
def State.takes (s : State) (h : Hdr) (kind : Nat) : Prop :=
  s.reaches h ∧ h.lengthOk = true ∧ s.admits kind h.port = true

/-- The state in which a request has been answered: the reply in progress on its port, and every transmitter whose line is free started (R195, R197). -/
def State.replied (h : Hdr) (kind : Nat) (a : Answer) (s : State) : State := (s.respond h.port h.tag kind a).pump

/-- The state with the frame of a request taken as a good frame (R191). -/
def State.heard (h : Hdr) (s : State) : State := s.goodFrame h.port

/-- A command carries a request as a frame on the line of a port: whole, or by the last byte of a frame whose others the receiver holds (R189, R191). -/
def State.carries (s : State) (c : Instr) (r : Request) : Prop :=
  (∃ st tag kind payload, c = .busyAnswer st tag kind payload ∧ readRequest kind payload = some r)
    ∨ ∃ st b p frame, c = .byteReceived st b
      ∧ Port.receive (stationCode st) b (s.ports.get st) = (p, some frame)
      ∧ readRequest (frameFields frame).2.1 (frameFields frame).2.2 = some r

/-- A command's outcome is a next state with a property. -/
def Answers (r : Host.Outcome State Fault Refusal) (p : State → Prop) : Prop := ∃ t, r = .next t ∧ p t

/-- Bytes taken one after another on a port. -/
def feedBytes (st : Station) (bytes : List Byte) (s : State) : State :=
  bytes.foldl (fun t b => match exec (.byteReceived st b) t with
    | .next u => u
    | .fault _ => t
    | .refused _ => t) s

/-! ## What the work that follows in an event leaves alone -/

/-- What a notice cannot change on a port: all but its queue, its lost-notice flag and its subscriptions; and by how much the queue is over its 16 places (R198, R200). -/
def Port.outer (p : Port) : Port × Nat :=
  ({ p with queue := [], lost := false, subs := Subs.command }, p.queue.length - Config.noticeDepth)

/-- The parts of the state that the work following in an event leaves alone: the inputs, the settings, the Level Monitor, the Toll Calculator, the Authority Controller, the journal and the quote slots, every account but for its commitment, the arrival counter, the ports but for the notices they hold, and the queue of commands. -/
structure Outer where
  pins : Pins
  flight : Flight
  timing : Timing
  lm : LevelMonitor
  toll : Toll
  auth : Authority
  pending : List Instr
  counter : Nat
  journal : List JournalEntry
  nextSeq : Nat
  slots : Quad QuoteSlot
  accountZero : Account
  accounts : List Account
  console : Port × Nat
  region : Port × Nat
  tollPort : Port × Nat
  deriving DecidableEq, Repr

/-- Those parts of a state. -/
def State.outer (s : State) : Outer :=
  { pins := s.pins, flight := s.flight, timing := s.timing, lm := s.lm, toll := s.toll, auth := s.auth,
    pending := s.pending, counter := s.reg.counter, journal := s.acc.journal, nextSeq := s.acc.nextSeq,
    slots := s.acc.slots, accountZero := s.acc.counter.warm, accounts := s.acc.table.map Account.warm,
    console := s.ports.console.outer, region := s.ports.region.outer, tollPort := s.ports.toll.outer }

/-- A port that holds nothing. -/
def Port.blank : Port :=
  { assembled := [], gap := none, silence := none, heard := false, reply := none, busy := none, queue := [],
    lost := false, subs := Subs.command, line := none, sent := 0 }

/-- The outer parts of a state but for its ports. -/
def State.steady (s : State) : Outer :=
  { s.outer with console := (Port.blank, 0), region := (Port.blank, 0), tollPort := (Port.blank, 0) }

/-- A port but for its notices, its subscriptions and the frame on its line: what neither a notice nor the transmitter changes. -/
def Port.quiet (p : Port) : Port := { p with queue := [], lost := false, subs := Subs.command, line := none, sent := 0 }

/-- The ports but for their notices, subscriptions and lines. -/
def State.quietPorts (s : State) : Ports := s.ports.map Port.quiet

/-! ## Invariants -/

/-- The Authority Controller is as its rules keep it: a hold cause exactly in SAFE_HOLD (R174), some holder outside SAFE_HOLD (R183), a pending claim only while CONSOLE holds authority (R180), and no holder TOLL (R170). -/
def Authority.legal (a : Authority) : Prop :=
  (a.mode = .safeHold ↔ a.holdCause.isSome = true) ∧ (a.holder = none → a.mode = .safeHold)
    ∧ (a.claim.isSome = true → a.holder = some .console) ∧ a.holder ≠ some .toll

/-- No notice queue holds more than its 16 places (R200). -/
def State.noticesFit (s : State) : Prop := ∀ st, (s.ports.get st).queue.length ≤ Config.noticeDepth

/-- Journal entries are numbered consecutively, modulo 65536, from a number (R158). -/
def numberedFrom : Nat → List JournalEntry → Prop
  | _, [] => True
  | n, e :: rest => e.seq = n ∧ numberedFrom ((n + 1) % 65536) rest

/-- The journal's entries are numbered consecutively up to the next sequence number (R158). -/
def Accounts.sequenced (a : Accounts) : Prop :=
  a.nextSeq < 65536 ∧ ∃ n, n < 65536 ∧ numberedFrom n a.journal ∧ a.nextSeq = (n + a.journal.length) % 65536

/-- The flight has no chamber count or one of 1..3 (R204). -/
def State.countLegal (s : State) : Prop := ∀ n, s.flight.n = some n → 1 ≤ n ∧ n ≤ 3

/-- No chamber has the gate above it and the gate below it OPENING together (R42). -/
def State.gatesApart (s : State) : Prop :=
  ∀ k, k + 1 ≤ s.count → ¬ ((s.passage k).gate.state = .opening ∧ (s.passage (k + 1)).gate.state = .opening)

/-! ## Transits, holders and claims -/

/-- The chambers a transit holds and its current move are what its state allows in a flight of n chambers (R102, R103, R106). -/
def Transit.shaped (n : Nat) (t : Transit) : Prop :=
  match t.state, t.move, t.held with
  | .queued, none, [] => True
  | .waitingNext, none, [c] => 1 ≤ c ∧ c ≤ n
  | .moving, some m, [c] =>
    (1 ≤ c ∧ c ≤ n)
      ∧ ((m.kind = .entry ∧ m.destination = c) ∨ (m.kind = .exit ∧ m.source = c ∧ m.phase ≠ .close))
  | .moving, some m, [c, d] =>
    (1 ≤ c ∧ c ≤ n ∧ 1 ≤ d ∧ d ≤ n) ∧ m.kind = .shift ∧ m.source = c ∧ m.destination = d
  | .settled, some m, [c] => (1 ≤ c ∧ c ≤ n) ∧ m.kind = .exit ∧ m.phase = .close
  | _, _, _ => False

/-- The number of berths in unsettled transits (R158). -/
def State.unsettledBerths (s : State) : Nat :=
  ((s.table.filter Transit.unsettled).map (fun t => t.berths.length)).sum

/-- The transit queue and the transit table are as their rules keep them: ids apart (R91), at most four queued and exactly the queued ones (R93), each record in the shape of its state (R103), one holder for a chamber and one direction for all holders (R104), no transit in CONFIG (R173), a called vessel in the berth list of its transit (R92), and the reservation covering the berths of the unsettled transits (R158). -/
def State.transitsLegal (s : State) : Prop :=
  (s.table.map Transit.id).Nodup
    ∧ (s.arb.queue.Nodup ∧ s.arb.queue.length ≤ Config.transitQueueSize
      ∧ ∀ id, id ∈ s.arb.queue ↔ ∃ t ∈ s.table, t.id = id ∧ t.state = .queued)
    ∧ (∀ t ∈ s.table, t.shaped s.count)
    ∧ (s.table.flatMap Transit.held).Nodup
    ∧ (∀ t ∈ s.table, ∀ u ∈ s.table, t.held ≠ [] → u.held ≠ [] → t.dir = u.dir)
    ∧ (s.auth.mode = .config → s.table = [])
    ∧ (∀ v ∈ s.reg.entries, ∀ id estimate, v.state = .called id estimate →
        ∃ t ∈ s.table, t.id = id ∧ t.state ≠ .settled ∧ ∃ b ∈ t.berths, b.mark = v.mark)
    ∧ s.unsettledBerths ≤ s.acc.reserved

/-- A chamber's claim shows a passage exactly where the operation of that passage holds its claims and the chamber is adjacent: claims are held all together or not at all, and a chamber has one claimant (R29). -/
def State.claimsLegal (s : State) : Prop :=
  ∀ c k, 1 ≤ c → c ≤ 3 →
    (s.pcu.claims.get c = some k ↔
      k < 4 ∧ c ∈ s.chambersOf k ∧ ∃ o, (s.passage k).slot = some o ∧ o.claimsHeld = true)

/-- What SAFE_HOLD entry makes of a passage (R41): a travel stopped and the pending order gone; an operation in RAMPING or FLOWING, or stalled by TIMEOUT, STALLED with HOLD, its timers stopped and its sluice being lowered to 0 unless it is in FAULT or SHUT. -/
def Passage.heldAs (p q : Passage) : Prop :=
  q.gate =
      (if p.gate.state.travelling then { p.gate with state := .stopped, drive := .off, timer := none, pendingOpen := none }
      else { p.gate with pendingOpen := none })
    ∧ ∀ o, p.slot = some o → (o.phase = .ramping ∨ o.phase = .flowing ∨ (o.phase = .stalled ∧ o.stall = some .timeout)) →
      q.slot = some { o with phase := .stalled, stall := some .hold, timer := none }
      ∧ ((p.sluice.state = .fault ∨ p.sluice.state = .shut) → q.sluice = { p.sluice with rampTimer := none })
      ∧ ((p.sluice.state = .moving ∨ (p.sluice.state = .set ∧ p.sluice.position ≠ 0)) →
        q.sluice =
          { p.sluice with state := .moving, commanded := some 0, rampTimer := none, driven := true, stepHeld := false,
                          moveTimer := some (p.sluice.moveLimit * 1000) })

/-- The other passages of the chambers beside a passage in use are fully closed (R42). -/
def State.neighboursClosed (s : State) (k : Nat) : Prop :=
  ∀ j, j ≤ s.count → (j + 1 = k ∨ k + 1 = j) →
    (s.passage j).gate.state = .closed ∧ (s.passage j).sluice.state = .shut

end Sys2Proof.Machine
end

