-- ==== Sys2Proof/Certificates/Slice0/Obligations.lean ====
section
/-! DEFINITION. The statements about the model, for the provers. A request that reaches its block is one of `State.takes` or, where only its arrival matters, `State.reaches`; `State.heard` is the state with its frame taken as good, and `State.replied` the state with its reply in progress and the transmitters started. -/

open Sys2Proof Sys2Proof.Machine

/-! ## The machine, reset, the inputs that stop it -/

/-- A step takes the command at the front of the queue on the rest of the queue (00 section 4.4). -/
def Obligations.StepRunsFront : Prop :=
  ∀ (c : Instr) (rest : List Instr) (s : State),
    step { s with pending := c :: rest } = exec c { s with pending := rest }

/-- The model's choice (log 2): with no command waiting, a step takes the event of a timer that has run out, or lets a millisecond pass; it always answers a next state. Which timer is taken first where several have run out together is the model's order (log 2); while RESET is held only the day clock's second runs (log 7). A millisecond takes one from every running timer and sends 11.52 bytes of the frame on each line, whose end is an event once its last byte is sent (log 13). -/
def Obligations.IdleStepCompletes : Prop :=
  (∀ s : State, s.pending = [] →
    (∀ c, s.due = some c → step s = exec c s) ∧ (s.due = none → step s = .next s.countDown) ∧ ∃ t, step s = .next t)
  ∧ (∀ s : State,
      let lapsed (t : Timer) (c : Instr) : List Instr := if t = some 0 then [c] else []
      let sent (st : Station) : List Instr := match (s.ports.get st).line with
        | some f => if (f.bytes st).length * 100 ≤ (s.ports.get st).sent then [.frameSent st] else []
        | none => []
      let overdue (t : Transit) : List Instr := match t.overdue with
        | .running _ left => if left = 0 then [.overdueTimerExpiry t.id] else []
        | .stopped => []
        | .paused _ _ => []
      let discard (n : Nat) : List Instr := match s.acc.slots.get (n - 1) with
        | .resolved _ _ left => if left = 0 then [.quoteDiscardExpiry n] else []
        | .free => []
        | .pending _ => []
      (s.pins.reset = true → s.due = (lapsed s.toll.clock.second .dayClockSecond).head?)
      ∧ (s.pins.reset = false → s.due = List.head? (
          lapsed (s.lm.poll.map Poll.left) .pollTimeout ++ lapsed s.lm.scanTimer .scanTick
            ++ [0, 1, 2, 3].flatMap (fun k => lapsed (s.passage k).gate.timer (.gateTravelTimeout k)
                ++ lapsed (s.passage k).sluice.moveTimer (.sluiceMoveTimeout k)
                ++ lapsed (s.passage k).sluice.rampTimer (.rampTimerExpiry k)
                ++ lapsed ((s.passage k).slot.bind Op.timer) (.equaliseTimeout k))
            ++ [0, 1, 2, 3].flatMap (fun k => lapsed (s.head k .above).timer (.lampAgreementExpiry k .above)
                ++ lapsed (s.head k .below).timer (.lampAgreementExpiry k .below))
            ++ s.table.flatMap overdue ++ [1, 2, 3, 4].flatMap discard
            ++ lapsed s.toll.clock.second .dayClockSecond
            ++ [Station.console, .region, .toll].flatMap (fun st => lapsed (s.ports.get st).gap (.gapTimerExpiry st)
                ++ lapsed (s.ports.get st).silence (.silenceExpiry st) ++ sent st)
            ++ lapsed s.auth.claim .handoverTimerExpiry)))
  ∧ (∀ s : State,
      let less (t : Timer) : Timer := t.map (fun n => n - 1)
      let toll : Toll := { s.toll with clock := { s.toll.clock with second := less s.toll.clock.second } }
      (s.pins.reset = true → s.countDown = { s with toll := toll })
      ∧ (s.pins.reset = false → s.countDown = { s with
          toll := toll
          lm := { s.lm with
            poll := s.lm.poll.map (fun q => { q with left := q.left - 1 }), scanTimer := less s.lm.scanTimer }
          pcu := { s.pcu with passages := s.pcu.passages.map (fun p => { p with
            gate := { p.gate with timer := less p.gate.timer }
            sluice := { p.sluice with moveTimer := less p.sluice.moveTimer, rampTimer := less p.sluice.rampTimer }
            slot := p.slot.map (fun o => { o with timer := less o.timer }) }) }
          lamps := s.lamps.map (fun x => { above := { x.above with timer := less x.above.timer }
                                           below := { x.below with timer := less x.below.timer } })
          table := s.table.map (fun t => { t with overdue := match t.overdue with
            | .running limit left => .running limit (left - 1)
            | .stopped => .stopped
            | .paused limit left => .paused limit left })
          acc := { s.acc with slots := s.acc.slots.map (fun q => match q with
            | .resolved m r left => .resolved m r (left - 1)
            | .free => .free
            | .pending m => .pending m) }
          auth := { s.auth with claim := less s.auth.claim }
          ports := s.ports.map (fun p => { p with
            gap := less p.gap, silence := less p.silence
            sent := if p.line.isSome then p.sent + 1152 else p.sent }) }))

/-- A command leaves the queue of commands alone. Every step keeps the transit queue and the transit table legal (R91, R93, R103 to R106): ids apart, the queue exactly the queued transits and at most four, each transit's chambers and move as its state allows, one holder for a chamber, one direction for all holders, no transit in CONFIG, a called vessel in the berth list of its transit, and the reservation covering the berths of the unsettled transits. A legal table keeps within its 8 slots (R102). -/
def Obligations.CommandQueueKept : Prop :=
  (∀ (c : Instr) (s t : State), exec c s = .next t → t.pending = s.pending)
  ∧ (∀ s t : State, s.countLegal → s.transitsLegal → step s = .next t → t.transitsLegal)
  ∧ (∀ s : State, s.countLegal → s.transitsLegal → s.table.length ≤ 8)

/-- The records at power-on, as the chapters give them (R18, R101, R129, R132, R148, R169, R187, R203, R207). The state after reset meets the invariants that the statements below keep. That ESTOP stands RELEASED, with every other input at rest, so that the mode is CONFIG with no hold cause (R187 reads the input), and that no command waits, are the model's choices for State.reset (log 4, log 35). -/
def Obligations.ResetValues : Prop :=
  (State.reset.auth = { mode := .config, holder := some .console, claim := none, holdCause := none, estop := false }
    ∧ State.reset.arb =
        { autoOn := false, lastDir := .down, runCount := 0, reason := .autoOff, queue := [], lastId := 0, idle := true }
    ∧ (State.reset.lm.w, State.reset.lm.eqTol, State.reset.lm.rippleLim, State.reset.lm.stillCount) = (8, 30, 60, 3)
    ∧ (∀ p, (State.reset.lm.sensors.get p).zero = 0 ∧ (State.reset.lm.sensors.get p).span = 20000
        ∧ (State.reset.lm.sensors.get p).status = .good ∧ (State.reset.lm.sensors.get p).level.stale = true)
    ∧ State.reset.flight.n = none
    ∧ State.reset.timing =
        { scan := 500, gateLimit := 120, slowPct := 80, sluiceTarget := 6, rampInterval := 10, moveLimit := 30,
          eqLimit := 600, entryLimit := 900, exitLimit := 900, silence := 10, handover := 30, discard := 120,
          runLimit := 2, skipLimit := 3 }
    ∧ State.reset.reg = { entries := [], up := [], down := [], counter := 0 } ∧ State.reset.table = []
    ∧ State.reset.toll.current = State.reset.toll.previous ∧ State.reset.toll.current.number = 0
    ∧ State.reset.toll.current.tariff.allowance = 10 ∧ State.reset.toll.current.tariff.cargo.cap = 10000000
    ∧ State.reset.toll.clock = { isSet := false, day := 0, sec := 0, second := none }
    ∧ State.reset.acc.table = [] ∧ State.reset.acc.journal = [] ∧ State.reset.acc.nextSeq = 0
    ∧ State.reset.acc.reserved = 0 ∧ (∀ n, State.reset.acc.slots.get n = .free)
    ∧ (∀ st, (State.reset.ports.get st).queue = [] ∧ (State.reset.ports.get st).heard = false
        ∧ (State.reset.ports.get st).silence = some 10000 ∧ (State.reset.ports.get st).line = none)
    ∧ State.reset.pending = [])
  ∧ (State.reset.auth.legal ∧ State.reset.noticesFit ∧ State.reset.acc.sequenced ∧ State.reset.countLegal
      ∧ State.reset.gatesApart ∧ State.reset.transitsLegal ∧ State.reset.claimsLegal)

/-- POWER_ON with ESTOP released leaves every record at its power-on value, the passages, the heads and ESTOP read from the inputs as they stand (R50, R60, R187, R209). With ESTOP asserted the part stands in SAFE_HOLD with cause ESTOP and tells ports A and B so (R175, R187). That the inputs and the queue of commands outlive POWER_ON, the chamber records before SET_FLIGHT, and the copies in force before a first copy point are the model's choices (log 4, log 5, log 6, log 8). A passage read from its inputs (R20, R50): the gate CLOSED with only the closed limit, OPEN with only the open limit and STOPPED otherwise, the sluice SHUT at position 0 and SET at 1 to 8, no drive, no timer, no cause, no order, the slot free and the permit absent; no chamber is claimed. A feedback code above 8 leaves a free position (log 16). Every head is driven RED_FLASH with its fault CLEAR and its count 0, its agreement timer running where its indications do not agree (R60). -/
def Obligations.PowerOnLeaves : Prop :=
  (∀ (t : Timing) (x : Pins) (k : Nat), k < 4 →
    let limits := x.limits.get k
    let code := x.feedback.get k
    let q := (Pcu.fromPins t x).passages.get k
    q = Passage.fromPins t limits code
    ∧ q.gate =
        { state := if limits = { openLimit := false, closedLimit := true } then .closed
            else if limits = { openLimit := true, closedLimit := false } then .opened else .stopped
          position := if limits = { openLimit := false, closedLimit := true } then .atClosed
            else if limits = { openLimit := true, closedLimit := false } then .atOpen else .between
          cause := none, lastTravel := 0, limit := t.gateLimit, slowPct := t.slowPct, timer := none
          pendingOpen := none, drive := .off }
    ∧ q.sluice =
        { position := q.sluice.position, state := if code = 0 then .shut else .set, commanded := none, cause := none
          target := t.sluiceTarget, rampInterval := t.rampInterval, moveLimit := t.moveLimit, moveTimer := none
          rampTimer := none, driven := false, stepHeld := false }
    ∧ (code ≤ 8 → q.sluice.position = code) ∧ q.sluice.position ≤ 8
    ∧ q.slot = none ∧ q.slotFreeOwed = false ∧ q.permit = false
    ∧ (∀ c, (Pcu.fromPins t x).claims.get c = none) ∧ (Pcu.fromPins t x).nextOrder = 0)
  ∧ ∀ s : State,
    (s.pins.estop = false →
      exec .powerOn s = .next
        { State.reset with
          pins := s.pins, pcu := Pcu.fromPins Timing.powerOn s.pins, lamps := s.pins.lamps.map HeadPair.powerOn,
          pending := s.pending })
    ∧ (s.pins.estop = true →
      Answers (exec .powerOn s) (fun t =>
        t.auth = { mode := .safeHold, holder := some .console, claim := none, holdCause := some .estop, estop := true }
        ∧ t.pins = s.pins ∧ t.pending = s.pending ∧ t.flight = State.reset.flight ∧ t.timing = State.reset.timing
        ∧ t.lm = State.reset.lm ∧ t.reg = State.reset.reg ∧ t.table = [] ∧ t.toll = State.reset.toll
        ∧ t.acc = State.reset.acc ∧ t.pcu = Pcu.fromPins Timing.powerOn s.pins
        ∧ t.ports.console.line = some (.notice (.serviceMode .safeHold .config (.hold .estop)))
        ∧ t.ports.region.line = some (.notice (.serviceMode .safeHold .config (.hold .estop)))
        ∧ t.ports.toll = State.reset.ports.toll))
  ∧ (∀ x : LampPins,
      let head (red green : Bool) : Head :=
        { output := .redFlash, red := red, green := green, fault := false, faultCount := 0
          timer := if red = true ∧ green = false then none else some 2000 }
      HeadPair.powerOn x = { above := head x.aboveRed x.aboveGreen, below := head x.belowRed x.belowGreen })

/-- RESET_ASSERTED drops every gate and sluice drive and drives the heads in use RED_FLASH; nothing else changes until the input is released (R185). The warm reset (R185): RESET_RELEASED keeps the settings, the window settings and the calibrations among them, the tariffs, the clock, the accounts, account 0 with its balance, and the journal, empties the register, the transit queue and the transit table, takes every commitment, frees the quote slots, reads the passages from their inputs, ends the poll in flight, makes every sensor GOOD with its runs 0, its window empty and its record STALE, zeroes every still counter, commands the heads, sets every port afresh, its two notices first on ports A and B, and leaves SAFE_HOLD with holder CONSOLE (R19, R51, R60, R80, R101, R128, R147, R169, R185, R203). A RESTART's reply that leaves port A makes the same reset. That RESET_RELEASED acts whatever the input stood at, the copies in force that it leaves in the passages, and the records it sets afresh where a new N still waits for its poll to end (R16), are the model's choices (log 6, log 8, log 49). -/
def Obligations.ResetInput : Prop :=
  (∀ s : State,
      Answers (exec .resetAsserted s) (fun t =>
        t = { s with pins := { s.pins with reset := true }, pcu := t.pcu, lamps := t.lamps }
        ∧ t.pcu.claims = s.pcu.claims ∧ t.pcu.nextOrder = s.pcu.nextOrder
        ∧ (∀ k, t.passage k = { s.passage k with
            gate := { (s.passage k).gate with drive := .off }, sluice := { (s.passage k).sluice with driven := false } })
        ∧ (∀ k side, k < 4 →
            ((s.inUse k = true → (t.head k side).output = .redFlash)
            ∧ (s.inUse k = false → t.head k side = s.head k side)))))
  ∧ (∀ s : State,
      Answers (exec .resetReleased s) (fun t =>
        t.pins = { s.pins with reset := false } ∧ t.flight = s.flight ∧ t.timing = s.timing ∧ t.toll = s.toll
        ∧ t.pending = s.pending ∧ t.table = [] ∧ t.agenda = [] ∧ t.callDue = false
        ∧ t.auth = { mode := .safeHold, holder := some .console, claim := none, holdCause := some .warmReset,
                     estop := s.pins.estop }
        ∧ t.reg = { entries := [], up := [], down := [], counter := 0 }
        ∧ t.arb = { autoOn := false, lastDir := .down, runCount := 0, reason := .autoOff, queue := [], lastId := 0,
                    idle := true }
        ∧ t.pcu = Pcu.fromPins s.timing s.pins
        ∧ t.acc.journal = s.acc.journal ∧ t.acc.nextSeq = s.acc.nextSeq ∧ t.acc.reserved = 0
        ∧ (∀ n, t.acc.slots.get n = .free)
        ∧ t.acc.table = s.acc.table.map (fun a => { a with commitment := 0 })
        ∧ t.acc.counter = { s.acc.counter with commitment := 0 }
        ∧ t.lm = { s.lm with
            sensors := t.lm.sensors, still := t.lm.still, poll := none, scanTimer := some s.timing.scan
            tickHeld := false, polledN := s.flight.n, reformDue := false }
        ∧ (∀ p, t.lm.sensors.get p = { s.lm.sensors.get p with
            status := .good, badRun := 0, goodRun := 0
            accum := { count := 0, sum := 0, least := none, greatest := none, clamped := false }
            level :=
              if s.lm.reformDue then
                { mean := 0, min := 0, max := 0, ripple := 0, clamped := false, stale := true, count := 0 }
              else { (s.lm.sensors.get p).level with stale := true } })
        ∧ (∀ k, t.lm.still.get k = 0 ∧ (1 ≤ s.lm.stillCount → t.equal k = false))
        ∧ (∀ k side, k < 4 → (t.head k side).output = (if s.inUse k then .redFlash else .dark)
            ∧ (t.head k side).fault = false ∧ (t.head k side).faultCount = (s.head k side).faultCount)
        ∧ (∀ st, st = .console ∨ st = .region → t.ports.get st = { Port.fresh s.timing.silence Subs.command with
            line := some (.notice (.serviceMode .safeHold s.auth.mode (.hold .warmReset)))
            queue := [.authority (some .console) s.auth.holder .reset none] })
        ∧ t.ports.toll = Port.fresh s.timing.silence Subs.tollDefault)
      ∧ (s.pins.reset = false → restartReply s.ports.console.line = true →
          exec (.frameSent .console) s = exec .resetReleased s))
  ∧ (∀ (silence : Nat) (subs : Subs), Port.fresh silence subs =
      { assembled := [], gap := none, silence := some (silence * 1000), heard := false, reply := none, busy := none
        queue := [], lost := false, subs := subs, line := none, sent := 0 })
  ∧ Subs.command =
      { transit := .each, water := .each, passage := .each, lamp := .each, authority := .each, account := .each
        service := .each, level := .off }
  ∧ Subs.tollDefault =
      { transit := .each, water := .off, passage := .off, lamp := .off, authority := .off, account := .each
        service := .off, level := .off }
  ∧ (∀ line, restartReply line = true ↔ ∃ tag part parts body, line = some (.reply tag 26 .ok part parts body))

/-- While RESET is held the part takes nothing but POWER_ON, the release and the day clock's second (R185): an input that changes is recorded at its own line and nothing else changes, and any other command changes nothing. That a changed input is recorded at its line is the model's reading (log 7). -/
def Obligations.HeldResetTakesNothing : Prop :=
  (∀ (c : Instr) (s t : State), s.pins.reset = true → c ≠ .powerOn → c ≠ .resetAsserted → c ≠ .resetReleased →
      c ≠ .dayClockSecond → exec c s = .next t → { t with pins := s.pins } = s)
  ∧ (∀ s : State, s.pins.reset = true →
      let record (pins : Pins) : Host.Outcome State Fault Refusal := .next { s with pins := pins }
      exec .estopAsserted s = record { s.pins with estop := true }
      ∧ exec .estopReleased s = record { s.pins with estop := false }
      ∧ ∀ k, k < 4 →
        (∀ o c, exec (.gateLimitChange k o c) s =
          record { s.pins with limits := s.pins.limits.set k { openLimit := o, closedLimit := c } })
        ∧ (∀ code, exec (.sluiceFeedback k code) s = record { s.pins with feedback := s.pins.feedback.set k code })
        ∧ ∀ red green,
          let lamps := s.pins.lamps.get k
          exec (.lampIndicationChange k .above red green) s =
              record { s.pins with lamps := s.pins.lamps.set k { lamps with aboveRed := red, aboveGreen := green } }
          ∧ exec (.lampIndicationChange k .below red green) s =
              record { s.pins with lamps := s.pins.lamps.set k { lamps with belowRed := red, belowGreen := green } })
  ∧ (∀ (c : Instr) (s t : State), s.pins.reset = true → c ≠ .powerOn → c ≠ .resetAsserted → c ≠ .resetReleased →
      c ≠ .dayClockSecond → c ≠ .estopAsserted → c ≠ .estopReleased → (∀ k o x, c ≠ .gateLimitChange k o x) →
      (∀ k code, c ≠ .sluiceFeedback k code) → (∀ k side red green, c ≠ .lampIndicationChange k side red green) →
      exec c s = .next t → t = s)

/-- ESTOP_ASSERTED records the level and brings SAFE_HOLD with cause ESTOP, holder and claim kept; in SAFE_HOLD the cause stays. On entry every gate in travel stops, every pending order goes, and every operation that runs or is stalled by TIMEOUT is STALLED with HOLD and its sluice lowered (R41). ESTOP_RELEASED records the level and leaves the mode (R174, R175). Nothing else of the outer parts changes but the notices and the frames on the lines. What entering SAFE_HOLD does, by any cause: nothing where it stands; else the mode and its cause, each passage in use held in turn, a running overdue timer paused (R121), the blocking reason NOT_SERVICE unless it is AUTO_OFF (R83), the aspects (R53), and SERVICE_MODE with the cause (R171), what the blocks hand on behind it (the model's choice, log 20). -/
def Obligations.EstopInput : Prop :=
  (∀ (s : State) (c : HoldCause),
    (s.auth.mode = .safeHold → s.enterSafeHold c = s)
    ∧ (s.auth.mode ≠ .safeHold →
      let held : State := (List.range (s.count + 1)).foldl (fun x k => State.holdPassage k x)
        { s with auth := { s.auth with mode := .safeHold, holdCause := some c } }
      s.enterSafeHold c = State.raise (.serviceMode .safeHold s.auth.mode (.hold c)) (State.deriveAspects { held with
        table := s.table.map (fun t => { t with overdue := match t.overdue with
          | .running limit left => .paused limit left
          | .stopped => .stopped
          | .paused limit left => .paused limit left })
        arb := { s.arb with reason := if s.arb.reason = .autoOff then .autoOff else .notService } })))
  ∧ (∀ (s : State) (k : Nat), k < 4 →
    let g := (s.passage k).gate
    let still : State :=
      if g.state = .opening ∨ g.state = .closing then
        State.push (.passageChanged k) (State.setGate k (fun x =>
          { x with state := .stopped, drive := .off, timer := none, pendingOpen := none }) s)
      else State.setGate k (fun x => { x with pendingOpen := none }) s
    ((s.passage k).slot = none → s.holdPassage k = still)
    ∧ ∀ o, (s.passage k).slot = some o →
      let running := o.phase = .ramping ∨ o.phase = .flowing ∨ (o.phase = .stalled ∧ o.stall = some .timeout)
      let x := (s.passage k).sluice
      let stalled : State := State.setPassage k (fun p => { p with
        slot := some { o with phase := .stalled, stall := some .hold, timer := none }
        sluice := { p.sluice with rampTimer := none } }) still
      (running → x.state = .fault ∨ x.state = .shut → s.holdPassage k = stalled)
      ∧ (running → x.state ≠ .fault → x.state ≠ .shut → s.holdPassage k = State.lower k 0 stalled)
      ∧ (¬ running → s.holdPassage k = still))
  ∧ ∀ s : State, s.pins.reset = false →
    (s.auth.estop = false →
      Answers (exec .estopAsserted s) (fun t =>
        t.steady = { s.steady with
          pins := { s.pins with estop := true }
          auth := { s.auth with mode := .safeHold, estop := true, holdCause :=
            if s.auth.mode = .safeHold then s.auth.holdCause else some .estop } }
        ∧ t.quietPorts = s.quietPorts
        ∧ (s.auth.mode ≠ .safeHold → ∀ k, k ≤ s.count → k < 4 → (s.passage k).heldAs (t.passage k))))
    ∧ (s.auth.estop = true →
      Answers (exec .estopReleased s) (fun t =>
        t.steady = { s.steady with
          pins := { s.pins with estop := false }, auth := { s.auth with estop := false } }
        ∧ t.quietPorts = s.quietPorts))

/-- A gate or sluice whose timer has run out in a travel or a move is in FAULT with its drive dropped, and brings SAFE_HOLD with its cause, unless SAFE_HOLD stands (R23, R27, R174); every passage in use, its own with the fault, is then as SAFE_HOLD entry leaves it (R41). -/
def Obligations.DeviceFaultHolds : Prop :=
  ∀ (s : State) (k : Nat), s.pins.reset = false → k < 4 → s.auth.mode ≠ .safeHold →
    ((s.passage k).gate.timer = some 0 → (s.passage k).gate.state.travelling = true →
      Answers (exec (.gateTravelTimeout k) s) (fun t =>
        t.steady = { s.steady with auth := { s.auth with mode := .safeHold, holdCause := some (.gateFault k) } }
        ∧ t.quietPorts = s.quietPorts
        ∧ ∀ j, j ≤ s.count → j < 4 →
            (if j = k then { s.passage k with gate := { (s.passage k).gate with
                state := .fault, cause := some .travelTimeout, drive := .off, timer := none } }
              else s.passage j).heldAs (t.passage j)))
    ∧ ((s.passage k).sluice.moveTimer = some 0 → (s.passage k).sluice.state = .moving →
      Answers (exec (.sluiceMoveTimeout k) s) (fun t =>
        t.steady = { s.steady with auth := { s.auth with mode := .safeHold, holdCause := some (.sluiceFault k) } }
        ∧ t.quietPorts = s.quietPorts
        ∧ ∀ j, j ≤ s.count → j < 4 →
            (if j = k then { s.passage k with sluice := { (s.passage k).sluice with
                state := .fault, cause := some .moveTimeout, commanded := none, moveTimer := none, driven := false } }
              else s.passage j).heldAs (t.passage j)))

/-- The model's stops (log 16): an event of a passage above 3 or of a quote slot outside 1..4 is a fault, since the part has no such line or record. Of a passage the part has, every such event is taken. -/
def Obligations.StopsOutsideThePart : Prop :=
  ∀ (s : State) (k : Nat),
    (4 ≤ k →
      (∀ o c, exec (.gateLimitChange k o c) s = .fault .noSuchLine) ∧ exec (.gateTravelTimeout k) s = .fault .noSuchLine
      ∧ (∀ p, exec (.sluiceFeedback k p) s = .fault .noSuchLine)
      ∧ exec (.sluiceMoveTimeout k) s = .fault .noSuchLine ∧ exec (.rampTimerExpiry k) s = .fault .noSuchLine
      ∧ exec (.equaliseTimeout k) s = .fault .noSuchLine
      ∧ (∀ side r g, exec (.lampIndicationChange k side r g) s = .fault .noSuchLine)
      ∧ ∀ side, exec (.lampAgreementExpiry k side) s = .fault .noSuchLine)
    ∧ (k = 0 ∨ 4 < k → exec (.quoteDiscardExpiry k) s = .fault .noSuchLine)
    ∧ (k < 4 →
      (∀ o c, ∃ t, exec (.gateLimitChange k o c) s = .next t) ∧ (∃ t, exec (.gateTravelTimeout k) s = .next t)
      ∧ (∀ p, ∃ t, exec (.sluiceFeedback k p) s = .next t)
      ∧ (∃ t, exec (.sluiceMoveTimeout k) s = .next t) ∧ (∃ t, exec (.rampTimerExpiry k) s = .next t)
      ∧ (∃ t, exec (.equaliseTimeout k) s = .next t)
      ∧ (∀ side r g, ∃ t, exec (.lampIndicationChange k side r g) s = .next t)
      ∧ (∀ side, ∃ t, exec (.lampAgreementExpiry k side) s = .next t)
      ∧ ∃ t, exec (.quoteDiscardExpiry (k + 1)) s = .next t)

/-! ## Level Monitor (01) -/

/-- A SCAN_TICK, its timer run out, restarts the timer with the scan interval and starts a round with a poll of pound 0, or is held while a round is in progress (R2, R3). A tick that meets a timer with time left, or none, changes nothing (log 3). -/
def Obligations.ScanTickStartsRound : Prop :=
  (∀ s : State, s.lm.scanTimer ≠ some 0 → exec .scanTick s = .next s)
  ∧ ∀ s : State, s.pins.reset = false → s.lm.scanTimer = some 0 →
    (s.lm.poll = none → exec .scanTick s =
      .next { s with lm := { s.lm with scanTimer := some s.timing.scan, poll := some { pound := 0, left := 20 } } })
    ∧ (s.lm.poll.isSome = true → exec .scanTick s =
      .next { s with lm := { s.lm with scanTimer := some s.timing.scan, tickHeld := true } })

/-- A value reply of the pound polled (R3, R4, R6, R8, R9): the runs are counted; the sample of a GOOD sensor joins its window, which closes at W samples; a FAILED sensor becomes GOOD at its eighth good poll. The next pound is polled, or the round ends (R2). A window that closes evaluates the still counter of each passage beside the pound: one more, up to 15, where both sensors are GOOD, neither record is STALE, the means lie within the tolerance and both ripples within the limit, and 0 otherwise (R10); EQUAL is a still counter at or above still_count (R11). Nothing else of the Level Monitor changes. What follows in the event: a window that closes raises LEVEL_WINDOW with the new record and the EQUAL status of the passages beside the pound (R9), hands EQUAL on for each of them on which it has become true (R11), and has each of them examined (R31); a sensor that becomes GOOD is reported by SENSOR_GOOD and has the passages beside it examined (R6, R31); any other good poll is followed by nothing of its own. While a new N waits for the end of the poll in flight, the reply ends the round (R16): its result is discarded, no run is counted and nothing is reported, every sensor record is set as at power-on but for its calibration, every still counter is 0, and polling goes on with the new N, a held tick starting its round at once, which is the model's choice (log 15). A reply with no poll in flight, from another address, or with a raw code above 4095, which is read as one that cannot be read (DEDUCED, log 26), is discarded (R3). -/
def Obligations.GoodPollTaken : Prop :=
  (∀ (s : State) (k : Nat), s.equal k = true ↔ s.lm.stillCount ≤ s.lm.still.get k)
  ∧ (∀ (s : State) (p raw left : Nat), s.pins.reset = false → s.lm.poll = some { pound := p, left := left } →
      raw ≤ 4095 → s.lm.reformDue = true →
      let afresh (x : Sensor) : Sensor := { x with
        status := .good, badRun := 0, goodRun := 0
        accum := { count := 0, sum := 0, least := none, greatest := none, clamped := false }
        level := { mean := 0, min := 0, max := 0, ripple := 0, clamped := false, stale := true, count := 0 } }
      exec (.pollValueReply (p + 1) raw) s = .next (State.finish { s with lm := { s.lm with
        sensors := s.lm.sensors.map afresh, still := { zero := 0, one := 0, two := 0, three := 0 }
        poll := if s.lm.tickHeld then some { pound := 0, left := 20 } else none
        tickHeld := false, polledN := s.flight.n, reformDue := false } }))
  ∧ (∀ (s : State) (address raw : Nat), s.pins.reset = false →
      s.lm.poll = none ∨ (∃ q, s.lm.poll = some q ∧ address ≠ q.pound + 1) ∨ 4095 < raw →
      exec (.pollValueReply address raw) s = .next s.finish)
  ∧ ∀ (s : State) (p raw left : Nat), s.pins.reset = false → s.lm.poll = some { pound := p, left := left } → p ≤ 4 →
    raw ≤ 4095 → s.lm.reformDue = false →
    let old := s.lm.sensors.get p
    let exact : Int := old.zero + (((raw * old.span + 2048) / 4096 : Nat) : Int)
    let level := (max 0 (min 20000 exact)).toNat
    let clamped := decide (exact < 0) || decide (20000 < exact) || decide (raw = 4095)
    let runs := { old with badRun := 0, goodRun := min 8 (old.goodRun + 1) }
    let acc : Accum :=
      { count := old.accum.count + 1, sum := old.accum.sum + level, least := some (min level (old.accum.least.getD level)),
        greatest := some (max level (old.accum.greatest.getD level)), clamped := old.accum.clamped || clamped }
    Answers (exec (.pollValueReply (p + 1) raw) s) (fun t =>
      (old.status = .good → acc.count < s.lm.w → t.lm.sensors.get p = { runs with accum := acc } ∧ t.lm.still = s.lm.still)
      ∧ (old.status = .good → s.lm.w ≤ acc.count →
          t.lm.sensors.get p = { runs with
            accum := { count := 0, sum := 0, least := none, greatest := none, clamped := false }
            level :=
              { mean := (acc.sum + s.lm.w / 2) / s.lm.w, min := acc.least.getD 0, max := acc.greatest.getD 0,
                ripple := acc.greatest.getD 0 - acc.least.getD 0, clamped := acc.clamped, stale := false,
                count := (old.level.count + 1) % 65536 } })
      ∧ (old.status = .good → s.lm.w ≤ acc.count → ∀ k, k < 4 → (k + 1 = p ∨ (k = p ∧ p ≤ s.count)) →
          let above := t.lm.sensors.get k
          let below := t.lm.sensors.get (k + 1)
          let holds := above.status = .good ∧ below.status = .good ∧ above.level.stale = false ∧ below.level.stale = false
            ∧ above.level.mean ≤ below.level.mean + s.lm.eqTol ∧ below.level.mean ≤ above.level.mean + s.lm.eqTol
            ∧ above.level.ripple ≤ s.lm.rippleLim ∧ below.level.ripple ≤ s.lm.rippleLim
          (holds → t.lm.still.get k = min 15 (s.lm.still.get k + 1)) ∧ (¬ holds → t.lm.still.get k = 0))
      ∧ (s.count < p → p < 4 → t.lm.still.get p = s.lm.still.get p)
      ∧ (old.status = .failed →
          t.lm.sensors.get p = { runs with status := if runs.goodRun = 8 then .good else .failed }
          ∧ t.lm.still = s.lm.still)
      ∧ (∀ q, q ≤ 4 → q ≠ p → t.lm.sensors.get q = s.lm.sensors.get q)
      ∧ (p < s.lm.polledN.getD 3 + 1 → t.lm.poll = some { pound := p + 1, left := 20 } ∧ t.lm.tickHeld = s.lm.tickHeld)
      ∧ (s.lm.polledN.getD 3 + 1 ≤ p → t.lm.tickHeld = false
          ∧ t.lm.poll = if s.lm.tickHeld then some { pound := 0, left := 20 } else none)
      ∧ { t.lm with sensors := s.lm.sensors, still := s.lm.still, poll := s.lm.poll, tickHeld := s.lm.tickHeld } = s.lm
      ∧ (∀ k, k < 4 → k ≠ p → k + 1 ≠ p → t.lm.still.get k = s.lm.still.get k)
      ∧ { t.steady with lm := s.lm } = s.steady ∧ t.quietPorts = s.quietPorts)
    ∧ (let beside := (if 1 ≤ p then [p - 1] else []) ++ (if p ≤ s.count then [p] else [])
       let last := decide (s.lm.polledN.getD 3 + 1 ≤ p)
       let becomes (x : Sensor) : State := { s with lm := { s.lm with sensors := s.lm.sensors.set p x } }
       let leaves (x : State) : Prop :=
         exec (.pollValueReply (p + 1) raw) s = .next (State.finish { x with lm := { x.lm with
           poll := if last then (if s.lm.tickHeld then some { pound := 0, left := 20 } else none)
             else some { pound := p + 1, left := 20 }
           tickHeld := !last && s.lm.tickHeld } })
       (old.status = .good → acc.count < s.lm.w → leaves (becomes { runs with accum := acc }))
       ∧ (old.status = .good → s.lm.w ≤ acc.count →
         let record : LevelRecord :=
           { mean := (acc.sum + s.lm.w / 2) / s.lm.w, min := acc.least.getD 0, max := acc.greatest.getD 0,
             ripple := acc.greatest.getD 0 - acc.least.getD 0, clamped := acc.clamped, stale := false,
             count := (old.level.count + 1) % 65536 }
         let closed := becomes { runs with
           accum := { count := 0, sum := 0, least := none, greatest := none, clamped := false }, level := record }
         let holds (k : Nat) : Bool :=
           let above := closed.lm.sensors.get k
           let below := closed.lm.sensors.get (k + 1)
           decide (above.status = .good ∧ below.status = .good ∧ above.level.stale = false ∧ below.level.stale = false
             ∧ above.level.mean ≤ below.level.mean + s.lm.eqTol ∧ below.level.mean ≤ above.level.mean + s.lm.eqTol
             ∧ above.level.ripple ≤ s.lm.rippleLim ∧ below.level.ripple ≤ s.lm.rippleLim)
         let still := beside.foldl (fun x k => x.set k (if holds k then min 15 (x.get k + 1) else 0)) s.lm.still
         let risen := beside.filter (fun k =>
           decide (s.lm.still.get k < s.lm.stillCount ∧ s.lm.stillCount ≤ still.get k))
         leaves (State.pushAll (risen.map Task.equalTrue ++ beside.map Task.examine)
           (State.raise (.levelWindow p record (beside.map (fun k => (k, decide (s.lm.stillCount ≤ still.get k)))))
             { closed with lm := { closed.lm with still := still } })))
       ∧ (old.status = .failed → runs.goodRun = 8 → leaves (State.pushAll (beside.map Task.examine)
           (State.raise (.sensorGood p) (becomes { runs with status := .good }))))
       ∧ (old.status = .failed → runs.goodRun ≠ 8 → leaves (becomes runs)))

/-- A poll that ends bad, by a fault reply of the address polled or by the poll timeout that has run out (R3, R5, R7): the runs are counted, and a GOOD sensor whose bad run reaches 3 becomes FAILED, its window emptied, its record STALE and the still counters beside it 0; otherwise its window goes on. The next pound is polled, or the round ends (R2). Nothing else of the Level Monitor changes. A sensor that fails is reported, and the operation of each passage in use beside its pound then acts on it (R35): in RAMPING or FLOWING, or STALLED by TIMEOUT, it becomes STALLED with SENSOR and its sluice is lowered to 0, but a MANUAL one in RAMPING or FLOWING under a permit goes on; in WAITING it is examined; any other is unchanged. A timeout that meets a poll with time left has not run out, since a reply that was taken first ended its poll (R3; the model's reading, log 3): nothing but the work left over from before follows. While a new N waits for the end of the poll in flight, either of them ends the round as a value reply does then (R16): the result discarded, no run counted, no sensor failed or reported, every sensor record as at power-on but for its calibration, every still counter 0, and polling with the new N, a held tick starting its round at once, which is the model's choice (log 15). A fault reply with no poll in flight or from another address is discarded (R3). -/
def Obligations.BadPollTaken : Prop :=
  (∀ (s : State) (p left : Nat), s.pins.reset = false → s.lm.poll = some { pound := p, left := left + 1 } →
    exec .pollTimeout s = .next s.finish)
  ∧ (∀ (s : State) (p left : Nat) (c : Instr), s.pins.reset = false → s.lm.poll = some { pound := p, left := left } →
      s.lm.reformDue = true → (c = .pollFaultReply (p + 1) ∨ (c = .pollTimeout ∧ left = 0)) →
      let afresh (x : Sensor) : Sensor := { x with
        status := .good, badRun := 0, goodRun := 0
        accum := { count := 0, sum := 0, least := none, greatest := none, clamped := false }
        level := { mean := 0, min := 0, max := 0, ripple := 0, clamped := false, stale := true, count := 0 } }
      exec c s = .next (State.finish { s with lm := { s.lm with
        sensors := s.lm.sensors.map afresh, still := { zero := 0, one := 0, two := 0, three := 0 }
        poll := if s.lm.tickHeld then some { pound := 0, left := 20 } else none
        tickHeld := false, polledN := s.flight.n, reformDue := false } }))
  ∧ (∀ (s : State) (address : Nat), s.pins.reset = false →
      (s.lm.poll = none → exec .pollTimeout s = .next s.finish)
      ∧ (s.lm.poll = none ∨ (∃ q, s.lm.poll = some q ∧ address ≠ q.pound + 1) →
          exec (.pollFaultReply address) s = .next s.finish))
  ∧ ∀ (s : State) (p left : Nat) (c : Instr), s.pins.reset = false → s.lm.poll = some { pound := p, left := left } →
    p ≤ 4 → s.lm.reformDue = false → (c = .pollFaultReply (p + 1) ∨ (c = .pollTimeout ∧ left = 0)) →
    let old := s.lm.sensors.get p
    let runs := { old with goodRun := 0, badRun := min 3 (old.badRun + 1) }
    Answers (exec c s) (fun t =>
      (old.status = .good ∧ runs.badRun = 3 →
          t.lm.sensors.get p = { runs with
            status := .failed, accum := { count := 0, sum := 0, least := none, greatest := none, clamped := false },
            level := { old.level with stale := true } }
          ∧ (1 ≤ p → p - 1 < 4 → t.lm.still.get (p - 1) = 0) ∧ (p ≤ s.count → p < 4 → t.lm.still.get p = 0))
      ∧ (¬ (old.status = .good ∧ runs.badRun = 3) → t.lm.sensors.get p = runs ∧ t.lm.still = s.lm.still)
      ∧ (p < s.lm.polledN.getD 3 + 1 → t.lm.poll = some { pound := p + 1, left := 20 } ∧ t.lm.tickHeld = s.lm.tickHeld)
      ∧ (s.lm.polledN.getD 3 + 1 ≤ p → t.lm.tickHeld = false
          ∧ t.lm.poll = if s.lm.tickHeld then some { pound := 0, left := 20 } else none)
      ∧ (∀ q, q ≤ 4 → q ≠ p → t.lm.sensors.get q = s.lm.sensors.get q)
      ∧ { t.lm with sensors := s.lm.sensors, still := s.lm.still, poll := s.lm.poll, tickHeld := s.lm.tickHeld } = s.lm
      ∧ (∀ k, k < 4 → k ≠ p → k + 1 ≠ p → t.lm.still.get k = s.lm.still.get k)
      ∧ { t.steady with lm := s.lm } = s.steady ∧ t.quietPorts = s.quietPorts)
  ∧ (∀ (s : State) (p left : Nat) (c : Instr), s.pins.reset = false → s.lm.poll = some { pound := p, left := left } →
      p ≤ 4 → s.lm.reformDue = false → (c = .pollFaultReply (p + 1) ∨ (c = .pollTimeout ∧ left = 0)) →
      (s.lm.sensors.get p).status = .good → 2 ≤ (s.lm.sensors.get p).badRun →
      let old := s.lm.sensors.get p
      let beside := (if 1 ≤ p then [p - 1] else []) ++ (if p ≤ s.count then [p] else [])
      let cause : BadPollCause := if c = .pollTimeout then .timeout else .faultReply
      let record : Sensor := { old with
        goodRun := 0, badRun := 3, status := .failed
        accum := { count := 0, sum := 0, least := none, greatest := none, clamped := false }
        level := { old.level with stale := true } }
      let failed : State := State.raise (.sensorFailed p cause) { s with lm := { s.lm with
        sensors := s.lm.sensors.set p record, still := beside.foldl (fun x k => x.set k 0) s.lm.still } }
      let stalled : State := beside.foldl (fun x k => State.sensorStall k x) failed
      let last := decide (s.lm.polledN.getD 3 + 1 ≤ p)
      exec c s = .next (State.finish { stalled with lm := { failed.lm with
        poll := if last then (if s.lm.tickHeld then some { pound := 0, left := 20 } else none)
          else some { pound := p + 1, left := 20 }
        tickHeld := !last && s.lm.tickHeld } }))
  ∧ (∀ (s : State) (k : Nat), k < 4 →
      ((s.passage k).slot = none → s.sensorStall k = s)
      ∧ ∀ o, (s.passage k).slot = some o →
        let exempt := o.purpose = .manual ∧ (s.passage k).permit = true
        let running := o.phase = .ramping ∨ o.phase = .flowing
        let timedOut := o.phase = .stalled ∧ o.stall = some .timeout
        ((running ∧ ¬ exempt) ∨ timedOut → s.sensorStall k = State.lower k 0
          (State.setPassage k (fun p => { p with slot := some { o with phase := .stalled, stall := some .sensor } }) s))
        ∧ (running → exempt → s.sensorStall k = s)
        ∧ (o.phase = .waiting → s.sensorStall k = State.push (.examine k) s)
        ∧ (¬ running → ¬ timedOut → o.phase ≠ .waiting → s.sensorStall k = s))

/-- The receiving pound and the overflow check of a passage (R13), and the answer to a prediction request (R12): NO_DATA with the STALE pounds, or the predicted level, both means, the receiving pound and the check. The predicted level is the reach's mean at the ends of the flight, and between two chambers their area-weighted mean, the half carried exactly and floored once. -/
def Obligations.ReceivingPound : Prop :=
  ∀ (s : State) (k hStar : Nat),
    let above := (s.sensor k).level.mean
    let below := (s.sensor (k + 1)).level.mean
    ((s.sensor k).level.stale = true ∨ (s.sensor (k + 1)).level.stale = true →
        ∃ l, s.predict k = .noData l ∧ ∀ p, p ∈ l ↔ (p = k ∨ p = k + 1) ∧ (s.sensor p).level.stale = true)
    ∧ ((s.sensor k).level.stale = false → (s.sensor (k + 1)).level.stale = false →
        s.predict k = .level (s.predictedLevel k) above below (s.receiver k)
          (s.overflowPasses (s.receiver k) (s.predictedLevel k)))
    ∧ (above < below → s.receiver k = some k) ∧ (below < above → s.receiver k = some (k + 1))
    ∧ (above = below → s.receiver k = none)
    ∧ s.overflowPasses none hStar = true
    ∧ (∀ c, 1 ≤ c → c ≤ s.count → (s.overflowPasses (some c) hStar = false ↔ (s.chamber c).hMax < hStar))
    ∧ s.overflowPasses (some 0) hStar = true ∧ s.overflowPasses (some (s.count + 1)) hStar = true
    ∧ s.predictedLevel 0 = (s.sensor 0).level.mean
    ∧ (∀ a, 1 ≤ k → k < s.count → a = (s.chamber k).area + (s.chamber (k + 1)).area →
        s.predictedLevel k = (2 * ((s.chamber k).area * above + (s.chamber (k + 1)).area * below) + a) / (2 * a))
    ∧ (1 ≤ s.count → s.predictedLevel s.count = (s.sensor (s.count + 1)).level.mean)

/-! ## Passages (02) and lamps (03) -/

/-- A gate limit that ends a travel (R22): drive and timer stopped, the travel time captured, the state the end reached, the permit dropped at CLOSED, and what follows from the gate's end. A position that is no end of the travel is recorded only. A travel timer that expires on a gate in travel (R23), one that expires on no travel, and one that has time left, as a reversal leaves it (R21), whose expiry does not occur (log 3). The order in which the hand-overs wait is the model's choice (log 20). A change that leaves the position as it was, or of a passage out of use (log 27), is recorded at the inputs only. That the GATE_FAULT of a lost limit carries the fields of R23 is DEDUCED (log 52). -/
def Obligations.GateEvents : Prop :=
  (∀ (s : State) (k : Nat) (o c : Bool) (position : GatePosition), s.pins.reset = false → k < 4 → s.inUse k = true →
      position = (match o, c with
        | false, true => GatePosition.atClosed
        | true, false => .atOpen
        | _, _ => .between) →
      position ≠ (s.passage k).gate.position →
      let g := (s.passage k).gate
      let pins := { s.pins with limits := s.pins.limits.set k { openLimit := o, closedLimit := c } }
      let time := (g.limit * 1000 - g.timer.getD 0) / 1000
      let slow := decide (g.limit * g.slowPct < time * 100)
      let ended := { g with position := position, drive := .off, timer := none, lastTravel := time }
      (g.state = .opening → position = .atOpen →
        exec (.gateLimitChange k o c) s = .next
          ((((State.setPassage k (fun p => { p with gate := { ended with state := .opened } }) { s with pins := pins }).when
            slow (State.raise (.gateSlow k time))).pushAll [.passageChanged k, .gateEnd k]).finish))
      ∧ (g.state = .closing → position = .atClosed →
        exec (.gateLimitChange k o c) s = .next
          ((((State.setPassage k (fun p => { p with gate := { ended with state := .closed }, permit := false })
            { s with pins := pins }).when slow (State.raise (.gateSlow k time))).pushAll
              [.passageChanged k, .gateEnd k]).finish))
      ∧ ((g.state = .opening ∧ position ≠ .atOpen) ∨ (g.state = .closing ∧ position ≠ .atClosed) ∨ g.state = .fault
          ∨ (g.state = .stopped ∧ position = .between) →
        exec (.gateLimitChange k o c) s = .next
          ((State.setGate k (fun x => { x with position := position }) { s with pins := pins }).finish))
      ∧ (g.state = .stopped → position ≠ .between →
        exec (.gateLimitChange k o c) s = .next
          (((State.setPassage k (fun p =>
              { p with gate := { g with position := position, state := if position = .atOpen then .opened else .closed }
                       permit := p.permit && decide (position = .atOpen) }) { s with pins := pins }).pushAll
            [.passageChanged k, .gateEnd k]).finish))
      ∧ ((g.state = .closed ∧ position ≠ .atClosed) ∨ (g.state = .opened ∧ position ≠ .atOpen) →
        exec (.gateLimitChange k o c) s = .next
          (((((State.setGate k (fun x =>
              { x with position := position, state := .fault, cause := some .limitLost, drive := .off, timer := none })
            { s with pins := pins }).push (.passageChanged k)).raise (.gateFault k .limitLost position)).enterSafeHold
              (.gateFault k)).finish)))
  ∧ (∀ (s : State) (k : Nat), s.pins.reset = false → k < 4 → (s.passage k).gate.timer ≠ some 0 →
      exec (.gateTravelTimeout k) s = .next s.finish)
  ∧ (∀ (s : State) (k : Nat), s.pins.reset = false → k < 4 → (s.passage k).gate.timer = some 0 →
      ((s.passage k).gate.state.travelling = true →
        exec (.gateTravelTimeout k) s = .next
          (((((State.setGate k (fun x =>
              { x with state := .fault, cause := some .travelTimeout, drive := .off, timer := none }) s).push
            (.passageChanged k)).raise (.gateFault k .travelTimeout (s.passage k).gate.position)).enterSafeHold
              (.gateFault k)).finish))
      ∧ ((s.passage k).gate.state.travelling = false →
        exec (.gateTravelTimeout k) s = .next ((State.setGate k (fun x => { x with timer := none }) s).finish)))
  ∧ (∀ (s : State) (k : Nat) (o c : Bool) (position : GatePosition), s.pins.reset = false → k < 4 →
      position = (match o, c with
        | false, true => GatePosition.atClosed
        | true, false => .atOpen
        | _, _ => .between) →
      s.inUse k = false ∨ position = (s.passage k).gate.position →
      exec (.gateLimitChange k o c) s = .next (State.finish
        { s with pins := { s.pins with limits := s.pins.limits.set k { openLimit := o, closedLimit := c } } }))

/-- A sluice feedback (R25 to R27): the commanded one ends the move, another one during a move or in FAULT is recorded only, and a change while SHUT or SET is an uncommanded move that faults the sluice. A code above 8 is never the commanded one nor the one that stood; the position it leaves is free (log 16). What the end of a move does to the operation in the slot (R25, R26, R33, R36): in RAMPING the ramp timer starts below the target and the phase becomes FLOWING at it; in SHUTTING the operation ends at 0; nothing otherwise. An operation that reaches EQUALISED stops its timer, captures the end reading of passage 0 once, and reports (R33, R37, R38); a MOVE stays there, the others enter SHUTTING. An operation that ends releases its claims, frees its slot, reports DONE or ABORTED, hands on the slot-free event where one is owed, and has the chambers arbitrated, in that order (R36). The timers of a sluice and its operation (R25, R27, R33, R34): a move timer faults a MOVING sluice; a ramp timer commands the next step of an operation in RAMPING, held back where the interlock does not pass (R42); an equalise timer stalls an operation in RAMPING or FLOWING; and one that has time left has not expired (log 3). The order in which the hand-overs wait is the model's choice (log 20); the held-back step is a bit of the model (log 18). A feedback of a passage out of use (log 27), or of the position that stands, is recorded at the inputs only; a timer that expires with nothing left to end only stops (log 41). That SLUICE_FAULT carries the fault cause is the model's choice, and what that of an uncommanded move carries is DEDUCED (log 52). -/
def Obligations.SluiceEvents : Prop :=
  (∀ (s : State) (k position : Nat), s.pins.reset = false → k < 4 → s.inUse k = true → position ≤ 8 →
      let x := (s.passage k).sluice
      let u := { s with pins := { s.pins with feedback := s.pins.feedback.set k position } }
      (x.state = .moving → x.commanded = some position →
        exec (.sluiceFeedback k position) s = .next
          ((((State.setSluice k (fun y =>
              { y with position := position, state := if position = 0 then .shut else .set, commanded := none,
                       moveTimer := none, driven := false }) u).push (.passageChanged k)).afterMove k).finish))
      ∧ ((x.state = .moving ∧ x.commanded ≠ some position) ∨ x.state = .fault →
        exec (.sluiceFeedback k position) s = .next ((State.setSluice k (fun y => { y with position := position }) u).finish))
      ∧ ((x.state = .shut ∨ x.state = .set) → x.position ≠ position →
        exec (.sluiceFeedback k position) s = .next
          (((((State.setSluice k (fun y =>
              { y with position := position, state := .fault, cause := some .uncommanded, commanded := none,
                       moveTimer := none, driven := false }) u).push (.passageChanged k)).raise
            (.sluiceFault k .uncommanded x.commanded position)).enterSafeHold (.sluiceFault k)).finish)))
  ∧ (∀ (s : State) (k position : Nat), s.pins.reset = false → k < 4 →
      let x := (s.passage k).sluice
      s.inUse k = false ∨ (position ≤ 8 ∧ (x.state = .shut ∨ x.state = .set) ∧ x.position = position) →
      exec (.sluiceFeedback k position) s = .next (State.finish
        { s with pins := { s.pins with feedback := s.pins.feedback.set k position } }))
  ∧ (∀ (s : State) (k code : Nat), s.pins.reset = false → k < 4 → s.inUse k = true → 8 < code →
      let x := (s.passage k).sluice
      let u := { s with pins := { s.pins with feedback := s.pins.feedback.set k code } }
      x.commanded ≠ some code → x.position ≠ code → ∃ position, position ≤ 8
        ∧ (x.state = .moving ∨ x.state = .fault →
          exec (.sluiceFeedback k code) s =
            .next ((State.setSluice k (fun y => { y with position := position }) u).finish))
        ∧ (x.state = .shut ∨ x.state = .set →
          exec (.sluiceFeedback k code) s = .next
            (((((State.setSluice k (fun y =>
                { y with position := position, state := .fault, cause := some .uncommanded, commanded := none,
                         moveTimer := none, driven := false }) u).push (.passageChanged k)).raise
              (.sluiceFault k .uncommanded x.commanded position)).enterSafeHold (.sluiceFault k)).finish)))
  ∧ (∀ (s : State) (k : Nat) (o : Op), (s.passage k).slot = some o →
      let x := (s.passage k).sluice
      (o.phase = .ramping → x.position < x.target →
        s.afterMove k = State.setSluice k (fun y => { y with rampTimer := some (y.rampInterval * 1000) }) s)
      ∧ (o.phase = .ramping → x.target ≤ x.position → s.afterMove k = State.setOp k (fun y => { y with phase := .flowing }) s)
      ∧ (o.phase = .shutting → x.position = 0 → s.afterMove k = s.endOp k)
      ∧ (o.phase ≠ .ramping → ¬ (o.phase = .shutting ∧ x.position = 0) → s.afterMove k = s))
  ∧ (∀ (s : State) (k : Nat) (o : Op), k < 4 → (s.passage k).slot = some o →
      let reading : Reading :=
        { mean := (s.sensor 1).level.mean, count := (s.sensor 1).level.count, stale := (s.sensor 1).level.stale }
      let captured : Op :=
        if k = 0 ∧ o.startReading.isSome ∧ o.endReading = none then { o with endReading := some reading } else o
      let report (x : Op) (outcome : Outcome) : List Task := x.transit.toList.map (fun id =>
        .report { transit := id, passage := k, purpose := x.purpose, outcome := outcome, predicted := (s.opVolumes x).1,
                  measured := (s.opVolumes x).2.1, stale := (s.opVolumes x).2.2 })
      let equalised : Op := { captured with phase := .equalised, timer := none, stall := none }
      let reached := (State.setPassage k (fun p => { p with slot := some equalised }) s).pushAll (report equalised .equalised)
      let chambers := if o.claimsHeld then s.chambersOf k else []
      (o.phase = .ramping ∨ o.phase = .flowing →
        s.takeEqual k = (s.reachEqualised k).retryOpen k)
      ∧ s.reachEqualised k = (if o.purpose = .move then reached else reached.enterShutting k)
      ∧ (∀ x outcome, s.reportTasks k x outcome = report x outcome)
      ∧ (o.phase ≠ .ramping → o.phase ≠ .flowing → s.takeEqual k = s.retryOpen k)
      ∧ s.endOp k =
          State.push (.arbitrate chambers)
            ((State.setPassage k (fun p => { p with slot := none, slotFreeOwed := false }) (s.setClaims chambers none)).pushAll
              (report captured (if o.aborted then .aborted else .done)
                ++ (if (s.passage k).slotFreeOwed then [.slotFree k] else [])))
      ∧ (∀ a b, o.startReading = some a → o.endReading = some b →
          s.opVolumes o = (o.predicted.getD 0, (s.chamber 1).area * (b.mean - a.mean), a.stale || b.stale))
      ∧ (o.startReading = none → s.opVolumes o = (0, 0, false)))
  ∧ (∀ (s : State) (k : Nat), s.pins.reset = false → k < 4 →
      let x := (s.passage k).sluice
      (x.moveTimer ≠ some 0 → exec (.sluiceMoveTimeout k) s = .next s.finish)
      ∧ (x.rampTimer ≠ some 0 → exec (.rampTimerExpiry k) s = .next s.finish)
      ∧ ((∀ o, (s.passage k).slot = some o → o.timer ≠ some 0) → exec (.equaliseTimeout k) s = .next s.finish)
      ∧ (x.moveTimer = some 0 → x.state = .moving →
        exec (.sluiceMoveTimeout k) s = .next
          (((((State.setSluice k (fun y =>
              { y with state := .fault, cause := some .moveTimeout, commanded := none, moveTimer := none,
                       driven := false }) s).push (.passageChanged k)).raise
            (.sluiceFault k .moveTimeout x.commanded x.position)).enterSafeHold (.sluiceFault k)).finish))
      ∧ (∀ o, x.rampTimer = some 0 → (s.passage k).slot = some o → o.phase = .ramping →
          (x.state = .shut ∨ x.state = .set) →
        exec (.rampTimerExpiry k) s = .next
          ((if s.interlockOk k then
              (State.setSluice k (fun y =>
                { y with rampTimer := none, state := .moving, commanded := some (y.position + 1),
                         moveTimer := some (y.moveLimit * 1000), driven := true, stepHeld := false }) s).push
                (.passageChanged k)
            else State.setSluice k (fun y => { y with rampTimer := none, stepHeld := true }) s).finish))
      ∧ (∀ o, (s.passage k).slot = some o → o.timer = some 0 → (o.phase = .ramping ∨ o.phase = .flowing) →
        exec (.equaliseTimeout k) s = .next
          ((State.raise (.levelTimeout k o.purpose o.transit x.position)
            (State.setPassage k (fun p =>
              { p with slot := some { o with timer := none, phase := .stalled, stall := some .timeout },
                       sluice := { p.sluice with rampTimer := none } }) s)).finish)))
  ∧ (∀ (s : State) (k : Nat), s.pins.reset = false → k < 4 →
      let x := (s.passage k).sluice
      (x.moveTimer = some 0 → x.state ≠ .moving →
        exec (.sluiceMoveTimeout k) s = .next (State.finish (State.setSluice k (fun y => { y with moveTimer := none }) s)))
      ∧ (x.rampTimer = some 0 → (∀ o, (s.passage k).slot = some o → o.phase ≠ .ramping) ∨ x.state = .moving ∨ x.state = .fault →
        exec (.rampTimerExpiry k) s = .next (State.finish (State.setSluice k (fun y => { y with rampTimer := none }) s)))
      ∧ (∀ o, (s.passage k).slot = some o → o.timer = some 0 → o.phase ≠ .ramping → o.phase ≠ .flowing →
        exec (.equaliseTimeout k) s = .next (State.finish
          (State.setPassage k (fun p => { p with slot := some { o with timer := none } }) s))))

/-- A change of a head's indications (R56): both are recorded; the agreement timer runs while the head stands against its fault state, from 2 s where it was stopped, and is stopped otherwise. Nothing else changes. The expiry of a head's agreement timer that has run out toggles its fault, counts and reports it, and hands on a calling event where the fault of an approach head ends (R57, R58); one that meets a timer with time left, restarted by a new output, changes nothing, so that a new output always gets its 2 s (R56; log 3). The aspects (R52 to R55): DARK out of use, RED_FLASH outside SERVICE, and in SERVICE RED but for the source head of a move in OPEN or AWAIT not yet confirmed, which follows its gate; a head whose output is derived unchanged keeps its timer, another starts a fresh one where it now stands against its fault state. -/
def Obligations.LampEvents : Prop :=
  (∀ (s : State) (k : Nat) (side : Side) (red green : Bool), s.pins.reset = false → k < 4 →
      let h := s.head k side
      let agrees := decide ((red, green) = (match h.output with
        | .red => (true, false)
        | .redGreen => (true, true)
        | .green => (false, true)
        | .redFlash => (true, false)
        | .dark => (false, false)))
      Answers (exec (.lampIndicationChange k side red green) s) (fun t =>
        t = { s with pins := { s.pins with lamps := t.pins.lamps }, lamps := t.lamps }
        ∧ t.head k side = { h with
            red := red, green := green, timer := if agrees = h.fault then some (h.timer.getD 2000) else none }
        ∧ ∀ j other, j < 4 → (j ≠ k ∨ other ≠ side) → t.head j other = s.head j other))
  ∧ (∀ (s : State) (k : Nat) (side : Side), s.pins.reset = false → k < 4 → (s.head k side).timer ≠ some 0 →
      exec (.lampAgreementExpiry k side) s = .next s.finish)
  ∧ (∀ (s : State) (k : Nat) (side : Side), s.pins.reset = false → k < 4 → (s.head k side).timer = some 0 →
      let h := s.head k side
      (h.fault = false →
        exec (.lampAgreementExpiry k side) s = .next
          ((State.raise (.lampFault k side h.output h.red h.green)
            (State.setHead k side (fun x => { x with fault := true, timer := none, faultCount := min 255 (x.faultCount + 1) })
              s)).finish))
      ∧ (h.fault = true →
        exec (.lampAgreementExpiry k side) s = .next
          (((State.raise (.lampRestored k side h.output)
            (State.setHead k side (fun x => { x with fault := false, timer := none }) s)).when
              (decide ((side = .above ∧ k = 0) ∨ (side = .below ∧ k = s.count))) State.calling).finish)))
  ∧ (∀ (s : State) (k : Nat) (side : Side), k < 4 →
      let h := s.head k side
      let g := (s.passage k).gate.state
      let source (t : Transit) (m : Move) : Prop :=
        t.move = some m ∧ m.passage = k ∧ side = (match t.dir with | .down => Side.above | .up => .below)
      let shows (a : Aspect) : Prop :=
        s.deriveAspects.head k side =
          if h.output = a then h
          else
            let agrees := decide ((h.red, h.green) = (match a with
              | .red => (true, false)
              | .redGreen => (true, true)
              | .green => (false, true)
              | .redFlash => (true, false)
              | .dark => (false, false)))
            { h with output := a, timer := if agrees = h.fault then some 2000 else none }
      (s.count < k → shows .dark)
      ∧ (k ≤ s.count → s.auth.mode ≠ .service → shows .redFlash)
      ∧ (k ≤ s.count → s.auth.mode = .service →
        ((∀ t ∈ s.table, ∀ m, ¬ source t m) → shows .red)
        ∧ ∀ t ∈ s.table, ∀ m, source t m → (∀ u ∈ s.table, ∀ n, source u n → n = m) →
          shows (if (m.phase = .opened ∨ m.phase = .await) ∧ m.confirmed = false then
              (if g = .opening then .redGreen else if g = .opened then .green else .red)
            else .red)))

/-! ## Timers and the clock (06, 07, 08, 09) -/

/-- The overdue timer of a move reports it once and stops; the discard timer of a RESOLVED quote slot frees it, with no notice (R112, R166). The day clock's second (R132): a SET clock advances, its seconds wrapping at a day and its day at 65535, and starts a fresh second; an UNSET clock does not run. Nothing else changes. The handover timer of a pending claim (R182): the claim lapses, the holder stays, and AUTHORITY says so. Each expiry occurs once its timer has run out; one that meets a timer with time left, started afresh by an event taken first, changes nothing: the model's reading (log 3). So does one that meets a timer that does not run. -/
def Obligations.TimerEvents : Prop :=
  (∀ s : State, s.pins.reset = false →
      (∀ id t m limit left, s.transit id = some t → t.overdue = .running limit left → t.move = some m →
        (left = 0 → exec (.overdueTimerExpiry id) s = .next
          (State.pump (State.raise (.moveOverdue id m.kind m.passage limit)
            { s with table := s.table.map (fun x => if x.id = id then { x with overdue := .stopped } else x) })))
        ∧ (left ≠ 0 → exec (.overdueTimerExpiry id) s = .next s.pump))
      ∧ (∀ n mark result left, 1 ≤ n → n ≤ 4 → s.acc.slots.get (n - 1) = .resolved mark result left →
        (left = 0 → exec (.quoteDiscardExpiry n) s = .next
          { s with acc := { s.acc with slots := s.acc.slots.set (n - 1) .free } })
        ∧ (left ≠ 0 → exec (.quoteDiscardExpiry n) s = .next s))
      ∧ (∀ id, (∀ t limit left, s.transit id = some t → t.overdue ≠ .running limit left) →
        exec (.overdueTimerExpiry id) s = .next s.pump)
      ∧ (∀ n, 1 ≤ n → n ≤ 4 → (∀ mark result left, s.acc.slots.get (n - 1) ≠ .resolved mark result left) →
        exec (.quoteDiscardExpiry n) s = .next s))
  ∧ (∀ s : State,
      (s.toll.clock.isSet = true → s.toll.clock.second = some 0 → exec .dayClockSecond s = .next
        { s with toll := { s.toll with clock :=
          { isSet := true
            day := if s.toll.clock.sec < 86399 then s.toll.clock.day else (s.toll.clock.day + 1) % 65536
            sec := if s.toll.clock.sec < 86399 then s.toll.clock.sec + 1 else 0
            second := some 1000 } } })
      ∧ (s.toll.clock.isSet = false ∨ s.toll.clock.second ≠ some 0 → exec .dayClockSecond s = .next s))
  ∧ (∀ s : State, s.pins.reset = false →
      (s.auth.claim = some 0 → exec .handoverTimerExpiry s = .next
        (State.pump (State.raise (.authority s.auth.holder s.auth.holder .claim (some .lapsed))
          { s with auth := { s.auth with claim := none } })))
      ∧ (s.auth.claim ≠ some 0 → exec .handoverTimerExpiry s = .next s.pump))

/-- The night window of a tariff at a minute of the clock (R133). -/
def Obligations.NightWindow : Prop :=
  ∀ x : Toll,
    let m := x.clock.sec / 60
    let start := x.current.tariff.nightStart
    let finish := x.current.tariff.nightEnd
    (x.clock.sec < 86400 → m ≤ 1439)
    ∧ (start = finish → x.nightNow = false)
    ∧ (start < finish → (x.nightNow = true ↔ x.clock.isSet = true ∧ start ≤ m ∧ m < finish))
    ∧ (finish < start → (x.nightNow = true ↔ x.clock.isSet = true ∧ (start ≤ m ∨ m < finish)))

/-- The expiry of a port's silence timer (R192, R183): heard becomes no and the timer stays stopped; the expiry of TOLL, or of a station that is no holder, changes nothing of authority; the next good frame starts the timer again, and a discarded frame does not. The holder that falls silent with the other command station heard passes authority to it, and AUTHORITY says so with cause SILENCE and the outcome GRANTED of a pending claim; with the other not heard the holder is NONE, AUTHORITY says so with the outcome LAPSED, and SAFE_HOLD is entered with cause AUTHORITY_LOST (R174), every passage in use then as SAFE_HOLD entry leaves it (R41); where SAFE_HOLD stands it stays. A timer that a good frame has restarted has not run out, and its expiry does not occur (R184; log 3): nothing but the work left over from before follows. -/
def Obligations.SilenceExpiryTaken : Prop :=
  (∀ (s : State) (st : Station) (left : Nat), s.pins.reset = false → (s.ports.get st).silence = some (left + 1) →
    exec (.silenceExpiry st) s = .next s.finish)
  ∧ ∀ (s : State) (st : Station), s.pins.reset = false → (s.ports.get st).silence = some 0 →
    Answers (exec (.silenceExpiry st) s) (fun t =>
      (t.ports.get st).heard = false ∧ (t.ports.get st).silence = none
      ∧ (∀ x, x ≠ st → (t.ports.get x).quiet = (s.ports.get x).quiet)
      ∧ { t.steady with auth := s.auth } = s.steady
      ∧ (s.auth.holder ≠ some st → t.auth = s.auth)
      ∧ (∀ other, s.auth.holder = some st →
          ((st = .console ∧ other = .region) ∨ (st = .region ∧ other = .console)) →
          ((s.ports.get other).heard = true → t.auth = { s.auth with holder := some other, claim := none })
          ∧ ((s.ports.get other).heard = false →
              t.auth = { s.auth with
                holder := none, claim := none, mode := .safeHold,
                holdCause := if s.auth.mode = .safeHold then s.auth.holdCause else some .authorityLost }
              ∧ (s.auth.mode ≠ .safeHold → ∀ k, k ≤ s.count → k < 4 → (s.passage k).heldAs (t.passage k))))
      ∧ (∀ u, exec (.idleFrame st) t = .next u →
          (u.ports.get st).silence = some (t.timing.silence * 1000) ∧ (u.ports.get st).heard = true)
      ∧ ∀ cause u, exec (.frameDiscarded st cause) t = .next u →
          (u.ports.get st).silence = none ∧ (u.ports.get st).heard = false)
    ∧ (let silent : State :=
         { s with ports := s.ports.set st { s.ports.get st with heard := false, silence := none } }
       (s.auth.holder ≠ some st → exec (.silenceExpiry st) s = .next silent.finish)
       ∧ ∀ other, s.auth.holder = some st →
         ((st = .console ∧ other = .region) ∨ (st = .region ∧ other = .console)) →
         let passed (holder : Option Station) (outcome : ClaimOutcome) : State :=
           State.raise (.authority holder (some st) .silence (s.auth.claim.map (fun _ => outcome)))
             { silent with auth := { s.auth with holder := holder, claim := none } }
         ((s.ports.get other).heard = true →
           exec (.silenceExpiry st) s = .next (passed (some other) .granted).finish)
         ∧ ((s.ports.get other).heard = false →
           exec (.silenceExpiry st) s = .next ((passed none .lapsed).enterSafeHold .authorityLost).finish))

/-! ## The links (10) -/

/-- What ends the assembly of a frame (R190, R191): the gap timer that has run out and every cause of a discard leave the receiver in HUNT and change nothing else; a gap expiry that meets a timer with time left, restarted by a byte taken first, changes nothing (R190; log 3); an idle frame, like every good frame, restarts the silence timer and marks the station heard. A byte on a port's line, by the number of bytes assembled before it (R189, R190): in HUNT the sync byte starts a frame and any other is dropped; byte 1 joins where it is the port's station code, the tag and the kind join, the length byte joins up to 240, the n payload bytes and the first check byte join, and each byte that joins starts the 50 ms gap timer afresh; another station code and a length above 240 discard the frame; the second check byte gives a good frame with its tag, kind and payload where the check received is the sum of bytes 1 to 4 + n modulo 65536, and discards it where it is not. -/
def Obligations.ReceiverEvents : Prop :=
  (∀ (s : State) (st : Station), s.pins.reset = false →
      let p := s.ports.get st
      (p.gap = some 0 → exec (.gapTimerExpiry st) s =
        .next { s with ports := s.ports.set st { p with assembled := [], gap := none } })
      ∧ (p.gap ≠ some 0 → exec (.gapTimerExpiry st) s = .next s)
      ∧ (∀ cause, exec (.frameDiscarded st cause) s =
          .next { s with ports := s.ports.set st { p with assembled := [], gap := none } })
      ∧ exec (.idleFrame st) s =
          .next { s with ports := s.ports.set st { p with
            assembled := [], gap := none, silence := some (s.timing.silence * 1000), heard := true } })
  ∧ (∀ (s : State) (st : Station) (b : Byte), s.pins.reset = false →
      let p := s.ports.get st
      let l := p.assembled
      let n := (l.getD 4 0).toNat
      let hunting : State := { s with ports := s.ports.set st { p with assembled := [], gap := none } }
      let joins : Prop :=
        exec (.byteReceived st b) s =
          .next { s with ports := s.ports.set st { p with assembled := l ++ [b], gap := some 50 } }
      let discarded : Prop := exec (.byteReceived st b) s = .next hunting
      (l = [] → (b = 0xA5 → joins) ∧ (b ≠ 0xA5 → exec (.byteReceived st b) s = .next s))
      ∧ (l.length = 1 →
        (b = byteOf (stationCode st) → joins) ∧ (b ≠ byteOf (stationCode st) → discarded))
      ∧ (l.length = 2 ∨ l.length = 3 → joins)
      ∧ (l.length = 4 → (b.toNat ≤ 240 → joins) ∧ (240 < b.toNat → discarded))
      ∧ (5 ≤ l.length → l.length < 6 + n → joins)
      ∧ (5 ≤ l.length → l.length = 6 + n →
        let check := (l.getD (5 + n) 0).toNat + 256 * b.toNat
        let sum := (((l.drop 1).take (4 + n)).map BitVec.toNat).sum % 65536
        (check = sum → exec (.byteReceived st b) s =
          .next (State.takeFrame st (l.getD 2 0).toNat (l.getD 3 0).toNat ((l.drop 5).take n) hunting))
        ∧ (check ≠ sum → discarded)))
  ∧ (∀ (s : State) (h : Hdr), s.heard h = { s with ports := s.ports.set h.port { s.ports.get h.port with
      assembled := [], gap := none, silence := some (s.timing.silence * 1000), heard := true } })

/-- A frame that has left its line (R195, R197): a busy answer or a notice ends; a reply goes on to its next part or ends, leaving the port IDLE where no busy answer waits. Then every transmitter whose line is free starts its next frame. The OK reply to a RESTART is not this case (R185). A transmitter whose line is free starts a frame in this order (R197): the reply in progress, then a busy answer, then the head notice, which leaves the queue in that event; a line that is not free stays as it is. A frame starts with none of its bytes sent (R188). A reply becomes the reply in progress in one part, the entries of TAKE_CHARGES four to a part (R195); that every other result fits one part is DEDUCED (log 12). The transmitters of all three ports start at the end of the event, by the model's choice (log 47). -/
def Obligations.Transmitter : Prop :=
  (∀ (s : State) (st : Station), s.pins.reset = false → ¬ (st = .console ∧ restartReply (s.ports.get st).line = true) →
      let p := s.ports.get st
      (∀ tag kind, p.line = some (.busy tag kind) →
        exec (.frameSent st) s = .next (State.pump { s with ports := s.ports.set st { p with line := none, sent := 0, busy := none } }))
      ∧ (∀ n, p.line = some (.notice n) →
        exec (.frameSent st) s = .next (State.pump { s with ports := s.ports.set st { p with line := none, sent := 0 } }))
      ∧ (∀ tag kind status part parts body r, p.line = some (.reply tag kind status part parts body) → p.reply = some r →
        exec (.frameSent st) s = .next (State.pump { s with ports := s.ports.set st { p with
          line := none
          sent := 0
          reply := if r.sent + 1 < r.frames.length then some { r with sent := r.sent + 1 } else none } })))
  ∧ (∀ p : Port,
      (p.line.isSome = true → p.pump = p)
      ∧ (p.line = none → ∀ r tag kind status part parts body, p.reply = some r →
          r.frames[r.sent]? = some (.reply tag kind status part parts body) →
          p.pump = { p with line := some (.reply tag kind status part parts body), sent := 0 })
      ∧ (p.line = none → p.reply = none → ∀ tag kind, p.busy = some (tag, kind) →
          p.pump = { p with line := some (.busy tag kind), sent := 0 })
      ∧ (p.line = none → p.reply = none → p.busy = none → ∀ n rest, p.queue = n :: rest →
          p.pump = { p with line := some (.notice n), sent := 0, queue := rest })
      ∧ (p.reply = none → p.busy = none → p.queue = [] → p.pump = p))
  ∧ (∀ s : State, s.pump = { s with ports :=
      { console := s.ports.console.pump, region := s.ports.region.pump, toll := s.ports.toll.pump } })
  ∧ (∀ s : State, s.finish = s.settle.pump)
  ∧ (∀ (h : Hdr) (kind : Nat) (a : Answer) (s : State),
      let starts (frames : List OutFrame) : Prop := State.replied h kind a s =
        State.pump { s with ports := s.ports.set h.port { s.ports.get h.port with reply := some { frames := frames, sent := 0 } } }
      ((∀ entries held next, a.body = .taken entries held next → entries.length ≤ 4) →
        starts [.reply h.tag kind a.status 0 1 a.body])
      ∧ ∀ entries held next, a.body = .taken entries held next → 4 < entries.length →
        starts [.reply h.tag kind a.status 0 2 (.taken (entries.take 4) held next),
          .reply h.tag kind a.status 1 2 (.takenMore (entries.drop 4))])

/-- A notice reaches each port by its subscription (R198, R200): OFF gets nothing; EACH and ONCE get it at the tail of a queue with room, ONCE then turning OFF; a full queue drops it and sets the lost-notice flag. -/
def Obligations.NoticeOffered : Prop :=
  ∀ (n : Notice) (s : State) (st : Station),
    let p := s.ports.get st
    let q := (s.raise n).ports.get st
    (p.subs.get n.cls = .off → q = p)
    ∧ (p.subs.get n.cls = .each → p.queue.length < 16 → q = { p with queue := p.queue ++ [n] })
    ∧ (p.subs.get n.cls = .once → p.queue.length < 16 →
        q.queue = p.queue ++ [n] ∧ q.lost = p.lost ∧ q.subs.get n.cls = .off
        ∧ ∀ c, c ≠ n.cls → q.subs.get c = p.subs.get c)
    ∧ (p.subs.get n.cls ≠ .off → 16 ≤ p.queue.length → q = { p with lost := true })
    ∧ ∀ rest, s.raiseAll (n :: rest) = (s.raise n).raiseAll rest

/-- The bytes of a frame for a port's station, taken in HUNT, are one good frame with the frame's tag, kind and payload: the part then stands as after taking it, with its receiver in HUNT (R189, R191, R193). A frame with tag 0 is an idle frame; another is the request that its kind and payload spell, or a request of no kind where they spell none (R191, R193). The layout of CONFIRM's payload is the manual's (10 section 10.5), that of the others free (log 9); that a BUSY_ANSWER event carries any frame is the model's reading (log 11). -/
def Obligations.ReceiverAssemblesFrame : Prop :=
  (∀ (s : State) (st : Station) (tag kind : Nat) (payload : List Byte), s.pins.reset = false →
    (s.ports.get st).assembled = [] → tag < 256 → kind < 256 → payload.length ≤ 240 →
    feedBytes st (frameBytes (stationCode st) tag kind payload) s =
      State.takeFrame st tag kind payload
        { s with ports := s.ports.set st { s.ports.get st with assembled := [], gap := none } })
  ∧ (∀ (s : State) (st : Station) (tag kind : Nat) (payload : List Byte), s.pins.reset = false →
      let frame := State.takeFrame st tag kind payload s
      (tag = 0 → exec (.idleFrame st) s = .next frame)
      ∧ (tag ≠ 0 → ∀ r, readRequest kind payload = some r →
          exec (Request.command { port := st, tag := tag, lengthOk := true } r) s = .next frame)
      ∧ (tag ≠ 0 → readRequest kind payload = none → exec (.badKindRequest st tag kind) s = .next frame)
      ∧ exec (.busyAnswer st tag kind payload) s = .next frame)
  ∧ (∀ (id code : Byte), readRequest 13 [id, code] = some (.confirm id.toNat
      (if code.toNat = 0 then some .entered else if code.toNat = 1 then some .moved
        else if code.toNat = 2 then some .cleared else none)))
  ∧ (∀ kind payload r, readRequest kind payload = some r → r.code = kind)

/-- A request frame on a REPLYING port (R196): it is a good frame, the first gets the one busy answer, a later one nothing; no block sees it. A frame whose kind is no request kind is answered BAD_REQUEST on an IDLE port (R193, R194). Every request that reaches an IDLE port and is turned away by its form or its right is answered BAD_REQUEST or NOT_AUTHORISED, its good frame is counted, and nothing else of the part changes; a request of the Authority Controller (kinds 19 to 26) is told the mode and the holder with it (R186); on a REPLYING port it gets the one busy answer (R193, R194, R196). That a BUSY_ANSWER or BAD_KIND_REQUEST event carries a request frame is the model's reading (log 1, log 11). -/
def Obligations.RequestsTurnedAway : Prop :=
  (∀ (s : State) (st : Station) (tag kind : Nat) (payload : List Byte), s.pins.reset = false → tag ≠ 0 →
      ((s.ports.get st).reply.isSome = true ∨ (s.ports.get st).busy.isSome = true) →
      let p := s.ports.get st
      exec (.busyAnswer st tag kind payload) s = .next
        (State.pump { s with ports := s.ports.set st { p with
          assembled := [], gap := none, silence := some (s.timing.silence * 1000), heard := true,
          busy := some (p.busy.getD (tag, kind)) } }))
  ∧ (∀ (s : State) (st : Station) (tag kind : Nat), s.pins.reset = false → (s.ports.get st).reply = none →
      (s.ports.get st).busy = none →
      exec (.badKindRequest st tag kind) s = .next
        (State.replied { port := st, tag := tag, lengthOk := false } kind
          (if 19 ≤ kind ∧ kind ≤ 26 then
            { status := .badRequest, body := .authority s.auth.mode s.auth.holder none .nothing }
          else refuse .badRequest) (s.goodFrame st)))
  ∧ (∀ (c : Instr) (h : Hdr) (kind : Nat) (s : State), requestOf c = some (h, kind) → s.pins.reset = false →
      let turned (e : Status) : Answer :=
        if 19 ≤ kind ∧ kind ≤ 26 then { status := e, body := .authority s.auth.mode s.auth.holder none .nothing }
        else refuse e
      (s.reaches h → h.lengthOk = false →
        exec c s = .next (State.replied h kind (turned .badRequest) (s.heard h)))
      ∧ (s.reaches h → h.lengthOk = true → s.admits kind h.port = false →
        exec c s = .next (State.replied h kind (turned .notAuthorised) (s.heard h)))
      ∧ (((s.ports.get h.port).reply.isSome = true ∨ (s.ports.get h.port).busy.isSome = true) →
        exec c s = .next (State.pump { s with ports := s.ports.set h.port { s.ports.get h.port with
          assembled := [], gap := none, silence := some (s.timing.silence * 1000), heard := true,
          busy := some ((s.ports.get h.port).busy.getD (h.tag, kind)) } })))

/-- The rights of each role (R194): by kind code, for CONSOLE, REGION and TOLL in turn. -/
def Obligations.RightsOfEachRole : Prop :=
  (∀ kind st, kind ∈ [1, 2, 3, 4, 5, 6, 7, 8, 9, 40] → right kind st = .yes)
  ∧ (∀ kind, kind ∈ [10, 11, 12, 13, 14, 15, 16, 17, 20, 22, 23, 24, 25, 27, 28, 29, 30] →
      right kind .console = .holder ∧ right kind .region = .holder ∧ right kind .toll = .no)
  ∧ (∀ kind, kind ∈ [18, 26] → right kind .console = .holder ∧ right kind .region = .no ∧ right kind .toll = .no)
  ∧ (∀ kind, kind ∈ [19, 21] → right kind .console = .yes ∧ right kind .region = .yes ∧ right kind .toll = .no)
  ∧ (∀ kind, kind ∈ [31, 32, 33, 34, 35, 36, 37, 38] →
      right kind .console = .no ∧ right kind .region = .no ∧ right kind .toll = .yes)
  ∧ right 39 .console = .holder ∧ right 39 .region = .holder ∧ right 39 .toll = .yes
  ∧ (∀ (s : State) kind st, s.admits kind st = true ↔
      (right kind st = .yes ∨ (right kind st = .holder ∧ s.auth.holder = some st)))

/-! ## Reads and subscriptions (R17, R49, R59, R79, R126, R168, R199, R201) -/

/-- Every read answers from the state as its event finds it and changes nothing but its port: the good frame, the reply, and for STATUS the lost-notice flag (R201). What each reply carries: the levels and the passage in the flight that the Level Monitor reports, the former N until a new one is taken up (R16, R17, R49, R59); a vessel with its place and its credit (R79); a transit with what it waits for (R126); an account, or the next one above a number, with its headroom (R168); and STATUS block by block (R201). That STATUS too reports the former N, and lists the first missing item only, and that times left are told in milliseconds, are the model's choices (log 45, log 46, log 50); so are the refusals with OUT_OF_RANGE of a position outside 1 to 32, a direction outside the list and an account above 65535 (log 10, log 33). -/
def Obligations.ReadsAnswer : Prop :=
  (∀ (h : Hdr) (s : State),
    let u := s.heard h
    (s.takes h 1 → exec (.status h) s = .next (State.replied h 1 (accept (.status (u.statusReport h.port)))
        { u with ports := u.ports.set h.port { u.ports.get h.port with lost := false } }))
    ∧ (s.takes h 2 → exec (.readLevels h) s = .next (State.replied h 2 (accept (.levels (u.lm.reported.map u.lm.item))) u))
    ∧ (∀ k n, s.takes h 3 → u.lm.polledN = some n →
        exec (.readPassage h k) s =
          .next (State.replied h 3 (if k ≤ n then accept (.passage (u.passageReport k)) else refuse .outOfRange) u))
    ∧ (∀ k, s.takes h 3 → u.lm.polledN = none →
        exec (.readPassage h k) s = .next (State.replied h 3 (refuse .outOfRange) u))
    ∧ (∀ m, s.takes h 4 → exec (.readVessel h (.byMark m)) s =
        .next (State.replied h 4 (match u.reg.entries.find? (fun v => decide (v.mark = m)) with
          | some v => accept (.vessel (u.vesselReport v))
          | none => refuse .unknown) u))
    ∧ (∀ d n, s.takes h 4 → 1 ≤ n → n ≤ 32 → exec (.readVessel h (.byPosition (some d) n)) s =
        .next (State.replied h 4 (match (u.reg.queue d)[n - 1]?.bind u.vessel with
          | some v => accept (.vessel (u.vesselReport v))
          | none => refuse .unknown) u))
    ∧ (∀ id, s.takes h 5 → exec (.readTransit h id) s =
        .next (State.replied h 5 (match u.table.find? (fun t => decide (t.id = id)) with
          | some t => accept (.transit (u.transitReport t))
          | none => refuse .unknown) u))
    ∧ (∀ n, s.takes h 6 → n ≤ 65535 → exec (.readAccount h (.byNumber n)) s =
        .next (State.replied h 6 (match u.acc.find n with
          | some a => accept (.account a.report)
          | none => refuse .unknown) u))
    ∧ (∀ n, s.takes h 6 → n ≤ 65535 → exec (.readAccount h (.nextAbove n)) s =
        .next (State.replied h 6 (match u.acc.above n with
          | some a => accept (.account a.report)
          | none => refuse .unknown) u))
    ∧ (∀ d n, s.takes h 4 → d = none ∨ n = 0 ∨ 32 < n →
        exec (.readVessel h (.byPosition d n)) s = .next (State.replied h 4 (refuse .outOfRange) u))
    ∧ (∀ n, s.takes h 6 → 65535 < n →
        exec (.readAccount h (.byNumber n)) s = .next (State.replied h 6 (refuse .outOfRange) u)
        ∧ exec (.readAccount h (.nextAbove n)) s = .next (State.replied h 6 (refuse .outOfRange) u)))
  ∧ (∀ (s : State) (p : Nat),
      let x := s.lm.sensors.get p
      s.lm.reported = List.range (s.lm.polledN.getD 3 + 2)
      ∧ s.lm.item p = { status := x.status, badRun := x.badRun, goodRun := x.goodRun, level := x.level })
  ∧ (∀ (s : State) (k : Nat),
      let p := s.passage k
      let n := s.lm.polledN.getD 3
      let lamp (x : Head) : HeadItem :=
        { output := x.output, red := x.red, green := x.green, fault := x.fault, faultCount := x.faultCount
          agrees := decide ((x.red, x.green) = (match x.output with
            | .red => (true, false)
            | .redGreen => (true, true)
            | .green => (false, true)
            | .redFlash => (true, false)
            | .dark => (false, false))) }
      s.passageReport k =
        { still := s.lm.still.get k, equal := s.equal k
          prediction := State.predict { s with flight := { s.flight with n := s.lm.polledN } } k
          gateState := p.gate.state, gatePosition := p.gate.position, gateCause := p.gate.cause
          lastTravel := p.gate.lastTravel, openPending := p.gate.pendingOpen.isSome
          sluicePosition := p.sluice.position, sluiceState := p.sluice.state
          sluiceCommanded := p.sluice.commanded, sluiceCause := p.sluice.cause
          slot := p.slot.map (fun o =>
            { purpose := o.purpose, transit := o.transit, phase := o.phase, stall := o.stall, target := o.target
              hStar := o.hStar, left := if o.phase = .ramping ∨ o.phase = .flowing then o.timer else none
              startReading := o.startReading, endReading := o.endReading, predicted := o.predicted })
          claims := ([k, k + 1].filter (fun c => decide (1 ≤ c ∧ c ≤ n))).map (fun c => (c, s.pcu.claims.get c))
          permit := p.permit, above := lamp (s.head k .above), below := lamp (s.head k .below) })
  ∧ (∀ (s : State) (v : Vessel),
      let waiting := v.state = .waiting
      s.vesselReport v =
        { vessel := v
          queuePosition := if waiting then some (positionIn v.mark (s.reg.queue v.dir)) else none
          berthPosition := match v.state with
            | .called id _ => (s.transit id).map (fun t => positionIn v.mark (t.berths.map Berth.mark))
            | .waiting => none
            | .exited _ _ => none
          credit := if waiting then (if s.creditHeld v then .held else .notHeld) else .notApplicable })
  ∧ (∀ (a : Account) (x : Accounts) (n : Nat),
      a.report =
        { number := a.number, opening := a.opening, balance := a.balance, hold := a.hold, commitment := a.commitment
          status := a.status, limit := if a.number = 0 then none else some a.limit
          headroom := if a.number = 0 then none else some (a.balance - (a.commitment : Int) + (a.limit : Int)) }
      ∧ (x.above n = none ↔ ∀ b ∈ x.table, b.number ≤ n)
      ∧ (x.table.Pairwise (fun b c => b.number < c.number) →
          (x.above n = some a ↔ a ∈ x.table ∧ n < a.number ∧ ∀ b ∈ x.table, n < b.number → a.number ≤ b.number)))
  ∧ (∀ (s : State) (t : Transit),
      let w := (s.transitReport t).wait
      let isHeld (c : Nat) : Prop := ∃ x ∈ s.table, c ∈ x.held
      let first := match t.dir with | .down => 1 | .up => s.count
      let last := match t.dir with | .down => s.count | .up => 1
      (s.transitReport t).record = t
      ∧ (s.transitReport t).queuePosition = (if t.state = .queued then some (positionIn t.id s.arb.queue) else none)
      ∧ (s.auth.mode = .safeHold → w = .hold)
      ∧ (s.auth.mode ≠ .safeHold →
        (t.state = .queued →
          (s.arb.queue.head? ≠ some t.id → w = .none)
          ∧ (s.arb.queue.head? = some t.id →
            (isHeld first ∨ ((∃ x ∈ s.table, x.held ≠ []) ∧ ∀ x ∈ s.table, x.held ≠ [] → x.dir ≠ t.dir) →
              w = .entryBlocked)
            ∧ (¬ isHeld first → (∀ x ∈ s.table, x.held ≠ [] → x.dir = t.dir) → w = .none)))
        ∧ (∀ c more, t.state = .waitingNext → t.held = c :: more →
          let next := match t.dir with | .down => c + 1 | .up => c - 1
          (c ≠ last → isHeld next → w = .destinationHeld) ∧ (c = last ∨ ¬ isHeld next → w = .none))
        ∧ (∀ m, t.state ≠ .queued → t.state ≠ .waitingNext → t.move = some m →
          let g := (s.passage m.passage).gate
          let going (e : OpEntry) : Option WaitCondition :=
            if e.purpose ≠ .move ∨ e.passage = m.passage then
              (s.passage e.passage).slot.bind (fun o =>
                if o.transit = some t.id ∧ o.phase ≠ .equalised ∧ o.phase ≠ .shutting then
                  some (.operation e.passage o.phase o.stall)
                else none)
            else none
          (∀ c, m.blockedAt = some c → w = .cascadeBlocked c)
          ∧ (∀ k, m.blockedAt = none → m.owed = some k → w = .slotBusy k)
          ∧ (∀ x, m.blockedAt = none → m.owed = none → t.ops.findSome? going = some x → w = x)
          ∧ (m.blockedAt = none → m.owed = none → t.ops.findSome? going = none →
            (m.phase = .opened → w =
              if g.pendingOpen.isSome then .gatePending
              else if g.state = .opening ∨ g.state = .closing then .gateTravel else .none)
            ∧ (m.phase = .close → w = if g.state = .opening ∨ g.state = .closing then .gateTravel else .none)
            ∧ (m.phase = .await → w = .confirmation
                (match m.kind with | .entry => .entered | .shift => .moved | .exit => .cleared) t.overdue)
            ∧ (m.phase = .prep ∨ m.phase = .equalise → w = .none)))))
  ∧ (∀ (s : State) (st : Station),
      let p := s.ports.get st
      s.statusReport st =
        { sensors := (List.range (s.lm.polledN.getD 3 + 2)).map (fun q => (s.sensor q).status)
          equal := match s.lm.polledN with
            | none => []
            | some n => (List.range (n + 1)).map s.equal
          upSuspended := (s.head s.count .below).fault, downSuspended := (s.head 0 .above).fault
          entries := s.reg.entries.length, upLength := s.reg.up.length, downLength := s.reg.down.length
          autoOn := s.arb.autoOn, lastDir := s.arb.lastDir, runCount := s.arb.runCount, reason := s.arb.reason
          capacity := min 8 (128 - s.acc.journal.length - s.acc.reserved)
          queue := (s.arb.queue.filterMap s.transit).map (fun t =>
            { id := t.id, dir := t.dir, origin := t.origin, berths := t.berths.length })
          idle := s.arb.idle
          flightDir := (s.table.find? (fun t => !t.held.isEmpty)).map Transit.dir
          holders := (List.range s.count).map (fun i => (s.table.find? (fun t => t.held.contains (i + 1))).map Transit.id)
          records := s.table.length
          currentGen := s.toll.current.number, previousGen := s.toll.previous.number, previousRefs := s.previousRefs
          clock := if s.toll.clock.isSet then some (s.toll.clock.day, s.toll.clock.sec) else none
          nightNow := s.toll.nightNow
          accounts := s.acc.table.length, journalHeld := s.acc.journal.length
          journalFree := 128 - s.acc.journal.length, journalReserved := s.acc.reserved
          journalMargin := 128 - s.acc.journal.length - s.acc.reserved, nextSeq := s.acc.nextSeq
          slots := [0, 1, 2, 3].map (fun n => match s.acc.slots.get n with
            | .free => (none, false)
            | .pending m => (some m, false)
            | .resolved m _ _ => (some m, true))
          mode := s.auth.mode, holdCause := s.auth.holdCause, holder := s.auth.holder
          consoleHeard := s.ports.console.heard, regionHeard := s.ports.region.heard
          claimLeft := s.auth.claim, estop := s.auth.estop
          blockers :=
            (if s.auth.mode = .config ∨ s.auth.mode = .safeHold then [] else [.mode])
              ++ (s.missing.map Blocker.incomplete).toList ++ (if s.auth.estop then [.estop] else [])
              ++ (if s.auth.mode = .config then [] else
                ((List.range (s.count + 1)).filter (fun k =>
                    decide ((s.passage k).gate.state = .fault ∨ (s.passage k).sluice.state = .fault))).map Blocker.faultAt
                  ++ (((List.range s.count).map (· + 1)).filter (fun c =>
                    s.table.any (fun t => t.held.contains c) && decide ((s.sensor c).status = .failed))).map
                      Blocker.sensorFailedAt)
          lost := p.lost, queued := p.queue.length, subs := p.subs
          heard := [s.ports.console.heard, s.ports.region.heard, s.ports.toll.heard] })

/-- SUBSCRIBE (R199): a setting above 3 is refused whole; otherwise each class takes OFF, EACH or ONCE or keeps its present value, on the port of the request only, and its queue stays. -/
def Obligations.SubscribeSets : Prop :=
  ∀ (h : Hdr) (l : List Nat) (s : State), s.reaches h → h.lengthOk = true → l.length = 8 →
    let p := (s.heard h).ports.get h.port
    let applied (n : Nat) (x : Sub) : Sub :=
      if l.getD n 3 = 0 then .off else if l.getD n 3 = 1 then .each else if l.getD n 3 = 2 then .once else x
    let subs : Subs :=
      { transit := applied 0 p.subs.transit, water := applied 1 p.subs.water, passage := applied 2 p.subs.passage,
        lamp := applied 3 p.subs.lamp, authority := applied 4 p.subs.authority, account := applied 5 p.subs.account,
        service := applied 6 p.subs.service, level := applied 7 p.subs.level }
    ((∃ n ∈ l, 3 < n) → exec (.subscribe h l) s = .next (State.replied h 40 (refuse .badRequest) (s.heard h)))
    ∧ ((∀ n ∈ l, n ≤ 3) → exec (.subscribe h l) s =
        .next (State.replied h 40 (accept (.subscriptions subs))
          { s.heard h with ports := (s.heard h).ports.set h.port { p with subs := subs } }))

/-! ## Vessels (04) -/

/-- ANNOUNCE that passes the tests of R63 (R62, R64, R65): a new WAITING entry with the next arrival number at the tail of the arrival list, its mark in the queue of its direction (a SERVICE vessel behind the front run, another at the tail), VESSEL_ANNOUNCED, a calling event, and a reply with the number and the position. ANNOUNCE turned away by the tests of R63, in their order: the mode, the flight description, the ranges, the mark, the room, the account, the gauge. Nothing is applied. That a calling event waits until the event's other work is done is the model's choice (log 20). A mark has 1 to 12 characters A to Z, 0 to 9 or hyphen; a vessel fits where its length with the clearance is within the least usable length of the chambers and its beam within their least width (R63). -/
def Obligations.AnnounceTaken : Prop :=
  (∀ (h : Hdr) (mark : Mark) (d : Direction) (cls : VesselClass) (p : Particulars) (s : State), s.takes h 7 →
      s.auth.mode ≠ .config → s.flight.n.isSome = true → markOk mark = true → particularsOk p = true →
      p.cls = some cls → s.vessel mark = none → s.reg.entries.length < 32 → (s.acc.find p.account).isSome = true →
      s.fits p.length p.beam = true →
      let v : Vessel :=
        { mark := mark, account := p.account, cls := cls, length := p.length, beam := p.beam, deadweight := p.deadweight,
          dir := d, station := h.port, arrival := s.reg.counter, skips := 0, precedence := false, state := .waiting }
      let filled := { s.heard h with
        reg := { s.reg with entries := s.reg.entries ++ [v], counter := (s.reg.counter + 1) % 65536 } }
      let queued := filled.setQueue d (fun q =>
        if cls = .service then q.takeWhile filled.isService ++ [mark] ++ q.dropWhile filled.isService else q ++ [mark])
      let position := positionIn mark (queued.reg.queue d)
      exec (.announce h mark (some d) p) s = .next
        (State.replied h 7 (accept (.announced s.reg.counter position))
          ((queued.raise (.vesselAnnounced mark d cls s.reg.counter position)).calling.settle)))
  ∧ (∀ (h : Hdr) (mark : Mark) (dir : Option Direction) (p : Particulars) (s : State), s.takes h 7 →
      let inRange := markOk mark && particularsOk p && dir.isSome
      let refused (e : Status) : Prop :=
        exec (.announce h mark dir p) s = .next (State.replied h 7 (refuse e) (s.heard h))
      (s.auth.mode = .config → refused .wrongMode)
      ∧ (s.auth.mode ≠ .config →
        (s.flight.n = none → refused .incomplete)
        ∧ (s.flight.n.isSome = true →
          (inRange = false → refused .outOfRange)
          ∧ (inRange = true →
            ((s.vessel mark).isSome = true → refused .duplicate)
            ∧ (s.vessel mark = none →
              (32 ≤ s.reg.entries.length → refused .full)
              ∧ (s.reg.entries.length < 32 →
                (s.acc.find p.account = none → refused .unknown)
                ∧ ((s.acc.find p.account).isSome = true → s.fits p.length p.beam = false → refused .outOfGauge)))))))
  ∧ (∀ (m : Mark) (p : Particulars),
      (markOk m = true ↔ 1 ≤ m.length ∧ m.length ≤ 12
        ∧ ∀ c ∈ m, ('A'.toNat ≤ c.toNat ∧ c.toNat ≤ 'Z'.toNat) ∨ ('0'.toNat ≤ c.toNat ∧ c.toNat ≤ '9'.toNat) ∨ c = '-')
      ∧ (particularsOk p = true ↔ (50 ≤ p.length ∧ p.length ≤ 1350) ∧ (10 ≤ p.beam ∧ p.beam ≤ 240) ∧ p.deadweight ≤ 9999
        ∧ p.cls.isSome = true ∧ p.account ≤ 65535))
  ∧ (∀ (s : State) (length beam : Nat),
      (s.fits length beam = true ↔ length + s.flight.clearance ≤ s.minUsable ∧ beam ≤ s.minWidth)
      ∧ (∀ c, 1 ≤ c → c ≤ s.count → s.minUsable ≤ (s.chamber c).usable ∧ s.minWidth ≤ (s.chamber c).width)
      ∧ (1 ≤ s.count → (∃ c, 1 ≤ c ∧ c ≤ s.count ∧ s.minUsable = (s.chamber c).usable)
          ∧ ∃ c, 1 ≤ c ∧ c ≤ s.count ∧ s.minWidth = (s.chamber c).width))
  ∧ (∀ (s : State) (m : Mark) (q : List Mark),
      (s.isService m = true ↔ ∃ v, s.vessel m = some v ∧ v.cls = .service)
      ∧ (∀ before after, q = before ++ m :: after → m ∉ before → positionIn m q = before.length + 1))

/-- AMEND (R67 to R69): an unknown mark, a sender that is neither the holder nor the announcing station, and a called vessel are turned away in that order; a waiting vessel that passes tests 2, 5 and 6 of R63 takes the new particulars, keeps its mark, direction, arrival number and place, and is reported; one that fails them is turned away by the first that fails, OUT_OF_RANGE for the ranges, UNKNOWN for the account, OUT_OF_GAUGE for the new length and beam, and its entry stays; equal values change nothing (log 22). -/
def Obligations.AmendReplaces : Prop :=
  ∀ (h : Hdr) (mark : Mark) (p : Particulars) (s : State), s.takes h 8 →
    let u := s.heard h
    (s.vessel mark = none → exec (.amend h mark p) s = .next (State.replied h 8 (refuse .unknown) u))
    ∧ ∀ v, s.vessel mark = some v →
      (s.auth.holder ≠ some h.port → v.station ≠ h.port →
        exec (.amend h mark p) s = .next (State.replied h 8 (refuse .notAuthorised) u))
      ∧ ((s.auth.holder = some h.port ∨ v.station = h.port) →
        (v.state ≠ .waiting → exec (.amend h mark p) s = .next (State.replied h 8 (refuse .wrongState) u))
        ∧ (v.state = .waiting →
          let inRange := (50 ≤ p.length ∧ p.length ≤ 1350) ∧ (10 ≤ p.beam ∧ p.beam ≤ 240) ∧ p.deadweight ≤ 9999
            ∧ p.cls.isSome = true ∧ p.account ≤ 65535
          let refused (e : Status) : Prop := exec (.amend h mark p) s = .next (State.replied h 8 (refuse e) u)
          (¬ inRange → refused .outOfRange)
          ∧ (inRange →
            (s.acc.find p.account = none → refused .unknown)
            ∧ ((s.acc.find p.account).isSome = true → s.fits p.length p.beam = false → refused .outOfGauge)))
        ∧ ∀ cls, v.state = .waiting → particularsOk p = true → p.cls = some cls → (s.acc.find p.account).isSome = true →
          s.fits p.length p.beam = true →
          let w := { v with length := p.length, beam := p.beam, deadweight := p.deadweight, cls := cls, account := p.account }
          let t := { u with reg := { u.reg with entries := u.reg.entries.map (fun (x : Vessel) => if x.mark = v.mark then w else x) } }
          let answer := accept (.amended (positionIn v.mark (s.reg.queue v.dir)) (t.creditHeld w))
          (w = v → exec (.amend h mark p) s = .next (State.replied h 8
            (accept (.amended (positionIn v.mark (s.reg.queue v.dir)) (u.creditHeld v))) u))
          ∧ (w ≠ v → exec (.amend h mark p) s = .next (State.replied h 8 answer
              (((t.when (u.creditHeld v && !t.creditHeld w) State.calling).raise
                (.vesselAmended v.mark p.length p.beam p.deadweight cls p.account)).settle))))

/-- WITHDRAW of a mark in no entry is refused with UNKNOWN, then one by a sender that is neither the holder nor the announcing station with NOT_AUTHORISED, and nothing changes (R67). WITHDRAW by a sender that R67 admits (R70, R72): a waiting vessel leaves its queue and the register with its notice, and nothing more follows; a called vessel of a transit that is not QUEUED is refused and nothing changes. WITHDRAW of a called vessel of a QUEUED transit (R71, R97): its berth leaves the list, and a transit left with no berth is cancelled; its estimate leaves the commitment, a quote it holds resolves WITHDRAWN, its entry is freed and reported, and its journal place is given back. What these steps do: a transit leaves the transit queue, those behind it keeping their order, with QUEUE_EMPTY where it was the last, and a calling event (R93, R99); the estimate of each berth leaves the commitment of its vessel's account, and each account whose commitment falls is handed one account event (R155, R157), in the order of their first berths (the model's choice, log 43); a transit that becomes head of the queue is examined (R105); and the slot that holds a mark becomes RESOLVED with the result and a fresh discard time, reported by QUOTE_READY, nothing happening where no slot holds the mark (R165). A vessel that has left the register counts on account 0, in states no run reaches (log 38). -/
def Obligations.WithdrawTaken : Prop :=
  (∀ (h : Hdr) (mark : Mark) (s : State), s.takes h 9 →
      let refused (e : Status) : Prop := exec (.withdraw h mark) s = .next (State.replied h 9 (refuse e) (s.heard h))
      (s.vessel mark = none → refused .unknown)
      ∧ ∀ v, s.vessel mark = some v → s.auth.holder ≠ some h.port → v.station ≠ h.port → refused .notAuthorised)
  ∧ (∀ (h : Hdr) (mark : Mark) (v : Vessel) (s : State), s.takes h 9 → s.vessel mark = some v →
      (s.auth.holder = some h.port ∨ v.station = h.port) →
      let u := s.heard h
      (v.state = .waiting →
        exec (.withdraw h mark) s = .next (State.replied h 9 (accept (.withdrawn none))
          (State.raise (.vesselWithdrawn v.mark .withdraw none)
            { u with reg := { u.reg with
              entries := u.reg.entries.filter (fun (x : Vessel) => !decide (x.mark = v.mark))
              up := if v.dir = .up then u.reg.up.filter (fun m => !decide (m = v.mark)) else u.reg.up
              down := if v.dir = .down then u.reg.down.filter (fun m => !decide (m = v.mark)) else u.reg.down } })))
      ∧ (∀ id estimate t, v.state = .called id estimate → s.transit id = some t → t.state ≠ .queued →
        exec (.withdraw h mark) s = .next (State.replied h 9 (refuse .wrongState) u)))
  ∧ (∀ (h : Hdr) (mark : Mark) (v : Vessel) (id estimate : Nat) (t : Transit) (s : State), s.takes h 9 →
      s.vessel mark = some v → (s.auth.holder = some h.port ∨ v.station = h.port) → v.state = .called id estimate →
      s.transit id = some t → t.state = .queued →
      let u := s.heard h
      let kept := t.berths.filter (fun b => !decide (b.mark = v.mark))
      let dropped :=
        if kept = [] then
          (((u.leaveQueue t.id .withdrawn).freeTransit t.id).raise (.transitCancelled t.id .withdrawn [])).newHead
            s.arb.queue.head?
        else u.setTransit t.id (fun x => { x with berths := kept })
      exec (.withdraw h mark) s = .next (State.replied h 9 (accept (.withdrawn (some (t.id, kept.length))))
        (((((dropped.uncommitBerths (t.berths.filter (fun b => decide (b.mark = v.mark)))).resolveQuote v.mark
          .withdrawn).freeVessel v.mark).raise (.vesselWithdrawn v.mark .withdraw (some t.id))).unreserveBerths 1).settle))
  ∧ (∀ (s : State) (id : Nat) (cause : EmptyCause),
      let rest := s.arb.queue.filter (fun x => !decide (x = id))
      let told := if rest = [] ∧ s.arb.queue ≠ [] then s.raise (.queueEmpty id cause) else s
      s.leaveQueue id cause = { told with arb := { s.arb with queue := rest }, callDue := true })
  ∧ (∀ (s : State) (berths : List Berth),
      let u := s.uncommitBerths berths
      let account (m : Mark) : Nat := match s.vessel m with | some v => v.account | none => 0
      u = { s with
        acc := { s.acc with table := u.acc.table, counter := u.acc.counter }, agenda := s.agenda ++ s.accountEvents berths }
      ∧ s.accountEvents berths =
          (((berths.filter (fun b => decide (0 < b.estimate))).map (fun b => account b.mark)).eraseDups).map Task.accountEvent
      ∧ ∀ n, u.acc.find n = (s.acc.find n).map (fun a => { a with commitment := a.commitment
          - ((berths.filter (fun b => decide (account b.mark = n))).map Berth.estimate).sum }))
  ∧ (∀ (s : State) (m : Mark) (r : QuoteResult),
      let holds (n : Nat) : Prop := match s.acc.slots.get (n - 1) with
        | .free => False
        | .pending x => x = m
        | .resolved x _ _ => x = m
      let kind : QuoteKind := match r with | .charge _ => .charge | .withdrawn => .withdrawn | .noCharge => .noCharge
      ((∀ n, 1 ≤ n → n ≤ 4 → ¬ holds n) → s.resolveQuote m r = s)
      ∧ ∀ n, 1 ≤ n → n ≤ 4 → holds n → (∀ i, 1 ≤ i → i < n → ¬ holds i) →
        s.resolveQuote m r = State.raise (.quoteReady m n kind)
          { s with acc := { s.acc with slots := s.acc.slots.set (n - 1) (.resolved m r (s.timing.discard * 1000)) } })
  ∧ (∀ (s : State) (id n : Nat) (m : Mark) (before : Option Nat) (f : Transit → Transit),
      s.setTransit id f = { s with table := s.table.map (fun t => if t.id = id then f t else t) }
      ∧ s.freeTransit id = { s with table := s.table.filter (fun t => !decide (t.id = id)) }
      ∧ s.freeVessel m = { s with reg := { s.reg with entries := s.reg.entries.filter (fun v => !decide (v.mark = m)) } }
      ∧ s.unreserveBerths n = { s with acc := { s.acc with reserved := s.acc.reserved - n }, callDue := true }
      ∧ s.newHead before = (if s.arb.queue.head? = before then s else { s with agenda := s.agenda ++ [.examineHead] }))

/-! ## Calling and transits (05, 06) -/

/-- AUTO_CALL (R82): the setting as sent; ON where it was OFF hands a calling event, OFF where it was ON sets the blocking reason, the present value changes nothing, and a setting outside the list is OUT_OF_RANGE, the model's choice (log 10). A calling event (R83): with auto calling OFF it calls nothing and sets AUTO_OFF; outside SERVICE it sets NOT_SERVICE; in SERVICE with a full transit queue QUEUE_FULL, with no berth capacity JOURNAL_FULL (R84, R88), and with no callable vessel NO_VESSEL (R85, R86). Who is callable, and the credit test it rests on (R74, R85); the direction of a pass: the earliest callable SERVICE vessel, then the run limit, then the last direction (R86); berth 1, a callable vessel with precedence first (R89); the scan of the queue from the front, up to the capacity (R88, R90); the vessels passed over for fit, which are skipped, and the direction memory (R73, R87); each pass, followed by another, until one ends with a reason (R84). -/
def Obligations.AutoCalling : Prop :=
  (∀ (h : Hdr) (s : State), s.takes h 10 →
      let u := s.heard h
      exec (.autoCall h none) s = .next (State.replied h 10 (refuse .outOfRange) u)
      ∧ (∀ b, b = s.arb.autoOn → exec (.autoCall h (some b)) s = .next (State.replied h 10 (accept (.autoCall b)) u))
      ∧ (s.arb.autoOn = false → exec (.autoCall h (some true)) s =
          .next (State.replied h 10 (accept (.autoCall true))
            (State.settle { u with arb := { u.arb with autoOn := true }, callDue := true })))
      ∧ (s.arb.autoOn = true → exec (.autoCall h (some false)) s =
          .next (State.replied h 10 (accept (.autoCall false))
            (State.settle { u with arb := { u.arb with autoOn := false, reason := .autoOff } }))))
  ∧ (∀ s : State,
      (s.arb.autoOn = false → s.takeCalling = { s with arb := { s.arb with reason := .autoOff } })
      ∧ (s.arb.autoOn = true → s.auth.mode ≠ .service → s.takeCalling = { s with arb := { s.arb with reason := .notService } })
      ∧ (s.arb.autoOn = true → s.auth.mode = .service →
        (4 ≤ s.arb.queue.length → s.takeCalling = { s with arb := { s.arb with reason := .queueFull } })
        ∧ (s.arb.queue.length < 4 → s.acc.margin = 0 →
            s.takeCalling = { s with arb := { s.arb with reason := .journalFull } })
        ∧ (s.arb.queue.length < 4 → 0 < s.acc.margin → s.callables .up = [] → s.callables .down = [] →
            s.firstService = none → s.takeCalling = { s with arb := { s.arb with reason := .noVessel } })
        ∧ s.takeCalling = s.passes 5))
  ∧ (∀ s : State,
      let callable (v : Vessel) : Prop :=
        v.state = .waiting ∧ s.creditHeld v = false
          ∧ (match v.dir with | .down => (s.head 0 .above).fault | .up => (s.head s.count .below).fault) = false
      let last := s.arb.lastDir
      let other : Direction := match last with | .up => .down | .down => .up
      s.acc.margin = 128 - s.acc.journal.length - s.acc.reserved
      ∧ (s.suspended .down = (s.head 0 .above).fault ∧ s.suspended .up = (s.head s.count .below).fault)
      ∧ (s.firstService = none ↔ ∀ v ∈ s.reg.entries, ¬ (v.cls = .service ∧ callable v))
      ∧ (∀ d v, v ∈ s.callables d ↔ (∃ m ∈ s.reg.queue d, s.vessel m = some v) ∧ callable v)
      ∧ (∀ v a extra, s.acc.find v.account = some a →
          (s.creditHeldWith extra v = true ↔ a.status = .blocked
            ∨ (a.number ≠ 0 ∧ v.cls ≠ .service
              ∧ a.balance - ((a.commitment + extra : Nat) : Int) - (s.estimate v : Int) < -(a.limit : Int)))
          ∧ s.creditHeld v = s.creditHeldWith 0 v)
      ∧ (∀ before v rest, s.reg.entries = before ++ v :: rest → v.cls = .service → callable v →
          (∀ w ∈ before, ¬ (w.cls = .service ∧ callable w)) → s.chooseDirection = some v.dir)
      ∧ ((∀ w ∈ s.reg.entries, ¬ (w.cls = .service ∧ callable w)) →
          (s.callables other ≠ [] → s.timing.runLimit ≤ s.arb.runCount → s.chooseDirection = some other)
          ∧ (s.callables last ≠ [] → (s.callables other = [] ∨ s.arb.runCount < s.timing.runLimit) →
              s.chooseDirection = some last)
          ∧ (s.callables last = [] → s.callables other ≠ [] → s.chooseDirection = some other)
          ∧ (s.callables last = [] → s.callables other = [] → s.chooseDirection = none))
      ∧ (∀ d before v rest, s.callables d = before ++ v :: rest → v.precedence = true →
          (∀ w ∈ before, w.precedence = false) → s.berthOne d = some v)
      ∧ (∀ d, (∀ w ∈ s.callables d, w.precedence = false) → s.berthOne d = (s.callables d).head?))
  ∧ (∀ (s : State) (d : Direction) (first : Vessel),
      let c := s.compose d first
      s.capacity = min 8 (128 - s.acc.journal.length - s.acc.reserved)
      ∧ c = s.scan s.capacity
          (((s.reg.queue d).filterMap s.vessel).filter (fun v => !decide (v.mark = first.mark)))
          { berths := [(first, s.estimate first)], left := s.minUsable - (first.length + s.flight.clearance), skipped := [] }
      ∧ (∀ (capacity : Nat) (v : Vessel) (rest : List Vessel) (x : Composition),
          let held := s.creditHeldWith
            ((x.berths.filter (fun b => decide (b.1.account = v.account))).map Prod.snd).sum v
          let berth := v.length + s.flight.clearance
          s.scan capacity [] x = x
          ∧ (capacity ≤ x.berths.length → s.scan capacity (v :: rest) x = x)
          ∧ (x.berths.length < capacity → held = true → s.scan capacity (v :: rest) x = s.scan capacity rest x)
          ∧ (x.berths.length < capacity → held = false → berth ≤ x.left →
              s.scan capacity (v :: rest) x = s.scan capacity rest
                { x with berths := x.berths ++ [(v, s.estimate v)], left := x.left - berth })
          ∧ (x.berths.length < capacity → held = false → x.left < berth →
              s.scan capacity (v :: rest) x = s.scan capacity rest { x with skipped := x.skipped ++ [v.mark] }))
      ∧ (c.skipped.Nodup →
          let made := State.createTransit d .call c.berths
            { s with reg := { s.reg with entries := s.reg.entries.map (fun v =>
                if v.mark ∈ c.skipped then
                  { v with skips := min 7 (v.skips + 1)
                           precedence := v.precedence || decide (s.timing.skipLimit ≤ min 7 (v.skips + 1)) }
                else v) } }
          s.callFrom d first =
            { made with arb := { made.arb with
                lastDir := d, runCount := if d = s.arb.lastDir then min 15 (s.arb.runCount + 1) else 1 } })
      ∧ (∀ n, s.arb.queue.length < 4 → 0 < s.acc.margin → s.chooseDirection = some d → s.berthOne d = some first →
          s.passes (n + 1) = State.passes n (s.callFrom d first)))
  ∧ (∀ (s : State) (n : Nat),
      let blocked (r : BlockReason) : Prop := s.passes (n + 1) = { s with arb := { s.arb with reason := r } }
      s.passes 0 = s
      ∧ (4 ≤ s.arb.queue.length → blocked .queueFull)
      ∧ (s.arb.queue.length < 4 → s.acc.margin = 0 → blocked .journalFull)
      ∧ (s.arb.queue.length < 4 → 0 < s.acc.margin → s.chooseDirection = none → blocked .noVessel))

/-- The creation of a transit (R91, R92): a QUEUED record at the end of the table and the queue with the next id, the first after the last transit id that no record holds, counted from 255 on to 1 and never 0, holding nothing, its generation, night flag and call time read now; its berths reserved in the journal, its vessels CALLED with their estimates and out of their queues, each estimate added to the commitment of its account, and TRANSIT_CALLED raised; where it joins an empty queue the head is examined in that event, which is the model's reading (log 40). PLAN_TRANSIT (R94, R95): the tests in their order; the plan that passes them creates the transit with origin PLAN and its berths in the order of the list, each with the estimate of the credit test. One that meets a full queue raises QUEUE_OVERFLOW and is refused with FULL. A direction outside the list is refused as a mark out of range is, the model's choice (log 10). -/
def Obligations.PlanTransitTaken : Prop :=
  (∀ s : State,
      let id := s.nextId 9 s.arb.lastId
      let after (n : Nat) : Nat := if n < 255 then n + 1 else 1
      let held (n : Nat) : Prop := ∃ t ∈ s.table, t.id = n
      (∀ k, 1 ≤ k → k ≤ 9 → (∀ j, 1 ≤ j → j < k → held (Nat.iterate after j s.arb.lastId)) →
          ¬ held (Nat.iterate after k s.arb.lastId) → id = Nat.iterate after k s.arb.lastId)
      ∧ (1 ≤ id ∧ id ≤ 255) ∧ (s.table.length ≤ 8 → ¬ held id))
  ∧ (∀ (s : State) (d : Direction) (o : Origin) (l : List (Vessel × Nat)),
      let u := s.createTransit d o l
      let id := s.nextId 9 s.arb.lastId
      u.table = s.table ++
          [{ id := id, dir := d, state := .queued, origin := o, held := [], move := none, ops := [],
             berths := l.map (fun b =>
               { mark := b.1.mark, length := b.1.length + s.flight.clearance, estimate := b.2 }),
             generation := s.toll.current.number, night := s.toll.nightNow,
             callTime := if s.toll.clock.isSet then some (s.toll.clock.day, s.toll.clock.sec) else none,
             water := { predicted := 0, measured := 0, anomaly := false, stale := false }, overdue := .stopped }]
      ∧ u.arb = { s.arb with queue := s.arb.queue ++ [id], lastId := id }
      ∧ u.acc.reserved = s.acc.reserved + l.length ∧ u.acc.journal = s.acc.journal
      ∧ u.auth = s.auth ∧ u.lm = s.lm ∧ u.pcu = s.pcu ∧ u.toll = s.toll
      ∧ u.ports = (s.raise (.transitCalled id d o (s.arb.queue.length + 1) s.toll.current.number s.toll.nightNow
          (l.map (fun b => { mark := b.1.mark, length := b.1.length + s.flight.clearance, estimate := b.2 })))).ports
      ∧ ((l.map (fun b => b.1.mark)).Nodup →
          u.reg.entries = s.reg.entries.map (fun v =>
            match l.find? (fun b => decide (b.1.mark = v.mark)) with
            | some b => { v with state := .called id b.2, skips := 0, precedence := false }
            | none => v))
      ∧ (∀ m, (m ∈ u.reg.up ↔ m ∈ s.reg.up ∧ ∀ b ∈ l, ¬ (b.1.dir = .up ∧ b.1.mark = m))
          ∧ (m ∈ u.reg.down ↔ m ∈ s.reg.down ∧ ∀ b ∈ l, ¬ (b.1.dir = .down ∧ b.1.mark = m)))
      ∧ (∀ n, u.acc.find n = (s.acc.find n).map (fun a => { a with commitment :=
          a.commitment + ((l.filter (fun b => decide (b.1.account = n))).map Prod.snd).sum }))
      ∧ (s.arb.queue = [] → u.agenda = s.agenda ++ [.examineHead]) ∧ (s.arb.queue ≠ [] → u.agenda = s.agenda))
  ∧ (∀ (h : Hdr) (d : Direction) (marks : List Mark) (s : State), s.takes h 11 → s.auth.mode ≠ .config →
      1 ≤ marks.length → marks.length ≤ 8 → (∀ m ∈ marks, markOk m = true) → marks.Nodup →
      (∀ m ∈ marks, ∃ v, s.vessel m = some v ∧ v.state = .waiting ∧ v.dir = d) →
      s.firstHeld [] (s.planBerths marks) = none → s.planLength marks ≤ s.minUsable → marks.length ≤ s.capacity →
      let u := s.heard h
      s.planBerths marks = marks.filterMap (fun m => (s.vessel m).map (fun v => (v, s.estimate v)))
      ∧ s.planLength marks = ((s.planBerths marks).map (fun b => b.1.length + s.flight.clearance)).sum
      ∧
      (s.arb.queue.length < 4 →
        exec (.planTransit h (some d) marks) s = .next
          (State.replied h 11 (accept (.planned (s.nextId 9 s.arb.lastId) (s.arb.queue.length + 1)))
            ((u.createTransit d .plan (s.planBerths marks)).settle)))
      ∧ (4 ≤ s.arb.queue.length →
        exec (.planTransit h (some d) marks) s = .next
          (State.replied h 11 (refuse .full) (u.raise (.queueOverflow d marks.length)))))
  ∧ (∀ (h : Hdr) (d : Direction) (marks : List Mark) (s : State), s.takes h 11 →
      let refused (a : Answer) : Prop := exec (.planTransit h (some d) marks) s = .next (State.replied h 11 a (s.heard h))
      let inRange := 1 ≤ marks.length ∧ marks.length ≤ 8 ∧ ∀ m ∈ marks, markOk m = true
      (s.auth.mode = .config → refused (refuse .wrongMode))
      ∧ (s.auth.mode ≠ .config → ¬ inRange → refused (refuse .outOfRange))
      ∧ (s.auth.mode ≠ .config → inRange → ¬ marks.Nodup → refused (refuse .badRequest))
      ∧ (s.auth.mode ≠ .config → inRange → marks.Nodup →
        (∀ before m rest, marks = before ++ m :: rest → s.vessel m = none → (∀ x ∈ before, (s.vessel x).isSome = true) →
          refused (refuseWith .unknown (.mark m)))
        ∧ ((∀ m ∈ marks, (s.vessel m).isSome = true) →
          (∀ before m rest, marks = before ++ m :: rest → (∀ v, s.vessel m = some v → ¬ (v.state = .waiting ∧ v.dir = d)) →
            (∀ x ∈ before, ∀ v, s.vessel x = some v → v.state = .waiting ∧ v.dir = d) →
            refused (refuseWith .wrongState (.mark m)))
          ∧ ((∀ m ∈ marks, ∀ v, s.vessel m = some v → v.state = .waiting ∧ v.dir = d) →
            (∀ m, s.firstHeld [] (s.planBerths marks) = some m → refused (refuseWith .wrongState (.creditHeld m)))
            ∧ (s.firstHeld [] (s.planBerths marks) = none →
              (s.minUsable < s.planLength marks → refused (refuse .outOfGauge))
              ∧ (s.planLength marks ≤ s.minUsable → s.capacity < marks.length → refused (refuse .journalFull)))))))
  ∧ (∀ (s : State) (ahead : List (Vessel × Nat)) (b : Vessel × Nat) (rest : List (Vessel × Nat)),
      let counted := ((ahead.filter (fun x => decide (x.1.account = b.1.account))).map Prod.snd).sum
      s.firstHeld ahead [] = none
      ∧ (s.creditHeldWith counted b.1 = true → s.firstHeld ahead (b :: rest) = some b.1.mark)
      ∧ (s.creditHeldWith counted b.1 = false → s.firstHeld ahead (b :: rest) = s.firstHeld (ahead ++ [b]) rest))
  ∧ (∀ (h : Hdr) (marks : List Mark) (s : State), s.takes h 11 →
      let refused (e : Status) : Prop := exec (.planTransit h none marks) s = .next (State.replied h 11 (refuse e) (s.heard h))
      (s.auth.mode = .config → refused .wrongMode) ∧ (s.auth.mode ≠ .config → refused .outOfRange))

/-- CANCEL_TRANSIT (R96, R125): a QUEUED transit leaves the queue outside CONFIG; a MOVING transit in its ENTRY, not yet confirmed, is cancelled in SERVICE: its operations are aborted, a gate that is not CLOSED is commanded CLOSE, its chambers are released, its commitments removed, its vessels returned, its record freed, its reservation given back, and TRANSIT_CANCELLED raised, in that order; an unknown id, another state and another mode are turned away. The vessels of a cancelled transit become WAITING and return as one block in berth order directly behind the front run, with a calling event (R65, R66). WRONG_MODE in CONFIG is the model's choice (log 29). -/
def Obligations.CancelTransitTaken : Prop :=
  (∀ (s : State) (d : Direction) (marks : List Mark),
    let service (m : Mark) : Bool := match s.vessel m with | some v => decide (v.cls = .service) | none => false
    let back (q : List Mark) : List Mark := q.takeWhile service ++ marks ++ q.dropWhile service
    s.returnVessels d marks = { s with
      reg := { s.reg with
        entries := s.reg.entries.map (fun v => if v.mark ∈ marks then { v with state := .waiting } else v)
        up := if d = .up then back s.reg.up else s.reg.up
        down := if d = .down then back s.reg.down else s.reg.down }
      callDue := true })
  ∧ ∀ (h : Hdr) (id : Nat) (s : State), s.takes h 12 →
    let u := s.heard h
    (s.transit id = none → exec (.cancelTransit h id) s = .next (State.replied h 12 (refuse .unknown) u))
    ∧ ∀ t, s.transit id = some t →
      (t.state = .queued → s.auth.mode ≠ .config →
        exec (.cancelTransit h id) s = .next (State.replied h 12 (accept (.cancelled t.berths.length))
          (State.settle ((State.raise (.transitCancelled t.id .cancel (t.berths.map Berth.mark))
            ((((((u.leaveQueue t.id .cancel).uncommitBerths t.berths).returnVessels t.dir (t.berths.map Berth.mark)).unreserveBerths
              t.berths.length).freeTransit t.id))).newHead s.arb.queue.head?))))
      ∧ (∀ m, t.state = .moving → t.move = some m → m.kind = .entry → m.confirmed = false → s.auth.mode = .service →
        let stopped := t.ops.foldl (fun x e => State.abortOp t.id e.passage x) u
        let closed := if (stopped.passage m.passage).gate.state = .closed then stopped
          else State.commandClose false m.passage stopped
        let released : State :=
          { closed with table := closed.table.map (fun x => if x.id = t.id then { x with held := [] } else x) }
        exec (.cancelTransit h id) s = .next (State.replied h 12 (accept (.cancelled t.berths.length))
          (State.settle ((State.raise (.transitCancelled t.id .cancel (t.berths.map Berth.mark))
            ((((released.uncommitBerths t.berths).returnVessels t.dir (t.berths.map Berth.mark)).freeTransit t.id).unreserveBerths
              t.berths.length)).pushAll (t.held.map Task.released)))))
      ∧ (∀ m, t.state = .moving → t.move = some m → m.kind = .entry → m.confirmed = false → s.auth.mode ≠ .service →
        exec (.cancelTransit h id) s = .next (State.replied h 12 (refuse .wrongMode) u))
      ∧ (t.state = .waitingNext ∨ t.state = .settled ∨ (t.state = .moving ∧ ∀ m, t.move = some m → m.kind ≠ .entry ∨ m.confirmed = true) →
        exec (.cancelTransit h id) s = .next (State.replied h 12 (refuse .wrongState) u))
      ∧ (t.state = .queued → s.auth.mode = .config →
        exec (.cancelTransit h id) s = .next (State.replied h 12 (refuse .wrongMode) u))

/-- CONFIRM of a move that awaits it (R113): the overdue timer stops, the move is confirmed and enters CLOSE, and in SERVICE the gate is commanded CLOSED; CLEAR settles the transit in the same event (R115). Any other CONFIRM outside CONFIG is turned away. The gate of a move that stands at an end: OPEN in phase OPEN brings AWAIT, the overdue timer and MOVE_READY (R111, R112); CLOSED in CLOSE ends an ENTRY or a SHIFT in WAITING_NEXT with MOVE_DONE, the SHIFT with its destination alone, and an EXIT with TRANSIT_ENDED and its record freed (R114, R116); CLOSED in OPEN or AWAIT only reports the closing. An EQUALISED MOVE operation of the transit enters SHUTTING at each CLOSED so taken (R37). CONFIRM in CONFIG is refused with WRONG_MODE (log 29) and one with a kind outside the list with OUT_OF_RANGE (log 10), the model's choices. -/
def Obligations.ConfirmTaken : Prop :=
  (∀ (s : State) (k : Nat) (t : Transit) (m : Move), t ∈ s.table → t.move = some m → m.passage = k →
      (∀ u ∈ s.table, ∀ n, u.move = some n → n.passage = k → u = t) →
      let g := (s.passage k).gate.state
      let put (f : Transit → Transit) (x : State) : State :=
        { x with table := x.table.map (fun y => if y.id = t.id then f y else y) }
      let limit := if m.kind = .entry then s.timing.entryLimit else s.timing.exitLimit
      let awaited : ConfirmKind := match m.kind with | .entry => .entered | .shift => .moved | .exit => .cleared
      let shut := match (s.passage k).slot with
        | some o => if o.purpose = .move ∧ o.phase = .equalised ∧ o.transit = some t.id then s.enterShutting k else s
        | none => s
      (g = .opened → m.phase = .opened → s.takeGateEnd k =
        State.raise (.moveReady t.id m.kind k awaited) (put (fun y => { y with
          overdue := if s.auth.mode = .service then .running limit (limit * 1000) else .paused limit (limit * 1000)
          move := y.move.map (fun n => { n with phase := .await }) }) s))
      ∧ (g = .closed → m.phase = .close →
        (m.kind = .entry → s.takeGateEnd k = State.push (.examineNext t.id)
          (State.raise (.moveDone t.id .entry k)
            (put (fun y => { y with state := .waitingNext, held := t.held, move := none }) shut)))
        ∧ (m.kind = .shift → s.takeGateEnd k = State.pushAll [.released m.source, .examineNext t.id]
          (State.raise (.moveDone t.id .shift k)
            (put (fun y => { y with state := .waitingNext, held := [m.destination], move := none }) shut)))
        ∧ (m.kind = .exit → s.takeGateEnd k = State.pushAll (t.held.map Task.released)
          (let u := State.raise (.transitEnded t.id) shut
           { u with table := u.table.filter (fun y => !decide (y.id = t.id)) })))
      ∧ (g = .closed → m.phase = .opened ∨ m.phase = .await → s.takeGateEnd k = shut)
      ∧ (¬ (g = .opened ∧ m.phase = .opened) → ¬ (g = .closed ∧ m.phase ≠ .prep ∧ m.phase ≠ .equalise) →
          s.takeGateEnd k = s))
  ∧ (∀ (h : Hdr) (id : Nat) (kind : Option ConfirmKind) (s : State), s.takes h 13 →
      (s.auth.mode = .config → exec (.confirm h id kind) s = .next (State.replied h 13 (refuse .wrongMode) (s.heard h)))
      ∧ (s.auth.mode ≠ .config → kind = none →
          exec (.confirm h id kind) s = .next (State.replied h 13 (refuse .outOfRange) (s.heard h))))
  ∧ ∀ (h : Hdr) (id : Nat) (kind : ConfirmKind) (s : State), s.takes h 13 → s.auth.mode ≠ .config →
    let u := s.heard h
    (s.transit id = none → exec (.confirm h id (some kind)) s = .next (State.replied h 13 (refuse .unknown) u))
    ∧ ∀ t, s.transit id = some t →
      ((∀ m, t.move = some m → ¬ (m.phase = .await ∧ m.kind.awaits = kind)) →
        exec (.confirm h id (some kind)) s = .next (State.replied h 13 (refuse .wrongState) u))
      ∧ ∀ m, t.move = some m → m.phase = .await → m.kind.awaits = kind →
        let close (x : Transit) : Transit :=
          if x.id = t.id then
            { x with overdue := .stopped, move := x.move.map (fun y => { y with confirmed := true, phase := .close }) }
          else x
        let confirmed := { u with table := u.table.map close }
        let closing := confirmed.deriveAspects.when (decide (s.auth.mode = .service)) (State.commandClose false m.passage)
        let r := s.settlement t
        (kind ≠ .cleared → exec (.confirm h id (some kind)) s =
          .next (State.replied h 13 (accept (.confirmed .close none)) closing.settle))
        ∧ (kind = .cleared → exec (.confirm h id (some kind)) s =
          .next (State.replied h 13
            (accept (.confirmed .close (some (r.volume, (r.charges.map (fun c => c.parts.amount)).sum))))
            ((closing.settleWith t r).settle)))

/-- The CLEAR that settles a transit posts its charges (R115, R142, R156): the journal gains one CHARGE entry for each charge in berth order, numbered on from the next sequence number and stamped with the clock; the balance of each account falls by the amounts of its charges; the vessels leave the register (R77); the settings, the levels, the tariffs and authority stay. The steps of a settlement, whatever the result of the Toll Calculator, in the order of R115: the anomaly flag in the water record and VOLUME_ANOMALY (R136); the entries EXITED (R77); each charge posted, its balance, its journal entry and its reserved place, then the status of each account charged compared once (R149, R156), in the order of their first charges (the model's choice, log 43); each berth's estimate taken from its account's commitment (R155) and the entries freed; the quote slot of each mark resolved with the entry just appended for it (R165), numbered on from a next sequence number below 65536, as every run keeps it; the state SETTLED, TRANSIT_SETTLED, and a calling event. A berth whose mark is in no register entry, in states no run reaches, counts on account 0: the model's choice (log 38). -/
def Obligations.SettlementPostsCharges : Prop :=
  (∀ (s : State) (t : Transit) (r : Settlement),
    let marks := t.berths.map Berth.mark
    let water := { t.water with anomaly := r.anomaly }
    let put (f : Transit → Transit) (x : State) : State :=
      { x with table := x.table.map (fun y => if y.id = t.id then f y else y) }
    let recorded := put (fun y => { y with water := water }) s
    let flagged := if r.anomaly = true then
        State.raise (.volumeAnomaly t.id t.water.predicted t.water.measured r.bound r.volume) recorded
      else recorded
    let exited := t.berths.foldl (fun (x : State) b => { x with reg := { x.reg with
      entries := x.reg.entries.map (fun v =>
        if v.mark = b.mark then { v with state := .exited t.id b.estimate } else v) } }) flagged
    let posted := r.charges.foldl (fun (a : Accounts) c =>
      { a.update c.account (fun x => { x with balance := x.balance - c.parts.amount }) with
        journal := a.journal ++ [{ seq := a.nextSeq, kind := .charge c, stamp := s.toll.clock.stamp }]
        nextSeq := (a.nextSeq + 1) % 65536
        reserved := a.reserved - 1 }) s.acc
    let told := (r.charges.map Charge.account).eraseDups.flatMap (fun n =>
      match s.acc.find n, posted.find n with
      | some x, some y => statusNotice x y
      | _, _ => [])
    let uncommitted := (State.raiseAll told { exited with acc := posted }).uncommitBerths t.berths
    let freed : State := { uncommitted with reg := { uncommitted.reg with
      entries := uncommitted.reg.entries.filter (fun v => !decide (v.mark ∈ marks)) } }
    let charged (m : Mark) (e : JournalEntry) : Bool := match e.kind with
      | .charge c => decide (c.mark = m)
      | .payment _ _ => false
    let resolved := marks.foldl (fun (x : State) m =>
      match (posted.journal.drop s.acc.journal.length).find? (charged m) with
      | some e => x.resolveQuote m (.charge e)
      | none => x) freed
    s.settleWith t r = { State.raise
        (.transitSettled t.id water r.volume (r.charges.map (fun c => (c.mark, c.parts.amount))))
        (put (fun y => { y with state := .settled }) resolved) with callDue := true })
  ∧ (∀ (s : State) (t : Transit) (r : Settlement),
    let u := s.settleWith t r
    let account (m : Mark) : Nat := match s.vessel m with | some v => v.account | none => 0
    (∀ n, (u.acc.find n).map Account.commitment = (s.acc.find n).map (fun a => a.commitment
        - ((t.berths.filter (fun b => decide (account b.mark = n))).map Berth.estimate).sum))
    ∧ u.acc.reserved = s.acc.reserved - r.charges.length
    ∧ u.transit t.id =
        (s.transit t.id).map (fun x => { x with state := .settled, water := { t.water with anomaly := r.anomaly } })
    ∧ (∀ v, v ∈ u.reg.entries ↔ v ∈ s.reg.entries ∧ v.mark ∉ t.berths.map Berth.mark)
    ∧ (∀ n, n < 4 → (∀ m ∈ t.berths.map Berth.mark, (s.acc.slots.get n).mark ≠ some m) →
        u.acc.slots.get n = s.acc.slots.get n)
    ∧ ∀ n m i c, s.acc.nextSeq < 65536 → n < 4 → m ∈ t.berths.map Berth.mark → (s.acc.slots.get n).mark = some m →
        (∀ j, j < n → (s.acc.slots.get j).mark ≠ some m) → r.charges[i]? = some c → c.mark = m →
        (∀ j x, j < i → r.charges[j]? = some x → x.mark ≠ m) →
        u.acc.slots.get n = .resolved m
          (.charge { seq := (s.acc.nextSeq + i) % 65536, kind := .charge c, stamp := s.toll.clock.stamp })
          (s.timing.discard * 1000))
  ∧ ∀ (h : Hdr) (id : Nat) (t : Transit) (m : Move) (s : State), s.takes h 13 → s.auth.mode ≠ .config →
    s.acc.nextSeq < 65536 → s.transit id = some t → t.move = some m → m.phase = .await → m.kind = .exit →
    let charges := (s.settlement t).charges
    Answers (exec (.confirm h id (some .cleared)) s) (fun u =>
      u.acc.journal = s.acc.journal ++ charges.zipIdx.map (fun (c, i) =>
        ({ seq := (s.acc.nextSeq + i) % 65536, kind := .charge c,
           stamp := if s.toll.clock.isSet then some (s.toll.clock.day, s.toll.clock.sec) else none } : JournalEntry))
      ∧ u.acc.nextSeq = (s.acc.nextSeq + charges.length) % 65536
      ∧ (∀ n, (u.acc.find n).map Account.balance = (s.acc.find n).map (fun a =>
          a.balance - ((((charges.filter (fun c => decide (c.account = n))).map (fun c => c.parts.amount)).sum : Nat) : Int)))
      ∧ (∀ b ∈ t.berths, u.vessel b.mark = none)
      ∧ u.flight = s.flight ∧ u.timing = s.timing ∧ u.lm = s.lm ∧ u.toll = s.toll ∧ u.auth = s.auth ∧ u.pins = s.pins)

/-- ABANDON_TRANSIT (R124): only in SAFE_HOLD and only for a transit in MOVING or WAITING_NEXT; its record is freed in that event, with its vessels, commitments, reservations and operations, and the rest is turned away. Each account whose commitment falls with the berths is handed one account event, however many of them it has (R157). An abort (R40): an operation of the transit that waits without claims leaves its slot at once, the slot-free event handed on where one is owed; any other has its timers stopped and enters SHUTTING, to report ABORTED; the transit's pending open order there goes with it (R43), and the operation of another is left alone. One that is already in SHUTTING enters it again, which is the model's choice (log 51). An abandoned berth (R78): its estimate leaves the commitment, its quote resolves NO_CHARGE, its entry is freed, and VESSEL_WITHDRAWN says ABANDONED. A berth whose mark is in no register entry, in states no run reaches, counts on account 0, with its account events too: the model's choice (log 38). -/
def Obligations.AbandonFrees : Prop :=
  (∀ (h : Hdr) (id : Nat) (s : State), s.takes h 14 →
    let u := s.heard h
    (s.auth.mode ≠ .safeHold → exec (.abandonTransit h id) s = .next (State.replied h 14 (refuse .wrongMode) u))
    ∧ (s.auth.mode = .safeHold →
      (s.transit id = none → exec (.abandonTransit h id) s = .next (State.replied h 14 (refuse .unknown) u))
      ∧ ∀ t, s.transit id = some t →
        ((t.state = .queued ∨ t.state = .settled) →
          exec (.abandonTransit h id) s = .next (State.replied h 14 (refuse .wrongState) u))
        ∧ ((t.state = .moving ∨ t.state = .waitingNext) →
          exec (.abandonTransit h id) s = .next (State.replied h 14 (accept .empty)
            (((((((((t.ops.foldl (fun x e => State.abortOp t.id e.passage x) u).setTransit t.id
              (fun x => { x with held := [] })).each t.berths (State.abandonBerth t.id)).pushAll
                (s.accountEvents t.berths)).freeTransit t.id).unreserveBerths
                t.berths.length).raise (.transitAbandoned t.id (t.berths.map Berth.mark))).pushAll
                  (t.held.map Task.released)).settle)))))
  ∧ (∀ (s : State) (berths : List Berth) (n : Nat),
      ((∃ b ∈ berths, 0 < b.estimate ∧ s.accountOf b.mark = n) → (s.accountEvents berths).count (.accountEvent n) = 1)
      ∧ ((∀ b ∈ berths, 0 < b.estimate → s.accountOf b.mark ≠ n) → Task.accountEvent n ∉ s.accountEvents berths))
  ∧ (∀ (s : State) (id k : Nat), k < 4 →
      let gate (g : Gate) : Gate := if g.pendingOpen = some id then { g with pendingOpen := none } else g
      ((∀ o, (s.passage k).slot = some o → o.transit ≠ some id) → s.abortOp id k = s)
      ∧ ∀ o, (s.passage k).slot = some o → o.transit = some id →
        (o.phase = .waiting → o.claimsHeld = false →
          s.abortOp id k = State.pushAll (if (s.passage k).slotFreeOwed then [.slotFree k] else [])
            (State.setPassage k (fun p => { p with gate := gate p.gate, slot := none, slotFreeOwed := false }) s))
        ∧ (¬ (o.phase = .waiting ∧ o.claimsHeld = false) →
          s.abortOp id k = State.enterShutting k (State.setPassage k (fun p => { p with
            gate := gate p.gate, sluice := { p.sluice with rampTimer := none }
            slot := some { o with timer := none, aborted := true } }) s)))
  ∧ (∀ (s : State) (id : Nat) (b : Berth),
      let account := match s.vessel b.mark with | some v => v.account | none => 0
      let u := State.resolveQuote b.mark .noCharge { s with
        acc := s.acc.update account (fun a => { a with commitment := a.commitment - b.estimate }) }
      s.abandonBerth id b = State.raise (.vesselWithdrawn b.mark .abandoned (some id))
        { u with reg := { u.reg with entries := u.reg.entries.filter (fun v => !decide (v.mark = b.mark)) } })

/-! ## Passages by request (02) -/

/-- A request about a passage outside the flight is refused with OUT_OF_RANGE, for VISUAL_EQUAL by R44 and for RETRY_LEVEL by the model's choice, as is WRONG_STATE ahead of WRONG_MODE for an operation that is not STALLED (log 33); RETRY_LEVEL of a STALLED operation returns it to WAITING and examines it, one of a transit in SERVICE only (R39). VISUAL_EQUAL (R44): a grant sets the permit, has the passage examined and tries its pending open order; a withdrawal clears it. The examination of a waiting operation that holds its claims (R31): it starts where the mode, the sensors and records, the overflow check, the other passages and its own sluice allow it, a MANUAL one under a permit without the sensors and the check; otherwise it waits, showing OVERFLOW_RISK with HIGH_WATER once in a wait, or SENSOR. The start (R32, R38): the timer and the settings copied, the captures of the first start, then EQUALISED, RAMPING or FLOWING. The ranks in an arbitration (R30): operations with a transit first, then the one whose transit holds the chamber furthest along its direction, then creation order; the first-ranked candidate, one that waits without claims, wants a released chamber and finds all its chambers unclaimed, takes its claims and is examined, and so on until no candidate is left. A change of a passage (R31, R42, R43): each neighbour's pending open order is tried, its held step commanded where its operation is in RAMPING, and its operation examined; then its own. A pending open order is given once the permissive and the interlock pass; the Sequencer's order is refused by a FAULT gate, given where they pass, and else kept pending with its transit (R43, R111). That each reply carries all three of gate state, sluice state and phase (log 28), and that a wait with no data to predict from shows SENSOR (log 31), are the model's readings; that an action outside the list is OUT_OF_RANGE is its choice (log 10). -/
def Obligations.RetryAndPermit : Prop :=
  (∀ (h : Hdr) (k : Nat) (s : State), s.takes h 15 →
      let u := s.heard h
      (s.inUse k = false → exec (.retryLevel h k) s = .next (State.replied h 15 (refuse .outOfRange) u))
      ∧ (s.inUse k = true →
        ((∀ o, (s.passage k).slot = some o → o.phase ≠ .stalled) →
          exec (.retryLevel h k) s = .next (State.replied h 15 (u.passageAnswer k .wrongState) u))
        ∧ ∀ o, (s.passage k).slot = some o → o.phase = .stalled →
          (o.transit.isSome = true → s.auth.mode ≠ .service →
            exec (.retryLevel h k) s = .next (State.replied h 15 (u.passageAnswer k .wrongMode) u))
          ∧ ((o.transit = none ∨ s.auth.mode = .service) →
            let t := (State.push (.examine k) (State.setPassage k (fun p =>
              { p with slot := some { o with phase := .waiting, stall := none, timer := none, highWater := false } }) u)).settle
            exec (.retryLevel h k) s = .next (State.replied h 15 (t.passageAnswer k .ok) t))))
  ∧ (∀ (h : Hdr) (k : Nat) (s : State), s.takes h 18 →
      let u := s.heard h
      let permit (on : Bool) := State.push (.examine k) (State.setPassage k (fun p => { p with permit := on }) u)
      (s.inUse k = false → ∀ a, exec (.visualEqual h k a) s = .next (State.replied h 18 (refuse .outOfRange) u))
      ∧ (s.inUse k = true → exec (.visualEqual h k none) s = .next (State.replied h 18 (u.passageAnswer k .outOfRange) u))
      ∧ (s.inUse k = true →
        (let t := ((permit true).retryOpen k).settle
         exec (.visualEqual h k (some .grant)) s = .next (State.replied h 18 (t.passageAnswer k .ok) t))
        ∧ (let t := (permit false).settle
           exec (.visualEqual h k (some .withdraw)) s = .next (State.replied h 18 (t.passageAnswer k .ok) t))))
  ∧ (∀ (s : State) (k : Nat) (o : Op), k < 4 → k ≤ s.count → (s.passage k).slot = some o →
      let x := (s.passage k).sluice
      let exempt := o.purpose = .manual ∧ (s.passage k).permit = true
      let sensors := (s.sensor k).status = .good ∧ (s.sensor (k + 1)).status = .good
        ∧ (s.sensor k).level.stale = false ∧ (s.sensor (k + 1)).level.stale = false
      let risk := (s.sensor k).level.stale = false ∧ (s.sensor (k + 1)).level.stale = false
        ∧ s.overflowPasses (s.receiver k) (s.predictedLevel k) = false
      let ready := (s.auth.mode = .service ∨ o.purpose = .manual) ∧ (exempt ∨ (sensors ∧ ¬ risk)) ∧ s.neighboursClosed k
        ∧ x.state ≠ .fault ∧ x.state ≠ .moving
      let waits (y : Op) : State := State.setPassage k (fun p => { p with slot := some y }) s
      (¬ (o.phase = .waiting ∧ o.claimsHeld = true) → s.examine k = s)
      ∧ (o.phase = .waiting → o.claimsHeld = true →
        (ready → s.examine k = s.startOp k o)
        ∧ (¬ ready → exempt ∨ (sensors ∧ ¬ risk) → s.examine k = waits { o with stall := none })
        ∧ (¬ exempt → ¬ risk → ¬ sensors → s.examine k = waits { o with stall := some .sensor })
        ∧ (¬ exempt → risk →
          let u := waits { o with stall := some .overflowRisk, highWater := true }
          (o.highWater = true → s.examine k = u)
          ∧ ∀ p, o.highWater = false → s.receiver k = some p →
              s.examine k = u.raise (.highWater k (s.predictedLevel k) (s.chamber p).hMax))))
  ∧ (∀ (s : State) (k : Nat) (o : Op), k < 4 → (s.passage k).slot = some o →
      let manual := o.purpose = .manual
      let target := if manual then o.target else s.timing.sluiceTarget
      let reading : Reading :=
        { mean := (s.sensor 1).level.mean, count := (s.sensor 1).level.count, stale := (s.sensor 1).level.stale }
      let first : Op :=
        if o.started = true then o
        else if k = 0 ∧ ¬ manual then
          { o with started := true, hStar := (s.predict k).hStar, startReading := some reading
                   predicted := some ((s.chamber 1).area * ((s.sensor 0).level.mean - (s.sensor 1).level.mean)) }
        else { o with started := true, hStar := (s.predict k).hStar }
      let started (phase : OpPhase) : State := State.setPassage k (fun p =>
        { p with
          slot := some { first with phase := phase, stall := none, timer := some (s.timing.eqLimit * 1000), highWater := false }
          sluice := { p.sluice with
            target := target, rampInterval := s.timing.rampInterval, moveLimit := s.timing.moveLimit } }) s
      let position := (s.passage k).sluice.position
      (s.equal k = true → s.startOp k o = (started o.phase).reachEqualised k)
      ∧ (s.equal k = false → position < target → s.startOp k o = (started .ramping).stepUp k)
      ∧ (s.equal k = false → position = target → s.startOp k o = started .flowing)
      ∧ (s.equal k = false → target < position → s.startOp k o = (started .flowing).lower k target))
  ∧ (∀ (s : State) (a b : Op),
      let lead (o : Op) : Nat := ((o.transit.bind s.transit).map Transit.lead).getD 0
      (a.transit.isSome = true → b.transit = none → s.ranksAhead a b = true ∧ s.ranksAhead b a = false)
      ∧ (a.transit = none → b.transit = none → (s.ranksAhead a b = true ↔ a.order < b.order))
      ∧ (a.transit.isSome = true → b.transit.isSome = true →
          (s.ranksAhead a b = true ↔ lead b < lead a ∨ (lead a = lead b ∧ a.order < b.order))))
  ∧ (∀ (released : List Nat),
      let beside (s : State) (k c : Nat) : Prop := (c = k ∨ c = k + 1) ∧ 1 ≤ c ∧ c ≤ s.count
      let wants (s : State) (k : Nat) (o : Op) : Prop :=
        k ≤ s.count ∧ (s.passage k).slot = some o ∧ o.phase = .waiting ∧ o.claimsHeld = false
          ∧ (∃ c ∈ released, beside s k c) ∧ ∀ c, beside s k c → s.pcu.claims.get c = none
      ∀ s : State, s.count ≤ 3 →
        ((∀ k o, ¬ wants s k o) → ∀ rounds, s.arbitrate released rounds = s)
        ∧ (∀ k o rounds, wants s k o → (∀ j x, wants s j x → j ≠ k → s.ranksAhead o x = true) →
          s.arbitrate released (rounds + 1) = State.arbitrate released rounds (State.push (.examine k)
            (State.setPassage k (fun p => { p with slot := some { o with claimsHeld := true } })
              (s.setClaims (s.chambersOf k) (some k)))))
        ∧ ∀ k o, ¬ wants (s.arbitrate released 3) k o)
  ∧ (∀ (s : State) (k : Nat), k ≤ s.count →
      let changed (j : Nat) (x : State) : State := State.push (.examine j) ((x.retryOpen j).retryStep j)
      let above := if 1 ≤ k then changed (k - 1) s else s
      let below := if k < s.count then changed (k + 1) above else above
      s.takePassageChanged k = State.push (.examine k) below)
  ∧ (∀ (s : State) (k : Nat),
      let ramping := ∃ o, (s.passage k).slot = some o ∧ o.phase = .ramping
      ((s.passage k).sluice.stepHeld = true → ramping → s.retryStep k = s.stepUp k)
      ∧ ((s.passage k).sluice.stepHeld = false ∨ ¬ ramping → s.retryStep k = s))
  ∧ (∀ (s : State) (id k : Nat), k < 4 →
      let g := (s.passage k).gate
      ((g.pendingOpen = none ∨ s.mayOpen k = false) → s.retryOpen k = s)
      ∧ (g.pendingOpen.isSome = true → s.mayOpen k = true →
          s.retryOpen k = State.commandOpen false k (State.setGate k (fun x => { x with pendingOpen := none }) s))
      ∧ (g.state = .fault → s.orderOpen id k = s)
      ∧ (g.state ≠ .fault → s.mayOpen k = true → s.orderOpen id k = s.commandOpen false k)
      ∧ (g.state ≠ .fault → s.mayOpen k = false →
          s.orderOpen id k = State.setGate k (fun x => { x with pendingOpen := some id }) s))
  ∧ (∀ (s : State) (k : Nat) (e : Status), s.passageAnswer k e =
      { status := e
        body := .passageState (s.passage k).gate.state (s.passage k).sluice.state ((s.passage k).slot.map Op.phase) })
  ∧ (∀ t : Transit,
      let place (c : Nat) : Nat := match t.dir with | .down => c | .up => 4 - c
      (∀ c ∈ t.held, place c ≤ t.lead) ∧ (t.held = [] → t.lead = 0)
      ∧ (t.held ≠ [] → ∃ c ∈ t.held, t.lead = place c))

/-- MANUAL_GATE of a passage above N is refused with OUT_OF_RANGE (R45). On a passage in use that R45 admits (R46): OPEN only where the permissive and the interlock pass, else INTERLOCK with the gate unchanged; CLOSE always; STOP drops the drive of a travel and the pending order (R24). A passage that R45 does not admit in SERVICE is refused with WRONG_STATE: one whose slot holds an operation of a transit, or with a holder in a chamber beside it. The permissive is EQUAL with both sensors GOOD, or the permit (R43), and the interlock every other passage of the chambers beside it fully closed (R42). What a gate command does to a gate (R21): from rest or the opposite travel it starts a travel with freshly copied limits and a fresh timer; a command in the direction already travelled starts none, nor one at its end, which the Sequencer is told of; a travel to the limit that is asserted ends in that event, which is DEDUCED for a reversal (log 17); FAULT is left only by a manual command. That each reply carries all three of gate state, sluice state and phase is the model's reading (log 28). An action outside the list is OUT_OF_RANGE, the model's choice (log 10). -/
def Obligations.ManualGateTaken : Prop :=
  (∀ (s : State) (k : Nat), k ≤ s.count →
      (s.interlockOk k = true ↔ s.neighboursClosed k)
      ∧ (s.mayOpen k = true ↔
          ((s.equal k = true ∧ (s.sensor k).status = .good ∧ (s.sensor (k + 1)).status = .good)
            ∨ (s.passage k).permit = true) ∧ s.neighboursClosed k)
      ∧ (s.manualAdmitted k = true ↔ (s.auth.mode = .service →
          (∀ o, (s.passage k).slot = some o → o.purpose = .manual)
          ∧ ∀ c, (c = k ∨ c = k + 1) → 1 ≤ c → c ≤ s.count → ∀ t ∈ s.table, c ∉ t.held)))
  ∧ (∀ (h : Hdr) (k : Nat) (a : Option GateAction) (s : State), s.takes h 16 → s.inUse k = false →
      exec (.manualGate h k a) s = .next (State.replied h 16 (refuse .outOfRange) (s.heard h)))
  ∧
  (∀ (h : Hdr) (k : Nat) (s : State), s.takes h 16 → s.inUse k = true →
      let u := s.heard h
      exec (.manualGate h k none) s = .next (State.replied h 16 (u.passageAnswer k .outOfRange) u)
      ∧ (∀ a, s.manualAdmitted k = false →
        exec (.manualGate h k (some a)) s = .next (State.replied h 16 (u.passageAnswer k .wrongState) u))
      ∧ (s.manualAdmitted k = true →
        (s.mayOpen k = false →
          exec (.manualGate h k (some .openGate)) s = .next (State.replied h 16 (u.passageAnswer k .interlock) u))
        ∧ (s.mayOpen k = true →
          let t := (u.commandOpen true k).settle
          exec (.manualGate h k (some .openGate)) s = .next (State.replied h 16 (t.passageAnswer k .ok) t))
        ∧ (let t := (u.commandClose true k).settle
           exec (.manualGate h k (some .closeGate)) s = .next (State.replied h 16 (t.passageAnswer k .ok) t))
        ∧ (let stopped := State.setGate k
              (fun g => { g with state := .stopped, drive := .off, timer := none, pendingOpen := none }) u
           let t := (if (s.passage k).gate.state.travelling then stopped.push (.passageChanged k)
              else State.setGate k (fun g => { g with pendingOpen := none }) u).settle
           exec (.manualGate h k (some .stopGate)) s = .next (State.replied h 16 (t.passageAnswer k .ok) t))))
  ∧ (∀ (s : State) (k : Nat), k < 4 →
      let g := (s.passage k).gate
      let fresh : Gate := { g with
        cause := none, limit := s.timing.gateLimit, slowPct := s.timing.slowPct, timer := some (s.timing.gateLimit * 1000) }
      (∀ manual, (g.state = .closed ∨ g.state = .closing ∨ g.state = .stopped ∨ (g.state = .fault ∧ manual = true)) →
        g.position ≠ .atOpen →
        s.commandOpen manual k =
          State.push (.passageChanged k) (State.setGate k (fun _ => { fresh with state := .opening, drive := .opening }) s))
      ∧ (∀ manual, (g.state = .opened ∨ g.state = .opening ∨ g.state = .stopped ∨ (g.state = .fault ∧ manual = true)) →
        g.position ≠ .atClosed →
        s.commandClose manual k =
          State.push (.passageChanged k)
            (State.setGate k (fun _ => { fresh with state := .closing, drive := .closing, pendingOpen := none }) s))
      ∧ (g.state = .opening → ∀ manual, s.commandOpen manual k = s)
      ∧ (g.state = .opened → s.commandOpen true k = s)
      ∧ (g.state = .fault → s.commandOpen false k = s)
      ∧ (g.state = .closing → ∀ manual, s.commandClose manual k = State.setGate k (fun x => { x with pendingOpen := none }) s))
  ∧ (∀ (s : State) (k : Nat), k < 4 →
      let g := (s.passage k).gate
      let ended : Gate := { g with
        cause := none, limit := s.timing.gateLimit, slowPct := s.timing.slowPct, timer := none, drive := .off, lastTravel := 0 }
      let there (f : Passage → Passage) : State :=
        State.pushAll [.passageChanged k, .passageChanged k, .gateEnd k] (State.setPassage k f s)
      (g.state = .opened → s.commandOpen false k = State.push (.gateEnd k) s)
      ∧ (g.state = .closed → s.commandClose false k =
          State.push (.gateEnd k) (State.setGate k (fun x => { x with pendingOpen := none }) s))
      ∧ (g.state = .closed → s.commandClose true k = State.setGate k (fun x => { x with pendingOpen := none }) s)
      ∧ (g.state = .fault → s.commandClose false k = State.setGate k (fun x => { x with pendingOpen := none }) s)
      ∧ (∀ manual, (g.state = .stopped ∨ g.state = .closing ∨ (g.state = .fault ∧ manual = true)) → g.position = .atOpen →
          s.commandOpen manual k = there (fun p => { p with gate := { ended with state := .opened } }))
      ∧ (∀ manual, (g.state = .stopped ∨ g.state = .opening ∨ (g.state = .fault ∧ manual = true)) → g.position = .atClosed →
          s.commandClose manual k =
            there (fun p => { p with gate := { ended with state := .closed, pendingOpen := none }, permit := false })))

/-- MANUAL_SLUICE (R45, R47, R48): a passage above N, a position above 8, and a position 1 to 8 with no flight described are OUT_OF_RANGE, ahead of the mode's test, which is the model's order (log 33); a passage that R45 does not admit is WRONG_STATE. Position 0 lowers the sluice to 0 from any state, FAULT among them, with the move limit copied afresh (log 23); a MANUAL operation enters SHUTTING by it, and an operation of a transit keeps its phase. Position 1 to 8 is WRONG_STATE for a sluice in FAULT or a MANUAL operation in SHUTTING; in a free slot it creates a MANUAL operation, which takes its claims where all are free and is then examined (R28, R29); to a MANUAL operation it gives the new target, in RAMPING or FLOWING with the phase by the position; any other operation it takes over: TAKEN_OVER reported, the transit gone, purpose MANUAL, WAITING, claims kept; that it keeps the captured h* and the first start, keeps the mark of a HIGH_WATER raised where it already waits, drops the captured readings, and stops the ramp and equalise timers while a move in flight runs on, is the model's reading (log 31). The opening step (R25, R42) and the lowering move (R26) that these command. That each reply carries all three of gate state, sluice state and phase is the model's reading (log 28). -/
def Obligations.ManualSluiceActs : Prop :=
  (∀ (h : Hdr) (k p : Nat) (s : State), s.takes h 17 →
      let u := s.heard h
      let o := (s.passage k).slot
      let refused (e : Status) : Prop := exec (.manualSluice h k p) s = .next (State.replied h 17 (u.passageAnswer k e) u)
      let done (t : State) : Prop := exec (.manualSluice h k p) s = .next (State.replied h 17 (t.passageAnswer k .ok) t)
      (s.inUse k = false → exec (.manualSluice h k p) s = .next (State.replied h 17 (refuse .outOfRange) u))
      ∧ (s.inUse k = true → (8 < p ∨ (p ≠ 0 ∧ s.flight.n = none)) → refused .outOfRange)
      ∧ (s.inUse k = true → p ≤ 8 → (p = 0 ∨ s.flight.n.isSome = true) →
        (s.manualAdmitted k = false → refused .wrongState)
        ∧ (s.manualAdmitted k = true →
          (p = 0 → done (u.manualShut k).settle)
          ∧ (p ≠ 0 → (s.passage k).sluice.state = .fault → refused .wrongState)
          ∧ (∀ x, p ≠ 0 → o = some x → x.purpose = .manual → x.phase = .shutting → refused .wrongState)
          ∧ (p ≠ 0 → (s.passage k).sluice.state ≠ .fault →
            (o = none → done (u.createOp k .manual none p).settle)
            ∧ (∀ x, o = some x → x.purpose = .manual → x.phase ≠ .shutting → done (u.moveManual k p x).settle)
            ∧ (∀ x, o = some x → x.purpose ≠ .manual → done (u.takeOver k p x).settle)))))
  ∧ (∀ (s : State) (k : Nat), k < 4 →
      let x := (s.passage k).sluice
      let fresh (t : State) : State := State.setSluice k (fun y =>
        { y with moveLimit := s.timing.moveLimit, cause := none, state := if y.state = .fault then .set else y.state }) t
      let shutting : State := State.setOp k (fun y => { y with phase := .shutting, stall := none }) s
      ((∀ o, (s.passage k).slot = some o → o.purpose ≠ .manual) →
        s.manualShut k = if x.state = .shut then s else (fresh s).lower k 0)
      ∧ (∀ o, (s.passage k).slot = some o → o.purpose = .manual →
        s.manualShut k = if x.state = .shut then shutting.endOp k else (fresh shutting).lower k 0)
      ∧ s.enterShutting k = (if x.state = .shut then shutting.endOp k else shutting.lower k 0))
  ∧ (∀ (s : State) (k target : Nat), k < 4 →
      let x := (s.passage k).sluice
      (x.state = .fault → s.lower k target = s ∧ s.stepUp k = s)
      ∧ (x.state = .moving ∨ (x.state ≠ .fault ∧ x.position ≠ target) →
        s.lower k target = State.push (.passageChanged k) (State.setSluice k (fun y =>
          { y with state := .moving, commanded := some target, rampTimer := none, driven := true, stepHeld := false
                   moveTimer := some (y.moveLimit * 1000) }) s))
      ∧ (x.state = .shut ∨ x.state = .set → x.position = target →
        s.lower k target = (State.push (.passageChanged k) (State.setSluice k (fun y =>
          { y with state := if target = 0 then .shut else .set, commanded := none, rampTimer := none, moveTimer := none
                   driven := false, stepHeld := false }) s)).afterMove k)
      ∧ (x.state = .moving → s.stepUp k = s)
      ∧ (x.state = .shut ∨ x.state = .set → s.stepUp k =
          if s.interlockOk k then
            State.push (.passageChanged k) (State.setSluice k (fun y =>
              { y with state := .moving, commanded := some (y.position + 1), driven := true, stepHeld := false
                       moveTimer := some (y.moveLimit * 1000) }) s)
          else State.setSluice k (fun y => { y with stepHeld := true }) s))
  ∧ (∀ (s : State) (k p : Nat) (o : Op), k < 4 → (s.passage k).slot = some o →
      let position := (s.passage k).sluice.position
      let running (phase : OpPhase) : State := State.setPassage k (fun q =>
        { q with slot := some { o with target := p, phase := phase }, sluice := { q.sluice with target := p } }) s
      (o.phase ≠ .ramping → o.phase ≠ .flowing → s.moveManual k p o = State.setOp k (fun y => { y with target := p }) s)
      ∧ (o.phase = .ramping → position < p → s.moveManual k p o = running .ramping)
      ∧ (o.phase = .flowing → position < p → s.moveManual k p o = (running .ramping).stepUp k)
      ∧ (o.phase = .ramping ∨ o.phase = .flowing → position = p → s.moveManual k p o = running .flowing)
      ∧ (o.phase = .ramping ∨ o.phase = .flowing → p < position →
          s.moveManual k p o = (running .flowing).lower k p)
      ∧ (let reading : Reading :=
          { mean := (s.sensor 1).level.mean, count := (s.sensor 1).level.count, stale := (s.sensor 1).level.stale }
         let captured : Op :=
          if k = 0 ∧ o.startReading.isSome ∧ o.endReading = none then { o with endReading := some reading } else o
         s.takeOver k p o = State.push (.examine k)
          (State.setPassage k (fun q => { q with
            slot := some { o with
              transit := none, purpose := .manual, target := p, phase := .waiting, stall := none, timer := none
              startReading := none, endReading := none, predicted := none, aborted := false
              highWater := o.highWater && decide (o.phase = .waiting) }
            sluice := { q.sluice with rampTimer := none } })
            (s.pushAll (s.reportTasks k captured .takenOver)))))
  ∧ (∀ (s : State) (k target : Nat) (purpose : Purpose) (transit : Option Nat), k < 4 →
      let free := s.unclaimed k
      let o : Op :=
        { purpose := purpose, transit := transit, phase := .waiting, stall := none, claimsHeld := free
          order := s.pcu.nextOrder, target := target, timer := none, highWater := false, hStar := none, started := false
          startReading := none, endReading := none, predicted := none, aborted := false }
      let u : State := { s with pcu := { s.pcu with
        passages := s.pcu.passages.set k { s.passage k with slot := some o }, nextOrder := s.pcu.nextOrder + 1 } }
      (free = true ↔ ∀ c, (c = k ∨ c = k + 1) → 1 ≤ c → c ≤ s.count → s.pcu.claims.get c = none)
      ∧ (∀ c, c ∈ s.chambersOf k ↔ (c = k ∨ c = k + 1) ∧ 1 ≤ c ∧ c ≤ s.count)
      ∧ s.createOp k purpose transit target =
          if free then State.push (.examine k) (u.setClaims (s.chambersOf k) (some k)) else u)
  ∧ (∀ (s : State) (c : Nat) (chambers : List Nat) (owner : Option Nat), 1 ≤ c → c ≤ 3 →
      (∀ d ∈ chambers, 1 ≤ d ∧ d ≤ 3) →
      let t := s.setClaims chambers owner
      t = { s with pcu := { s.pcu with claims := t.pcu.claims } }
      ∧ t.pcu.claims.get c = (if c ∈ chambers then owner else s.pcu.claims.get c))

/-! ## Authority and modes (09) -/

/-- EMERGENCY_STOP (R176): from CONSOLE or REGION, holder or not, in every mode; outside SAFE_HOLD it brings SAFE_HOLD with the sender recorded and every passage in use as SAFE_HOLD entry leaves it (R41), in SAFE_HOLD nothing but what every event does at its end follows; holder and claim stay, and the reply is OK with the mode after the event. From TOLL it is refused with NOT_AUTHORISED. -/
def Obligations.EmergencyStopHolds : Prop :=
  ∀ (h : Hdr) (s : State), s.reaches h → h.lengthOk = true →
    ((h.port = .console ∨ h.port = .region) →
      Answers (exec (.emergencyStop h) s) (fun t =>
        t.steady = { s.steady with auth := { s.auth with
          mode := .safeHold
          holdCause := if s.auth.mode = .safeHold then s.auth.holdCause else some (.emergencyStop h.port) } }
        ∧ (s.auth.mode ≠ .safeHold → ∀ k, k ≤ s.count → k < 4 → (s.passage k).heldAs (t.passage k))
        ∧ (∃ r, (t.ports.get h.port).reply = some { frames := [r], sent := 0 }
            ∧ r = .reply h.tag 19 .ok 0 1 (.authority .safeHold s.auth.holder none .nothing))))
    ∧ ((h.port = .console ∨ h.port = .region) → s.auth.mode = .safeHold →
      exec (.emergencyStop h) s = .next (State.replied h 19
        { status := .ok, body := .authority .safeHold s.auth.holder none .nothing } (s.heard h).settle))
    ∧ (h.port = .toll →
      exec (.emergencyStop h) s = .next (State.replied h 19
        { status := .notAuthorised, body := .authority s.auth.mode s.auth.holder none .nothing } (s.heard h)))

/-- RESUME_SERVICE (R177): its five tests in their order, the mode, completeness, ESTOP, a passage in use in FAULT, a held chamber whose sensor is FAILED; the first that fails gives the reply, named with its first passage or chamber in WRONG_STATE and with the item missing in INCOMPLETE, nothing named in WRONG_MODE (log 28), and nothing changes; with none failing the mode becomes SERVICE and the hold cause goes. LEAVE_CONFIG (R172): likewise for its three tests. ENTER_CONFIG (R173): its four conditions in their order, the mode, a transit record, a slot in use, a gate not CLOSED or a sluice not SHUT; with none failing the mode becomes CONFIG. RESTART answers OK and leaves its reset to the end of the reply (R185). The return to SERVICE, by either: the mode set and the hold cause gone, each passage in use and then each transit taken up, a calling event, the aspects, SERVICE_MODE with its cause, and what follows (R171); the order of the notice is the model's choice (log 20). What it takes up: an operation stalled by HOLD returns to WAITING and is examined like a waiting one (R41); then each transit by its state and phase, and the queue head (R123): in EQUALISE, OPEN, or AWAIT with the gate not OPEN the move re-enters EQUALISE, its EQUALISED operation takes it to OPEN with a new order, and where it has none a MOVE is requested; in AWAIT the timer resumes; in CLOSE the gate is commanded CLOSED; in PREP a cascade is formed again, goes on, or is requested. Which operation of an EQUALISE goes on, and what an AWAIT goes back to, are DEDUCED (log 24). -/
def Obligations.ModeRequests : Prop :=
  (∀ (h : Hdr) (s : State),
      let back (cause : ModeCause) : State :=
        let set : State := { s.heard h with auth := { s.auth with mode := .service, holdCause := none } }
        let taken : State := ((List.range (s.count + 1)).foldl (fun x k => State.resumePassage k x) set).seqResume
        (State.raise (.serviceMode .service s.auth.mode cause) { taken with callDue := true }.deriveAspects).settle
      let answer : Answer := { status := .ok, body := .authority .service s.auth.holder none .nothing }
      (s.takes h 20 → s.resumeBlockers = [] →
        exec (.resumeService h) s = .next (State.replied h 20 answer (back .resumeService)))
      ∧ (s.takes h 25 → s.leaveBlockers = [] →
        exec (.leaveConfig h) s = .next (State.replied h 25 answer (back .leaveConfig))))
  ∧ (∀ (h : Hdr) (s : State), s.takes h 20 →
      let u := s.heard h
      let refused (e : Status) (d : Detail) : Prop := exec (.resumeService h) s = .next (State.replied h 20
        { status := e, body := .authority s.auth.mode s.auth.holder none d } u)
      let faulted (k : Nat) : Prop := (s.passage k).gate.state = .fault ∨ (s.passage k).sluice.state = .fault
      let barred (c : Nat) : Prop := (∃ t ∈ s.table, c ∈ t.held) ∧ (s.sensor c).status = .failed
      (s.auth.mode ≠ .safeHold → refused .wrongMode .nothing)
      ∧ (s.auth.mode = .safeHold →
        (∀ item, s.missing = some item → refused .incomplete (.blocked (.incomplete item)))
        ∧ (s.missing = none →
          (s.auth.estop = true → refused .wrongState (.blocked .estop))
          ∧ (s.auth.estop = false →
            (∀ k, k ≤ s.count → faulted k → (∀ j, j < k → ¬ faulted j) → refused .wrongState (.blocked (.faultAt k)))
            ∧ ((∀ k, k ≤ s.count → ¬ faulted k) →
              (∀ c, 1 ≤ c → c ≤ s.count → barred c → (∀ d, 1 ≤ d → d < c → ¬ barred d) →
                refused .wrongState (.blocked (.sensorFailedAt c)))
              ∧ ((∀ c, 1 ≤ c → c ≤ s.count → ¬ barred c) →
                s.resumeBlockers = [] ∧ Answers (exec (.resumeService h) s) (fun t =>
                  t.steady = { s.steady with auth := { s.auth with mode := .service, holdCause := none } })))))))
  ∧ (∀ (h : Hdr) (s : State), s.takes h 24 →
      let u := s.heard h
      let refused (e : Status) (d : Detail) : Prop := exec (.enterConfig h) s = .next (State.replied h 24
        { status := e, body := .authority s.auth.mode s.auth.holder none d } u)
      let closed (k : Nat) : Prop := (s.passage k).gate.state = .closed ∧ (s.passage k).sluice.state = .shut
      (s.auth.mode = .config → refused .wrongMode .nothing)
      ∧ (s.auth.mode ≠ .config →
        (s.table ≠ [] → refused .wrongState (.test 2))
        ∧ (s.table = [] →
          ((∃ k, k ≤ s.count ∧ (s.passage k).slot.isSome = true) → refused .wrongState (.test 3))
          ∧ ((∀ k, k ≤ s.count → (s.passage k).slot = none) →
            ((∃ k, k ≤ s.count ∧ ¬ closed k) → refused .wrongState (.test 4))
            ∧ ((∀ k, k ≤ s.count → closed k) →
              Answers (exec (.enterConfig h) s) (fun t =>
                t.steady = { s.steady with auth := { s.auth with mode := .config, holdCause := none } }
                ∧ (s.agenda = [] → t.pcu = s.pcu)))))))
  ∧ (∀ (h : Hdr) (s : State), s.takes h 25 →
      let u := s.heard h
      let refused (e : Status) (d : Detail) : Prop := exec (.leaveConfig h) s = .next (State.replied h 25
        { status := e, body := .authority s.auth.mode s.auth.holder none d } u)
      (s.auth.mode ≠ .config → refused .wrongMode .nothing)
      ∧ (s.auth.mode = .config →
        (∀ item, s.missing = some item → refused .incomplete (.blocked (.incomplete item)))
        ∧ (s.missing = none →
          (s.auth.estop = true → refused .wrongState (.blocked .estop))
          ∧ (s.auth.estop = false →
            s.leaveBlockers = [] ∧ Answers (exec (.leaveConfig h) s) (fun t =>
              t.steady = { s.steady with auth := { s.auth with mode := .service, holdCause := none } })))))
  ∧ (∀ (h : Hdr) (s : State), s.takes h 26 →
      exec (.restart h) s = .next (State.replied h 26
        { status := .ok, body := .authority s.auth.mode s.auth.holder none .nothing } (s.heard h)))
  ∧ (∀ s : State, s.seqResume = State.push .examineHead (s.table.foldl (fun x t => State.resumeTransit t x) s))
  ∧ (∀ (s : State) (k : Nat), k < 4 →
      ((s.passage k).slot = none → s.resumePassage k = s)
      ∧ ∀ o, (s.passage k).slot = some o →
        (o.phase = .stalled → o.stall = some .hold → s.resumePassage k = State.push (.examine k)
          (State.setPassage k (fun p =>
            { p with slot := some { o with phase := .waiting, stall := none, timer := none, highWater := false } }) s))
        ∧ (o.phase = .waiting → s.resumePassage k = State.push (.examine k) s)
        ∧ (o.phase ≠ .waiting → ¬ (o.phase = .stalled ∧ o.stall = some .hold) → s.resumePassage k = s))
  ∧ (∀ (s : State) (t : Transit),
      (t.state = .waitingNext → s.resumeTransit t = State.push (.examineNext t.id) s)
      ∧ ∀ m, t.state ≠ .waitingNext → t.move = some m → m.passage < 4 →
      let g := (s.passage m.passage).gate.state
      let put (f : Transit → Transit) : State :=
        { s with table := s.table.map (fun y => if y.id = t.id then f y else y) }
      let again (phase : MovePhase) : State :=
        put (fun y => { y with overdue := .stopped, move := y.move.map (fun n => { n with phase := phase, owed := none }) })
      let own (o : Op) : Prop :=
        o.transit = some t.id ∧ o.purpose = .move ∧ ∃ e ∈ t.ops, e.passage = m.passage ∧ e.purpose = .move
      let held (c : Nat) : Prop := ∃ x ∈ s.table, c ∈ x.held
      (m.phase = .equalise ∨ m.phase = .opened ∨ (m.phase = .await ∧ g ≠ .opened) →
        ((∀ o, (s.passage m.passage).slot = some o → ¬ own o) →
          s.resumeTransit t = State.push (.request t.id m.passage .move) (again .equalise))
        ∧ ∀ o, (s.passage m.passage).slot = some o → own o →
          (o.phase = .equalised → s.resumeTransit t = (again .opened).orderOpen t.id m.passage)
          ∧ (o.phase ≠ .equalised → o.phase ≠ .shutting → s.resumeTransit t = again .equalise))
      ∧ (m.phase = .await → g = .opened → s.resumeTransit t = put (fun y => { y with overdue := match y.overdue with
          | .paused limit left => .running limit left
          | .stopped => .stopped
          | .running limit left => .running limit left }))
      ∧ (m.phase = .close → g ≠ .closed → s.resumeTransit t = s.commandClose false m.passage)
      ∧ (m.phase = .prep →
        (∀ c, m.blockedAt = some c → (held c → s.resumeTransit t = s)
          ∧ (¬ held c → s.resumeTransit t = s.formCascade t.id t.dir m))
        ∧ (m.blockedAt = none → (∃ e ∈ t.ops, e.purpose ≠ .move) → s.resumeTransit t = s)
        ∧ (∀ k rest, m.blockedAt = none → (∀ e ∈ t.ops, e.purpose = .move) → m.cascade = k :: rest →
          s.auth.mode = .service → s.resumeTransit t =
            State.push (.request t.id k (match t.dir with | .down => .drain | .up => .charge)) s)))

/-- CLAIM (R179, R180): CONSOLE is granted at once where it is not holder; as holder it keeps what it holds, a pending claim and its timer with it; REGION keeps what it holds, waits where CONSOLE holds with its claim lodged once and the handover timer not restarted, and is granted where nobody holds; TOLL is refused with NOT_AUTHORISED. That the reply to a claim just lodged carries the time left too, and that it is told in milliseconds, is the model's choice (log 45). RELEASE and DENY (R181): with a claim pending the one passes authority to REGION and the other ends the claim; with none both are refused with WRONG_STATE. -/
def Obligations.ClaimReleaseDeny : Prop :=
  (∀ (h : Hdr) (s : State), s.takes h 21 →
      let u := s.heard h
      let granted := State.raise (.authority (some h.port) s.auth.holder .claim none)
        { u with auth := { u.auth with holder := some h.port, claim := none } }
      let answer (status : Status) (holder : Option Station) (left : Option Nat) : Answer :=
        { status := status, body := .authority s.auth.mode holder left .nothing }
      (s.auth.holder = some h.port →
        exec (.claim h) s = .next (State.replied h 21 (answer .ok (some h.port) none) u))
      ∧ (h.port = .console → s.auth.holder ≠ some .console →
        exec (.claim h) s = .next (State.replied h 21 (answer .ok (some .console) none) granted))
      ∧ (h.port = .region → s.auth.holder = none →
        exec (.claim h) s = .next (State.replied h 21 (answer .ok (some .region) none) granted))
      ∧ (∀ left, h.port = .region → s.auth.holder = some .console → s.auth.claim = some left →
        exec (.claim h) s = .next (State.replied h 21 (answer .pending (some .console) (some left)) u))
      ∧ (h.port = .region → s.auth.holder = some .console → s.auth.claim = none →
        exec (.claim h) s = .next (State.replied h 21 (answer .pending (some .console) (some (s.timing.handover * 1000)))
          (State.raise (.claimPending .region s.timing.handover)
            { u with auth := { u.auth with claim := some (s.timing.handover * 1000) } }))))
  ∧ (∀ (h : Hdr) (s : State), s.reaches h → h.lengthOk = true → h.port = .toll →
      exec (.claim h) s = .next (State.replied h 21
        { status := .notAuthorised, body := .authority s.auth.mode s.auth.holder none .nothing } (s.heard h)))
  ∧ (∀ (h : Hdr) (s : State),
      let u := s.heard h
      let answer (status : Status) (holder : Option Station) : Answer :=
        { status := status, body := .authority s.auth.mode holder none .nothing }
      (s.takes h 22 → s.auth.claim.isSome = true →
        exec (.release h) s = .next (State.replied h 22 (answer .ok (some .region))
          (State.raise (.authority (some .region) s.auth.holder .release (some .granted))
            { u with auth := { u.auth with holder := some .region, claim := none } })))
      ∧ (s.takes h 23 → s.auth.claim.isSome = true →
        exec (.deny h) s = .next (State.replied h 23 (answer .ok s.auth.holder)
          (State.raise (.authority s.auth.holder s.auth.holder .claim (some .denied))
            { u with auth := { u.auth with claim := none } })))
      ∧ (s.takes h 22 → s.auth.claim = none →
        exec (.release h) s = .next (State.replied h 22 (answer .wrongState s.auth.holder) u))
      ∧ (s.takes h 23 → s.auth.claim = none →
        exec (.deny h) s = .next (State.replied h 23 (answer .wrongState s.auth.holder) u)))

/-- When the configuration is complete and what is named as missing (R208). -/
def Obligations.CompletenessNamed : Prop :=
  ∀ s : State,
    (s.missing = none ↔ s.flight.n.isSome = true ∧ ∀ p, p ≤ s.count + 1 → (s.sensor p).calibrated = true)
    ∧ (s.flight.n = none → s.missing = some .flight)
    ∧ (∀ p, s.flight.n.isSome = true → p ≤ s.count + 1 → (s.sensor p).calibrated = false →
        (∀ q, q < p → (s.sensor q).calibrated = true) → s.missing = some (.calibration p))
    ∧ (∀ item, s.missing = some item → Blocker.incomplete item ∈ s.leaveBlockers ∧ Blocker.incomplete item ∈ s.resumeBlockers
        ∧ (Blocker.incomplete item).status = .incomplete ∧ (s.auth.mode = .config → Blocker.incomplete item ∈ s.blockers))

/-! ## Setting up (07, 11) -/

/-- SET_FLIGHT (R204): its tests in their order, the mode, the ranges, the bottom levels, and for a new N a passage not at rest; the first that fails is named, with its chamber, and nothing is applied. One that passes (R205) replaces the flight description as a whole, and the reply carries N, the least usable length and width over the chambers in use, and the number of vessels withdrawn. An N that stays leaves polling, passages and heads; a new N moves polling to the new pounds when the poll in flight ends, by a reply or a timeout, whose result is then discarded, at once where there is none: every sensor record as at power-on but for its calibration, every still counter 0, a held tick starting its round at once by the model's choice (R16; log 15), takes the permit of a passage that leaves use and reads one that enters use afresh from its inputs, and drives the heads in use RED_FLASH and the others DARK (R52). A new gauge withdraws the waiting vessels of the queues that no longer fit, in queue order, UP queue before DOWN queue, each with VESSEL_WITHDRAWN, cause GAUGE (R76). The operation of each passage beside a chamber whose area or H_max changed is examined, a MANUAL one in WAITING among them (R31). An approach whose suspension ends with a new N hands on a calling event (R58). Nothing else changes. The chambers that the description does not have, and the copies in force of a passage read afresh, which hold the settings of that event, are the model's choices (log 5, log 6). -/
def Obligations.SetFlightReplaces : Prop :=
  (∀ (h : Hdr) (f : FlightFields) (s : State), s.reaches h → h.lengthOk = true → f.chambers.length = f.n →
      s.admits 27 h.port = true →
      let u := s.heard h
      let refused (a : Answer) : Prop := exec (.setFlight h f) s = .next (State.replied h 27 a u)
      let fits (x : Chamber) : Prop :=
        (100 ≤ x.area ∧ x.area ≤ 5000) ∧ x.hMax ≤ 20000 ∧ x.hBot ≤ 20000 ∧ (200 ≤ x.usable ∧ x.usable ≤ 2500)
          ∧ (30 ≤ x.width ∧ x.width ≤ 300)
      let inRange := (1 ≤ f.n ∧ f.n ≤ 3) ∧ f.clearance ≤ 50 ∧ ∀ x ∈ f.chambers, fits x
      let resting (k : Nat) : Prop := (s.passage k).slot = none ∧ (s.passage k).gate.state ≠ .opening
        ∧ (s.passage k).gate.state ≠ .closing ∧ (s.passage k).sluice.state ≠ .moving
      (s.auth.mode ≠ .config → refused (refuse .wrongMode))
      ∧ (s.auth.mode = .config →
        (¬ (1 ≤ f.n ∧ f.n ≤ 3) → refused (refuseWith .outOfRange (.field .n none)))
        ∧ (1 ≤ f.n → f.n ≤ 3 →
          (∀ before x rest, f.chambers = before ++ x :: rest → ¬ fits x → (∀ y ∈ before, fits y) →
            refused (refuseWith .outOfRange (.field
              (if ¬ (100 ≤ x.area ∧ x.area ≤ 5000) then .area else if ¬ x.hMax ≤ 20000 then .hMax
                else if ¬ x.hBot ≤ 20000 then .hBot else if ¬ (200 ≤ x.usable ∧ x.usable ≤ 2500) then .usable
                else .width)
              (some (before.length + 1)))))
          ∧ ((∀ x ∈ f.chambers, fits x) → ¬ f.clearance ≤ 50 →
              refused (refuseWith .outOfRange (.field .clearance none))))
        ∧ (inRange →
          (∀ before x rest, f.chambers = before ++ x :: rest → x.hMax < x.hBot → (∀ y ∈ before, y.hBot ≤ y.hMax) →
            refused (refuseWith .outOfRange (.field .hBot (some (before.length + 1)))))
          ∧ ((∀ x ∈ f.chambers, x.hBot ≤ x.hMax) →
            (∀ k, k < 4 → s.flight.n ≠ some f.n → ¬ resting k → (∀ j, j < k → resting j) →
              refused (refuseWith .wrongState (.passage k)))
            ∧ ((s.flight.n = some f.n ∨ ∀ k, k < 4 → resting k) →
              let t := u.applyFlight f
              exec (.setFlight h f) s = .next (State.replied h 27
                (accept (.flight f.n t.minUsable t.minWidth (u.reg.entries.length - t.reg.entries.length))) t.settle))))))
  ∧ (∀ (f : FlightFields) (s : State), 1 ≤ f.n → f.n ≤ 3 →
      let t := s.applyFlight f
      let least (g : Chamber → Nat) (x : Nat) : Prop :=
        (∀ c, 1 ≤ c → c ≤ f.n → x ≤ g (t.chamber c)) ∧ ∃ c, 1 ≤ c ∧ c ≤ f.n ∧ g (t.chamber c) = x
      let regauged := s.flight.n ≠ some f.n ∨ s.flight.clearance ≠ f.clearance
        ∨ ∃ c, 1 ≤ c ∧ c ≤ 3
          ∧ ((s.chamber c).usable ≠ (t.chamber c).usable ∨ (s.chamber c).width ≠ (t.chamber c).width)
      let unfit (v : Vessel) : Prop :=
        (∃ d, ∃ m ∈ s.reg.queue d, s.vessel m = some v)
          ∧ ¬ (v.length + f.clearance ≤ t.minUsable ∧ v.beam ≤ t.minWidth)
      t.flight.n = some f.n ∧ t.flight.clearance = f.clearance
      ∧ (∀ c, 1 ≤ c → c ≤ 3 → c ≤ f.chambers.length → f.chambers[c - 1]? = some (t.chamber c))
      ∧ least Chamber.usable t.minUsable ∧ least Chamber.width t.minWidth
      ∧ (s.flight.n = some f.n → t.lm = s.lm ∧ t.pcu = s.pcu ∧ t.lamps = s.lamps)
      ∧ (s.flight.n ≠ some f.n →
        (s.lm.poll.isSome = true → t.lm = { s.lm with reformDue := true })
        ∧ (s.lm.poll = none →
          t.lm = { s.lm with sensors := t.lm.sensors, still := t.lm.still, polledN := some f.n, reformDue := false }
          ∧ (∀ p, t.lm.sensors.get p = { State.reset.lm.sensors.get 0 with
              zero := (s.lm.sensors.get p).zero, span := (s.lm.sensors.get p).span
              calibrated := (s.lm.sensors.get p).calibrated })
          ∧ ∀ k, t.lm.still.get k = 0)
        ∧ (∀ k, k < 4 →
          (k ≤ s.count → f.n < k → t.passage k = { s.passage k with permit := false })
          ∧ (s.count < k → k ≤ f.n →
              t.passage k = Passage.fromPins s.timing (s.pins.limits.get k) (s.pins.feedback.get k))
          ∧ ((k ≤ s.count ↔ k ≤ f.n) → t.passage k = s.passage k)
          ∧ ∀ side, (k ≤ f.n → (t.head k side).output = .redFlash)
              ∧ (f.n < k → (t.head k side).output = .dark ∧ (k ≤ s.count → (t.head k side).fault = false))))
      ∧ (¬ regauged → t.reg = s.reg)
      ∧ (regauged → ∀ v, v ∈ t.reg.entries ↔ v ∈ s.reg.entries ∧ ∀ w, unfit w → w.mark ≠ v.mark)
      ∧ t.pcu = { s.pcu with passages := t.pcu.passages }
      ∧ (let described : State := { s with
           flight := t.flight, lm := t.lm, pcu := t.pcu, lamps := t.lamps
           callDue := s.callDue || (decide (s.flight.n ≠ some f.n)
             && ((s.suspended .up && !t.suspended .up) || (s.suspended .down && !t.suspended .down))) }
         let withdrawn := ((s.reg.up ++ s.reg.down).filterMap s.vessel).filter (fun v =>
           !decide (v.length + f.clearance ≤ t.minUsable ∧ v.beam ≤ t.minWidth))
         let withdraw (x : State) (v : Vessel) : State := State.raise (.vesselWithdrawn v.mark .gauge none)
           { x with reg := { x.reg with
             entries := x.reg.entries.filter (fun w => !decide (w.mark = v.mark))
             up := if v.dir = .up then x.reg.up.filter (fun m => !decide (m = v.mark)) else x.reg.up
             down := if v.dir = .down then x.reg.down.filter (fun m => !decide (m = v.mark)) else x.reg.down } }
         let changed (c : Nat) : Bool := decide (1 ≤ c ∧ c ≤ f.n
           ∧ ((s.chamber c).area ≠ (t.chamber c).area ∨ (s.chamber c).hMax ≠ (t.chamber c).hMax))
         let examined := ((List.range (f.n + 1)).filter (fun k => changed k || changed (k + 1))).map Task.examine
         (regauged → t = State.pushAll examined (withdrawn.foldl withdraw described))
         ∧ (¬ regauged → t = State.pushAll examined described)))
  ∧ (∀ (s : State) (p left raw : Nat) (c : Instr), s.pins.reset = false → s.lm.reformDue = true →
      s.lm.poll = some { pound := p, left := left } →
      ((c = .pollValueReply (p + 1) raw ∧ raw ≤ 4095) ∨ c = .pollFaultReply (p + 1) ∨ (c = .pollTimeout ∧ left = 0)) →
      let afresh (x : Sensor) : Sensor := { x with
        status := .good, badRun := 0, goodRun := 0
        accum := { count := 0, sum := 0, least := none, greatest := none, clamped := false }
        level := { mean := 0, min := 0, max := 0, ripple := 0, clamped := false, stale := true, count := 0 } }
      exec c s = .next (State.finish { s with lm := { s.lm with
        sensors := s.lm.sensors.map afresh, still := { zero := 0, one := 0, two := 0, three := 0 }
        poll := if s.lm.tickHeld then some { pound := 0, left := 20 } else none
        tickHeld := false, polledN := s.flight.n, reformDue := false } }))

/-- SET_SENSOR that passes its tests (R206): the window settings are brought to the nearest values of their lists and ranges, and the calibration of every item present is stored. It is refused outside CONFIG. What changes empties windows and still counters (R15): a new calibration empties the window of its pound, marks its record STALE and zeroes the counters beside it; a new W empties every window and zeroes every counter; a new tolerance or ripple limit zeroes every counter; a value that stays changes nothing. A present item for a pound out of use is refused with OUT_OF_RANGE, then one with a value out of its range, the first such pound named (for a value, DEDUCED: log 28), and nothing is applied. The reply is OK, or OK_CLAMPED where a setting was altered, and carries the settings as applied, those altered, and the calibrated mark of each pound. EQUAL that a change makes true, as a lower still_count does, is handed on for its passage (R11, R15). -/
def Obligations.SetSensorStores : Prop :=
  ∀ (h : Hdr) (f : SensorFields) (s : State), s.takes h 28 →
    let u := s.heard h
    let refused (a : Answer) : Prop := exec (.setSensor h f) s = .next (State.replied h 28 a u)
    let inUse (p : Nat) : Prop := ∀ c, f.items.get p = some c → p ≤ s.count + 1
    let inRange (p : Nat) : Prop := ∀ c, f.items.get p = some c →
      -5000 ≤ c.zero ∧ c.zero ≤ 15000 ∧ 1000 ≤ c.span ∧ c.span ≤ 20000
    (s.auth.mode ≠ .config → refused (refuse .wrongMode))
    ∧ (s.auth.mode = .config →
      (∀ p, p ≤ 4 → ¬ inUse p → (∀ q, q < p → inUse q) → refused (refuseWith .outOfRange (.pound p)))
      ∧ ((∀ p, p ≤ 4 → inUse p) → ∀ p, p ≤ 4 → ¬ inRange p → (∀ q, q < p → inRange q) →
          refused (refuseWith .outOfRange (.pound p))))
    ∧ (s.auth.mode = .config →
      (∀ p c, p ≤ 4 → f.items.get p = some c →
        p ≤ s.count + 1 ∧ -5000 ≤ c.zero ∧ c.zero ≤ 15000 ∧ 1000 ≤ c.span ∧ c.span ≤ 20000) →
      Answers (exec (.setSensor h f) s) (fun t =>
        t.lm.w = (if f.w < 6 then 4 else if f.w < 12 then 8 else if f.w < 24 then 16 else 32)
        ∧ t.lm.eqTol = max 5 (min 200 f.eqTol) ∧ t.lm.rippleLim = max 10 (min 500 f.rippleLim)
        ∧ t.lm.stillCount = max 1 (min 15 f.stillCount)
        ∧ (∀ p c, p ≤ 4 → f.items.get p = some c → (t.lm.sensors.get p).zero = c.zero
            ∧ (t.lm.sensors.get p).span = c.span ∧ (t.lm.sensors.get p).calibrated = true)
        ∧ (∀ p, p ≤ 4 → f.items.get p = none → (t.lm.sensors.get p).zero = (s.lm.sensors.get p).zero
            ∧ (t.lm.sensors.get p).span = (s.lm.sensors.get p).span
            ∧ (t.lm.sensors.get p).calibrated = (s.lm.sensors.get p).calibrated)
        ∧ (let moved (p : Nat) : Prop :=
            (t.lm.sensors.get p).zero ≠ (s.lm.sensors.get p).zero ∨ (t.lm.sensors.get p).span ≠ (s.lm.sensors.get p).span
           (∀ p, p ≤ 4 →
            (t.lm.w ≠ s.lm.w ∨ moved p → (t.lm.sensors.get p).accum = Accum.empty)
            ∧ (t.lm.w = s.lm.w → ¬ moved p → (t.lm.sensors.get p).accum = (s.lm.sensors.get p).accum)
            ∧ (moved p → (t.lm.sensors.get p).level = { (s.lm.sensors.get p).level with stale := true })
            ∧ (¬ moved p → (t.lm.sensors.get p).level = (s.lm.sensors.get p).level)
            ∧ (t.lm.sensors.get p).status = (s.lm.sensors.get p).status
            ∧ (t.lm.sensors.get p).badRun = (s.lm.sensors.get p).badRun
            ∧ (t.lm.sensors.get p).goodRun = (s.lm.sensors.get p).goodRun)
          ∧ ∀ k, k < 4 →
            let zeroed := t.lm.w ≠ s.lm.w ∨ t.lm.eqTol ≠ s.lm.eqTol ∨ t.lm.rippleLim ≠ s.lm.rippleLim ∨ moved k ∨ moved (k + 1)
            (zeroed → t.lm.still.get k = 0) ∧ (¬ zeroed → t.lm.still.get k = s.lm.still.get k))
        ∧ { t.steady with lm := s.lm } = s.steady
        ∧ t.lm = { s.lm with
            sensors := t.lm.sensors, still := t.lm.still, w := t.lm.w, eqTol := t.lm.eqTol
            rippleLim := t.lm.rippleLim, stillCount := t.lm.stillCount }
        ∧ (let altered : List SensorSetting :=
             (if t.lm.w = f.w then [] else [.w]) ++ (if t.lm.eqTol = f.eqTol then [] else [.eqTol])
               ++ (if t.lm.rippleLim = f.rippleLim then [] else [.rippleLim])
               ++ (if t.lm.stillCount = f.stillCount then [] else [.stillCount])
           let risen := (List.range (s.count + 1)).filter (fun k =>
             decide (s.lm.still.get k < s.lm.stillCount ∧ t.lm.stillCount ≤ t.lm.still.get k))
           exec (.setSensor h f) s = .next (State.replied h 28
             { status := if altered = [] then .ok else .okClamped
               body := .sensor t.lm.w t.lm.eqTol t.lm.rippleLim t.lm.stillCount altered
                 (t.lm.sensors.map Sensor.calibrated) }
             (State.settle { u with lm := t.lm, agenda := s.agenda ++ risen.map Task.equalTrue })))))

/-- SET_TIMING (R207): taken in every mode and refused for no value; each field is brought into its range, the scan interval to a multiple of 100 ms with 50 ms rounded up; OK_CLAMPED where one was altered, which the model reads of a scan interval that is only rounded as well (log 32), and with each field as applied the reply names those altered, by their places in the table from 0. SET_CLOCK (R132): a day 0 to 65535 and a second 0 to 86399 are loaded, the clock SET with a fresh second; another value is refused with OUT_OF_RANGE and the clock stays. SET_TARIFF (R130, R131): a tariff with every field in its range becomes the next generation and the current one the previous, with TARIFF_CHANGED; while unsettled transits, QUEUED, MOVING or WAITING_NEXT, refer to the previous generation, of another number than the current one, it is refused with TARIFF_BUSY, the previous number and their count, and nothing is applied. -/
def Obligations.SettingsTaken : Prop :=
  (∀ (h : Hdr) (x : Timing) (s : State), s.takes h 29 →
      let limited (lo hi n : Nat) : Nat := max lo (min hi n)
      let applied : Timing :=
        { scan := (limited 100 2000 x.scan + 50) / 100 * 100, gateLimit := limited 10 300 x.gateLimit,
          slowPct := limited 50 95 x.slowPct, sluiceTarget := limited 1 8 x.sluiceTarget,
          rampInterval := limited 2 60 x.rampInterval, moveLimit := limited 5 120 x.moveLimit,
          eqLimit := limited 30 1800 x.eqLimit, entryLimit := limited 60 3600 x.entryLimit,
          exitLimit := limited 60 3600 x.exitLimit, silence := limited 2 60 x.silence,
          handover := limited 10 120 x.handover, discard := limited 30 600 x.discard, runLimit := limited 1 4 x.runLimit,
          skipLimit := limited 1 7 x.skipLimit }
      let fields (y : Timing) : List Nat :=
        [y.scan, y.gateLimit, y.slowPct, y.sluiceTarget, y.rampInterval, y.moveLimit, y.eqLimit, y.entryLimit,
         y.exitLimit, y.silence, y.handover, y.discard, y.runLimit, y.skipLimit]
      let altered := (List.range 14).filter (fun i => !decide ((fields x).getD i 0 = (fields applied).getD i 0))
      exec (.setTiming h x) s = .next (State.replied h 29
          { status := if applied = x then .ok else .okClamped, body := .timing applied altered }
          { s.heard h with timing := applied })
        ∧ (altered = [] ↔ applied = x))
  ∧ (∀ (h : Hdr) (day sec : Nat) (s : State), s.takes h 30 →
      (day ≤ 65535 → sec ≤ 86399 →
        exec (.setClock h day sec) s = .next (State.replied h 30 (accept (.clock day sec))
          { s.heard h with toll := { s.toll with clock := { isSet := true, day := day, sec := sec, second := some 1000 } } }))
      ∧ ((65535 < day ∨ 86399 < sec) →
        exec (.setClock h day sec) s = .next (State.replied h 30 (refuse .outOfRange) (s.heard h))))
  ∧ (∀ t : Tariff,
      let rated (r : ClassRate) : Prop := r.base ≤ 1000000 ∧ r.lengthRate ≤ 10000 ∧ r.tonnageRate ≤ 10000
        ∧ r.waterRate ≤ 1000 ∧ r.nightPct ≤ 200 ∧ 1 ≤ r.cap ∧ r.cap ≤ 10000000
      tariffOk t = true ↔ (rated t.cargo ∧ rated t.passenger ∧ rated t.pleasure ∧ rated t.service)
        ∧ t.nightStart ≤ 1439 ∧ t.nightEnd ≤ 1439 ∧ t.allowance ≤ 50)
  ∧ (∀ s : State,
      let refers (t : Transit) : Prop :=
        (t.state = .queued ∨ t.state = .moving ∨ t.state = .waitingNext) ∧ t.generation = s.toll.previous.number
      s.previousRefs = if s.toll.previous.number = s.toll.current.number then 0
        else (s.table.filter (fun t => decide (refers t))).length)
  ∧ (∀ (h : Hdr) (t : Tariff) (s : State), s.takes h 31 →
      let u := s.heard h
      let next := (s.toll.current.number + 1) % 256
      (tariffOk t = false → exec (.setTariff h t) s = .next (State.replied h 31 (refuse .outOfRange) u))
      ∧ (tariffOk t = true → 0 < s.previousRefs →
        exec (.setTariff h t) s = .next (State.replied h 31
          (refuseWith .tariffBusy (.generation s.toll.previous.number s.previousRefs)) u))
      ∧ (tariffOk t = true → s.previousRefs = 0 →
        exec (.setTariff h t) s = .next (State.replied h 31 (accept (.tariff next))
          (State.raise (.tariffChanged next s.toll.current.number)
            { u with toll := { s.toll with previous := s.toll.current, current := { number := next, tariff := t } } }))))

/-! ## Money (07, 08) -/

/-- The charged volume never exceeds its bound (R136), and the anomaly flag of a settlement is set exactly where the measured water does; each charge is the record of one berth's vessel, with the parts of its share under the transit's generation and night flag. The charge of a vessel for its share of water (R139 to R141): the four parts, the surcharge at night, and the amount, which never passes the cap. The solo estimate of a vessel (R143, R144): the parts of its share of the water that raises chamber 1 from its bottom level to the upper reach's mean, or to H_max where that record is STALE, under the current generation and the clock as it stands. -/
def Obligations.ChargeFormed : Prop :=
  (∀ (s : State) (t : Transit),
      let g := if t.generation = s.toll.current.number then s.toll.current.tariff else s.toll.previous.tariff
      let bound := t.water.predicted + t.water.predicted * g.allowance / 100
      (s.settlement t).bound = bound ∧ (s.settlement t).volume = min t.water.measured bound
      ∧ ((s.settlement t).anomaly = true ↔ bound < t.water.measured)
      ∧ (∀ c ∈ (s.settlement t).charges, ∃ b ∈ t.berths, ∃ v, s.vessel b.mark = some v ∧
          c =
            { mark := v.mark, cls := v.cls, account := v.account, transit := t.id, generation := t.generation
              share := c.share
              parts := formParts
                (match v.cls with
                  | .cargo => g.cargo
                  | .passenger => g.passenger
                  | .pleasure => g.pleasure
                  | .service => g.service) v.length v.deadweight c.share t.night
              night := t.night, anomaly := (s.settlement t).anomaly }))
  ∧ (∀ (r : ClassRate) (length deadweight share : Nat) (night : Bool),
      let p := formParts r length deadweight share night
      let subtotal := p.base + p.length + p.tonnage + p.water
      p.base = r.base ∧ p.length = r.lengthRate * ((length + 9) / 10) ∧ p.tonnage = r.tonnageRate * ((deadweight + 9) / 10)
      ∧ p.water = (share * r.waterRate + 999) / 1000
      ∧ p.surcharge = (if night then (subtotal * r.nightPct + 50) / 100 else 0)
      ∧ p.amount = min (subtotal + p.surcharge) r.cap ∧ (p.capped = true ↔ r.cap < subtotal + p.surcharge))
  ∧ (∀ (s : State) (v : Vessel),
      let g := s.toll.current.tariff
      let upper := if (s.sensor 0).level.stale = true then (s.chamber 1).hMax else (s.sensor 0).level.mean
      let volume := (s.chamber 1).area * (upper - (s.chamber 1).hBot)
      s.estimateParts v =
          formParts
            (match v.cls with
              | .cargo => g.cargo
              | .passenger => g.passenger
              | .pleasure => g.pleasure
              | .service => g.service) v.length v.deadweight
            (volume * (v.length + s.flight.clearance) / s.minUsable) s.toll.nightNow
      ∧ s.estimate v = (s.estimateParts v).amount)

/-- The water shares of a transit (R137, R138): one for each berth, each its floor share or one litre more, the litre given to a berth before another one of equal or smaller remainder that is not ahead of it, and all of them together exactly the charged volume. The charges of a settlement carry these shares of its charged volume, in berth order. -/
def Obligations.WaterSharesSum : Prop :=
  (∀ (volume : Nat) (lengths : List Nat), 0 < lengths.sum →
    let floor (i : Nat) : Nat := volume * lengths.getD i 0 / lengths.sum
    let remainder (i : Nat) : Nat := volume * lengths.getD i 0 % lengths.sum
    let share (i : Nat) : Nat := (waterShares volume lengths).getD i 0
    (waterShares volume lengths).length = lengths.length ∧ (waterShares volume lengths).sum = volume
    ∧ (∀ i, i < lengths.length → share i = floor i ∨ share i = floor i + 1)
    ∧ (∀ i j, i < lengths.length → j < lengths.length → share j = floor j + 1 →
        (remainder j < remainder i ∨ (remainder i = remainder j ∧ i < j)) → share i = floor i + 1))
  ∧ (∀ (s : State) (t : Transit), (∀ b ∈ t.berths, (s.vessel b.mark).isSome = true) →
      (s.settlement t).charges.map Charge.share = waterShares (s.settlement t).volume (t.berths.map Berth.length)
      ∧ (s.settlement t).charges.map Charge.mark = t.berths.map Berth.mark)

/-- OPEN_ACCOUNT (R150): the tests in their order; an accepted account is in use with its credit as balance, no hold and no commitment, and every other account is as before. CLOSE_ACCOUNT (R153): an account other than 0 with balance 0, commitment 0 and no vessel in the register is freed; otherwise the first of the three tests that fails is named and nothing changes. That the reply to an accepted CLOSE_ACCOUNT carries nothing is the model's choice (log 28). A table in rising order of number stays so. -/
def Obligations.OpenAndCloseAccount : Prop :=
  (∀ (h : Hdr) (n credit limit : Nat) (s : State), s.takes h 32 →
      let u := s.heard h
      let inRange := 1 ≤ n ∧ n ≤ 65535 ∧ credit ≤ 2000000000 ∧ limit ≤ 10000000
      let account : Account := { number := n, opening := credit, balance := credit, limit := limit, hold := false, commitment := 0 }
      (¬ inRange → exec (.openAccount h n credit limit) s = .next (State.replied h 32 (refuse .outOfRange) u))
      ∧ (inRange → (s.acc.find n).isSome = true →
          exec (.openAccount h n credit limit) s = .next (State.replied h 32 (refuse .duplicate) u))
      ∧ (inRange → s.acc.find n = none → 256 ≤ s.acc.table.length →
          exec (.openAccount h n credit limit) s = .next (State.replied h 32 (refuse .full) u))
      ∧ (inRange → s.acc.find n = none → s.acc.table.length < 256 →
          ∃ table, exec (.openAccount h n credit limit) s = .next (State.replied h 32 (accept (.accountState account .opened))
              { u with acc := { s.acc with table := table } })
            ∧ table.find? (fun a => decide (a.number = n)) = some account
            ∧ (∀ m, m ≠ n → table.find? (fun a => decide (a.number = m)) = s.acc.table.find? (fun a => decide (a.number = m)))
            ∧ table.length = s.acc.table.length + 1
            ∧ (s.acc.table.Pairwise (fun a b => a.number < b.number) → table.Pairwise (fun a b => a.number < b.number))))
  ∧ (∀ (h : Hdr) (n : Nat) (a : Account) (s : State), s.takes h 36 → n ≠ 0 → s.acc.find n = some a →
      let u := s.heard h
      let refused (i : Nat) : Prop :=
        exec (.closeAccount h n) s = .next (State.replied h 36 (refuseWith .wrongState (.test i)) u)
      (a.balance ≠ 0 → refused 1)
      ∧ (a.balance = 0 → a.commitment ≠ 0 → refused 2)
      ∧ (a.balance = 0 → a.commitment = 0 → (∃ v ∈ s.reg.entries, v.account = n) → refused 3)
      ∧ (a.balance = 0 → a.commitment = 0 → (∀ v ∈ s.reg.entries, v.account ≠ n) →
        exec (.closeAccount h n) s = .next (State.replied h 36 (accept .empty)
          { u with acc := { s.acc with table := s.acc.table.filter (fun x => !decide (x.number = n)) } })))

/-- SET_CREDIT with a limit above 10,000,000 is refused with OUT_OF_RANGE ahead of every other test, and nothing changes (R151). SET_CREDIT, HOLD_ACCOUNT and RELEASE_ACCOUNT on account 0 and on a number not in use, and where they write what stands, change nothing (R151, R152). SET_CREDIT, HOLD_ACCOUNT and RELEASE_ACCOUNT that change an account (R149, R151, R152): the limit or the hold of that account alone is replaced, a change of its status is reported, and SET_CREDIT and RELEASE_ACCOUNT hand on an account event. The status of an account (R149): account 0 is OPEN; another is BLOCKED where its hold is set or its balance is below the negative of its limit, and OPEN otherwise; its commitment plays no part. A change of status is one notice, ACCOUNT_BLOCKED or ACCOUNT_OPENED. -/
def Obligations.AccountRequests : Prop :=
  (∀ (h : Hdr) (n limit : Nat) (s : State), s.takes h 33 → 10000000 < limit →
      exec (.setCredit h n limit) s = .next (State.replied h 33 (refuse .outOfRange) (s.heard h)))
  ∧ (∀ (h : Hdr) (n limit : Nat) (s : State), limit ≤ 10000000 →
      let u := s.heard h
      let same (kind : Nat) (c : Instr) (a : Answer) : Prop := s.takes h kind → exec c s = .next (State.replied h kind a u)
      (n = 0 → same 33 (.setCredit h n limit) (refuse .wrongState) ∧ same 34 (.holdAccount h n) (refuse .wrongState)
        ∧ same 35 (.releaseAccount h n) (refuse .wrongState) ∧ same 36 (.closeAccount h n) (refuse .wrongState))
      ∧ (n ≠ 0 → s.acc.find n = none → same 33 (.setCredit h n limit) (refuse .unknown) ∧ same 34 (.holdAccount h n) (refuse .unknown)
        ∧ same 35 (.releaseAccount h n) (refuse .unknown) ∧ same 36 (.closeAccount h n) (refuse .unknown))
      ∧ (∀ a, n ≠ 0 → s.acc.find n = some a →
        (a.limit = limit → same 33 (.setCredit h n limit) (accept (.accountState a a.status)))
        ∧ (a.hold = true → same 34 (.holdAccount h n) (accept (.accountState a a.status)))
        ∧ (a.hold = false → same 35 (.releaseAccount h n) (accept (.accountState a a.status)))))
  ∧ (∀ (h : Hdr) (n limit : Nat) (a : Account) (s : State), n ≠ 0 → s.acc.find n = some a →
      let u := s.heard h
      let changed (f : Account → Account) : State := State.raiseAll (statusNotice a (f a))
        { u with acc := { s.acc with table := s.acc.table.map (fun x => if x.number = n then f x else x) } }
      (s.takes h 33 → limit ≤ 10000000 → a.limit ≠ limit →
        let t := (State.push (.accountEvent n) (changed (fun x => { x with limit := limit }))).settle
        exec (.setCredit h n limit) s = .next (State.replied h 33 (t.accountAnswer n) t))
      ∧ (s.takes h 34 → a.hold = false →
        let t := changed (fun x => { x with hold := true })
        exec (.holdAccount h n) s = .next (State.replied h 34 (t.accountAnswer n) t))
      ∧ (s.takes h 35 → a.hold = true →
        let t := (State.push (.accountEvent n) (changed (fun x => { x with hold := false }))).settle
        exec (.releaseAccount h n) s = .next (State.replied h 35 (t.accountAnswer n) t)))
  ∧ (∀ a b : Account,
      (a.number = 0 → a.status = .opened)
      ∧ (a.number ≠ 0 → (a.status = .blocked ↔ a.hold = true ∨ a.balance < -(a.limit : Int)))
      ∧ (∀ c, Account.status { a with commitment := c } = a.status)
      ∧ (a.status = b.status → statusNotice a b = [])
      ∧ (a.status = .opened → b.status = .blocked → statusNotice a b =
          [.accountBlocked b.number b.balance b.limit (if b.hold then .hold else .limit)])
      ∧ (a.status = .blocked → b.status = .opened → statusNotice a b = [.accountOpened b.number b.balance b.limit]))
  ∧ (∀ (s : State) (n : Nat) (f : Account → Account),
      s.acc.find 0 = some s.acc.counter ∧ (n ≠ 0 → s.acc.find n = s.acc.table.find? (fun a => decide (a.number = n)))
      ∧ s.acc.update 0 f = { s.acc with counter := f s.acc.counter }
      ∧ (n ≠ 0 → s.acc.update n f =
          { s.acc with table := s.acc.table.map (fun x => if x.number = n then f x else x) })
      ∧ (∀ a, s.acc.find n = some a → s.accountAnswer n = accept (.accountState a a.status)))

/-- POST_PAYMENT (R154): the tests in their order; an accepted payment raises the balance of its account, account 0 among them, appends one PAYMENT entry with the next sequence number and the clock, reports a change of status and hands on an account event. -/
def Obligations.PaymentPosted : Prop :=
  ∀ (h : Hdr) (n amount : Nat) (s : State), s.takes h 37 →
    let u := s.heard h
    let refused (e : Status) : Prop := exec (.postPayment h n amount) s = .next (State.replied h 37 (refuse e) u)
    ((amount = 0 ∨ 100000000 < amount) → refused .outOfRange)
    ∧ (1 ≤ amount → amount ≤ 100000000 →
      (s.acc.find n = none → refused .unknown)
      ∧ ∀ a, s.acc.find n = some a →
        (2000000000 < a.balance + amount → refused .outOfRange)
        ∧ (a.balance + amount ≤ 2000000000 → s.acc.margin = 0 → refused .journalFull)
        ∧ (a.balance + amount ≤ 2000000000 → 1 ≤ s.acc.margin →
          let paid (x : Account) : Account := { x with balance := x.balance + amount }
          let entry : JournalEntry :=
            { seq := s.acc.nextSeq, kind := .payment n amount,
              stamp := if s.toll.clock.isSet then some (s.toll.clock.day, s.toll.clock.sec) else none }
          let acc := { s.acc.update n paid with
            journal := s.acc.journal ++ [entry], nextSeq := (s.acc.nextSeq + 1) % 65536 }
          exec (.postPayment h n amount) s = .next (State.replied h 37
            (accept (.payment (a.balance + amount) (paid a).status s.acc.nextSeq))
            ((State.push (.accountEvent n) (State.raiseAll (statusNotice a (paid a)) { u with acc := acc })).settle))))

/-- TAKE_CHARGES (R160): a count outside 1 to 8 is refused; otherwise the oldest entries, as many as there are up to the count, leave the journal and are returned oldest first with the number left and the next sequence number; a calling event follows where any left. -/
def Obligations.ChargesTaken : Prop :=
  ∀ (h : Hdr) (n : Nat) (s : State), s.takes h 38 →
    let u := s.heard h
    let t := { u with acc := { s.acc with journal := s.acc.journal.drop n } }
    let answer := accept (.taken (s.acc.journal.take n) (s.acc.journal.length - n) s.acc.nextSeq)
    ((n = 0 ∨ 8 < n) → exec (.takeCharges h n) s = .next (State.replied h 38 (refuse .outOfRange) u))
    ∧ (1 ≤ n → n ≤ 8 → s.acc.journal = [] → exec (.takeCharges h n) s = .next (State.replied h 38 answer u))
    ∧ (1 ≤ n → n ≤ 8 → s.acc.journal ≠ [] →
      exec (.takeCharges h n) s = .next (State.replied h 38 answer (t.calling.settle)))

/-- QUOTE (R162 to R164, R167). An ill-formed mark is refused with OUT_OF_RANGE and resolves nothing, which is DEDUCED (log 44). Otherwise the orphaned slots, those PENDING for a mark in no entry, are first resolved WITHDRAWN, each with its QUOTE_READY and a fresh discard time, in slot order, the model's choice (log 44); on that state the QUOTE is answered: for a waiting vessel its estimate; for a called one DEFERRED with the slot of the mark or the lowest free one PENDING, or FULL; for a mark in no entry the result of a RESOLVED slot, which is freed, WITHDRAWN where it was orphaned, else its newest charge of the journal, which holds its entries oldest first, else UNKNOWN. That the lowest free slot is taken is the model's choice (log 30). -/
def Obligations.QuoteAnswers : Prop :=
  (∀ (h : Hdr) (m : Mark) (s : State), s.takes h 39 → markOk m = false →
      exec (.quote h m) s = .next (State.replied h 39 (refuse .outOfRange) (s.heard h)))
  ∧ (∀ (a : Accounts) (m : Mark) (n : Nat),
      let holds (i : Nat) : Prop := match a.slots.get (i - 1) with
        | .free => False
        | .pending x => x = m
        | .resolved x _ _ => x = m
      (a.slotOf m = some n ↔ 1 ≤ n ∧ n ≤ 4 ∧ holds n ∧ ∀ i, 1 ≤ i → i < n → ¬ holds i)
      ∧ (a.freeSlot = some n ↔
          1 ≤ n ∧ n ≤ 4 ∧ a.slots.get (n - 1) = .free ∧ ∀ i, 1 ≤ i → i < n → a.slots.get (i - 1) ≠ .free))
  ∧ (∀ (a : Accounts) (m : Mark),
      let charged (e : JournalEntry) : Prop := match e.kind with
        | .charge c => c.mark = m
        | .payment _ _ => False
      (∀ older e newer, a.journal = older ++ e :: newer → charged e → (∀ x ∈ newer, ¬ charged x) →
          a.newestCharge m = some e)
      ∧ ((∀ e ∈ a.journal, ¬ charged e) → a.newestCharge m = none))
  ∧ (∀ s : State, s.orphans = [0, 1, 2, 3].filterMap (fun n => match s.acc.slots.get n with
      | .pending m => if s.vessel m = none then some m else none
      | .free => none
      | .resolved _ _ _ => none))
  ∧ ∀ (h : Hdr) (m : Mark) (s : State), s.takes h 39 → markOk m = true →
    let u := s.orphans.foldl (fun x o => State.resolveQuote o .withdrawn x) (s.heard h)
    let answered (slots : Quad QuoteSlot) (a : Answer) : Prop :=
      exec (.quote h m) s = .next (State.replied h 39 a { u with acc := { u.acc with slots := slots } })
    (∀ v, s.vessel m = some v → v.state = .waiting →
      answered u.acc.slots (accept (.estimate (s.estimateParts v) s.toll.current.number s.toll.nightNow)))
    ∧ (∀ v id estimate, s.vessel m = some v → v.state = .called id estimate →
      (∀ n, (u.acc.slotOf m).or u.acc.freeSlot = some n →
        answered (u.acc.slots.set (n - 1) (.pending m)) { status := .deferred, body := .deferred n id estimate })
      ∧ ((u.acc.slotOf m).or u.acc.freeSlot = none → answered u.acc.slots (refuse .full)))
    ∧ (s.vessel m = none →
      (∀ n x r left, u.acc.slotOf m = some n → u.acc.slots.get (n - 1) = .resolved x r left →
        answered (u.acc.slots.set (n - 1) .free) (accept (.quoted r)))
      ∧ (∀ n, n < 4 → s.acc.slots.get n = .pending m → (∀ i, i < n → (s.acc.slots.get i).mark ≠ some m) →
        answered (u.acc.slots.set n .free) (accept (.quoted .withdrawn)))
      ∧ (s.acc.slotOf m = none → answered u.acc.slots (match s.acc.newestCharge m with
          | some e => accept (.journal e)
          | none => refuse .unknown)))

/-! ## What every event leaves alone, and what every step keeps -/

/-- What follows in an event: the hand-overs waiting are taken first in, first out, each by its block, and a calling event once nothing else waits; then the aspects and the flight idle condition are formed, FLIGHT_IDLE where it has become true (R53, R99). The order, the bound of 400 and the place of FLIGHT_IDLE are the model's choices (log 20, log 25). It leaves the inputs, the settings, the levels, the tariffs, the clock, authority, the journal, the quote slots, every account but for its commitment, and the ports but for the notices raised, as they are. The queue head (R105): it starts in SERVICE with its entry chamber unheld and every holder of its direction, and otherwise stays. A transit in WAITING_NEXT (R106): in SERVICE its EXIT begins from the last chamber, and a SHIFT where the next chamber is unheld, which it then holds as well; its cascade is formed next. The walk of a cascade, DOWN to the reach or a passage whose overflow check passes, UP to the upper reach, or to a chamber with a holder, which blocks it (R107, R108); the move blocked there, or its cascade with the passage worked first requested in SERVICE (R109). A request reaches the passage while the move wants it: into a free slot, its operation created and in the transit's list, or owed until the slot is free (R109, R110, R117), when it is made again (R28). A report (R109, R110, R117, R118): discarded where the transit has no such operation; at passage 0 its water added once; the entry marked at EQUALISED and dropped otherwise; the move opened by its MOVE, the cascade gone on by a DONE, the passage put back by an ABORTED or TAKEN_OVER. That a MOVE's DONE, ABORTED or TAKEN_OVER leaves the move where it stands is the model's reading (log 24). A released chamber has the head, each transit in WAITING_NEXT and each move blocked there taken up (R106, R109, R116), and an account event calls where a waiting vessel is not credit-held (R75). -/
def Obligations.FollowingWork : Prop :=
  (∀ s : State, s.settle.outer = s.outer)
  ∧ (∀ s : State, s.settle = (State.deriveAspects (State.drain 400 s)).reformIdle)
  ∧ (∀ (s : State) (x : Task) (l : List Task), s.push x = { s with agenda := s.agenda ++ [x] }
      ∧ s.pushAll l = { s with agenda := s.agenda ++ l } ∧ s.calling = { s with callDue := true })
  ∧ (∀ s : State,
      let idle := decide (s.arb.queue = []) && s.table.all (fun x => x.held.isEmpty)
      let stamp : Stamp := if s.toll.clock.isSet then some (s.toll.clock.day, s.toll.clock.sec) else none
      let n := if idle && !s.arb.idle then s.raise (.flightIdle stamp) else s
      s.reformIdle = { n with arb := { n.arb with idle := idle } })
  ∧ (∀ (s : State) (fuel : Nat),
      (∀ x rest, s.agenda = x :: rest →
        let u : State := { s with agenda := rest }
        State.drain (fuel + 1) s = State.drain fuel (match x with
          | .equalTrue k => u.takeEqual k
          | .examine k => u.examine k
          | .passageChanged k => u.takePassageChanged k
          | .arbitrate chambers => u.arbitrate chambers 3
          | .report r => u.takeReport r
          | .slotFree k => u.takeSlotFree k
          | .request id k purpose => u.takeRequestOp id k purpose
          | .gateEnd k => u.takeGateEnd k
          | .examineHead => u.takeExamineHead
          | .examineNext id => u.takeExamineNext id
          | .released c => u.takeReleased c
          | .accountEvent n => u.takeAccountEvent n))
      ∧ (s.agenda = [] → s.callDue = true →
          State.drain (fuel + 1) s = State.drain fuel (State.takeCalling { s with callDue := false }))
      ∧ (s.agenda = [] → s.callDue = false → State.drain fuel s = s))
  ∧ (∀ s : State, s.agenda = [] → s.callDue = false →
      let t := s.deriveAspects
      let idle := decide (s.arb.queue = []) && s.table.all (fun x => x.held.isEmpty)
      let stamp : Stamp := if s.toll.clock.isSet then some (s.toll.clock.day, s.toll.clock.sec) else none
      let n := if idle && !s.arb.idle then t.raise (.flightIdle stamp) else t
      s.settle = { n with arb := { n.arb with idle := idle } })
  ∧ (∀ (s : State) (t : Transit), s.arb.queue.head?.bind s.transit = some t → t.state = .queued →
      let c := match t.dir with | .down => 1 | .up => s.count
      let m : Move :=
        { kind := .entry, passage := match t.dir with | .down => 0 | .up => s.count
          source := match t.dir with | .down => 0 | .up => s.count + 1
          destination := c, phase := .equalise, confirmed := false, cascade := [], blockedAt := none, owed := none }
      let rest := s.arb.queue.filter (fun x => !decide (x = t.id))
      let begun := s.raiseAll ((if rest = [] then [.queueEmpty t.id .started] else [])
        ++ [.transitStarted t.id t.dir c, .moveBegun t.id .entry m.passage m.source m.destination])
      let may := s.auth.mode = .service ∧ (∀ x ∈ s.table, x.held ≠ [] → x.dir = t.dir) ∧ ∀ x ∈ s.table, c ∉ x.held
      (may → s.takeExamineHead = { begun with
        arb := { s.arb with queue := rest }
        table := s.table.map (fun x => if x.id = t.id then { x with state := .moving, held := [c], move := some m } else x)
        agenda := s.agenda ++ [.request t.id m.passage .move]
          ++ (if rest.head? = s.arb.queue.head? then [] else [.examineHead])
        callDue := true })
      ∧ ((s.auth.mode ≠ .service ∨ (∃ x ∈ s.table, c ∈ x.held)
          ∨ ((∃ x ∈ s.table, x.held ≠ []) ∧ ∀ x ∈ s.table, x.held ≠ [] → x.dir ≠ t.dir)) → s.takeExamineHead = s))
  ∧ (∀ (s : State) (id c : Nat) (t : Transit) (more : List Nat), s.transit id = some t → t.state = .waitingNext →
      t.held = c :: more →
      let last := match t.dir with | .down => s.count | .up => 1
      let next := match t.dir with | .down => c + 1 | .up => c - 1
      let passage := match t.dir with | .down => c | .up => c - 1
      let move (kind : MoveKind) (phase : MovePhase) : Move :=
        { kind := kind, passage := passage, source := c, destination := next, phase := phase
          confirmed := false, cascade := [], blockedAt := none, owed := none }
      let begun (kind : MoveKind) (phase : MovePhase) (held : List Nat) : State :=
        { s.raise (.moveBegun t.id kind passage c next) with table := s.table.map (fun x =>
            if x.id = t.id then { x with state := .moving, held := held, move := some (move kind phase) } else x) }
      (s.auth.mode ≠ .service → s.takeExamineNext id = s)
      ∧ (s.auth.mode = .service →
        (c = last → s.takeExamineNext id = State.push (.request t.id passage .move) (begun .exit .equalise [c]))
        ∧ (c ≠ last → (∃ x ∈ s.table, next ∈ x.held) → s.takeExamineNext id = s)
        ∧ (c ≠ last → (∀ x ∈ s.table, next ∉ x.held) →
          s.takeExamineNext id = (begun .shift .prep [c, next]).formCascade t.id t.dir (move .shift .prep))))
  ∧ (∀ (s : State) (j : Nat), s.count ≤ 3 → 1 ≤ j →
      let passes := (s.sensor j).level.stale = false ∧ (s.sensor (j + 1)).level.stale = false
        ∧ s.overflowPasses (s.receiver j) (s.predictedLevel j) = true
      (s.count ≤ j → s.walk .down j = .formed [j])
      ∧ (j < s.count → (∃ t ∈ s.table, j + 1 ∈ t.held) → s.walk .down j = .blocked (j + 1))
      ∧ (j < s.count → (∀ t ∈ s.table, j + 1 ∉ t.held) →
        (passes → s.walk .down j = .formed [j])
        ∧ (¬ passes →
          (∀ l, s.walk .down (j + 1) = .formed l → s.walk .down j = .formed (j :: l))
          ∧ ∀ c, s.walk .down (j + 1) = .blocked c → s.walk .down j = .blocked c))
      ∧ s.walk .up 1 = .formed [0]
      ∧ ((∃ t ∈ s.table, j ∈ t.held) → s.walk .up (j + 1) = .blocked j)
      ∧ ((∀ t ∈ s.table, j ∉ t.held) →
        (∀ l, s.walk .up j = .formed l → s.walk .up (j + 1) = .formed (j :: l))
        ∧ ∀ c, s.walk .up j = .blocked c → s.walk .up (j + 1) = .blocked c))
  ∧ (∀ (s : State) (id : Nat) (dir : Direction) (m : Move),
      let put (f : Move → Move) : State :=
        { s with table := s.table.map (fun t => if t.id = id then { t with move := t.move.map f } else t) }
      let purpose : Purpose := match dir with | .down => .drain | .up => .charge
      (∀ c, s.walk dir m.destination = .blocked c →
        s.formCascade id dir m = State.raise (.moveBlocked id m.passage c) (put (fun n => { n with blockedAt := some c })))
      ∧ (∀ l k rest, s.walk dir m.destination = .formed l → l.reverse = k :: rest →
        let u := put (fun n => { n with blockedAt := none, cascade := k :: rest })
        s.formCascade id dir m = if s.auth.mode = .service then State.push (.request id k purpose) u else u))
  ∧ (∀ (s : State) (id k : Nat) (purpose : Purpose) (t : Transit) (m : Move), s.transit id = some t → t.move = some m → k < 4 →
      let wanted := s.auth.mode = .service ∧
        (if purpose = .move then
          m.phase = .equalise ∧ m.passage = k ∧ ∀ e ∈ t.ops, ¬ (e.passage = k ∧ e.purpose = .move)
        else m.phase = .prep ∧ m.cascade.head? = some k ∧ ∀ e ∈ t.ops, e.purpose = .move)
      let put (f : Transit → Transit) (x : State) : State :=
        { x with table := x.table.map (fun y => if y.id = id then f y else y) }
      (¬ wanted → s.takeRequestOp id k purpose = s)
      ∧ (wanted → (s.passage k).slot = none → s.takeRequestOp id k purpose =
        State.createOp k purpose (some id) s.timing.sluiceTarget (put (fun y => { y with
          ops := y.ops ++ [{ passage := k, purpose := purpose, waterTaken := false }]
          move := y.move.map (fun n =>
            { n with owed := none, cascade := if purpose = .move then n.cascade else n.cascade.tail }) }) s))
      ∧ (wanted → (s.passage k).slot.isSome = true → s.takeRequestOp id k purpose =
        put (fun y => { y with move := y.move.map (fun n => { n with owed := some k }) })
          (State.setPassage k (fun p => { p with slotFreeOwed := true }) s)))
  ∧ (∀ (s : State) (r : Report),
      let names (e : OpEntry) : Bool := decide (e.passage = r.passage) && decide (e.purpose = r.purpose)
      let water (x : Transit) : Water :=
        if r.passage = 0 ∧ x.ops.any (fun e => names e && !e.waterTaken) = true then
          { x.water with predicted := x.water.predicted + r.predicted, measured := x.water.measured + r.measured
                         stale := x.water.stale || r.stale }
        else x.water
      let ops (x : Transit) : List OpEntry :=
        if r.outcome = .equalised then
          x.ops.map (fun e => if names e = true ∧ r.passage = 0 then { e with waterTaken := true } else e)
        else x.ops.filter (fun e => !names e)
      let u : State := { s with table := s.table.map (fun x =>
        if x.id = r.transit then { x with water := water x, ops := ops x } else x) }
      let move (f : Move → Move) : State := { u with table := u.table.map (fun x =>
        if x.id = r.transit then { x with move := x.move.map f } else x) }
      let ask (k : Nat) (purpose : Purpose) (x : State) : State :=
        if s.auth.mode = .service then x.push (.request r.transit k purpose) else x
      (s.transit r.transit = none → s.takeReport r = s)
      ∧ ∀ t, s.transit r.transit = some t →
        (t.ops.any names = false → s.takeReport r = s)
        ∧ (t.ops.any names = true →
          let purpose : Purpose := match t.dir with | .down => .drain | .up => .charge
          (t.move = none → s.takeReport r = u)
          ∧ ∀ m, t.move = some m →
            (r.outcome = .equalised →
              let opens := r.purpose = .move ∧ m.phase = .equalise ∧ m.passage = r.passage ∧ s.auth.mode = .service
              (opens → s.takeReport r = (move (fun n => { n with phase := .opened })).orderOpen r.transit m.passage)
              ∧ (¬ opens → s.takeReport r = u))
            ∧ (r.outcome ≠ .equalised → r.purpose = .move ∨ m.phase ≠ .prep → s.takeReport r = u)
            ∧ (r.purpose ≠ .move → m.phase = .prep →
              (r.outcome = .done → m.cascade = [] →
                s.takeReport r = ask m.passage .move (move (fun n => { n with phase := .equalise })))
              ∧ (∀ k rest, r.outcome = .done → m.cascade = k :: rest → s.takeReport r = ask k purpose u)
              ∧ (r.outcome = .aborted ∨ r.outcome = .takenOver → s.takeReport r =
                  ask r.passage purpose (move (fun n => { n with cascade := r.passage :: n.cascade }))))))
  ∧ (∀ (s : State) (k : Nat),
      let again (t : Transit) : Option Task := match t.move with
        | some m => if m.owed = some k then
            some (.request t.id k (if m.phase = .equalise then .move else match t.dir with | .down => .drain | .up => .charge))
          else none
        | none => none
      (s.auth.mode = .service → s.takeSlotFree k = s.pushAll (s.table.filterMap again))
      ∧ (s.auth.mode ≠ .service → s.takeSlotFree k = s))
  ∧ (∀ (s : State) (c : Nat),
      let u : State := { s with agenda := s.agenda ++ .examineHead
        :: ((s.table.filter (fun t => decide (t.state = .waitingNext))).map (fun t => .examineNext t.id)) }
      (s.auth.mode = .service → s.takeReleased c = s.table.foldl (fun x t => match t.move with
        | some m => if m.blockedAt = some c then x.formCascade t.id t.dir m else x
        | none => x) u)
      ∧ (s.auth.mode ≠ .service → s.takeReleased c = u))
  ∧ (∀ (s : State) (n : Nat),
      let freed := ∃ v ∈ s.reg.entries, v.account = n ∧ v.state = .waiting ∧ s.creditHeld v = false
      (freed → s.takeAccountEvent n = { s with callDue := true }) ∧ (¬ freed → s.takeAccountEvent n = s))

/-- The flight description and the sensor calibrations and settings change only in CONFIG or at POWER_ON (R15, R204, R206). -/
def Obligations.ConfigurationChangesInConfig : Prop :=
  ∀ (c : Instr) (s t : State), exec c s = .next t → c ≠ .powerOn → s.auth.mode ≠ .config →
    t.flight = s.flight ∧ t.lm.w = s.lm.w ∧ t.lm.eqTol = s.lm.eqTol ∧ t.lm.rippleLim = s.lm.rippleLim
    ∧ t.lm.stillCount = s.lm.stillCount
    ∧ ∀ p, (t.lm.sensors.get p).zero = (s.lm.sensors.get p).zero ∧ (t.lm.sensors.get p).span = (s.lm.sensors.get p).span

/-- Every step keeps the Authority Controller's records legal (R170, R174, R178, R180, R183). No event takes the part from SAFE_HOLD to SERVICE but a RESUME_SERVICE that meets all its tests, nor from CONFIG to SERVICE but such a LEAVE_CONFIG, nor to CONFIG but ENTER_CONFIG (09 section 9.2), a request that comes as a frame or by its last byte included; POWER_ON apart. A change of mode leaves the holder and the pending claim with its timer as they stand (R171), but for POWER_ON, the warm reset and the holder's silence (R183, R185). -/
def Obligations.AuthorityKeptLegal : Prop :=
  (∀ s t : State, s.auth.legal → step s = .next t → t.auth.legal)
  ∧ (∀ (c : Instr) (s t : State), exec c s = .next t → c ≠ .powerOn →
      (s.auth.mode = .safeHold → t.auth.mode = .service →
        s.resumeBlockers = [] ∧ ((∃ h, c = .resumeService h) ∨ s.carries c .resumeService))
      ∧ (s.auth.mode = .config → t.auth.mode = .service →
        s.leaveBlockers = [] ∧ ((∃ h, c = .leaveConfig h) ∨ s.carries c .leaveConfig))
      ∧ (s.auth.mode ≠ .config → t.auth.mode = .config →
        s.configBar = none ∧ ((∃ h, c = .enterConfig h) ∨ s.carries c .enterConfig))
      ∧ (t.auth.mode ≠ s.auth.mode → c ≠ .resetReleased → (∀ st, c ≠ .silenceExpiry st) →
        ¬ (c = .frameSent .console ∧ restartReply s.ports.console.line = true) →
        t.auth.holder = s.auth.holder ∧ t.auth.claim = s.auth.claim))
  ∧ (∀ s : State,
      let faulted (k : Nat) : Prop := (s.passage k).gate.state = .fault ∨ (s.passage k).sluice.state = .fault
      (s.resumeBlockers = [] ↔ s.auth.mode = .safeHold ∧ s.missing = none ∧ s.auth.estop = false
        ∧ (∀ k, k ≤ s.count → ¬ faulted k)
        ∧ ∀ c, 1 ≤ c → c ≤ s.count → (∃ t ∈ s.table, c ∈ t.held) → (s.sensor c).status = .good)
      ∧ (s.leaveBlockers = [] ↔ s.auth.mode = .config ∧ s.missing = none ∧ s.auth.estop = false)
      ∧ (s.configBar = none ↔ s.auth.mode ≠ .config ∧ s.table = []
        ∧ (∀ k, k ≤ s.count → (s.passage k).slot = none)
        ∧ ∀ k, k ≤ s.count → (s.passage k).gate.state = .closed ∧ (s.passage k).sluice.state = .shut))

/-- Every step keeps each notice queue within its 16 places (R200). -/
def Obligations.NoticeQueuesKept : Prop :=
  ∀ s t : State, s.noticesFit → step s = .next t → t.noticesFit

/-- Every step keeps the journal numbered consecutively up to the next sequence number, across settlements, payments, TAKE_CHARGES and both resets (R156, R158, R160). With a legal transit table, every step keeps the entries held and the places reserved within the 128 of the journal (R158, R159). -/
def Obligations.JournalKeptSequenced : Prop :=
  (∀ s t : State, s.acc.sequenced → step s = .next t → t.acc.sequenced)
  ∧ (∀ s t : State, s.transitsLegal → s.acc.journal.length + s.acc.reserved ≤ 128 → step s = .next t →
      t.acc.journal.length + t.acc.reserved ≤ 128)

/-- Every step keeps the gates above and below a chamber from being OPENING together (R42). A step that makes a gate OPENING, or commands a sluice up, leaves every other passage of the chambers beside it fully closed (R42), and the gate's passage EQUAL with both sensors GOOD or under a permit (R43). Every step keeps the chamber claims: held all together or not at all, one claimant for a chamber (R29). -/
def Obligations.GatesKeptApart : Prop :=
  (∀ s t : State, s.countLegal → s.gatesApart → step s = .next t → t.countLegal ∧ t.gatesApart)
  ∧ (∀ (s t : State) (k : Nat), s.countLegal → step s = .next t → k ≤ t.count →
      ((s.passage k).gate.state ≠ .opening → (t.passage k).gate.state = .opening →
        t.neighboursClosed k
        ∧ ((t.equal k = true ∧ (t.sensor k).status = .good ∧ (t.sensor (k + 1)).status = .good)
          ∨ (t.passage k).permit = true))
      ∧ (∀ c, (t.passage k).sluice.commanded = some c → (s.passage k).sluice.commanded ≠ some c →
          (t.passage k).sluice.position < c → t.neighboursClosed k))
  ∧ (∀ s t : State, s.countLegal → s.claimsLegal → step s = .next t → t.claimsLegal)
end

