-- ==== Sys2Proof/Laws/State.lean ====
section
/-! SUPPORT. One lemma for each field of the state and each update of Machine/Ops.lean (and the few updates built on them): what the update leaves alone. -/

namespace Sys2Proof.Machine

/-! ## setPassage -/

@[simp] theorem State.setPassage_pins (k : Nat) (f : Passage → Passage) (s : State) : (s.setPassage k f).pins = s.pins := rfl
@[simp] theorem State.setPassage_flight (k : Nat) (f : Passage → Passage) (s : State) : (s.setPassage k f).flight = s.flight := rfl
@[simp] theorem State.setPassage_timing (k : Nat) (f : Passage → Passage) (s : State) : (s.setPassage k f).timing = s.timing := rfl
@[simp] theorem State.setPassage_lm (k : Nat) (f : Passage → Passage) (s : State) : (s.setPassage k f).lm = s.lm := rfl
@[simp] theorem State.setPassage_lamps (k : Nat) (f : Passage → Passage) (s : State) : (s.setPassage k f).lamps = s.lamps := rfl
@[simp] theorem State.setPassage_reg (k : Nat) (f : Passage → Passage) (s : State) : (s.setPassage k f).reg = s.reg := rfl
@[simp] theorem State.setPassage_arb (k : Nat) (f : Passage → Passage) (s : State) : (s.setPassage k f).arb = s.arb := rfl
@[simp] theorem State.setPassage_table (k : Nat) (f : Passage → Passage) (s : State) : (s.setPassage k f).table = s.table := rfl
@[simp] theorem State.setPassage_toll (k : Nat) (f : Passage → Passage) (s : State) : (s.setPassage k f).toll = s.toll := rfl
@[simp] theorem State.setPassage_acc (k : Nat) (f : Passage → Passage) (s : State) : (s.setPassage k f).acc = s.acc := rfl
@[simp] theorem State.setPassage_auth (k : Nat) (f : Passage → Passage) (s : State) : (s.setPassage k f).auth = s.auth := rfl
@[simp] theorem State.setPassage_ports (k : Nat) (f : Passage → Passage) (s : State) : (s.setPassage k f).ports = s.ports := rfl
@[simp] theorem State.setPassage_agenda (k : Nat) (f : Passage → Passage) (s : State) : (s.setPassage k f).agenda = s.agenda := rfl
@[simp] theorem State.setPassage_callDue (k : Nat) (f : Passage → Passage) (s : State) : (s.setPassage k f).callDue = s.callDue := rfl
@[simp] theorem State.setPassage_pending (k : Nat) (f : Passage → Passage) (s : State) : (s.setPassage k f).pending = s.pending := rfl

/-! ## setGate -/

@[simp] theorem State.setGate_pins (k : Nat) (f : Gate → Gate) (s : State) : (s.setGate k f).pins = s.pins := rfl
@[simp] theorem State.setGate_flight (k : Nat) (f : Gate → Gate) (s : State) : (s.setGate k f).flight = s.flight := rfl
@[simp] theorem State.setGate_timing (k : Nat) (f : Gate → Gate) (s : State) : (s.setGate k f).timing = s.timing := rfl
@[simp] theorem State.setGate_lm (k : Nat) (f : Gate → Gate) (s : State) : (s.setGate k f).lm = s.lm := rfl
@[simp] theorem State.setGate_lamps (k : Nat) (f : Gate → Gate) (s : State) : (s.setGate k f).lamps = s.lamps := rfl
@[simp] theorem State.setGate_reg (k : Nat) (f : Gate → Gate) (s : State) : (s.setGate k f).reg = s.reg := rfl
@[simp] theorem State.setGate_arb (k : Nat) (f : Gate → Gate) (s : State) : (s.setGate k f).arb = s.arb := rfl
@[simp] theorem State.setGate_table (k : Nat) (f : Gate → Gate) (s : State) : (s.setGate k f).table = s.table := rfl
@[simp] theorem State.setGate_toll (k : Nat) (f : Gate → Gate) (s : State) : (s.setGate k f).toll = s.toll := rfl
@[simp] theorem State.setGate_acc (k : Nat) (f : Gate → Gate) (s : State) : (s.setGate k f).acc = s.acc := rfl
@[simp] theorem State.setGate_auth (k : Nat) (f : Gate → Gate) (s : State) : (s.setGate k f).auth = s.auth := rfl
@[simp] theorem State.setGate_ports (k : Nat) (f : Gate → Gate) (s : State) : (s.setGate k f).ports = s.ports := rfl
@[simp] theorem State.setGate_agenda (k : Nat) (f : Gate → Gate) (s : State) : (s.setGate k f).agenda = s.agenda := rfl
@[simp] theorem State.setGate_callDue (k : Nat) (f : Gate → Gate) (s : State) : (s.setGate k f).callDue = s.callDue := rfl
@[simp] theorem State.setGate_pending (k : Nat) (f : Gate → Gate) (s : State) : (s.setGate k f).pending = s.pending := rfl

/-! ## setSluice -/

@[simp] theorem State.setSluice_pins (k : Nat) (f : Sluice → Sluice) (s : State) : (s.setSluice k f).pins = s.pins := rfl
@[simp] theorem State.setSluice_flight (k : Nat) (f : Sluice → Sluice) (s : State) : (s.setSluice k f).flight = s.flight := rfl
@[simp] theorem State.setSluice_timing (k : Nat) (f : Sluice → Sluice) (s : State) : (s.setSluice k f).timing = s.timing := rfl
@[simp] theorem State.setSluice_lm (k : Nat) (f : Sluice → Sluice) (s : State) : (s.setSluice k f).lm = s.lm := rfl
@[simp] theorem State.setSluice_lamps (k : Nat) (f : Sluice → Sluice) (s : State) : (s.setSluice k f).lamps = s.lamps := rfl
@[simp] theorem State.setSluice_reg (k : Nat) (f : Sluice → Sluice) (s : State) : (s.setSluice k f).reg = s.reg := rfl
@[simp] theorem State.setSluice_arb (k : Nat) (f : Sluice → Sluice) (s : State) : (s.setSluice k f).arb = s.arb := rfl
@[simp] theorem State.setSluice_table (k : Nat) (f : Sluice → Sluice) (s : State) : (s.setSluice k f).table = s.table := rfl
@[simp] theorem State.setSluice_toll (k : Nat) (f : Sluice → Sluice) (s : State) : (s.setSluice k f).toll = s.toll := rfl
@[simp] theorem State.setSluice_acc (k : Nat) (f : Sluice → Sluice) (s : State) : (s.setSluice k f).acc = s.acc := rfl
@[simp] theorem State.setSluice_auth (k : Nat) (f : Sluice → Sluice) (s : State) : (s.setSluice k f).auth = s.auth := rfl
@[simp] theorem State.setSluice_ports (k : Nat) (f : Sluice → Sluice) (s : State) : (s.setSluice k f).ports = s.ports := rfl
@[simp] theorem State.setSluice_agenda (k : Nat) (f : Sluice → Sluice) (s : State) : (s.setSluice k f).agenda = s.agenda := rfl
@[simp] theorem State.setSluice_callDue (k : Nat) (f : Sluice → Sluice) (s : State) : (s.setSluice k f).callDue = s.callDue := rfl
@[simp] theorem State.setSluice_pending (k : Nat) (f : Sluice → Sluice) (s : State) : (s.setSluice k f).pending = s.pending := rfl

/-! ## setOp -/

@[simp] theorem State.setOp_pins (k : Nat) (f : Op → Op) (s : State) : (s.setOp k f).pins = s.pins := rfl
@[simp] theorem State.setOp_flight (k : Nat) (f : Op → Op) (s : State) : (s.setOp k f).flight = s.flight := rfl
@[simp] theorem State.setOp_timing (k : Nat) (f : Op → Op) (s : State) : (s.setOp k f).timing = s.timing := rfl
@[simp] theorem State.setOp_lm (k : Nat) (f : Op → Op) (s : State) : (s.setOp k f).lm = s.lm := rfl
@[simp] theorem State.setOp_lamps (k : Nat) (f : Op → Op) (s : State) : (s.setOp k f).lamps = s.lamps := rfl
@[simp] theorem State.setOp_reg (k : Nat) (f : Op → Op) (s : State) : (s.setOp k f).reg = s.reg := rfl
@[simp] theorem State.setOp_arb (k : Nat) (f : Op → Op) (s : State) : (s.setOp k f).arb = s.arb := rfl
@[simp] theorem State.setOp_table (k : Nat) (f : Op → Op) (s : State) : (s.setOp k f).table = s.table := rfl
@[simp] theorem State.setOp_toll (k : Nat) (f : Op → Op) (s : State) : (s.setOp k f).toll = s.toll := rfl
@[simp] theorem State.setOp_acc (k : Nat) (f : Op → Op) (s : State) : (s.setOp k f).acc = s.acc := rfl
@[simp] theorem State.setOp_auth (k : Nat) (f : Op → Op) (s : State) : (s.setOp k f).auth = s.auth := rfl
@[simp] theorem State.setOp_ports (k : Nat) (f : Op → Op) (s : State) : (s.setOp k f).ports = s.ports := rfl
@[simp] theorem State.setOp_agenda (k : Nat) (f : Op → Op) (s : State) : (s.setOp k f).agenda = s.agenda := rfl
@[simp] theorem State.setOp_callDue (k : Nat) (f : Op → Op) (s : State) : (s.setOp k f).callDue = s.callDue := rfl
@[simp] theorem State.setOp_pending (k : Nat) (f : Op → Op) (s : State) : (s.setOp k f).pending = s.pending := rfl

/-! ## setPermit -/

@[simp] theorem State.setPermit_pins (k : Nat) (on : Bool) (s : State) : (s.setPermit k on).pins = s.pins := rfl
@[simp] theorem State.setPermit_flight (k : Nat) (on : Bool) (s : State) : (s.setPermit k on).flight = s.flight := rfl
@[simp] theorem State.setPermit_timing (k : Nat) (on : Bool) (s : State) : (s.setPermit k on).timing = s.timing := rfl
@[simp] theorem State.setPermit_lm (k : Nat) (on : Bool) (s : State) : (s.setPermit k on).lm = s.lm := rfl
@[simp] theorem State.setPermit_lamps (k : Nat) (on : Bool) (s : State) : (s.setPermit k on).lamps = s.lamps := rfl
@[simp] theorem State.setPermit_reg (k : Nat) (on : Bool) (s : State) : (s.setPermit k on).reg = s.reg := rfl
@[simp] theorem State.setPermit_arb (k : Nat) (on : Bool) (s : State) : (s.setPermit k on).arb = s.arb := rfl
@[simp] theorem State.setPermit_table (k : Nat) (on : Bool) (s : State) : (s.setPermit k on).table = s.table := rfl
@[simp] theorem State.setPermit_toll (k : Nat) (on : Bool) (s : State) : (s.setPermit k on).toll = s.toll := rfl
@[simp] theorem State.setPermit_acc (k : Nat) (on : Bool) (s : State) : (s.setPermit k on).acc = s.acc := rfl
@[simp] theorem State.setPermit_auth (k : Nat) (on : Bool) (s : State) : (s.setPermit k on).auth = s.auth := rfl
@[simp] theorem State.setPermit_ports (k : Nat) (on : Bool) (s : State) : (s.setPermit k on).ports = s.ports := rfl
@[simp] theorem State.setPermit_agenda (k : Nat) (on : Bool) (s : State) : (s.setPermit k on).agenda = s.agenda := rfl
@[simp] theorem State.setPermit_callDue (k : Nat) (on : Bool) (s : State) : (s.setPermit k on).callDue = s.callDue := rfl
@[simp] theorem State.setPermit_pending (k : Nat) (on : Bool) (s : State) : (s.setPermit k on).pending = s.pending := rfl

/-! ## setClaims -/

@[simp] theorem State.setClaims_pins (l : List Nat) (o : Option Nat) (s : State) : (s.setClaims l o).pins = s.pins := rfl
@[simp] theorem State.setClaims_flight (l : List Nat) (o : Option Nat) (s : State) : (s.setClaims l o).flight = s.flight := rfl
@[simp] theorem State.setClaims_timing (l : List Nat) (o : Option Nat) (s : State) : (s.setClaims l o).timing = s.timing := rfl
@[simp] theorem State.setClaims_lm (l : List Nat) (o : Option Nat) (s : State) : (s.setClaims l o).lm = s.lm := rfl
@[simp] theorem State.setClaims_lamps (l : List Nat) (o : Option Nat) (s : State) : (s.setClaims l o).lamps = s.lamps := rfl
@[simp] theorem State.setClaims_reg (l : List Nat) (o : Option Nat) (s : State) : (s.setClaims l o).reg = s.reg := rfl
@[simp] theorem State.setClaims_arb (l : List Nat) (o : Option Nat) (s : State) : (s.setClaims l o).arb = s.arb := rfl
@[simp] theorem State.setClaims_table (l : List Nat) (o : Option Nat) (s : State) : (s.setClaims l o).table = s.table := rfl
@[simp] theorem State.setClaims_toll (l : List Nat) (o : Option Nat) (s : State) : (s.setClaims l o).toll = s.toll := rfl
@[simp] theorem State.setClaims_acc (l : List Nat) (o : Option Nat) (s : State) : (s.setClaims l o).acc = s.acc := rfl
@[simp] theorem State.setClaims_auth (l : List Nat) (o : Option Nat) (s : State) : (s.setClaims l o).auth = s.auth := rfl
@[simp] theorem State.setClaims_ports (l : List Nat) (o : Option Nat) (s : State) : (s.setClaims l o).ports = s.ports := rfl
@[simp] theorem State.setClaims_agenda (l : List Nat) (o : Option Nat) (s : State) : (s.setClaims l o).agenda = s.agenda := rfl
@[simp] theorem State.setClaims_callDue (l : List Nat) (o : Option Nat) (s : State) : (s.setClaims l o).callDue = s.callDue := rfl
@[simp] theorem State.setClaims_pending (l : List Nat) (o : Option Nat) (s : State) : (s.setClaims l o).pending = s.pending := rfl

/-! ## setTransit -/

@[simp] theorem State.setTransit_pins (id : Nat) (f : Transit → Transit) (s : State) : (s.setTransit id f).pins = s.pins := rfl
@[simp] theorem State.setTransit_flight (id : Nat) (f : Transit → Transit) (s : State) : (s.setTransit id f).flight = s.flight := rfl
@[simp] theorem State.setTransit_timing (id : Nat) (f : Transit → Transit) (s : State) : (s.setTransit id f).timing = s.timing := rfl
@[simp] theorem State.setTransit_lm (id : Nat) (f : Transit → Transit) (s : State) : (s.setTransit id f).lm = s.lm := rfl
@[simp] theorem State.setTransit_pcu (id : Nat) (f : Transit → Transit) (s : State) : (s.setTransit id f).pcu = s.pcu := rfl
@[simp] theorem State.setTransit_lamps (id : Nat) (f : Transit → Transit) (s : State) : (s.setTransit id f).lamps = s.lamps := rfl
@[simp] theorem State.setTransit_reg (id : Nat) (f : Transit → Transit) (s : State) : (s.setTransit id f).reg = s.reg := rfl
@[simp] theorem State.setTransit_arb (id : Nat) (f : Transit → Transit) (s : State) : (s.setTransit id f).arb = s.arb := rfl
@[simp] theorem State.setTransit_toll (id : Nat) (f : Transit → Transit) (s : State) : (s.setTransit id f).toll = s.toll := rfl
@[simp] theorem State.setTransit_acc (id : Nat) (f : Transit → Transit) (s : State) : (s.setTransit id f).acc = s.acc := rfl
@[simp] theorem State.setTransit_auth (id : Nat) (f : Transit → Transit) (s : State) : (s.setTransit id f).auth = s.auth := rfl
@[simp] theorem State.setTransit_ports (id : Nat) (f : Transit → Transit) (s : State) : (s.setTransit id f).ports = s.ports := rfl
@[simp] theorem State.setTransit_agenda (id : Nat) (f : Transit → Transit) (s : State) : (s.setTransit id f).agenda = s.agenda := rfl
@[simp] theorem State.setTransit_callDue (id : Nat) (f : Transit → Transit) (s : State) : (s.setTransit id f).callDue = s.callDue := rfl
@[simp] theorem State.setTransit_pending (id : Nat) (f : Transit → Transit) (s : State) : (s.setTransit id f).pending = s.pending := rfl

/-! ## setMove -/

@[simp] theorem State.setMove_pins (id : Nat) (f : Move → Move) (s : State) : (s.setMove id f).pins = s.pins := rfl
@[simp] theorem State.setMove_flight (id : Nat) (f : Move → Move) (s : State) : (s.setMove id f).flight = s.flight := rfl
@[simp] theorem State.setMove_timing (id : Nat) (f : Move → Move) (s : State) : (s.setMove id f).timing = s.timing := rfl
@[simp] theorem State.setMove_lm (id : Nat) (f : Move → Move) (s : State) : (s.setMove id f).lm = s.lm := rfl
@[simp] theorem State.setMove_pcu (id : Nat) (f : Move → Move) (s : State) : (s.setMove id f).pcu = s.pcu := rfl
@[simp] theorem State.setMove_lamps (id : Nat) (f : Move → Move) (s : State) : (s.setMove id f).lamps = s.lamps := rfl
@[simp] theorem State.setMove_reg (id : Nat) (f : Move → Move) (s : State) : (s.setMove id f).reg = s.reg := rfl
@[simp] theorem State.setMove_arb (id : Nat) (f : Move → Move) (s : State) : (s.setMove id f).arb = s.arb := rfl
@[simp] theorem State.setMove_toll (id : Nat) (f : Move → Move) (s : State) : (s.setMove id f).toll = s.toll := rfl
@[simp] theorem State.setMove_acc (id : Nat) (f : Move → Move) (s : State) : (s.setMove id f).acc = s.acc := rfl
@[simp] theorem State.setMove_auth (id : Nat) (f : Move → Move) (s : State) : (s.setMove id f).auth = s.auth := rfl
@[simp] theorem State.setMove_ports (id : Nat) (f : Move → Move) (s : State) : (s.setMove id f).ports = s.ports := rfl
@[simp] theorem State.setMove_agenda (id : Nat) (f : Move → Move) (s : State) : (s.setMove id f).agenda = s.agenda := rfl
@[simp] theorem State.setMove_callDue (id : Nat) (f : Move → Move) (s : State) : (s.setMove id f).callDue = s.callDue := rfl
@[simp] theorem State.setMove_pending (id : Nat) (f : Move → Move) (s : State) : (s.setMove id f).pending = s.pending := rfl

/-! ## freeTransit -/

@[simp] theorem State.freeTransit_pins (id : Nat) (s : State) : (s.freeTransit id).pins = s.pins := rfl
@[simp] theorem State.freeTransit_flight (id : Nat) (s : State) : (s.freeTransit id).flight = s.flight := rfl
@[simp] theorem State.freeTransit_timing (id : Nat) (s : State) : (s.freeTransit id).timing = s.timing := rfl
@[simp] theorem State.freeTransit_lm (id : Nat) (s : State) : (s.freeTransit id).lm = s.lm := rfl
@[simp] theorem State.freeTransit_pcu (id : Nat) (s : State) : (s.freeTransit id).pcu = s.pcu := rfl
@[simp] theorem State.freeTransit_lamps (id : Nat) (s : State) : (s.freeTransit id).lamps = s.lamps := rfl
@[simp] theorem State.freeTransit_reg (id : Nat) (s : State) : (s.freeTransit id).reg = s.reg := rfl
@[simp] theorem State.freeTransit_arb (id : Nat) (s : State) : (s.freeTransit id).arb = s.arb := rfl
@[simp] theorem State.freeTransit_toll (id : Nat) (s : State) : (s.freeTransit id).toll = s.toll := rfl
@[simp] theorem State.freeTransit_acc (id : Nat) (s : State) : (s.freeTransit id).acc = s.acc := rfl
@[simp] theorem State.freeTransit_auth (id : Nat) (s : State) : (s.freeTransit id).auth = s.auth := rfl
@[simp] theorem State.freeTransit_ports (id : Nat) (s : State) : (s.freeTransit id).ports = s.ports := rfl
@[simp] theorem State.freeTransit_agenda (id : Nat) (s : State) : (s.freeTransit id).agenda = s.agenda := rfl
@[simp] theorem State.freeTransit_callDue (id : Nat) (s : State) : (s.freeTransit id).callDue = s.callDue := rfl
@[simp] theorem State.freeTransit_pending (id : Nat) (s : State) : (s.freeTransit id).pending = s.pending := rfl

/-! ## setVessel -/

@[simp] theorem State.setVessel_pins (m : Mark) (f : Vessel → Vessel) (s : State) : (s.setVessel m f).pins = s.pins := rfl
@[simp] theorem State.setVessel_flight (m : Mark) (f : Vessel → Vessel) (s : State) : (s.setVessel m f).flight = s.flight := rfl
@[simp] theorem State.setVessel_timing (m : Mark) (f : Vessel → Vessel) (s : State) : (s.setVessel m f).timing = s.timing := rfl
@[simp] theorem State.setVessel_lm (m : Mark) (f : Vessel → Vessel) (s : State) : (s.setVessel m f).lm = s.lm := rfl
@[simp] theorem State.setVessel_pcu (m : Mark) (f : Vessel → Vessel) (s : State) : (s.setVessel m f).pcu = s.pcu := rfl
@[simp] theorem State.setVessel_lamps (m : Mark) (f : Vessel → Vessel) (s : State) : (s.setVessel m f).lamps = s.lamps := rfl
@[simp] theorem State.setVessel_arb (m : Mark) (f : Vessel → Vessel) (s : State) : (s.setVessel m f).arb = s.arb := rfl
@[simp] theorem State.setVessel_table (m : Mark) (f : Vessel → Vessel) (s : State) : (s.setVessel m f).table = s.table := rfl
@[simp] theorem State.setVessel_toll (m : Mark) (f : Vessel → Vessel) (s : State) : (s.setVessel m f).toll = s.toll := rfl
@[simp] theorem State.setVessel_acc (m : Mark) (f : Vessel → Vessel) (s : State) : (s.setVessel m f).acc = s.acc := rfl
@[simp] theorem State.setVessel_auth (m : Mark) (f : Vessel → Vessel) (s : State) : (s.setVessel m f).auth = s.auth := rfl
@[simp] theorem State.setVessel_ports (m : Mark) (f : Vessel → Vessel) (s : State) : (s.setVessel m f).ports = s.ports := rfl
@[simp] theorem State.setVessel_agenda (m : Mark) (f : Vessel → Vessel) (s : State) : (s.setVessel m f).agenda = s.agenda := rfl
@[simp] theorem State.setVessel_callDue (m : Mark) (f : Vessel → Vessel) (s : State) : (s.setVessel m f).callDue = s.callDue := rfl
@[simp] theorem State.setVessel_pending (m : Mark) (f : Vessel → Vessel) (s : State) : (s.setVessel m f).pending = s.pending := rfl

/-! ## setQueue -/

@[simp] theorem State.setQueue_pins (d : Direction) (f : List Mark → List Mark) (s : State) : (s.setQueue d f).pins = s.pins := by cases d <;> rfl
@[simp] theorem State.setQueue_flight (d : Direction) (f : List Mark → List Mark) (s : State) : (s.setQueue d f).flight = s.flight := by cases d <;> rfl
@[simp] theorem State.setQueue_timing (d : Direction) (f : List Mark → List Mark) (s : State) : (s.setQueue d f).timing = s.timing := by cases d <;> rfl
@[simp] theorem State.setQueue_lm (d : Direction) (f : List Mark → List Mark) (s : State) : (s.setQueue d f).lm = s.lm := by cases d <;> rfl
@[simp] theorem State.setQueue_pcu (d : Direction) (f : List Mark → List Mark) (s : State) : (s.setQueue d f).pcu = s.pcu := by cases d <;> rfl
@[simp] theorem State.setQueue_lamps (d : Direction) (f : List Mark → List Mark) (s : State) : (s.setQueue d f).lamps = s.lamps := by cases d <;> rfl
@[simp] theorem State.setQueue_arb (d : Direction) (f : List Mark → List Mark) (s : State) : (s.setQueue d f).arb = s.arb := by cases d <;> rfl
@[simp] theorem State.setQueue_table (d : Direction) (f : List Mark → List Mark) (s : State) : (s.setQueue d f).table = s.table := by cases d <;> rfl
@[simp] theorem State.setQueue_toll (d : Direction) (f : List Mark → List Mark) (s : State) : (s.setQueue d f).toll = s.toll := by cases d <;> rfl
@[simp] theorem State.setQueue_acc (d : Direction) (f : List Mark → List Mark) (s : State) : (s.setQueue d f).acc = s.acc := by cases d <;> rfl
@[simp] theorem State.setQueue_auth (d : Direction) (f : List Mark → List Mark) (s : State) : (s.setQueue d f).auth = s.auth := by cases d <;> rfl
@[simp] theorem State.setQueue_ports (d : Direction) (f : List Mark → List Mark) (s : State) : (s.setQueue d f).ports = s.ports := by cases d <;> rfl
@[simp] theorem State.setQueue_agenda (d : Direction) (f : List Mark → List Mark) (s : State) : (s.setQueue d f).agenda = s.agenda := by cases d <;> rfl
@[simp] theorem State.setQueue_callDue (d : Direction) (f : List Mark → List Mark) (s : State) : (s.setQueue d f).callDue = s.callDue := by cases d <;> rfl
@[simp] theorem State.setQueue_pending (d : Direction) (f : List Mark → List Mark) (s : State) : (s.setQueue d f).pending = s.pending := by cases d <;> rfl

/-! ## setPort -/

@[simp] theorem State.setPort_pins (st : Station) (f : Port → Port) (s : State) : (s.setPort st f).pins = s.pins := rfl
@[simp] theorem State.setPort_flight (st : Station) (f : Port → Port) (s : State) : (s.setPort st f).flight = s.flight := rfl
@[simp] theorem State.setPort_timing (st : Station) (f : Port → Port) (s : State) : (s.setPort st f).timing = s.timing := rfl
@[simp] theorem State.setPort_lm (st : Station) (f : Port → Port) (s : State) : (s.setPort st f).lm = s.lm := rfl
@[simp] theorem State.setPort_pcu (st : Station) (f : Port → Port) (s : State) : (s.setPort st f).pcu = s.pcu := rfl
@[simp] theorem State.setPort_lamps (st : Station) (f : Port → Port) (s : State) : (s.setPort st f).lamps = s.lamps := rfl
@[simp] theorem State.setPort_reg (st : Station) (f : Port → Port) (s : State) : (s.setPort st f).reg = s.reg := rfl
@[simp] theorem State.setPort_arb (st : Station) (f : Port → Port) (s : State) : (s.setPort st f).arb = s.arb := rfl
@[simp] theorem State.setPort_table (st : Station) (f : Port → Port) (s : State) : (s.setPort st f).table = s.table := rfl
@[simp] theorem State.setPort_toll (st : Station) (f : Port → Port) (s : State) : (s.setPort st f).toll = s.toll := rfl
@[simp] theorem State.setPort_acc (st : Station) (f : Port → Port) (s : State) : (s.setPort st f).acc = s.acc := rfl
@[simp] theorem State.setPort_auth (st : Station) (f : Port → Port) (s : State) : (s.setPort st f).auth = s.auth := rfl
@[simp] theorem State.setPort_agenda (st : Station) (f : Port → Port) (s : State) : (s.setPort st f).agenda = s.agenda := rfl
@[simp] theorem State.setPort_callDue (st : Station) (f : Port → Port) (s : State) : (s.setPort st f).callDue = s.callDue := rfl
@[simp] theorem State.setPort_pending (st : Station) (f : Port → Port) (s : State) : (s.setPort st f).pending = s.pending := rfl

/-! ## setHead -/

@[simp] theorem State.setHead_pins (k : Nat) (side : Side) (f : Head → Head) (s : State) : (s.setHead k side f).pins = s.pins := rfl
@[simp] theorem State.setHead_flight (k : Nat) (side : Side) (f : Head → Head) (s : State) : (s.setHead k side f).flight = s.flight := rfl
@[simp] theorem State.setHead_timing (k : Nat) (side : Side) (f : Head → Head) (s : State) : (s.setHead k side f).timing = s.timing := rfl
@[simp] theorem State.setHead_lm (k : Nat) (side : Side) (f : Head → Head) (s : State) : (s.setHead k side f).lm = s.lm := rfl
@[simp] theorem State.setHead_pcu (k : Nat) (side : Side) (f : Head → Head) (s : State) : (s.setHead k side f).pcu = s.pcu := rfl
@[simp] theorem State.setHead_reg (k : Nat) (side : Side) (f : Head → Head) (s : State) : (s.setHead k side f).reg = s.reg := rfl
@[simp] theorem State.setHead_arb (k : Nat) (side : Side) (f : Head → Head) (s : State) : (s.setHead k side f).arb = s.arb := rfl
@[simp] theorem State.setHead_table (k : Nat) (side : Side) (f : Head → Head) (s : State) : (s.setHead k side f).table = s.table := rfl
@[simp] theorem State.setHead_toll (k : Nat) (side : Side) (f : Head → Head) (s : State) : (s.setHead k side f).toll = s.toll := rfl
@[simp] theorem State.setHead_acc (k : Nat) (side : Side) (f : Head → Head) (s : State) : (s.setHead k side f).acc = s.acc := rfl
@[simp] theorem State.setHead_auth (k : Nat) (side : Side) (f : Head → Head) (s : State) : (s.setHead k side f).auth = s.auth := rfl
@[simp] theorem State.setHead_ports (k : Nat) (side : Side) (f : Head → Head) (s : State) : (s.setHead k side f).ports = s.ports := rfl
@[simp] theorem State.setHead_agenda (k : Nat) (side : Side) (f : Head → Head) (s : State) : (s.setHead k side f).agenda = s.agenda := rfl
@[simp] theorem State.setHead_callDue (k : Nat) (side : Side) (f : Head → Head) (s : State) : (s.setHead k side f).callDue = s.callDue := rfl
@[simp] theorem State.setHead_pending (k : Nat) (side : Side) (f : Head → Head) (s : State) : (s.setHead k side f).pending = s.pending := rfl

/-! ## raise -/

@[simp] theorem State.raise_pins (n : Notice) (s : State) : (s.raise n).pins = s.pins := rfl
@[simp] theorem State.raise_flight (n : Notice) (s : State) : (s.raise n).flight = s.flight := rfl
@[simp] theorem State.raise_timing (n : Notice) (s : State) : (s.raise n).timing = s.timing := rfl
@[simp] theorem State.raise_lm (n : Notice) (s : State) : (s.raise n).lm = s.lm := rfl
@[simp] theorem State.raise_pcu (n : Notice) (s : State) : (s.raise n).pcu = s.pcu := rfl
@[simp] theorem State.raise_lamps (n : Notice) (s : State) : (s.raise n).lamps = s.lamps := rfl
@[simp] theorem State.raise_reg (n : Notice) (s : State) : (s.raise n).reg = s.reg := rfl
@[simp] theorem State.raise_arb (n : Notice) (s : State) : (s.raise n).arb = s.arb := rfl
@[simp] theorem State.raise_table (n : Notice) (s : State) : (s.raise n).table = s.table := rfl
@[simp] theorem State.raise_toll (n : Notice) (s : State) : (s.raise n).toll = s.toll := rfl
@[simp] theorem State.raise_acc (n : Notice) (s : State) : (s.raise n).acc = s.acc := rfl
@[simp] theorem State.raise_auth (n : Notice) (s : State) : (s.raise n).auth = s.auth := rfl
@[simp] theorem State.raise_agenda (n : Notice) (s : State) : (s.raise n).agenda = s.agenda := rfl
@[simp] theorem State.raise_callDue (n : Notice) (s : State) : (s.raise n).callDue = s.callDue := rfl
@[simp] theorem State.raise_pending (n : Notice) (s : State) : (s.raise n).pending = s.pending := rfl

/-! ## push -/

@[simp] theorem State.push_pins (t : Task) (s : State) : (s.push t).pins = s.pins := rfl
@[simp] theorem State.push_flight (t : Task) (s : State) : (s.push t).flight = s.flight := rfl
@[simp] theorem State.push_timing (t : Task) (s : State) : (s.push t).timing = s.timing := rfl
@[simp] theorem State.push_lm (t : Task) (s : State) : (s.push t).lm = s.lm := rfl
@[simp] theorem State.push_pcu (t : Task) (s : State) : (s.push t).pcu = s.pcu := rfl
@[simp] theorem State.push_lamps (t : Task) (s : State) : (s.push t).lamps = s.lamps := rfl
@[simp] theorem State.push_reg (t : Task) (s : State) : (s.push t).reg = s.reg := rfl
@[simp] theorem State.push_arb (t : Task) (s : State) : (s.push t).arb = s.arb := rfl
@[simp] theorem State.push_table (t : Task) (s : State) : (s.push t).table = s.table := rfl
@[simp] theorem State.push_toll (t : Task) (s : State) : (s.push t).toll = s.toll := rfl
@[simp] theorem State.push_acc (t : Task) (s : State) : (s.push t).acc = s.acc := rfl
@[simp] theorem State.push_auth (t : Task) (s : State) : (s.push t).auth = s.auth := rfl
@[simp] theorem State.push_ports (t : Task) (s : State) : (s.push t).ports = s.ports := rfl
@[simp] theorem State.push_callDue (t : Task) (s : State) : (s.push t).callDue = s.callDue := rfl
@[simp] theorem State.push_pending (t : Task) (s : State) : (s.push t).pending = s.pending := rfl

/-! ## pushAll -/

@[simp] theorem State.pushAll_pins (l : List Task) (s : State) : (s.pushAll l).pins = s.pins := rfl
@[simp] theorem State.pushAll_flight (l : List Task) (s : State) : (s.pushAll l).flight = s.flight := rfl
@[simp] theorem State.pushAll_timing (l : List Task) (s : State) : (s.pushAll l).timing = s.timing := rfl
@[simp] theorem State.pushAll_lm (l : List Task) (s : State) : (s.pushAll l).lm = s.lm := rfl
@[simp] theorem State.pushAll_pcu (l : List Task) (s : State) : (s.pushAll l).pcu = s.pcu := rfl
@[simp] theorem State.pushAll_lamps (l : List Task) (s : State) : (s.pushAll l).lamps = s.lamps := rfl
@[simp] theorem State.pushAll_reg (l : List Task) (s : State) : (s.pushAll l).reg = s.reg := rfl
@[simp] theorem State.pushAll_arb (l : List Task) (s : State) : (s.pushAll l).arb = s.arb := rfl
@[simp] theorem State.pushAll_table (l : List Task) (s : State) : (s.pushAll l).table = s.table := rfl
@[simp] theorem State.pushAll_toll (l : List Task) (s : State) : (s.pushAll l).toll = s.toll := rfl
@[simp] theorem State.pushAll_acc (l : List Task) (s : State) : (s.pushAll l).acc = s.acc := rfl
@[simp] theorem State.pushAll_auth (l : List Task) (s : State) : (s.pushAll l).auth = s.auth := rfl
@[simp] theorem State.pushAll_ports (l : List Task) (s : State) : (s.pushAll l).ports = s.ports := rfl
@[simp] theorem State.pushAll_callDue (l : List Task) (s : State) : (s.pushAll l).callDue = s.callDue := rfl
@[simp] theorem State.pushAll_pending (l : List Task) (s : State) : (s.pushAll l).pending = s.pending := rfl

/-! ## calling -/

@[simp] theorem State.calling_pins (s : State) : (s.calling).pins = s.pins := rfl
@[simp] theorem State.calling_flight (s : State) : (s.calling).flight = s.flight := rfl
@[simp] theorem State.calling_timing (s : State) : (s.calling).timing = s.timing := rfl
@[simp] theorem State.calling_lm (s : State) : (s.calling).lm = s.lm := rfl
@[simp] theorem State.calling_pcu (s : State) : (s.calling).pcu = s.pcu := rfl
@[simp] theorem State.calling_lamps (s : State) : (s.calling).lamps = s.lamps := rfl
@[simp] theorem State.calling_reg (s : State) : (s.calling).reg = s.reg := rfl
@[simp] theorem State.calling_arb (s : State) : (s.calling).arb = s.arb := rfl
@[simp] theorem State.calling_table (s : State) : (s.calling).table = s.table := rfl
@[simp] theorem State.calling_toll (s : State) : (s.calling).toll = s.toll := rfl
@[simp] theorem State.calling_acc (s : State) : (s.calling).acc = s.acc := rfl
@[simp] theorem State.calling_auth (s : State) : (s.calling).auth = s.auth := rfl
@[simp] theorem State.calling_ports (s : State) : (s.calling).ports = s.ports := rfl
@[simp] theorem State.calling_agenda (s : State) : (s.calling).agenda = s.agenda := rfl
@[simp] theorem State.calling_pending (s : State) : (s.calling).pending = s.pending := rfl

/-! ## pump -/

@[simp] theorem State.pump_pins (s : State) : (s.pump).pins = s.pins := rfl
@[simp] theorem State.pump_flight (s : State) : (s.pump).flight = s.flight := rfl
@[simp] theorem State.pump_timing (s : State) : (s.pump).timing = s.timing := rfl
@[simp] theorem State.pump_lm (s : State) : (s.pump).lm = s.lm := rfl
@[simp] theorem State.pump_pcu (s : State) : (s.pump).pcu = s.pcu := rfl
@[simp] theorem State.pump_lamps (s : State) : (s.pump).lamps = s.lamps := rfl
@[simp] theorem State.pump_reg (s : State) : (s.pump).reg = s.reg := rfl
@[simp] theorem State.pump_arb (s : State) : (s.pump).arb = s.arb := rfl
@[simp] theorem State.pump_table (s : State) : (s.pump).table = s.table := rfl
@[simp] theorem State.pump_toll (s : State) : (s.pump).toll = s.toll := rfl
@[simp] theorem State.pump_acc (s : State) : (s.pump).acc = s.acc := rfl
@[simp] theorem State.pump_auth (s : State) : (s.pump).auth = s.auth := rfl
@[simp] theorem State.pump_agenda (s : State) : (s.pump).agenda = s.agenda := rfl
@[simp] theorem State.pump_callDue (s : State) : (s.pump).callDue = s.callDue := rfl
@[simp] theorem State.pump_pending (s : State) : (s.pump).pending = s.pending := rfl

/-! ## goodFrame -/

@[simp] theorem State.goodFrame_pins (st : Station) (s : State) : (s.goodFrame st).pins = s.pins := rfl
@[simp] theorem State.goodFrame_flight (st : Station) (s : State) : (s.goodFrame st).flight = s.flight := rfl
@[simp] theorem State.goodFrame_timing (st : Station) (s : State) : (s.goodFrame st).timing = s.timing := rfl
@[simp] theorem State.goodFrame_lm (st : Station) (s : State) : (s.goodFrame st).lm = s.lm := rfl
@[simp] theorem State.goodFrame_pcu (st : Station) (s : State) : (s.goodFrame st).pcu = s.pcu := rfl
@[simp] theorem State.goodFrame_lamps (st : Station) (s : State) : (s.goodFrame st).lamps = s.lamps := rfl
@[simp] theorem State.goodFrame_reg (st : Station) (s : State) : (s.goodFrame st).reg = s.reg := rfl
@[simp] theorem State.goodFrame_arb (st : Station) (s : State) : (s.goodFrame st).arb = s.arb := rfl
@[simp] theorem State.goodFrame_table (st : Station) (s : State) : (s.goodFrame st).table = s.table := rfl
@[simp] theorem State.goodFrame_toll (st : Station) (s : State) : (s.goodFrame st).toll = s.toll := rfl
@[simp] theorem State.goodFrame_acc (st : Station) (s : State) : (s.goodFrame st).acc = s.acc := rfl
@[simp] theorem State.goodFrame_auth (st : Station) (s : State) : (s.goodFrame st).auth = s.auth := rfl
@[simp] theorem State.goodFrame_agenda (st : Station) (s : State) : (s.goodFrame st).agenda = s.agenda := rfl
@[simp] theorem State.goodFrame_callDue (st : Station) (s : State) : (s.goodFrame st).callDue = s.callDue := rfl
@[simp] theorem State.goodFrame_pending (st : Station) (s : State) : (s.goodFrame st).pending = s.pending := rfl

/-! ## respond -/

@[simp] theorem State.respond_pins (st : Station) (tag kind : Nat) (a : Answer) (s : State) : (s.respond st tag kind a).pins = s.pins := rfl
@[simp] theorem State.respond_flight (st : Station) (tag kind : Nat) (a : Answer) (s : State) : (s.respond st tag kind a).flight = s.flight := rfl
@[simp] theorem State.respond_timing (st : Station) (tag kind : Nat) (a : Answer) (s : State) : (s.respond st tag kind a).timing = s.timing := rfl
@[simp] theorem State.respond_lm (st : Station) (tag kind : Nat) (a : Answer) (s : State) : (s.respond st tag kind a).lm = s.lm := rfl
@[simp] theorem State.respond_pcu (st : Station) (tag kind : Nat) (a : Answer) (s : State) : (s.respond st tag kind a).pcu = s.pcu := rfl
@[simp] theorem State.respond_lamps (st : Station) (tag kind : Nat) (a : Answer) (s : State) : (s.respond st tag kind a).lamps = s.lamps := rfl
@[simp] theorem State.respond_reg (st : Station) (tag kind : Nat) (a : Answer) (s : State) : (s.respond st tag kind a).reg = s.reg := rfl
@[simp] theorem State.respond_arb (st : Station) (tag kind : Nat) (a : Answer) (s : State) : (s.respond st tag kind a).arb = s.arb := rfl
@[simp] theorem State.respond_table (st : Station) (tag kind : Nat) (a : Answer) (s : State) : (s.respond st tag kind a).table = s.table := rfl
@[simp] theorem State.respond_toll (st : Station) (tag kind : Nat) (a : Answer) (s : State) : (s.respond st tag kind a).toll = s.toll := rfl
@[simp] theorem State.respond_acc (st : Station) (tag kind : Nat) (a : Answer) (s : State) : (s.respond st tag kind a).acc = s.acc := rfl
@[simp] theorem State.respond_auth (st : Station) (tag kind : Nat) (a : Answer) (s : State) : (s.respond st tag kind a).auth = s.auth := rfl
@[simp] theorem State.respond_agenda (st : Station) (tag kind : Nat) (a : Answer) (s : State) : (s.respond st tag kind a).agenda = s.agenda := rfl
@[simp] theorem State.respond_callDue (st : Station) (tag kind : Nat) (a : Answer) (s : State) : (s.respond st tag kind a).callDue = s.callDue := rfl
@[simp] theorem State.respond_pending (st : Station) (tag kind : Nat) (a : Answer) (s : State) : (s.respond st tag kind a).pending = s.pending := rfl

/-! ## setMode -/

@[simp] theorem State.setMode_pins (m : Mode) (c : Option HoldCause) (s : State) : (s.setMode m c).pins = s.pins := rfl
@[simp] theorem State.setMode_flight (m : Mode) (c : Option HoldCause) (s : State) : (s.setMode m c).flight = s.flight := rfl
@[simp] theorem State.setMode_timing (m : Mode) (c : Option HoldCause) (s : State) : (s.setMode m c).timing = s.timing := rfl
@[simp] theorem State.setMode_lm (m : Mode) (c : Option HoldCause) (s : State) : (s.setMode m c).lm = s.lm := rfl
@[simp] theorem State.setMode_pcu (m : Mode) (c : Option HoldCause) (s : State) : (s.setMode m c).pcu = s.pcu := rfl
@[simp] theorem State.setMode_lamps (m : Mode) (c : Option HoldCause) (s : State) : (s.setMode m c).lamps = s.lamps := rfl
@[simp] theorem State.setMode_reg (m : Mode) (c : Option HoldCause) (s : State) : (s.setMode m c).reg = s.reg := rfl
@[simp] theorem State.setMode_arb (m : Mode) (c : Option HoldCause) (s : State) : (s.setMode m c).arb = s.arb := rfl
@[simp] theorem State.setMode_table (m : Mode) (c : Option HoldCause) (s : State) : (s.setMode m c).table = s.table := rfl
@[simp] theorem State.setMode_toll (m : Mode) (c : Option HoldCause) (s : State) : (s.setMode m c).toll = s.toll := rfl
@[simp] theorem State.setMode_acc (m : Mode) (c : Option HoldCause) (s : State) : (s.setMode m c).acc = s.acc := rfl
@[simp] theorem State.setMode_ports (m : Mode) (c : Option HoldCause) (s : State) : (s.setMode m c).ports = s.ports := rfl
@[simp] theorem State.setMode_agenda (m : Mode) (c : Option HoldCause) (s : State) : (s.setMode m c).agenda = s.agenda := rfl
@[simp] theorem State.setMode_callDue (m : Mode) (c : Option HoldCause) (s : State) : (s.setMode m c).callDue = s.callDue := rfl
@[simp] theorem State.setMode_pending (m : Mode) (c : Option HoldCause) (s : State) : (s.setMode m c).pending = s.pending := rfl

/-! ## block -/

@[simp] theorem State.block_pins (r : BlockReason) (s : State) : (s.block r).pins = s.pins := rfl
@[simp] theorem State.block_flight (r : BlockReason) (s : State) : (s.block r).flight = s.flight := rfl
@[simp] theorem State.block_timing (r : BlockReason) (s : State) : (s.block r).timing = s.timing := rfl
@[simp] theorem State.block_lm (r : BlockReason) (s : State) : (s.block r).lm = s.lm := rfl
@[simp] theorem State.block_pcu (r : BlockReason) (s : State) : (s.block r).pcu = s.pcu := rfl
@[simp] theorem State.block_lamps (r : BlockReason) (s : State) : (s.block r).lamps = s.lamps := rfl
@[simp] theorem State.block_reg (r : BlockReason) (s : State) : (s.block r).reg = s.reg := rfl
@[simp] theorem State.block_table (r : BlockReason) (s : State) : (s.block r).table = s.table := rfl
@[simp] theorem State.block_toll (r : BlockReason) (s : State) : (s.block r).toll = s.toll := rfl
@[simp] theorem State.block_acc (r : BlockReason) (s : State) : (s.block r).acc = s.acc := rfl
@[simp] theorem State.block_auth (r : BlockReason) (s : State) : (s.block r).auth = s.auth := rfl
@[simp] theorem State.block_ports (r : BlockReason) (s : State) : (s.block r).ports = s.ports := rfl
@[simp] theorem State.block_agenda (r : BlockReason) (s : State) : (s.block r).agenda = s.agenda := rfl
@[simp] theorem State.block_callDue (r : BlockReason) (s : State) : (s.block r).callDue = s.callDue := rfl
@[simp] theorem State.block_pending (r : BlockReason) (s : State) : (s.block r).pending = s.pending := rfl

/-! ## deriveAspects -/

@[simp] theorem State.deriveAspects_pins (s : State) : (s.deriveAspects).pins = s.pins := rfl
@[simp] theorem State.deriveAspects_flight (s : State) : (s.deriveAspects).flight = s.flight := rfl
@[simp] theorem State.deriveAspects_timing (s : State) : (s.deriveAspects).timing = s.timing := rfl
@[simp] theorem State.deriveAspects_lm (s : State) : (s.deriveAspects).lm = s.lm := rfl
@[simp] theorem State.deriveAspects_pcu (s : State) : (s.deriveAspects).pcu = s.pcu := rfl
@[simp] theorem State.deriveAspects_reg (s : State) : (s.deriveAspects).reg = s.reg := rfl
@[simp] theorem State.deriveAspects_arb (s : State) : (s.deriveAspects).arb = s.arb := rfl
@[simp] theorem State.deriveAspects_table (s : State) : (s.deriveAspects).table = s.table := rfl
@[simp] theorem State.deriveAspects_toll (s : State) : (s.deriveAspects).toll = s.toll := rfl
@[simp] theorem State.deriveAspects_acc (s : State) : (s.deriveAspects).acc = s.acc := rfl
@[simp] theorem State.deriveAspects_auth (s : State) : (s.deriveAspects).auth = s.auth := rfl
@[simp] theorem State.deriveAspects_ports (s : State) : (s.deriveAspects).ports = s.ports := rfl
@[simp] theorem State.deriveAspects_agenda (s : State) : (s.deriveAspects).agenda = s.agenda := rfl
@[simp] theorem State.deriveAspects_callDue (s : State) : (s.deriveAspects).callDue = s.callDue := rfl
@[simp] theorem State.deriveAspects_pending (s : State) : (s.deriveAspects).pending = s.pending := rfl

/-! ## lowerCommitments -/

@[simp] theorem State.lowerCommitments_pins (berths : List Berth) (s : State) : (s.lowerCommitments berths).pins = s.pins := rfl
@[simp] theorem State.lowerCommitments_flight (berths : List Berth) (s : State) : (s.lowerCommitments berths).flight = s.flight := rfl
@[simp] theorem State.lowerCommitments_timing (berths : List Berth) (s : State) : (s.lowerCommitments berths).timing = s.timing := rfl
@[simp] theorem State.lowerCommitments_lm (berths : List Berth) (s : State) : (s.lowerCommitments berths).lm = s.lm := rfl
@[simp] theorem State.lowerCommitments_pcu (berths : List Berth) (s : State) : (s.lowerCommitments berths).pcu = s.pcu := rfl
@[simp] theorem State.lowerCommitments_lamps (berths : List Berth) (s : State) : (s.lowerCommitments berths).lamps = s.lamps := rfl
@[simp] theorem State.lowerCommitments_reg (berths : List Berth) (s : State) : (s.lowerCommitments berths).reg = s.reg := rfl
@[simp] theorem State.lowerCommitments_arb (berths : List Berth) (s : State) : (s.lowerCommitments berths).arb = s.arb := rfl
@[simp] theorem State.lowerCommitments_table (berths : List Berth) (s : State) : (s.lowerCommitments berths).table = s.table := rfl
@[simp] theorem State.lowerCommitments_toll (berths : List Berth) (s : State) : (s.lowerCommitments berths).toll = s.toll := rfl
@[simp] theorem State.lowerCommitments_auth (berths : List Berth) (s : State) : (s.lowerCommitments berths).auth = s.auth := rfl
@[simp] theorem State.lowerCommitments_ports (berths : List Berth) (s : State) : (s.lowerCommitments berths).ports = s.ports := rfl
@[simp] theorem State.lowerCommitments_agenda (berths : List Berth) (s : State) : (s.lowerCommitments berths).agenda = s.agenda := rfl
@[simp] theorem State.lowerCommitments_callDue (berths : List Berth) (s : State) : (s.lowerCommitments berths).callDue = s.callDue := rfl
@[simp] theorem State.lowerCommitments_pending (berths : List Berth) (s : State) : (s.lowerCommitments berths).pending = s.pending := rfl

/-! ## raiseAll -/

@[simp] theorem State.raiseAll_pins (l : List Notice) (s : State) : (s.raiseAll l).pins = s.pins := by
  induction l generalizing s with
  | nil => rfl
  | cons n rest ih => exact ih (s.raise n)

@[simp] theorem State.raiseAll_flight (l : List Notice) (s : State) : (s.raiseAll l).flight = s.flight := by
  induction l generalizing s with
  | nil => rfl
  | cons n rest ih => exact ih (s.raise n)

@[simp] theorem State.raiseAll_timing (l : List Notice) (s : State) : (s.raiseAll l).timing = s.timing := by
  induction l generalizing s with
  | nil => rfl
  | cons n rest ih => exact ih (s.raise n)

@[simp] theorem State.raiseAll_lm (l : List Notice) (s : State) : (s.raiseAll l).lm = s.lm := by
  induction l generalizing s with
  | nil => rfl
  | cons n rest ih => exact ih (s.raise n)

@[simp] theorem State.raiseAll_pcu (l : List Notice) (s : State) : (s.raiseAll l).pcu = s.pcu := by
  induction l generalizing s with
  | nil => rfl
  | cons n rest ih => exact ih (s.raise n)

@[simp] theorem State.raiseAll_lamps (l : List Notice) (s : State) : (s.raiseAll l).lamps = s.lamps := by
  induction l generalizing s with
  | nil => rfl
  | cons n rest ih => exact ih (s.raise n)

@[simp] theorem State.raiseAll_reg (l : List Notice) (s : State) : (s.raiseAll l).reg = s.reg := by
  induction l generalizing s with
  | nil => rfl
  | cons n rest ih => exact ih (s.raise n)

@[simp] theorem State.raiseAll_arb (l : List Notice) (s : State) : (s.raiseAll l).arb = s.arb := by
  induction l generalizing s with
  | nil => rfl
  | cons n rest ih => exact ih (s.raise n)

@[simp] theorem State.raiseAll_table (l : List Notice) (s : State) : (s.raiseAll l).table = s.table := by
  induction l generalizing s with
  | nil => rfl
  | cons n rest ih => exact ih (s.raise n)

@[simp] theorem State.raiseAll_toll (l : List Notice) (s : State) : (s.raiseAll l).toll = s.toll := by
  induction l generalizing s with
  | nil => rfl
  | cons n rest ih => exact ih (s.raise n)

@[simp] theorem State.raiseAll_acc (l : List Notice) (s : State) : (s.raiseAll l).acc = s.acc := by
  induction l generalizing s with
  | nil => rfl
  | cons n rest ih => exact ih (s.raise n)

@[simp] theorem State.raiseAll_auth (l : List Notice) (s : State) : (s.raiseAll l).auth = s.auth := by
  induction l generalizing s with
  | nil => rfl
  | cons n rest ih => exact ih (s.raise n)

@[simp] theorem State.raiseAll_agenda (l : List Notice) (s : State) : (s.raiseAll l).agenda = s.agenda := by
  induction l generalizing s with
  | nil => rfl
  | cons n rest ih => exact ih (s.raise n)

@[simp] theorem State.raiseAll_callDue (l : List Notice) (s : State) : (s.raiseAll l).callDue = s.callDue := by
  induction l generalizing s with
  | nil => rfl
  | cons n rest ih => exact ih (s.raise n)

@[simp] theorem State.raiseAll_pending (l : List Notice) (s : State) : (s.raiseAll l).pending = s.pending := by
  induction l generalizing s with
  | nil => rfl
  | cons n rest ih => exact ih (s.raise n)

/-! ## What an update writes -/

@[simp] theorem State.setPassage_pcu (k : Nat) (f : Passage → Passage) (s : State) :
    (s.setPassage k f).pcu = { s.pcu with passages := s.pcu.passages.set k (f (s.passage k)) } := rfl
@[simp] theorem State.push_agenda (t : Task) (s : State) : (s.push t).agenda = s.agenda ++ [t] := rfl
@[simp] theorem State.pushAll_agenda (l : List Task) (s : State) : (s.pushAll l).agenda = s.agenda ++ l := rfl
@[simp] theorem State.calling_callDue (s : State) : s.calling.callDue = true := rfl
@[simp] theorem State.raise_ports (n : Notice) (s : State) : (s.raise n).ports = s.ports.map (Port.offer n) := rfl
@[simp] theorem State.pump_ports (s : State) : s.pump.ports = s.ports.map Port.pump := rfl
@[simp] theorem State.when_true (f : State → State) (s : State) : s.when true f = f s := rfl
@[simp] theorem State.when_false (f : State → State) (s : State) : s.when false f = s := rfl

/-! ## The position that a feedback code leaves (R25; log 16) -/

theorem feedbackPosition_le (code : Nat) : feedbackPosition code ≤ 8 := by
  unfold feedbackPosition
  split
  · assumption
  · omega
theorem feedbackPosition_of_le {code : Nat} (h : code ≤ 8) : feedbackPosition code = code := if_pos h

/-! ## Tables of fixed size -/

@[simp] theorem Ports.get_set_same (p : Ports) (st : Station) (x : Port) : (p.set st x).get st = x := by
  cases st <;> rfl
theorem Ports.get_set_other (p : Ports) {a b : Station} (x : Port) (h : a ≠ b) : (p.set a x).get b = p.get b := by
  cases a <;> cases b <;> simp_all [Ports.get, Ports.set]
@[simp] theorem Ports.get_map (f : Port → Port) (p : Ports) (st : Station) : (p.map f).get st = f (p.get st) := by
  cases st <;> rfl

/-- A place that the table has reads as what was written. -/
theorem Quad.get_set_same {α : Type} (q : Quad α) {k : Nat} (x : α) (h : k < 4) : (q.set k x).get k = x := by
  match k, h with
  | 0, _ => rfl
  | 1, _ => rfl
  | 2, _ => rfl
  | 3, _ => rfl

/-- Another place of the table reads as before. -/
theorem Quad.get_set_other {α : Type} (q : Quad α) {j k : Nat} (x : α) (hj : j < 4) (h : j ≠ k) :
    (q.set k x).get j = q.get j := by
  match j, k, hj with
  | 0, 0, _ | 1, 1, _ | 2, 2, _ | 3, 3, _ => exact absurd rfl h
  | 0, 1, _ | 0, 2, _ | 0, 3, _ | 1, 0, _ | 1, 2, _ | 1, 3, _ => rfl
  | 2, 0, _ | 2, 1, _ | 2, 3, _ | 3, 0, _ | 3, 1, _ | 3, 2, _ => rfl
  | 0, _ + 4, _ | 1, _ + 4, _ | 2, _ + 4, _ | 3, _ + 4, _ => rfl

@[simp] theorem Quad.get_map {α β : Type} (f : α → β) (q : Quad α) (k : Nat) : (q.map f).get k = f (q.get k) := by
  match k with
  | 0 => rfl
  | 1 => rfl
  | 2 => rfl
  | _ + 3 => rfl

@[simp] theorem Quad.get_all {α : Type} (x : α) (k : Nat) : (Quad.all x).get k = x := by
  match k with
  | 0 => rfl
  | 1 => rfl
  | 2 => rfl
  | _ + 3 => rfl

end Sys2Proof.Machine
end

