-- ==== Sys2Proof/Laws/Outer.lean ====
section
/-! SUPPORT. The work that follows in an event leaves the outer parts of the state alone: one lemma for each operation that such work is made of. -/

namespace Sys2Proof.Machine

/-! ## Notices -/

theorem Port.place_outer (n : Notice) (p : Port) : (p.place n).outer = p.outer := by
  unfold Port.place
  split
  · simp [Port.outer]
    omega
  · rfl

theorem Port.outer_subs (p : Port) (x : Subs) : Port.outer { p with subs := x } = p.outer := rfl

theorem Port.offer_outer (n : Notice) (p : Port) : (p.offer n).outer = p.outer := by
  unfold Port.offer
  split
  · rfl
  · exact p.place_outer n
  · split
    · exact (Port.outer_subs _ _).trans (p.place_outer n)
    · exact p.place_outer n

@[simp] theorem State.raise_outer (n : Notice) (s : State) : (s.raise n).outer = s.outer := by
  simp [State.outer, State.raise, Ports.map, Port.offer_outer]

@[simp] theorem State.raiseAll_outer (l : List Notice) (s : State) : (s.raiseAll l).outer = s.outer := by
  induction l generalizing s with
  | nil => rfl
  | cons n rest ih => exact (ih (s.raise n)).trans (s.raise_outer n)

/-! ## Updates -/

@[simp] theorem State.setPassage_outer (k : Nat) (f : Passage → Passage) (s : State) :
    (s.setPassage k f).outer = s.outer := rfl
@[simp] theorem State.setGate_outer (k : Nat) (f : Gate → Gate) (s : State) : (s.setGate k f).outer = s.outer := rfl
@[simp] theorem State.setSluice_outer (k : Nat) (f : Sluice → Sluice) (s : State) :
    (s.setSluice k f).outer = s.outer := rfl
@[simp] theorem State.setOp_outer (k : Nat) (f : Op → Op) (s : State) : (s.setOp k f).outer = s.outer := rfl
@[simp] theorem State.setPermit_outer (k : Nat) (on : Bool) (s : State) : (s.setPermit k on).outer = s.outer := rfl
@[simp] theorem State.setClaims_outer (l : List Nat) (o : Option Nat) (s : State) :
    (s.setClaims l o).outer = s.outer := rfl
@[simp] theorem State.setTransit_outer (id : Nat) (f : Transit → Transit) (s : State) :
    (s.setTransit id f).outer = s.outer := rfl
@[simp] theorem State.setMove_outer (id : Nat) (f : Move → Move) (s : State) : (s.setMove id f).outer = s.outer := rfl
@[simp] theorem State.freeTransit_outer (id : Nat) (s : State) : (s.freeTransit id).outer = s.outer := rfl
@[simp] theorem State.setVessel_outer (m : Mark) (f : Vessel → Vessel) (s : State) :
    (s.setVessel m f).outer = s.outer := rfl
@[simp] theorem State.setQueue_outer (d : Direction) (f : List Mark → List Mark) (s : State) :
    (s.setQueue d f).outer = s.outer := by cases d <;> rfl
@[simp] theorem State.push_outer (t : Task) (s : State) : (s.push t).outer = s.outer := rfl
@[simp] theorem State.pushAll_outer (l : List Task) (s : State) : (s.pushAll l).outer = s.outer := rfl
@[simp] theorem State.calling_outer (s : State) : s.calling.outer = s.outer := rfl
@[simp] theorem State.block_outer (r : BlockReason) (s : State) : (s.block r).outer = s.outer := rfl
@[simp] theorem State.deriveAspects_outer (s : State) : s.deriveAspects.outer = s.outer := rfl
@[simp] theorem State.outer_agenda (s : State) (x : List Task) : State.outer { s with agenda := x } = s.outer := rfl
@[simp] theorem State.outer_callDue (s : State) (x : Bool) : State.outer { s with callDue := x } = s.outer := rfl
@[simp] theorem State.outer_pcu (s : State) (x : Pcu) : State.outer { s with pcu := x } = s.outer := rfl
@[simp] theorem State.outer_arb (s : State) (x : Arbiter) : State.outer { s with arb := x } = s.outer := rfl
@[simp] theorem State.outer_table (s : State) (x : List Transit) : State.outer { s with table := x } = s.outer := rfl
@[simp] theorem State.outer_lamps (s : State) (x : Quad HeadPair) : State.outer { s with lamps := x } = s.outer := rfl

@[simp] theorem State.when_outer (c : Bool) (f : State → State) (s : State) :
    (s.when c f).outer = if c then (f s).outer else s.outer := by cases c <;> rfl

theorem State.each_outer {α : Type} (l : List α) (f : α → State → State) (h : ∀ x s, (f x s).outer = s.outer)
    (s : State) : (s.each l f).outer = s.outer := by
  induction l generalizing s with
  | nil => rfl
  | cons x rest ih => exact (ih (f x s)).trans (h x s)

/-! ## Passages (Machine/Passage.lean) -/

@[simp] theorem State.gateReached_outer (k : Nat) (g : GateState) (s : State) :
    (s.gateReached k g).outer = s.outer := by simp [State.gateReached]
@[simp] theorem State.endTravel_outer (k : Nat) (s : State) : (s.endTravel k).outer = s.outer := by
  simp [State.endTravel]
@[simp] theorem State.travel_outer (k : Nat) (g : GateState) (d : GateDrive) (s : State) :
    (s.travel k g d).outer = s.outer := by simp [State.travel]
@[simp] theorem State.commandOpen_outer (m : Bool) (k : Nat) (s : State) : (s.commandOpen m k).outer = s.outer := by
  unfold State.commandOpen
  repeat' split
  all_goals simp
@[simp] theorem State.commandClose_outer (m : Bool) (k : Nat) (s : State) : (s.commandClose m k).outer = s.outer := by
  unfold State.commandClose
  repeat' split
  all_goals simp
@[simp] theorem State.stopGate_outer (k : Nat) (s : State) : (s.stopGate k).outer = s.outer := by
  unfold State.stopGate
  split <;> simp
@[simp] theorem State.retryOpen_outer (k : Nat) (s : State) : (s.retryOpen k).outer = s.outer := by
  unfold State.retryOpen
  split <;> simp
@[simp] theorem State.orderOpen_outer (id k : Nat) (s : State) : (s.orderOpen id k).outer = s.outer := by
  unfold State.orderOpen
  repeat' split
  all_goals simp
@[simp] theorem State.captureEnd_outer (k : Nat) (s : State) : (s.captureEnd k).outer = s.outer := rfl
@[simp] theorem State.freeSlot_outer (k : Nat) (s : State) : (s.freeSlot k).outer = s.outer := rfl
@[simp] theorem State.closeOp_outer (k : Nat) (o : Op) (s : State) : (s.closeOp k o).outer = s.outer := by
  simp [State.closeOp]
@[simp] theorem State.endOp_outer (k : Nat) (s : State) : (s.endOp k).outer = s.outer := by
  simp only [State.endOp]
  split <;> simp
@[simp] theorem State.afterMove_outer (k : Nat) (s : State) : (s.afterMove k).outer = s.outer := by
  simp only [State.afterMove]
  repeat' split
  all_goals simp
@[simp] theorem State.finishMove_outer (k : Nat) (s : State) : (s.finishMove k).outer = s.outer := by
  simp [State.finishMove]
@[simp] theorem State.lower_outer (k p : Nat) (s : State) : (s.lower k p).outer = s.outer := by
  simp only [State.lower]
  repeat' split
  all_goals simp
@[simp] theorem State.lowerManual_outer (k : Nat) (s : State) : (s.lowerManual k).outer = s.outer := by
  simp only [State.lowerManual]
  split <;> simp
@[simp] theorem State.stepUp_outer (k : Nat) (s : State) : (s.stepUp k).outer = s.outer := by
  simp only [State.stepUp]
  repeat' split
  all_goals simp
@[simp] theorem State.retryStep_outer (k : Nat) (s : State) : (s.retryStep k).outer = s.outer := by
  unfold State.retryStep
  split <;> simp
@[simp] theorem State.enterShutting_outer (k : Nat) (s : State) : (s.enterShutting k).outer = s.outer := by
  simp only [State.enterShutting]
  split <;> simp
@[simp] theorem State.reachEqualised_outer (k : Nat) (s : State) : (s.reachEqualised k).outer = s.outer := by
  simp only [State.reachEqualised]
  split <;> simp
@[simp] theorem State.takeClaims_outer (k : Nat) (s : State) : (s.takeClaims k).outer = s.outer := rfl
@[simp] theorem State.enterSlot_outer (k : Nat) (p : Purpose) (t : Option Nat) (x : Nat) (s : State) :
    (s.enterSlot k p t x).outer = s.outer := rfl
@[simp] theorem State.createOp_outer (k : Nat) (p : Purpose) (t : Option Nat) (x : Nat) (s : State) :
    (s.createOp k p t x).outer = s.outer := by
  simp only [State.createOp]
  split <;> simp
@[simp] theorem State.arbitrate_outer (l : List Nat) (fuel : Nat) (s : State) :
    (s.arbitrate l fuel).outer = s.outer := by
  induction fuel generalizing s with
  | zero => rfl
  | succ n ih =>
    simp only [State.arbitrate]
    split
    · rfl
    · simp [ih]
@[simp] theorem State.startOp_outer (k : Nat) (o : Op) (s : State) : (s.startOp k o).outer = s.outer := by
  simp only [State.startOp]
  repeat' split
  all_goals simp
@[simp] theorem State.keepWaiting_outer (k : Nat) (o : Op) (s : State) : (s.keepWaiting k o).outer = s.outer := by
  simp [State.keepWaiting]
@[simp] theorem State.examine_outer (k : Nat) (s : State) : (s.examine k).outer = s.outer := by
  unfold State.examine
  repeat' split
  all_goals simp
@[simp] theorem State.takeEqual_outer (k : Nat) (s : State) : (s.takeEqual k).outer = s.outer := by
  simp only [State.takeEqual]
  split <;> simp
@[simp] theorem State.sensorStall_outer (k : Nat) (s : State) : (s.sensorStall k).outer = s.outer := by
  simp only [State.sensorStall]
  repeat' split
  all_goals simp
@[simp] theorem State.returnToWaiting_outer (k : Nat) (s : State) : (s.returnToWaiting k).outer = s.outer := rfl
@[simp] theorem State.abortOp_outer (id k : Nat) (s : State) : (s.abortOp id k).outer = s.outer := by
  simp only [State.abortOp]
  repeat' split
  all_goals simp
@[simp] theorem State.takeOver_outer (k x : Nat) (o : Op) (s : State) : (s.takeOver k x o).outer = s.outer := rfl
@[simp] theorem State.holdPassage_outer (k : Nat) (s : State) : (s.holdPassage k).outer = s.outer := by
  simp only [State.holdPassage]
  repeat' split
  all_goals simp
@[simp] theorem State.pcuHold_outer (s : State) : s.pcuHold.outer = s.outer :=
  State.each_outer _ _ (fun k s => s.holdPassage_outer k) s
@[simp] theorem State.resumePassage_outer (k : Nat) (s : State) : (s.resumePassage k).outer = s.outer := by
  unfold State.resumePassage
  repeat' split
  all_goals simp
@[simp] theorem State.pcuResume_outer (s : State) : s.pcuResume.outer = s.outer :=
  State.each_outer _ _ (fun k s => s.resumePassage_outer k) s
@[simp] theorem State.neighbourChanged_outer (j : Nat) (s : State) : (s.neighbourChanged j).outer = s.outer := by
  simp [State.neighbourChanged]
@[simp] theorem State.takePassageChanged_outer (k : Nat) (s : State) : (s.takePassageChanged k).outer = s.outer :=
  State.each_outer _ _ (fun j s => s.neighbourChanged_outer j) s

/-! ## Transits (Machine/Sequencer.lean) -/

@[simp] theorem State.enterEqualise_outer (id : Nat) (m : Move) (s : State) :
    (s.enterEqualise id m).outer = s.outer := by simp [State.enterEqualise]
@[simp] theorem State.requestCascade_outer (id : Nat) (d : Direction) (l : List Nat) (s : State) :
    (s.requestCascade id d l).outer = s.outer := by
  unfold State.requestCascade
  split <;> simp
@[simp] theorem State.formCascade_outer (id : Nat) (d : Direction) (m : Move) (s : State) :
    (s.formCascade id d m).outer = s.outer := by
  unfold State.formCascade
  split <;> simp
@[simp] theorem State.leaveQueue_outer (id : Nat) (c : EmptyCause) (s : State) :
    (s.leaveQueue id c).outer = s.outer := by simp [State.leaveQueue]
@[simp] theorem State.newHead_outer (b : Option Nat) (s : State) : (s.newHead b).outer = s.outer := by
  simp [State.newHead]
@[simp] theorem State.startTransit_outer (t : Transit) (s : State) : (s.startTransit t).outer = s.outer := by
  simp [State.startTransit]
@[simp] theorem State.takeExamineHead_outer (s : State) : s.takeExamineHead.outer = s.outer := by
  unfold State.takeExamineHead
  repeat' split
  all_goals simp
@[simp] theorem State.beginMove_outer (id : Nat) (l : List Nat) (m : Move) (s : State) :
    (s.beginMove id l m).outer = s.outer := by simp [State.beginMove]
@[simp] theorem State.goOn_outer (t : Transit) (c : Nat) (s : State) : (s.goOn t c).outer = s.outer := by
  simp only [State.goOn]
  repeat' split
  all_goals simp
@[simp] theorem State.takeExamineNext_outer (id : Nat) (s : State) : (s.takeExamineNext id).outer = s.outer := by
  unfold State.takeExamineNext
  repeat' split
  all_goals simp
@[simp] theorem State.takeReleased_outer (c : Nat) (s : State) : (s.takeReleased c).outer = s.outer := by
  have h : ∀ (l : List (Nat × Direction × Move)) (x : State),
      (x.each l (fun b y => y.formCascade b.1 b.2.1 b.2.2)).outer = x.outer :=
    fun l x => State.each_outer l (fun (b : Nat × Direction × Move) y => y.formCascade b.1 b.2.1 b.2.2)
      (fun b y => y.formCascade_outer b.1 b.2.1 b.2.2) x
  simp [State.takeReleased, h]
@[simp] theorem State.takeRequestOp_outer (id k : Nat) (p : Purpose) (s : State) :
    (s.takeRequestOp id k p).outer = s.outer := by
  unfold State.takeRequestOp
  repeat' split
  all_goals simp
@[simp] theorem State.takeSlotFree_outer (k : Nat) (s : State) : (s.takeSlotFree k).outer = s.outer := by
  simp [State.takeSlotFree]
@[simp] theorem State.enterOpen_outer (id : Nat) (m : Move) (s : State) : (s.enterOpen id m).outer = s.outer := by
  simp [State.enterOpen]
@[simp] theorem State.cascadeOn_outer (t : Transit) (m : Move) (s : State) : (s.cascadeOn t m).outer = s.outer := by
  unfold State.cascadeOn
  repeat' split
  all_goals simp
@[simp] theorem State.cascadeBack_outer (t : Transit) (m : Move) (k : Nat) (s : State) :
    (s.cascadeBack t m k).outer = s.outer := by
  unfold State.cascadeBack
  split <;> simp
@[simp] theorem State.reportMove_outer (r : Report) (t : Transit) (m : Move) (s : State) :
    (s.reportMove r t m).outer = s.outer := by
  unfold State.reportMove
  repeat' split
  all_goals simp
@[simp] theorem State.takeReport_outer (r : Report) (s : State) : (s.takeReport r).outer = s.outer := by
  unfold State.takeReport
  repeat' split
  all_goals simp
@[simp] theorem State.enterAwait_outer (t : Transit) (m : Move) (s : State) : (s.enterAwait t m).outer = s.outer := by
  simp [State.enterAwait]
@[simp] theorem State.reportClosed_outer (id k : Nat) (s : State) : (s.reportClosed id k).outer = s.outer := by
  unfold State.reportClosed
  split <;> simp
@[simp] theorem State.endMove_outer (t : Transit) (m : Move) (l : List Nat) (s : State) :
    (s.endMove t m l).outer = s.outer := by simp [State.endMove]
@[simp] theorem State.moveClosed_outer (t : Transit) (m : Move) (s : State) : (s.moveClosed t m).outer = s.outer := by
  unfold State.moveClosed
  split <;> simp
@[simp] theorem State.gateClosed_outer (t : Transit) (m : Move) (s : State) : (s.gateClosed t m).outer = s.outer := by
  unfold State.gateClosed
  split <;> simp
@[simp] theorem State.takeGateEnd_outer (k : Nat) (s : State) : (s.takeGateEnd k).outer = s.outer := by
  unfold State.takeGateEnd
  repeat' split
  all_goals simp

/-! ## Calling (Machine/Calling.lean, Machine/Vessels.lean) -/

@[simp] theorem State.takeAccountEvent_outer (n : Nat) (s : State) : (s.takeAccountEvent n).outer = s.outer := by
  simp [State.takeAccountEvent]
@[simp] theorem State.dequeue_outer (d : Direction) (m : Mark) (s : State) : (s.dequeue d m).outer = s.outer := by
  simp [State.dequeue]
@[simp] theorem State.callVessel_outer (id : Nat) (v : Vessel) (e : Nat) (s : State) :
    (s.callVessel id v e).outer = s.outer := by simp [State.callVessel]

/-- What the work that follows in an event leaves alone of the Toll Accounts. -/
def Accounts.fixed (a : Accounts) : List JournalEntry × Nat × Quad QuoteSlot × Account × List Account :=
  (a.journal, a.nextSeq, a.slots, a.counter.warm, a.table.map Account.warm)

theorem Accounts.commit_fixed (n e : Nat) (a : Accounts) : (a.commit n e).fixed = a.fixed := by
  unfold Accounts.commit Accounts.update
  split
  · rfl
  · simp only [Accounts.fixed, List.map_map, Prod.mk.injEq, true_and]
    apply List.map_congr_left
    intro x _
    simp only [Function.comp]
    split <;> rfl

theorem Accounts.commitAll_fixed (l : List (Vessel × Nat)) (a : Accounts) :
    (l.foldl (fun (a : Accounts) (b : Vessel × Nat) => a.commit b.1.account b.2) a).fixed = a.fixed := by
  induction l generalizing a with
  | nil => rfl
  | cons b rest ih => exact (ih _).trans (Accounts.commit_fixed _ _ _)

/-- Two Toll Accounts alike in what is fixed give alike outer parts. -/
theorem State.outer_acc (s : State) (a : Accounts) (h : a.fixed = s.acc.fixed) :
    State.outer { s with acc := a } = s.outer := by
  simp only [Accounts.fixed, Prod.mk.injEq] at h
  simp [State.outer, h]

@[simp] theorem State.createTransit_outer (d : Direction) (o : Origin) (l : List (Vessel × Nat)) (s : State) :
    (s.createTransit d o l).outer = s.outer := by
  have each := State.each_outer l (fun b => State.callVessel (s.nextId 9 s.arb.lastId) b.1 b.2)
    (fun b s => s.callVessel_outer _ b.1 b.2)
    { s with table := s.table ++ [s.newTransit (s.nextId 9 s.arb.lastId) d o l] }
  simp only [State.createTransit, State.newHead_outer, State.raise_outer]
  exact (State.outer_acc _ (Accounts.reserve _ _) (Accounts.commitAll_fixed l _)).trans each

@[simp] theorem State.callFrom_outer (d : Direction) (v : Vessel) (s : State) : (s.callFrom d v).outer = s.outer := by
  have each := State.each_outer (s.compose d v).skipped (fun m => State.setVessel m (skipVessel s.timing.skipLimit))
    (fun m s => s.setVessel_outer m _) s
  simp [State.callFrom, each]

@[simp] theorem State.passes_outer (fuel : Nat) (s : State) : (State.passes fuel s).outer = s.outer := by
  induction fuel generalizing s with
  | zero => rfl
  | succ n ih =>
    unfold State.passes
    repeat' split
    all_goals simp [ih]

@[simp] theorem State.takeCalling_outer (s : State) : s.takeCalling.outer = s.outer := by
  unfold State.takeCalling
  repeat' split
  all_goals simp

@[simp] theorem State.blockNotService_outer (s : State) : s.blockNotService.outer = s.outer := by
  unfold State.blockNotService
  split <;> simp

@[simp] theorem State.reformIdle_outer (s : State) : s.reformIdle.outer = s.outer := by simp [State.reformIdle]

/-- A hand-over leaves the outer parts of the state alone. -/
theorem State.take_outer (t : Task) (s : State) : (s.take t).outer = s.outer := by
  cases t <;> simp [State.take]

end Sys2Proof.Machine
end

