-- ==== Sys2Proof/Laws/Requests.lean ====
section
/-! SUPPORT. What State.takeRequest can do, once: while RESET is held, on a REPLYING port, for a request turned away by its form or its right, and for one that reaches its block (R185, R193 to R196). -/

namespace Sys2Proof.Machine

/-- A good frame changes no right: the holder is as before. -/
@[simp] theorem State.heard_admits (h : Hdr) (s : State) (kind : Nat) (st : Station) :
    (s.heard h).admits kind st = s.admits kind st := rfl

@[simp] theorem State.goodFrame_admits (x : Station) (s : State) (kind : Nat) (st : Station) :
    (s.goodFrame x).admits kind st = s.admits kind st := rfl

/-- A good frame changes neither mode nor holder, so a request turned away is answered the same. -/
@[simp] theorem State.goodFrame_turnAway (x : Station) (s : State) (kind : Nat) (e : Status) :
    (s.goodFrame x).turnAway kind e = s.turnAway kind e := rfl

/-- While RESET is held a request is lost. -/
theorem State.takeRequest_held (h : Hdr) (kind : Nat) (block : State → State × Answer) (s : State)
    (hr : s.pins.reset = true) : s.takeRequest h kind block = s := by simp [State.takeRequest, hr]

/-- A port with no reply in progress and no busy answer is IDLE. -/
theorem Port.state_idle (p : Port) (hr : p.reply = none) (hb : p.busy = none) : p.state = .idle := by
  simp [Port.state, hr, hb]

/-- A request whose length or kind is wrong is answered BAD_REQUEST. -/
theorem State.takeRequest_badForm (h : Hdr) (kind : Nat) (block : State → State × Answer) (s : State)
    (hs : s.reaches h) (hf : (h.lengthOk && within 1 40 kind) = false) :
    s.takeRequest h kind block = State.replied h kind (s.turnAway kind .badRequest) (s.heard h) := by
  obtain ⟨h1, h2, h3⟩ := hs
  simp [State.takeRequest, h1, Port.state_idle _ h2 h3, State.dispatch, hf, State.replied, State.heard, State.reply]

/-- A request that its station may not send is answered NOT_AUTHORISED. -/
theorem State.takeRequest_noRight (h : Hdr) (kind : Nat) (block : State → State × Answer) (s : State)
    (hs : s.reaches h) (hf : (h.lengthOk && within 1 40 kind) = true) (hr : s.admits kind h.port = false) :
    s.takeRequest h kind block = State.replied h kind (s.turnAway kind .notAuthorised) (s.heard h) := by
  obtain ⟨h1, h2, h3⟩ := hs
  simp [State.takeRequest, h1, Port.state_idle _ h2 h3, State.dispatch, hf, hr, State.replied, State.heard, State.reply]

/-- A request that passes its tests is answered by its block. -/
theorem State.takeRequest_taken (h : Hdr) (kind : Nat) (block : State → State × Answer) (s : State)
    (hs : s.takes h kind) (hk : within 1 40 kind = true) :
    s.takeRequest h kind block = State.replied h kind (block (s.heard h)).2 (block (s.heard h)).1 := by
  obtain ⟨⟨h1, h2, h3⟩, h4, h5⟩ := hs
  simp [State.takeRequest, h1, Port.state_idle _ h2 h3, State.dispatch, hk, h4, h5, State.replied, State.heard,
    State.reply]

/-! ## What a good frame leaves alone -/

@[simp] theorem State.heard_pins (h : Hdr) (s : State) : (s.heard h).pins = s.pins := rfl
@[simp] theorem State.heard_flight (h : Hdr) (s : State) : (s.heard h).flight = s.flight := rfl
@[simp] theorem State.heard_timing (h : Hdr) (s : State) : (s.heard h).timing = s.timing := rfl
@[simp] theorem State.heard_lm (h : Hdr) (s : State) : (s.heard h).lm = s.lm := rfl
@[simp] theorem State.heard_pcu (h : Hdr) (s : State) : (s.heard h).pcu = s.pcu := rfl
@[simp] theorem State.heard_lamps (h : Hdr) (s : State) : (s.heard h).lamps = s.lamps := rfl
@[simp] theorem State.heard_reg (h : Hdr) (s : State) : (s.heard h).reg = s.reg := rfl
@[simp] theorem State.heard_arb (h : Hdr) (s : State) : (s.heard h).arb = s.arb := rfl
@[simp] theorem State.heard_table (h : Hdr) (s : State) : (s.heard h).table = s.table := rfl
@[simp] theorem State.heard_toll (h : Hdr) (s : State) : (s.heard h).toll = s.toll := rfl
@[simp] theorem State.heard_acc (h : Hdr) (s : State) : (s.heard h).acc = s.acc := rfl
@[simp] theorem State.heard_auth (h : Hdr) (s : State) : (s.heard h).auth = s.auth := rfl
@[simp] theorem State.heard_agenda (h : Hdr) (s : State) : (s.heard h).agenda = s.agenda := rfl
@[simp] theorem State.heard_callDue (h : Hdr) (s : State) : (s.heard h).callDue = s.callDue := rfl
@[simp] theorem State.heard_pending (h : Hdr) (s : State) : (s.heard h).pending = s.pending := rfl

/-! ## What a reply leaves alone: all but the ports -/

theorem State.replied_eq (h : Hdr) (kind : Nat) (a : Answer) (s : State) :
    State.replied h kind a s = { s with ports := (State.replied h kind a s).ports } := rfl

end Sys2Proof.Machine
end

