-- ==== Sys2Proof/Tests/Slice0.lean ====
section
/-! SUPPORT. The model's own tests: ill-formed commands that WellFormed refuses, the worked examples of the manual, and for every obligation with hypotheses a state and operands that meet them. -/

-- Each kernel evaluation below waits for the ones before it; elaborated side by side, each would hold a thread.
set_option Elab.async false

namespace Sys2Proof.Tests

open Sys2Proof Sys2Proof.Machine

/-! ## WellFormed refuses what cannot arrive -/

theorem test_wf_refuses_tag_zero : (Instr.status { port := .console, tag := 0, lengthOk := true }).wf = false := by decide
theorem test_wf_refuses_tag_256 : (Instr.claim { port := .region, tag := 256, lengthOk := true }).wf = false := by decide
theorem test_wf_refuses_passage_4 : (Instr.gateTravelTimeout 4).wf = false := by decide
theorem test_wf_refuses_address_0 : (Instr.pollFaultReply 0).wf = false := by decide
theorem test_wf_refuses_address_6 : (Instr.pollFaultReply 6).wf = false := by decide
theorem test_wf_refuses_raw_4096 : (Instr.pollValueReply 1 4096).wf = false := by decide
theorem test_wf_refuses_feedback_16 : (Instr.sluiceFeedback 0 16).wf = false := by decide
theorem test_wf_refuses_slot_0 : (Instr.quoteDiscardExpiry 0).wf = false := by decide
theorem test_wf_refuses_slot_5 : (Instr.quoteDiscardExpiry 5).wf = false := by decide
theorem test_wf_refuses_transit_0 : (Instr.overdueTimerExpiry 0).wf = false := by decide
theorem test_wf_refuses_missing_chambers :
    (Instr.setFlight { port := .console, tag := 1, lengthOk := true } { n := 2, chambers := [], clearance := 0 }).wf = false := by
  decide
theorem test_wf_refuses_seven_settings :
    (Instr.subscribe { port := .toll, tag := 1, lengthOk := true } [0, 1, 2, 3, 0, 1, 2]).wf = false := by decide
theorem test_wf_refuses_long_frame : (Instr.busyAnswer .console 1 1 (List.replicate 241 0)).wf = false := by decide +kernel
theorem test_wf_refuses_known_kind : (Instr.badKindRequest .console 1 40).wf = false := by decide
theorem test_wf_admits_kind_41 : (Instr.badKindRequest .console 1 41).wf = true := by decide

/-! ## States for the tests -/

/-- A request of the console with tag 1. -/
def hC : Hdr := { port := .console, tag := 1, lengthOk := true }
/-- A request of the regional centre with tag 42. -/
def hR : Hdr := { port := .region, tag := 42, lengthOk := true }
/-- A request of the toll office with tag 7. -/
def hT : Hdr := { port := .toll, tag := 7, lengthOk := true }

/-- A chamber of the tests. -/
def room : Chamber := { area := 1200, hMax := 9500, hBot := 2305, usable := 1900, width := 95 }

/-- In CONFIG with N = 2 described. -/
def config : State :=
  { State.reset with
    flight := { n := some 2, chambers := ⟨room, room, room⟩, clearance := 20 }
    lm := { State.reset.lm with polledN := some 2 } }

/-- In SERVICE with N = 2. -/
def base : State := { config with auth := { State.reset.auth with mode := .service } }

/-- In SAFE_HOLD with N = 2. -/
def hold : State := { config with auth := { State.reset.auth with mode := .safeHold, holdCause := some .warmReset } }

/-- With every sensor calibrated. -/
def calibrated (s : State) : State :=
  { s with lm := { s.lm with sensors := Quin.all { Sensor.powerOn with calibrated := true } } }

/-- A waiting CARGO vessel of 850 dm on account 0, DOWN, announced by the console. -/
def vesselA : Vessel :=
  { mark := ['A'], account := 0, cls := .cargo, length := 850, beam := 80, deadweight := 1200, dir := .down,
    station := .console, arrival := 0, skips := 0, precedence := false, state := .waiting }

/-- A register with one entry. -/
def registered (v : Vessel) : Register :=
  { entries := [v], up := [], down := if v.state = .waiting then [v.mark] else [], counter := 1 }

/-- The berth of that vessel. -/
def berthA : Berth := { mark := ['A'], length := 870, estimate := 57116 }

/-- A transit with that berth. -/
def transitOf (state : TransitState) (move : Option Move) : Transit :=
  { id := 31, dir := .down, state := state, origin := .call, held := [], move := move, ops := [], berths := [berthA],
    generation := 0, night := false, callTime := none,
    water := { predicted := 3900000, measured := 3888000, anomaly := false, stale := false }, overdue := .stopped }

/-- A move of a kind in a phase at a passage. -/
def moveOf (kind : MoveKind) (passage : Nat) (phase : MovePhase) : Move :=
  { kind := kind, passage := passage, source := passage, destination := passage + 1, phase := phase, confirmed := false,
    cascade := [], blockedAt := none, owed := none }

/-- A state in which that transit holds the vessel. -/
def withTransit (s : State) (t : Transit) : State :=
  { s with
    table := [t]
    arb := { s.arb with queue := if t.state = .queued then [31] else [], lastId := 31 }
    reg := registered { vesselA with state := .called 31 57116 }
    acc := { s.acc with reserved := 1 } }

/-- Account 5 with a balance of 100 and a limit of 50. -/
def account5 : Account := { number := 5, opening := 100, balance := 100, limit := 50, hold := false, commitment := 0 }

/-- A state with that account. -/
def banked : State := { base with acc := { base.acc with table := [account5] } }

/-- An operation in a phase. -/
def opOf (purpose : Purpose) (transit : Option Nat) (phase : OpPhase) : Op :=
  { purpose := purpose, transit := transit, phase := phase, stall := none, claimsHeld := false, order := 0, target := 6,
    timer := some 5000, highWater := false, hStar := none, started := true, startReading := none, endReading := none,
    predicted := none, aborted := false }

/-- A state with an operation on a passage. -/
def withOp (s : State) (k : Nat) (o : Op) : State := s.setPassage k (fun p => { p with slot := some o })

/-- A state with a gate in a state at a position. -/
def withGate (s : State) (k : Nat) (state : GateState) (position : GatePosition) : State :=
  s.setGate k (fun g => { g with state := state, position := position, timer := if state.travelling then some 5000 else none })

/-- A state with a sluice in a state at a position. -/
def withSluice (s : State) (k : Nat) (state : SluiceState) (position : Nat) (commanded : Option Nat) : State :=
  s.setSluice k (fun x => { x with state := state, position := position, commanded := commanded, moveTimer := some 5000 })

/-- A state in which the timers of a passage that run have run out. -/
def lapsed (k : Nat) (s : State) : State :=
  let out (t : Timer) : Timer := t.map (fun _ => 0)
  s.setPassage k (fun p => { p with
    gate := { p.gate with timer := out p.gate.timer }
    sluice := { p.sluice with moveTimer := out p.sluice.moveTimer, rampTimer := out p.sluice.rampTimer }
    slot := p.slot.map (fun o => { o with timer := out o.timer }) })

/-- A state whose scan tick timer has run out. -/
def ticking (s : State) : State := { s with lm := { s.lm with scanTimer := some 0 } }

/-- A state that polls a pound. -/
def polling (s : State) (p : Nat) : State := { s with lm := { s.lm with poll := some { pound := p, left := 20 } } }

/-- A state whose poll of a pound has met its timeout. -/
def pollLapsed (s : State) (p : Nat) : State := { s with lm := { s.lm with poll := some { pound := p, left := 0 } } }

/-- A state whose REGION port has bytes assembled and a gap timer as given. -/
def assembling (l : List Byte) (gap : Timer) : State :=
  base.setPort .region (fun p => { p with assembled := l, gap := gap })

/-- A state with the sensor of a pound as given. -/
def withSensor (s : State) (p : Nat) (f : Sensor → Sensor) : State :=
  { s with lm := { s.lm with sensors := s.lm.sensors.set p (f (s.lm.sensors.get p)) } }

/-- A state with the mean of a pound's record, not STALE. -/
def withMean (s : State) (p mean : Nat) : State :=
  withSensor s p (fun x => { x with level := { x.level with mean := mean, stale := false } })

/-- The next state of a command, or the state itself where there is none. -/
def after (c : Instr) (s : State) : State :=
  match exec c s with
  | .next t => t
  | .fault _ => s
  | .refused _ => s

/-- The reply on a port's line. -/
def lineOf (st : Station) (s : State) : Option OutFrame := (s.ports.get st).line

/-! ## Worked examples of the manual -/

/-- R4, the table of conversions: an ordinary reply, and one whose raw code is over-range. -/
theorem test_poll_value_converts :
    let s := withSensor (polling base 0) 0 (fun x => { x with zero := 1000, span := 12000 })
    ((after (.pollValueReply 1 2730) s).lm.sensors.get 0).accum.sum = 8998
      ∧ ((after (.pollValueReply 1 2730) s).lm.poll) = some { pound := 1, left := 20 } := by decide +kernel
theorem test_poll_value_over_range :
    let t := after (.pollValueReply 1 4095) (withSensor (polling base 0) 0 (fun x => { x with span := 8000 }))
    (t.lm.sensors.get 0).accum.sum = 7998 ∧ (t.lm.sensors.get 0).accum.clamped = true := by decide +kernel
/-- R9, the example window of chamber 1: 8362, 8381, 8390 and 8395 mm at W = 4, here reached by its last sample (raw code 1719 at span 20000 reads 8394; the zero lifts it to 8395). -/
theorem test_window_closes :
    let s := withSensor { polling base 1 with lm := { (polling base 1).lm with w := 4 } } 1 (fun x =>
      { x with zero := 1, accum := { count := 3, sum := 8362 + 8381 + 8390, least := some 8362, greatest := some 8390, clamped := false } })
    let r := ((after (.pollValueReply 2 1719) s).lm.sensors.get 1).level
    (r.mean, r.min, r.max, r.ripple) = (8382, 8362, 8395, 33) := by decide +kernel
/-- R5: the third bad poll in a row fails the sensor. -/
theorem test_third_bad_poll_fails :
    let s := withSensor (pollLapsed base 1) 1 (fun x => { x with badRun := 2 })
    ((after .pollTimeout s).lm.sensors.get 1).status = .failed
      ∧ ((after (.pollFaultReply 2) s).lm.sensors.get 1).status = .failed
      ∧ (after (.pollFaultReply 1) s).lm = s.lm := by decide +kernel
/-- R10: a window that closes with equal still pounds counts one more, up to 15. -/
theorem test_still_counter :
    let s := withSensor (withMean (withMean (withMean (polling base 1) 0 0) 1 0) 2 0) 1 (fun x =>
      { x with accum := { count := 7, sum := 0, least := some 0, greatest := some 0, clamped := false } })
    let t := after (.pollValueReply 2 0) { s with lm := { s.lm with still := ⟨15, 0, 0, 0⟩ } }
    (t.lm.still.get 0, t.lm.still.get 1) = (15, 1) := by decide +kernel
/-- R2: a tick within a round is held. -/
theorem test_tick_held : (after .scanTick (ticking (polling base 2))).lm.tickHeld = true := by decide +kernel
/-- R12, R13: passage 1 between chambers of 1200 and 900 m2 at 6000 and 3000 mm. -/
theorem test_prediction_of_two_chambers :
    let s := withMean (withMean { base with flight := { base.flight with
      chambers := ⟨room, { room with area := 900, hMax := 9000 }, room⟩ } } 1 6000) 2 3000
    s.predictedLevel 1 = 4714 ∧ s.receiver 1 = some 2 ∧ s.overflowPasses (s.receiver 1) 4714 = true := by decide +kernel

/-- R20, R22: the gate ends its travel at its limit, with the travel time captured; a limit lost while CLOSED is a fault. -/
theorem test_gate_reaches_open :
    let g := ((after (.gateLimitChange 1 true false) (withGate base 1 .opening .between)).passage 1).gate
    g.state = .opened ∧ g.drive = .off ∧ g.timer = none ∧ g.lastTravel = 115 := by decide +kernel
theorem test_gate_loses_limit :
    let t := after (.gateLimitChange 1 false false) base
    (t.passage 1).gate.cause = some .limitLost ∧ t.auth.holdCause = some (.gateFault 1) := by decide +kernel
theorem test_gate_times_out :
    let t := after (.gateTravelTimeout 2) (lapsed 2 (withGate base 2 .closing .between))
    (t.passage 2).gate.cause = some .travelTimeout ∧ t.auth.mode = .safeHold := by decide +kernel
/-- R21: a reversal taken ahead of the expiry restarts the travel timer, and the expiry does not occur. -/
theorem test_reversal_before_timeout :
    let t := after (.gateTravelTimeout 0) (after (.manualGate hC 0 (some .closeGate)) (lapsed 0 (withGate base 0 .opening .between)))
    (t.passage 0).gate.state = .closing ∧ (t.passage 0).gate.timer = some 120000 := by decide +kernel
/-- R25, R27: the commanded feedback ends a move; another change at rest is an uncommanded move. -/
theorem test_sluice_move_ends :
    ((after (.sluiceFeedback 0 3) (withSluice base 0 .moving 2 (some 3))).passage 0).sluice.state = .set := by decide +kernel
theorem test_sluice_uncommanded :
    ((after (.sluiceFeedback 0 1) base).passage 0).sluice.cause = some .uncommanded := by decide +kernel
/-- R27 with R25: a code that names no position is no commanded feedback, and a change at rest is an uncommanded move. -/
theorem test_sluice_stray_code :
    ((after (.sluiceFeedback 0 9) base).passage 0).sluice.cause = some .uncommanded
      ∧ ((after (.sluiceFeedback 0 15) (withSluice base 0 .moving 2 (some 3))).passage 0).sluice.state = .moving := by decide +kernel
theorem test_sluice_move_times_out :
    ((after (.sluiceMoveTimeout 0) (lapsed 0 (withSluice base 0 .moving 2 (some 3)))).passage 0).sluice.cause = some .moveTimeout := by
  decide +kernel
/-- R26: the ramp timer commands the next eighth. -/
theorem test_ramp_steps :
    let s := withOp (withSluice base 0 .set 2 none) 0 (opOf .manual none .ramping)
    let t := after (.rampTimerExpiry 0) (s.setSluice 0 (fun x => { x with rampTimer := some 0 }))
    (t.passage 0).sluice.commanded = some 3 := by decide +kernel
/-- R34: the equalise limit stalls the operation. -/
theorem test_equalise_stalls :
    let t := after (.equaliseTimeout 0) (lapsed 0 (withOp base 0 (opOf .manual none .flowing)))
    (t.passage 0).slot.map Op.stall = some (some .timeout) := by decide +kernel

/-- R56, R57: a red lamp that goes dark starts the agreement timer; its expiry faults the head. -/
theorem test_lamp_disagrees : ((after (.lampIndicationChange 0 .above false false) base).head 0 .above).timer = some 2000 := by
  decide +kernel
theorem test_lamp_faults :
    let s := base.setHead 0 .above (fun x => { x with red := false, timer := some 0 })
    ((after (.lampAgreementExpiry 0 .above) s).head 0 .above).fault = true := by decide +kernel

/-- R56: an output change taken ahead of the expiry restarts the agreement timer; the new output gets its full 2 s. -/
theorem test_output_before_agreement_expiry :
    let s := base.setHead 0 .above (fun x => { x with output := .red, red := false, timer := some 0 })
    let t := after (.lampAgreementExpiry 0 .above) (after .estopAsserted s)
    (t.head 0 .above).output = .redFlash ∧ (t.head 0 .above).fault = false ∧ (t.head 0 .above).timer = some 2000 := by
  decide +kernel

/-- R35: the third bad poll of a pound stalls the operation that flows beside it, and lowers its sluice. -/
theorem test_sensor_stalls :
    let s := withOp (withSluice (withSensor (pollLapsed base 1) 1 (fun x => { x with badRun := 2 })) 0 .set 3 none) 0
      (opOf .manual none .flowing)
    let t := after .pollTimeout s
    (t.passage 0).slot.map Op.stall = some (some .sensor) ∧ (t.passage 0).sluice.commanded = some 0 := by decide +kernel

/-- R185: RESET drops the drives and the release brings SAFE_HOLD with cause WARM_RESET. -/
theorem test_reset_drops_drives :
    let s := base.setGate 0 (fun g => { g with state := .opening, drive := .opening })
    ((after .resetAsserted s).passage 0).gate.drive = .off := by decide +kernel
theorem test_reset_released_holds :
    (after .resetReleased { base with pins := { base.pins with reset := true } }).auth.holdCause = some .warmReset := by
  decide +kernel
theorem test_power_on_config : (after .powerOn hold).auth.mode = .config ∧ (after .powerOn hold).flight.n = none := by
  decide +kernel
theorem test_estop_holds : (after .estopAsserted base).auth.holdCause = some .estop := by decide +kernel
theorem test_estop_released_keeps_hold :
    (after .estopReleased { hold with auth := { hold.auth with estop := true } }).auth.mode = .safeHold := by decide +kernel

/-- R64, R66: the announced vessel is number 0 at position 1; the same mark again is a DUPLICATE. -/
theorem test_announce :
    let p : Particulars := { length := 850, beam := 80, deadweight := 1200, cls := some .cargo, account := 0 }
    lineOf .console (after (.announce hC ['A'] (some .down) p) base) = some (.reply 1 7 .ok 0 1 (.announced 0 1)) := by
  decide +kernel
theorem test_announce_duplicate :
    let p : Particulars := { length := 850, beam := 80, deadweight := 1200, cls := some .cargo, account := 0 }
    lineOf .console (after (.announce hC ['A'] (some .up) p) { base with reg := registered vesselA }) =
      some (.reply 1 7 .duplicate 0 1 .empty) := by decide +kernel
/-- R68: the mark and the arrival number stay, the length changes. -/
theorem test_amend :
    let p : Particulars := { length := 900, beam := 80, deadweight := 1200, cls := some .cargo, account := 0 }
    ((after (.amend hC ['A'] p) { base with reg := registered vesselA }).reg.entries.map Vessel.length) = [900] := by
  decide +kernel
theorem test_withdraw : (after (.withdraw hC ['A']) { base with reg := registered vesselA }).reg.entries = [] := by
  decide +kernel
/-- R82, R84: auto calling switched ON calls the waiting vessel and starts its transit. -/
theorem test_auto_call :
    let t := after (.autoCall hC (some true)) { base with reg := registered vesselA }
    t.arb.lastId = 1 ∧ t.table.map Transit.state = [.moving] ∧ t.reg.down = [] := by decide +kernel
theorem test_plan_transit :
    let t := after (.planTransit hC (some .down) [['A']]) { base with reg := registered vesselA }
    t.table.map Transit.origin = [.plan] ∧ t.acc.reserved = 1 := by decide +kernel
theorem test_cancel_transit :
    let t := after (.cancelTransit hC 31) (withTransit hold (transitOf .queued none))
    t.table = [] ∧ t.reg.down = [['A']] ∧ t.acc.reserved = 0 := by decide +kernel
theorem test_confirm_in :
    let s := withTransit (withGate base 0 .opened .atOpen) (transitOf .moving (some (moveOf .entry 0 .await)))
    let t := after (.confirm hC 31 (some .entered)) s
    t.table.map (fun x => x.move.map Move.phase) = [some .close] := by decide +kernel
theorem test_abandon : (after (.abandonTransit hC 31) (withTransit hold (transitOf .waitingNext none))).table = [] := by
  decide +kernel
theorem test_retry_level :
    let t := after (.retryLevel hC 0) (withOp base 0 (opOf .manual none .stalled))
    (t.passage 0).slot.map Op.phase = some .waiting := by decide +kernel
/-- R46: OPEN without EQUAL and without a permit is refused; CLOSE of an open gate starts its travel. -/
theorem test_manual_gate_interlock :
    lineOf .console (after (.manualGate hC 0 (some .openGate)) base) =
      some (.reply 1 16 .interlock 0 1 (.passageState .closed .shut none)) := by decide +kernel
theorem test_manual_gate_closes :
    ((after (.manualGate hC 0 (some .closeGate)) (withGate base 0 .opened .atOpen)).passage 0).gate.drive = .closing := by
  decide +kernel
theorem test_manual_sluice :
    ((after (.manualSluice hC 0 3) base).passage 0).slot.map Op.purpose = some .manual := by decide +kernel
theorem test_visual_equal : ((after (.visualEqual hC 0 (some .grant)) base).passage 0).permit = true := by decide +kernel

/-- R176: the sender is recorded, the holder stays. -/
theorem test_emergency_stop :
    let t := after (.emergencyStop hR) base
    t.auth.holdCause = some (.emergencyStop .region) ∧ t.auth.holder = some .console := by decide +kernel
theorem test_resume_service : (after (.resumeService hC) (calibrated hold)).auth.mode = .service := by decide +kernel
/-- R172, R177, R208, R195: WRONG_MODE names nothing, INCOMPLETE the first item missing. -/
theorem test_mode_refusals :
    (lineOf .console (after (.resumeService hC) base), lineOf .console (after (.leaveConfig hC) base),
      lineOf .console (after (.resumeService hC) hold)) =
    (some (.reply 1 20 .wrongMode 0 1 (.authority .service (some .console) none .nothing)),
     some (.reply 1 25 .wrongMode 0 1 (.authority .service (some .console) none .nothing)),
     some (.reply 1 20 .incomplete 0 1
      (.authority .safeHold (some .console) none (.blocked (.incomplete (.calibration 0)))))) := by decide +kernel
theorem test_claim_waits : (after (.claim hR) base).auth.claim = some 30000 := by decide +kernel
theorem test_release : (after (.release hC) { base with auth := { base.auth with claim := some 9 } }).auth.holder = some .region := by
  decide +kernel
theorem test_deny : (after (.deny hC) { base with auth := { base.auth with claim := some 9 } }).auth.claim = none := by
  decide +kernel
theorem test_enter_config : (after (.enterConfig hC) base).auth.mode = .config := by decide +kernel
theorem test_leave_config : (after (.leaveConfig hC) (calibrated config)).auth.mode = .service := by decide +kernel
theorem test_restart_resets :
    (after (.frameSent .console) (after (.restart hC) base)).auth.holdCause = some .warmReset := by decide +kernel
theorem test_silence_passes_authority :
    let ports := { base.ports with
      console := { base.ports.console with silence := some 0 }, region := { base.ports.region with heard := true } }
    (after (.silenceExpiry .console) { base with ports := ports }).auth.holder = some .region := by decide +kernel
/-- R184, pair 2: a request taken ahead of the expiry restarts the timer, and the expiry does not occur. -/
theorem test_request_before_silence :
    let ports := { base.ports with
      console := { base.ports.console with silence := some 0 }, region := { base.ports.region with heard := true } }
    let t := after (.silenceExpiry .console) (after (.readLevels hC) { base with ports := ports })
    t.auth.holder = some .console ∧ t.ports.console.silence = some 10000 := by decide +kernel
theorem test_handover_lapses :
    (after .handoverTimerExpiry { base with auth := { base.auth with claim := some 0 } }).auth =
      base.auth := by decide +kernel

/-- R206: the halfway window length 12 becomes 16, and eq_tol 250 becomes 200. -/
theorem test_set_sensor_clamps :
    let t := after (.setSensor hC { w := 12, eqTol := 250, rippleLim := 60, stillCount := 3, items := Quin.all none }) config
    (t.lm.w, t.lm.eqTol) = (16, 200) := by decide +kernel
/-- R207: a scan interval of 150 ms becomes 200. -/
theorem test_set_timing_rounds :
    (after (.setTiming hC { Timing.powerOn with scan := 150 }) base).timing.scan = 200 := by decide +kernel
theorem test_set_flight_ranges :
    lineOf .console (after (.setFlight hC { n := 1, chambers := [{ room with hBot := 9501 }], clearance := 20 }) config) =
      some (.reply 1 27 .outOfRange 0 1 (.refused (.field .hBot (some 1)))) := by decide +kernel
theorem test_set_clock : (after (.setClock hC 412 81000) base).toll.clock.isSet = true := by decide +kernel
theorem test_clock_wraps :
    let s := { base with toll := { base.toll with clock := { isSet := true, day := 65535, sec := 86399, second := some 0 } } }
    ((after .dayClockSecond s).toll.clock.day, (after .dayClockSecond s).toll.clock.sec) = (0, 0) := by decide +kernel
theorem test_set_tariff : (after (.setTariff hT Tariff.powerOn) base).toll.current.number = 1 := by decide +kernel
/-- R133: the window from 1260 to 360 at seconds 81000, 21599 and 21600. -/
theorem test_night_window :
    let x (sec : Nat) : Toll :=
      { Toll.powerOn with
        current := { number := 4, tariff := { Tariff.powerOn with nightStart := 1260, nightEnd := 360 } }
        clock := { isSet := true, day := 412, sec := sec, second := some 1000 } }
    ((x 81000).nightNow, (x 21599).nightNow, (x 21600).nightNow) = (true, true, false) := by decide +kernel

/-- 07 section 7.7: the shares of 3,888,000 L and of 4,290,000 L; R138: 10 L over three equal berths. -/
theorem test_water_shares :
    waterShares 3888000 [870, 140] = [3349069, 538931] ∧ waterShares 4290000 [870, 140] = [3695347, 594653]
      ∧ waterShares 10 [700, 700, 700] = [4, 3, 3] := by decide +kernel
/-- 07 section 7.7: the charges of A and of B. -/
theorem test_charge_amounts :
    (formParts { base := 4500, lengthRate := 120, tonnageRate := 35, waterRate := 8, nightPct := 25, cap := 500000 }
        850 1200 3349069 true).amount = 57116
      ∧ (formParts { base := 1500, lengthRate := 60, tonnageRate := 0, waterRate := 8, nightPct := 25, cap := 20000 }
        120 0 538931 true).amount = 8165 := by decide +kernel
theorem test_open_account : ((after (.openAccount hT 310 40000 20000) base).acc.table.map Account.balance) = [40000] := by
  decide +kernel
/-- R149: at a limit of 20000 a balance of -20000 is OPEN and -20001 is BLOCKED. -/
theorem test_account_status :
    Account.status { account5 with limit := 20000, balance := -20000 } = .opened
      ∧ Account.status { account5 with limit := 20000, balance := -20001 } = .blocked := by decide +kernel
theorem test_set_credit : ((after (.setCredit hT 5 70) banked).acc.table.map Account.limit) = [70] := by decide +kernel
theorem test_hold_account : ((after (.holdAccount hT 5) banked).acc.table.map Account.status) = [.blocked] := by decide +kernel
theorem test_release_account :
    let s := { base with acc := { base.acc with table := [{ account5 with hold := true }] } }
    ((after (.releaseAccount hT 5) s).acc.table.map Account.status) = [.opened] := by decide +kernel
theorem test_close_account :
    let s := { base with acc := { base.acc with table := [{ account5 with balance := 0 }] } }
    (after (.closeAccount hT 5) s).acc.table = [] := by decide +kernel
theorem test_post_payment :
    let t := after (.postPayment hT 5 1000) banked
    t.acc.table.map Account.balance = [1100] ∧ t.acc.journal.map JournalEntry.kind = [.payment 5 1000] ∧ t.acc.nextSeq = 1 := by
  decide +kernel
theorem test_take_charges_empty :
    lineOf .toll (after (.takeCharges hT 8) base) = some (.reply 7 38 .ok 0 1 (.taken [] 0 0)) := by decide +kernel
theorem test_quote_deferred :
    lineOf .toll (after (.quote hT ['A']) (withTransit base (transitOf .queued none))) =
      some (.reply 7 39 .deferred 0 1 (.deferred 1 31 57116)) := by decide +kernel
/-- R167: a QUOTE of another mark resolves the orphaned slot, and one of its own mark frees it. -/
theorem test_quote_orphan :
    let s := { base with acc := { base.acc with slots := base.acc.slots.set 2 (.pending ['A']) } }
    (after (.quote hT ['B']) s).acc.slots.get 2 = .resolved ['A'] .withdrawn 120000
      ∧ lineOf .toll (after (.quote hT ['A']) s) = some (.reply 7 39 .ok 0 1 (.quoted .withdrawn))
      ∧ (after (.quote hT ['A']) s).acc.slots.get 2 = .free := by decide +kernel
/-- R166: the discard of a slot that a hand-over has just filled afresh does not occur. -/
theorem test_quote_refilled :
    let s := { base with acc := { base.acc with slots := base.acc.slots.set 0 (.resolved ['A'] .noCharge 120000) } }
    (after (.quoteDiscardExpiry 1) s).acc.slots.get 0 = .resolved ['A'] .noCharge 120000 := by decide +kernel
theorem test_quote_discarded :
    let s := { base with acc := { base.acc with slots := base.acc.slots.set 0 (.resolved ['A'] .noCharge 0) } }
    (after (.quoteDiscardExpiry 1) s).acc.slots.get 0 = .free := by decide +kernel
theorem test_overdue_once :
    let t := { transitOf .moving (some (moveOf .exit 2 .await)) with overdue := .running 900 0 }
    ((after (.overdueTimerExpiry 31) (withTransit base t)).table.map Transit.overdue) = [.stopped] := by decide +kernel

/-! ## The links -/

/-- 10 section 10.5: the nine bytes of CONFIRM 31 CLEAR from REGION with tag 42. -/
theorem test_frame_of_confirm :
    frameBytes 2 42 13 [31, 2] = [0xA5, 0x02, 0x2A, 0x0D, 0x02, 0x1F, 0x02, 0x5C, 0x00] := by decide +kernel
/-- R188: at 115,200 baud and ten bits a byte a line sends 11.52 bytes in a millisecond, and a frame starts with none sent. -/
theorem test_bytes_sent :
    let t := (after (.manualGate hC 0 (some .stopGate)) base).countDown
    (after (.manualGate hC 0 (some .stopGate)) base).ports.console.sent = 0 ∧ t.ports.console.sent = 1152 := by decide +kernel
/-- 10 section 10.5: those bytes settle T31, and the reply carries CLOSE with a volume of 3,888,000 L. -/
theorem test_confirm_by_bytes :
    let s := { withTransit (withGate base 2 .opened .atOpen) (transitOf .moving (some (moveOf .exit 2 .await))) with
      auth := { base.auth with holder := some .region } }
    let t := feedBytes .region [0xA5, 0x02, 0x2A, 0x0D, 0x02, 0x1F, 0x02, 0x5C, 0x00] s
    lineOf .region t = some (.reply 42 13 .ok 0 1 (.confirmed .close (some (3888000, 0))))
      ∧ t.table.map Transit.state = [.settled] := by decide +kernel
theorem test_wrong_station_discarded :
    (feedBytes .region [0xA5, 0x01] base).ports.region.assembled = [] := by decide +kernel
/-- R190: the gap that has run out discards; where the byte due is taken first, it is added and the expiry behind it discards nothing. -/
theorem test_gap_discards :
    (after (.gapTimerExpiry .region) (assembling [0xA5, 0x02] (some 0))).ports.region.assembled = []
      ∧ (after (.gapTimerExpiry .region) (feedBytes .region [0x2A] (assembling [0xA5, 0x02] (some 0)))).ports.region.assembled
          = [0xA5, 0x02, 0x2A] := by decide +kernel
/-- R190: the check of 10 section 10.5 with one bit wrong. -/
theorem test_bad_check_discards :
    let t := feedBytes .region [0xA5, 0x02, 0x2A, 0x0D, 0x02, 0x1F, 0x02, 0x5D, 0x00] base
    (t.ports.region.assembled, t.ports.region.reply.isSome) = ([], false) := by decide +kernel
/-- R149, R202: account 310 at −20,001 with credit limit 20,000 is BLOCKED with cause LIMIT; the balance is carried in 8 bytes of two's complement. -/
theorem test_account_blocked_bytes :
    (Notice.accountBlocked 310 (-20001) 20000 .limit).bytes =
      [0x05, 0x36, 0x01, 0xDF, 0xB1, 0xFF, 0xFF, 0xFF, 0xFF, 0xFF, 0xFF, 0x20, 0x4E, 0x00, 0x00, 0x01] := by decide +kernel
/-- R202: a refused plan names a mark in 13 bytes; R189 and 10 section 10.6: a notice with no fields is its class code alone. -/
theorem test_mark_and_empty_notice_bytes :
    (Body.refused (.mark ['A', '7'])).bytes = [0x02, 0x41, 0x37, 0, 0, 0, 0, 0, 0, 0, 0, 0, 0]
      ∧ (OutFrame.notice .estopReleased).bytes .console = [0xA5, 0x01, 0x00, 0x63, 0x01, 0x06, 0x6B, 0x00] := by decide +kernel
theorem test_idle_frame_heard : (after (.idleFrame .region) base).ports.region.heard = true := by decide +kernel
theorem test_stop_bit_not_heard : (after (.frameDiscarded .region .stopBit) base).ports.region.heard = false := by
  decide +kernel
theorem test_busy_answer :
    let s := { base with ports := { base.ports with region := { base.ports.region with busy := some (3, 1) } } }
    lineOf .region (after (.busyAnswer .region 9 13 [31, 2]) s) = some (.busy 3 1) := by decide +kernel
theorem test_bad_kind : lineOf .region (after (.badKindRequest .region 9 41) base) = some (.reply 9 41 .badRequest 0 1 .empty) := by
  decide +kernel
theorem test_subscribe_keeps :
    (after (.subscribe hR [0, 3, 2, 3, 3, 3, 3, 3]) base).ports.region.subs =
      { Subs.command with transit := .off, passage := .once } := by decide +kernel
/-- R194: a request that only the holder may make, from the station that does not hold. -/
theorem test_not_authorised :
    lineOf .region (after (.resumeService hR) hold) = some (.reply 42 20 .notAuthorised 0 1 (.authority .safeHold (some .console) none .nothing)) := by decide +kernel

/-- R202: the transit id of VESSEL_WITHDRAWN behind its presence byte, absent for a WAITING vessel and present for a CALLED one. -/
theorem test_withdrawn_bytes :
    (Notice.vesselWithdrawn ['A', '7'] .gauge none).bytes =
        [0x00, 0x02, 0x41, 0x37, 0, 0, 0, 0, 0, 0, 0, 0, 0, 0, 0x01, 0x00, 0x00, 0x00]
      ∧ (Notice.vesselWithdrawn ['A', '7'] .abandoned (some 31)).bytes =
        [0x00, 0x02, 0x41, 0x37, 0, 0, 0, 0, 0, 0, 0, 0, 0, 0, 0x02, 0x01, 0x01, 0x1F] := by decide +kernel

/-! ## Reads -/

theorem test_status_clears_lost :
    let s := { base with ports := { base.ports with toll := { base.ports.toll with lost := true } } }
    (after (.status hT) s).ports.toll.lost = false := by decide +kernel
theorem test_read_levels_three_pounds : (base.lm.reported.map base.lm.item).length = 4 := by decide +kernel
theorem test_read_passage_range :
    lineOf .toll (after (.readPassage hT 3) base) = some (.reply 7 3 .outOfRange 0 1 .empty) := by decide +kernel
/-- R202: the 37 bytes of a vessel entry. -/
theorem test_read_vessel_layout :
    (VesselReport.bytes { vessel := vesselA, queuePosition := some 1, berthPosition := none, credit := .notApplicable }) =
      [1, 65, 0, 0, 0, 0, 0, 0, 0, 0, 0, 0, 0, 0, 0, 0, 0x52, 0x03, 80, 0xB0, 0x04, 1, 1, 0, 0, 0, 0, 0, 0, 0, 0, 0, 0, 0, 1, 0, 2] := by
  decide +kernel
theorem test_read_transit_unknown :
    lineOf .toll (after (.readTransit hT 31) base) = some (.reply 7 5 .unknown 0 1 .empty) := by decide +kernel
theorem test_read_account_next :
    lineOf .toll (after (.readAccount hT (.nextAbove 0)) banked) = some (.reply 7 6 .ok 0 1 (.account account5.report)) := by
  decide +kernel
/-- R202: a payment entry in the journal takes 56 bytes. -/
theorem test_journal_layout :
    (JournalEntry.bytes { seq := 258, kind := .payment 5 1000, stamp := some (412, 81000) }).take 15 =
      [2, 1, 1, 5, 0, 0xE8, 0x03, 0, 0, 1, 0x9C, 0x01, 0x68, 0x3C, 1]
      ∧ (JournalEntry.bytes { seq := 258, kind := .payment 5 1000, stamp := some (412, 81000) }).length = 56 := by decide +kernel

/-! ## Witnesses: states and operands that meet the hypotheses of the obligations -/

/-- A due timer, and none. -/
theorem witness_IdleStepCompletes :
    (base.pending = [] ∧ State.due { base with lm := { base.lm with scanTimer := some 0 } } = some .scanTick)
    ∧ (base.pending = [] ∧ base.due = none) := by decide +kernel

/-- RESET held and not; a poll and an agreement timer that have run out together, with a frame that is sent and one that is not. -/
theorem witness_IdleStepCompletes_timers :
    let lamp (s : State) : State := s.setHead 1 .below (fun x => { x with timer := some 0 })
    (base.pins.reset = false ∧ Pins.reset { base.pins with reset := true } = true)
    ∧ ((lamp (pollLapsed base 0)).due = some .pollTimeout ∧ (lamp base).due = some (.lampAgreementExpiry 1 .below))
    ∧ (let sent (n : Nat) : State := base.setPort .region (fun q => { q with line := some (.busy 3 1), sent := n })
       (sent 100000).due = some (.frameSent .region) ∧ (sent 0).due = none) := by decide +kernel

/-- A command that answers a next state. -/
theorem witness_CommandQueueKept :
    exec .dayClockSecond base = .next base := rfl

/-- ESTOP released, and asserted; limits that read CLOSED, OPEN and neither, and a feedback of 8 and one above, at the first and the last passage. -/
theorem witness_PowerOnLeaves :
    (hold.pins.estop = false)
    ∧ ((0 < 4) ∧ (3 < 4) ∧ (Pins.quiet.limits.get 3 = { openLimit := false, closedLimit := true }) ∧ Pins.quiet.feedback.get 3 = 0
      ∧ ((⟨8, 0, 0, 9⟩ : Quad Nat).get 0 ≤ 8) ∧ ¬ ((⟨8, 0, 0, 9⟩ : Quad Nat).get 3 ≤ 8)
      ∧ (LimitPins.mk true false ≠ { openLimit := false, closedLimit := true })
      ∧ (LimitPins.mk true true ≠ { openLimit := false, closedLimit := true } ∧ LimitPins.mk true true ≠ { openLimit := true, closedLimit := false }))
    ∧ (Pins.estop { hold.pins with estop := true } = true) := by decide +kernel

/-- A passage in use and one beyond N = 2; a new N that waits for its poll, and none; a RESTART reply on port A. -/
theorem witness_ResetInput :
    (base.lm.reformDue = false ∧ (1 ≤ base.lm.stillCount)
      ∧ LevelMonitor.reformDue { base.lm with reformDue := true } = true) ∧
    ((2 < 4) ∧ base.inUse 2 = true)
    ∧ ((3 < 4) ∧ base.inUse 3 = false)
    ∧ ((after (.restart hC) base).pins.reset = false ∧ restartReply (after (.restart hC) base).ports.console.line = true) := by decide +kernel

/-- Commands other than those named, with RESET held, that answer a next state; the first and the last passage are 0 and 3. -/
theorem witness_HeldResetTakesNothing :
    State.pins { base with pins := { base.pins with reset := true } } = { base.pins with reset := true }
    ∧ (Instr.scanTick ≠ .powerOn ∧ Instr.scanTick ≠ .resetAsserted ∧ Instr.scanTick ≠ .resetReleased
      ∧ Instr.scanTick ≠ .dayClockSecond)
    ∧ exec .scanTick { base with pins := { base.pins with reset := true } } =
        .next { base with pins := { base.pins with reset := true } }
    ∧ (Instr.claim hC ≠ .powerOn ∧ Instr.claim hC ≠ .estopAsserted ∧ Instr.claim hC ≠ .estopReleased
      ∧ (∀ k o x, Instr.claim hC ≠ .gateLimitChange k o x) ∧ (∀ k code, Instr.claim hC ≠ .sluiceFeedback k code)
      ∧ ∀ k side red green, Instr.claim hC ≠ .lampIndicationChange k side red green)
    ∧ exec (.claim hC) { base with pins := { base.pins with reset := true } } =
        .next { base with pins := { base.pins with reset := true } } :=
  ⟨rfl, by decide, rfl, ⟨nofun, nofun, nofun, nofun, nofun, nofun⟩, rfl⟩

/-- ESTOP as last read released, and asserted. -/
theorem witness_EstopInput :
    (base.pins.reset = false ∧ base.auth.estop = false)
    ∧ (Authority.estop { hold.auth with estop := true } = true) := by decide +kernel

/-- SAFE_HOLD that stands and SAFE_HOLD entered; a passage with a free slot, a gate in travel, and an operation that runs on a sluice that is SHUT and one that is SET, at the first and the last passage. -/
theorem witness_EstopInput_entry :
    (hold.auth.mode = .safeHold ∧ base.auth.mode ≠ .safeHold)
    ∧ ((0 < 4) ∧ (base.passage 0).slot = none ∧ ((withGate base 0 .opening .between).passage 0).gate.state = .opening)
    ∧ (let o := opOf .move (some 31) .ramping
       (3 < 4) ∧ ((withOp base 3 o).passage 3).slot = some o ∧ o.phase = .ramping ∧ ((withOp base 3 o).passage 3).sluice.state = .shut
       ∧ ((withSluice (withOp base 3 o) 3 .set 2 none).passage 3).sluice.state ≠ .fault
       ∧ ((withSluice (withOp base 3 o) 3 .set 2 none).passage 3).sluice.state ≠ .shut)
    ∧ ¬ ((opOf .move (some 31) .waiting).phase = .ramping ∨ (opOf .move (some 31) .waiting).phase = .flowing
        ∨ ((opOf .move (some 31) .waiting).phase = .stalled ∧ (opOf .move (some 31) .waiting).stall = some .timeout)) := by
  decide +kernel

/-- An operation of each kind that SAFE_HOLD entry stalls, on a sluice that is SHUT, SET and MOVING, at the last passage of N = 2. -/
theorem witness_heldAs :
    (base.auth.mode ≠ .safeHold ∧ (2 ≤ base.count) ∧ (2 < 4))
    ∧ ((opOf .manual none .ramping).phase = .ramping ∧ (opOf .manual none .flowing).phase = .flowing)
    ∧ (Op.phase { opOf .move (some 31) .stalled with stall := some .timeout } = .stalled
      ∧ Op.stall { opOf .move (some 31) .stalled with stall := some .timeout } = some .timeout)
    ∧ (((withOp base 2 (opOf .manual none .ramping)).passage 2).slot = some (opOf .manual none .ramping)
      ∧ ((withOp base 2 (opOf .manual none .ramping)).passage 2).sluice.state = .shut)
    ∧ (((withSluice base 2 .set 8 none).passage 2).sluice.state = .set ∧ ((withSluice base 2 .set 8 none).passage 2).sluice.position ≠ 0)
    ∧ ((withSluice base 2 .moving 0 (some 1)).passage 2).sluice.state = .moving := by decide +kernel

/-- A gate in travel at passage 3, and a sluice that moves at passage 0, outside SAFE_HOLD, their timers run out. -/
theorem witness_DeviceFaultHolds :
    let g := lapsed 3 (withGate config 3 .opening .between)
    let x := lapsed 0 (withSluice base 0 .moving 0 (some 1))
    (g.pins.reset = false ∧ (3 < 4) ∧ g.auth.mode ≠ .safeHold)
    ∧ ((g.passage 3).gate.timer = some 0 ∧ (g.passage 3).gate.state.travelling = true)
    ∧ (x.pins.reset = false ∧ x.auth.mode ≠ .safeHold ∧ (x.passage 0).sluice.moveTimer = some 0
      ∧ (x.passage 0).sluice.state = .moving) := by decide +kernel

/-- The first numbers outside the part. -/
theorem witness_StopsOutsideThePart :
    ((4 ≤ 4) ∧ (8 ≤ 8))
    ∧ ((0 = 0 ∨ 4 < 0) ∧ (5 = 0 ∨ 4 < 5))
    ∧ (8 < 9) := by decide +kernel

/-- A timer with time left; no round in progress, and one in progress. -/
theorem witness_ScanTickStartsRound :
    (base.lm.scanTimer ≠ some 0)
    ∧ ((ticking base).pins.reset = false ∧ (ticking base).lm.scanTimer = some 0 ∧ (ticking base).lm.poll = none)
    ∧ ((ticking (polling base 3)).pins.reset = false ∧ (ticking (polling base 3)).lm.scanTimer = some 0
      ∧ (ticking (polling base 3)).lm.poll.isSome = true) := by decide +kernel

/-- A GOOD sensor with an open window at the first pound, one whose window closes at the last pound of N = 2 (raw 4095), a FAILED one, and pound 4. -/
theorem witness_GoodPollTaken :
    ((polling base 0).pins.reset = false ∧ (polling base 0).lm.poll = some { pound := 0, left := 20 } ∧ (0 ≤ 4) ∧ (polling base 0).lm.reformDue = false ∧ (0 ≤ 4095) ∧ ((polling base 0).lm.sensors.get 0).status = .good
      ∧ ((polling base 0).lm.sensors.get 0).accum.count + 1 < (polling base 0).lm.w ∧ 0 < (polling base 0).lm.polledN.getD 3 + 1)
    ∧ ((withSensor (polling base 3) 3 (fun x => { x with accum := { x.accum with count := 7 } })).pins.reset = false ∧ (withSensor (polling base 3) 3 (fun x => { x with accum := { x.accum with count := 7 } })).lm.poll = some { pound := 3, left := 20 } ∧ (3 ≤ 4) ∧ (withSensor (polling base 3) 3 (fun x => { x with accum := { x.accum with count := 7 } })).lm.reformDue = false ∧ (4095 ≤ 4095)
      ∧ ((withSensor (polling base 3) 3 (fun x => { x with accum := { x.accum with count := 7 } })).lm.sensors.get 3).status = .good
      ∧ (withSensor (polling base 3) 3 (fun x => { x with accum := { x.accum with count := 7 } })).lm.w ≤ ((withSensor (polling base 3) 3 (fun x => { x with accum := { x.accum with count := 7 } })).lm.sensors.get 3).accum.count + 1
      ∧ (withSensor (polling base 3) 3 (fun x => { x with accum := { x.accum with count := 7 } })).lm.polledN.getD 3 + 1 ≤ 3)
    ∧ ((withSensor (polling base 0) 0 (fun x => { x with status := .failed, goodRun := 7 })).pins.reset = false ∧ (withSensor (polling base 0) 0 (fun x => { x with status := .failed, goodRun := 7 })).lm.poll = some { pound := 0, left := 20 } ∧ (0 ≤ 4) ∧ (withSensor (polling base 0) 0 (fun x => { x with status := .failed, goodRun := 7 })).lm.reformDue = false ∧ (4095 ≤ 4095)
      ∧ ((withSensor (polling base 0) 0 (fun x => { x with status := .failed, goodRun := 7 })).lm.sensors.get 0).status = .failed)
    ∧ ((polling config 4).pins.reset = false ∧ (polling config 4).lm.poll = some { pound := 4, left := 20 } ∧ (4 ≤ 4) ∧ (polling config 4).lm.reformDue = false ∧ (0 ≤ 4095) ∧ (polling config 4).lm.polledN.getD 3 + 1 ≤ 4) := by decide +kernel

/-- A new N that waits for the poll of the first and of the last pound to end, with a tick held and without; no poll in flight, another address than the one polled, and a raw code of 4096. -/
theorem witness_GoodPollTaken_reform :
    let s (p : Nat) (held : Bool) : State :=
      { polling base p with lm := { (polling base p).lm with reformDue := true, tickHeld := held } }
    ((s 0 true).pins.reset = false ∧ (s 0 true).lm.poll = some { pound := 0, left := 20 } ∧ (4095 ≤ 4095)
      ∧ (s 0 true).lm.reformDue = true ∧ (s 0 true).lm.tickHeld = true)
    ∧ ((s 4 false).lm.poll = some { pound := 4, left := 20 } ∧ (0 ≤ 4095) ∧ (s 4 false).lm.tickHeld = false)
    ∧ (base.pins.reset = false ∧ base.lm.poll = none)
    ∧ (∃ q, (polling base 0).lm.poll = some q ∧ 2 ≠ q.pound + 1)
    ∧ (4095 < 4096) :=
  ⟨by decide +kernel, by decide +kernel, by decide +kernel, ⟨_, rfl, by decide⟩, by decide⟩

/-- The passages beside the first, an inner and the last pound, and a still counter that has reached still_count. -/
theorem witness_GoodPollTaken_still :
    ((0 < 4) ∧ (0 + 1 = 1))
    ∧ ((0 = 0) ∧ (0 ≤ base.count) ∧ (2 = 2) ∧ (2 ≤ base.count) ∧ (2 + 1 = 3))
    ∧ (base.count < 3 ∧ (3 < 4))
    ∧ (base.lm.stillCount ≤ (⟨3, 0, 0, 0⟩ : Quad Nat).get 0 ∧ ¬ base.lm.stillCount ≤ base.lm.still.get 0) := by decide +kernel

/-- A FAILED sensor at its eighth good poll and at its first; a window close on which EQUAL becomes true. -/
theorem witness_GoodPollTaken_follows :
    (((withSensor (polling base 0) 0 (fun x => { x with status := .failed, goodRun := 7 })).lm.sensors.get 0).status = .failed
      ∧ min 8 (((withSensor (polling base 0) 0 (fun x => { x with status := .failed, goodRun := 7 })).lm.sensors.get 0).goodRun + 1) = 8)
    ∧ (((withSensor (polling base 0) 0 (fun x => { x with status := .failed })).lm.sensors.get 0).status = .failed
      ∧ min 8 (((withSensor (polling base 0) 0 (fun x => { x with status := .failed })).lm.sensors.get 0).goodRun + 1) ≠ 8)
    ∧ (let s := withSensor (withMean (polling { base with lm := { base.lm with still := ⟨2, 0, 0, 0⟩ } } 0) 1 0) 0
         (fun x => { x with accum := { x.accum with count := 7, least := some 0, greatest := some 0 } })
       s.lm.w ≤ (s.lm.sensors.get 0).accum.count + 1 ∧ s.equal 0 = false
       ∧ (after (.pollValueReply 1 0) s).equal 0 = true) := by decide +kernel

/-- A sensor whose bad run reaches 3 at the last pound, by a fault reply and by a timeout that has run out; one whose run does not; a timeout that meets a poll with time left. -/
theorem witness_BadPollTaken :
    ((withSensor (polling base 3) 3 (fun x => { x with badRun := 2 })).pins.reset = false ∧ (withSensor (polling base 3) 3 (fun x => { x with badRun := 2 })).lm.poll = some { pound := 3, left := 20 } ∧ (3 ≤ 4) ∧ (withSensor (polling base 3) 3 (fun x => { x with badRun := 2 })).lm.reformDue = false
      ∧ (Instr.pollFaultReply 4 = .pollFaultReply (3 + 1) ∨ (Instr.pollFaultReply 4 = .pollTimeout ∧ 20 = 0))
      ∧ ((withSensor (polling base 3) 3 (fun x => { x with badRun := 2 })).lm.sensors.get 3).status = .good ∧ min 3 (((withSensor (polling base 3) 3 (fun x => { x with badRun := 2 })).lm.sensors.get 3).badRun + 1) = 3)
    ∧ ((pollLapsed base 0).pins.reset = false ∧ (pollLapsed base 0).lm.poll = some { pound := 0, left := 0 } ∧ (0 ≤ 4) ∧ (pollLapsed base 0).lm.reformDue = false
      ∧ (Instr.pollTimeout = .pollFaultReply (0 + 1) ∨ (Instr.pollTimeout = .pollTimeout ∧ 0 = 0))
      ∧ ¬ (((pollLapsed base 0).lm.sensors.get 0).status = .good ∧ min 3 (((pollLapsed base 0).lm.sensors.get 0).badRun + 1) = 3))
    ∧ ((polling base 0).pins.reset = false ∧ (polling base 0).lm.poll = some { pound := 0, left := 19 + 1 }) := by
  decide +kernel

/-- A new N that waits for the poll of the first pound to end, by a fault reply and by its timeout; no poll in flight, and another address than the one polled. -/
theorem witness_BadPollTaken_reform :
    let due (s : State) : State := { s with lm := { s.lm with reformDue := true } }
    ((due (polling base 0)).pins.reset = false ∧ (due (polling base 0)).lm.poll = some { pound := 0, left := 20 }
      ∧ (due (polling base 0)).lm.reformDue = true
      ∧ (Instr.pollFaultReply 1 = .pollFaultReply (0 + 1) ∨ (Instr.pollFaultReply 1 = .pollTimeout ∧ 20 = 0)))
    ∧ ((due (pollLapsed base 3)).lm.poll = some { pound := 3, left := 0 }
      ∧ (Instr.pollTimeout = .pollFaultReply (3 + 1) ∨ (Instr.pollTimeout = .pollTimeout ∧ 0 = 0)))
    ∧ (base.pins.reset = false ∧ base.lm.poll = none)
    ∧ (∃ q, (polling base 0).lm.poll = some q ∧ 2 ≠ q.pound + 1) :=
  ⟨by decide +kernel, by decide +kernel, by decide +kernel, ⟨_, rfl, by decide⟩⟩

/-- The sensor that fails at the first pound and at the last of N = 2, with the operation of a passage beside it in each phase, a MANUAL one under a permit, and a free slot. -/
theorem witness_BadPollTaken_stall :
    let s (p : Nat) : State := withSensor (polling base p) p (fun x => { x with badRun := 2 })
    ((s 0).lm.poll = some { pound := 0, left := 20 } ∧ ((s 0).lm.sensors.get 0).status = .good ∧ 2 ≤ ((s 0).lm.sensors.get 0).badRun
      ∧ (s 0).lm.reformDue = false ∧ (s 0).pins.reset = false ∧ (0 ≤ (s 0).count))
    ∧ ((s 3).lm.poll = some { pound := 3, left := 20 } ∧ 2 ≤ ((s 3).lm.sensors.get 3).badRun ∧ ¬ (3 ≤ (s 3).count) ∧ (2 ≤ (s 3).count))
    ∧ ((0 < 4) ∧ (3 < 4) ∧ (base.passage 3).slot = none
      ∧ ((withOp base 3 (opOf .move (some 31) .ramping)).passage 3).slot = some (opOf .move (some 31) .ramping))
    ∧ ((opOf .manual none .flowing).purpose = .manual ∧ (((withOp base 0 (opOf .manual none .flowing)).setPermit 0 true).passage 0).permit = true)
    ∧ (Op.stall { opOf .move (some 31) .stalled with stall := some .timeout } = some .timeout)
    ∧ ((opOf .move (some 31) .waiting).phase = .waiting ∧ (opOf .move (some 31) .equalised).phase ≠ .ramping
      ∧ (opOf .move (some 31) .equalised).phase ≠ .flowing ∧ (opOf .move (some 31) .equalised).phase ≠ .stalled) := by
  decide +kernel

/-- A STALE record and none; a lower pound above, a lower pound below, equal pounds; the first, an inner and the last passage and chamber. -/
theorem witness_ReceivingPound :
    ((base.sensor 0).level.stale = true)
    ∧ (((withMean (withMean base 0 0) 1 1000).sensor 0).level.stale = false ∧ ((withMean (withMean base 0 0) 1 1000).sensor 1).level.stale = false)
    ∧ (((withMean base 1 1000).sensor 0).level.mean < ((withMean base 1 1000).sensor 1).level.mean)
    ∧ (((withMean base 0 1000).sensor 1).level.mean < ((withMean base 0 1000).sensor 0).level.mean)
    ∧ ((base.sensor 0).level.mean = (base.sensor 1).level.mean)
    ∧ ((1 ≤ 1) ∧ (1 ≤ base.count) ∧ (1 ≤ 2) ∧ (2 ≤ base.count))
    ∧ ((1 ≤ 1) ∧ (1 < base.count)) := by decide +kernel

/-- A gate of each state whose limits change, one for each clause. -/
theorem witness_GateEvents_limits :
    ((withGate base 2 .opening .between).pins.reset = false ∧ (2 < 4) ∧ (withGate base 2 .opening .between).inUse 2 = true
      ∧ GatePosition.atOpen = (match true, false with | false, true => GatePosition.atClosed | true, false => .atOpen | _, _ => .between)
      ∧ GatePosition.atOpen ≠ ((withGate base 2 .opening .between).passage 2).gate.position ∧ ((withGate base 2 .opening .between).passage 2).gate.state = .opening)
    ∧ ((withGate base 0 .closing .between).pins.reset = false ∧ (0 < 4) ∧ (withGate base 0 .closing .between).inUse 0 = true
      ∧ GatePosition.atClosed = (match false, true with | false, true => GatePosition.atClosed | true, false => .atOpen | _, _ => .between)
      ∧ GatePosition.atClosed ≠ ((withGate base 0 .closing .between).passage 0).gate.position ∧ ((withGate base 0 .closing .between).passage 0).gate.state = .closing)
    ∧ ((withGate base 0 .opening .atClosed).pins.reset = false ∧ (0 < 4) ∧ (withGate base 0 .opening .atClosed).inUse 0 = true
      ∧ GatePosition.between = (match false, false with | false, true => GatePosition.atClosed | true, false => .atOpen | _, _ => .between)
      ∧ GatePosition.between ≠ ((withGate base 0 .opening .atClosed).passage 0).gate.position ∧ ((withGate base 0 .opening .atClosed).passage 0).gate.state = .opening)
    ∧ ((withGate base 0 .closing .atOpen).pins.reset = false ∧ (0 < 4) ∧ (withGate base 0 .closing .atOpen).inUse 0 = true
      ∧ GatePosition.between = (match true, true with | false, true => GatePosition.atClosed | true, false => .atOpen | _, _ => .between)
      ∧ GatePosition.between ≠ ((withGate base 0 .closing .atOpen).passage 0).gate.position ∧ ((withGate base 0 .closing .atOpen).passage 0).gate.state = .closing)
    ∧ ((withGate base 0 .fault .between).pins.reset = false ∧ (0 < 4) ∧ (withGate base 0 .fault .between).inUse 0 = true
      ∧ GatePosition.atClosed = (match false, true with | false, true => GatePosition.atClosed | true, false => .atOpen | _, _ => .between)
      ∧ GatePosition.atClosed ≠ ((withGate base 0 .fault .between).passage 0).gate.position ∧ ((withGate base 0 .fault .between).passage 0).gate.state = .fault)
    ∧ ((withGate base 0 .stopped .atOpen).pins.reset = false ∧ (0 < 4) ∧ (withGate base 0 .stopped .atOpen).inUse 0 = true
      ∧ GatePosition.between = (match false, false with | false, true => GatePosition.atClosed | true, false => .atOpen | _, _ => .between)
      ∧ GatePosition.between ≠ ((withGate base 0 .stopped .atOpen).passage 0).gate.position ∧ ((withGate base 0 .stopped .atOpen).passage 0).gate.state = .stopped)
    ∧ ((withGate base 0 .stopped .between).pins.reset = false ∧ (0 < 4) ∧ (withGate base 0 .stopped .between).inUse 0 = true
      ∧ GatePosition.atOpen = (match true, false with | false, true => GatePosition.atClosed | true, false => .atOpen | _, _ => .between)
      ∧ GatePosition.atOpen ≠ ((withGate base 0 .stopped .between).passage 0).gate.position ∧ ((withGate base 0 .stopped .between).passage 0).gate.state = .stopped)
    ∧ ((withGate base 2 .closed .atClosed).pins.reset = false ∧ (2 < 4) ∧ (withGate base 2 .closed .atClosed).inUse 2 = true
      ∧ GatePosition.atOpen = (match true, false with | false, true => GatePosition.atClosed | true, false => .atOpen | _, _ => .between)
      ∧ GatePosition.atOpen ≠ ((withGate base 2 .closed .atClosed).passage 2).gate.position ∧ ((withGate base 2 .closed .atClosed).passage 2).gate.state = .closed)
    ∧ ((withGate base 0 .opened .atOpen).pins.reset = false ∧ (0 < 4) ∧ (withGate base 0 .opened .atOpen).inUse 0 = true
      ∧ GatePosition.between = (match false, false with | false, true => GatePosition.atClosed | true, false => .atOpen | _, _ => .between)
      ∧ GatePosition.between ≠ ((withGate base 0 .opened .atOpen).passage 0).gate.position ∧ ((withGate base 0 .opened .atOpen).passage 0).gate.state = .opened) := by decide +kernel

/-- Limits that leave the position as it was, at the first passage, and limits of the passage out of use; a feedback that leaves the position as it was, SHUT and SET, and one of the passage out of use. -/
theorem witness_GateEvents_recorded :
    (base.pins.reset = false ∧ (0 < 4) ∧ (3 < 4) ∧ base.inUse 3 = false ∧ (base.passage 0).gate.position = .atClosed)
    ∧ ((base.passage 0).sluice.state = .shut ∧ (base.passage 0).sluice.position = 0 ∧ (0 ≤ 8))
    ∧ (((withSluice base 2 .set 8 none).passage 2).sluice.state = .set
      ∧ ((withSluice base 2 .set 8 none).passage 2).sluice.position = 8 ∧ (8 ≤ 8)) := by decide +kernel

/-- A travel timer that has run out, on a gate in travel at passage 3 and on a gate at rest; one with time left, and none. -/
theorem witness_GateEvents_timeouts :
    let g := withGate config 3 .opening .between
    let rest := base.setGate 0 (fun g => { g with timer := some 0 })
    (g.pins.reset = false ∧ (3 < 4) ∧ (g.passage 3).gate.timer ≠ some 0 ∧ (base.passage 0).gate.timer ≠ some 0)
    ∧ (((lapsed 3 g).passage 3).gate.timer = some 0 ∧ ((lapsed 3 g).passage 3).gate.state.travelling = true)
    ∧ ((rest.passage 0).gate.timer = some 0 ∧ (rest.passage 0).gate.state.travelling = false) := by decide +kernel

/-- The feedback commanded, another one during a move, one in FAULT, and a change while SHUT and while SET. -/
theorem witness_SluiceEvents_feedback :
    ((withSluice base 2 .moving 7 (some 8)).pins.reset = false ∧ (2 < 4) ∧ (withSluice base 2 .moving 7 (some 8)).inUse 2 = true ∧ (8 ≤ 8) ∧ ((withSluice base 2 .moving 7 (some 8)).passage 2).sluice.state = .moving
      ∧ ((withSluice base 2 .moving 7 (some 8)).passage 2).sluice.commanded = some 8)
    ∧ (((withSluice base 0 .moving 1 (some 0)).passage 0).sluice.state = .moving
      ∧ ((withSluice base 0 .moving 1 (some 0)).passage 0).sluice.commanded ≠ some 1)
    ∧ ((withSluice base 0 .fault 1 none).pins.reset = false ∧ (0 < 4) ∧ (withSluice base 0 .fault 1 none).inUse 0 = true ∧ (0 ≤ 8) ∧ ((withSluice base 0 .fault 1 none).passage 0).sluice.state = .fault)
    ∧ ((base.passage 0).sluice.state = .shut ∧ (base.passage 0).sluice.position ≠ 8)
    ∧ (((withSluice base 0 .set 8 none).passage 0).sluice.state = .set ∧ ((withSluice base 0 .set 8 none).passage 0).sluice.position ≠ 7) := by decide +kernel

/-- The first and the last code that names no position, at a sluice that moves, in FAULT, SHUT and SET. -/
theorem witness_SluiceEvents_stray :
    (base.pins.reset = false ∧ (2 < 4) ∧ base.inUse 2 = true ∧ (8 < 9) ∧ (8 < 15))
    ∧ (((withSluice base 2 .moving 7 (some 8)).passage 2).sluice.commanded ≠ some 9
      ∧ ((withSluice base 2 .moving 7 (some 8)).passage 2).sluice.position ≠ 9
      ∧ ((withSluice base 2 .moving 7 (some 8)).passage 2).sluice.state = .moving)
    ∧ (((withSluice base 2 .fault 7 none).passage 2).sluice.state = .fault)
    ∧ ((base.passage 2).sluice.state = .shut ∧ (base.passage 2).sluice.position ≠ 15)
    ∧ (((withSluice base 2 .set 8 none).passage 2).sluice.state = .set) := by decide +kernel

/-- An operation that reaches EQUALISED at the first and the last passage, one that does not, and one with both readings. -/
theorem witness_SluiceEvents_ends :
    ((0 < 4) ∧ ((withOp base 0 (opOf .move (some 31) .ramping)).passage 0).slot = some (opOf .move (some 31) .ramping))
    ∧ ((3 < 4) ∧ ((withOp config 3 (opOf .manual none .flowing)).passage 3).slot = some (opOf .manual none .flowing))
    ∧ ((opOf .move (some 31) .shutting).phase ≠ .ramping ∧ (opOf .move (some 31) .shutting).phase ≠ .flowing)
    ∧ (Op.startReading { opOf .move (some 31) .shutting with startReading := some { mean := 2305, count := 1, stale := false } }
        = some { mean := 2305, count := 1, stale := false })
    ∧ (Op.endReading { opOf .move (some 31) .shutting with endReading := some { mean := 9000, count := 7, stale := false } }
        = some { mean := 9000, count := 7, stale := false })
    ∧ ((opOf .manual none .flowing).startReading = none) := by decide +kernel

/-- An operation below its target, at it, one that has shut, and one that goes on. -/
theorem witness_SluiceEvents_operation :
    (((withOp base 0 (opOf .manual none .ramping)).passage 0).slot = some (opOf .manual none .ramping) ∧ (opOf .manual none .ramping).phase = .ramping
      ∧ ((withOp base 0 (opOf .manual none .ramping)).passage 0).sluice.position
          < ((withOp base 0 (opOf .manual none .ramping)).passage 0).sluice.target)
    ∧ (((withOp (withSluice base 0 .set 6 none) 0 (opOf .manual none .ramping)).passage 0).slot = some (opOf .manual none .ramping)
      ∧ ((withOp (withSluice base 0 .set 6 none) 0 (opOf .manual none .ramping)).passage 0).sluice.target
          ≤ ((withOp (withSluice base 0 .set 6 none) 0 (opOf .manual none .ramping)).passage 0).sluice.position)
    ∧ (((withOp base 0 (opOf .manual none .shutting)).passage 0).slot = some (opOf .manual none .shutting) ∧ ((withOp base 0 (opOf .manual none .shutting)).passage 0).sluice.position = 0)
    ∧ ((opOf .manual none .flowing).phase ≠ .ramping ∧ ¬ ((opOf .manual none .flowing).phase = .shutting ∧ (base.passage 0).sluice.position = 0)) := by decide +kernel

/-- A move timer on a MOVING sluice at passage 3, a ramp timer on an operation in RAMPING, an equalise timer on one in FLOWING, each run out and each not. -/
theorem witness_SluiceEvents_timers :
    let move := withSluice config 3 .moving 0 (some 1)
    let ramp := (withOp base 0 (opOf .manual none .ramping)).setSluice 0 (fun x => { x with rampTimer := some 0 })
    let flow := withOp base 0 (opOf .manual none .flowing)
    (move.pins.reset = false ∧ (3 < 4) ∧ (move.passage 3).sluice.moveTimer ≠ some 0
      ∧ ((lapsed 3 move).passage 3).sluice.moveTimer = some 0 ∧ ((lapsed 3 move).passage 3).sluice.state = .moving)
    ∧ ((base.passage 0).sluice.rampTimer ≠ some 0 ∧ ramp.pins.reset = false ∧ (ramp.passage 0).sluice.rampTimer = some 0
      ∧ (ramp.passage 0).slot = some (opOf .manual none .ramping) ∧ (ramp.passage 0).sluice.state = .shut)
    ∧ ((flow.passage 0).slot = some (opOf .manual none .flowing) ∧ (opOf .manual none .flowing).timer ≠ some 0
      ∧ ((lapsed 0 flow).passage 0).slot = some { opOf .manual none .flowing with timer := some 0 }) := by decide +kernel

/-- A move timer that has run out on a sluice that does not move, a ramp timer on a free slot, on a sluice in FAULT and on one that moves, and an equalise timer on an operation that waits. -/
theorem witness_SluiceEvents_idle :
    let wait := opOf .move (some 31) .waiting
    let ramp (s : State) : State := s.setSluice 0 (fun x => { x with rampTimer := some 0 })
    let rest := lapsed 3 (withSluice config 3 .set 2 none)
    (rest.pins.reset = false ∧ (3 < 4) ∧ (rest.passage 3).sluice.moveTimer = some 0 ∧ (rest.passage 3).sluice.state ≠ .moving)
    ∧ (((ramp base).passage 0).sluice.rampTimer = some 0 ∧ ((ramp base).passage 0).slot = none
      ∧ ((ramp (withSluice base 0 .fault 2 none)).passage 0).sluice.state = .fault
      ∧ ((ramp (withSluice base 0 .moving 2 (some 3))).passage 0).sluice.state = .moving)
    ∧ (((lapsed 0 (withOp base 0 wait)).passage 0).slot = some { wait with timer := some 0 } ∧ wait.phase ≠ .ramping
      ∧ wait.phase ≠ .flowing) := by decide +kernel

/-- A head of passage 3, and an agreement timer that has run out on a CLEAR head and on a faulted one; one restarted by a new output, and none. -/
theorem witness_LampEvents :
    let aged (fault : Bool) : State := config.setHead 3 .below (fun x => { x with timer := some 0, fault := fault })
    (config.pins.reset = false ∧ (3 < 4) ∧ (config.head 3 .below).timer ≠ some 0)
    ∧ (((config.setHead 0 .above (fun x => { x with timer := some 2000 })).head 0 .above).timer ≠ some 0)
    ∧ (((aged false).head 3 .below).timer = some 0 ∧ ((aged false).head 3 .below).fault = false)
    ∧ (((aged true).head 3 .below).timer = some 0 ∧ ((aged true).head 3 .below).fault = true) := by decide +kernel

/-- A head out of use, one in use outside SERVICE and in it, the source head of an ENTRY that awaits its confirmation, and a table with no move. -/
theorem witness_LampEvents_aspects :
    (base.count < 3 ∧ (3 < 4))
    ∧ ((2 ≤ hold.count) ∧ hold.auth.mode ≠ .service)
    ∧ ((2 ≤ base.count) ∧ base.auth.mode = .service ∧ base.table = [])
    ∧ (let t := transitOf .moving (some (moveOf .entry 0 .await))
       (withTransit base t).table = [t] ∧ t.move = some (moveOf .entry 0 .await) ∧ (moveOf .entry 0 .await).passage = 0
        ∧ t.dir = .down ∧ (moveOf .entry 0 .await).confirmed = false) := by decide +kernel

/-- An overdue timer that has run out and one with time left, a RESOLVED slot at the first and the last number, a SET clock whose second has elapsed and one whose has not, an UNSET clock, a pending claim whose time is up and one with time left. -/
theorem witness_TimerEvents :
    let t (left : Nat) : Transit := { transitOf .moving (some (moveOf .exit 2 .await)) with overdue := .running 900 left }
    ((withTransit base (t 0)).pins.reset = false ∧ (withTransit base (t 0)).transit 31 = some (t 0)
      ∧ (withTransit base (t 1)).transit 31 = some (t 1) ∧ (t 0).overdue = .running 900 0 ∧ (t 1).overdue = .running 900 1
      ∧ (t 0).move = some (moveOf .exit 2 .await))
    ∧ ((1 ≤ 1) ∧ (1 ≤ 4) ∧ (QuoteSlot.resolved ['A'] .noCharge 0 |> fun q => (base.acc.slots.set 0 q).get (1 - 1) = q))
    ∧ ((1 ≤ 4) ∧ (4 ≤ 4) ∧ (QuoteSlot.resolved ['A'] .withdrawn 120000 |> fun q => (base.acc.slots.set 3 q).get (4 - 1) = q))
    ∧ (120000 ≠ 0)
    ∧ (base.toll.clock.isSet = false)
    ∧ (DayClock.isSet { base.toll.clock with isSet := true, second := some 0 } = true
      ∧ DayClock.second { base.toll.clock with isSet := true, second := some 0 } = some 0
      ∧ DayClock.second { base.toll.clock with isSet := true, second := some 1000 } ≠ some 0)
    ∧ (base.pins.reset = false ∧ Authority.claim { base.auth with claim := some 0 } = some 0 ∧ base.auth.claim ≠ some 0) := by
  decide +kernel

/-- A transit whose overdue timer is stopped and an id of no record; a quote slot that is not RESOLVED, at the first and the last number. -/
theorem witness_TimerEvents_idle :
    (∀ t limit left, (withTransit base (transitOf .queued none)).transit 31 = some t → t.overdue ≠ .running limit left)
    ∧ (base.pins.reset = false ∧ base.transit 31 = none)
    ∧ ((1 ≤ 4) ∧ (4 ≤ 4) ∧ ∀ n, n < 4 → ∀ mark result left, base.acc.slots.get n ≠ .resolved mark result left) := by
  refine ⟨?_, ⟨rfl, rfl⟩, ⟨by decide, by decide, ?_⟩⟩
  · intro t limit left h
    have : some (transitOf .queued none) = some t := h
    cases this
    nofun
  · intro n _ mark result left h
    have : base.acc.slots.get n = .free := by
      match n with
      | 0 | 1 | 2 => rfl
      | n + 3 => rfl
    rw [this] at h
    cases h

/-- A window within a day, one that wraps, an empty one, and the last second of the day. -/
theorem witness_NightWindow :
    ((0 : Nat) < 1439)
    ∧ ((0 : Nat) < 1)
    ∧ (Toll.powerOn.current.tariff.nightStart = Toll.powerOn.current.tariff.nightEnd)
    ∧ ((86399 : Nat) < 86400) := by decide +kernel

/-- The holder CONSOLE falls silent, with REGION heard and not heard, outside SAFE_HOLD; REGION as holder; TOLL; a timer that a good frame has restarted. -/
theorem witness_SilenceExpiryTaken :
    (base.pins.reset = false ∧ Port.silence { base.ports.console with silence := some 0 } = some 0 ∧ base.auth.holder = some .console
      ∧ (base.ports.get .region).heard = false ∧ base.auth.mode ≠ .safeHold ∧ (0 ≤ base.count) ∧ (2 ≤ base.count))
    ∧ (Port.heard { base.ports.region with heard := true } = true)
    ∧ (Authority.holder { base.auth with holder := some .region } = some .region ∧ Port.silence { base.ports.region with silence := some 0 } = some 0)
    ∧ (Port.silence { base.ports.toll with silence := some 0 } = some 0 ∧ base.auth.holder ≠ some .toll)
    ∧ ((base.ports.get .console).silence = some (9999 + 1)) := by decide +kernel

/-- A gap that has run out and one with time left; then a byte at each place of a frame, the clauses at the ends of their ranges: in HUNT, the station code, tag and kind, a length of 240 and of 241, the first check byte of a frame with no payload and of one with two payload bytes, and a second check byte that agrees and one that does not (10 section 10.5). -/
theorem witness_ReceiverEvents :
    (base.pins.reset = false ∧ ((assembling [0xA5] (some 0)).ports.get .region).gap = some 0
      ∧ ((assembling [0xA5] (some 1)).ports.get .region).gap ≠ some 0)
    ∧ ((base.ports.get .region).assembled = [] ∧ (0xA5 : Byte) = 0xA5 ∧ (0x00 : Byte) ≠ 0xA5)
    ∧ (((assembling [0xA5] none).ports.get .region).assembled.length = 1
      ∧ (0x01 : Byte) ≠ byteOf (stationCode .region) ∧ (0x02 : Byte) = byteOf (stationCode .region))
    ∧ (((assembling [0xA5, 0x02] none).ports.get .region).assembled.length = 2
      ∧ ((assembling [0xA5, 0x02, 0x2A] none).ports.get .region).assembled.length = 3)
    ∧ (((assembling [0xA5, 0x02, 0x2A, 0x0D] none).ports.get .region).assembled.length = 4
      ∧ (0xF0 : Byte).toNat ≤ 240 ∧ 240 < (0xF1 : Byte).toNat)
    ∧ (let l : List Byte := [0xA5, 0x02, 0x2A, 0x0D, 0x00]
       let m : List Byte := [0xA5, 0x02, 0x2A, 0x0D, 0x02, 0x1F, 0x02]
       5 ≤ l.length ∧ l.length < 6 + (l.getD 4 0).toNat ∧ 5 ≤ m.length ∧ m.length < 6 + (m.getD 4 0).toNat)
    ∧ (let l : List Byte := [0xA5, 0x02, 0x2A, 0x0D, 0x02, 0x1F, 0x02, 0x5C]
       5 ≤ l.length ∧ l.length = 6 + (l.getD 4 0).toNat
         ∧ (l.getD (5 + 2) 0).toNat + 256 * (0x00 : Byte).toNat = (((l.drop 1).take (4 + 2)).map BitVec.toNat).sum % 65536
         ∧ (l.getD (5 + 2) 0).toNat + 256 * (0x01 : Byte).toNat ≠ (((l.drop 1).take (4 + 2)).map BitVec.toNat).sum % 65536) := by
  decide +kernel

/-- A busy answer, a notice and a reply on the line of port C. -/
theorem witness_Transmitter_sent :
    (base.pins.reset = false ∧ ¬ (Station.toll = .console ∧ restartReply (some (OutFrame.busy 3 1)) = true))
    ∧ (lineOf .toll (after (.claim hR) (after (.subscribe hT [1, 1, 1, 1, 1, 1, 1, 1]) base)) = some (.reply 7 40 .ok 0 1 (.subscriptions (Subs.mk .each .each .each .each .each .each .each .each)))
      ∧ ((after (.subscribe hT [1, 1, 1, 1, 1, 1, 1, 1]) base).ports.get .toll).reply.isSome = true)
    ∧ (lineOf .region (after .estopAsserted base) = some (.notice (.serviceMode .safeHold .service (.hold .estop)))) := by decide +kernel

/-- A line that is taken; a free line with a reply, with a busy answer, with a notice, with nothing. -/
theorem witness_Transmitter_starts :
    ((after .estopAsserted base).ports.console.line.isSome = true)
    ∧ (Port.line { (after (.claim hR) base).ports.region with line := none } = none
      ∧ ((after (.claim hR) base).ports.region.reply.bind (fun r => r.frames[r.sent]?)) = lineOf .region (after (.claim hR) base))
    ∧ (base.ports.region.line = none ∧ base.ports.region.reply = none ∧ Port.busy { base.ports.region with busy := some (3, 1) } = some (3, 1))
    ∧ (base.ports.region.busy = none ∧ Port.queue { base.ports.region with queue := [.claimPending .region 30] } = .claimPending .region 30 :: [])
    ∧ (base.ports.region.reply = none ∧ base.ports.region.busy = none ∧ base.ports.region.queue = []) := by decide +kernel

/-- An answer with no taken entries, one with four and one with five. -/
theorem witness_Transmitter_frames :
    let e : JournalEntry := { seq := 0, kind := .payment 5 1000, stamp := none }
    (∀ entries held next, (refuse .unknown).body = .taken entries held next → entries.length ≤ 4)
    ∧ ((List.replicate 4 e).length ≤ 4 ∧ 4 < (List.replicate 5 e).length)
    ∧ ((accept (.taken (List.replicate 5 e) 0 5)).body = .taken (List.replicate 5 e) 0 5) :=
  ⟨nofun, by decide, rfl⟩

/-- OFF, EACH and ONCE, with room and without. -/
theorem witness_NoticeOffered :
    ((base.ports.get .toll).subs.get (Notice.claimPending .region 30).cls = .off)
    ∧ ((base.ports.get .console).subs.get (Notice.claimPending .region 30).cls = .each ∧ (base.ports.get .console).queue.length < 16)
    ∧ (Subs.get (Subs.set (base.ports.get .console).subs (Notice.claimPending .region 30).cls .once) (Notice.claimPending .region 30).cls = .once)
    ∧ (16 ≤ (List.replicate 16 (Notice.claimPending .region 30)).length) := by decide +kernel

/-- A port in HUNT, and the greatest tag, kind and payload. -/
theorem witness_ReceiverAssemblesFrame :
    (base.pins.reset = false ∧ (base.ports.get .region).assembled = [])
    ∧ ((255 < 256) ∧ (255 < 256) ∧ (List.replicate 240 (0 : Byte)).length ≤ 240) := by decide +kernel

/-- An idle frame; a frame whose kind and payload are a request, and one whose payload is too short to be one. -/
theorem witness_ReceiverAssemblesFrame_commands :
    base.pins.reset = false
    ∧ (readRequest 13 [31, 0] = some (.confirm 31 (some .entered)) ∧ readRequest 13 [31, 3] = some (.confirm 31 none))
    ∧ readRequest 13 [31] = none := by decide +kernel

/-- A request from each clause: a wrong length, a station with no right, and a port that is REPLYING. -/
theorem witness_RequestsTurnedAway :
    requestOf (.resumeService hR) = some (hR, 20) ∧ base.pins.reset = false
    ∧ (hold.reaches { hR with lengthOk := false } ∧ Hdr.lengthOk { hR with lengthOk := false } = false)
    ∧ (hold.reaches hR ∧ hR.lengthOk = true ∧ hold.admits 20 hR.port = false)
    ∧ ((after (.claim hR) base).pins.reset = false ∧ ((after (.claim hR) base).ports.get hR.port).reply.isSome = true)
    ∧ ((base.ports.get .region).reply = none ∧ (base.ports.get .region).busy = none) := by
  simp only [State.reaches]
  decide +kernel

/-- Each read reaches its block; a passage in use and one beyond N, N set and unset; the first and the last queue position. -/
theorem witness_ReadsAnswer :
    (base.takes hT 1)
    ∧ (base.takes hT 2)
    ∧ (base.takes hT 3 ∧ (base.heard hT).lm.polledN = some 2)
    ∧ (State.reset.takes hT 3 ∧ (State.reset.heard hT).lm.polledN = none)
    ∧ (base.takes hT 4 ∧ (1 ≤ 1) ∧ (32 ≤ 32))
    ∧ (base.takes hT 5)
    ∧ (base.takes hT 6 ∧ (65535 ≤ 65535)) := by
  simp only [State.takes, State.reaches]
  decide +kernel

/-- The positions and the account number just outside their ranges, and none. -/
theorem witness_ReadsAnswer_refused :
    (base.takes hT 4 ∧ (0 = 0) ∧ (32 < 33) ∧ (none : Option Direction) = none)
    ∧ (base.takes hT 6 ∧ (65535 < 65536)) := by
  simp only [State.takes, State.reaches]
  decide +kernel

/-- What each part of a report names: accounts in rising order with one above a number and none above the last; a transit at the head and behind it, in WAITING_NEXT, and in each phase of a move, with a block, a request owed, an operation, a gate in travel. -/
theorem witness_ReadsAnswer_reports :
    let sorted : Accounts := { base.acc with table := [account5, { account5 with number := 9 }] }
    let t (phase : MovePhase) : Transit := { transitOf .moving (some (moveOf .entry 0 phase)) with
      ops := [{ passage := 0, purpose := .move, waterTaken := false }] }
    (sorted.table.Pairwise (fun b c => b.number < c.number) ∧ sorted.above 5 = some { account5 with number := 9 } ∧ sorted.above 9 = none)
    ∧ (hold.auth.mode = .safeHold ∧ base.auth.mode ≠ .safeHold ∧ (transitOf .queued none).state = .queued
      ∧ (withTransit base (transitOf .queued none)).arb.queue.head? = some 31 ∧ base.arb.queue.head? ≠ some 31)
    ∧ ((transitOf .waitingNext none).state = .waitingNext ∧ Transit.held { transitOf .waitingNext none with held := [1] } = 1 :: []
      ∧ (1 ≠ base.count))
    ∧ ((t .equalise).state ≠ .queued ∧ (t .equalise).state ≠ .waitingNext ∧ (t .equalise).move = some (moveOf .entry 0 .equalise)
      ∧ (moveOf .entry 0 .equalise).blockedAt = none ∧ (moveOf .entry 0 .equalise).owed = none
      ∧ ((withOp base 0 (opOf .move (some 31) .flowing)).passage 0).slot = some (opOf .move (some 31) .flowing)
      ∧ (base.passage 0).slot = none)
    ∧ ((moveOf .entry 0 .opened).phase = .opened ∧ (moveOf .entry 0 .close).phase = .close ∧ (moveOf .entry 0 .await).phase = .await
      ∧ (moveOf .entry 0 .prep).phase = .prep ∧ Move.owed { moveOf .entry 0 .equalise with owed := some 0 } = some 0
      ∧ Move.blockedAt { moveOf .shift 1 .prep with blockedAt := some 2 } = some 2)
    ∧ (withTransit base (t .equalise)).auth.mode = .service := by decide +kernel

/-- Eight settings in range, and one above 3. -/
theorem witness_SubscribeSets :
    (base.reaches hR ∧ hR.lengthOk = true ∧ [0, 1, 2, 3, 0, 1, 2, 3].length = 8)
    ∧ (∀ n ∈ [0, 1, 2, 3, 0, 1, 2, 3], n ≤ 3)
    ∧ (∃ n ∈ [0, 1, 2, 3, 0, 1, 2, 4], 3 < n) := by
  simp only [State.reaches]
  decide +kernel

/-- An ANNOUNCE that passes the tests, by a station that does not hold. -/
theorem witness_AnnounceTaken_enters :
    (base.takes hT 7 ∧ base.auth.mode ≠ .config ∧ base.flight.n.isSome = true ∧ markOk ['A'] = true)
    ∧ (particularsOk { length := 850, beam := 80, deadweight := 1200, cls := some .cargo, account := 0 } = true ∧ Particulars.cls { length := 850, beam := 80, deadweight := 1200, cls := some .cargo, account := 0 } = some .cargo)
    ∧ (base.vessel ['A'] = none ∧ base.reg.entries.length < 32 ∧ (base.acc.find 0).isSome = true ∧ base.fits 850 80 = true) := by
  simp only [State.takes, State.reaches]
  decide +kernel

/-- A state for each test that turns an ANNOUNCE away. -/
theorem witness_AnnounceTaken_tests :
    (config.takes hT 7 ∧ config.auth.mode = .config)
    ∧ (base.takes hT 7 ∧ base.auth.mode ≠ .config ∧ base.flight.n.isSome = true)
    ∧ (State.flight { base with flight := Flight.powerOn } = Flight.powerOn ∧ Flight.powerOn.n = none)
    ∧ ((markOk [] && particularsOk { length := 850, beam := 80, deadweight := 1200, cls := some .cargo, account := 0 } && (some Direction.up).isSome) = false)
    ∧ ((markOk ['A'] && particularsOk { length := 850, beam := 80, deadweight := 1200, cls := some .cargo, account := 0 } && (some Direction.up).isSome) = true)
    ∧ ((State.vessel { base with reg := registered vesselA } ['A']).isSome = true)
    ∧ (32 ≤ (State.reg { base with reg := { base.reg with entries := List.replicate 32 vesselA } }).entries.length ∧ State.vessel { base with reg := { base.reg with entries := List.replicate 32 vesselA } } ['B'] = none)
    ∧ (base.acc.find 5 = none)
    ∧ (base.fits 850 96 = false) := by
  simp only [State.takes, State.reaches]
  decide +kernel

/-- The first, an inner and the last chamber in use; a mark that stands first of two, and one behind it. -/
theorem witness_AnnounceTaken_gauge :
    ((1 ≤ 1) ∧ (1 ≤ base.count) ∧ (2 ≤ base.count))
    ∧ ([['A'], ['B']] = [] ++ ['A'] :: [['B']] ∧ ['A'] ∉ ([] : List Mark))
    ∧ ([['A'], ['B']] = [['A']] ++ ['B'] :: [] ∧ ['B'] ∉ [['A']]) := by decide +kernel

/-- An unknown mark; a sender that is neither holder nor announcer; a called vessel; equal and new values; a length below its range, an account that is not in use, the longest and broadest vessel. -/
theorem witness_AmendReplaces :
    (base.takes hC 8 ∧ base.vessel ['A'] = none)
    ∧ (State.takes { base with reg := registered vesselA } hT 8 ∧ State.vessel { base with reg := registered vesselA } ['A'] = some vesselA ∧ (State.auth { base with reg := registered vesselA }).holder ≠ some hT.port ∧ vesselA.station ≠ hT.port)
    ∧ (State.takes { base with reg := registered vesselA } hC 8 ∧ (State.auth { base with reg := registered vesselA }).holder = some hC.port ∧ vesselA.state = .waiting)
    ∧ ((withTransit base (transitOf .queued none)).takes hC 8 ∧ (withTransit base (transitOf .queued none)).vessel ['A'] = some { vesselA with state := .called 31 57116 })
    ∧ (particularsOk { length := 850, beam := 80, deadweight := 1200, cls := some .cargo, account := 0 } = true ∧ (base.acc.find 0).isSome = true ∧ State.fits { base with reg := registered vesselA } 850 80 = true)
    ∧ ({ vesselA with length := 900 } ≠ vesselA)
    ∧ (¬ (50 ≤ 49) ∧ (50 ≤ 850 ∧ 850 ≤ 1350) ∧ (10 ≤ 80 ∧ 80 ≤ 240) ∧ (1200 ≤ 9999) ∧ (9 ≤ 65535) ∧ base.acc.find 9 = none)
    ∧ ((50 ≤ 1350 ∧ 1350 ≤ 1350) ∧ (10 ≤ 240 ∧ 240 ≤ 240) ∧ (base.acc.find 0).isSome = true
      ∧ State.fits { base with reg := registered vesselA } 1350 240 = false) := by
  simp only [State.takes, State.reaches]
  decide +kernel

/-- A waiting vessel, a called one of a transit under way, and one of a queued transit. -/
theorem witness_WithdrawTaken :
    (State.takes { base with reg := registered vesselA } hC 9 ∧ State.vessel { base with reg := registered vesselA } ['A'] = some vesselA ∧ (State.auth { base with reg := registered vesselA }).holder = some hC.port ∧ vesselA.state = .waiting)
    ∧ ((withTransit base (transitOf .moving none)).takes hC 9 ∧ (withTransit base (transitOf .moving none)).transit 31 = some (transitOf .moving none)
      ∧ (transitOf .moving none).state ≠ .queued)
    ∧ ((withTransit base (transitOf .queued none)).takes hC 9 ∧ (withTransit base (transitOf .queued none)).vessel ['A'] = some { vesselA with state := .called 31 57116 }
      ∧ (withTransit base (transitOf .queued none)).auth.holder = some hC.port ∧ (withTransit base (transitOf .queued none)).transit 31 = some (transitOf .queued none)
      ∧ (transitOf .queued none).state = .queued) := by
  simp only [State.takes, State.reaches]
  decide +kernel

/-- A queue that empties and one that does not; slots 1 and 4 that hold the mark, PENDING and RESOLVED, and none that does. -/
theorem witness_WithdrawTaken_steps :
    ([31].filter (fun x => !decide (x = 31)) = [] ∧ [31, 32].filter (fun x => !decide (x = 31)) ≠ [])
    ∧ ((1 ≤ 1) ∧ (4 ≤ 4) ∧ (base.acc.slots.set 0 (.pending ['A'])).get (1 - 1) = .pending ['A']
      ∧ (base.acc.slots.set 3 (.resolved ['A'] .noCharge 5)).get (4 - 1) = .resolved ['A'] .noCharge 5
      ∧ (∀ i, i < 4 → 1 ≤ i → (base.acc.slots.set 3 (.resolved ['A'] .noCharge 5)).get (i - 1) = .free))
    ∧ (∀ i, i < 4 → base.acc.slots.get i = .free) := by decide +kernel

/-- A mark in no entry, and a sender that is neither the holder nor the announcing station. -/
theorem witness_WithdrawTaken_refused :
    (base.takes hC 9 ∧ base.vessel ['A'] = none)
    ∧ (State.takes { base with reg := registered vesselA } hR 9
      ∧ State.vessel { base with reg := registered vesselA } ['A'] = some vesselA
      ∧ base.auth.holder ≠ some hR.port ∧ vesselA.station ≠ hR.port) := by
  simp only [State.takes, State.reaches]
  decide +kernel

/-- AUTO_CALL with the present value and with each other one. -/
theorem witness_AutoCalling_request :
    (base.takes hC 10 ∧ (false = base.arb.autoOn))
    ∧ (base.takes hC 10 ∧ base.arb.autoOn = false)
    ∧ (State.takes { base with arb := { base.arb with autoOn := true } } hC 10) := by
  simp only [State.takes, State.reaches]
  decide +kernel

/-- Each blocking reason. -/
theorem witness_AutoCalling_event :
    (base.arb.autoOn = false)
    ∧ (hold.auth.mode ≠ .service)
    ∧ (Arbiter.autoOn { base.arb with autoOn := true } = true ∧ base.auth.mode = .service)
    ∧ (4 ≤ (Arbiter.queue { base.arb with queue := [1, 2, 3, 4] }).length)
    ∧ (base.arb.queue.length < 4 ∧ Accounts.margin { base.acc with reserved := 128 } = 0)
    ∧ (0 < base.acc.margin ∧ base.callables .up = [] ∧ base.callables .down = [] ∧ base.firstService = none) := by decide +kernel

/-- A service vessel ahead of a callable cargo vessel; the run limit reached and not; a queue in each direction and in none; a vessel with precedence behind one without. -/
theorem witness_AutoCalling_direction :
    let service := { vesselA with mark := ['S'], cls := .service }
    let up := { vesselA with mark := ['U'], dir := .up }
    let queued (entries : List Vessel) (ups downs : List Mark) : State :=
      { base with reg := { entries := entries, up := ups, down := downs, counter := 2 } }
    ((queued [vesselA, service] [] [['A'], ['S']]).callables .down = [vesselA, service] ∧ vesselA.cls ≠ .service
      ∧ (queued [vesselA, service] [] [['A'], ['S']]).creditHeld service = false)
    ∧ ((queued [vesselA, up] [['U']] [['A']]).callables .up ≠ [] ∧ (queued [vesselA, up] [['U']] [['A']]).callables .down ≠ []
      ∧ base.arb.runCount < base.timing.runLimit ∧ base.timing.runLimit ≤ Arbiter.runCount { base.arb with runCount := 2 })
    ∧ ((queued [up] [['U']] []).callables .down = [] ∧ (queued [up] [['U']] []).callables .up ≠ [])
    ∧ (base.callables .up = [] ∧ base.callables .down = [])
    ∧ ((queued [vesselA, { up with dir := .down, precedence := true }] [] [['A'], ['U']]).callables .down
        = [vesselA] ++ { up with dir := .down, precedence := true } :: [] ∧ vesselA.precedence = false)
    ∧ (banked.acc.find 5 = some account5) := by decide +kernel

/-- A composition that is full, and one with room for a vessel that fits and one that does not; a call that can be made. -/
theorem witness_AutoCalling_scan :
    let s : State := { base with reg := registered vesselA }
    let x : Composition := { berths := [(vesselA, 57116)], left := 870, skipped := [] }
    ((1 ≤ x.berths.length) ∧ x.berths.length < 8)
    ∧ (s.creditHeldWith 57116 vesselA = false ∧ vesselA.length + s.flight.clearance ≤ x.left
      ∧ Composition.left { x with left := 869 } < vesselA.length + s.flight.clearance)
    ∧ (banked.creditHeldWith 57116 { vesselA with account := 5 } = true)
    ∧ ((s.compose .down vesselA).skipped.Nodup)
    ∧ (s.arb.queue.length < 4 ∧ 0 < s.acc.margin ∧ s.chooseDirection = some .down ∧ s.berthOne .down = some vesselA) := by
  decide +kernel

/-- A full queue, a journal with no room, and a state with room and no vessel to call. -/
theorem witness_AutoCalling_blocked :
    (4 ≤ (Arbiter.queue { base.arb with queue := [1, 2, 3, 4] }).length)
    ∧ (base.arb.queue.length < 4 ∧ Accounts.margin { base.acc with reserved := 128 } = 0)
    ∧ (0 < base.acc.margin ∧ base.chooseDirection = none) := by decide +kernel

/-- A plan of one waiting vessel, with room in the queue and without. -/
theorem witness_PlanTransitTaken :
    (State.takes { base with reg := registered vesselA } hC 11 ∧ base.auth.mode ≠ .config)
    ∧ ((1 ≤ [['A']].length) ∧ [['A']].length ≤ 8 ∧ (∀ m ∈ [['A']], markOk m = true) ∧ [['A']].Nodup)
    ∧ (∀ m ∈ [['A']], ∃ v, State.vessel { base with reg := registered vesselA } m = some v ∧ v.state = .waiting ∧ v.dir = .down)
    ∧ (State.firstHeld { base with reg := registered vesselA } [] (State.planBerths { base with reg := registered vesselA } [['A']])
          = none
      ∧ State.planLength { base with reg := registered vesselA } [['A']] ≤ State.minUsable { base with reg := registered vesselA }
      ∧ [['A']].length ≤ State.capacity { base with reg := registered vesselA })
    ∧ (base.arb.queue.length < 4 ∧ 4 ≤ (Arbiter.queue { base.arb with queue := [1, 2, 3, 4] }).length)
    ∧ (base.arb.queue = [] ∧ Arbiter.queue { base.arb with queue := [1] } ≠ []) := by
  simp only [State.takes, State.reaches]
  refine ⟨by decide +kernel, by decide +kernel, ?_, by decide +kernel, by decide +kernel, by decide +kernel⟩
  intro m hm
  exact ⟨vesselA, by rw [List.mem_singleton.mp hm]; decide +kernel, rfl, rfl⟩

/-- A state and a list of marks for each test that turns a plan away, in their order. -/
theorem witness_PlanTransitTaken_tests :
    let one : State := { base with reg := registered vesselA }
    let poor : State := { base with
      acc := { base.acc with table := [{ account5 with hold := true }] }, reg := registered { vesselA with account := 5 } }
    (config.takes hC 11 ∧ config.auth.mode = .config)
    ∧ (one.takes hC 11 ∧ one.auth.mode ≠ .config ∧ ¬ (1 ≤ ([] : List Mark).length))
    ∧ (¬ [['A'], ['A']].Nodup)
    ∧ ([['A'], ['B']] = [['A']] ++ ['B'] :: [] ∧ one.vessel ['B'] = none ∧ (one.vessel ['A']).isSome = true)
    ∧ ((withTransit base (transitOf .queued none)).takes hC 11
      ∧ (withTransit base (transitOf .queued none)).vessel ['A'] = some { vesselA with state := .called 31 57116 })
    ∧ (one.vessel ['A'] = some vesselA ∧ vesselA.state = .waiting ∧ vesselA.dir ≠ .up)
    ∧ (poor.takes hC 11 ∧ poor.firstHeld [] (poor.planBerths [['A']]) = some ['A'])
    ∧ (State.minUsable { one with flight := { one.flight with clearance := 2000 } }
        < State.planLength { one with flight := { one.flight with clearance := 2000 } } [['A']])
    ∧ (State.capacity { one with acc := { one.acc with reserved := 128 } } < [['A']].length)
    ∧ ((poor.creditHeldWith 0 { vesselA with account := 5 }) = true ∧ one.creditHeldWith 0 vesselA = false) := by
  simp only [State.takes, State.reaches]
  decide +kernel

/-- Two vessels with marks apart, into an empty queue and into one that holds a transit. -/
theorem witness_PlanTransitTaken_creation :
    ([(vesselA, 57116), ({ vesselA with mark := ['B'] }, 8165)].map (fun b => b.1.mark)).Nodup
    ∧ base.arb.queue = [] ∧ Arbiter.queue { base.arb with queue := [31] } ≠ [] := by decide +kernel

/-- A last id of 254 and of 255, and one whose successor is held. -/
theorem witness_PlanTransitTaken_ids :
    let after (n : Nat) : Nat := if n < 255 then n + 1 else 1
    let held (id last : Nat) : State := { base with
      arb := { base.arb with lastId := last }, table := [{ transitOf .waitingNext none with id := id }] }
    (Nat.iterate after 1 (held 31 254).arb.lastId = 255 ∧ ∀ t ∈ (held 31 254).table, t.id ≠ 255)
    ∧ ((∃ t ∈ (held 1 255).table, t.id = Nat.iterate after 1 (held 1 255).arb.lastId)
      ∧ (∀ t ∈ (held 1 255).table, t.id ≠ Nat.iterate after 2 (held 1 255).arb.lastId)
      ∧ (held 1 255).nextId 9 (held 1 255).arb.lastId = 2 ∧ (held 1 255).table.length ≤ 8) := by decide +kernel

/-- A request whose direction, confirmation, permit action or gate action is outside its list, in CONFIG and outside it. -/
theorem witness_unlisted_operands :
    (config.takes hC 11 ∧ config.auth.mode = .config ∧ config.takes hC 13)
    ∧ (base.takes hC 11 ∧ base.auth.mode ≠ .config ∧ base.takes hC 13 ∧ base.takes hC 10)
    ∧ (base.takes hC 18 ∧ base.takes hC 16 ∧ base.inUse 0 = true ∧ base.inUse 2 = true) := by
  simp only [State.takes, State.reaches]
  decide +kernel

/-- An unknown id; a queued transit in and out of CONFIG; an ENTRY in SERVICE and in SAFE_HOLD; a transit under way. -/
theorem witness_CancelTransitTaken :
    (base.takes hC 12 ∧ base.transit 31 = none)
    ∧ ((withTransit base (transitOf .queued none)).takes hC 12 ∧ (withTransit base (transitOf .queued none)).transit 31 = some (transitOf .queued none) ∧ (withTransit base (transitOf .queued none)).auth.mode ≠ .config)
    ∧ ((withTransit base (transitOf .moving (some (moveOf .entry 0 .await)))).takes hC 12 ∧ (withTransit base (transitOf .moving (some (moveOf .entry 0 .await)))).transit 31 = some (transitOf .moving (some (moveOf .entry 0 .await)))
      ∧ (moveOf .entry 0 .await).kind = .entry ∧ (moveOf .entry 0 .await).confirmed = false ∧ (withTransit base (transitOf .moving (some (moveOf .entry 0 .await)))).auth.mode = .service)
    ∧ ((withTransit hold (transitOf .moving (some (moveOf .entry 0 .await)))).takes hC 12 ∧ hold.auth.mode ≠ .service)
    ∧ ((transitOf .waitingNext none).state = .waitingNext ∧ (moveOf .shift 1 .await).kind ≠ .entry)
    ∧ ((withTransit config (transitOf .queued none)).takes hC 12 ∧ config.auth.mode = .config) := by
  simp only [State.takes, State.reaches]
  decide +kernel

/-- An unknown id; a move that awaits another confirmation; an ENTRY and an EXIT that await theirs. -/
theorem witness_ConfirmTaken :
    (base.takes hC 13 ∧ base.auth.mode ≠ .config ∧ base.transit 31 = none)
    ∧ ((withTransit base (transitOf .moving (some (moveOf .entry 0 .await)))).takes hC 13 ∧ (withTransit base (transitOf .moving (some (moveOf .entry 0 .await)))).transit 31 = some (transitOf .moving (some (moveOf .entry 0 .await)))
      ∧ ¬ ((moveOf .entry 0 .await).phase = .await ∧ (moveOf .entry 0 .await).kind.awaits = .moved)
      ∧ (moveOf .entry 0 .await).kind.awaits = .entered)
    ∧ ((withTransit base (transitOf .moving (some (moveOf .exit 2 .await)))).takes hC 13 ∧ (withTransit base (transitOf .moving (some (moveOf .exit 2 .await)))).transit 31 = some (transitOf .moving (some (moveOf .exit 2 .await)))
      ∧ (moveOf .exit 2 .await).phase = .await ∧ (moveOf .exit 2 .await).kind.awaits = .cleared) := by
  simp only [State.takes, State.reaches]
  decide +kernel

/-- The gate of a move that has reached OPEN and CLOSED in each phase, and a gate in travel; the only move at its passage. -/
theorem witness_ConfirmTaken_gates :
    let t (kind : MoveKind) (phase : MovePhase) : Transit := { transitOf .moving (some (moveOf kind 0 phase)) with held := [1] }
    let s (state : GateState) (kind : MoveKind) (phase : MovePhase) : State :=
      withTransit (base.setGate 0 (fun g => { g with state := state })) (t kind phase)
    ((s .opened .entry .opened).table = [t .entry .opened] ∧ ((s .opened .entry .opened).passage 0).gate.state = .opened
      ∧ (t .entry .opened).move = some (moveOf .entry 0 .opened) ∧ (moveOf .entry 0 .opened).passage = 0)
    ∧ (((s .closed .entry .close).passage 0).gate.state = .closed ∧ (moveOf .entry 0 .close).phase = .close
      ∧ (moveOf .entry 0 .close).kind = .entry ∧ (moveOf .shift 0 .close).kind = .shift ∧ (moveOf .exit 0 .close).kind = .exit)
    ∧ ((moveOf .entry 0 .opened).phase = .opened ∧ (moveOf .entry 0 .await).phase = .await)
    ∧ (((s .opening .entry .await).passage 0).gate.state ≠ .opened ∧ ((s .opening .entry .await).passage 0).gate.state ≠ .closed) := by
  decide +kernel

/-- The EXIT of T31 awaits CLEAR. -/
theorem witness_SettlementPostsCharges :
    ((withTransit base (transitOf .moving (some (moveOf .exit 2 .await)))).takes hC 13 ∧ (withTransit base (transitOf .moving (some (moveOf .exit 2 .await)))).auth.mode ≠ .config ∧ (withTransit base (transitOf .moving (some (moveOf .exit 2 .await)))).acc.nextSeq < 65536)
    ∧ ((withTransit base (transitOf .moving (some (moveOf .exit 2 .await)))).transit 31 = some (transitOf .moving (some (moveOf .exit 2 .await)))
      ∧ (transitOf .moving (some (moveOf .exit 2 .await))).move = some (moveOf .exit 2 .await)
      ∧ (moveOf .exit 2 .await).phase = .await ∧ (moveOf .exit 2 .await).kind = .exit) := by
  simp only [State.takes, State.reaches]
  decide +kernel

/-- The settlement of T31, whose vessel is in the register, with a quote slot that holds its mark and one that does not. -/
theorem witness_SettlementPostsCharges_steps :
    let t := transitOf .moving (some (moveOf .exit 2 .await))
    let s : State := withTransit base t
    let quoted : State := { s with acc := { s.acc with slots := ⟨.pending ['A'], .free, .pending ['B'], .free⟩ } }
    (s.transit t.id = some t ∧ (s.settlement t).charges.length = 1 ∧ quoted.acc.nextSeq < 65536
      ∧ Accounts.nextSeq { quoted.acc with nextSeq := 65535 } < 65536)
    ∧ (['A'] ∈ t.berths.map Berth.mark ∧ (quoted.acc.slots.get 0).mark = some ['A']
      ∧ ((quoted.settlement t).charges[0]?).map Charge.mark = some ['A'])
    ∧ (∀ m ∈ t.berths.map Berth.mark, (quoted.acc.slots.get 2).mark ≠ some m) := by decide +kernel

/-- Outside SAFE_HOLD; in it an unknown id, a queued transit and one in WAITING_NEXT. -/
theorem witness_AbandonFrees :
    (base.takes hC 14 ∧ base.auth.mode ≠ .safeHold)
    ∧ (hold.takes hC 14 ∧ hold.auth.mode = .safeHold ∧ hold.transit 31 = none)
    ∧ ((withTransit hold (transitOf .queued none)).takes hC 14 ∧ (withTransit hold (transitOf .queued none)).transit 31 = some (transitOf .queued none))
    ∧ ((withTransit hold (transitOf .waitingNext none)).takes hC 14
      ∧ (withTransit hold (transitOf .waitingNext none)).transit 31 = some (transitOf .waitingNext none)) := by
  simp only [State.takes, State.reaches]
  decide +kernel

/-- Two berths of one account, one of them with an estimate, and an account of no berth. -/
theorem witness_AbandonFrees_accounts :
    (0 < berthA.estimate ∧ (withTransit base (transitOf .waitingNext none)).accountOf berthA.mark = 0)
    ∧ (∀ b ∈ [berthA, { berthA with estimate := 0 }], 0 < b.estimate →
        (withTransit base (transitOf .waitingNext none)).accountOf b.mark ≠ 5) := by decide +kernel

/-- An operation of the transit that waits without claims, one that runs, one of another transit, and a free slot, at the first and the last passage. -/
theorem witness_AbandonFrees_abort :
    let wait := opOf .move (some 31) .waiting
    ((0 < 4) ∧ ((withOp base 0 wait).passage 0).slot = some wait ∧ wait.transit = some 31 ∧ wait.phase = .waiting ∧ wait.claimsHeld = false)
    ∧ ((3 < 4) ∧ ((withOp config 3 (opOf .move (some 31) .ramping)).passage 3).slot = some (opOf .move (some 31) .ramping)
      ∧ ¬ ((opOf .move (some 31) .ramping).phase = .waiting ∧ (opOf .move (some 31) .ramping).claimsHeld = false))
    ∧ ((opOf .move (some 32) .ramping).transit ≠ some 31 ∧ (base.passage 0).slot = none) := by decide +kernel

/-- A passage beyond N; a free slot; a STALLED operation of a transit in SAFE_HOLD, and a manual one. -/
theorem witness_RetryAndPermit :
    (base.takes hC 15 ∧ base.inUse 3 = false)
    ∧ (base.takes hC 15 ∧ base.inUse 2 = true ∧ (base.passage 2).slot = none)
    ∧ ((withOp hold 0 (opOf .move (some 31) .stalled)).takes hC 15 ∧ ((withOp hold 0 (opOf .move (some 31) .stalled)).passage 0).slot = some (opOf .move (some 31) .stalled)
      ∧ (opOf .move (some 31) .stalled).phase = .stalled ∧ (opOf .move (some 31) .stalled).transit.isSome = true ∧ hold.auth.mode ≠ .service)
    ∧ ((withOp base 0 (opOf .manual none .stalled)).takes hC 15 ∧ (opOf .manual none .stalled).transit = none)
    ∧ (base.takes hC 18 ∧ base.inUse 0 = true ∧ base.inUse 3 = false) := by
  simp only [State.takes, State.reaches]
  decide +kernel

/-- A waiting operation with its claims that may start, with the sensors or under the permit; one whose records are STALE, one at risk, one beside an open gate, and one that does not wait. -/
theorem witness_RetryAndPermit_examine :
    let waiting (p : Purpose) : Op := { opOf p (if p = .manual then none else some 31) .waiting with claimsHeld := true }
    let level (a b : Nat) : State := withMean (withMean base 0 a) 1 b
    let at0 (s : State) (p : Purpose) : State := withOp s 0 (waiting p)
    ((0 < 4) ∧ (0 ≤ base.count) ∧ ((at0 base .move).passage 0).slot = some (waiting .move)
      ∧ (waiting .move).phase = .waiting ∧ (waiting .move).claimsHeld = true)
    ∧ (((at0 (level 5000 3000) .move).sensor 0).status = .good ∧ ((at0 (level 5000 3000) .move).sensor 1).level.stale = false
      ∧ (at0 (level 5000 3000) .move).overflowPasses ((at0 (level 5000 3000) .move).receiver 0)
          ((at0 (level 5000 3000) .move).predictedLevel 0) = true
      ∧ ((at0 (level 5000 3000) .move).passage 1).gate.state = .closed ∧ ((at0 (level 5000 3000) .move).passage 1).sluice.state = .shut)
    ∧ ((waiting .manual).purpose = .manual ∧ (((at0 base .manual).setPermit 0 true).passage 0).permit = true)
    ∧ ((base.sensor 0).level.stale = true)
    ∧ ((level 9600 3000).overflowPasses ((level 9600 3000).receiver 0) ((level 9600 3000).predictedLevel 0) = false
      ∧ (level 9600 3000).receiver 0 = some 1 ∧ (waiting .move).highWater = false
      ∧ Op.highWater { waiting .move with highWater := true } = true)
    ∧ (((withGate base 1 .opened .atOpen).passage 1).gate.state ≠ .closed)
    ∧ ((opOf .manual none .flowing).phase ≠ .waiting) := by decide +kernel

/-- A passage that is EQUAL and one that is not, with the sluice below, at and above the target of 6; operations of a transit and without. -/
theorem witness_RetryAndPermit_start :
    (State.equal { base with lm := { base.lm with still := ⟨3, 0, 0, 0⟩ } } 0 = true ∧ base.equal 0 = false)
    ∧ (base.timing.sluiceTarget = 6 ∧ ((withSluice base 0 .set 5 none).passage 0).sluice.position < 6
      ∧ ((withSluice base 0 .set 6 none).passage 0).sluice.position = 6
      ∧ 6 < ((withSluice base 0 .set 8 none).passage 0).sluice.position)
    ∧ ((opOf .move (some 31) .waiting).transit.isSome = true ∧ (opOf .manual none .waiting).transit = none) := by decide +kernel

/-- A waiting operation without claims on passage 1, alone and beside one that ranks behind it, that wants a released chamber; none that wants one; a passage with a neighbour on each side; a held step; a pending open order that may be given and one that may not; a FAULT gate. -/
theorem witness_RetryAndPermit_grants :
    let wait (order : Nat) (transit : Option Nat) : Op := { opOf .manual transit .waiting with order := order }
    let s := withOp (withOp base 1 (wait 0 (some 31))) 2 (wait 1 none)
    let ask (s : State) : State := s.setGate 0 (fun g => { g with pendingOpen := some 31 })
    ((1 ≤ s.count) ∧ (s.passage 1).slot = some (wait 0 (some 31)) ∧ (wait 0 (some 31)).phase = .waiting
      ∧ (wait 0 (some 31)).claimsHeld = false ∧ (2 ∈ [2]) ∧ s.pcu.claims.get 1 = none ∧ s.pcu.claims.get 2 = none
      ∧ s.ranksAhead (wait 0 (some 31)) (wait 1 none) = true ∧ (2 ≤ s.count) ∧ (s.passage 0).slot = none)
    ∧ (∀ k, k ≤ 2 → (base.passage k).slot = none)
    ∧ ((1 ≤ 1) ∧ (1 < base.count) ∧ ¬ (1 ≤ 0) ∧ ¬ (2 < base.count))
    ∧ ((((withOp base 0 (opOf .manual none .ramping)).setSluice 0 (fun x => { x with stepHeld := true })).passage 0).sluice.stepHeld = true
      ∧ (opOf .manual none .ramping).phase = .ramping ∧ (base.passage 0).sluice.stepHeld = false)
    ∧ (((ask (base.setPermit 0 true)).passage 0).gate.pendingOpen.isSome = true ∧ (ask (base.setPermit 0 true)).mayOpen 0 = true
      ∧ (ask base).mayOpen 0 = false ∧ (base.passage 0).gate.pendingOpen = none)
    ∧ (((withGate base 3 .fault .between).passage 3).gate.state = .fault ∧ (3 < 4) ∧ (base.passage 0).gate.state ≠ .fault) := by
  decide +kernel

/-- A passage that R45 does not admit; one that may not open, and one that may. -/
theorem witness_ManualGateTaken_request :
    ((withOp base 0 (opOf .move (some 31) .waiting)).takes hC 16 ∧ (withOp base 0 (opOf .move (some 31) .waiting)).inUse 0 = true
      ∧ (withOp base 0 (opOf .move (some 31) .waiting)).manualAdmitted 0 = false)
    ∧ (base.takes hC 16 ∧ base.inUse 3 = false ∧ (2 ≤ base.count))
    ∧ (base.takes hC 16 ∧ base.inUse 2 = true ∧ base.manualAdmitted 2 = true ∧ base.mayOpen 2 = false)
    ∧ ((base.setPermit 0 true).takes hC 16 ∧ (base.setPermit 0 true).inUse 0 = true ∧ (base.setPermit 0 true).manualAdmitted 0 = true ∧ (base.setPermit 0 true).mayOpen 0 = true) := by
  simp only [State.takes, State.reaches]
  decide +kernel

/-- A gate of each state the clauses name, at passage 0 or 3. -/
theorem witness_ManualGateTaken_command :
    ((3 < 4) ∧ ((withGate base 3 .closed .atClosed).passage 3).gate.state = .closed ∧ ((withGate base 3 .closed .atClosed).passage 3).gate.position ≠ .atOpen)
    ∧ (((withGate base 0 .fault .between).passage 0).gate.state = .fault ∧ ((withGate base 0 .fault .between).passage 0).gate.position ≠ .atOpen
      ∧ ((withGate base 0 .fault .between).passage 0).gate.position ≠ .atClosed)
    ∧ (((withGate base 0 .opened .atOpen).passage 0).gate.state = .opened ∧ ((withGate base 0 .opened .atOpen).passage 0).gate.position ≠ .atClosed)
    ∧ (((withGate base 0 .opening .between).passage 0).gate.state = .opening)
    ∧ (((withGate base 0 .closing .between).passage 0).gate.state = .closing) := by decide +kernel

/-- A gate in each state whose position is the end commanded. -/
theorem witness_ManualGateTaken_end :
    (((withGate base 0 .stopped .atOpen).passage 0).gate.state = .stopped ∧ ((withGate base 0 .stopped .atOpen).passage 0).gate.position = .atOpen)
    ∧ (((withGate base 3 .fault .atClosed).passage 3).gate.state = .fault ∧ ((withGate base 3 .fault .atClosed).passage 3).gate.position = .atClosed)
    ∧ (((withGate base 0 .closing .atOpen).passage 0).gate.state = .closing ∧ ((withGate base 0 .opening .atClosed).passage 0).gate.state = .opening)
    ∧ ((base.passage 0).gate.state = .closed ∧ ((withGate base 0 .opened .atOpen).passage 0).gate.state = .opened) := by decide +kernel

/-- A passage above N; a position out of range; a passage not admitted; each content of the slot; a sluice in FAULT; a MANUAL operation in SHUTTING. -/
theorem witness_ManualSluiceActs :
    (base.takes hC 17 ∧ base.inUse 3 = false)
    ∧ (base.takes hC 17 ∧ base.inUse 2 = true ∧ (8 < 9))
    ∧ (State.reset.takes hC 17 ∧ State.reset.inUse 3 = true ∧ State.reset.flight.n = none)
    ∧ ((withOp base 0 (opOf .move (some 31) .waiting)).takes hC 17 ∧ (withOp base 0 (opOf .move (some 31) .waiting)).manualAdmitted 0 = false)
    ∧ (base.manualAdmitted 2 = true ∧ base.flight.n.isSome = true ∧ (base.passage 2).sluice.state ≠ .fault ∧ (base.passage 2).slot = none)
    ∧ (((withSluice base 0 .fault 0 none).passage 0).sluice.state = .fault ∧ (withSluice base 0 .fault 0 none).manualAdmitted 0 = true)
    ∧ ((withOp base 0 (opOf .manual none .shutting)).manualAdmitted 0 = true ∧ (opOf .manual none .shutting).purpose = .manual
      ∧ (opOf .manual none .shutting).phase = .shutting)
    ∧ ((withOp base 0 (opOf .manual none .ramping)).manualAdmitted 0 = true ∧ ((withOp base 0 (opOf .manual none .ramping)).passage 0).slot = some (opOf .manual none .ramping)
      ∧ (opOf .manual none .ramping).purpose = .manual ∧ (opOf .manual none .ramping).phase ≠ .shutting)
    ∧ ((withOp hold 0 (opOf .move (some 31) .ramping)).manualAdmitted 0 = true ∧ (opOf .move (some 31) .ramping).purpose ≠ .manual) := by
  simp only [State.takes, State.reaches]
  decide +kernel

/-- The sluice in each state the movements name, above, at and below the position sent. -/
theorem witness_ManualSluiceActs_moves :
    ((0 < 4) ∧ ((withSluice base 0 .fault 3 none).passage 0).sluice.state = .fault
      ∧ ((withSluice base 0 .moving 3 (some 4)).passage 0).sluice.state = .moving)
    ∧ (((withSluice base 0 .set 3 none).passage 0).sluice.state = .set ∧ ((withSluice base 0 .set 3 none).passage 0).sluice.position = 3
      ∧ ((withSluice base 0 .set 3 none).passage 0).sluice.position ≠ 0)
    ∧ ((opOf .manual none .waiting).phase ≠ .ramping ∧ (opOf .manual none .waiting).phase ≠ .flowing)
    ∧ ((opOf .manual none .ramping).phase = .ramping ∧ (opOf .manual none .flowing).phase = .flowing)
    ∧ (base.unclaimed 0 = true ∧ State.unclaimed { base with pcu := { base.pcu with claims := base.pcu.claims.set 1 (some 1) } } 0 = false) := by
  decide +kernel

/-- The first and the last chamber, in the list of chambers and outside it. -/
theorem witness_ManualSluiceActs_claims :
    ((1 ≤ 1) ∧ (3 ≤ 3) ∧ (∀ d ∈ [2, 3], 1 ≤ d ∧ d ≤ 3))
    ∧ ((3 ∈ [2, 3]) ∧ ¬ (1 ∈ [2, 3])) := by decide

/-- REGION, which does not hold, in SERVICE and in SAFE_HOLD; TOLL; the last passage of N = 2. -/
theorem witness_EmergencyStopHolds :
    (base.reaches hR ∧ hR.lengthOk = true ∧ hR.port = .region ∧ base.auth.mode ≠ .safeHold ∧ (2 ≤ base.count) ∧ (2 < 4))
    ∧ (hold.reaches hR ∧ hold.auth.mode = .safeHold)
    ∧ (base.reaches hT ∧ hT.lengthOk = true ∧ hT.port = .toll) := by
  simp only [State.reaches]
  decide +kernel

/-- A resume that each test turns away, in their order, and one that passes. -/
theorem witness_ModeRequests_resume :
    let s := calibrated hold
    let holding := withTransit (withSensor s 1 (fun x => { x with status := .failed })) { transitOf .waitingNext none with held := [1] }
    (base.takes hC 20 ∧ base.auth.mode ≠ .safeHold)
    ∧ (hold.takes hC 20 ∧ hold.auth.mode = .safeHold ∧ hold.missing = some (.calibration 0))
    ∧ (Authority.estop { s.auth with estop := true } = true ∧ s.missing = none)
    ∧ ((withGate s 0 .fault .between).takes hC 20 ∧ (withGate s 0 .fault .between).missing = none
      ∧ ((withGate s 0 .fault .between).passage 0).gate.state = .fault)
    ∧ (((withSluice s 2 .fault 0 none).passage 2).sluice.state = .fault ∧ (2 ≤ s.count)
      ∧ (∀ j, j < 2 → ¬ (((withSluice s 2 .fault 0 none).passage j).gate.state = .fault
          ∨ ((withSluice s 2 .fault 0 none).passage j).sluice.state = .fault)))
    ∧ (holding.takes hC 20 ∧ holding.missing = none ∧ holding.auth.estop = false ∧ (∃ t ∈ holding.table, 1 ∈ t.held)
      ∧ (holding.sensor 1).status = .failed ∧ (1 ≤ holding.count))
    ∧ (s.takes hC 20 ∧ s.auth.mode = .safeHold ∧ s.missing = none ∧ s.auth.estop = false
      ∧ (∀ k, k ≤ s.count → ¬ ((s.passage k).gate.state = .fault ∨ (s.passage k).sluice.state = .fault)) ∧ s.table = []) := by
  simp only [State.takes, State.reaches]
  decide +kernel

/-- ENTER_CONFIG with the flight at rest, and turned away by each of its tests. -/
theorem witness_ModeRequests_enter :
    (base.takes hC 24 ∧ base.auth.mode ≠ .config ∧ base.table = []
      ∧ (∀ k, k ≤ base.count → (base.passage k).slot = none)
      ∧ (∀ k, k ≤ base.count → (base.passage k).gate.state = .closed ∧ (base.passage k).sluice.state = .shut))
    ∧ (config.takes hC 24 ∧ config.auth.mode = .config)
    ∧ ((withTransit base (transitOf .queued none)).takes hC 24 ∧ (withTransit base (transitOf .queued none)).auth.mode ≠ .config ∧ (withTransit base (transitOf .queued none)).table ≠ [])
    ∧ ((withOp base 2 (opOf .manual none .waiting)).takes hC 24 ∧ ((withOp base 2 (opOf .manual none .waiting)).passage 2).slot.isSome = true)
    ∧ ((withGate base 2 .opened .atOpen).takes hC 24 ∧ ((withGate base 2 .opened .atOpen).passage 2).gate.state ≠ .closed
      ∧ (∀ k, k ≤ base.count → ((withGate base 2 .opened .atOpen).passage k).slot = none)) := by
  simp only [State.takes, State.reaches]
  decide +kernel

/-- LEAVE_CONFIG turned away by each of its tests, and complete; RESTART. -/
theorem witness_ModeRequests_leave :
    (base.takes hC 25 ∧ base.auth.mode ≠ .config)
    ∧ (config.takes hC 25 ∧ config.missing = some (.calibration 0))
    ∧ (State.takes { calibrated config with auth := { config.auth with estop := true } } hC 25
      ∧ State.missing { calibrated config with auth := { config.auth with estop := true } } = none)
    ∧ ((calibrated config).takes hC 25 ∧ (calibrated config).auth.mode = .config ∧ (calibrated config).missing = none ∧ (calibrated config).auth.estop = false)
    ∧ (base.takes hC 26) := by
  simp only [State.takes, State.reaches]
  decide +kernel

/-- An operation stalled by HOLD, one that waits and one that does neither; a transit in WAITING_NEXT, and a move in each phase that the return takes up. -/
theorem witness_ModeRequests_return :
    let held : Op := { opOf .move (some 31) .stalled with stall := some .hold }
    let mine (phase : OpPhase) : State := withOp base 0 (opOf .move (some 31) phase)
    let t (phase : MovePhase) : Transit :=
      { transitOf .moving (some (moveOf .entry 0 phase)) with ops := [{ passage := 0, purpose := .move, waterTaken := false }] }
    let shift : Move := { moveOf .shift 1 .prep with cascade := [2, 1] }
    (((withOp base 3 held).passage 3).slot = some held ∧ held.phase = .stalled ∧ held.stall = some .hold
      ∧ (base.passage 3).slot = none ∧ (opOf .manual none .waiting).phase = .waiting ∧ (opOf .manual none .flowing).phase ≠ .waiting)
    ∧ ((transitOf .waitingNext none).state = .waitingNext ∧ (t .equalise).state ≠ .waitingNext
      ∧ (t .equalise).move = some (moveOf .entry 0 .equalise) ∧ (moveOf .entry 0 .equalise).passage < 4)
    ∧ (((mine .equalised).passage 0).slot = some (opOf .move (some 31) .equalised) ∧ (opOf .move (some 31) .equalised).transit = some (t .await).id
      ∧ (∃ e ∈ (t .await).ops, e.passage = 0 ∧ e.purpose = .move) ∧ (base.passage 0).gate.state ≠ .opened)
    ∧ ((opOf .move (some 31) .waiting).phase ≠ .equalised ∧ (opOf .move (some 31) .waiting).phase ≠ .shutting)
    ∧ (((withGate base 0 .opened .atOpen).passage 0).gate.state = .opened ∧ (moveOf .exit 0 .close).phase = .close)
    ∧ (Move.blockedAt { shift with blockedAt := some 2 } = some 2 ∧ shift.blockedAt = none ∧ shift.cascade = 2 :: [1]
      ∧ (∃ x ∈ State.table { base with table := [{ transitOf .waitingNext none with held := [2] }] }, 2 ∈ x.held) ∧ base.table = []) := by
  decide +kernel

/-- A resume and a leave that no test bars. -/
theorem witness_ModeRequests_back :
    ((calibrated hold).takes hC 20 ∧ (calibrated hold).resumeBlockers = [])
    ∧ ((calibrated config).takes hC 25 ∧ (calibrated config).leaveBlockers = []) := by
  simp only [State.takes, State.reaches]
  decide +kernel

/-- Every holder and sender of CLAIM, with and without a pending claim; RELEASE and DENY with one and without. -/
theorem witness_ClaimReleaseDeny :
    (base.takes hC 21 ∧ base.auth.holder = some hC.port)
    ∧ (State.takes { base with auth := { base.auth with holder := some .region } } hC 21 ∧ hC.port = .console)
    ∧ (State.takes { hold with auth := { hold.auth with holder := none } } hR 21 ∧ hR.port = .region)
    ∧ (State.takes { base with auth := { base.auth with claim := some 9 } } hR 21 ∧ (State.auth { base with auth := { base.auth with claim := some 9 } }).holder = some .console ∧ (State.auth { base with auth := { base.auth with claim := some 9 } }).claim = some 9)
    ∧ (base.takes hR 21 ∧ base.auth.holder = some .console ∧ base.auth.claim = none)
    ∧ (State.takes { base with auth := { base.auth with claim := some 9 } } hC 22 ∧ (State.auth { base with auth := { base.auth with claim := some 9 } }).claim.isSome = true)
    ∧ (State.takes { base with auth := { base.auth with claim := some 9 } } hC 23)
    ∧ (base.takes hC 22)
    ∧ (base.takes hC 23)
    ∧ (base.reaches hT ∧ hT.lengthOk = true ∧ hT.port = .toll) := by
  simp only [State.takes, State.reaches]
  decide +kernel

/-- An undescribed flight, the first pound without a mark, and the last one. -/
theorem witness_CompletenessNamed :
    (State.reset.flight.n = none)
    ∧ (config.flight.n.isSome = true ∧ (0 ≤ config.count + 1) ∧ (config.sensor 0).calibrated = false)
    ∧ ((3 ≤ config.count + 1) ∧ ((withSensor (calibrated config) 3 (fun x => { x with calibrated := false })).sensor 3).calibrated = false
      ∧ (∀ q ∈ [0, 1, 2], ((withSensor (calibrated config) 3 (fun x => { x with calibrated := false })).sensor q).calibrated = true))
    ∧ (config.missing = some (.calibration 0)) := by decide +kernel

/-- SET_FLIGHT turned away by each of its tests, in their order, and one that passes, with a new N and with the N that stands. -/
theorem witness_SetFlightReplaces :
    let f (n : Nat) : FlightFields := { n := n, chambers := List.replicate n room, clearance := 20 }
    (base.reaches hC ∧ hC.lengthOk = true ∧ (f 3).chambers.length = (f 3).n ∧ base.admits 27 hC.port = true ∧ base.auth.mode ≠ .config)
    ∧ (config.reaches hC ∧ config.admits 27 hC.port = true ∧ config.auth.mode = .config ∧ ¬ (1 ≤ (f 0).n))
    ∧ (∀ x ∈ [room, { room with hBot := 9501 }], (100 ≤ x.area ∧ x.area ≤ 5000) ∧ x.hMax ≤ 20000 ∧ x.hBot ≤ 20000
        ∧ (200 ≤ x.usable ∧ x.usable ≤ 2500) ∧ (30 ≤ x.width ∧ x.width ≤ 300))
    ∧ ([room, { room with hBot := 9501 }] = [room] ++ { room with hBot := 9501 } :: []
      ∧ Chamber.hMax { room with hBot := 9501 } < Chamber.hBot { room with hBot := 9501 } ∧ room.hBot ≤ room.hMax)
    ∧ ((withGate config 3 .opening .between).reaches hC ∧ config.flight.n ≠ some (f 3).n
      ∧ ((withGate config 3 .opening .between).passage 3).gate.state = .opening
      ∧ (∀ j, j < 3 → (config.passage j).slot = none ∧ (config.passage j).gate.state ≠ .opening
          ∧ (config.passage j).gate.state ≠ .closing ∧ (config.passage j).sluice.state ≠ .moving))
    ∧ (config.flight.n = some (f 2).n ∧ (1 ≤ (f 3).n) ∧ (f 3).n ≤ 3)
    ∧ (∀ k, k < 4 → (config.passage k).slot = none ∧ (config.passage k).gate.state ≠ .opening
        ∧ (config.passage k).gate.state ≠ .closing ∧ (config.passage k).sluice.state ≠ .moving)
    ∧ ((polling config 4).lm.poll.isSome = true ∧ config.lm.poll = none)
    ∧ ((3 < 4) ∧ config.count < 3 ∧ (3 ≤ (f 3).n) ∧ (2 ≤ config.count) ∧ (f 1).n < 2) := by
  simp only [State.reaches]
  decide +kernel

/-- The second of two chambers with its area one above the range, the first in its ranges; a clearance one above its range. -/
theorem witness_SetFlightReplaces_ranges :
    let fits (x : Chamber) := decide ((100 ≤ x.area ∧ x.area ≤ 5000) ∧ x.hMax ≤ 20000 ∧ x.hBot ≤ 20000
      ∧ (200 ≤ x.usable ∧ x.usable ≤ 2500) ∧ (30 ≤ x.width ∧ x.width ≤ 300))
    let f : FlightFields := { n := 2, chambers := [room, { room with area := 5001 }], clearance := 51 }
    (1 ≤ f.n ∧ f.n ≤ 3 ∧ f.chambers.length = f.n)
    ∧ (f.chambers = [room] ++ { room with area := 5001 } :: [] ∧ fits { room with area := 5001 } = false ∧ fits room = true)
    ∧ (¬ f.clearance ≤ 50) := by decide +kernel

/-- A new clearance that a waiting vessel of the DOWN queue does not fit, and a new area, which changes no gauge. -/
theorem witness_SetFlightReplaces_gauge :
    let s : State := { config with reg := registered { vesselA with length := 1880 } }
    let f (clearance area : Nat) : FlightFields :=
      { n := 2, chambers := [{ room with area := area }, room], clearance := clearance }
    (s.flight.n = some (f 21 1200).n ∧ s.flight.clearance ≠ (f 21 1200).clearance
      ∧ ((s.reg.up ++ s.reg.down).filterMap s.vessel).filter (fun v =>
          !decide (v.length + 21 ≤ (s.applyFlight (f 21 1200)).minUsable ∧ v.beam ≤ (s.applyFlight (f 21 1200)).minWidth)) ≠ [])
    ∧ (s.flight.clearance = (f 20 1300).clearance ∧ (s.chamber 1).area ≠ ((s.applyFlight (f 20 1300)).chamber 1).area
      ∧ (s.chamber 1).usable = ((s.applyFlight (f 20 1300)).chamber 1).usable) := by decide +kernel

/-- A new N that waits for the poll of the first pound to end, by a value reply, by a fault reply and by its timeout. -/
theorem witness_SetFlightReplaces_reform :
    let due (s : State) : State := { s with lm := { s.lm with reformDue := true } }
    ((due (polling config 0)).pins.reset = false ∧ (due (polling config 0)).lm.reformDue = true
      ∧ (due (polling config 0)).lm.poll = some { pound := 0, left := 20 } ∧ (4095 ≤ 4095))
    ∧ ((due (pollLapsed config 0)).lm.reformDue = true ∧ (due (pollLapsed config 0)).lm.poll = some { pound := 0, left := 0 }) := by
  decide +kernel

/-- Outside CONFIG, and in it with an item at the ends of its ranges for the last pound of N = 2. -/
theorem witness_SetSensorStores :
    (base.takes hC 28 ∧ base.auth.mode ≠ .config) ∧ (config.takes hC 28 ∧ config.auth.mode = .config)
    ∧ (∀ p ∈ [0, 1, 2, 3, 4], ∀ c ∈ (Quin.set (Quin.all none) 3 (some { zero := -5000, span := 20000 } : Option Calibration)).get p,
        p ≤ config.count + 1 ∧ -5000 ≤ c.zero ∧ c.zero ≤ 15000 ∧ 1000 ≤ c.span ∧ c.span ≤ 20000) := by
  simp only [State.takes, State.reaches]
  decide +kernel

/-- An item for the first pound out of use of N = 2, an item one below its range for pound 0, and a lower still_count that makes EQUAL true. -/
theorem witness_SetSensorStores_refused :
    let item (p : Nat) (c : Calibration) : Quin (Option Calibration) := Quin.set (Quin.all none) p (some c)
    (∃ c, (item 4 { zero := 0, span := 20000 }).get 4 = some c ∧ ¬ 4 ≤ config.count + 1)
    ∧ (∀ q, q < 4 → (item 4 { zero := 0, span := 20000 }).get q = none)
    ∧ (∃ c, (item 0 { zero := -5001, span := 20000 }).get 0 = some c ∧ ¬ -5000 ≤ c.zero)
    ∧ (2 < config.lm.stillCount ∧ (1 ≤ 2)) := by
  refine ⟨⟨_, rfl, by decide⟩, by decide, ⟨_, rfl, by decide⟩, by decide⟩

/-- SET_TIMING, SET_CLOCK at and beyond its limits, and SET_TARIFF out of range, barred and accepted. -/
theorem witness_SettingsTaken :
    (base.takes hC 29)
    ∧ (base.takes hC 30 ∧ (65535 ≤ 65535) ∧ (86399 ≤ 86399) ∧ (86399 < 86400))
    ∧ (base.takes hT 31 ∧ tariffOk { Tariff.powerOn with allowance := 51 } = false)
    ∧ (tariffOk Tariff.powerOn = true ∧ base.previousRefs = 0)
    ∧ ((withTransit { base with toll := { base.toll with current := { base.toll.current with number := 1 } } } (transitOf .queued none)).takes hT 31 ∧ 0 < (withTransit { base with toll := { base.toll with current := { base.toll.current with number := 1 } } } (transitOf .queued none)).previousRefs) := by
  simp only [State.takes, State.reaches]
  decide +kernel

/-- Berths with a length, and a transit whose vessels are in the register. -/
theorem witness_WaterSharesSum :
    (0 < [870, 140].sum)
    ∧ (∀ b ∈ (transitOf .queued none).berths, ((withTransit base (transitOf .queued none)).vessel b.mark).isSome = true) := by decide +kernel

/-- Each test of OPEN_ACCOUNT and of CLOSE_ACCOUNT, and an account that passes them. -/
theorem witness_OpenAndCloseAccount :
    (base.takes hT 32 ∧ ¬ ((1 ≤ 0) ∧ (0 ≤ 65535)))
    ∧ (((1 ≤ 65535) ∧ (65535 ≤ 65535) ∧ (2000000000 ≤ 2000000000) ∧ (10000000 ≤ 10000000)) ∧ base.acc.find 65535 = none ∧ base.acc.table.length < 256)
    ∧ (banked.takes hT 32 ∧ (banked.acc.find 5).isSome = true)
    ∧ (256 ≤ (List.replicate 256 account5).length)
    ∧ (banked.takes hT 36 ∧ (5 ≠ 0) ∧ banked.acc.find 5 = some account5 ∧ account5.balance ≠ 0)
    ∧ (Account.balance { account5 with balance := 0, commitment := 1 } = 0 ∧ Account.commitment { account5 with balance := 0, commitment := 1 } ≠ 0)
    ∧ (∃ v ∈ (registered { vesselA with account := 5 }).entries, v.account = 5)
    ∧ (∀ v ∈ banked.reg.entries, v.account ≠ 5) := by
  simp only [State.takes, State.reaches]
  decide +kernel

/-- A table in rising order. -/
theorem witness_OpenAndCloseAccount_order :
    banked.takes hT 32 ∧ banked.acc.table.Pairwise (fun a b => a.number < b.number) ∧ banked.acc.find 9 = none := by
  simp only [State.takes, State.reaches]
  decide +kernel

/-- Account 0, a number not in use, an account whose limit and hold stand or change, and a limit one above its range. -/
theorem witness_AccountRequests :
    (base.takes hT 33 ∧ base.takes hT 34 ∧ base.takes hT 35 ∧ base.takes hT 36 ∧ (10000000 ≤ 10000000) ∧ (10000000 < 10000001))
    ∧ ((5 ≠ 0) ∧ base.acc.find 5 = none)
    ∧ (banked.takes hT 33 ∧ banked.acc.find 5 = some account5 ∧ account5.limit = 50 ∧ account5.limit ≠ 51)
    ∧ (banked.takes hT 34 ∧ account5.hold = false)
    ∧ (banked.takes hT 35 ∧ Account.hold { account5 with hold := true } = true)
    ∧ (account5.status = .opened ∧ Account.status { account5 with hold := true } = .blocked ∧ Account.status { account5 with number := 0 } = .opened) := by
  simp only [State.takes, State.reaches]
  decide +kernel

/-- Each test of POST_PAYMENT, and a payment that reaches the greatest balance. -/
theorem witness_PaymentPosted :
    (base.takes hT 37 ∧ base.acc.find 5 = none ∧ (1 ≤ 100000000) ∧ (100000000 < 100000001))
    ∧ (banked.takes hT 37 ∧ banked.acc.find 5 = some account5 ∧ (1 ≤ 1000))
    ∧ (2000000000 < Account.balance { account5 with balance := 1999999999 } + 2 ∧ Account.balance { account5 with balance := 1999999999 } + 1 ≤ 2000000000)
    ∧ (Accounts.margin { banked.acc with reserved := 128 } = 0 ∧ 1 ≤ banked.acc.margin) := by
  simp only [State.takes, State.reaches]
  decide +kernel

/-- A count at each limit, with an empty journal and one that holds an entry. -/
theorem witness_ChargesTaken :
    (base.takes hT 38 ∧ (8 < 9) ∧ base.acc.journal = [])
    ∧ ((1 ≤ 1) ∧ (1 ≤ 8) ∧ (8 ≤ 8))
    ∧ (Accounts.journal { base.acc with journal := [{ seq := 0, kind := .payment 5 1000, stamp := none }] } ≠ []) := by
  simp only [State.takes, State.reaches]
  decide +kernel

/-- A waiting vessel, a called one with a free slot and with none, a mark in no entry with a RESOLVED slot and without; an ill-formed mark; the mark of an orphaned slot at the last number. -/
theorem witness_QuoteAnswers :
    (State.takes { base with reg := registered vesselA } hT 39 ∧ markOk ['A'] = true ∧ State.orphans { base with reg := registered vesselA } = [] ∧ State.vessel { base with reg := registered vesselA } ['A'] = some vesselA ∧ vesselA.state = .waiting)
    ∧ ((withTransit base (transitOf .queued none)).takes hT 39 ∧ (withTransit base (transitOf .queued none)).orphans = [] ∧ (withTransit base (transitOf .queued none)).vessel ['A'] = some { vesselA with state := .called 31 57116 }
      ∧ ((withTransit base (transitOf .queued none)).acc.slotOf ['A']).or (withTransit base (transitOf .queued none)).acc.freeSlot = some 1)
    ∧ ((Accounts.slotOf { base.acc with slots := Quad.all (.pending ['B']) } ['A']).or (Accounts.freeSlot { base.acc with slots := Quad.all (.pending ['B']) }) = none)
    ∧ (base.takes hT 39 ∧ base.orphans = [] ∧ base.vessel ['A'] = none ∧ base.acc.slotOf ['A'] = none)
    ∧ (base.takes hT 39 ∧ markOk [] = false)
    ∧ (let s := { base with acc := { base.acc with slots := base.acc.slots.set 3 (.pending ['A']) } }
       s.takes hT 39 ∧ (3 < 4) ∧ s.vessel ['A'] = none ∧ s.orphans = [['A']] ∧ s.acc.slots.get 3 = .pending ['A']
        ∧ ∀ i, i < 3 → (s.acc.slots.get i).mark ≠ some ['A'])
    ∧ (Accounts.slotOf { base.acc with slots := base.acc.slots.set 3 (.resolved ['A'] .noCharge 5) } ['A'] = some 4
      ∧ (base.acc.slots.set 3 (.resolved ['A'] .noCharge 5)).get (4 - 1) = .resolved ['A'] .noCharge 5) := by
  simp only [State.takes, State.reaches]
  decide +kernel

/-- A journal whose newest charge for the mark has an older one before it and a payment behind it, and one without a charge. -/
theorem witness_QuoteAnswers_newest :
    let c : Charge :=
      { mark := ['A'], cls := .cargo, account := 0, transit := 31, generation := 0, share := 1
        parts := formParts Tariff.powerOn.cargo 850 1200 1 false, night := false, anomaly := false }
    let older : JournalEntry := { seq := 0, kind := .charge c, stamp := none }
    let newer : JournalEntry := { seq := 1, kind := .charge c, stamp := none }
    let pay : JournalEntry := { seq := 2, kind := .payment 5 1000, stamp := none }
    Accounts.journal { base.acc with journal := [older, newer, pay] } = [older] ++ newer :: [pay]
      ∧ Accounts.newestCharge { base.acc with journal := [older, newer, pay] } ['A'] = some newer
      ∧ Accounts.newestCharge { base.acc with journal := [pay] } ['A'] = none := by decide +kernel

/-- A kind of each list of the table. -/
theorem witness_RightsOfEachRole :
    40 ∈ [1, 2, 3, 4, 5, 6, 7, 8, 9, 40] ∧ 30 ∈ [10, 11, 12, 13, 14, 15, 16, 17, 20, 22, 23, 24, 25, 27, 28, 29, 30]
      ∧ 26 ∈ [18, 26] ∧ 21 ∈ [19, 21] ∧ 38 ∈ [31, 32, 33, 34, 35, 36, 37, 38] := by decide

/-- The settlement of T31 has a charge. -/
theorem witness_ChargeFormed :
    ((withTransit base (transitOf .moving (some (moveOf .exit 2 .await)))).settlement
      (transitOf .moving (some (moveOf .exit 2 .await)))).charges.length = 1 := by decide +kernel

/-- Nothing handed over; a queued head that may start and one that may not; a transit in WAITING_NEXT at an inner and at the last chamber, with the next chamber free and held. -/
theorem witness_FollowingWork :
    let next (c : Nat) : Transit := { transitOf .waitingNext none with held := [c] }
    let s := withTransit base (transitOf .queued none)
    (base.agenda = [] ∧ base.callDue = false)
    ∧ (s.arb.queue.head?.bind s.transit = some (transitOf .queued none) ∧ (transitOf .queued none).state = .queued
      ∧ s.auth.mode = .service ∧ (∀ x ∈ s.table, x.held ≠ [] → x.dir = (transitOf .queued none).dir) ∧ (∀ x ∈ s.table, 1 ∉ x.held))
    ∧ ((withTransit hold (transitOf .queued none)).auth.mode ≠ .service)
    ∧ ((withTransit base (next 1)).transit 31 = some (next 1) ∧ (next 1).state = .waitingNext ∧ (next 1).held = 1 :: []
      ∧ (1 ≠ base.count) ∧ (∀ x ∈ (withTransit base (next 1)).table, 2 ∉ x.held))
    ∧ ((withTransit base (next 2)).transit 31 = some (next 2) ∧ (2 = base.count))
    ∧ (∃ x ∈ State.table { withTransit base (next 1) with table := [next 1, { next 2 with id := 32 }] }, 2 ∈ x.held) := by
  decide +kernel

/-- The last and an inner passage of a walk, a chamber with a holder and without, records that are STALE and a check that passes; a walk that is formed and one that is blocked; a request wanted into a free slot and into one that is taken. -/
theorem witness_FollowingWork_cascade :
    let held (c : Nat) : State := { base with table := [{ transitOf .waitingNext none with held := [c] }] }
    let level := withMean (withMean base 1 3000) 2 3000
    let t := transitOf .moving (some (moveOf .entry 0 .equalise))
    (base.count = 2 ∧ (2 ≤ 3) ∧ (1 ≤ 1) ∧ (∃ x ∈ (held 2).table, 2 ∈ x.held) ∧ base.table = [])
    ∧ ((base.sensor 1).level.stale = true ∧ (level.sensor 1).level.stale = false ∧ (level.sensor 2).level.stale = false
      ∧ level.overflowPasses (level.receiver 1) (level.predictedLevel 1) = true)
    ∧ (base.walk .down 1 = .formed [1, 2] ∧ [1, 2].reverse = 2 :: [1] ∧ (held 2).walk .down 1 = .blocked 2
      ∧ base.walk .up 2 = .formed [1, 0] ∧ (held 1).walk .up 2 = .blocked 1)
    ∧ ((withTransit base t).transit 31 = some t ∧ t.move = some (moveOf .entry 0 .equalise) ∧ (0 < 4)
      ∧ (withTransit base t).auth.mode = .service ∧ t.ops = [] ∧ ((withTransit base t).passage 0).slot = none
      ∧ ((withOp (withTransit base t) 0 (opOf .manual none .flowing)).passage 0).slot.isSome = true) := by
  decide +kernel

/-- A hand-over waiting, a calling event waiting, and nothing; a report of an operation in the list and one of none, of each outcome, with a cascade that is done, that goes on and that is put back; a request owed; a move blocked at a released chamber; a waiting vessel whose account is OPEN. -/
theorem witness_FollowingWork_tasks :
    let entry (p : Purpose) : OpEntry := { passage := 0, purpose := p, waterTaken := false }
    let t (m : Option Move) (p : Purpose) : Transit := { transitOf .moving m with ops := [entry p] }
    let report (p : Purpose) (o : Outcome) : Report :=
      { transit := 31, passage := 0, purpose := p, outcome := o, predicted := 5, measured := 4, stale := false }
    let names (r : Report) (e : OpEntry) : Bool := decide (e.passage = r.passage) && decide (e.purpose = r.purpose)
    let equalise := moveOf .entry 0 .equalise
    let shift (l : List Nat) : Move := { moveOf .shift 1 .prep with cascade := l }
    (State.agenda { base with agenda := [.examineHead] } = .examineHead :: [] ∧ base.agenda = []
      ∧ State.callDue { base with callDue := true } = true ∧ base.callDue = false)
    ∧ ((withTransit base (t (some equalise) .move)).transit 31 = some (t (some equalise) .move) ∧ base.transit 31 = none
      ∧ (t none .move).ops.any (names (report .move .equalised)) = true ∧ (t none .move).ops.any (names (report .charge .done)) = false
      ∧ equalise.phase = .equalise ∧ equalise.passage = 0 ∧ base.auth.mode = .service ∧ (shift []).phase = .prep ∧ equalise.phase ≠ .prep)
    ∧ ((t (some (shift [])) .charge).ops.any (names (report .charge .aborted)) = true ∧ (shift []).cascade = []
      ∧ (shift [2, 1]).cascade = 2 :: [1] ∧ (report .charge .takenOver).outcome = .takenOver)
    ∧ (Move.owed { equalise with owed := some 0 } = some 0 ∧ Move.blockedAt { shift [] with blockedAt := some 2 } = some 2
      ∧ hold.auth.mode ≠ .service)
    ∧ (let s := { base with reg := registered vesselA }
       (∃ v ∈ s.reg.entries, v.account = 0 ∧ v.state = .waiting ∧ s.creditHeld v = false) ∧ base.reg.entries = []) := by
  decide +kernel

/-- A command outside CONFIG that answers a next state. -/
theorem witness_ConfigurationChangesInConfig :
    exec .dayClockSecond base = .next base ∧ Instr.dayClockSecond ≠ .powerOn ∧ base.auth.mode ≠ .config := ⟨rfl, by decide, by decide +kernel⟩

/-- A RESUME_SERVICE, a LEAVE_CONFIG and an ENTER_CONFIG that change the mode; a cause of SAFE_HOLD that changes it. -/
theorem witness_AuthorityKeptLegal :
    (Instr.resumeService hC ≠ .powerOn ∧ (calibrated hold).auth.mode = .safeHold
      ∧ (after (.resumeService hC) (calibrated hold)).auth.mode = .service)
    ∧ ((calibrated config).auth.mode = .config ∧ (after (.leaveConfig hC) (calibrated config)).auth.mode = .service)
    ∧ (base.auth.mode ≠ .config ∧ (after (.enterConfig hC) base).auth.mode = .config)
    ∧ ((after .estopAsserted base).auth.mode ≠ base.auth.mode ∧ Instr.estopAsserted ≠ .resetReleased
      ∧ (∀ st, Instr.estopAsserted ≠ .silenceExpiry st) ∧ Instr.estopAsserted ≠ .frameSent .console) := by
  refine ⟨?_, ?_, ?_, ?_, ?_, nofun, ?_⟩ <;> decide +kernel

/-- A transit in WAITING_NEXT that holds chamber 1, in SERVICE with N = 2. -/
def waitingAt1 : State := withTransit base { transitOf .waitingNext none with held := [1] }

/-- The invariants hold in a state with N = 2 in SERVICE that takes a step. -/
theorem witness_invariants :
    (base.auth.legal ∧ base.noticesFit ∧ base.acc.sequenced ∧ base.countLegal ∧ base.gatesApart)
    ∧ step { base with pending := [.dayClockSecond] } = .next base := by
  refine ⟨⟨by simp only [Authority.legal]; decide +kernel, ?_, ⟨by decide +kernel, 0, by decide, trivial, by decide +kernel⟩, ?_, ?_⟩, rfl⟩
  · intro st
    cases st <;> decide +kernel
  · intro n hn
    cases hn
    decide
  · intro k hk
    have hc : base.count = 2 := by decide +kernel
    have : k = 0 ∨ k = 1 := by omega
    rcases this with rfl | rfl <;> decide +kernel

/-- The transit table of that state is legal, its journal has room, and it takes a step. -/
theorem witness_transitsLegal :
    (waitingAt1.transitsLegal ∧ waitingAt1.acc.journal.length + waitingAt1.acc.reserved ≤ 128)
    ∧ step { waitingAt1 with pending := [.dayClockSecond] } = .next waitingAt1 := by
  refine ⟨⟨⟨by decide +kernel, ⟨by decide +kernel, by decide +kernel, ?_⟩, ?_, by decide +kernel, by decide +kernel,
    by decide +kernel, ?_, by decide +kernel⟩, by decide +kernel⟩, rfl⟩
  · intro id
    simp [waitingAt1, withTransit, transitOf]
  · intro t ht
    have : t = { transitOf .waitingNext none with held := [1] } := by simpa [waitingAt1, withTransit] using ht
    subst this
    exact ⟨by decide, by decide +kernel⟩
  · intro v hv id estimate h
    have : v = { vesselA with state := .called 31 57116 } := by simpa [waitingAt1, withTransit, registered] using hv
    subst this
    cases h
    exact ⟨_, List.mem_singleton.mpr rfl, rfl, by decide, berthA, List.mem_singleton.mpr rfl, rfl⟩

/-- A legal transit table with N = 2. -/
theorem witness_CommandQueueKept_table : waitingAt1.countLegal ∧ waitingAt1.transitsLegal :=
  ⟨fun n h => by cases h; decide, witness_transitsLegal.1.1⟩

/-- The chamber claims of a state with nothing claimed are legal; a manual open makes a gate OPENING, and a manual raise commands a sluice up. -/
theorem witness_GatesKeptApart :
    base.claimsLegal
    ∧ (let t := after (.manualGate hC 2 (some .openGate)) (base.setPermit 2 true)
       (base.passage 2).gate.state ≠ .opening ∧ (t.passage 2).gate.state = .opening ∧ 2 ≤ t.count)
    ∧ (let t := after (.manualSluice hC 0 3) (base.setPermit 0 true)
       (t.passage 0).sluice.commanded = some 1 ∧ (base.passage 0).sluice.commanded ≠ some 1
        ∧ (t.passage 0).sluice.position < 1) := by
  refine ⟨?_, by decide +kernel, by decide +kernel⟩
  intro c k h1 h3
  have : c = 1 ∨ c = 2 ∨ c = 3 := by omega
  have hs : ∀ j, j < 4 → (base.passage j).slot = none := by decide +kernel
  constructor
  · intro h
    rcases this with rfl | rfl | rfl <;> exact absurd h (by rw [show base.pcu.claims.get _ = none by decide +kernel]; simp)
  · rintro ⟨hk, -, o, ho, -⟩
    rw [hs k hk] at ho
    cases ho

end Sys2Proof.Tests
end

