-- ==== Sys2Proof/Proofs/Prediction.lean ====
section
/-! SUPPORT. The prediction of the Level Monitor (01 R12, R13): what each of its parts answers, for a flight of any chamber count, and the obligation about the receiving pound. -/

namespace Sys2Proof.Machine

@[simp] theorem within_eq_true {lo hi n : Nat} : within lo hi n = true ↔ lo ≤ n ∧ n ≤ hi := by
  simp only [within, Bool.and_eq_true, decide_eq_true_eq]

/-! ## The receiving pound (R13) -/

theorem State.receiver_of_above_lower {s : State} {k : Nat}
    (h : (s.sensor k).level.mean < (s.sensor (k + 1)).level.mean) : s.receiver k = some k :=
  if_pos h

theorem State.receiver_of_below_lower {s : State} {k : Nat}
    (h : (s.sensor (k + 1)).level.mean < (s.sensor k).level.mean) : s.receiver k = some (k + 1) :=
  (if_neg h.asymm).trans (if_pos h)

theorem State.receiver_of_level {s : State} {k : Nat}
    (h : (s.sensor k).level.mean = (s.sensor (k + 1)).level.mean) : s.receiver k = none :=
  (if_neg h.not_lt).trans (if_neg h.not_gt)

/-! ## The overflow check (R13) -/

/-- The check fails exactly when the receiving pound is a chamber whose `hMax` the level exceeds. -/
theorem State.overflowPassesIn_eq_false {s : State} {n p hStar : Nat} :
    s.overflowPassesIn n (some p) hStar = false ↔ (1 ≤ p ∧ p ≤ n) ∧ (s.chamber p).hMax < hStar := by
  simp only [State.overflowPassesIn, Bool.or_eq_false_iff, Bool.not_eq_false', within_eq_true,
    decide_eq_false_iff_not, Nat.not_le]

theorem State.overflowPassesIn_chamber {s : State} {n c hStar : Nat} (hc : 1 ≤ c ∧ c ≤ n) :
    s.overflowPassesIn n (some c) hStar = false ↔ (s.chamber c).hMax < hStar := by
  rw [State.overflowPassesIn_eq_false, and_iff_right hc]

/-- A reach, which is no chamber 1..N, passes at any level. -/
theorem State.overflowPassesIn_reach {s : State} {n p hStar : Nat} (hp : ¬ (1 ≤ p ∧ p ≤ n)) :
    s.overflowPassesIn n (some p) hStar = true := by
  rw [← Bool.not_eq_false, State.overflowPassesIn_eq_false]
  exact fun h => hp h.1

/-! ## The predicted level (R12) -/

theorem State.predictedLevelIn_top (s : State) (n : Nat) :
    s.predictedLevelIn n 0 = (s.sensor 0).level.mean := if_pos rfl

theorem State.predictedLevelIn_bottom {s : State} {n : Nat} (hn : 1 ≤ n) :
    s.predictedLevelIn n n = (s.sensor (n + 1)).level.mean :=
  (if_neg (Nat.ne_of_gt hn)).trans (if_pos rfl)

theorem State.predictedLevelIn_between {s : State} {n k : Nat} (hk : 1 ≤ k) (hn : k < n) :
    s.predictedLevelIn n k = weightedLevel (s.chamber k).area (s.sensor k).level.mean
      (s.chamber (k + 1)).area (s.sensor (k + 1)).level.mean :=
  (if_neg (Nat.ne_of_gt hk)).trans (if_neg (Nat.ne_of_lt hn))

/-! ## The answer (R12) -/

/-- A STALE record at either pound is answered by NO_DATA, which names the pounds whose records are STALE. -/
theorem State.predictIn_of_stale {s : State} {k : Nat} (n : Nat)
    (h : (s.sensor k).level.stale = true ∨ (s.sensor (k + 1)).level.stale = true) :
    ∃ l, s.predictIn n k = .noData l
      ∧ ∀ p, p ∈ l ↔ (p = k ∨ p = k + 1) ∧ (s.sensor p).level.stale = true := by
  refine ⟨_, if_pos (by simpa only [Bool.or_eq_true] using h), fun p => ?_⟩
  rw [List.mem_append, List.mem_ite_nil_right, List.mem_ite_nil_right, List.mem_singleton,
    List.mem_singleton]
  constructor
  · rintro (⟨hs, rfl⟩ | ⟨hs, rfl⟩)
    · exact ⟨.inl rfl, hs⟩
    · exact ⟨.inr rfl, hs⟩
  · rintro ⟨rfl | rfl, hs⟩
    · exact .inl ⟨hs, rfl⟩
    · exact .inr ⟨hs, rfl⟩

theorem State.predictIn_of_fresh {s : State} {k : Nat} (n : Nat)
    (ha : (s.sensor k).level.stale = false) (hb : (s.sensor (k + 1)).level.stale = false) :
    s.predictIn n k = .level (s.predictedLevelIn n k) (s.sensor k).level.mean
      (s.sensor (k + 1)).level.mean (s.receiver k)
      (s.overflowPassesIn n (s.receiver k) (s.predictedLevelIn n k)) :=
  if_neg (by simp [ha, hb])

/-- Settles O14: each clause is one of the rules above, at the chamber count in force. -/
theorem receivingPound : Obligations.ReceivingPound := by
  intro s k hStar above below
  refine ⟨State.predictIn_of_stale s.count, State.predictIn_of_fresh s.count,
    State.receiver_of_above_lower, State.receiver_of_below_lower, State.receiver_of_level, rfl,
    fun c hc hn => State.overflowPassesIn_chamber ⟨hc, hn⟩,
    State.overflowPassesIn_reach (by omega), State.overflowPassesIn_reach (by omega),
    State.predictedLevelIn_top s s.count, ?between, State.predictedLevelIn_bottom⟩
  case between =>
    rintro a hk hn rfl
    exact State.predictedLevelIn_between hk hn

end Sys2Proof.Machine
end

