-- ==== Sys2Proof/Proofs/TollArithmetic.lean ====
section
/-! SUPPORT. The arithmetic of the Toll Calculator (07 R133, R137, R138): the night window by the order of its two ends; the shares of a charged volume, where the ranking by remainder gives each rank to exactly one berth, so that the berths ranked below the residue are as many as its litres; the order of a settlement's charges. And the two obligations about them. -/

namespace Sys2Proof.Machine
open Finset

/-! ## The night window (R133) -/

theorem inNightWindow_of_eq {a b m : Nat} (h : a = b) : inNightWindow a b m = false := if_pos h

theorem inNightWindow_of_lt {a b m : Nat} (h : a < b) :
    inNightWindow a b m = true ↔ a ≤ m ∧ m < b := by
  rw [inNightWindow, if_neg h.ne, if_pos h, Bool.and_eq_true, decide_eq_true_iff, decide_eq_true_iff]

theorem inNightWindow_of_gt {a b m : Nat} (h : b < a) :
    inNightWindow a b m = true ↔ a ≤ m ∨ m < b := by
  rw [inNightWindow, if_neg h.ne', if_neg h.asymm, Bool.or_eq_true, decide_eq_true_iff, decide_eq_true_iff]

/-- Settles O19: the branches of the night window, under the test that the clock is set. -/
theorem nightWindow : Obligations.NightWindow := by
  intro x m start finish
  have nightNow_iff : x.nightNow = true ↔
      x.clock.isSet = true ∧ inNightWindow start finish m = true := Bool.and_eq_true_iff
  refine ⟨?minute, fun h => ?empty, fun h => ?within, fun h => ?wrapped⟩
  case minute => omega
  case empty =>
    rw [← Bool.not_eq_true, nightNow_iff, inNightWindow_of_eq h]
    exact fun hnight => Bool.false_ne_true hnight.2
  case within => rw [nightNow_iff, inNightWindow_of_lt h]
  case wrapped => rw [nightNow_iff, inNightWindow_of_gt h]

/-! ## Lists read by index -/

theorem map_getD_range (l : List Nat) : (List.range l.length).map (l.getD · 0) = l :=
  List.ext_getElem (by simp) (by simp +contextual)

theorem sum_map_range (n : Nat) (f : Nat → Nat) :
    ((List.range n).map f).sum = ∑ i ∈ range n, f i := rfl

theorem sum_eq_sum_getD (l : List Nat) : l.sum = ∑ i ∈ range l.length, l.getD i 0 := by
  rw [← sum_map_range, map_getD_range]

theorem length_filter_eq_card (l : List Nat) (p : Nat → Prop) [DecidablePred p] :
    (l.filter (fun x => decide (p x))).length = #{i ∈ range l.length | p (l.getD i 0)} := by
  conv_lhs => rw [← map_getD_range l, List.filter_map, List.length_map]
  rfl

theorem getD_map_of_lt {f : Nat → Nat} {l : List Nat} {i : Nat} (h : i < l.length) :
    (l.map f).getD i 0 = f (l.getD i 0) := by
  simp [h]

/-! ## The ranking by remainder (R138) -/

/-- The berths ranked ahead of berth `i`. -/
def berthsAhead (r : List Nat) (i : Nat) : Finset Nat :=
  {a ∈ range r.length | r.getD i 0 < r.getD a 0 ∨ (r.getD a 0 = r.getD i 0 ∧ a < i)}

theorem mem_berthsAhead {r : List Nat} {a i : Nat} :
    a ∈ berthsAhead r i ↔
      a < r.length ∧ (r.getD i 0 < r.getD a 0 ∨ (r.getD a 0 = r.getD i 0 ∧ a < i)) := by
  rw [berthsAhead, mem_filter, mem_range]

theorem rankAhead_eq_card (r : List Nat) (i : Nat) : rankAhead r i = #(berthsAhead r i) := by
  have equals : ((r.take i).filter (fun x => decide (x = r.getD i 0))).length
      = #{a ∈ range r.length | r.getD a 0 = r.getD i 0 ∧ a < i} := by
    rw [length_filter_eq_card]
    congr 1
    ext a
    simp only [List.length_take, mem_filter, mem_range, lt_min_iff]
    constructor
    · rintro ⟨⟨ha, hn⟩, h⟩
      exact ⟨hn, by simpa [List.getElem?_take, ha] using h, ha⟩
    · rintro ⟨hn, h, ha⟩
      exact ⟨⟨ha, hn⟩, by simpa [List.getElem?_take, ha] using h⟩
  rw [rankAhead, length_filter_eq_card, equals, berthsAhead, filter_or, card_union_of_disjoint]
  exact disjoint_filter.2 fun a _ hlt heq => hlt.ne' heq.1

theorem rankAhead_lt_of_mem {r : List Nat} {i j : Nat}
    (h : i ∈ berthsAhead r j) : rankAhead r i < rankAhead r j := by
  have hij := (mem_berthsAhead.1 h).2
  rw [rankAhead_eq_card, rankAhead_eq_card]
  refine card_lt_card (ssubset_iff_of_subset (fun a ha => ?_) |>.2 ⟨i, h, fun hii => ?_⟩)
  · obtain ⟨hn, hai⟩ := mem_berthsAhead.1 ha
    exact mem_berthsAhead.2 ⟨hn, by omega⟩
  · have := (mem_berthsAhead.1 hii).2
    omega

theorem rankAhead_lt_length {r : List Nat} {i : Nat} (hi : i < r.length) :
    rankAhead r i < r.length := by
  rw [rankAhead_eq_card]
  conv_rhs => rw [← card_range r.length]
  refine card_lt_card (ssubset_iff_of_subset (filter_subset _ _) |>.2 ⟨i, mem_range.2 hi, fun h => ?_⟩)
  have := (mem_berthsAhead.1 h).2
  omega

/-- No two berths have the same rank: one of them is ahead of the other. -/
theorem rankAhead_injOn (r : List Nat) : Set.InjOn (rankAhead r) (range r.length) := by
  intro i hi j hj heq
  rw [coe_range, Set.mem_Iio] at hi hj
  by_contra hne
  have : i ∈ berthsAhead r j ∨ j ∈ berthsAhead r i := by
    simp only [mem_berthsAhead, hi, hj, true_and]
    omega
  rcases this with h | h
  · exact (rankAhead_lt_of_mem h).ne heq
  · exact (rankAhead_lt_of_mem h).ne' heq

/-- The ranks are the numbers below the count of berths, each once. -/
theorem image_rankAhead (r : List Nat) : (range r.length).image (rankAhead r) = range r.length := by
  refine eq_of_subset_of_card_le (image_subset_iff.2 fun i hi => ?_) ?_
  · exact mem_range.2 (rankAhead_lt_length (mem_range.1 hi))
  · exact (card_image_of_injOn (rankAhead_injOn r)).ge

/-- As many berths rank below `k` as there are ranks below `k`. -/
theorem card_rankAhead_lt {r : List Nat} {k : Nat} (hk : k ≤ r.length) :
    #{i ∈ range r.length | rankAhead r i < k} = k :=
  calc #{i ∈ range r.length | rankAhead r i < k}
      = #(({i ∈ range r.length | rankAhead r i < k}).image (rankAhead r)) :=
        (card_image_of_injOn ((rankAhead_injOn r).mono (coe_subset.2 (filter_subset _ _)))).symm
    _ = #{m ∈ (range r.length).image (rankAhead r) | m < k} := by rw [filter_image]
    _ = #(range k) := by
        congr 1
        ext m
        rw [image_rankAhead, mem_filter, mem_range, mem_range]
        omega
    _ = k := card_range k

/-! ## The residue (R137) -/

/-- The floor shares and the remainders make up the volume, in units of the lengths' sum. -/
theorem floorShares_remainders_sum (volume : Nat) (lengths : List Nat) :
    lengths.sum * (floorShares volume lengths).sum + (shareRemainders volume lengths).sum
      = volume * lengths.sum := by
  rw [floorShares, shareRemainders, ← List.sum_map_mul_left, ← List.sum_map_add]
  simp only [Nat.div_add_mod]
  rw [List.sum_map_mul_left, List.map_id']

theorem shareRemainders_sum_le (volume : Nat) {lengths : List Nat} (h : 0 < lengths.sum) :
    (shareRemainders volume lengths).sum ≤ lengths.sum * lengths.length := by
  have := List.sum_le_card_nsmul (shareRemainders volume lengths) lengths.sum (by
    intro r hr
    obtain ⟨l, -, rfl⟩ := List.mem_map.1 hr
    exact (Nat.mod_lt _ h).le)
  rwa [smul_eq_mul, shareRemainders, List.length_map, mul_comm] at this

theorem floorShares_sum_le (volume : Nat) {lengths : List Nat} (h : 0 < lengths.sum) :
    (floorShares volume lengths).sum ≤ volume := by
  have := floorShares_remainders_sum volume lengths
  refine Nat.le_of_mul_le_mul_left (c := lengths.sum) ?_ h
  rw [mul_comm _ volume]
  omega

theorem floorShares_sum_add_residue (volume : Nat) {lengths : List Nat} (h : 0 < lengths.sum) :
    (floorShares volume lengths).sum + shareResidue volume lengths = volume :=
  Nat.add_sub_cancel' (floorShares_sum_le volume h)

/-- There is at most one litre of residue for each berth. -/
theorem shareResidue_le_length (volume : Nat) {lengths : List Nat} (h : 0 < lengths.sum) :
    shareResidue volume lengths ≤ lengths.length := by
  refine Nat.le_of_mul_le_mul_left (c := lengths.sum) ?_ h
  calc lengths.sum * shareResidue volume lengths
      = (shareRemainders volume lengths).sum := by
        have sum := floorShares_remainders_sum volume lengths
        conv_rhs at sum => rw [← floorShares_sum_add_residue volume h, mul_comm, mul_add]
        omega
    _ ≤ lengths.sum * lengths.length := shareRemainders_sum_le volume h

/-! ## The shares (R138) -/

@[simp] theorem length_floorShares (volume : Nat) (lengths : List Nat) :
    (floorShares volume lengths).length = lengths.length := List.length_map _

@[simp] theorem length_shareRemainders (volume : Nat) (lengths : List Nat) :
    (shareRemainders volume lengths).length = lengths.length := List.length_map _

@[simp] theorem length_waterShares (volume : Nat) (lengths : List Nat) :
    (waterShares volume lengths).length = lengths.length := by
  rw [waterShares, List.length_map, List.length_range]

theorem getD_shareRemainders {volume : Nat} {lengths : List Nat} {i : Nat} (h : i < lengths.length) :
    (shareRemainders volume lengths).getD i 0 = volume * lengths.getD i 0 % lengths.sum :=
  getD_map_of_lt h

theorem getD_waterShares {volume : Nat} {lengths : List Nat} {i : Nat} (h : i < lengths.length) :
    (waterShares volume lengths).getD i 0 = volume * lengths.getD i 0 / lengths.sum
      + if rankAhead (shareRemainders volume lengths) i < shareResidue volume lengths then 1 else 0 := by
  have floor : (floorShares volume lengths).getD i 0 = volume * lengths.getD i 0 / lengths.sum :=
    getD_map_of_lt h
  rw [← floor]
  simp [waterShares, h, waterShare]

theorem getD_waterShares_eq_succ_iff {volume : Nat} {lengths : List Nat} {i : Nat} (h : i < lengths.length) :
    (waterShares volume lengths).getD i 0 = volume * lengths.getD i 0 / lengths.sum + 1
      ↔ rankAhead (shareRemainders volume lengths) i < shareResidue volume lengths := by
  rw [getD_waterShares h, Nat.add_left_cancel_iff, ite_eq_left_iff]
  simp

theorem waterShares_floor_or_succ {volume : Nat} {lengths : List Nat} {i : Nat} (h : i < lengths.length) :
    (waterShares volume lengths).getD i 0 = volume * lengths.getD i 0 / lengths.sum
      ∨ (waterShares volume lengths).getD i 0 = volume * lengths.getD i 0 / lengths.sum + 1 := by
  rw [getD_waterShares h]
  split
  · exact .inr rfl
  · exact .inl rfl

/-- A berth ahead of one that is given a litre is given one too. -/
theorem waterShares_litre_of_ahead {volume : Nat} {lengths : List Nat} {i j : Nat}
    (hi : i < lengths.length) (hj : j < lengths.length)
    (hlitre : (waterShares volume lengths).getD j 0 = volume * lengths.getD j 0 / lengths.sum + 1)
    (hahead : volume * lengths.getD j 0 % lengths.sum < volume * lengths.getD i 0 % lengths.sum
      ∨ (volume * lengths.getD i 0 % lengths.sum = volume * lengths.getD j 0 % lengths.sum ∧ i < j)) :
    (waterShares volume lengths).getD i 0 = volume * lengths.getD i 0 / lengths.sum + 1 := by
  rw [getD_waterShares_eq_succ_iff hj] at hlitre
  rw [getD_waterShares_eq_succ_iff hi]
  rw [← getD_shareRemainders hi, ← getD_shareRemainders hj] at hahead
  have hmem : i ∈ berthsAhead (shareRemainders volume lengths) j :=
    mem_berthsAhead.2 ⟨hi.trans_eq (length_shareRemainders volume lengths).symm, hahead⟩
  exact (rankAhead_lt_of_mem hmem).trans hlitre

theorem sum_waterShares (volume : Nat) {lengths : List Nat} (h : 0 < lengths.sum) :
    (waterShares volume lengths).sum = volume := by
  have litres : #{i ∈ range lengths.length |
      rankAhead (shareRemainders volume lengths) i < shareResidue volume lengths}
        = shareResidue volume lengths := by
    simpa using card_rankAhead_lt (r := shareRemainders volume lengths)
      (by simpa using shareResidue_le_length volume h)
  calc (waterShares volume lengths).sum
      = ∑ i ∈ range lengths.length, waterShare volume lengths i := sum_map_range _ _
    _ = (floorShares volume lengths).sum + shareResidue volume lengths := by
        rw [← litres, sum_eq_sum_getD (floorShares volume lengths), length_floorShares, card_filter,
          ← sum_add_distrib]
        exact sum_congr rfl fun i _ => rfl
    _ = volume := floorShares_sum_add_residue volume h

/-! ## The charges of a settlement (R142) -/

theorem State.vessel_mark {s : State} {m : Mark} {v : Vessel} (h : s.vessel m = some v) : v.mark = m :=
  of_decide_eq_true (List.find?_some (p := fun v : Vessel => decide (v.mark = m)) h)

/-- The charges of berths whose vessels are all registered carry the berths' shares and marks, in order. -/
theorem charges_share_mark (s : State) (tariff : Tariff) (t : Transit) (anomaly : Bool) :
    ∀ (berths : List Berth) (shares : List Nat), shares.length = berths.length →
      (∀ b ∈ berths, (s.vessel b.mark).isSome = true) →
      let charges := (berths.zip shares).filterMap
        (fun p => (s.vessel p.1.mark).map (fun v => chargeOf tariff t anomaly v p.2))
      charges.map Charge.share = shares ∧ charges.map Charge.mark = berths.map Berth.mark
  | [], [], _, _ => ⟨rfl, rfl⟩
  | b :: berths, share :: shares, hlen, hreg => by
    obtain ⟨v, hv⟩ := Option.isSome_iff_exists.1 (hreg b List.mem_cons_self)
    obtain ⟨hshare, hmark⟩ := charges_share_mark s tariff t anomaly berths shares
      (Nat.succ.inj hlen) (fun x hx => hreg x (List.mem_cons_of_mem _ hx))
    simp only [List.zip_cons_cons, List.filterMap_cons, hv, Option.map_some, List.map_cons, hshare, hmark]
    exact ⟨rfl, congrArg (· :: _) (State.vessel_mark hv)⟩

/-- Settles O49: the sum by counting the berths that rank below the residue, which are as many as its litres; the order of the litres by the ranks of two berths, one of which is ahead of the other. -/
theorem waterSharesSum : Obligations.WaterSharesSum := by
  refine ⟨fun volume lengths hpos => ?shares, fun s t hreg => ?charges⟩
  case shares =>
    exact ⟨length_waterShares volume lengths, sum_waterShares volume hpos,
      fun i hi => waterShares_floor_or_succ hi,
      fun i j hi hj hlitre hahead => waterShares_litre_of_ahead hi hj hlitre hahead⟩
  case charges =>
    exact charges_share_mark s _ t _ t.berths _ (by rw [length_waterShares, List.length_map]) hreg

end Sys2Proof.Machine
end

