-- ==== Sys2Proof/Proofs/ChargeJournal.lean ====
section
/-! SUPPORT. The requests on the charge journal of the Toll Accounts (08 R149, R154, R160): how an account reads after it was changed, the tests and the posting of a payment, the entries taken from the journal. And the two obligations about them. -/

namespace Sys2Proof.Machine

/-! ## A request and the answer of its block (R193) -/

/-- A request that reaches its block leaves the state and the answer that the block makes of the good frame. -/
theorem State.takeRequest_of_block {h : Hdr} {kind : Nat} {block : State → State × Answer} {s t : State} {a : Answer}
    (hs : s.takes h kind) (hk : within 1 40 kind = true) (hb : block (s.heard h) = (t, a)) :
    s.takeRequest h kind block = State.replied h kind a t := by
  rw [State.takeRequest_taken h kind block s hs hk, hb]

theorem exec_postPayment_of_block {h : Hdr} {n amount : Nat} {s t : State} {a : Answer}
    (hs : s.takes h 37) (hb : State.doPostPayment n amount (s.heard h) = (t, a)) :
    exec (.postPayment h n amount) s = .next (State.replied h 37 a t) :=
  congrArg Host.Outcome.next (State.takeRequest_of_block hs rfl hb)

theorem exec_takeCharges_of_block {h : Hdr} {n : Nat} {s t : State} {a : Answer}
    (hs : s.takes h 38) (hb : State.doTakeCharges n (s.heard h) = (t, a)) :
    exec (.takeCharges h n) s = .next (State.replied h 38 a t) :=
  congrArg Host.Outcome.next (State.takeRequest_of_block hs rfl hb)

/-! ## An account after a change -/

theorem Accounts.number_of_find_table {a : Accounts} {n : Nat} {x : Account}
    (h : a.table.find? (fun y => decide (y.number = n)) = some x) : x.number = n :=
  of_decide_eq_true (List.find?_some (p := fun y : Account => decide (y.number = n)) h)

/-- A search finds the changed account, in account 0 or in the table, where the change keeps the number. -/
theorem Accounts.find_update {f : Account → Account} (hf : ∀ x, (f x).number = x.number) (n : Nat) (a : Accounts) :
    (a.update n f).find n = (a.find n).map f := by
  by_cases hn : n = 0
  · simp [Accounts.update, Accounts.find, hn]
  · have sameTest : (fun y : Account => decide (y.number = n)) ∘ (fun x => if x.number = n then f x else x)
        = fun y => decide (y.number = n) := by
      funext y
      by_cases hy : y.number = n <;> simp [hy, hf]
    simp only [Accounts.update, Accounts.find, if_neg hn, List.find?_map, sameTest]
    refine Option.map_congr fun x hx => ?_
    rw [if_pos (Accounts.number_of_find_table hx)]

@[simp] theorem Accounts.update_journal (n : Nat) (f : Account → Account) (a : Accounts) :
    (a.update n f).journal = a.journal := by
  unfold Accounts.update
  split <;> rfl

@[simp] theorem Accounts.update_nextSeq (n : Nat) (f : Account → Account) (a : Accounts) :
    (a.update n f).nextSeq = a.nextSeq := by
  unfold Accounts.update
  split <;> rfl

@[simp] theorem Accounts.find_append (kind : EntryKind) (stamp : Stamp) (a : Accounts) (n : Nat) :
    (a.append kind stamp).find n = a.find n := rfl

/-- An account whose balance is raised by an amount (R148). -/
def Account.credited (amount : Int) (a : Account) : Account := { a with balance := a.balance + amount }

theorem Accounts.credit_eq_update (n : Nat) (amount : Int) (a : Accounts) :
    a.credit n amount = a.update n (Account.credited amount) := rfl

theorem Accounts.find_credit (n : Nat) (amount : Int) (a : Accounts) :
    (a.credit n amount).find n = (a.find n).map (Account.credited amount) :=
  Accounts.find_update (f := Account.credited amount) (fun _ => rfl) n a

/-- A credit writes no entry: an entry appended behind one follows the journal as it stood. -/
theorem Accounts.append_credit (n : Nat) (amount : Int) (kind : EntryKind) (stamp : Stamp) (a : Accounts) :
    (a.credit n amount).append kind stamp
      = { a.update n (Account.credited amount) with
          journal := a.journal ++ [{ seq := a.nextSeq, kind := kind, stamp := stamp }]
          nextSeq := (a.nextSeq + 1) % 65536 } := by
  rw [Accounts.credit_eq_update, Accounts.append, Accounts.update_journal, Accounts.update_nextSeq]

/-! ## The change of status over an event (R149) -/

@[simp] theorem State.compareStatus_acc (before : Accounts) (numbers : List Nat) (s : State) :
    (State.compareStatus before numbers s).acc = s.acc := State.raiseAll_acc _ s

/-- One account is compared as it stood with how it stands. -/
theorem State.compareStatus_singleton {before : Accounts} {n : Nat} {s : State} {x y : Account}
    (hx : before.find n = some x) (hy : s.acc.find n = some y) :
    State.compareStatus before [n] s = s.raiseAll (statusNotice x y) := by
  simp [State.compareStatus, statusNotices, List.eraseDups_cons, hx, hy]

/-! ## POST_PAYMENT (R154) -/

theorem State.paymentBar_of_amount_out_of_range {amount : Nat} (h : amount = 0 ∨ 100000000 < amount) (n : Nat)
    (s : State) : s.paymentBar n amount = some .outOfRange := by
  have : ¬ within 1 100000000 amount = true := by
    rw [within_eq_true]
    omega
  simp [State.paymentBar, this]

theorem State.paymentBar_of_unknown {s : State} {n amount : Nat} (hlo : 1 ≤ amount) (hhi : amount ≤ 100000000)
    (hfind : s.acc.find n = none) : s.paymentBar n amount = some .unknown := by
  simp [State.paymentBar, hlo, hhi, hfind]

/-- On an account in use, an amount in range is tested against the greatest balance, then against the room of the journal. -/
theorem State.paymentBar_of_found {s : State} {n amount : Nat} {a : Account} (hlo : 1 ≤ amount)
    (hhi : amount ≤ 100000000) (hfind : s.acc.find n = some a) :
    s.paymentBar n amount = if 2000000000 < a.balance + amount then some .outOfRange
      else if s.acc.margin < 1 then some .journalFull else none := by
  simp [State.paymentBar, hlo, hhi, hfind, Config.maxBalance]

theorem State.doPostPayment_of_barred {s : State} {n amount : Nat} {e : Status}
    (h : s.paymentBar n amount = some e) : s.doPostPayment n amount = (s, refuse e) := by
  simp only [State.doPostPayment, h]

theorem State.doPostPayment_of_passed {s : State} {n amount : Nat} (h : s.paymentBar n amount = none) :
    s.doPostPayment n amount
      = ((s.postPayment n amount).settle, (s.postPayment n amount).paymentAnswer n s.acc.nextSeq) := by
  simp only [State.doPostPayment, h]

theorem State.postPayment_acc (n amount : Nat) (s : State) :
    (s.postPayment n amount).acc
      = (s.acc.credit n amount).append (.payment n amount) s.toll.clock.stamp := by
  simp [State.postPayment]

/-- After the posting the account of the payment stands credited. -/
theorem State.postPayment_find {s : State} {n amount : Nat} {a : Account} (hfind : s.acc.find n = some a) :
    (s.postPayment n amount).acc.find n = some (a.credited amount) := by
  rw [State.postPayment_acc, Accounts.find_append, Accounts.find_credit, hfind, Option.map_some]

theorem State.postPayment_of_found {s : State} {n amount : Nat} {a : Account} (hfind : s.acc.find n = some a) :
    s.postPayment n amount
      = State.push (.accountEvent n) (State.raiseAll (statusNotice a (a.credited amount))
          { s with acc := (s.acc.credit n amount).append (.payment n amount) s.toll.clock.stamp }) := by
  have found := State.postPayment_find (amount := amount) hfind
  rw [State.postPayment_acc] at found
  rw [State.postPayment, State.compareStatus_singleton hfind found]

theorem State.paymentAnswer_of_found {s : State} {n : Nat} {a : Account} (seq : Nat) (hfind : s.acc.find n = some a) :
    s.paymentAnswer n seq = accept (.payment a.balance a.status seq) := by
  simp only [State.paymentAnswer, hfind]

/-- Settles O52: each refusal is the test that bars the payment; an accepted one is posted, and the reply reads the account as the posting leaves it. -/
theorem paymentPosted : Obligations.PaymentPosted := by
  intro h n amount s hs u refused
  have barred {e : Status} (hbar : u.paymentBar n amount = some e) : refused e :=
    exec_postPayment_of_block hs (State.doPostPayment_of_barred hbar)
  refine ⟨fun hout => barred (State.paymentBar_of_amount_out_of_range hout n u), fun hlo hhi =>
    ⟨fun hnone => barred (State.paymentBar_of_unknown hlo hhi hnone), fun a hfind => ?_⟩⟩
  have found : u.acc.find n = some a := hfind
  have tests := State.paymentBar_of_found hlo hhi found
  refine ⟨fun hover => ?overBalance, fun hfits hfull => ?journalFull, fun hfits hroom => ?accepted⟩
  case overBalance => exact barred (tests.trans (if_pos hover))
  case journalFull =>
    have noRoom : u.acc.margin < 1 := Nat.lt_one_iff.2 hfull
    exact barred (tests.trans ((if_neg hfits.not_gt).trans (if_pos noRoom)))
  case accepted =>
    have room : ¬ u.acc.margin < 1 := Nat.not_lt.2 hroom
    have passed := tests.trans ((if_neg hfits.not_gt).trans (if_neg room))
    refine exec_postPayment_of_block hs ((State.doPostPayment_of_passed passed).trans ?_)
    rw [State.paymentAnswer_of_found _ (State.postPayment_find found), State.postPayment_of_found found,
      Accounts.append_credit]
    rfl

/-! ## TAKE_CHARGES (R160) -/

theorem State.doTakeCharges_of_count_out_of_range {n : Nat} (h : n = 0 ∨ 8 < n) (s : State) :
    s.doTakeCharges n = (s, refuse .outOfRange) := by
  have : ¬ within 1 8 n = true := by
    rw [within_eq_true]
    omega
  simp [State.doTakeCharges, this]

/-- A count in range takes that many entries off the head; the calling event follows where one was taken. -/
theorem State.doTakeCharges_of_count_in_range {n : Nat} (hlo : 1 ≤ n) (hhi : n ≤ 8) (s : State) :
    s.doTakeCharges n
      = (State.when (!(s.acc.journal.take n).isEmpty) (fun x => x.calling.settle) { s with acc := s.acc.takeEntries n },
        accept (.taken (s.acc.journal.take n) (s.acc.journal.length - n) s.acc.nextSeq)) := by
  simp [State.doTakeCharges, hlo, hhi, Accounts.takeEntries]

theorem Accounts.takeEntries_of_empty {a : Accounts} (h : a.journal = []) (n : Nat) : a.takeEntries n = a := by
  rw [Accounts.takeEntries, h, List.drop_nil, ← h]

/-- Settles O53: an empty journal has nothing to take, and a count of 1 or more takes an entry of any other. -/
theorem chargesTaken : Obligations.ChargesTaken := by
  intro h n s hs u t answer
  refine ⟨fun hout => ?outOfRange, fun hlo hhi hempty => ?nothingLeft, fun hlo hhi hne => ?someLeft⟩
  case outOfRange => exact exec_takeCharges_of_block hs (State.doTakeCharges_of_count_out_of_range hout u)
  case nothingLeft =>
    have noneTaken : (!(u.acc.journal.take n).isEmpty) = false := by simp [u, hempty]
    have kept : u.acc.takeEntries n = u.acc := Accounts.takeEntries_of_empty hempty n
    refine exec_takeCharges_of_block hs ((State.doTakeCharges_of_count_in_range hlo hhi u).trans ?_)
    rw [noneTaken, State.when_false, kept]
    rfl
  case someLeft =>
    have someTaken : (!(u.acc.journal.take n).isEmpty) = true := by
      simp [u, hne, Nat.ne_of_gt hlo]
    refine exec_takeCharges_of_block hs ((State.doTakeCharges_of_count_in_range hlo hhi u).trans ?_)
    rw [someTaken, State.when_true]
    rfl

end Sys2Proof.Machine
end

