-- ==== Sys2Proof/Proofs/Claims.lean ====
section
/-! SUPPORT. The requests that move command authority (09 R179, R180, R181): what CLAIM, RELEASE and DENY make of each holder and of a pending claim, and the obligation about them. -/

namespace Sys2Proof.Machine

/-! ## A request and the answer of its block (R193) -/

theorem exec_claim_of_block {h : Hdr} {s t : State} {a : Answer}
    (hs : s.takes h 21) (hb : State.doClaim h.port (s.heard h) = (t, a)) :
    exec (.claim h) s = .next (State.replied h 21 a t) :=
  congrArg Host.Outcome.next (State.takeRequest_of_block hs rfl hb)

theorem exec_release_of_block {h : Hdr} {s t : State} {a : Answer}
    (hs : s.takes h 22) (hb : State.doRelease (s.heard h) = (t, a)) :
    exec (.release h) s = .next (State.replied h 22 a t) :=
  congrArg Host.Outcome.next (State.takeRequest_of_block hs rfl hb)

theorem exec_deny_of_block {h : Hdr} {s t : State} {a : Answer}
    (hs : s.takes h 23) (hb : State.doDeny (s.heard h) = (t, a)) :
    exec (.deny h) s = .next (State.replied h 23 a t) :=
  congrArg Host.Outcome.next (State.takeRequest_of_block hs rfl hb)

/-- TOLL has no right to a CLAIM (R194). -/
theorem State.admits_claim_of_toll (s : State) : s.admits 21 .toll = false := rfl

/-- A CLAIM that reaches its block is from a command station. -/
theorem State.takes.port_ne_toll {h : Hdr} {s : State} (hs : s.takes h 21) : h.port ≠ .toll := by
  intro htoll
  obtain ⟨-, -, hadmits⟩ := hs
  rw [htoll, s.admits_claim_of_toll] at hadmits
  cases hadmits

/-! ## The replies of the Authority Controller (R186; log 45) -/

/-- No reply but PENDING tells a time left. -/
theorem State.authorityAnswer_of_ne_pending {status : Status} (h : status ≠ .pending) (d : Detail) (s : State) :
    s.authorityAnswer status d = { status := status, body := .authority s.auth.mode s.auth.holder none d } := by
  rw [State.authorityAnswer, if_neg h]

theorem State.authorityAnswer_pending (d : Detail) (s : State) :
    s.authorityAnswer .pending d
      = { status := .pending, body := .authority s.auth.mode s.auth.holder s.auth.claim d } := by
  rw [State.authorityAnswer, if_pos rfl]

/-- A request that is accepted with OK is told the mode and the holder. -/
theorem State.acceptAuthority_ok (s : State) :
    s.acceptAuthority .ok = (s, { status := .ok, body := .authority s.auth.mode s.auth.holder none .nothing }) :=
  congrArg (s, ·) (s.authorityAnswer_of_ne_pending (by decide) .nothing)

theorem State.acceptAuthority_pending (s : State) :
    s.acceptAuthority .pending
      = (s, { status := .pending, body := .authority s.auth.mode s.auth.holder s.auth.claim .nothing }) :=
  congrArg (s, ·) (s.authorityAnswer_pending .nothing)

/-- A request refused with WRONG_STATE is told the mode and the holder. -/
theorem State.refuseAuthority_wrongState (s : State) :
    s.refuseAuthority .wrongState .nothing
      = (s, { status := .wrongState, body := .authority s.auth.mode s.auth.holder none .nothing }) :=
  congrArg (s, ·) (s.authorityAnswer_of_ne_pending (by decide) .nothing)

/-- After a change of holder the reply carries the new holder and the mode as it stood. -/
theorem State.acceptAuthority_ok_setHolder (holder : Option Station) (cause : AuthorityCause)
    (outcome : Option ClaimOutcome) (s : State) :
    (s.setHolder holder cause outcome).acceptAuthority .ok
      = (s.setHolder holder cause outcome,
        { status := .ok, body := .authority s.auth.mode holder none .nothing }) :=
  (s.setHolder holder cause outcome).acceptAuthority_ok

/-! ## CLAIM (R179, R180) -/

/-- A command station that holds authority keeps it. -/
theorem State.doClaim_of_holder {st : Station} (s : State) (hcommand : st ≠ .toll)
    (hholder : s.auth.holder = some st) : s.doClaim st = s.acceptAuthority .ok := by
  cases st with
  | console => exact if_pos hholder
  | region => simp only [State.doClaim, State.claimRegion, hholder]
  | toll => exact absurd rfl hcommand

theorem State.doClaim_console_of_not_holder (s : State) (hholder : s.auth.holder ≠ some .console) :
    s.doClaim .console = (s.setHolder (some .console) .claim none).acceptAuthority .ok :=
  if_neg hholder

theorem State.doClaim_region_of_no_holder (s : State) (hholder : s.auth.holder = none) :
    s.doClaim .region = (s.setHolder (some .region) .claim none).acceptAuthority .ok := by
  simp only [State.doClaim, State.claimRegion, hholder]

/-- Where CONSOLE holds, a claim that stands is left as it is. -/
theorem State.doClaim_region_of_pending (s : State) (hholder : s.auth.holder = some .console)
    (hclaim : s.auth.claim.isSome = true) : s.doClaim .region = s.acceptAuthority .pending := by
  simp only [State.doClaim, State.claimRegion, hholder, if_pos hclaim]

/-- Where CONSOLE holds and no claim stands, one is lodged. -/
theorem State.doClaim_region_of_no_claim (s : State) (hholder : s.auth.holder = some .console)
    (hclaim : s.auth.claim = none) : s.doClaim .region = s.lodgeClaim.acceptAuthority .pending := by
  simp [State.doClaim, State.claimRegion, hholder, hclaim]

/-! ## RELEASE and DENY (R181) -/

theorem State.doRelease_of_claim (s : State) (hclaim : s.auth.claim.isSome = true) :
    s.doRelease = (s.setHolder (some .region) .release (some .granted)).acceptAuthority .ok :=
  if_pos hclaim

theorem State.doDeny_of_claim (s : State) (hclaim : s.auth.claim.isSome = true) :
    s.doDeny = (s.setHolder s.auth.holder .claim (some .denied)).acceptAuthority .ok :=
  if_pos hclaim

theorem State.doRelease_of_no_claim (s : State) (hclaim : s.auth.claim = none) :
    s.doRelease = s.refuseAuthority .wrongState .nothing := by
  simp [State.doRelease, hclaim]

theorem State.doDeny_of_no_claim (s : State) (hclaim : s.auth.claim = none) :
    s.doDeny = s.refuseAuthority .wrongState .nothing := by
  simp [State.doDeny, hclaim]

/-! ## The obligation -/

/-- Settles O43: a CLAIM that reaches its block by the claimant, the holder and the pending claim, one of TOLL by its missing right, RELEASE and DENY by the pending claim. -/
theorem claimReleaseDeny : Obligations.ClaimReleaseDeny := by
  refine ⟨fun h s hs => ?claim, fun h s hs hlen htoll => ?claimOfToll, fun h s => ?answerToClaim⟩
  case claim =>
    intro u granted answer
    refine ⟨fun hholder => ?kept, fun hport hholder => ?grantedToConsole, fun hport hholder => ?grantedToRegion,
      fun left hport hholder hclaim => ?stillPending, fun hport hholder hclaim => ?lodged⟩
    case kept =>
      have block : u.doClaim h.port = (u, answer .ok (some h.port) none) := by
        rw [u.doClaim_of_holder hs.port_ne_toll hholder, State.acceptAuthority_ok, ← hholder]
        rfl
      exact exec_claim_of_block hs block
    case grantedToConsole =>
      have block : u.doClaim h.port = (u.setHolder (some h.port) .claim none, answer .ok (some .console) none) := by
        rw [hport]
        exact (u.doClaim_console_of_not_holder hholder).trans (u.acceptAuthority_ok_setHolder ..)
      exact exec_claim_of_block hs block
    case grantedToRegion =>
      have block : u.doClaim h.port = (u.setHolder (some h.port) .claim none, answer .ok (some .region) none) := by
        rw [hport]
        exact (u.doClaim_region_of_no_holder hholder).trans (u.acceptAuthority_ok_setHolder ..)
      exact exec_claim_of_block hs block
    case stillPending =>
      have hsome : u.auth.claim.isSome = true := Option.isSome_iff_exists.2 ⟨left, hclaim⟩
      have block : u.doClaim h.port = (u, answer .pending (some .console) (some left)) := by
        rw [hport, u.doClaim_region_of_pending hholder hsome, State.acceptAuthority_pending, ← hclaim, ← hholder]
        rfl
      exact exec_claim_of_block hs block
    case lodged =>
      have block : u.doClaim h.port
          = (u.lodgeClaim, answer .pending (some .console) (some (s.timing.handover * 1000))) := by
        rw [hport, u.doClaim_region_of_no_claim hholder hclaim, State.acceptAuthority_pending, ← hholder]
        rfl
      exact exec_claim_of_block hs block
  case claimOfToll =>
    have noRight : s.admits 21 h.port = false := by rw [htoll, s.admits_claim_of_toll]
    have goodForm : (h.lengthOk && within 1 40 21) = true := by rw [hlen]; rfl
    have refused : s.turnAway 21 .notAuthorised
        = { status := .notAuthorised, body := .authority s.auth.mode s.auth.holder none .nothing } :=
      s.authorityAnswer_of_ne_pending (by decide) .nothing
    rw [← refused]
    exact congrArg Host.Outcome.next (State.takeRequest_noRight h 21 (State.doClaim h.port) s hs goodForm noRight)
  case answerToClaim =>
    intro u answer
    refine ⟨fun hs hclaim => ?released, fun hs hclaim => ?denied, fun hs hclaim => ?noneToRelease,
      fun hs hclaim => ?noneToDeny⟩
    case released =>
      exact exec_release_of_block hs ((u.doRelease_of_claim hclaim).trans (u.acceptAuthority_ok_setHolder ..))
    case denied =>
      exact exec_deny_of_block hs ((u.doDeny_of_claim hclaim).trans (u.acceptAuthority_ok_setHolder ..))
    case noneToRelease =>
      exact exec_release_of_block hs ((u.doRelease_of_no_claim hclaim).trans u.refuseAuthority_wrongState)
    case noneToDeny =>
      exact exec_deny_of_block hs ((u.doDeny_of_no_claim hclaim).trans u.refuseAuthority_wrongState)

end Sys2Proof.Machine
end

