-- ==== Sys2Proof/Proofs/Subscriptions.lean ====
section
/-! SUPPORT. The subscriptions of the ports (10 R198, R199, R200): how a port acts on a notice by its subscription for the notice's class, and what SUBSCRIBE makes of the subscriptions of its port. And the two obligations about them. -/

namespace Sys2Proof.Machine

/-! ## The subscriptions of a port -/

theorem Subs.get_set (x : Subs) (c d : NoticeClass) (v : Sub) :
    (x.set c v).get d = if d = c then v else x.get d := by
  cases c <;> cases d <;> rfl

@[simp] theorem Subs.get_set_same (x : Subs) (c : NoticeClass) (v : Sub) : (x.set c v).get c = v :=
  (x.get_set c c v).trans (if_pos rfl)

theorem Subs.get_set_other (x : Subs) {c d : NoticeClass} (v : Sub) (h : d ≠ c) : (x.set c v).get d = x.get d :=
  (x.get_set c d v).trans (if_neg h)

/-! ## A notice at a queue (R200) -/

theorem Port.place_of_room {p : Port} (h : p.queue.length < 16) (n : Notice) :
    p.place n = { p with queue := p.queue ++ [n] } := if_pos h

theorem Port.place_of_full {p : Port} (h : 16 ≤ p.queue.length) (n : Notice) :
    p.place n = { p with lost := true } := if_neg (Nat.not_lt.2 h)

/-! ## A notice at a port (R198) -/

theorem Port.offer_of_off {p : Port} {n : Notice} (h : p.subs.get n.cls = .off) : p.offer n = p := by
  rw [Port.offer, h]

theorem Port.offer_of_each {p : Port} {n : Notice} (h : p.subs.get n.cls = .each) : p.offer n = p.place n := by
  rw [Port.offer, h]

/-- A notice placed under ONCE turns the subscription OFF. -/
theorem Port.offer_of_once_of_room {p : Port} {n : Notice} (h : p.subs.get n.cls = .once)
    (room : p.queue.length < 16) :
    p.offer n = { p with queue := p.queue ++ [n], subs := p.subs.set n.cls .off } := by
  rw [Port.offer, h]
  exact (if_pos room).trans (by rw [Port.place_of_room room])

/-- A notice dropped under ONCE leaves the subscription at ONCE. -/
theorem Port.offer_of_once_of_full {p : Port} {n : Notice} (h : p.subs.get n.cls = .once)
    (full : 16 ≤ p.queue.length) : p.offer n = p.place n := by
  rw [Port.offer, h]
  exact if_neg (Nat.not_lt.2 full)

/-- A port that wants the notice but has no room marks it as lost. -/
theorem Port.offer_of_full {p : Port} {n : Notice} (wanted : p.subs.get n.cls ≠ .off)
    (full : 16 ≤ p.queue.length) : p.offer n = { p with lost := true } := by
  have dropped : p.offer n = p.place n := by
    cases h : p.subs.get n.cls with
    | off => exact absurd h wanted
    | each => exact Port.offer_of_each h
    | once => exact Port.offer_of_once_of_full h full
  rw [dropped, Port.place_of_full full]

theorem State.raise_port (n : Notice) (s : State) (st : Station) :
    (s.raise n).ports.get st = (s.ports.get st).offer n := Ports.get_map (Port.offer n) s.ports st

/-- Settles O23: each port is offered the notice on its own, so the clauses are the cases of its subscription and of the room in its queue. -/
theorem noticeOffered : Obligations.NoticeOffered := by
  intro n s st p q
  have offered : q = p.offer n := s.raise_port n st
  rw [offered]
  refine ⟨Port.offer_of_off, fun each room => ?each, fun once room => ?once, Port.offer_of_full, fun _ => rfl⟩
  case each => rw [Port.offer_of_each each, Port.place_of_room room]
  case once =>
    rw [Port.offer_of_once_of_room once room]
    exact ⟨rfl, rfl, p.subs.get_set_same n.cls .off, fun c hc => p.subs.get_set_other .off hc⟩

/-! ## The settings of a SUBSCRIBE (R199) -/

theorem Sub.apply_eq (setting : Nat) (x : Sub) :
    x.apply setting = if setting = 0 then .off else if setting = 1 then .each else if setting = 2 then .once else x := by
  match setting with
  | 0 => rfl
  | 1 => rfl
  | 2 => rfl
  | _ + 3 => simp [Sub.apply]

theorem State.doSubscribe_of_setting_above {l : List Nat} (h : ∃ n ∈ l, 3 < n) (st : Station) (s : State) :
    s.doSubscribe st l = (s, refuse .badRequest) := if_pos (by simpa using h)

theorem State.doSubscribe_of_settings_in_range {l : List Nat} (h : ∀ n ∈ l, n ≤ 3) (st : Station) (s : State) :
    s.doSubscribe st l =
      (s.setPort st (fun p => { p with subs := p.subs.apply l }),
        accept (.subscriptions ((s.ports.get st).subs.apply l))) := by
  have noneAbove : ¬ l.any (fun n => decide (3 < n)) = true := by simpa using h
  rw [State.doSubscribe, if_neg noneAbove]
  simp [State.setPort]

/-! ## SUBSCRIBE (R193, R194, R199) -/

/-- Every station has the right to a SUBSCRIBE (R194). -/
theorem State.admits_subscribe (s : State) (st : Station) : s.admits 40 st = true := rfl

/-- With eight settings the length is as good as the header says (R193). -/
theorem exec_subscribe_of_eight {l : List Nat} (hl : l.length = 8) (h : Hdr) (s : State) :
    exec (.subscribe h l) s = .next (s.takeRequest h 40 (State.doSubscribe h.port l)) := by
  have sameLength : (h.lengthOk && subscribeWf l) = h.lengthOk := by simp [subscribeWf, hl]
  exact congrArg (fun ok => Host.Outcome.next (s.takeRequest { h with lengthOk := ok } 40 (State.doSubscribe h.port l)))
    sameLength

theorem exec_subscribe_of_block {h : Hdr} {l : List Nat} {s t : State} {a : Answer} (hs : s.reaches h)
    (hok : h.lengthOk = true) (hl : l.length = 8) (hb : State.doSubscribe h.port l (s.heard h) = (t, a)) :
    exec (.subscribe h l) s = .next (State.replied h 40 a t) := by
  have taken : s.takes h 40 := ⟨hs, hok, s.admits_subscribe h.port⟩
  rw [exec_subscribe_of_eight hl, State.takeRequest_of_block taken rfl hb]

/-- Settles O28: a SUBSCRIBE of eight settings always reaches the block, which refuses it whole or sets each class of its port by its own setting. -/
theorem subscribeSets : Obligations.SubscribeSets := by
  intro h l s hs hok hl p applied subs
  have applies : p.subs.apply l = subs := by
    simp only [Subs.apply, Sub.apply_eq]
    rfl
  refine ⟨fun above => ?refused, fun inRange => ?taken⟩
  case refused => exact exec_subscribe_of_block hs hok hl (State.doSubscribe_of_setting_above above h.port (s.heard h))
  case taken =>
    rw [← applies]
    exact exec_subscribe_of_block hs hok hl (State.doSubscribe_of_settings_in_range inRange h.port (s.heard h))

end Sys2Proof.Machine
end

