-- ==== Sys2Proof/Proofs/Completeness.lean ====
section
/-! SUPPORT. The completeness of the configuration (11 R208): the pound that is named as missing is the lowest in use without its mark, and the item that is missing bars LEAVE_CONFIG and RESUME. And the obligation about them. -/

namespace Sys2Proof.Machine

/-! ## The first item missing (R208) -/

@[simp] theorem State.mem_poundsInUse {s : State} {p : Nat} : p ∈ s.poundsInUse ↔ p ≤ s.count + 1 :=
  List.mem_range.trans Nat.lt_succ_iff

theorem State.missing_of_no_flight {s : State} (h : s.flight.n = none) : s.missing = some .flight := by
  rw [missing, h]

theorem State.missing_of_flight {s : State} (h : s.flight.n.isSome = true) :
    s.missing = (s.poundsInUse.find? (fun p => !(s.sensor p).calibrated)).map .calibration := by
  obtain ⟨n, hn⟩ := Option.isSome_iff_exists.mp h
  rw [missing, hn]

theorem State.missing_eq_none_iff (s : State) :
    s.missing = none ↔ s.flight.n.isSome = true ∧ ∀ p, p ≤ s.count + 1 → (s.sensor p).calibrated = true := by
  cases hn : s.flight.n with
  | none => simp [s.missing_of_no_flight hn]
  | some n =>
    have described : s.flight.n.isSome = true := by simp [hn]
    simp [s.missing_of_flight described]

theorem State.missing_eq_calibration {s : State} {p : Nat} (described : s.flight.n.isSome = true)
    (inUse : p ≤ s.count + 1) (unmarked : (s.sensor p).calibrated = false)
    (lowest : ∀ q, q < p → (s.sensor q).calibrated = true) : s.missing = some (.calibration p) := by
  have found : s.poundsInUse.find? (fun q => !(s.sensor q).calibrated) = some p :=
    List.find?_range_eq_some.mpr ⟨by simp [unmarked], mem_poundsInUse.mpr inUse, fun q hq => by simp [lowest q hq]⟩
  rw [missing_of_flight described, found]
  rfl

/-! ## The tests that the missing item fails (R172, R177, R186) -/

theorem State.mem_incompleteBlockers {s : State} {item : ConfigItem} (h : s.missing = some item) :
    .incomplete item ∈ s.incompleteBlockers := by
  simp [incompleteBlockers, h]

theorem State.mem_leaveBlockers_of_missing {s : State} {item : ConfigItem} (h : s.missing = some item) :
    .incomplete item ∈ s.leaveBlockers :=
  List.mem_append_left _ (List.mem_append_right _ (mem_incompleteBlockers h))

theorem State.mem_resumeBlockers_of_missing {s : State} {item : ConfigItem} (h : s.missing = some item) :
    .incomplete item ∈ s.resumeBlockers := by
  simp [resumeBlockers, mem_incompleteBlockers h]

theorem State.blockers_of_config {s : State} (h : s.auth.mode = .config) : s.blockers = s.leaveBlockers := if_pos h

/-- Settles O44: the pounds in use are searched from pound 0 up, so the pound named is the lowest without its mark, and the search names none just when every mark is set. -/
theorem completenessNamed : Obligations.CompletenessNamed := by
  refine fun s => ⟨s.missing_eq_none_iff, State.missing_of_no_flight,
    fun p described inUse unmarked lowest => State.missing_eq_calibration described inUse unmarked lowest,
    fun item absent => ?barred⟩
  case barred =>
    have barsLeave : .incomplete item ∈ s.leaveBlockers := State.mem_leaveBlockers_of_missing absent
    exact ⟨barsLeave, State.mem_resumeBlockers_of_missing absent, rfl,
      fun config => (State.blockers_of_config config).symm ▸ barsLeave⟩

end Sys2Proof.Machine
end

