-- ==== Sys2Proof/Proofs/CommandOutcomes.lean ====
section
/-! SUPPORT. What a command can do, said once: the state that a request's block leaves (R193), the work of each field and timer event, and the state that any command leaves. Every invariant of a step is a case split on these. -/

namespace Sys2Proof.Machine

/-! ## What the block of a request leaves -/

/-- The states that the block of a request may leave, with the tests that it has passed. -/
inductive Serves (st : Station) (s : State) : Request → State → Prop
  | unchanged (r : Request) : Serves st s r s
  | lostCleared : Serves st s .status (s.setPort st (fun p => { p with lost := false }))
  | subscribed (l : List Nat) : Serves st s (.subscribe l) (s.setPort st (fun p => { p with subs := p.subs.apply l }))
  | announced (mark : Mark) (dir : Option Direction) (p : Particulars) (v : Vessel) (n : Notice)
      (waiting : v.state = .waiting) :
      Serves st s (.announce mark dir p) (((s.enterVessel v).raise n).calling).settle
  | amended (mark : Mark) (p : Particulars) (m : Mark) (v : Vessel) (b : Bool) (n : Notice)
      (waiting : v.state = .waiting) :
      Serves st s (.amend mark p) (((s.setVessel m (fun _ => v)).when b State.calling).raise n).settle
  | withdrawn (mark : Mark) (v : Vessel) : Serves st s (.withdraw mark) (s.withdrawWaiting .withdraw v)
  | berthDropped (mark : Mark) (v : Vessel) (t : Transit) (id estimate : Nat) (found : s.vessel mark = some v)
      (called : v.state = .called id estimate) (known : s.transit id = some t) (queued : t.state = .queued) :
      Serves st s (.withdraw mark) (s.withdrawCalled v t).settle
  | autoSwitched (on : Option Bool) (b : Bool) : Serves st s (.autoCall on) (s.switchAuto b).settle
  | overflowed (dir : Option Direction) (marks : List Mark) (n : Notice) :
      Serves st s (.planTransit dir marks) (s.raise n)
  | planned (dir : Option Direction) (d : Direction) (marks : List Mark) (passed : s.planBar d marks = none)
      (room : s.arb.queue.length < Config.transitQueueSize) :
      Serves st s (.planTransit dir marks) (s.createTransit d .plan (s.planBerths marks)).settle
  | queuedCancelled (id : Nat) (t : Transit) (known : s.transit id = some t) (queued : t.state = .queued)
      (mode : s.auth.mode ≠ .config) : Serves st s (.cancelTransit id) (s.cancelQueued t).settle
  | entryCancelled (id : Nat) (t : Transit) (m : Move) (known : s.transit id = some t) (entry : t.inEntry = some m)
      (service : s.inService = true) : Serves st s (.cancelTransit id) (s.cancelEntry t m).settle
  | confirmed (id : Nat) (kind : Option ConfirmKind) (t : Transit) (m : Move) (known : s.transit id = some t)
      (current : t.move = some m) (awaits : m.phase = .await) (passing : m.kind ≠ .exit) :
      Serves st s (.confirm id kind) (s.takeConfirmation t m).settle
  | cleared (id : Nat) (kind : Option ConfirmKind) (t : Transit) (m : Move) (known : s.transit id = some t)
      (current : t.move = some m) (awaits : m.phase = .await) (leaving : m.kind = .exit) :
      Serves st s (.confirm id kind) ((s.takeConfirmation t m).settleWith t (s.settlement t)).settle
  | abandoned (id : Nat) (t : Transit) (known : s.transit id = some t)
      (held : t.state = .moving ∨ t.state = .waitingNext) (mode : s.auth.mode = .safeHold) :
      Serves st s (.abandonTransit id) (s.abandonTransit t).settle
  | retried (k : Nat) (use : s.inUse k = true) : Serves st s (.retryLevel k) (s.returnToWaiting k).settle
  | gateOpened (k : Nat) (a : Option GateAction) (use : s.inUse k = true) (may : s.mayOpen k = true) :
      Serves st s (.manualGate k a) (s.commandOpen true k).settle
  | gateClosed (k : Nat) (a : Option GateAction) (use : s.inUse k = true) :
      Serves st s (.manualGate k a) (s.commandClose true k).settle
  | gateStopped (k : Nat) (a : Option GateAction) (use : s.inUse k = true) :
      Serves st s (.manualGate k a) (s.stopGate k).settle
  | sluiceShut (k p : Nat) (use : s.inUse k = true) : Serves st s (.manualSluice k p) (s.manualShut k).settle
  | sluiceRaised (k p : Nat) (use : s.inUse k = true) : Serves st s (.manualSluice k p) (s.manualRaise k p).settle
  | permitted (k : Nat) (a : Option PermitAction) (x : PermitAction) (use : s.inUse k = true) :
      Serves st s (.visualEqual k a) (s.visualEqual k x).settle
  | stopped : Serves st s .emergencyStop (s.enterSafeHold (.emergencyStop st)).settle
  | resumed (passed : s.resumeBlockers = []) : Serves st s .resumeService (s.enterService .resumeService).settle
  | claimed (x : Station) (command : x ≠ .toll) : Serves st s .claim (s.setHolder (some x) .claim none)
  | lodged (holder : s.auth.holder = some .console) : Serves st s .claim s.lodgeClaim
  | released (lodged : s.auth.claim.isSome = true) :
      Serves st s .release (s.setHolder (some .region) .release (some .granted))
  | denied (lodged : s.auth.claim.isSome = true) :
      Serves st s .deny (s.setHolder s.auth.holder .claim (some .denied))
  | configured (passed : s.configBar = none) : Serves st s .enterConfig s.enterConfigMode.settle
  | left (passed : s.leaveBlockers = []) : Serves st s .leaveConfig (s.enterService .leaveConfig).settle
  | flightSet (f : FlightFields) (passed : s.flightBar f = none) : Serves st s (.setFlight f) (s.applyFlight f).settle
  | sensorSet (f : SensorFields) (passed : s.sensorBar f = none) : Serves st s (.setSensor f) (s.applySensor f).settle
  | timingSet (x : Timing) : Serves st s (.setTiming x) { s with timing := clampTiming x }
  | clockSet (day sec : Nat) :
      Serves st s (.setClock day sec) { s with toll := { s.toll with clock := DayClock.loaded day sec } }
  | tariffSet (x : Tariff) : Serves st s (.setTariff x) (s.applyTariff x)
  | accountOpened (n credit limit : Nat) : Serves st s (.openAccount n credit limit) (s.openAccount n credit limit)
  | accountHeld (r : Request) (n : Nat) (f : Account → Account) : Serves st s r (s.changeAccount n f)
  | accountChanged (r : Request) (n : Nat) (f : Account → Account) :
      Serves st s r ((s.changeAccount n f).push (.accountEvent n)).settle
  | accountClosed (n : Nat) : Serves st s (.closeAccount n) (s.freeAccount n)
  | paid (n amount : Nat) (passed : s.paymentBar n amount = none) :
      Serves st s (.postPayment n amount) (s.postPayment n amount).settle
  | taken (n : Nat) : Serves st s (.takeCharges n) (State.calling { s with acc := s.acc.takeEntries n }).settle
  | orphansResolved (m : Mark) : Serves st s (.quote m) s.resolveOrphans
  | slotSet (m : Mark) (n : Nat) (q : QuoteSlot) :
      Serves st s (.quote m) { s.resolveOrphans with acc := s.resolveOrphans.acc.setSlot n q }

/-! ## One lemma for each request that can do more than answer -/

section
variable {st : Station} {s : State}

theorem serves_announce (mark : Mark) (dir : Option Direction) (p : Particulars) :
    Serves st s (.announce mark dir p) (s.doAnnounce st mark dir p).1 := by
  unfold State.doAnnounce
  split
  · exact .announced _ _ _ _ _ rfl
  all_goals exact .unchanged _

theorem serves_amend (mark : Mark) (p : Particulars) : Serves st s (.amend mark p) (s.doAmend st mark p).1 := by
  unfold State.doAmend State.amendEntry
  split
  · exact .unchanged _
  · next v found =>
    split
    · split
      · exact .unchanged _
      · next waiting =>
        split
        · simp only [State.amendVessel]
          split
          · exact .unchanged _
          · exact .amended mark p _ _ _ _ (not_not.1 waiting)
        all_goals exact .unchanged _
    · exact .unchanged _

theorem serves_withdraw (mark : Mark) : Serves st s (.withdraw mark) (s.doWithdraw st mark).1 := by
  unfold State.doWithdraw
  split
  · exact .unchanged _
  · next v found =>
    split
    · unfold State.withdrawEntry
      split
      · exact .withdrawn mark v
      · next id estimate called =>
        split
        · next t known =>
          split
          · next queued => exact .berthDropped mark v t id estimate found called known queued
          · exact .unchanged _
        · exact .unchanged _
      · exact .unchanged _
    · exact .unchanged _

theorem serves_autoCall (on : Option Bool) : Serves st s (.autoCall on) (s.doAutoCall on).1 := by
  unfold State.doAutoCall
  split
  · exact .unchanged _
  · next b =>
    split
    · exact .unchanged _
    · exact .autoSwitched _ b

theorem serves_planTransit (dir : Option Direction) (marks : List Mark) :
    Serves st s (.planTransit dir marks) (s.doPlanTransit dir marks).1 := by
  unfold State.doPlanTransit
  split
  · exact .unchanged _
  · next d =>
    split
    · exact .unchanged _
    · next passed =>
      unfold State.plan
      split
      · exact .overflowed _ _ _
      · next room => exact .planned _ d marks passed (Nat.not_le.1 room)

theorem serves_cancelTransit (id : Nat) : Serves st s (.cancelTransit id) (s.doCancelTransit id).1 := by
  unfold State.doCancelTransit
  split
  · exact .unchanged _
  · next t known =>
    unfold State.cancelTransit
    split
    · next queued =>
      split
      · exact .unchanged _
      · next mode => exact .queuedCancelled id t known queued mode
    · split
      · exact .unchanged _
      · next m entry =>
        split
        · next service => exact .entryCancelled id t m known entry service
        · exact .unchanged _

theorem serves_confirm (id : Nat) (kind : Option ConfirmKind) :
    Serves st s (.confirm id kind) (s.doConfirm id kind).1 := by
  unfold State.doConfirm
  split
  · exact .unchanged _
  · split
    · exact .unchanged _
    · exact .unchanged _
    · next k t known =>
      unfold State.confirmTransit
      split
      · next m current =>
        split
        · next h =>
          obtain ⟨awaits, kindAwaited⟩ := h
          cases k with
          | cleared =>
            have leaving : m.kind = .exit := by cases hk : m.kind <;> simp_all [MoveKind.awaits]
            exact .cleared id _ t m known current awaits leaving
          | entered =>
            exact .confirmed id _ t m known current awaits (by rintro h; simp [h, MoveKind.awaits] at kindAwaited)
          | moved =>
            exact .confirmed id _ t m known current awaits (by rintro h; simp [h, MoveKind.awaits] at kindAwaited)
        · exact .unchanged _
      · exact .unchanged _

theorem serves_abandonTransit (id : Nat) : Serves st s (.abandonTransit id) (s.doAbandonTransit id).1 := by
  unfold State.doAbandonTransit
  split
  · exact .unchanged _
  · next mode =>
    split
    · exact .unchanged _
    · next t known =>
      unfold State.abandon
      split
      · exact .unchanged _
      · exact .unchanged _
      · next moving => exact .abandoned id t known (.inl moving) (not_not.1 mode)
      · next waiting => exact .abandoned id t known (.inr waiting) (not_not.1 mode)

theorem serves_retryLevel (k : Nat) : Serves st s (.retryLevel k) (s.doRetryLevel k).1 := by
  unfold State.doRetryLevel
  split
  · next use =>
    unfold State.retryLevel
    split
    · exact .unchanged _
    · split
      · exact .unchanged _
      · split
        · exact .unchanged _
        · exact .retried k use
  · exact .unchanged _

theorem serves_manualGate (k : Nat) (a : Option GateAction) :
    Serves st s (.manualGate k a) (s.doManualGate k a).1 := by
  unfold State.doManualGate
  split
  · exact .unchanged _
  · next use =>
    have use : s.inUse k = true := by simpa using use
    split
    · exact .unchanged _
    · split
      · unfold State.manualGate
        split
        · split
          · next may => exact .gateOpened k _ use may
          · exact .unchanged _
        · exact .gateClosed k _ use
        · exact .gateStopped k _ use
      · exact .unchanged _

theorem serves_manualSluice (k p : Nat) : Serves st s (.manualSluice k p) (s.doManualSluice k p).1 := by
  unfold State.doManualSluice
  split
  · exact .unchanged _
  · next use =>
    have use : s.inUse k = true := by simpa using use
    split
    · exact .unchanged _
    · split
      · unfold State.manualSluice
        split
        · exact .sluiceShut k p use
        · split
          · exact .unchanged _
          · exact .sluiceRaised k p use
      · exact .unchanged _

theorem serves_visualEqual (k : Nat) (a : Option PermitAction) :
    Serves st s (.visualEqual k a) (s.doVisualEqual k a).1 := by
  unfold State.doVisualEqual
  split
  · exact .unchanged _
  · next use =>
    have use : s.inUse k = true := by simpa using use
    split
    · exact .unchanged _
    · next x => exact .permitted k _ x use

theorem serves_resumeService : Serves st s .resumeService s.doResumeService.1 := by
  unfold State.doResumeService
  split
  · exact .unchanged _
  · next passed => exact .resumed passed

theorem serves_claim : Serves st s .claim (s.doClaim st).1 := by
  cases st with
  | console =>
    simp only [State.doClaim, State.claimConsole]
    split
    · exact .unchanged _
    · exact .claimed .console (by decide)
  | region =>
    simp only [State.doClaim, State.claimRegion]
    split
    · exact .unchanged _
    · next holder =>
      simp only [State.acceptAuthority]
      split
      · exact .unchanged _
      · exact .lodged holder
    all_goals exact .claimed .region (by decide)
  | toll => exact .unchanged _

theorem serves_release : Serves st s .release s.doRelease.1 := by
  unfold State.doRelease
  split
  · next lodged => exact .released lodged
  · exact .unchanged _

theorem serves_deny : Serves st s .deny s.doDeny.1 := by
  unfold State.doDeny
  split
  · next lodged => exact .denied lodged
  · exact .unchanged _

theorem serves_enterConfig : Serves st s .enterConfig s.doEnterConfig.1 := by
  unfold State.doEnterConfig
  split
  · exact .unchanged _
  · next passed => exact .configured passed

theorem serves_leaveConfig : Serves st s .leaveConfig s.doLeaveConfig.1 := by
  unfold State.doLeaveConfig
  split
  · exact .unchanged _
  · next passed => exact .left passed

theorem serves_setFlight (f : FlightFields) : Serves st s (.setFlight f) (s.doSetFlight f).1 := by
  unfold State.doSetFlight
  split
  · exact .unchanged _
  · next passed => exact .flightSet f passed

theorem serves_setSensor (f : SensorFields) : Serves st s (.setSensor f) (s.doSetSensor f).1 := by
  unfold State.doSetSensor
  split
  · exact .unchanged _
  · next passed => exact .sensorSet f passed

theorem serves_setClock (day sec : Nat) : Serves st s (.setClock day sec) (s.doSetClock day sec).1 := by
  unfold State.doSetClock
  split
  · exact .clockSet day sec
  · exact .unchanged _

theorem serves_setTariff (x : Tariff) : Serves st s (.setTariff x) (s.doSetTariff x).1 := by
  unfold State.doSetTariff
  split
  · exact .unchanged _
  · split
    · exact .unchanged _
    · exact .tariffSet x

theorem serves_openAccount (n credit limit : Nat) :
    Serves st s (.openAccount n credit limit) (s.doOpenAccount n credit limit).1 := by
  unfold State.doOpenAccount
  split
  · exact .unchanged _
  · exact .accountOpened n credit limit

/-- A request about an account in use leaves what its work on that account leaves, or nothing. -/
theorem serves_withAccount {r : Request} {n : Nat} {f : Account → State × Answer}
    (h : ∀ a, Serves st s r (f a).1) : Serves st s r (s.withAccount n f).1 := by
  unfold State.withAccount
  split
  · exact .unchanged _
  · split
    · exact .unchanged _
    · exact h _

theorem serves_setCredit (n limit : Nat) : Serves st s (.setCredit n limit) (s.doSetCredit n limit).1 := by
  unfold State.doSetCredit
  split
  · exact .unchanged _
  · refine serves_withAccount fun a => ?_
    split
    · exact .unchanged _
    · exact .accountChanged _ n _

theorem serves_holdAccount (n : Nat) : Serves st s (.holdAccount n) (s.doHoldAccount n).1 := by
  refine serves_withAccount fun a => ?_
  split
  · exact .unchanged _
  · exact .accountHeld _ n _

theorem serves_releaseAccount (n : Nat) : Serves st s (.releaseAccount n) (s.doReleaseAccount n).1 := by
  refine serves_withAccount fun a => ?_
  split
  · exact .accountChanged _ n _
  · exact .unchanged _

theorem serves_closeAccount (n : Nat) : Serves st s (.closeAccount n) (s.doCloseAccount n).1 := by
  refine serves_withAccount fun a => ?_
  split
  · exact .unchanged _
  · exact .accountClosed n

theorem serves_postPayment (n amount : Nat) : Serves st s (.postPayment n amount) (s.doPostPayment n amount).1 := by
  unfold State.doPostPayment
  split
  · exact .unchanged _
  · next passed => exact .paid n amount passed

theorem serves_takeCharges (n : Nat) : Serves st s (.takeCharges n) (s.doTakeCharges n).1 := by
  unfold State.doTakeCharges
  split
  · exact .unchanged _
  · simp only
    cases h : s.acc.journal.take n with
    | nil =>
      have kept : s.acc.takeEntries n = s.acc := by
        rcases List.take_eq_nil_iff.1 h with rfl | empty
        · rfl
        · exact Accounts.takeEntries_of_empty empty n
      rw [kept]
      exact .unchanged _
    | cons e rest => exact .taken n

theorem serves_quote (m : Mark) : Serves st s (.quote m) (s.doQuote m).1 := by
  have journal : Serves st s (.quote m) (s.resolveOrphans.quoteJournal m).1 := by
    unfold State.quoteJournal
    split <;> exact .orphansResolved m
  have called (t e : Nat) : Serves st s (.quote m) (s.resolveOrphans.quoteCalled m t e).1 := by
    unfold State.quoteCalled
    split
    · exact .slotSet m _ _
    · exact .orphansResolved m
  unfold State.doQuote
  split
  · unfold State.answerQuote
    split
    · unfold State.quoteGone
      split
      · exact journal
      · split
        · exact .slotSet m _ _
        all_goals exact journal
    · split
      · exact .orphansResolved m
      · exact called _ _
      · exact called _ _
  · exact .unchanged _

theorem serves_subscribe (l : List Nat) : Serves st s (.subscribe l) (s.doSubscribe st l).1 := by
  unfold State.doSubscribe
  split
  · exact .unchanged _
  · exact .subscribed l

end

/-- The block of a request leaves one of these states. -/
theorem serve_serves (st : Station) (r : Request) (s : State) : Serves st s r (serve st r s).1 := by
  cases r with
  | status => exact .lostCleared
  | readLevels | readPassage | readVessel | readTransit | readAccount | restart => exact .unchanged _
  | announce mark dir p => exact serves_announce mark dir p
  | amend mark p => exact serves_amend mark p
  | withdraw mark => exact serves_withdraw mark
  | autoCall on => exact serves_autoCall on
  | planTransit dir marks => exact serves_planTransit dir marks
  | cancelTransit id => exact serves_cancelTransit id
  | confirm id kind => exact serves_confirm id kind
  | abandonTransit id => exact serves_abandonTransit id
  | retryLevel k => exact serves_retryLevel k
  | manualGate k a => exact serves_manualGate k a
  | manualSluice k p => exact serves_manualSluice k p
  | visualEqual k a => exact serves_visualEqual k a
  | emergencyStop => exact .stopped
  | resumeService => exact serves_resumeService
  | claim => exact serves_claim
  | release => exact serves_release
  | deny => exact serves_deny
  | enterConfig => exact serves_enterConfig
  | leaveConfig => exact serves_leaveConfig
  | setFlight f => exact serves_setFlight f
  | setSensor f => exact serves_setSensor f
  | setTiming x => exact .timingSet x
  | setClock day sec => exact serves_setClock day sec
  | setTariff x => exact serves_setTariff x
  | openAccount n credit limit => exact serves_openAccount n credit limit
  | setCredit n limit => exact serves_setCredit n limit
  | holdAccount n => exact serves_holdAccount n
  | releaseAccount n => exact serves_releaseAccount n
  | closeAccount n => exact serves_closeAccount n
  | postPayment n amount => exact serves_postPayment n amount
  | takeCharges n => exact serves_takeCharges n
  | quote m => exact serves_quote m
  | subscribe l => exact serves_subscribe l

/-! ## What any command leaves -/

/-- The work of a field input or a timer that a running part takes as an event (R185). -/
inductive FieldWork : Instr → (State → State) → Prop
  | estopAsserted : FieldWork .estopAsserted State.takeEstop
  | estopReleased : FieldWork .estopReleased State.endEstop
  | valueReply (address raw : Nat) : FieldWork (.pollValueReply address raw) (State.takeValue address raw)
  | faultReply (address : Nat) : FieldWork (.pollFaultReply address) (State.takeFaultReply address)
  | pollTimeout : FieldWork .pollTimeout State.takePollTimeout
  | limits (k : Nat) (a b : Bool) :
      FieldWork (.gateLimitChange k a b) (State.takeLimits k { openLimit := a, closedLimit := b })
  | travelTimeout (k : Nat) : FieldWork (.gateTravelTimeout k) (State.takeTravelTimeout k)
  | feedback (k code : Nat) : FieldWork (.sluiceFeedback k code) (State.takeFeedback k code)
  | moveTimeout (k : Nat) : FieldWork (.sluiceMoveTimeout k) (State.takeMoveTimeout k)
  | rampExpiry (k : Nat) : FieldWork (.rampTimerExpiry k) (State.takeRampExpiry k)
  | equaliseTimeout (k : Nat) : FieldWork (.equaliseTimeout k) (State.takeEqualiseTimeout k)
  | agreementExpiry (k : Nat) (side : Side) :
      FieldWork (.lampAgreementExpiry k side) (State.takeAgreementExpiry k side)
  | silenceExpiry (st : Station) : FieldWork (.silenceExpiry st) (State.takeSilenceExpiry st)

/-- Ports that hold the same notices. -/
def Ports.sameNotices (p q : Ports) : Prop := ∀ st, (p.get st).queue = (q.get st).queue

theorem Ports.sameNotices_refl (p : Ports) : p.sameNotices p := fun _ => rfl

/-- A port changed but for its notices. -/
theorem State.setPort_sameNotices {st : Station} {f : Port → Port} (s : State) (h : ∀ p, (f p).queue = p.queue) :
    (s.setPort st f).ports.sameNotices s.ports := by
  intro x
  by_cases hx : st = x
  · subst hx
    simp [State.setPort, h]
  · simp [State.setPort, Ports.get_set_other _ _ hx]

/-- The states that a command may leave, with what it has passed. -/
inductive Leaves (s : State) : Instr → State → Prop
  | supplied : Leaves s .powerOn s.supplied
  | resetHeld : Leaves s .resetAsserted s.resetHeld
  | resetEnds : Leaves s .resetReleased s.resetEnds
  | recorded (c : Instr) (x : Pins) : Leaves s c { s with pins := x }
  | worked (c : Instr) (f : State → State) (x : Pins) (work : FieldWork c f) :
      Leaves s c (f { s with pins := x }).finish
  | ticked : Leaves s .scanTick s.takeTick
  | lit (k : Nat) (side : Side) (a b : Bool) (x : Pins) :
      Leaves s (.lampIndicationChange k side a b) (State.setHead k side (Head.indicate a b) { s with pins := x })
  | overdue (id : Nat) : Leaves s (.overdueTimerExpiry id) (s.takeOverdue id).pump
  | discarded (n : Nat) : Leaves s (.quoteDiscardExpiry n) (s.takeDiscard n)
  | second : Leaves s .dayClockSecond { s with toll := { s.toll with clock := s.toll.clock.elapse } }
  | handedOver : Leaves s .handoverTimerExpiry s.takeHandover.pump
  | ported (c : Instr) (p : Ports) (same : p.sameNotices s.ports) : Leaves s c { s with ports := p }
  | pumped (c : Instr) (p : Ports) (same : p.sameNotices s.ports) : Leaves s c (State.pump { s with ports := p })
  | restarted (line : restartReply s.ports.console.line = true) : Leaves s (.frameSent .console) s.warmReset
  | served (c : Instr) (h : Hdr) (r : Request) (a : Answer) (p : Ports) (t : State)
      (asked : (∃ h, c = Request.command h r) ∨ s.carries c r) (right : s.admits r.code h.port = true)
      (same : p.sameNotices s.ports)
      (block : Serves h.port { s with ports := p } r t) : Leaves s c (State.replied h r.code a t)

/-- Nothing is changed where the inputs are recorded as they stand. -/
theorem Leaves.nothing (s : State) (c : Instr) : Leaves s c s := .recorded c s.pins

section
variable {s : State} {c : Instr}

/-- A field input or timer event leaves its work finished, or nothing but the inputs while RESET is held. -/
theorem leaves_event {f : State → State} (x : Pins) (work : FieldWork c f) :
    Leaves s c (State.event f { s with pins := x }) := by
  unfold State.event
  split
  · exact .recorded c x
  · exact .worked c f x work

/-- The same of an event that no input line carries. -/
theorem leaves_timer {f : State → State} (work : FieldWork c f) : Leaves s c (s.event f) := leaves_event s.pins work

/-- An event of a passage leaves a state only of a passage that the part has. -/
theorem leaves_onPassage {k : Nat} {t u : State} (ht : Leaves s c t) (h : onPassage k t = .next u) : Leaves s c u := by
  unfold onPassage at h
  split at h
  · cases h
    exact ht
  · cases h

/-- A request that is lost, answered busy or turned away changes nothing but its port; one that passes leaves what its block leaves. The ports may have dropped the frame being assembled before. -/
theorem leaves_takeRequest {h : Hdr} {kind : Nat} {block : State → State × Answer} {p : Ports}
    (same : p.sameNotices s.ports)
    (served : h.lengthOk = true → s.admits kind h.port = true → ∀ q : Ports, q.sameNotices s.ports → ∀ a : Answer,
      Leaves s c (State.replied h kind a (block { s with ports := q }).1)) :
    Leaves s c (State.takeRequest h kind block { s with ports := p }) := by
  have heard : (State.goodFrame h.port { s with ports := p }).ports.sameNotices s.ports := fun st =>
    (State.setPort_sameNotices (f := Port.goodFrame s.timing.silence) { s with ports := p } (fun _ => rfl) st).trans
      (same st)
  have answered (u : State) (hu : u.ports.sameNotices s.ports) (f : Port → Port) (hf : ∀ x, (f x).queue = x.queue) :
      (u.setPort h.port f).ports.sameNotices s.ports := fun st => (u.setPort_sameNotices hf st).trans (hu st)
  have replied (a : Answer) : ((State.goodFrame h.port { s with ports := p }).respond h.port h.tag kind a).ports.sameNotices
      s.ports := answered _ heard _ fun _ => rfl
  unfold State.takeRequest
  split
  · exact .ported c p same
  · split
    · refine .pumped c _ (answered _ heard _ fun x => ?_)
      unfold Port.answerBusy
      split <;> rfl
    · unfold State.dispatch
      split
      · exact .pumped c _ (replied _)
      · next form =>
        have form : h.lengthOk = true ∧ within 1 40 kind = true := by simpa using form
        split
        · exact .pumped c _ (replied _)
        · next right =>
          have right : (State.goodFrame h.port { s with ports := p }).admits kind h.port = true := by
            simpa only [Bool.not_eq_true', Bool.not_eq_false] using right
          exact served form.1 right _ heard _

/-- The row of a request in the opcode table takes it by its kind and its block, the counts of its lists in its length check. -/
theorem exec_command (h : Hdr) (r : Request) (s : State) : exec (Request.command h r) s
    = .next (s.takeRequest { h with lengthOk := h.lengthOk && Request.countsOk r } r.code (serve h.port r)) := by
  cases r with
  | setFlight | subscribe => rfl
  | _ =>
    simp only [Request.countsOk, Bool.and_true]
    rfl

/-- A row of the opcode table that is a request leaves what taking the request leaves. -/
theorem leaves_command (h : Hdr) (r : Request) {t : State} (ht : exec (Request.command h r) s = .next t) :
    Leaves s (Request.command h r) t := by
  rw [exec_command] at ht
  cases ht
  exact leaves_takeRequest (Ports.sameNotices_refl s.ports) fun _ right q same a =>
    .served _ { h with lengthOk := h.lengthOk && Request.countsOk r } r a q _ (.inl ⟨h, rfl⟩) right same (serve_serves h.port r _)

/-- A payload spells a request of its own kind only. -/
theorem code_of_readRequest {kind : Nat} {payload : List Byte} {r : Request} (h : readRequest kind payload = some r) :
    r.code = kind := by
  unfold readRequest at h
  split at h
  · next hk =>
    split at h
    · cases h
      exact hk.symm
    · cases h
  · exact of_decide_eq_true (Option.filter_eq_some_iff.1 h).2

/-- A good frame leaves what the request that it carries leaves. -/
theorem leaves_takeFrame {st : Station} {tag kind : Nat} {payload : List Byte} {p : Ports}
    (same : p.sameNotices s.ports) (carried : ∀ r, readRequest kind payload = some r → s.carries c r) :
    Leaves s c (State.takeFrame st tag kind payload { s with ports := p }) := by
  unfold State.takeFrame
  split
  · split
    · exact .ported c p same
    · exact .ported c _ fun x =>
        (State.setPort_sameNotices (f := Port.goodFrame s.timing.silence) { s with ports := p } (fun _ => rfl) x).trans
          (same x)
  · split
    · next r spelt =>
      refine leaves_takeRequest same fun _ right q hq a => ?_
      rw [← code_of_readRequest spelt] at right ⊢
      exact .served c _ r a q _ (.inr (carried r spelt)) right hq (serve_serves st r _)
    · exact leaves_takeRequest same fun form => absurd form Bool.false_ne_true

/-- What the receiver makes of a port keeps its notices. -/
theorem Port.receive_queue (code : Nat) (b : Byte) (p : Port) : (p.receive code b).1.queue = p.queue := by
  unfold Port.receive
  repeat' split
  all_goals rfl

theorem leaves_byte {st : Station} {b : Byte} : Leaves s (.byteReceived st b) (s.takeByte st b) := by
  have same : (s.setPort st (fun _ => (Port.receive (stationCode st) b (s.ports.get st)).1)).ports.sameNotices s.ports := by
    intro x
    by_cases hx : st = x
    · subst hx
      simp [State.setPort, Port.receive_queue]
    · simp [State.setPort, Ports.get_set_other _ _ hx]
  unfold State.takeByte
  split
  · next p received =>
    rw [received] at same
    exact .ported _ _ same
  · next p frame received =>
    rw [received] at same
    exact leaves_takeFrame same fun r spelt => .inr ⟨st, b, p, frame, rfl, received, spelt⟩

theorem leaves_frameSent {st : Station} : Leaves s (.frameSent st) (s.takeFrameSent st) := by
  unfold State.takeFrameSent
  split
  · next h =>
    obtain ⟨rfl, line⟩ := h
    exact .restarted line
  · refine .pumped _ _ (s.setPort_sameNotices fun p => ?_)
    unfold Port.frameEnds
    split <;> rfl

/-- What is done unless RESET is held, or nothing. -/
theorem leaves_running {b : Prop} [Decidable b] {t : State} (ht : Leaves s c t) : Leaves s c (if b then s else t) := by
  split
  · exact .nothing s c
  · exact ht

/-- What is done under a condition, or nothing. -/
theorem leaves_if {b : Prop} [Decidable b] {t : State} (ht : Leaves s c t) : Leaves s c (if b then t else s) := by
  split
  · exact ht
  · exact .nothing s c

end

/-- Every command leaves one of these states. -/
theorem exec_leaves {c : Instr} {s t : State} (h : exec c s = .next t) : Leaves s c t := by
  have silent (st : Station) (f : Port → Port) (hf : ∀ p, (f p).queue = p.queue) (c : Instr) :
      Leaves s c (s.setPort st f) := .ported c _ (s.setPort_sameNotices hf)
  cases c with
  | powerOn => cases h; exact .supplied
  | resetAsserted => cases h; exact .resetHeld
  | resetReleased => cases h; exact .resetEnds
  | estopAsserted => cases h; exact leaves_event { s.pins with estop := true } .estopAsserted
  | estopReleased => cases h; exact leaves_event { s.pins with estop := false } .estopReleased
  | scanTick => cases h; exact leaves_if .ticked
  | pollValueReply address raw => cases h; exact leaves_timer (.valueReply address raw)
  | pollFaultReply address => cases h; exact leaves_timer (.faultReply address)
  | pollTimeout => cases h; exact leaves_timer .pollTimeout
  | gateLimitChange k a b => exact leaves_onPassage (leaves_event _ (.limits k a b)) h
  | gateTravelTimeout k => exact leaves_onPassage (leaves_timer (.travelTimeout k)) h
  | sluiceFeedback k code => exact leaves_onPassage (leaves_event _ (.feedback k code)) h
  | sluiceMoveTimeout k => exact leaves_onPassage (leaves_timer (.moveTimeout k)) h
  | rampTimerExpiry k => exact leaves_onPassage (leaves_timer (.rampExpiry k)) h
  | equaliseTimeout k => exact leaves_onPassage (leaves_timer (.equaliseTimeout k)) h
  | lampIndicationChange k side a b =>
    refine leaves_onPassage ?_ h
    unfold State.takeIndication
    split
    · exact .recorded _ _
    · exact .lit k side a b _
  | lampAgreementExpiry k side => exact leaves_onPassage (leaves_timer (.agreementExpiry k side)) h
  | overdueTimerExpiry id => cases h; exact leaves_running (.overdue id)
  | quoteDiscardExpiry n =>
    simp only [exec, execQuoteDiscardExpiry] at h
    split at h
    · cases h
      exact leaves_running (.discarded n)
    · cases h
  | dayClockSecond => cases h; exact .second
  | silenceExpiry st => cases h; exact leaves_timer (.silenceExpiry st)
  | handoverTimerExpiry => cases h; exact leaves_running .handedOver
  | gapTimerExpiry st => cases h; exact leaves_if (silent st Port.hunt (fun _ => rfl) _)
  | frameDiscarded st cause => cases h; exact leaves_running (silent st Port.hunt (fun _ => rfl) _)
  | idleFrame st => cases h; exact leaves_running (silent st (Port.goodFrame s.timing.silence) (fun _ => rfl) _)
  | busyAnswer st tag kind payload =>
    cases h
    exact leaves_takeFrame (Ports.sameNotices_refl s.ports) fun r spelt => .inl ⟨st, tag, kind, payload, rfl, spelt⟩
  | frameSent st => cases h; exact leaves_running leaves_frameSent
  | byteReceived st b => cases h; exact leaves_running leaves_byte
  | badKindRequest st tag kind =>
    cases h
    exact leaves_takeRequest (Ports.sameNotices_refl s.ports) fun form => absurd form Bool.false_ne_true
  | status h' => exact leaves_command h' .status h
  | readLevels h' => exact leaves_command h' .readLevels h
  | readPassage h' k => exact leaves_command h' (.readPassage k) h
  | readVessel h' sel => exact leaves_command h' (.readVessel sel) h
  | readTransit h' id => exact leaves_command h' (.readTransit id) h
  | readAccount h' sel => exact leaves_command h' (.readAccount sel) h
  | announce h' mark dir p => exact leaves_command h' (.announce mark dir p) h
  | amend h' mark p => exact leaves_command h' (.amend mark p) h
  | withdraw h' mark => exact leaves_command h' (.withdraw mark) h
  | autoCall h' on => exact leaves_command h' (.autoCall on) h
  | planTransit h' dir marks => exact leaves_command h' (.planTransit dir marks) h
  | cancelTransit h' id => exact leaves_command h' (.cancelTransit id) h
  | confirm h' id kind => exact leaves_command h' (.confirm id kind) h
  | abandonTransit h' id => exact leaves_command h' (.abandonTransit id) h
  | retryLevel h' k => exact leaves_command h' (.retryLevel k) h
  | manualGate h' k a => exact leaves_command h' (.manualGate k a) h
  | manualSluice h' k p => exact leaves_command h' (.manualSluice k p) h
  | visualEqual h' k a => exact leaves_command h' (.visualEqual k a) h
  | emergencyStop h' => exact leaves_command h' .emergencyStop h
  | resumeService h' => exact leaves_command h' .resumeService h
  | claim h' => exact leaves_command h' .claim h
  | release h' => exact leaves_command h' .release h
  | deny h' => exact leaves_command h' .deny h
  | enterConfig h' => exact leaves_command h' .enterConfig h
  | leaveConfig h' => exact leaves_command h' .leaveConfig h
  | restart h' => exact leaves_command h' .restart h
  | setFlight h' f => exact leaves_command h' (.setFlight f) h
  | setSensor h' f => exact leaves_command h' (.setSensor f) h
  | setTiming h' x => exact leaves_command h' (.setTiming x) h
  | setClock h' day sec => exact leaves_command h' (.setClock day sec) h
  | setTariff h' x => exact leaves_command h' (.setTariff x) h
  | openAccount h' n credit limit => exact leaves_command h' (.openAccount n credit limit) h
  | setCredit h' n limit => exact leaves_command h' (.setCredit n limit) h
  | holdAccount h' n => exact leaves_command h' (.holdAccount n) h
  | releaseAccount h' n => exact leaves_command h' (.releaseAccount n) h
  | closeAccount h' n => exact leaves_command h' (.closeAccount n) h
  | postPayment h' n amount => exact leaves_command h' (.postPayment n amount) h
  | takeCharges h' n => exact leaves_command h' (.takeCharges n) h
  | quote h' m => exact leaves_command h' (.quote m) h
  | subscribe h' l => exact leaves_command h' (.subscribe l) h

/-- A step leaves what a command leaves on the rest of the queue, or a millisecond that has passed. -/
theorem step_leaves {s t : State} (h : step s = .next t) :
    (∃ c rest, Leaves { s with pending := rest } c t) ∨ t = s.countDown := by
  unfold step at h
  split at h
  · next c rest _ => exact .inl ⟨c, rest, exec_leaves h⟩
  · unfold State.idle at h
    split at h
    · next c _ => exact .inl ⟨c, s.pending, exec_leaves h⟩
    · cases h
      exact .inr rfl

end Sys2Proof.Machine
end

