-- ==== Sys2Proof/Proofs/Core.lean ====
section
/-! SUPPORT. What the work of a request or an event leaves alone of the inputs, the settings, the Level Monitor, the Toll Calculator, authority, the journal and the notice queues: the core of the state. It goes on where Laws/Outer.lean ends: the outer parts are left alone by the work that follows in an event, the core by nearly all the work of the blocks. -/

namespace Sys2Proof.Machine

/-! ## The core -/

/-- The outer parts but for the arrival counter, the accounts, the quote slots and what the ports hold beside the excess of their notices. -/
def State.core (s : State) : Outer :=
  { s.outer with
    counter := 0, slots := Quad.all .free, accountZero := Account.counterPowerOn, accounts := []
    console := (Port.blank, s.outer.console.2), region := (Port.blank, s.outer.region.2)
    tollPort := (Port.blank, s.outer.tollPort.2) }

theorem State.core_of_outer {s t : State} (h : s.outer = t.outer) : s.core = t.core := by
  simp only [State.core, h]

/-- Work whose every part leaves the core alone. -/
theorem State.each_core {α : Type} (l : List α) (f : α → State → State) (h : ∀ x s, (f x s).core = s.core)
    (s : State) : (s.each l f).core = s.core := by
  induction l generalizing s with
  | nil => rfl
  | cons x rest ih => exact (ih (f x s)).trans (h x s)

@[simp] theorem State.raise_core (n : Notice) (s : State) : (s.raise n).core = s.core :=
  State.core_of_outer (s.raise_outer n)

@[simp] theorem State.raiseAll_core (l : List Notice) (s : State) : (s.raiseAll l).core = s.core :=
  State.core_of_outer (s.raiseAll_outer l)

section
variable {s t : State} (h : t.core = s.core)
include h

theorem State.pins_of_core : t.pins = s.pins := (congrArg Outer.pins h : _)
theorem State.flight_of_core : t.flight = s.flight := (congrArg Outer.flight h : _)
theorem State.lm_of_core : t.lm = s.lm := (congrArg Outer.lm h : _)
theorem State.toll_of_core : t.toll = s.toll := (congrArg Outer.toll h : _)
theorem State.auth_of_core : t.auth = s.auth := (congrArg Outer.auth h : _)
theorem State.pending_of_core : t.pending = s.pending := (congrArg Outer.pending h : _)
theorem State.journal_of_core : t.acc.journal = s.acc.journal := (congrArg Outer.journal h : _)
theorem State.nextSeq_of_core : t.acc.nextSeq = s.acc.nextSeq := (congrArg Outer.nextSeq h : _)

end

/-! ## The work that follows in an event -/

@[simp] theorem State.drain_outer (fuel : Nat) (s : State) : (State.drain fuel s).outer = s.outer := by
  induction fuel generalizing s with
  | zero => rfl
  | succ n ih =>
    unfold State.drain
    split
    · exact (ih _).trans ((State.take_outer _ _).trans (s.outer_agenda _))
    · split
      · exact (ih _).trans ((State.takeCalling_outer _).trans (s.outer_callDue _))
      · rfl

@[simp] theorem State.settle_outer (s : State) : s.settle.outer = s.outer := by simp [State.settle]

@[simp] theorem State.settle_core (s : State) : s.settle.core = s.core := State.core_of_outer s.settle_outer

/-! ## Vessels (Machine/Vessels.lean, Machine/VesselRequests.lean) -/

@[simp] theorem State.enterVessel_core (v : Vessel) (s : State) : (s.enterVessel v).core = s.core := by
  simp only [State.enterVessel, State.placeAnnounced]
  exact (State.core_of_outer (State.setQueue_outer _ _ _)).trans rfl

@[simp] theorem State.freeVessel_outer (m : Mark) (s : State) : (s.freeVessel m).outer = s.outer := rfl

@[simp] theorem State.withdrawWaiting_outer (c : WithdrawCause) (v : Vessel) (s : State) :
    (s.withdrawWaiting c v).outer = s.outer := by simp [State.withdrawWaiting]

@[simp] theorem State.returnVessels_outer (d : Direction) (marks : List Mark) (s : State) :
    (s.returnVessels d marks).outer = s.outer := by
  simp only [State.returnVessels, State.returnBlock, State.calling_outer, State.setQueue_outer]
  exact State.each_outer _ _ (fun m s => s.setVessel_outer m _) s

@[simp] theorem State.freeVessels_outer (marks : List Mark) (s : State) : (s.freeVessels marks).outer = s.outer :=
  State.each_outer _ _ (fun m s => s.freeVessel_outer m) s

@[simp] theorem State.exitVessels_outer (t : Transit) (s : State) : (s.exitVessels t).outer = s.outer :=
  State.each_outer t.berths (fun b => State.setVessel b.mark _) (fun b s => s.setVessel_outer b.mark _) s

@[simp] theorem State.switchAuto_outer (on : Bool) (s : State) : (s.switchAuto on).outer = s.outer := by
  cases on <;> rfl

/-! ## Commitments and quote slots (Machine/Accounts.lean) -/

theorem Accounts.uncommit_fixed (n e : Nat) (a : Accounts) : (a.uncommit n e).fixed = a.fixed := by
  unfold Accounts.uncommit Accounts.update
  split
  · rfl
  · simp only [Accounts.fixed, List.map_map, Prod.mk.injEq, true_and]
    apply List.map_congr_left
    intro x _
    simp only [Function.comp]
    split <;> rfl

@[simp] theorem State.lowerCommitments_outer (l : List Berth) (s : State) :
    (s.lowerCommitments l).outer = s.outer := by
  have folded (a : Accounts) :
      (l.foldl (fun a b => a.uncommit (s.accountOf b.mark) b.estimate) a).fixed = a.fixed := by
    induction l generalizing a with
    | nil => rfl
    | cons b rest ih => exact (ih _).trans (Accounts.uncommit_fixed _ _ _)
  exact s.outer_acc _ (folded s.acc)

@[simp] theorem State.uncommitBerths_outer (l : List Berth) (s : State) : (s.uncommitBerths l).outer = s.outer := by
  simp [State.uncommitBerths]

@[simp] theorem State.unreserveBerths_outer (n : Nat) (s : State) : (s.unreserveBerths n).outer = s.outer := rfl

theorem State.setSlot_core (n : Nat) (q : QuoteSlot) (s : State) :
    State.core { s with acc := s.acc.setSlot n q } = s.core := rfl

@[simp] theorem State.resolveQuote_core (m : Mark) (r : QuoteResult) (s : State) :
    (s.resolveQuote m r).core = s.core := by
  unfold State.resolveQuote
  split
  · rfl
  · rw [State.raise_core, State.setSlot_core]

@[simp] theorem State.resolveOrphans_core (s : State) : s.resolveOrphans.core = s.core :=
  State.each_core _ _ (fun m s => s.resolveQuote_core m _) s

@[simp] theorem State.resolveCharges_core (start : Nat) (marks : List Mark) (s : State) :
    (s.resolveCharges start marks).core = s.core := by
  refine State.each_core _ _ (fun m s => ?_) s
  split
  · exact s.resolveQuote_core m _
  · rfl

@[simp] theorem State.compareStatus_outer (before : Accounts) (l : List Nat) (s : State) :
    (s.compareStatus before l).outer = s.outer := s.raiseAll_outer _

@[simp] theorem State.changeAccount_core (n : Nat) (f : Account → Account) (s : State) :
    (s.changeAccount n f).core = s.core := by
  refine (State.core_of_outer (State.compareStatus_outer _ _ _)).trans ?_
  simp [State.core, State.outer]

/-! ## Requests of the PCU (Machine/PassageRequests.lean) -/

@[simp] theorem State.manualShut_outer (k : Nat) (s : State) : (s.manualShut k).outer = s.outer := by
  simp only [State.manualShut]
  repeat' split
  all_goals simp

@[simp] theorem State.retarget_outer (k p : Nat) (o : Op) (s : State) : (s.retarget k p o).outer = s.outer := by
  simp only [State.retarget]
  repeat' split
  all_goals simp

@[simp] theorem State.manualRaise_outer (k p : Nat) (s : State) : (s.manualRaise k p).outer = s.outer := by
  unfold State.manualRaise State.moveManual
  repeat' split
  all_goals simp

@[simp] theorem State.visualEqual_outer (k : Nat) (a : PermitAction) (s : State) :
    (s.visualEqual k a).outer = s.outer := by
  cases a <;> simp [State.visualEqual]

/-! ## Transits (Machine/Sequencer.lean, Machine/CallRequests.lean) -/

@[simp] theorem State.cancelEmptied_outer (t : Transit) (s : State) : (s.cancelEmptied t).outer = s.outer := by
  simp [State.cancelEmptied]

@[simp] theorem State.dropBerth_outer (t : Transit) (m : Mark) (s : State) : (s.dropBerth t m).outer = s.outer := by
  simp only [State.dropBerth]
  split <;> simp

@[simp] theorem State.withdrawCalled_core (v : Vessel) (t : Transit) (s : State) :
    (s.withdrawCalled v t).core = s.core := by
  unfold State.withdrawCalled
  rw [State.core_of_outer (State.unreserveBerths_outer _ _), State.raise_core,
    State.core_of_outer (State.freeVessel_outer _ _), State.resolveQuote_core,
    State.core_of_outer (State.uncommitBerths_outer _ _), State.core_of_outer (s.dropBerth_outer t _)]

@[simp] theorem State.cancelQueued_outer (t : Transit) (s : State) : (s.cancelQueued t).outer = s.outer := by
  simp [State.cancelQueued]

@[simp] theorem State.abortAll_outer (t : Transit) (s : State) : (s.abortAll t).outer = s.outer :=
  State.each_outer t.ops (fun e => State.abortOp t.id e.passage) (fun e s => s.abortOp_outer t.id e.passage) s

@[simp] theorem State.cancelEntry_outer (t : Transit) (m : Move) (s : State) : (s.cancelEntry t m).outer = s.outer := by
  simp [State.cancelEntry]

@[simp] theorem State.takeConfirmation_outer (t : Transit) (m : Move) (s : State) :
    (s.takeConfirmation t m).outer = s.outer := by simp [State.takeConfirmation]

@[simp] theorem State.abandonBerth_core (id : Nat) (b : Berth) (s : State) : (s.abandonBerth id b).core = s.core := by
  unfold State.abandonBerth
  rw [State.raise_core, State.core_of_outer (State.freeVessel_outer _ _), State.resolveQuote_core,
    State.core_of_outer (State.lowerCommitments_outer _ _)]

@[simp] theorem State.abandonTransit_core (t : Transit) (s : State) : (s.abandonTransit t).core = s.core := by
  unfold State.abandonTransit
  rw [State.core_of_outer (State.pushAll_outer _ _), State.raise_core,
    State.core_of_outer (State.unreserveBerths_outer _ _), State.core_of_outer (State.freeTransit_outer _ _),
    State.core_of_outer (State.pushAll_outer _ _), State.each_core _ _ (fun b s => s.abandonBerth_core t.id b),
    State.core_of_outer (State.setTransit_outer _ _ _), State.core_of_outer (s.abortAll_outer t)]

@[simp] theorem State.seqHold_outer (s : State) : s.seqHold.outer = s.outer := rfl

@[simp] theorem State.reEqualise_outer (t : Transit) (m : Move) (s : State) : (s.reEqualise t m).outer = s.outer := by
  simp only [State.reEqualise]
  repeat' split
  all_goals simp

@[simp] theorem State.rePrep_outer (t : Transit) (m : Move) (s : State) : (s.rePrep t m).outer = s.outer := by
  unfold State.rePrep
  repeat' split
  all_goals simp

@[simp] theorem State.resumeMove_outer (t : Transit) (m : Move) (s : State) : (s.resumeMove t m).outer = s.outer := by
  unfold State.resumeMove
  repeat' split
  all_goals simp

@[simp] theorem State.resumeTransit_outer (t : Transit) (s : State) : (s.resumeTransit t).outer = s.outer := by
  unfold State.resumeTransit
  split <;> simp

@[simp] theorem State.seqResume_outer (s : State) : s.seqResume.outer = s.outer := by
  simp only [State.seqResume, State.push_outer]
  exact State.each_outer _ _ (fun t s => s.resumeTransit_outer t) s

/-! ## Changes of mode and holder (Machine/Authority.lean) -/

@[simp] theorem State.holdBlocks_outer (m : Mode) (c : HoldCause) (s : State) : (s.holdBlocks m c).outer = s.outer := by
  simp [State.holdBlocks]

/-- The authority records that SAFE_HOLD entry leaves (R174). -/
def Authority.held (c : HoldCause) (a : Authority) : Authority :=
  if a.mode = .safeHold then a else { a with mode := .safeHold, holdCause := some c }

theorem State.enterSafeHold_outer (c : HoldCause) (s : State) :
    (s.enterSafeHold c).outer = { s.outer with auth := s.auth.held c } := by
  unfold State.enterSafeHold Authority.held
  split
  · rfl
  · exact State.holdBlocks_outer _ _ _

theorem State.enterSafeHold_core (c : HoldCause) (s : State) :
    (s.enterSafeHold c).core = { s.core with auth := s.auth.held c } := by
  simp only [State.core, State.enterSafeHold_outer]

theorem State.enterService_core (c : ModeCause) (s : State) :
    (s.enterService c).core = { s.core with auth := { s.auth with mode := .service, holdCause := none } } := by
  refine (State.core_of_outer (t := s.setMode .service none) ?_).trans rfl
  simp [State.enterService]

theorem State.enterConfigMode_core (s : State) :
    s.enterConfigMode.core = { s.core with auth := { s.auth with mode := .config, holdCause := none } } := by
  refine (State.core_of_outer (t := s.setMode .config none) ?_).trans rfl
  simp [State.enterConfigMode]

theorem State.setHolder_core (x : Option Station) (c : AuthorityCause) (o : Option ClaimOutcome) (s : State) :
    (s.setHolder x c o).core = { s.core with auth := { s.auth with holder := x, claim := none } } :=
  (State.raise_core _ _).trans rfl

theorem State.lodgeClaim_core (s : State) :
    s.lodgeClaim.core = { s.core with auth := { s.auth with claim := seconds s.timing.handover } } :=
  (State.raise_core _ _).trans rfl

theorem State.lapseClaim_core (s : State) :
    s.lapseClaim.core = { s.core with auth := { s.auth with claim := none } } := (State.raise_core _ _).trans rfl

/-! ## The journal (Machine/Accounts.lean, Machine/Sequencer.lean) -/

theorem State.postPayment_core (n amount : Nat) (s : State) :
    (s.postPayment n amount).core
      = { s.core with journal := s.acc.journal ++ [{ seq := s.acc.nextSeq, kind := .payment n amount,
                                                     stamp := s.toll.clock.stamp }]
                      nextSeq := (s.acc.nextSeq + 1) % 65536 } := by
  unfold State.postPayment
  rw [State.core_of_outer (State.push_outer _ _), State.core_of_outer (State.compareStatus_outer _ _ _),
    Accounts.append_credit]
  rfl

theorem State.postCharges_core (l : List Charge) (s : State) :
    (s.postCharges l).core
      = { s.core with journal := (l.foldl (Accounts.post s.toll.clock.stamp) s.acc).journal
                      nextSeq := (l.foldl (Accounts.post s.toll.clock.stamp) s.acc).nextSeq } :=
  (State.core_of_outer (State.compareStatus_outer _ _ _)).trans rfl

/-- A settlement writes its charges to the journal, and else leaves the core alone. -/
theorem State.settleWith_core (t : Transit) (r : Settlement) (s : State) :
    (s.settleWith t r).core
      = { s.core with journal := (r.charges.foldl (Accounts.post s.toll.clock.stamp) s.acc).journal
                      nextSeq := (r.charges.foldl (Accounts.post s.toll.clock.stamp) s.acc).nextSeq } := by
  have exited (u : State) : (u.exitVessels t).acc = u.acc := by
    unfold State.exitVessels
    generalize t.berths = l
    induction l generalizing u with
    | nil => rfl
    | cons b rest ih => exact ih _
  simp only [State.settleWith]
  rw [State.core_of_outer (State.calling_outer _), State.raise_core, State.core_of_outer (State.setTransit_outer _ _ _),
    State.resolveCharges_core, State.core_of_outer (State.freeVessels_outer _ _),
    State.core_of_outer (State.uncommitBerths_outer _ _), State.postCharges_core]
  cases r.anomaly <;>
    simp [exited, State.core_of_outer (State.exitVessels_outer _ _), State.toll_of_core (State.core_of_outer (State.exitVessels_outer _ _)),
      State.core_of_outer (State.setTransit_outer _ _ _)]

/-! ## Setting up (Machine/Setup.lean) -/

@[simp] theorem State.reformHeads_outer (before s : State) : (State.reformHeads before s).outer = s.outer := by
  simp [State.reformHeads]

theorem State.renumber_outer (before s : State) :
    (State.renumber before s).outer = { s.outer with lm := s.lm.renumber s.flight.n } :=
  (State.reformHeads_outer before _).trans rfl

@[simp] theorem State.regauge_outer (before s : State) : (State.regauge before s).outer = s.outer := by
  unfold State.regauge
  rw [State.when_outer]
  split
  · exact State.each_outer s.outOfGauge _ (fun v s => s.withdrawWaiting_outer .gauge v) s
  · rfl

@[simp] theorem State.reexamine_outer (before s : State) : (State.reexamine before s).outer = s.outer := rfl

theorem State.applyFlight_outer (f : FlightFields) (s : State) :
    (s.applyFlight f).outer
      = { s.outer with flight := flightOf f
                       lm := if s.flight.n = some f.n then s.lm else s.lm.renumber (some f.n) } := by
  simp only [State.applyFlight, State.reexamine_outer, State.regauge_outer, State.when_outer, State.renumber_outer]
  by_cases h : s.flight.n = some f.n <;> simp only [h, decide_true, decide_false, Bool.not_true, Bool.not_false] <;> rfl

/-! ## Fields (Machine/Fields.lean) -/

theorem State.gateFails_outer (k : Nat) (c : GateFault) (s : State) :
    (s.gateFails k c).outer = { s.outer with auth := s.auth.held (.gateFault k) } := by
  simp [State.gateFails, State.enterSafeHold_outer]

theorem State.sluiceFails_outer (k : Nat) (c : SluiceFault) (s : State) :
    (s.sluiceFails k c).outer = { s.outer with auth := s.auth.held (.sluiceFault k) } := by
  simp [State.sluiceFails, State.enterSafeHold_outer]

end Sys2Proof.Machine
end

