-- ==== Sys2Proof/Proofs/PassageFrame.lean ====
section
/-! SUPPORT. The work of the Passage Control Unit changes its own records, the hand-overs and the notices, and nothing else of the state: one lemma for each of its operations. -/

namespace Sys2Proof.Machine

/-! ## The state beside the PCU -/

/-- The state but for the PCU, the hand-overs and the ports. -/
def State.besidePcu (s : State) : State :=
  { s with pcu := Pcu.fromPins Timing.powerOn Pins.quiet, agenda := [], ports := Ports.fresh 0 }

section
variable {s t : State} (h : t.besidePcu = s.besidePcu)
include h

theorem State.flight_of_besidePcu : t.flight = s.flight := (congrArg State.flight h : _)
theorem State.reg_of_besidePcu : t.reg = s.reg := (congrArg State.reg h : _)
theorem State.arb_of_besidePcu : t.arb = s.arb := (congrArg State.arb h : _)
theorem State.table_of_besidePcu : t.table = s.table := (congrArg State.table h : _)
theorem State.acc_of_besidePcu : t.acc = s.acc := (congrArg State.acc h : _)
theorem State.auth_of_besidePcu : t.auth = s.auth := (congrArg State.auth h : _)

end

@[simp] theorem State.raise_besidePcu (n : Notice) (s : State) : (s.raise n).besidePcu = s.besidePcu := rfl
@[simp] theorem State.raiseAll_besidePcu (l : List Notice) (s : State) : (s.raiseAll l).besidePcu = s.besidePcu := by
  induction l generalizing s with
  | nil => rfl
  | cons n rest ih => exact ih (s.raise n)
@[simp] theorem State.push_besidePcu (t : Task) (s : State) : (s.push t).besidePcu = s.besidePcu := rfl
@[simp] theorem State.pushAll_besidePcu (l : List Task) (s : State) : (s.pushAll l).besidePcu = s.besidePcu := rfl
@[simp] theorem State.setPassage_besidePcu (k : Nat) (f : Passage → Passage) (s : State) :
    (s.setPassage k f).besidePcu = s.besidePcu := rfl
@[simp] theorem State.setGate_besidePcu (k : Nat) (f : Gate → Gate) (s : State) :
    (s.setGate k f).besidePcu = s.besidePcu := rfl
@[simp] theorem State.setSluice_besidePcu (k : Nat) (f : Sluice → Sluice) (s : State) :
    (s.setSluice k f).besidePcu = s.besidePcu := rfl
@[simp] theorem State.setOp_besidePcu (k : Nat) (f : Op → Op) (s : State) :
    (s.setOp k f).besidePcu = s.besidePcu := rfl
@[simp] theorem State.setPermit_besidePcu (k : Nat) (on : Bool) (s : State) :
    (s.setPermit k on).besidePcu = s.besidePcu := rfl
@[simp] theorem State.setClaims_besidePcu (l : List Nat) (o : Option Nat) (s : State) :
    (s.setClaims l o).besidePcu = s.besidePcu := rfl
@[simp] theorem State.when_besidePcu (c : Bool) (f : State → State) (s : State) :
    (s.when c f).besidePcu = if c then (f s).besidePcu else s.besidePcu := by cases c <;> rfl

theorem State.each_besidePcu {α : Type} (l : List α) (f : α → State → State)
    (h : ∀ x s, (f x s).besidePcu = s.besidePcu) (s : State) : (s.each l f).besidePcu = s.besidePcu := by
  induction l generalizing s with
  | nil => rfl
  | cons x rest ih => exact (ih (f x s)).trans (h x s)

/-! ## Gates and sluices -/

@[simp] theorem State.gateReached_besidePcu (k : Nat) (g : GateState) (s : State) :
    (s.gateReached k g).besidePcu = s.besidePcu := rfl
@[simp] theorem State.endTravel_besidePcu (k : Nat) (s : State) : (s.endTravel k).besidePcu = s.besidePcu := by
  simp [State.endTravel]
@[simp] theorem State.travel_besidePcu (k : Nat) (g : GateState) (d : GateDrive) (s : State) :
    (s.travel k g d).besidePcu = s.besidePcu := by simp [State.travel]
@[simp] theorem State.commandOpen_besidePcu (m : Bool) (k : Nat) (s : State) :
    (s.commandOpen m k).besidePcu = s.besidePcu := by
  unfold State.commandOpen
  repeat' split
  all_goals simp
@[simp] theorem State.commandClose_besidePcu (m : Bool) (k : Nat) (s : State) :
    (s.commandClose m k).besidePcu = s.besidePcu := by
  unfold State.commandClose
  repeat' split
  all_goals simp
@[simp] theorem State.stopGate_besidePcu (k : Nat) (s : State) : (s.stopGate k).besidePcu = s.besidePcu := by
  unfold State.stopGate
  split <;> rfl
@[simp] theorem State.retryOpen_besidePcu (k : Nat) (s : State) : (s.retryOpen k).besidePcu = s.besidePcu := by
  unfold State.retryOpen
  split <;> simp
@[simp] theorem State.orderOpen_besidePcu (id k : Nat) (s : State) : (s.orderOpen id k).besidePcu = s.besidePcu := by
  unfold State.orderOpen
  repeat' split
  all_goals simp
@[simp] theorem State.captureEnd_besidePcu (k : Nat) (s : State) : (s.captureEnd k).besidePcu = s.besidePcu := rfl
@[simp] theorem State.freeSlot_besidePcu (k : Nat) (s : State) : (s.freeSlot k).besidePcu = s.besidePcu := rfl
@[simp] theorem State.closeOp_besidePcu (k : Nat) (o : Op) (s : State) : (s.closeOp k o).besidePcu = s.besidePcu := by
  simp [State.closeOp]
@[simp] theorem State.endOp_besidePcu (k : Nat) (s : State) : (s.endOp k).besidePcu = s.besidePcu := by
  simp only [State.endOp]
  split <;> simp
@[simp] theorem State.afterMove_besidePcu (k : Nat) (s : State) : (s.afterMove k).besidePcu = s.besidePcu := by
  simp only [State.afterMove]
  repeat' split
  all_goals simp
@[simp] theorem State.finishMove_besidePcu (k : Nat) (s : State) : (s.finishMove k).besidePcu = s.besidePcu := by
  simp [State.finishMove]
@[simp] theorem State.lower_besidePcu (k p : Nat) (s : State) : (s.lower k p).besidePcu = s.besidePcu := by
  simp only [State.lower]
  repeat' split
  all_goals simp
@[simp] theorem State.lowerManual_besidePcu (k : Nat) (s : State) : (s.lowerManual k).besidePcu = s.besidePcu := by
  simp only [State.lowerManual]
  split <;> simp
@[simp] theorem State.stepUp_besidePcu (k : Nat) (s : State) : (s.stepUp k).besidePcu = s.besidePcu := by
  simp only [State.stepUp]
  repeat' split
  all_goals rfl
@[simp] theorem State.retryStep_besidePcu (k : Nat) (s : State) : (s.retryStep k).besidePcu = s.besidePcu := by
  unfold State.retryStep
  split <;> simp

/-! ## Operations -/

@[simp] theorem State.enterShutting_besidePcu (k : Nat) (s : State) :
    (s.enterShutting k).besidePcu = s.besidePcu := by
  simp only [State.enterShutting]
  split <;> simp
@[simp] theorem State.reachEqualised_besidePcu (k : Nat) (s : State) :
    (s.reachEqualised k).besidePcu = s.besidePcu := by
  simp only [State.reachEqualised]
  split <;> simp
@[simp] theorem State.takeClaims_besidePcu (k : Nat) (s : State) : (s.takeClaims k).besidePcu = s.besidePcu := rfl
@[simp] theorem State.enterSlot_besidePcu (k : Nat) (p : Purpose) (t : Option Nat) (x : Nat) (s : State) :
    (s.enterSlot k p t x).besidePcu = s.besidePcu := rfl
@[simp] theorem State.createOp_besidePcu (k : Nat) (p : Purpose) (t : Option Nat) (x : Nat) (s : State) :
    (s.createOp k p t x).besidePcu = s.besidePcu := by
  simp only [State.createOp]
  split <;> rfl
@[simp] theorem State.arbitrate_besidePcu (l : List Nat) (fuel : Nat) (s : State) :
    (s.arbitrate l fuel).besidePcu = s.besidePcu := by
  induction fuel generalizing s with
  | zero => rfl
  | succ n ih =>
    simp only [State.arbitrate]
    split
    · rfl
    · exact ih _
@[simp] theorem State.startOp_besidePcu (k : Nat) (o : Op) (s : State) : (s.startOp k o).besidePcu = s.besidePcu := by
  simp only [State.startOp]
  repeat' split
  all_goals simp
@[simp] theorem State.keepWaiting_besidePcu (k : Nat) (o : Op) (s : State) :
    (s.keepWaiting k o).besidePcu = s.besidePcu := by simp [State.keepWaiting]
@[simp] theorem State.examine_besidePcu (k : Nat) (s : State) : (s.examine k).besidePcu = s.besidePcu := by
  unfold State.examine
  repeat' split
  all_goals simp
@[simp] theorem State.takeEqual_besidePcu (k : Nat) (s : State) : (s.takeEqual k).besidePcu = s.besidePcu := by
  simp only [State.takeEqual]
  split <;> simp
@[simp] theorem State.sensorStall_besidePcu (k : Nat) (s : State) : (s.sensorStall k).besidePcu = s.besidePcu := by
  simp only [State.sensorStall]
  repeat' split
  all_goals simp
@[simp] theorem State.returnToWaiting_besidePcu (k : Nat) (s : State) :
    (s.returnToWaiting k).besidePcu = s.besidePcu := rfl
@[simp] theorem State.abortOp_besidePcu (id k : Nat) (s : State) : (s.abortOp id k).besidePcu = s.besidePcu := by
  simp only [State.abortOp]
  repeat' split
  all_goals simp
@[simp] theorem State.takeOver_besidePcu (k x : Nat) (o : Op) (s : State) :
    (s.takeOver k x o).besidePcu = s.besidePcu := rfl

/-! ## Changes of mode, neighbours, manual requests -/

@[simp] theorem State.holdPassage_besidePcu (k : Nat) (s : State) : (s.holdPassage k).besidePcu = s.besidePcu := by
  simp only [State.holdPassage]
  repeat' split
  all_goals simp
@[simp] theorem State.pcuHold_besidePcu (s : State) : s.pcuHold.besidePcu = s.besidePcu :=
  State.each_besidePcu _ _ (fun k s => s.holdPassage_besidePcu k) s
@[simp] theorem State.resumePassage_besidePcu (k : Nat) (s : State) :
    (s.resumePassage k).besidePcu = s.besidePcu := by
  unfold State.resumePassage
  repeat' split
  all_goals simp
@[simp] theorem State.pcuResume_besidePcu (s : State) : s.pcuResume.besidePcu = s.besidePcu :=
  State.each_besidePcu _ _ (fun k s => s.resumePassage_besidePcu k) s
@[simp] theorem State.neighbourChanged_besidePcu (j : Nat) (s : State) :
    (s.neighbourChanged j).besidePcu = s.besidePcu := by simp [State.neighbourChanged]
@[simp] theorem State.takePassageChanged_besidePcu (k : Nat) (s : State) :
    (s.takePassageChanged k).besidePcu = s.besidePcu :=
  State.each_besidePcu _ _ (fun j s => s.neighbourChanged_besidePcu j) s
@[simp] theorem State.manualShut_besidePcu (k : Nat) (s : State) : (s.manualShut k).besidePcu = s.besidePcu := by
  simp only [State.manualShut]
  repeat' split
  all_goals simp
@[simp] theorem State.retarget_besidePcu (k p : Nat) (o : Op) (s : State) :
    (s.retarget k p o).besidePcu = s.besidePcu := by
  simp only [State.retarget]
  repeat' split
  all_goals simp
@[simp] theorem State.manualRaise_besidePcu (k p : Nat) (s : State) : (s.manualRaise k p).besidePcu = s.besidePcu := by
  unfold State.manualRaise State.moveManual
  repeat' split
  all_goals simp
@[simp] theorem State.visualEqual_besidePcu (k : Nat) (a : PermitAction) (s : State) :
    (s.visualEqual k a).besidePcu = s.besidePcu := by
  cases a <;> simp [State.visualEqual]

end Sys2Proof.Machine
end

