-- ==== Sys2Proof/Proofs/RequestChanges.lean ====
section
/-! SUPPORT. What each request and each field event makes of the core of the state, and what each command makes of it: the changes of settings, levels, authority and journal, each with the tests that it has passed. -/

namespace Sys2Proof.Machine

/-! ## Requests -/

/-- What a request makes of the core. -/
inductive Recasts (st : Station) (s : State) : Request → Outer → Prop
  | same (r : Request) : Recasts st s r s.core
  | stopped : Recasts st s .emergencyStop { s.core with auth := s.auth.held (.emergencyStop st) }
  | resumed (passed : s.resumeBlockers = []) :
      Recasts st s .resumeService { s.core with auth := { s.auth with mode := .service, holdCause := none } }
  | left (passed : s.leaveBlockers = []) :
      Recasts st s .leaveConfig { s.core with auth := { s.auth with mode := .service, holdCause := none } }
  | configured (passed : s.configBar = none) :
      Recasts st s .enterConfig { s.core with auth := { s.auth with mode := .config, holdCause := none } }
  | held (r : Request) (x : Station) (command : x ≠ .toll) :
      Recasts st s r { s.core with auth := { s.auth with holder := some x, claim := none } }
  | kept (r : Request) : Recasts st s r { s.core with auth := { s.auth with claim := none } }
  | lodged (holder : s.auth.holder = some .console) :
      Recasts st s .claim { s.core with auth := { s.auth with claim := seconds s.timing.handover } }
  | flightSet (f : FlightFields) (lm : LevelMonitor) (passed : s.flightBar f = none) :
      Recasts st s (.setFlight f) { s.core with flight := flightOf f, lm := lm }
  | sensorSet (f : SensorFields) (lm : LevelMonitor) (passed : s.sensorBar f = none) :
      Recasts st s (.setSensor f) { s.core with lm := lm }
  | timed (r : Request) (x : Timing) : Recasts st s r { s.core with timing := x }
  | tolled (r : Request) (x : Toll) : Recasts st s r { s.core with toll := x }
  | charged (r : Request) (l : List Charge) :
      Recasts st s r { s.core with
        journal := (l.foldl (Accounts.post s.toll.clock.stamp) s.acc).journal
        nextSeq := (l.foldl (Accounts.post s.toll.clock.stamp) s.acc).nextSeq }
  | paid (r : Request) (kind : EntryKind) (stamp : Stamp) :
      Recasts st s r { s.core with
        journal := (s.acc.append kind stamp).journal, nextSeq := (s.acc.append kind stamp).nextSeq }
  | taken (r : Request) (n : Nat) : Recasts st s r { s.core with journal := s.acc.journal.drop n }

/-- A port changed but for its notices leaves the core alone. -/
theorem State.core_ports (s : State) {p : Ports} (same : p.sameNotices s.ports) :
    State.core { s with ports := p } = s.core := by
  have a : p.console.queue = s.ports.console.queue := same .console
  have b : p.region.queue = s.ports.region.queue := same .region
  have c : p.toll.queue = s.ports.toll.queue := same .toll
  simp [State.core, State.outer, Port.outer, a, b, c]

/-- A confirmation leaves the Toll Accounts alone. -/
theorem State.takeConfirmation_acc (t : Transit) (m : Move) (s : State) : (s.takeConfirmation t m).acc = s.acc := by
  unfold State.takeConfirmation State.when
  split
  · exact (State.acc_of_besidePcu (State.commandClose_besidePcu _ _ _)).trans rfl
  · rfl

/-- Each request makes one of these changes to the core. -/
theorem Serves.recasts {st : Station} {s t : State} {r : Request} (h : Serves st s r t) : Recasts st s r t.core := by
  have unchanged {u : State} (hu : u.core = s.core) : Recasts st s r u.core := hu ▸ .same r
  have outer {u : State} (hu : u.outer = s.outer) : Recasts st s r u.settle.core :=
    unchanged (u.settle_core.trans (State.core_of_outer hu))
  cases h with
  | unchanged => exact .same r
  | lostCleared => exact unchanged (s.core_ports (s.setPort_sameNotices (f := fun p => { p with lost := false }) fun _ => rfl))
  | subscribed l =>
    exact unchanged (s.core_ports (s.setPort_sameNotices (f := fun p => { p with subs := p.subs.apply l }) fun _ => rfl))
  | announced => exact unchanged (by simp [State.core_of_outer (State.calling_outer _)])
  | amended mark p m v b n => exact outer (by cases b <;> simp)
  | withdrawn mark v => exact unchanged (State.core_of_outer (s.withdrawWaiting_outer _ v))
  | berthDropped => exact unchanged (by simp)
  | autoSwitched on b => exact outer (s.switchAuto_outer b)
  | overflowed => exact unchanged (s.raise_core _)
  | planned => exact outer (s.createTransit_outer _ _ _)
  | queuedCancelled id t => exact outer (s.cancelQueued_outer t)
  | entryCancelled id t m => exact outer (s.cancelEntry_outer t m)
  | confirmed id kind t m => exact outer (s.takeConfirmation_outer t m)
  | cleared id kind t m =>
    have core := State.core_of_outer (s.takeConfirmation_outer t m)
    rw [State.settle_core, State.settleWith_core, core, State.toll_of_core core, s.takeConfirmation_acc t m]
    exact .charged _ _
  | abandoned id t => exact unchanged (by simp)
  | retried | gateOpened | gateClosed | gateStopped | sluiceShut | sluiceRaised | permitted => exact outer (by simp)
  | stopped => rw [State.settle_core, State.enterSafeHold_core]; exact .stopped
  | resumed passed => rw [State.settle_core, State.enterService_core]; exact .resumed passed
  | left passed => rw [State.settle_core, State.enterService_core]; exact .left passed
  | configured passed => rw [State.settle_core, State.enterConfigMode_core]; exact .configured passed
  | claimed x command => rw [State.setHolder_core]; exact .held _ x command
  | lodged holder => rw [State.lodgeClaim_core]; exact .lodged holder
  | released => rw [State.setHolder_core]; exact .held _ .region (by decide)
  | denied => rw [State.setHolder_core]; exact .kept _
  | flightSet f passed => rw [State.settle_core, State.core, State.applyFlight_outer]; exact .flightSet f _ passed
  | sensorSet f passed => rw [State.settle_core]; exact .sensorSet f _ passed
  | timingSet x => exact .timed _ _
  | clockSet day sec => exact .tolled _ _
  | tariffSet x => exact (State.raise_core _ _).symm ▸ .tolled _ _
  | accountOpened | accountClosed => exact unchanged rfl
  | accountHeld r n f => exact unchanged (s.changeAccount_core n f)
  | accountChanged r n f => exact unchanged (by simp [State.core_of_outer (State.push_outer _ _)])
  | paid n amount => rw [State.settle_core, State.postPayment_core]; exact .paid _ (.payment n amount) _
  | taken n => rw [State.settle_core]; exact .taken _ n
  | orphansResolved => exact unchanged s.resolveOrphans_core
  | slotSet m n q => exact unchanged ((State.setSlot_core n q _).trans s.resolveOrphans_core)

end Sys2Proof.Machine
end

