-- ==== Sys2Proof/Proofs/EventChanges.lean ====
section
/-! SUPPORT. What each field event makes of the core of the state: levels by the end of a poll with the settings kept, authority by ESTOP, by a fault and by a silence, and nothing else. -/

namespace Sys2Proof.Machine

/-! ## The settings of the Level Monitor -/

/-- Two records of the Level Monitor with the same settings and calibrations (R206). -/
def LevelMonitor.sameSettings (a b : LevelMonitor) : Prop :=
  (a.w = b.w ∧ a.eqTol = b.eqTol ∧ a.rippleLim = b.rippleLim ∧ a.stillCount = b.stillCount)
    ∧ ∀ p, (a.sensors.get p).zero = (b.sensors.get p).zero ∧ (a.sensors.get p).span = (b.sensors.get p).span

theorem LevelMonitor.sameSettings_refl (a : LevelMonitor) : a.sameSettings a := ⟨⟨rfl, rfl, rfl, rfl⟩, fun _ => ⟨rfl, rfl⟩⟩

theorem LevelMonitor.sameSettings.trans {a b c : LevelMonitor} (h : a.sameSettings b) (g : b.sameSettings c) :
    a.sameSettings c := by
  obtain ⟨⟨h1, h2, h3, h4⟩, h5⟩ := h
  obtain ⟨⟨g1, g2, g3, g4⟩, g5⟩ := g
  exact ⟨⟨h1.trans g1, h2.trans g2, h3.trans g3, h4.trans g4⟩, fun p => ⟨(h5 p).1.trans (g5 p).1, (h5 p).2.trans (g5 p).2⟩⟩

/-- A place written reads as before, or as what was written over the same record. -/
theorem Quin.get_set_cases {α : Type} (q : Quin α) (p j : Nat) (x : α) :
    (q.set p x).get j = q.get j ∨ ((q.set p x).get j = x ∧ q.get j = q.get p) := by
  rcases p with _ | _ | _ | _ | _ | p <;> rcases j with _ | _ | _ | _ | j <;> simp [Quin.get, Quin.set]

@[simp] theorem Quin.get_map {α β : Type} (f : α → β) (q : Quin α) (p : Nat) : (q.map f).get p = f (q.get p) := by
  match p with
  | 0 => rfl
  | 1 => rfl
  | 2 => rfl
  | 3 => rfl
  | _ + 4 => rfl

/-- A change of a sensor record that keeps its calibration keeps the settings. -/
theorem LevelMonitor.setSensor_sameSettings {f : Sensor → Sensor} (hf : ∀ x, (f x).zero = x.zero ∧ (f x).span = x.span)
    (p : Nat) (lm : LevelMonitor) : (lm.setSensor p f).sameSettings lm := by
  refine ⟨⟨rfl, rfl, rfl, rfl⟩, fun j => ?_⟩
  rcases Quin.get_set_cases lm.sensors p j (f (lm.sensors.get p)) with h | ⟨h, g⟩
  · simp [LevelMonitor.setSensor, h]
  · simp [LevelMonitor.setSensor, h, g, hf]

theorem LevelMonitor.map_sameSettings {f : Sensor → Sensor} (hf : ∀ x, (f x).zero = x.zero ∧ (f x).span = x.span)
    (lm : LevelMonitor) : LevelMonitor.sameSettings { lm with sensors := lm.sensors.map f } lm :=
  ⟨⟨rfl, rfl, rfl, rfl⟩, fun j => by simp [hf]⟩

theorem LevelMonitor.closeWindow_sameSettings (p : Nat) (l : List Nat) (lm : LevelMonitor) :
    (lm.closeWindow p l).sameSettings lm := by
  have evaluated (l : List Nat) (x : LevelMonitor) : (l.foldl LevelMonitor.evaluate x).sameSettings x := by
    induction l generalizing x with
    | nil => exact x.sameSettings_refl
    | cons k rest ih => exact (ih (x.evaluate k)).trans x.sameSettings_refl
  refine (evaluated l _).trans (LevelMonitor.setSensor_sameSettings ?_ p lm)
  exact fun _ => ⟨rfl, rfl⟩

theorem LevelMonitor.endRound_sameSettings (lm : LevelMonitor) : lm.endRound.sameSettings lm := by
  unfold LevelMonitor.endRound
  split <;> exact lm.sameSettings_refl

theorem LevelMonitor.nextPoll_sameSettings (p : Nat) (lm : LevelMonitor) : (lm.nextPoll p).sameSettings lm := by
  unfold LevelMonitor.nextPoll
  split
  · exact lm.sameSettings_refl
  · exact lm.endRound_sameSettings

theorem LevelMonitor.reform_sameSettings (n : Option Nat) (lm : LevelMonitor) : (lm.reform n).sameSettings lm :=
  lm.map_sameSettings (f := Sensor.afresh) fun _ => ⟨rfl, rfl⟩

theorem LevelMonitor.warm_sameSettings (i : Nat) (n : Option Nat) (lm : LevelMonitor) :
    (lm.warm i n).sameSettings lm := by
  unfold LevelMonitor.warm
  refine LevelMonitor.sameSettings.trans
    (LevelMonitor.map_sameSettings (f := Sensor.warm) (fun _ => ⟨rfl, rfl⟩) (if lm.reformDue then lm.reform n else lm)) ?_
  split
  · exact lm.reform_sameSettings n
  · exact lm.sameSettings_refl

theorem LevelMonitor.tick_sameSettings (i : Nat) (lm : LevelMonitor) : (lm.tick i).sameSettings lm := by
  unfold LevelMonitor.tick
  split <;> exact lm.sameSettings_refl

/-! ## The ends of a poll -/

/-- Work that makes nothing of the core but the levels, with the settings of the Level Monitor kept. -/
def State.levelsOnly (s t : State) : Prop := ∃ lm, t.core = { s.core with lm := lm } ∧ lm.sameSettings s.lm

theorem State.levelsOnly_of_core {s t : State} (h : t.core = s.core) : s.levelsOnly t :=
  ⟨s.lm, h, s.lm.sameSettings_refl⟩

theorem State.levelsOnly_of_lm (s : State) {lm : LevelMonitor} (h : lm.sameSettings s.lm) :
    s.levelsOnly { s with lm := lm } := ⟨lm, rfl, h⟩

theorem State.levelsOnly.trans {s t u : State} (h : s.levelsOnly t) (g : t.levelsOnly u) : s.levelsOnly u := by
  obtain ⟨lm, hcore, hsame⟩ := h
  obtain ⟨lm', gcore, gsame⟩ := g
  have ht : t.lm = lm := (congrArg Outer.lm hcore : _)
  exact ⟨lm', by rw [gcore, hcore], gsame.trans (ht ▸ hsame)⟩

theorem State.windowClosed_levelsOnly (p : Nat) (s : State) : s.levelsOnly (s.windowClosed p) := by
  refine ⟨s.lm.closeWindow p (s.passagesBeside p), ?_, s.lm.closeWindow_sameSettings p _⟩
  simp only [State.windowClosed, State.core_of_outer (State.pushAll_outer _ _), State.raise_core]
  rfl

/-- A change of sensor records that keeps their calibration changes the levels only. -/
theorem State.setSensor_levelsOnly {f : Sensor → Sensor} (hf : ∀ x, (f x).zero = x.zero ∧ (f x).span = x.span)
    (p : Nat) (s : State) : s.levelsOnly { s with lm := s.lm.setSensor p f } :=
  s.levelsOnly_of_lm (LevelMonitor.setSensor_sameSettings hf p s.lm)

theorem State.accumulate_levelsOnly (p raw : Nat) (s : State) : s.levelsOnly (s.accumulate p raw) := by
  have joined := s.setSensor_levelsOnly (p := p) (f := fun x =>
    { x with accum := x.accum.join (convertLevel x.zero x.span raw) (convertClamped x.zero x.span raw) })
    fun _ => ⟨rfl, rfl⟩
  simp only [State.accumulate, State.when]
  split
  · exact joined.trans (State.windowClosed_levelsOnly p _)
  · exact joined

theorem State.sensorRecovers_levelsOnly (p : Nat) (s : State) : s.levelsOnly (s.sensorRecovers p) := by
  refine (s.setSensor_levelsOnly (p := p) (f := fun x => { x with status := .good }) fun _ => ⟨rfl, rfl⟩).trans
    (State.levelsOnly_of_core ?_)
  simp only [State.sensorRecovers, State.core_of_outer (State.pushAll_outer _ _), State.raise_core]

theorem State.goodPoll_levelsOnly (p raw : Nat) (s : State) : s.levelsOnly (s.goodPoll p raw) := by
  have counted := s.setSensor_levelsOnly (p := p) (f := Sensor.countGood) fun _ => ⟨rfl, rfl⟩
  simp only [State.goodPoll]
  split
  · exact counted.trans (State.accumulate_levelsOnly p raw _)
  · unfold State.when
    split
    · exact counted.trans (State.sensorRecovers_levelsOnly p _)
    · exact counted

theorem State.sensorFails_levelsOnly (p : Nat) (cause : BadPollCause) (s : State) :
    s.levelsOnly (s.sensorFails p cause) := by
  have failed : (s.lm.setSensor p Sensor.fail).sameSettings s.lm :=
    LevelMonitor.setSensor_sameSettings (f := Sensor.fail) (fun _ => ⟨rfl, rfl⟩) p s.lm
  refine (s.levelsOnly_of_lm (lm := { s.lm.setSensor p Sensor.fail with
    still := (s.passagesBeside p).foldl (fun t k => t.set k 0) s.lm.still }) failed).trans (State.levelsOnly_of_core ?_)
  simp only [State.sensorFails, State.each_core _ State.sensorStall (fun k x => State.core_of_outer (x.sensorStall_outer k)),
    State.raise_core]

theorem State.badPoll_levelsOnly (p : Nat) (cause : BadPollCause) (s : State) : s.levelsOnly (s.badPoll p cause) := by
  have counted := s.setSensor_levelsOnly (p := p) (f := Sensor.countBad) fun _ => ⟨rfl, rfl⟩
  simp only [State.badPoll, State.when]
  split
  · exact counted.trans (State.sensorFails_levelsOnly p cause _)
  · exact counted

theorem State.pollEnded_levelsOnly {result : State → State} (h : ∀ s : State, s.levelsOnly (result s)) (p : Nat) (s : State) :
    s.levelsOnly (s.pollEnded p result) := by
  unfold State.pollEnded
  split
  · exact s.levelsOnly_of_lm ((LevelMonitor.endRound_sameSettings _).trans (s.lm.reform_sameSettings _))
  · exact (h s).trans (State.levelsOnly_of_lm _ (LevelMonitor.nextPoll_sameSettings p _))

/-! ## Field events -/

/-- What a field event makes of the core. -/
inductive Stirs (s : State) : Instr → Outer → Prop
  | same (c : Instr) : Stirs s c s.core
  | estopped (c : Instr) : Stirs s c { s.core with auth := Authority.held .estop { s.auth with estop := true } }
  | estopEnded (c : Instr) : Stirs s c { s.core with auth := { s.auth with estop := false } }
  | levelled (c : Instr) (lm : LevelMonitor) (same : lm.sameSettings s.lm) : Stirs s c { s.core with lm := lm }
  | faulted (c : Instr) (cause : HoldCause) : Stirs s c { s.core with auth := s.auth.held cause }
  | passed (st : Station) (holder : s.auth.holder = some st) :
      Stirs s (.silenceExpiry st) { s.core with
        auth := { s.auth with holder := some (otherCommand st), claim := none } }
  | orphaned (st : Station) : Stirs s (.silenceExpiry st) { s.core with
      auth := Authority.held .authorityLost { s.auth with holder := none, claim := none } }

theorem Stirs.of_outer {s u : State} {c : Instr} (hu : u.outer = s.outer) : Stirs s c u.core :=
  State.core_of_outer hu ▸ .same c

theorem Stirs.of_faulted {s u : State} {c : Instr} {cause : HoldCause}
    (hu : u.outer = { s.outer with auth := s.auth.held cause }) : Stirs s c u.core := by
  rw [State.core, hu]
  exact .faulted c cause

theorem Stirs.of_levelsOnly {s u : State} {c : Instr} (hu : s.levelsOnly u) : Stirs s c u.core := by
  obtain ⟨lm, hcore, hsame⟩ := hu
  rw [hcore]
  exact .levelled c lm hsame

theorem stirs_gateMoved (k : Nat) (x : GatePosition) (s : State) {c : Instr} : Stirs s c (s.gateMoved k x).core := by
  simp only [State.gateMoved]
  split
  · exact .of_outer (by simp)
  · exact .of_outer (by simp)
  · exact .of_outer (by simp)
  · unfold State.when
    split
    · exact .of_faulted (State.gateFails_outer k _ _)
    · exact .of_outer rfl
  · unfold State.when
    split
    · exact .of_faulted (State.gateFails_outer k _ _)
    · exact .of_outer rfl
  · exact .of_outer rfl

theorem stirs_feedbackTaken (k code : Nat) (s : State) {c : Instr} : Stirs s c (s.feedbackTaken k code).core := by
  simp only [State.feedbackTaken]
  split
  · exact .of_outer (by simp)
  · exact .of_outer rfl
  · unfold State.when
    split
    · exact .of_faulted (State.sluiceFails_outer k _ _)
    · exact .of_outer rfl
  · unfold State.when
    split
    · exact .of_faulted (State.sluiceFails_outer k _ _)
    · exact .of_outer rfl

theorem stirs_silence (st : Station) (s : State) : Stirs s (.silenceExpiry st) (s.takeSilenceExpiry st).core := by
  have quiet : (s.setPort st Port.fallSilent).core = s.core := s.core_ports (s.setPort_sameNotices fun _ => rfl)
  unfold State.takeSilenceExpiry
  split
  · unfold State.takeSilence
    split
    · next holds =>
      have holder : s.auth.holder = some st := of_decide_eq_true holds
      unfold State.holderSilent
      split
      · rw [State.setHolder_core, quiet]
        exact .passed st holder
      · rw [State.enterSafeHold_core, State.setHolder_core, quiet]
        exact .orphaned st
    · rw [quiet]
      exact .same _
  · exact .same _

/-- Each field event makes one of these changes to the core. -/
theorem FieldWork.stirs {c : Instr} {f : State → State} (h : FieldWork c f) (s : State) : Stirs s c (f s).core := by
  cases h with
  | estopAsserted =>
    unfold State.takeEstop
    split
    · exact .same _
    · rw [State.enterSafeHold_core]
      exact .estopped _
  | estopReleased =>
    unfold State.endEstop
    split
    · rw [State.raise_core]
      exact .estopEnded _
    · exact .same _
  | valueReply address raw =>
    unfold State.takeValue
    split
    · split
      · exact .of_levelsOnly (State.pollEnded_levelsOnly (fun u => u.goodPoll_levelsOnly _ raw) _ s)
      · exact .same _
    · exact .same _
  | faultReply address =>
    unfold State.takeFaultReply
    split
    · split
      · exact .of_levelsOnly (State.pollEnded_levelsOnly (fun u => u.badPoll_levelsOnly _ _) _ s)
      · exact .same _
    · exact .same _
  | pollTimeout =>
    unfold State.takePollTimeout
    split
    · split
      · exact .of_levelsOnly (State.pollEnded_levelsOnly (fun u => u.badPoll_levelsOnly _ _) _ s)
      · exact .same _
    · exact .same _
  | limits k a b =>
    unfold State.takeLimits
    split
    · exact stirs_gateMoved k _ s
    · exact .same _
  | travelTimeout k =>
    unfold State.takeTravelTimeout State.travelExpired
    repeat' split
    · exact .of_faulted (State.gateFails_outer k _ s)
    · exact .of_outer rfl
    · exact .same _
  | feedback k code =>
    unfold State.takeFeedback
    split
    · exact stirs_feedbackTaken k code s
    · exact .same _
  | moveTimeout k =>
    unfold State.takeMoveTimeout State.moveExpired
    repeat' split
    · exact .of_faulted (State.sluiceFails_outer k _ s)
    · exact .of_outer rfl
    · exact .same _
  | rampExpiry k =>
    unfold State.takeRampExpiry State.rampExpired
    split
    · exact .of_outer (by simp)
    · exact .same _
  | equaliseTimeout k =>
    simp only [State.takeEqualiseTimeout, State.equaliseExpired]
    repeat' split
    · exact .same _
    · exact .of_outer (by simp)
    · exact .of_outer rfl
    · exact .same _
  | agreementExpiry k side =>
    unfold State.takeAgreementExpiry State.agreementExpired
    split
    · exact .of_outer (by rw [State.when_outer, State.calling_outer, ite_self]; exact State.raise_outer _ _)
    · exact .same _
  | silenceExpiry st => exact stirs_silence st s

end Sys2Proof.Machine
end

