-- ==== Sys2Proof/Proofs/KeptParts.lean ====
section
/-! SUPPORT. What every command keeps of the outer parts of the state: the queue of commands, the places of the notice queues, the configuration outside CONFIG, the legality of authority. And the obligations about notices, configuration and authority. -/

namespace Sys2Proof.Machine

/-! ## The end of an event -/

@[simp] theorem State.finish_pins (s : State) : s.finish.pins = s.pins := State.pins_of_core (t := s.settle) s.settle_core
@[simp] theorem State.finish_flight (s : State) : s.finish.flight = s.flight := State.flight_of_core (t := s.settle) s.settle_core
@[simp] theorem State.finish_lm (s : State) : s.finish.lm = s.lm := State.lm_of_core (t := s.settle) s.settle_core
@[simp] theorem State.finish_auth (s : State) : s.finish.auth = s.auth := State.auth_of_core (t := s.settle) s.settle_core
@[simp] theorem State.finish_pending (s : State) : s.finish.pending = s.pending := State.pending_of_core (t := s.settle) s.settle_core
@[simp] theorem State.finish_journal (s : State) : s.finish.acc.journal = s.acc.journal :=
  State.journal_of_core (t := s.settle) s.settle_core
@[simp] theorem State.finish_nextSeq (s : State) : s.finish.acc.nextSeq = s.acc.nextSeq :=
  State.nextSeq_of_core (t := s.settle) s.settle_core

/-! ## SAFE_HOLD entry, overdue and discard timers -/

@[simp] theorem State.enterSafeHold_flight (c : HoldCause) (s : State) : (s.enterSafeHold c).flight = s.flight :=
  (congrArg Outer.flight (s.enterSafeHold_core c) : _)
@[simp] theorem State.enterSafeHold_lm (c : HoldCause) (s : State) : (s.enterSafeHold c).lm = s.lm :=
  (congrArg Outer.lm (s.enterSafeHold_core c) : _)
@[simp] theorem State.enterSafeHold_pending (c : HoldCause) (s : State) : (s.enterSafeHold c).pending = s.pending :=
  (congrArg Outer.pending (s.enterSafeHold_core c) : _)
@[simp] theorem State.enterSafeHold_journal (c : HoldCause) (s : State) :
    (s.enterSafeHold c).acc.journal = s.acc.journal := (congrArg Outer.journal (s.enterSafeHold_core c) : _)
@[simp] theorem State.enterSafeHold_nextSeq (c : HoldCause) (s : State) :
    (s.enterSafeHold c).acc.nextSeq = s.acc.nextSeq := (congrArg Outer.nextSeq (s.enterSafeHold_core c) : _)
theorem State.enterSafeHold_auth (c : HoldCause) (s : State) : (s.enterSafeHold c).auth = s.auth.held c :=
  (congrArg Outer.auth (s.enterSafeHold_core c) : _)

theorem State.takeOverdue_core (id : Nat) (s : State) : (s.takeOverdue id).core = s.core := by
  unfold State.takeOverdue
  repeat' split
  · exact State.raise_core _ _
  all_goals rfl

theorem State.takeDiscard_core (n : Nat) (s : State) : (s.takeDiscard n).core = s.core := by
  unfold State.takeDiscard
  split <;> rfl

/-! ## The notice queues (R200) -/

/-- The notices fit where the core counts no excess. -/
theorem State.noticesFit_iff (s : State) :
    s.noticesFit ↔ s.core.console.2 = 0 ∧ s.core.region.2 = 0 ∧ s.core.tollPort.2 = 0 := by
  have excess (st : Station) : (s.ports.get st).queue.length ≤ Config.noticeDepth
      ↔ ((s.ports.get st).queue.length - Config.noticeDepth) = 0 := Nat.sub_eq_zero_iff_le.symm
  constructor
  · intro h
    exact ⟨(excess .console).1 (h .console), (excess .region).1 (h .region), (excess .toll).1 (h .toll)⟩
  · rintro ⟨a, b, c⟩ st
    cases st
    · exact (excess .console).2 a
    · exact (excess .region).2 b
    · exact (excess .toll).2 c

/-- A change of the core that keeps its count of notices keeps the notices fitting. -/
theorem State.noticesFit_of_excess {s t : State} (h : s.noticesFit) (a : t.core.console = s.core.console)
    (b : t.core.region = s.core.region) (c : t.core.tollPort = s.core.tollPort) : t.noticesFit := by
  rw [State.noticesFit_iff] at h ⊢
  rwa [a, b, c]

theorem State.noticesFit_of_core {s t : State} (h : s.noticesFit) (g : t.core = s.core) : t.noticesFit :=
  State.noticesFit_of_excess h (by rw [g]) (by rw [g]) (by rw [g])

/-- A transmitter takes notices out of its queue and puts none in. -/
theorem Port.pump_queue_length (p : Port) : p.pump.queue.length ≤ p.queue.length := by
  unfold Port.pump
  split
  · unfold Port.start
    split <;> simp
  · exact le_rfl

theorem State.noticesFit_pump {s : State} (h : s.noticesFit) : s.pump.noticesFit := by
  intro st
  rw [State.pump_ports, Ports.get_map]
  exact (Port.pump_queue_length _).trans (h st)

theorem State.noticesFit_ports {s : State} (h : s.noticesFit) {p : Ports} (same : p.sameNotices s.ports) :
    State.noticesFit { s with ports := p } := State.noticesFit_of_core h (s.core_ports same)

theorem State.noticesFit_finish {s : State} (h : s.noticesFit) : s.finish.noticesFit :=
  State.noticesFit_pump (State.noticesFit_of_core h s.settle_core)

/-- A port set afresh holds no notice (R203). -/
theorem State.noticesFit_fresh {s : State} {n : Nat} (h : s.ports = Ports.fresh n) : s.noticesFit := by
  intro st
  rw [h]
  cases st <;> exact Nat.zero_le _

theorem Serves.noticesFit {st : Station} {s t : State} {r : Request} (h : Serves st s r t) (fit : s.noticesFit) :
    t.noticesFit := by
  have made := h.recasts
  generalize hc : t.core = c at made
  have same : c.console = s.core.console ∧ c.region = s.core.region ∧ c.tollPort = s.core.tollPort := by
    cases made <;> exact ⟨rfl, rfl, rfl⟩
  exact State.noticesFit_of_excess fit (by rw [hc, same.1]) (by rw [hc, same.2.1]) (by rw [hc, same.2.2])

theorem FieldWork.noticesFit {c : Instr} {f : State → State} (h : FieldWork c f) {s : State} (fit : s.noticesFit) :
    (f s).noticesFit := by
  have made := h.stirs s
  generalize hc : (f s).core = o at made
  have same : o.console = s.core.console ∧ o.region = s.core.region ∧ o.tollPort = s.core.tollPort := by
    cases made <;> exact ⟨rfl, rfl, rfl⟩
  exact State.noticesFit_of_excess fit (by rw [hc, same.1]) (by rw [hc, same.2.1]) (by rw [hc, same.2.2])

theorem State.noticesFit_supplied (s : State) : s.supplied.noticesFit := by
  have fresh : s.powerOnBlocks.noticesFit := State.noticesFit_fresh rfl
  refine State.noticesFit_finish ?_
  unfold State.when
  split
  · refine State.noticesFit_of_excess fresh ?_ ?_ ?_ <;> rw [State.enterSafeHold_core]
  · exact fresh

theorem State.noticesFit_warmReset (s : State) : s.warmReset.noticesFit :=
  State.noticesFit_pump (State.noticesFit_of_core (State.noticesFit_fresh (s := s.warmBlocks) rfl) (State.raiseAll_core _ _))

/-- Every command keeps the notices fitting. -/
theorem Leaves.noticesFit {s t : State} {c : Instr} (h : Leaves s c t) (fit : s.noticesFit) : t.noticesFit := by
  cases h with
  | supplied => exact s.noticesFit_supplied
  | resetEnds => exact State.noticesFit_warmReset _
  | restarted => exact s.noticesFit_warmReset
  | worked c f x work =>
    have fit : State.noticesFit { s with pins := x } := fit
    exact State.noticesFit_finish (work.noticesFit fit)
  | overdue id => exact State.noticesFit_pump (State.noticesFit_of_core fit (s.takeOverdue_core id))
  | handedOver =>
    refine State.noticesFit_pump ?_
    unfold State.takeHandover
    split
    · refine State.noticesFit_of_excess fit ?_ ?_ ?_ <;> rw [State.lapseClaim_core]
    · exact fit
  | ported c p same => exact State.noticesFit_ports fit same
  | pumped c p same => exact State.noticesFit_pump (State.noticesFit_ports fit same)
  | served c h r a p t asked right same block =>
    have served := block.noticesFit (State.noticesFit_ports fit same)
    exact State.noticesFit_pump (State.noticesFit_ports served
      (t.setPort_sameNotices (f := fun p => { p with reply := some { frames := replyFrames h.tag r.code a, sent := 0 } })
        fun _ => rfl))
  | discarded n => exact State.noticesFit_of_core fit (s.takeDiscard_core n)
  | resetHeld | recorded | ticked | lit | second => exact fit

theorem State.noticesFit_countDown {s : State} (fit : s.noticesFit) : s.countDown.noticesFit := by
  unfold State.countDown
  split
  · exact fit
  · intro st
    simp only [Ports.get_map]
    exact fit st

/-- Settles O58: the work of a block leaves the count of notices over 16 as it stands, the transmitters and both resets take notices away. -/
theorem noticeQueuesKept : Obligations.NoticeQueuesKept := by
  intro s t fit h
  rcases step_leaves h with ⟨c, rest, left⟩ | rfl
  · have fit : State.noticesFit { s with pending := rest } := fit
    exact left.noticesFit fit
  · exact State.noticesFit_countDown fit

/-! ## The queue of commands -/

theorem Serves.pending {st : Station} {s t : State} {r : Request} (h : Serves st s r t) : t.pending = s.pending := by
  have made := h.recasts
  have read : t.pending = t.core.pending := rfl
  rw [read]
  generalize t.core = c at made
  cases made <;> rfl

theorem FieldWork.pending {c : Instr} {f : State → State} (h : FieldWork c f) (s : State) :
    (f s).pending = s.pending := by
  have made := h.stirs s
  have read : (f s).pending = (f s).core.pending := rfl
  rw [read]
  generalize (f s).core = c at made
  cases made <;> rfl

theorem State.takeHandover_pending (s : State) : s.takeHandover.pending = s.pending := by
  unfold State.takeHandover
  split <;> rfl

/-- No command changes the queue of commands. -/
theorem Leaves.pending {s t : State} {c : Instr} (h : Leaves s c t) : t.pending = s.pending := by
  cases h with
  | supplied =>
    refine (State.finish_pending _).trans ?_
    unfold State.when
    split
    · exact State.enterSafeHold_pending _ _
    · rfl
  | resetEnds => exact State.raiseAll_pending _ _
  | restarted => exact State.raiseAll_pending _ _
  | worked c f x work => exact (State.finish_pending _).trans (work.pending _)
  | overdue id => exact State.pending_of_core (t := s.takeOverdue id) (s.takeOverdue_core id)
  | handedOver => exact s.takeHandover_pending
  | served c h r a p t asked right same block => exact block.pending
  | discarded n => exact State.pending_of_core (s.takeDiscard_core n)
  | ported | pumped | resetHeld | recorded | ticked | lit | second => rfl

/-! ## The configuration (R15, R204, R206) -/

/-- The flight description, and the settings and calibrations of the Level Monitor, are as they were. -/
def State.sameConfig (s t : State) : Prop := t.flight = s.flight ∧ t.lm.sameSettings s.lm

theorem State.sameConfig_refl (s : State) : s.sameConfig s := ⟨rfl, s.lm.sameSettings_refl⟩

theorem State.sameConfig_of_eq {s t : State} (hf : t.flight = s.flight) (hl : t.lm = s.lm) : s.sameConfig t :=
  ⟨hf, hl ▸ s.lm.sameSettings_refl⟩

theorem State.mode_of_flightBar {s : State} {f : FlightFields} (h : s.flightBar f = none) : s.auth.mode = .config := by
  unfold State.flightBar at h
  split at h
  · cases h
  · next mode => exact not_not.1 mode

theorem State.mode_of_sensorBar {s : State} {f : SensorFields} (h : s.sensorBar f = none) : s.auth.mode = .config := by
  unfold State.sensorBar at h
  split at h
  · cases h
  · next mode => exact not_not.1 mode

theorem Serves.sameConfig {st : Station} {s t : State} {r : Request} (h : Serves st s r t)
    (mode : s.auth.mode ≠ .config) : s.sameConfig t := by
  have made := h.recasts
  have flight : t.flight = t.core.flight := rfl
  have lm : t.lm = t.core.lm := rfl
  rw [State.sameConfig, flight, lm]
  generalize t.core = c at made
  cases made with
  | flightSet f lm passed => exact absurd (State.mode_of_flightBar passed) mode
  | sensorSet f lm passed => exact absurd (State.mode_of_sensorBar passed) mode
  | _ => exact s.sameConfig_refl

theorem FieldWork.sameConfig {c : Instr} {f : State → State} (h : FieldWork c f) (s : State) : s.sameConfig (f s) := by
  have made := h.stirs s
  have flight : (f s).flight = (f s).core.flight := rfl
  have lm : (f s).lm = (f s).core.lm := rfl
  rw [State.sameConfig, flight, lm]
  generalize (f s).core = c at made
  cases made with
  | levelled c lm same => exact ⟨rfl, same⟩
  | _ => exact s.sameConfig_refl

theorem State.warmReset_sameConfig (s : State) : s.sameConfig s.warmReset :=
  ⟨State.raiseAll_flight _ _, (State.raiseAll_lm _ _).symm ▸ s.lm.warm_sameSettings _ _⟩

theorem Leaves.sameConfig {s t : State} {c : Instr} (h : Leaves s c t) (supply : c ≠ .powerOn)
    (mode : s.auth.mode ≠ .config) : s.sameConfig t := by
  cases h with
  | supplied => exact absurd rfl supply
  | resetEnds => exact State.warmReset_sameConfig _
  | restarted => exact s.warmReset_sameConfig
  | worked c f x work =>
    have kept := work.sameConfig { s with pins := x }
    exact ⟨(State.finish_flight _).trans kept.1, (State.finish_lm _).symm ▸ kept.2⟩
  | ticked => exact ⟨rfl, s.lm.tick_sameSettings _⟩
  | overdue id =>
    have core := s.takeOverdue_core id
    exact State.sameConfig_of_eq (State.flight_of_core (t := s.takeOverdue id) core) (State.lm_of_core (t := s.takeOverdue id) core)
  | handedOver =>
    unfold State.takeHandover
    split <;> exact s.sameConfig_refl
  | served c h r a p t asked right same block => exact block.sameConfig mode
  | discarded n =>
    have core := s.takeDiscard_core n
    exact State.sameConfig_of_eq (State.flight_of_core core) (State.lm_of_core core)
  | ported | pumped | resetHeld | recorded | lit | second => exact s.sameConfig_refl

/-- Settles O56: of all commands but POWER_ON only SET_FLIGHT and SET_SENSOR write the configuration, and their first test is the mode. -/
theorem configurationChangesInConfig : Obligations.ConfigurationChangesInConfig := by
  intro c s t h supply mode
  obtain ⟨flight, ⟨w, eqTol, rippleLim, stillCount⟩, calibrations⟩ := (exec_leaves h).sameConfig supply mode
  exact ⟨flight, w, eqTol, rippleLim, stillCount, calibrations⟩

end Sys2Proof.Machine
end

