-- ==== Sys2Proof/Proofs/AuthorityRules.lean ====
section
/-! SUPPORT. Command authority over a step (09): what any command makes of the records of the Authority Controller, with the tests that a change of mode has passed; what those tests say; and the obligation about them. -/

namespace Sys2Proof.Machine

/-! ## What a command makes of the authority records -/

/-- A command asks for a request: as a frame of its own row, or as one that it carries. -/
def State.asks (s : State) (c : Instr) (r : Request) : Prop := (∃ h, c = Request.command h r) ∨ s.carries c r

/-- The authority records that a command other than POWER_ON may leave. -/
inductive Rules (s : State) : Instr → Authority → Prop
  | noted (c : Instr) (level : Bool) : Rules s c { s.auth with estop := level }
  | held (c : Instr) (cause : HoldCause) (level : Bool) : Rules s c (Authority.held cause { s.auth with estop := level })
  | resumed (c : Instr) (passed : s.resumeBlockers = []) (asked : s.asks c .resumeService)
      (holder : s.auth.holder ≠ none) : Rules s c { s.auth with mode := .service, holdCause := none }
  | left (c : Instr) (passed : s.leaveBlockers = []) (asked : s.asks c .leaveConfig)
      (holder : s.auth.holder ≠ none) : Rules s c { s.auth with mode := .service, holdCause := none }
  | configured (c : Instr) (passed : s.configBar = none) (asked : s.asks c .enterConfig)
      (holder : s.auth.holder ≠ none) : Rules s c { s.auth with mode := .config, holdCause := none }
  | moved (c : Instr) (x : Station) (command : s.auth.holder ≠ some .toll → x ≠ .toll) :
      Rules s c { s.auth with holder := some x, claim := none }
  | ended (c : Instr) : Rules s c { s.auth with claim := none }
  | lodged (c : Instr) (n : Nat) (holder : s.auth.holder = some .console) :
      Rules s c { s.auth with claim := some n }
  | orphaned (st : Station) :
      Rules s (.silenceExpiry st) (Authority.held .authorityLost { s.auth with holder := none, claim := none })
  | warm (c : Instr) (level : Bool)
      (reset : c = .resetReleased ∨ c = .frameSent .console ∧ restartReply s.ports.console.line = true) :
      Rules s c (Authority.warm level)

theorem Rules.same (s : State) (c : Instr) : Rules s c s.auth := .noted c s.auth.estop

theorem Rules.of_held (s : State) (c : Instr) (cause : HoldCause) : Rules s c (s.auth.held cause) :=
  .held c cause s.auth.estop

/-- A request marked holder-only is admitted only where some station holds authority. -/
theorem State.holder_of_admits {s : State} {kind : Nat} {st : Station} (only : right kind st ≠ .yes)
    (h : s.admits kind st = true) : s.auth.holder ≠ none := by
  unfold State.admits at h
  split at h
  · contradiction
  · intro none
    simp [State.isHolder, none] at h
  · cases h

theorem Serves.rules {st : Station} {s t : State} {r : Request} {c : Instr} {p : Ports} (asked : s.asks c r)
    (right : s.admits r.code st = true) (h : Serves st { s with ports := p } r t) : Rules s c t.auth := by
  have made := h.recasts
  have auth : t.auth = t.core.auth := rfl
  rw [auth]
  generalize t.core = o at made
  cases made with
  | stopped => exact .of_held s c _
  | resumed passed => exact .resumed c passed asked (State.holder_of_admits (by cases st <;> decide) right)
  | left passed => exact .left c passed asked (State.holder_of_admits (by cases st <;> decide) right)
  | configured passed => exact .configured c passed asked (State.holder_of_admits (by cases st <;> decide) right)
  | held r x command => exact .moved c x fun _ => command
  | kept => exact .ended c
  | lodged holder => exact .lodged c _ holder
  | _ => exact .same s c

theorem FieldWork.rules {c : Instr} {f : State → State} (h : FieldWork c f) (s : State) (x : Pins) :
    Rules s c (f { s with pins := x }).auth := by
  have made := h.stirs { s with pins := x }
  have auth : (f { s with pins := x }).auth = (f { s with pins := x }).core.auth := rfl
  rw [auth]
  generalize (f { s with pins := x }).core = o at made
  cases made with
  | estopped => exact .held c _ true
  | estopEnded => exact .noted c false
  | faulted c cause => exact .of_held s c cause
  | passed st holder => exact .moved _ _ fun toll => by cases st <;> simp_all [otherCommand]
  | orphaned st => exact .orphaned st
  | _ => exact .same s c

theorem State.warmReset_auth (s : State) : s.warmReset.auth = Authority.warm s.pins.estop := State.raiseAll_auth _ _

/-- Every command but a POWER_ON leaves one of these records. -/
theorem Leaves.rules {s t : State} {c : Instr} (h : Leaves s c t) :
    (c = .powerOn ∧ t = s.supplied) ∨ Rules s c t.auth := by
  cases h with
  | supplied => exact .inl ⟨rfl, rfl⟩
  | resetEnds => exact .inr ((State.warmReset_auth _).symm ▸ .warm _ _ (.inl rfl))
  | restarted line => exact .inr ((State.warmReset_auth _).symm ▸ .warm _ _ (.inr ⟨rfl, line⟩))
  | worked c f x work => exact .inr ((State.finish_auth _).symm ▸ work.rules s x)
  | overdue id => exact .inr ((State.auth_of_core (t := s.takeOverdue id) (s.takeOverdue_core id)).symm ▸ .same s _)
  | handedOver =>
    have auth : s.takeHandover.pump.auth = s.takeHandover.auth := rfl
    rw [auth]
    unfold State.takeHandover
    split
    · exact .inr (.ended _)
    · exact .inr (.same s _)
  | served c h r a p t asked right same block => exact .inr (block.rules asked right : Rules s c t.auth)
  | discarded n => exact .inr ((State.auth_of_core (s.takeDiscard_core n)).symm ▸ .same s _)
  | ported | pumped | resetHeld | recorded | ticked | lit | second => exact .inr (.same s _)

/-! ## Authority stays legal -/

/-- The four rules of a legal record, one hypothesis each. -/
theorem Authority.legal_held {a : Authority} (h : a.legal) (cause : HoldCause) : (a.held cause).legal := by
  unfold Authority.held
  split
  · exact h
  · obtain ⟨-, -, claim, toll⟩ := h
    exact ⟨by simp, fun _ => rfl, claim, toll⟩

theorem Authority.legal_powerOn (level : Bool) : (Authority.powerOn level).legal :=
  ⟨by simp [Authority.powerOn], by simp [Authority.powerOn], by simp [Authority.powerOn], by simp [Authority.powerOn]⟩

theorem Authority.legal_warm (level : Bool) : (Authority.warm level).legal :=
  ⟨by simp [Authority.warm], by simp [Authority.warm], by simp [Authority.warm], by simp [Authority.warm]⟩

/-- A holder that is lost with SAFE_HOLD entered leaves a legal record. -/
theorem Authority.legal_orphaned {a : Authority} (h : a.legal) :
    (Authority.held .authorityLost { a with holder := none, claim := none }).legal := by
  obtain ⟨cause, -, -, -⟩ := h
  unfold Authority.held
  split
  · next mode =>
    exact ⟨cause, fun _ => mode, fun lodged => absurd lodged Bool.false_ne_true, by simp⟩
  · exact ⟨by simp, fun _ => rfl, fun lodged => absurd lodged Bool.false_ne_true, by simp⟩

theorem Rules.legal {s : State} {c : Instr} {a : Authority} (h : Rules s c a) (legal : s.auth.legal) : a.legal := by
  have noted (level : Bool) : Authority.legal { s.auth with estop := level } := legal
  obtain ⟨cause, someHolder, claim, toll⟩ := legal
  cases h with
  | noted _ level => exact noted level
  | held _ cause level => exact Authority.legal_held (noted level) cause
  | resumed _ passed asked holder | left _ passed asked holder | configured _ passed asked holder =>
    exact ⟨by simp, fun none => absurd none holder, claim, toll⟩
  | moved _ x command => exact ⟨cause, by simp, by simp, by simpa using command toll⟩
  | ended => exact ⟨cause, someHolder, by simp, toll⟩
  | lodged _ n holder => exact ⟨cause, someHolder, fun _ => holder, toll⟩
  | orphaned st => exact Authority.legal_orphaned ⟨cause, someHolder, claim, toll⟩
  | warm _ level reset => exact Authority.legal_warm level

theorem State.supplied_auth (s : State) :
    s.supplied.auth
      = if s.pins.estop then (Authority.powerOn s.pins.estop).held .estop else Authority.powerOn s.pins.estop := by
  refine (State.finish_auth _).trans ?_
  unfold State.when
  split
  · exact State.enterSafeHold_auth _ _
  · rfl

theorem Leaves.legal {s t : State} {c : Instr} (h : Leaves s c t) (legal : s.auth.legal) : t.auth.legal := by
  rcases h.rules with ⟨-, rfl⟩ | rules
  · rw [State.supplied_auth]
    split
    · exact Authority.legal_held (Authority.legal_powerOn _) _
    · exact Authority.legal_powerOn _
  · exact rules.legal legal

theorem State.legal_countDown {s : State} (legal : s.auth.legal) : s.countDown.auth.legal := by
  unfold State.countDown
  split
  · exact legal
  · obtain ⟨cause, someHolder, claim, toll⟩ := legal
    exact ⟨cause, someHolder, fun lodged => claim (by simpa [Machine.countDown] using lodged), toll⟩

/-! ## What the tests of a change of mode say (R172, R173, R177) -/

theorem State.modeBlockers_eq_nil {s : State} {m : Mode} : s.modeBlockers m = [] ↔ s.auth.mode = m := by
  simp [State.modeBlockers]

theorem State.incompleteBlockers_eq_nil {s : State} : s.incompleteBlockers = [] ↔ s.missing = none := by
  cases h : s.missing <;> simp [State.incompleteBlockers, h]

theorem State.estopBlockers_eq_nil {s : State} : s.estopBlockers = [] ↔ s.auth.estop = false := by
  simp [State.estopBlockers]

theorem State.mem_passagesInUse {s : State} {k : Nat} : k ∈ s.passagesInUse ↔ k ≤ s.count := by
  simp [State.passagesInUse]

theorem State.mem_chambersInUse {s : State} {c : Nat} : c ∈ s.chambersInUse ↔ 1 ≤ c ∧ c ≤ s.count := by
  simp only [State.chambersInUse, List.mem_map, List.mem_range]
  constructor
  · rintro ⟨i, hi, rfl⟩
    omega
  · rintro ⟨h1, h2⟩
    exact ⟨c - 1, by omega, by omega⟩

/-- A chamber has a holder where a transit holds it. -/
theorem State.holderOf_isSome {s : State} {c : Nat} : (s.holderOf c).isSome = true ↔ ∃ t ∈ s.table, c ∈ t.held := by
  simp [State.holderOf]

theorem State.faultBlockers_eq_nil {s : State} : s.faultBlockers = [] ↔
    ∀ k, k ≤ s.count → ¬ ((s.passage k).gate.state = .fault ∨ (s.passage k).sluice.state = .fault) := by
  simp [State.faultBlockers, State.mem_passagesInUse, Passage.faulted]

theorem State.sensorBlockers_eq_nil {s : State} : s.sensorBlockers = [] ↔
    ∀ c, 1 ≤ c → c ≤ s.count → (∃ t ∈ s.table, c ∈ t.held) → (s.sensor c).status = .good := by
  have good (x : Sensor) : ¬ x.status = .failed ↔ x.status = .good := by cases x.status <;> simp
  simp only [State.sensorBlockers, List.map_eq_nil_iff, List.filter_eq_nil_iff, State.mem_chambersInUse,
    Bool.and_eq_true, decide_eq_true_eq, not_and, State.holderOf_isSome, good, and_imp]

theorem State.resumeBlockers_eq_nil {s : State} : s.resumeBlockers = [] ↔
    s.auth.mode = .safeHold ∧ s.missing = none ∧ s.auth.estop = false
      ∧ (∀ k, k ≤ s.count → ¬ ((s.passage k).gate.state = .fault ∨ (s.passage k).sluice.state = .fault))
      ∧ ∀ c, 1 ≤ c → c ≤ s.count → (∃ t ∈ s.table, c ∈ t.held) → (s.sensor c).status = .good := by
  simp only [State.resumeBlockers, List.append_eq_nil_iff, State.modeBlockers_eq_nil,
    State.incompleteBlockers_eq_nil, State.estopBlockers_eq_nil, State.faultBlockers_eq_nil,
    State.sensorBlockers_eq_nil, and_assoc]

theorem State.leaveBlockers_eq_nil {s : State} :
    s.leaveBlockers = [] ↔ s.auth.mode = .config ∧ s.missing = none ∧ s.auth.estop = false := by
  simp only [State.leaveBlockers, List.append_eq_nil_iff, State.modeBlockers_eq_nil,
    State.incompleteBlockers_eq_nil, State.estopBlockers_eq_nil, and_assoc]

theorem State.configBar_eq_none {s : State} : s.configBar = none ↔ s.auth.mode ≠ .config ∧ s.table = []
    ∧ (∀ k, k ≤ s.count → (s.passage k).slot = none)
    ∧ ∀ k, k ≤ s.count → (s.passage k).gate.state = .closed ∧ (s.passage k).sluice.state = .shut := by
  have slots : s.passagesInUse.any (fun k => (s.passage k).slot.isSome) = false
      ↔ ∀ k, k ≤ s.count → (s.passage k).slot = none := by simp [State.mem_passagesInUse]
  have closed : s.passagesInUse.any (fun k => !(s.passage k).fullyClosed) = false
      ↔ ∀ k, k ≤ s.count → (s.passage k).gate.state = .closed ∧ (s.passage k).sluice.state = .shut := by
    simp [State.mem_passagesInUse, Passage.fullyClosed]
  rw [← slots, ← closed]
  unfold State.configBar
  generalize s.passagesInUse.any (fun k => (s.passage k).slot.isSome) = busy
  generalize s.passagesInUse.any (fun k => !(s.passage k).fullyClosed) = ajar
  by_cases mode : s.auth.mode = .config
  · simp [mode]
  · cases s.table with
    | nil => cases busy <;> cases ajar <;> simp [mode]
    | cons t rest => simp [mode]

/-! ## Which commands change the mode -/

/-- SAFE_HOLD entry leads to no other mode. -/
theorem Authority.held_mode (cause : HoldCause) (a : Authority) : (a.held cause).mode = .safeHold := by
  unfold Authority.held
  split
  · assumption
  · rfl

theorem Authority.held_holder (cause : HoldCause) (a : Authority) : (a.held cause).holder = a.holder := by
  unfold Authority.held
  split <;> rfl

theorem Authority.held_claim (cause : HoldCause) (a : Authority) : (a.held cause).claim = a.claim := by
  unfold Authority.held
  split <;> rfl

/-- SERVICE after another mode is a RESUME_SERVICE or a LEAVE_CONFIG that has met its tests. -/
theorem Rules.service {s : State} {c : Instr} {a : Authority} (h : Rules s c a) (before : s.auth.mode ≠ .service)
    (after : a.mode = .service) :
    (s.resumeBlockers = [] ∧ s.asks c .resumeService) ∨ (s.leaveBlockers = [] ∧ s.asks c .leaveConfig) := by
  cases h with
  | held _ cause level => simp [Authority.held_mode] at after
  | orphaned st => simp [Authority.held_mode] at after
  | resumed _ passed asked => exact .inl ⟨passed, asked⟩
  | left _ passed asked => exact .inr ⟨passed, asked⟩
  | configured => cases after
  | warm => cases after
  | noted | moved | ended | lodged => exact absurd after before

/-- CONFIG after another mode is an ENTER_CONFIG that has met its tests. -/
theorem Rules.config {s : State} {c : Instr} {a : Authority} (h : Rules s c a) (before : s.auth.mode ≠ .config)
    (after : a.mode = .config) : s.configBar = none ∧ s.asks c .enterConfig := by
  cases h with
  | held _ cause level => simp [Authority.held_mode] at after
  | orphaned st => simp [Authority.held_mode] at after
  | configured _ passed asked => exact ⟨passed, asked⟩
  | resumed | left | warm => cases after
  | noted | moved | ended | lodged => exact absurd after before

/-- A change of mode keeps the holder and the claim but for the warm reset and a silence. -/
theorem Rules.keeps_holder {s : State} {c : Instr} {a : Authority} (h : Rules s c a)
    (changed : a.mode ≠ s.auth.mode) (release : c ≠ .resetReleased) (silence : ∀ st, c ≠ .silenceExpiry st)
    (restart : ¬ (c = .frameSent .console ∧ restartReply s.ports.console.line = true)) :
    a.holder = s.auth.holder ∧ a.claim = s.auth.claim := by
  cases h with
  | held _ cause level => exact ⟨Authority.held_holder _ _, Authority.held_claim _ _⟩
  | resumed | left | configured => exact ⟨rfl, rfl⟩
  | orphaned st => exact absurd rfl (silence st)
  | warm _ level reset => exact (reset.elim release restart).elim
  | noted | moved | ended | lodged => exact absurd rfl changed

/-- Settles O57: each command leaves one of the records of `Rules`, all of them legal; a change of mode is one of three of them, whose tests read as the rules of the chapter. -/
theorem authorityKeptLegal : Obligations.AuthorityKeptLegal := by
  refine ⟨fun s t legal h => ?legal, fun c s t h supply => ?modes,
    fun s => ⟨State.resumeBlockers_eq_nil, State.leaveBlockers_eq_nil, State.configBar_eq_none⟩⟩
  case legal =>
    rcases step_leaves h with ⟨c, rest, left⟩ | rfl
    · have legal : State.auth { s with pending := rest } |>.legal := legal
      exact left.legal legal
    · exact State.legal_countDown legal
  case modes =>
    have rules := (exec_leaves h).rules.resolve_left fun powered => supply powered.1
    refine ⟨fun before after => ?resumed, fun before after => ?left, rules.config, rules.keeps_holder⟩
    case resumed =>
      rcases rules.service (by simp [before]) after with resumed | ⟨passed, -⟩
      · exact resumed
      · simp [before, State.leaveBlockers_eq_nil] at passed
    case left =>
      rcases rules.service (by simp [before]) after with ⟨passed, -⟩ | left
      · simp [before, State.resumeBlockers_eq_nil] at passed
      · exact left

end Sys2Proof.Machine
end

