-- ==== Sys2Proof/Proofs/TransitTable.lean ====
section
/-! SUPPORT. The rules of the transit table (06 R91 to R106, 08 R158) as a predicate over the table itself: when a table in which one record is replaced, dropped or added is legal again. -/

namespace Sys2Proof.Machine

/-! ## The rules as a predicate over the table -/

/-- The berths of the unsettled transits of a table (R158). -/
def unsettledBerthsOf (table : List Transit) : Nat :=
  ((table.filter Transit.unsettled).map (fun t => t.berths.length)).sum

/-- The rules of `State.transitsLegal`, by name, over a flight of n chambers, a mode, a reservation, a transit queue, the register entries and a transit table. -/
structure LegalTable (n : Nat) (mode : Mode) (reserved : Nat) (queue : List Nat) (entries : List Vessel)
    (table : List Transit) : Prop where
  ids : (table.map Transit.id).Nodup
  queueNodup : queue.Nodup
  queueShort : queue.length ≤ Config.transitQueueSize
  queueExact : ∀ id, id ∈ queue ↔ ∃ t ∈ table, t.id = id ∧ t.state = .queued
  shaped : ∀ t ∈ table, t.shaped n
  held : (table.flatMap Transit.held).Nodup
  dirs : ∀ t ∈ table, ∀ u ∈ table, t.held ≠ [] → u.held ≠ [] → t.dir = u.dir
  config : mode = .config → table = []
  called : ∀ v ∈ entries, ∀ id estimate, v.state = .called id estimate →
    ∃ t ∈ table, t.id = id ∧ t.state ≠ .settled ∧ ∃ b ∈ t.berths, b.mark = v.mark
  covered : unsettledBerthsOf table ≤ reserved

theorem State.transitsLegal_iff (s : State) :
    s.transitsLegal ↔ LegalTable s.count s.auth.mode s.acc.reserved s.arb.queue s.reg.entries s.table := by
  constructor
  · rintro ⟨ids, ⟨nodup, short, exact⟩, shaped, held, dirs, config, called, covered⟩
    exact ⟨ids, nodup, short, exact, shaped, held, dirs, config, called, covered⟩
  · rintro ⟨ids, nodup, short, exact, shaped, held, dirs, config, called, covered⟩
    exact ⟨ids, ⟨nodup, short, exact⟩, shaped, held, dirs, config, called, covered⟩

theorem State.legalTable {s : State} (h : s.transitsLegal) :
    LegalTable s.count s.auth.mode s.acc.reserved s.arb.queue s.reg.entries s.table := s.transitsLegal_iff.1 h

section
variable {n reserved : Nat} {mode : Mode} {queue : List Nat} {entries : List Vessel}

/-- The rules read the records of a table in no order. -/
theorem LegalTable.perm {a b : List Transit} (p : a.Perm b) (h : LegalTable n mode reserved queue entries a) :
    LegalTable n mode reserved queue entries b where
  ids := (p.map _).nodup_iff.1 h.ids
  queueNodup := h.queueNodup
  queueShort := h.queueShort
  queueExact := fun id => by simp only [h.queueExact id, p.mem_iff]
  shaped := fun t ht => h.shaped t (p.mem_iff.2 ht)
  held := (p.flatMap_right _).nodup_iff.1 h.held
  dirs := fun t ht u hu => h.dirs t (p.mem_iff.2 ht) u (p.mem_iff.2 hu)
  config := fun hm => List.Perm.eq_nil ((h.config hm) ▸ p.symm)
  called := fun v hv id e hs => by
    obtain ⟨t, ht, rest⟩ := h.called v hv id e hs
    exact ⟨t, p.mem_iff.1 ht, rest⟩
  covered := (((p.filter Transit.unsettled).map (fun t => t.berths.length)).sum_eq.symm.le).trans h.covered

theorem unsettledBerthsOf_cons (t : Transit) (rest : List Transit) :
    unsettledBerthsOf (t :: rest) = (if t.state = .settled then 0 else t.berths.length) + unsettledBerthsOf rest := by
  by_cases h : t.state = .settled <;> simp [unsettledBerthsOf, Transit.unsettled, h]

/-! ## A record alone and the others -/

/-- The records of a table but for one id. -/
def othersIn (table : List Transit) (id : Nat) : List Transit := table.filter (fun t => !decide (t.id = id))

theorem mem_othersIn {table : List Transit} {id : Nat} {u : Transit} :
    u ∈ othersIn table id ↔ u ∈ table ∧ u.id ≠ id := by simp [othersIn]

theorem eq_of_id_eq {table : List Transit} (ids : (table.map Transit.id).Nodup) {t u : Transit} (ht : t ∈ table)
    (hu : u ∈ table) (h : u.id = t.id) : u = t := List.inj_on_of_nodup_map ids hu ht h

/-- With ids apart a table is one record and the others. -/
theorem perm_cons_othersIn {table : List Transit} (ids : (table.map Transit.id).Nodup) {t : Transit} (ht : t ∈ table) :
    table.Perm (t :: othersIn table t.id) := by
  have alone : table.filter (fun u => decide (u.id = t.id)) = [t] := by
    have nodup : (table.filter (fun u => decide (u.id = t.id))).Nodup := (List.Nodup.of_map _ ids).filter _
    refine (List.perm_singleton.1 ((List.perm_ext_iff_of_nodup nodup (List.nodup_singleton t)).2 fun u => ?_))
    simp only [List.mem_filter, decide_eq_true_eq, List.mem_singleton]
    constructor
    · rintro ⟨hu, h⟩
      exact eq_of_id_eq ids ht hu h
    · rintro rfl
      exact ⟨ht, rfl⟩
  have split := (List.filter_append_perm (fun u => decide (u.id = t.id)) table).symm
  rw [alone] at split
  exact split

/-- A change of one record by its id changes that record and leaves the others. -/
theorem perm_map_othersIn {table : List Transit} (ids : (table.map Transit.id).Nodup) {t : Transit} (ht : t ∈ table)
    (f : Transit → Transit) :
    (table.map (fun u => if u.id = t.id then f u else u)).Perm (f t :: othersIn table t.id) := by
  refine ((perm_cons_othersIn ids ht).map _).trans (List.Perm.of_eq ?_)
  rw [List.map_cons, if_pos rfl]
  congr 1
  refine (List.map_congr_left fun u hu => ?_).trans (List.map_id _)
  rw [if_neg (mem_othersIn.1 hu).2, id_eq]

/-! ## One record replaced, dropped or added -/

/-- A chamber held by a record is held by no other. -/
theorem LegalTable.held_apart {t : Transit} {rest : List Transit}
    (h : LegalTable n mode reserved queue entries (t :: rest)) {c : Nat} (hc : c ∈ t.held) :
    ∀ u ∈ rest, c ∉ u.held := by
  have held := h.held
  rw [List.flatMap_cons, List.nodup_append'] at held
  intro u hu huc
  exact held.2.2 hc (List.mem_flatMap.2 ⟨u, hu, huc⟩)

theorem LegalTable.held_nodup {t : Transit} {rest : List Transit}
    (h : LegalTable n mode reserved queue entries (t :: rest)) : t.held.Nodup := by
  have held := h.held
  rw [List.flatMap_cons, List.nodup_append'] at held
  exact held.1

theorem LegalTable.not_config {t : Transit} {rest : List Transit}
    (h : LegalTable n mode reserved queue entries (t :: rest)) : mode ≠ .config := fun hm => by
  simpa using h.config hm

/-- The queue that is left where a record is queued no longer. -/
def queueAfter (queue : List Nat) (t : Transit) : List Nat :=
  if t.state = .queued then queue else queue.filter (fun x => !decide (x = t.id))

theorem mem_queueAfter {t : Transit} {id : Nat} :
    id ∈ queueAfter queue t ↔ id ∈ queue ∧ (t.state ≠ .queued → id ≠ t.id) := by
  unfold queueAfter
  split <;> simp_all

/-- A record replaced by one of the same id, in its new shape, leaves a legal table: its chambers are its own, its direction is that of the holders, the vessels called to it are in its berths, and its berths are covered. -/
theorem LegalTable.replace {t u : Transit} {rest : List Transit} {entries' : List Vessel} {reserved' : Nat}
    (h : LegalTable n mode reserved queue entries (t :: rest)) (sameId : u.id = t.id) (shape : u.shaped n)
    (stays : u.state = .queued → t.state = .queued) (nodup : u.held.Nodup)
    (apart : ∀ c ∈ u.held, ∀ x ∈ rest, c ∉ x.held)
    (dir : u.held ≠ [] → ∀ x ∈ rest, x.held ≠ [] → x.dir = u.dir)
    (called : ∀ v ∈ entries', ∀ id estimate, v.state = .called id estimate →
      v ∈ entries ∧ (id = u.id → u.state ≠ .settled ∧ ∃ b ∈ u.berths, b.mark = v.mark))
    (covered : (if u.state = .settled then 0 else u.berths.length) + unsettledBerthsOf rest ≤ reserved') :
    LegalTable n mode reserved' (queueAfter queue u) entries' (u :: rest) where
  ids := by simpa [sameId] using h.ids
  queueNodup := by
    unfold queueAfter
    split
    · exact h.queueNodup
    · exact h.queueNodup.filter _
  queueShort := by
    unfold queueAfter
    split
    · exact h.queueShort
    · exact (List.length_filter_le _ _).trans h.queueShort
  queueExact := fun id => by
    have others : ∀ x ∈ rest, x.id ≠ t.id := by
      have ids := h.ids
      simp only [List.map_cons, List.nodup_cons, List.mem_map, not_exists, not_and] at ids
      exact ids.1
    rw [mem_queueAfter, h.queueExact id]
    simp only [List.exists_mem_cons_iff, sameId]
    constructor
    · rintro ⟨⟨rfl, queued⟩ | ⟨x, hx, rfl, queued⟩, leaves⟩
      · by_cases hu : u.state = .queued
        · exact .inl ⟨rfl, hu⟩
        · exact absurd rfl (leaves hu)
      · exact .inr ⟨x, hx, rfl, queued⟩
    · rintro (⟨rfl, queued⟩ | ⟨x, hx, rfl, queued⟩)
      · exact ⟨.inl ⟨rfl, stays queued⟩, fun leaves => absurd queued leaves⟩
      · exact ⟨.inr ⟨x, hx, rfl, queued⟩, fun _ => others x hx⟩
  shaped := List.forall_mem_cons.2 ⟨shape, (List.forall_mem_cons.1 h.shaped).2⟩
  held := by
    have held := h.held
    rw [List.flatMap_cons, List.nodup_append'] at held ⊢
    refine ⟨nodup, held.2.1, fun c hc hrest => ?_⟩
    obtain ⟨x, hx, hxc⟩ := List.mem_flatMap.1 hrest
    exact apart c hc x hx hxc
  dirs := by
    have old := h.dirs
    intro x hx y hy hxh hyh
    rcases List.mem_cons.1 hx with hxu | hxr <;> rcases List.mem_cons.1 hy with hyu | hyr
    · rw [hxu, hyu]
    · subst hxu
      exact (dir hxh y hyr hyh).symm
    · subst hyu
      exact dir hyh x hxr hxh
    · exact old x (.tail _ hxr) y (.tail _ hyr) hxh hyh
  config := fun hm => absurd hm h.not_config
  called := fun v hv id e hs => by
    obtain ⟨hold, mine⟩ := called v hv id e hs
    by_cases hid : id = u.id
    · obtain ⟨unsettled, berth⟩ := mine hid
      exact ⟨u, .head _, hid.symm, unsettled, berth⟩
    · obtain ⟨x, hx, hxid, kept⟩ := h.called v hold id e hs
      rcases List.mem_cons.1 hx with rfl | hx
      · exact absurd (hxid.symm.trans sameId.symm) hid
      · exact ⟨x, .tail _ hx, hxid, kept⟩
  covered := by rw [unsettledBerthsOf_cons]; exact covered

/-- A record dropped with the vessels called to it leaves a legal table. -/
theorem LegalTable.drop {t : Transit} {rest : List Transit} {entries' : List Vessel} {reserved' : Nat}
    (h : LegalTable n mode reserved queue entries (t :: rest))
    (called : ∀ v ∈ entries', ∀ id estimate, v.state = .called id estimate → v ∈ entries ∧ id ≠ t.id)
    (covered : unsettledBerthsOf rest ≤ reserved') :
    LegalTable n mode reserved' (queue.filter (fun x => !decide (x = t.id))) entries' rest where
  ids := (List.nodup_cons.1 h.ids).2
  queueNodup := h.queueNodup.filter _
  queueShort := (List.length_filter_le _ _).trans h.queueShort
  queueExact := fun id => by
    have others : ∀ x ∈ rest, x.id ≠ t.id := by
      have ids := h.ids
      simp only [List.map_cons, List.nodup_cons, List.mem_map, not_exists, not_and] at ids
      exact ids.1
    simp only [List.mem_filter, h.queueExact id, List.exists_mem_cons_iff, Bool.not_eq_true', decide_eq_false_iff_not]
    constructor
    · rintro ⟨⟨rfl, -⟩ | found, hne⟩
      · exact absurd rfl hne
      · exact found
    · rintro ⟨x, hx, rfl, queued⟩
      exact ⟨.inr ⟨x, hx, rfl, queued⟩, others x hx⟩
  shaped := (List.forall_mem_cons.1 h.shaped).2
  held := by
    have held := h.held
    rw [List.flatMap_cons, List.nodup_append'] at held
    exact held.2.1
  dirs := fun x hx y hy => h.dirs x (.tail _ hx) y (.tail _ hy)
  config := fun hm => absurd hm h.not_config
  called := fun v hv id e hs => by
    obtain ⟨hold, hid⟩ := called v hv id e hs
    obtain ⟨x, hx, hxid, kept⟩ := h.called v hold id e hs
    rcases List.mem_cons.1 hx with rfl | hx
    · exact absurd hxid.symm hid
    · exact ⟨x, hx, hxid, kept⟩
  covered := covered

/-- A queued record of a fresh id added, with the vessels called to it, leaves a legal table. -/
theorem LegalTable.add {t : Transit} {table : List Transit} {entries' : List Vessel} {reserved' : Nat}
    (h : LegalTable n mode reserved queue entries table) (fresh : ∀ u ∈ table, u.id ≠ t.id)
    (queued : t.state = .queued) (shape : t.shaped n) (empty : t.held = []) (room : queue.length < Config.transitQueueSize)
    (notConfig : mode ≠ .config)
    (called : ∀ v ∈ entries', ∀ id estimate, v.state = .called id estimate →
      v ∈ entries ∨ (id = t.id ∧ ∃ b ∈ t.berths, b.mark = v.mark))
    (covered : t.berths.length + unsettledBerthsOf table ≤ reserved') :
    LegalTable n mode reserved' (queue ++ [t.id]) entries' (t :: table) where
  ids := by
    simp only [List.map_cons, List.nodup_cons, List.mem_map, not_exists, not_and]
    exact ⟨fresh, h.ids⟩
  queueNodup := by
    refine List.nodup_append'.2 ⟨h.queueNodup, List.nodup_singleton _, fun x hx hmem => ?_⟩
    obtain ⟨u, hu, hid, -⟩ := (h.queueExact x).1 hx
    exact fresh u hu (hid.trans (List.mem_singleton.1 hmem))
  queueShort := by simpa using room
  queueExact := fun id => by
    simp only [List.mem_append, h.queueExact id, List.mem_singleton, List.exists_mem_cons_iff, queued, and_true]
    rw [or_comm, eq_comm]
  shaped := List.forall_mem_cons.2 ⟨shape, h.shaped⟩
  held := by simpa [empty] using h.held
  dirs := by
    intro x hx y hy hxh hyh
    rcases List.mem_cons.1 hx with rfl | hx
    · exact absurd empty hxh
    · rcases List.mem_cons.1 hy with rfl | hy
      · exact absurd empty hyh
      · exact h.dirs x hx y hy hxh hyh
  config := fun hm => absurd hm notConfig
  called := fun v hv id e hs => by
    rcases called v hv id e hs with hold | ⟨rfl, berth⟩
    · obtain ⟨x, hx, kept⟩ := h.called v hold id e hs
      exact ⟨x, .tail _ hx, kept⟩
    · exact ⟨t, .head _, rfl, by simp [queued], berth⟩
  covered := by simpa [unsettledBerthsOf_cons, queued] using covered

/-- Fewer called vessels, another mode but CONFIG and a greater reservation leave the table legal. -/
theorem LegalTable.weaken {table : List Transit} {entries' : List Vessel} {reserved' : Nat} {mode' : Mode}
    (h : LegalTable n mode reserved queue entries table) (hmode : mode' = .config → table = [])
    (called : ∀ v ∈ entries', ∀ id estimate, v.state = .called id estimate →
      ∃ w ∈ entries, w.mark = v.mark ∧ w.state = v.state)
    (covered : reserved ≤ reserved') : LegalTable n mode' reserved' queue entries' table where
  ids := h.ids
  queueNodup := h.queueNodup
  queueShort := h.queueShort
  queueExact := h.queueExact
  shaped := h.shaped
  held := h.held
  dirs := h.dirs
  config := hmode
  called := fun v hv id e hs => by
    obtain ⟨w, hw, hmark, hstate⟩ := called v hv id e hs
    obtain ⟨t, ht, hid, unsettled, b, hb, hbm⟩ := h.called w hw id e (hstate.trans hs)
    exact ⟨t, ht, hid, unsettled, b, hb, hbm.trans hmark⟩
  covered := h.covered.trans covered

end

/-- The empty table is legal where no vessel is called. -/
theorem legalTable_nil {n reserved : Nat} {mode : Mode} {entries : List Vessel}
    (free : ∀ v ∈ entries, ∀ id estimate, v.state ≠ .called id estimate) :
    LegalTable n mode reserved [] entries [] where
  ids := List.nodup_nil
  queueNodup := List.nodup_nil
  queueShort := Nat.zero_le _
  queueExact := by simp
  shaped := by simp
  held := List.nodup_nil
  dirs := by simp
  config := fun _ => rfl
  called := fun v hv id e hs => absurd hs (free v hv id e)
  covered := Nat.zero_le _

/-! ## The slots of the table (R102) -/

/-- The shape of a record bounds its chambers, and only a queued one holds none. -/
theorem Transit.shaped_held {n : Nat} {t : Transit} (h : t.shaped n) :
    (∀ c ∈ t.held, 1 ≤ c ∧ c ≤ n) ∧ (t.held = [] → t.state = .queued) := by
  unfold Transit.shaped at h
  split at h
  · next hs _ hh => simp [hs, hh]
  · next hh => simp [hh, h]
  · next hh => simp [hh, h.1]
  · next hh =>
    obtain ⟨⟨c1, c2, d1, d2⟩, -⟩ := h
    simp [hh, c1, c2, d1, d2]
  · next hh => simp [hh, h.1]
  · exact h.elim

/-- The queued records are as many as the queue, and the others hold a chamber each. -/
theorem LegalTable.length_le {n reserved : Nat} {mode : Mode} {queue : List Nat} {entries : List Vessel}
    {table : List Transit} (h : LegalTable n mode reserved queue entries table) : table.length ≤ 4 + n := by
  have queuedShort : (table.filter (fun t => decide (t.state = .queued))).length ≤ 4 := by
    have sub : ((table.filter (fun t => decide (t.state = .queued))).map Transit.id) ⊆ queue := by
      intro id hid
      obtain ⟨t, ht, rfl⟩ := List.mem_map.1 hid
      rw [List.mem_filter, decide_eq_true_eq] at ht
      exact (h.queueExact t.id).2 ⟨t, ht.1, rfl, ht.2⟩
    have nodup : ((table.filter (fun t => decide (t.state = .queued))).map Transit.id).Nodup :=
      h.ids.sublist (List.filter_sublist.map _)
    have := (nodup.subperm sub).length_le
    rw [List.length_map] at this
    exact this.trans h.queueShort
  have holdersShort : (table.filter (fun t => !decide (t.state = .queued))).length ≤ n := by
    have each (l : List Transit) (hl : ∀ t ∈ l, t.held ≠ []) : l.length ≤ (l.flatMap Transit.held).length := by
      induction l with
      | nil => exact le_rfl
      | cons t rest ih =>
        have hpos : 1 ≤ t.held.length := List.length_pos_iff.2 (hl t (.head _))
        have := ih fun u hu => hl u (.tail _ hu)
        simp only [List.length_cons, List.flatMap_cons, List.length_append]
        omega
    have nodup : (((table.filter (fun t => !decide (t.state = .queued)))).flatMap Transit.held).Nodup :=
      h.held.sublist (List.Sublist.flatMap List.filter_sublist _)
    have sub : (((table.filter (fun t => !decide (t.state = .queued)))).flatMap Transit.held) ⊆ (List.range n).map (· + 1) := by
      intro c hc
      obtain ⟨t, ht, htc⟩ := List.mem_flatMap.1 hc
      obtain ⟨lo, hi⟩ := (Transit.shaped_held (h.shaped t (List.mem_filter.1 ht).1)).1 c htc
      exact List.mem_map.2 ⟨c - 1, List.mem_range.2 (by omega), by omega⟩
    have bound := (nodup.subperm sub).length_le
    rw [List.length_map, List.length_range] at bound
    refine (each _ fun t ht => ?_).trans bound
    rw [List.mem_filter] at ht
    intro hempty
    have := (Transit.shaped_held (h.shaped t ht.1)).2 hempty
    simp [this] at ht
  have split := (List.filter_append_perm (fun t : Transit => decide (t.state = .queued)) table).length_eq
  rw [List.length_append] at split
  omega

end Sys2Proof.Machine
end

