-- ==== Sys2Proof/Proofs/TransitLedger.lean ====
section
/-! SUPPORT. What the rules of the transit table read of a state, its ledger, and the work that leaves it alone: the PCU, the hand-overs between a transit and its passages, the phases of a move short of CLOSE. -/

namespace Sys2Proof.Machine

/-! ## The ledger -/

/-- What the rules read of a move: its kind, source and destination, and whether it is in CLOSE. -/
def Move.key (m : Move) : MoveKind × Nat × Nat × Bool := (m.kind, m.source, m.destination, decide (m.phase = .close))

/-- What the rules read of a transit record. -/
def Transit.key (t : Transit) : Nat × Direction × TransitState × List Nat × List Mark × Option (MoveKind × Nat × Nat × Bool) :=
  (t.id, t.dir, t.state, t.held, t.marks, t.move.map Move.key)

/-- What the rules of the transit table read of a state, with the number of entries in the journal, whose places the reservation shares (R158). -/
structure Ledger where
  count : Nat
  mode : Mode
  reserved : Nat
  queue : List Nat
  entries : List Vessel
  keys : List (Nat × Direction × TransitState × List Nat × List Mark × Option (MoveKind × Nat × Nat × Bool))
  entered : Nat

/-- The ledger of a state. -/
def State.ledger (s : State) : Ledger :=
  { count := s.count, mode := s.auth.mode, reserved := s.acc.reserved, queue := s.arb.queue, entries := s.reg.entries,
    keys := s.table.map Transit.key, entered := s.acc.journal.length }

theorem Transit.shaped_of_key {n : Nat} {t u : Transit} (h : t.key = u.key) (shape : t.shaped n) : u.shaped n := by
  obtain ⟨id, dir, state, origin, held, move, ops, berths, generation, night, callTime, water, overdue⟩ := t
  obtain ⟨id', dir', state', origin', held', move', ops', berths', generation', night', callTime', water', overdue'⟩ := u
  simp only [Transit.key, Prod.mk.injEq] at h
  obtain ⟨rfl, rfl, rfl, rfl, -, moves⟩ := h
  cases move with
  | none =>
    cases move' with
    | none => exact shape
    | some m' => cases moves
  | some m =>
    cases move' with
    | none => cases moves
    | some m' =>
      simp only [Option.map_some, Option.some.injEq, Move.key, Prod.mk.injEq, decide_eq_decide] at moves
      obtain ⟨kind, source, destination, closing⟩ := moves
      unfold Transit.shaped at shape ⊢
      split at shape <;> simp_all

/-- Two records with the same key are alike to the rules. -/
theorem Transit.of_key {t u : Transit} (h : t.key = u.key) :
    t.id = u.id ∧ t.dir = u.dir ∧ t.state = u.state ∧ t.held = u.held ∧ t.marks = u.marks := by
  simp only [Transit.key, Prod.mk.injEq] at h
  exact ⟨h.1, h.2.1, h.2.2.1, h.2.2.2.1, h.2.2.2.2.1⟩

theorem unsettledBerthsOf_eq_keys (table : List Transit) :
    unsettledBerthsOf table
      = (((table.map Transit.key).filter (fun k => !decide (k.2.2.1 = .settled))).map (fun k => k.2.2.2.2.1.length)).sum := by
  rw [List.filter_map, List.map_map]
  simp only [unsettledBerthsOf, Function.comp_def, Transit.key, Transit.marks, List.length_map]
  rfl

/-- A table with the same keys is legal as well. -/
theorem LegalTable.of_keys {n reserved : Nat} {mode : Mode} {queue : List Nat} {entries : List Vessel}
    {a b : List Transit} (h : LegalTable n mode reserved queue entries a) (keys : b.map Transit.key = a.map Transit.key) :
    LegalTable n mode reserved queue entries b := by
  have back (u : Transit) (hu : u ∈ b) : ∃ t ∈ a, t.key = u.key :=
    List.mem_map.1 (keys ▸ List.mem_map_of_mem hu)
  have forth (t : Transit) (ht : t ∈ a) : ∃ u ∈ b, t.key = u.key := by
    obtain ⟨u, hu, hk⟩ := List.mem_map.1 (keys.symm ▸ List.mem_map_of_mem ht)
    exact ⟨u, hu, hk.symm⟩
  have ids (l : List Transit) : l.map Transit.id = (l.map Transit.key).map Prod.fst := by
    simp [Function.comp_def, Transit.key]
  have helds (l : List Transit) : l.flatMap Transit.held = (l.map Transit.key).flatMap (fun k => k.2.2.2.1) := by
    simp [List.flatMap_map, Transit.key]
  exact {
    ids := by rw [ids, keys, ← ids]; exact h.ids
    queueNodup := h.queueNodup
    queueShort := h.queueShort
    queueExact := fun id => by
      rw [h.queueExact id]
      constructor
      · rintro ⟨t, ht, rfl, queued⟩
        obtain ⟨u, hu, hk⟩ := forth t ht
        obtain ⟨hid, -, hstate, -, -⟩ := Transit.of_key hk
        exact ⟨u, hu, hid.symm, hstate ▸ queued⟩
      · rintro ⟨u, hu, rfl, queued⟩
        obtain ⟨t, ht, hk⟩ := back u hu
        obtain ⟨hid, -, hstate, -, -⟩ := Transit.of_key hk
        exact ⟨t, ht, hid, hstate ▸ queued⟩
    shaped := fun u hu => by
      obtain ⟨t, ht, hk⟩ := back u hu
      exact Transit.shaped_of_key hk (h.shaped t ht)
    held := by rw [helds, keys, ← helds]; exact h.held
    dirs := fun u hu x hx => by
      obtain ⟨t, ht, hk⟩ := back u hu
      obtain ⟨y, hy, hyk⟩ := back x hx
      obtain ⟨-, hdir, -, hheld, -⟩ := Transit.of_key hk
      obtain ⟨-, ydir, -, yheld, -⟩ := Transit.of_key hyk
      rw [← hdir, ← ydir, ← hheld, ← yheld]
      exact h.dirs t ht y hy
    config := fun hm => by simpa [h.config hm] using keys
    called := fun v hv id e hs => by
      obtain ⟨t, ht, htid, unsettled, b, hb, hbm⟩ := h.called v hv id e hs
      obtain ⟨u, hu, hk⟩ := forth t ht
      obtain ⟨hid, -, hstate, -, hmarks⟩ := Transit.of_key hk
      have : v.mark ∈ u.marks := hmarks ▸ List.mem_map.2 ⟨b, hb, hbm⟩
      exact ⟨u, hu, hid ▸ htid, hstate ▸ unsettled, List.mem_map.1 this⟩
    covered := by rw [unsettledBerthsOf_eq_keys, keys, ← unsettledBerthsOf_eq_keys]; exact h.covered }

/-- Two states with the same ledger are legal alike. -/
theorem State.transitsLegal_of_ledger {s t : State} (h : t.ledger = s.ledger) (legal : s.transitsLegal) :
    t.transitsLegal := by
  simp only [State.ledger, Ledger.mk.injEq] at h
  obtain ⟨count, mode, reserved, queue, entries, keys, -⟩ := h
  rw [State.transitsLegal_iff, count, mode, reserved, queue, entries]
  exact (State.legalTable legal).of_keys keys

/-! ## Work that leaves the ledger alone -/

/-- The work of the PCU leaves the ledger alone. -/
theorem State.ledger_of_besidePcu {s t : State} (h : t.besidePcu = s.besidePcu) : t.ledger = s.ledger := by
  simp only [State.ledger, State.count, State.flight_of_besidePcu h, State.auth_of_besidePcu h,
    State.acc_of_besidePcu h, State.arb_of_besidePcu h, State.reg_of_besidePcu h, State.table_of_besidePcu h]

@[simp] theorem State.raise_ledger (n : Notice) (s : State) : (s.raise n).ledger = s.ledger := rfl
@[simp] theorem State.raiseAll_ledger (l : List Notice) (s : State) : (s.raiseAll l).ledger = s.ledger :=
  State.ledger_of_besidePcu (s.raiseAll_besidePcu l)
@[simp] theorem State.push_ledger (t : Task) (s : State) : (s.push t).ledger = s.ledger := rfl
@[simp] theorem State.pushAll_ledger (l : List Task) (s : State) : (s.pushAll l).ledger = s.ledger := rfl
@[simp] theorem State.calling_ledger (s : State) : s.calling.ledger = s.ledger := rfl
@[simp] theorem State.deriveAspects_ledger (s : State) : s.deriveAspects.ledger = s.ledger := rfl
@[simp] theorem State.when_ledger (c : Bool) (f : State → State) (s : State) :
    (s.when c f).ledger = if c then (f s).ledger else s.ledger := by cases c <;> rfl

theorem State.each_ledger {α : Type} (l : List α) (f : α → State → State) (h : ∀ x s, (f x s).ledger = s.ledger)
    (s : State) : (s.each l f).ledger = s.ledger := by
  induction l generalizing s with
  | nil => rfl
  | cons x rest ih => exact (ih (f x s)).trans (h x s)

/-- A change of a record that keeps its key leaves the ledger alone. -/
theorem State.setTransit_ledger {id : Nat} {f : Transit → Transit} {s : State}
    (h : ∀ t ∈ s.table, t.id = id → (f t).key = t.key) : (s.setTransit id f).ledger = s.ledger := by
  have keys : (s.table.map (fun t => if t.id = id then f t else t)).map Transit.key = s.table.map Transit.key := by
    rw [List.map_map]
    refine List.map_congr_left fun t ht => ?_
    by_cases hid : t.id = id
    · simp [hid, h t ht hid]
    · simp [hid]
  simp only [State.ledger, State.setTransit, keys]
  rfl

/-- A change of a move that keeps its key leaves the ledger alone. -/
theorem State.setMove_ledger {id : Nat} {f : Move → Move} {s : State} (h : ∀ m, (f m).key = m.key) :
    (s.setMove id f).ledger = s.ledger := by
  refine State.setTransit_ledger fun t _ _ => ?_
  cases hm : t.move <;> simp [Transit.key, Transit.marks, hm, h]

/-! ## Moves short of CLOSE -/

/-- The move of a transit, if it has one, is not in CLOSE. -/
def State.openAt (s : State) (id : Nat) : Prop := ∀ t ∈ s.table, t.id = id → ∀ m, t.move = some m → m.phase ≠ .close

theorem State.openAt_of_ledger {s t : State} {id : Nat} (h : t.ledger = s.ledger) (hs : s.openAt id) : t.openAt id := by
  intro u hu hid m hm
  have keys : t.table.map Transit.key = s.table.map Transit.key := congrArg Ledger.keys h
  obtain ⟨x, hx, hk⟩ := List.mem_map.1 (keys ▸ List.mem_map_of_mem hu)
  simp only [Transit.key, Prod.mk.injEq, hm, Option.map_some] at hk
  obtain ⟨xid, -, -, -, -, xmove⟩ := hk
  obtain ⟨y, hy, hyk⟩ := Option.map_eq_some_iff.1 xmove
  have := hs x hx (xid.trans hid) y hy
  simp only [Move.key, Prod.mk.injEq, decide_eq_decide] at hyk
  exact fun closing => this (hyk.2.2.2.2 closing)

/-- In a legal table a transit whose move is short of CLOSE is the only one of its id. -/
theorem State.openAt_of_legal {s : State} (legal : s.transitsLegal) {t : Transit} {m : Move} (ht : t ∈ s.table)
    (hm : t.move = some m) (hp : m.phase ≠ .close) : s.openAt t.id := by
  intro u hu hid x hx
  have : u = t := eq_of_id_eq (State.legalTable legal).ids ht hu hid
  subst this
  rw [hm] at hx
  exact Option.some.inj hx ▸ hp

/-- A change of phase short of CLOSE leaves the ledger alone. -/
theorem State.setPhase_ledger {id : Nat} {f : Move → Move} {s : State} (open_ : s.openAt id)
    (h : ∀ m, m.phase ≠ .close → (f m).key = m.key) : (s.setMove id f).ledger = s.ledger := by
  refine State.setTransit_ledger fun t ht hid => ?_
  cases hm : t.move with
  | none => simp [Transit.key, Transit.marks, hm]
  | some m => simp [Transit.key, Transit.marks, hm, h m (open_ t ht hid m hm)]

theorem Move.key_of_phase {m x : Move} (hm : m.phase ≠ .close) (hx : x.phase ≠ .close) (kind : x.kind = m.kind)
    (source : x.source = m.source) (destination : x.destination = m.destination) : x.key = m.key := by
  simp [Move.key, hm, hx, kind, source, destination]

theorem State.enterEqualise_ledger {id : Nat} {m : Move} {s : State} (h : s.openAt id) :
    (s.enterEqualise id m).ledger = s.ledger := by
  have moved := State.setPhase_ledger (f := fun x => { x with phase := .equalise }) h
    fun x hx => Move.key_of_phase hx (by simp) rfl rfl rfl
  simp only [State.enterEqualise, State.when_ledger, State.push_ledger, ite_self, moved]

theorem State.enterOpen_ledger {id : Nat} {m : Move} {s : State} (h : s.openAt id) :
    (s.enterOpen id m).ledger = s.ledger :=
  (State.ledger_of_besidePcu (State.orderOpen_besidePcu _ _ _)).trans
    (State.setPhase_ledger h fun x hx => Move.key_of_phase hx (by simp) rfl rfl rfl)

/-! ## Cascades, requests and reports -/

@[simp] theorem State.requestCascade_ledger (id : Nat) (d : Direction) (l : List Nat) (s : State) :
    (s.requestCascade id d l).ledger = s.ledger := by
  unfold State.requestCascade
  split <;> simp

@[simp] theorem State.formCascade_ledger (id : Nat) (d : Direction) (m : Move) (s : State) :
    (s.formCascade id d m).ledger = s.ledger := by
  unfold State.formCascade
  split
  · next c _ =>
    rw [State.raise_ledger]
    exact State.setMove_ledger (f := fun x => { x with blockedAt := some c }) fun _ => rfl
  · next l _ =>
    rw [State.requestCascade_ledger]
    exact State.setMove_ledger (f := fun x => { x with blockedAt := none, cascade := l.reverse }) fun _ => rfl

@[simp] theorem State.newHead_ledger (b : Option Nat) (s : State) : (s.newHead b).ledger = s.ledger := by
  simp [State.newHead]

@[simp] theorem State.takeReleased_ledger (c : Nat) (s : State) : (s.takeReleased c).ledger = s.ledger := by
  simp only [State.takeReleased, State.when_ledger]
  split
  · exact State.each_ledger _ (fun (b : Nat × Direction × Move) y => y.formCascade b.1 b.2.1 b.2.2)
      (fun b y => y.formCascade_ledger _ _ _) _
  · rfl

@[simp] theorem State.takeRequestOp_ledger (id k : Nat) (p : Purpose) (s : State) :
    (s.takeRequestOp id k p).ledger = s.ledger := by
  unfold State.takeRequestOp
  split
  · split
    · split
      · split
        · rw [State.ledger_of_besidePcu (State.createOp_besidePcu _ _ _ _ _)]
          refine State.setTransit_ledger fun t _ _ => ?_
          cases hm : t.move <;> simp [Transit.key, Transit.accepted, Transit.marks, hm, Move.key]
        · exact (State.setMove_ledger (f := fun x => { x with owed := some k }) fun _ => rfl).trans (State.ledger_of_besidePcu (State.setPassage_besidePcu _ _ _))
      · rfl
    · rfl
  · rfl

@[simp] theorem State.takeSlotFree_ledger (k : Nat) (s : State) : (s.takeSlotFree k).ledger = s.ledger := by
  simp [State.takeSlotFree]

@[simp] theorem State.takeAccountEvent_ledger (n : Nat) (s : State) : (s.takeAccountEvent n).ledger = s.ledger := by
  simp [State.takeAccountEvent]

/-- A transit found by its id is in the table. -/
theorem State.mem_of_transit {s : State} {id : Nat} {t : Transit} (h : s.transit id = some t) :
    t ∈ s.table ∧ t.id = id :=
  ⟨List.mem_of_find?_eq_some h, of_decide_eq_true (List.find?_some (p := fun t : Transit => decide (t.id = id)) h)⟩

theorem Transit.takeReport_key (r : Report) (t : Transit) : (t.takeReport r).key = t.key := by
  have water : (t.takeWater r).key = t.key := by
    unfold Transit.takeWater
    split <;> rfl
  unfold Transit.takeReport
  split <;> exact water

theorem State.reportMove_ledger {r : Report} {t : Transit} {m : Move} {s : State}
    (h : m.phase ≠ .close → s.openAt t.id) : (s.reportMove r t m).ledger = s.ledger := by
  have on : (s.cascadeOn t m).ledger = s.ledger := by
    unfold State.cascadeOn
    split
    · next prep =>
      split
      · exact State.enterEqualise_ledger (h (by simp [prep]))
      · exact State.requestCascade_ledger _ _ _ _
    · rfl
  have back (k : Nat) : (s.cascadeBack t m k).ledger = s.ledger := by
    unfold State.cascadeBack
    split
    · rw [State.requestCascade_ledger]
      exact State.setMove_ledger fun _ => rfl
    · rfl
  unfold State.reportMove
  split
  · split
    · next equalise => exact State.enterOpen_ledger (h (by simp [equalise.2.1]))
    · rfl
  · split
    · rfl
    · exact on
  all_goals
    split
    · rfl
    · exact back _

theorem State.takeReport_ledger {r : Report} {s : State} (legal : s.transitsLegal) :
    (s.takeReport r).ledger = s.ledger := by
  unfold State.takeReport
  split
  · next t known =>
    have taken : (s.setTransit t.id (Transit.takeReport r)).ledger = s.ledger :=
      State.setTransit_ledger fun u _ _ => u.takeReport_key r
    split
    · split
      · next m hm =>
        refine (State.reportMove_ledger fun hp => ?_).trans taken
        exact State.openAt_of_ledger taken (State.openAt_of_legal legal (State.mem_of_transit known).1 hm hp)
      · exact taken
    · rfl
  · rfl

/-! ## AWAIT, and the changes of mode -/

theorem State.enterAwait_ledger {t : Transit} {m : Move} {s : State} (h : s.openAt t.id) :
    (s.enterAwait t m).ledger = s.ledger := by
  simp only [State.enterAwait, State.raise_ledger]
  have timed (x : Overdue) : (s.setTransit t.id (fun y => { y with overdue := x })).ledger = s.ledger :=
    State.setTransit_ledger fun _ _ _ => rfl
  exact (State.setPhase_ledger (f := fun x => { x with phase := .await }) (State.openAt_of_ledger (timed _) h)
    fun x hx => Move.key_of_phase hx (by simp) rfl rfl rfl).trans (timed _)

@[simp] theorem State.seqHold_ledger (s : State) : s.seqHold.ledger = s.ledger := by
  have keys : (s.table.map Transit.pauseOverdue).map Transit.key = s.table.map Transit.key := by
    rw [List.map_map]
    refine List.map_congr_left fun t _ => ?_
    rw [Function.comp_apply, Transit.pauseOverdue]
    split <;> rfl
  simp only [State.ledger, State.seqHold, keys]
  rfl

theorem State.reEqualise_ledger {t : Transit} {m : Move} {s : State} (h : s.openAt t.id) :
    (s.reEqualise t m).ledger = s.ledger := by
  have stopped : (s.setTransit t.id Transit.stopOverdue).ledger = s.ledger := State.setTransit_ledger fun _ _ _ => rfl
  have moved : ((s.setTransit t.id Transit.stopOverdue).setMove t.id
      (fun y => { y with phase := .equalise, owed := none })).ledger = s.ledger :=
    (State.setPhase_ledger (f := fun y => { y with phase := .equalise, owed := none })
      (State.openAt_of_ledger stopped h) fun x hx => Move.key_of_phase hx (by simp) rfl rfl rfl).trans stopped
  simp only [State.reEqualise]
  split
  · split
    · split
      · exact (State.enterOpen_ledger (State.openAt_of_ledger moved h)).trans moved
      · exact moved
    · exact moved
  · exact moved

theorem State.resumeTransit_ledger {t : Transit} {s : State}
    (h : ∀ m, t.move = some m → m.phase ≠ .close → s.openAt t.id) : (s.resumeTransit t).ledger = s.ledger := by
  unfold State.resumeTransit
  split
  · rfl
  · next m hm _ =>
    unfold State.resumeMove
    split
    · unfold State.rePrep
      split
      · split
        · rfl
        · exact State.formCascade_ledger _ _ _ _
      · split
        · rfl
        · exact State.requestCascade_ledger _ _ _ _
    · next phase => exact State.reEqualise_ledger (h m hm (by simp [phase]))
    · next phase => exact State.reEqualise_ledger (h m hm (by simp [phase]))
    · next phase =>
      split
      · refine State.setTransit_ledger fun x _ _ => ?_
        unfold Transit.resumeOverdue
        split <;> rfl
      · exact State.reEqualise_ledger (h m hm (by simp [phase]))
    · split
      · rfl
      · exact State.ledger_of_besidePcu (State.commandClose_besidePcu _ _ _)
  · rfl

/-- The return to SERVICE takes every transit up by its phase, and none of them into or out of CLOSE. -/
theorem State.seqResume_ledger {s : State} (legal : s.transitsLegal) : s.seqResume.ledger = s.ledger := by
  have opens (t : Transit) (ht : t ∈ s.table) (m : Move) (hm : t.move = some m) (hp : m.phase ≠ .close) :
      s.openAt t.id := State.openAt_of_legal legal ht hm hp
  have each (l : List Transit) (hl : l ⊆ s.table) (u : State) (hu : u.ledger = s.ledger) :
      (u.each l State.resumeTransit).ledger = s.ledger := by
    induction l generalizing u with
    | nil => exact hu
    | cons t rest ih =>
      refine ih (fun x hx => hl (.tail _ hx)) _ ((State.resumeTransit_ledger fun m hm hp => ?_).trans hu)
      exact State.openAt_of_ledger hu (opens t (hl (.head _)) m hm hp)
  exact each s.table (fun _ h => h) s rfl

end Sys2Proof.Machine
end

