-- ==== Sys2Proof/Proofs/TransitRecords.lean ====
section
/-! SUPPORT. The steps of the transit queue and the transit table one by one (05, 06): each leaves a legal table and keeps the journal's places (08 R158). -/

namespace Sys2Proof.Machine

/-! ## The journal's places, and what a step keeps -/

/-- The places of the journal in use: the entries held and the places reserved (R158). -/
def State.places (s : State) : Nat := s.acc.journal.length + s.acc.reserved

/-- From one state to the next the table stays legal, and no more places of the journal are in use than its 128, or than there were (R158). -/
def State.books (s t : State) : Prop := t.transitsLegal ∧ t.places ≤ max 128 s.places

theorem State.books.trans {s t u : State} (h : s.books t) (k : t.books u) : s.books u :=
  ⟨k.1, k.2.trans (max_le (le_max_left _ _) h.2)⟩

theorem State.books_of_ledger {s t : State} (h : t.ledger = s.ledger) (legal : s.transitsLegal) : s.books t := by
  refine ⟨State.transitsLegal_of_ledger h legal, ?_⟩
  have reserved : t.acc.reserved = s.acc.reserved := congrArg Ledger.reserved h
  have entered : t.acc.journal.length = s.acc.journal.length := congrArg Ledger.entered h
  rw [State.places, reserved, entered]
  exact le_max_right _ _

theorem State.books.refl {s : State} (legal : s.transitsLegal) : s.books s := State.books_of_ledger rfl legal

/-- What a step books is booked by every state with the same ledger. -/
theorem State.books.ledger {s t u : State} (h : s.books t) (k : u.ledger = t.ledger) : s.books u :=
  h.trans (State.books_of_ledger k h.1)

/-! ## The records of the state but for the register -/

/-- What the rules read of a state but for its register and its journal: the chamber count, the mode, the reservation, the transit queue and the transit table. -/
def State.records (s : State) : Nat × Mode × Nat × List Nat × List Transit × Nat :=
  (s.count, s.auth.mode, s.acc.reserved, s.arb.queue, s.table, s.acc.journal.length)

theorem Accounts.update_reserved (n : Nat) (f : Account → Account) (a : Accounts) :
    (a.update n f).reserved = a.reserved := by
  unfold Accounts.update
  split <;> rfl

@[simp] theorem State.raise_records (n : Notice) (s : State) : (s.raise n).records = s.records := rfl
@[simp] theorem State.push_records (t : Task) (s : State) : (s.push t).records = s.records := rfl
@[simp] theorem State.pushAll_records (l : List Task) (s : State) : (s.pushAll l).records = s.records := rfl
@[simp] theorem State.calling_records (s : State) : s.calling.records = s.records := rfl
@[simp] theorem State.setVessel_records (m : Mark) (f : Vessel → Vessel) (s : State) :
    (s.setVessel m f).records = s.records := rfl
@[simp] theorem State.freeVessel_records (m : Mark) (s : State) : (s.freeVessel m).records = s.records := rfl

theorem State.each_records {α : Type} (l : List α) (f : α → State → State) (h : ∀ x s, (f x s).records = s.records)
    (s : State) : (s.each l f).records = s.records := by
  induction l generalizing s with
  | nil => rfl
  | cons x rest ih => exact (ih (f x s)).trans (h x s)

@[simp] theorem State.setQueue_records (d : Direction) (f : List Mark → List Mark) (s : State) :
    (s.setQueue d f).records = s.records := by cases d <;> rfl
@[simp] theorem State.dequeue_records (d : Direction) (m : Mark) (s : State) : (s.dequeue d m).records = s.records :=
  s.setQueue_records d _
@[simp] theorem State.returnBlock_records (d : Direction) (l : List Mark) (s : State) :
    (s.returnBlock d l).records = s.records := s.setQueue_records d _

@[simp] theorem State.lowerCommitments_records (l : List Berth) (s : State) :
    (s.lowerCommitments l).records = s.records := by
  have kept (a : Accounts) : (l.foldl (fun a b => a.uncommit (s.accountOf b.mark) b.estimate) a).reserved = a.reserved
      ∧ (l.foldl (fun a b => a.uncommit (s.accountOf b.mark) b.estimate) a).journal = a.journal := by
    induction l generalizing a with
    | nil => exact ⟨rfl, rfl⟩
    | cons b rest ih => exact ⟨(ih _).1.trans (a.update_reserved _ _), (ih _).2.trans (a.update_journal _ _)⟩
  simp only [State.records, State.lowerCommitments, (kept s.acc).1, (kept s.acc).2]
  rfl

@[simp] theorem State.uncommitBerths_records (l : List Berth) (s : State) : (s.uncommitBerths l).records = s.records := by
  simp [State.uncommitBerths]

@[simp] theorem State.resolveQuote_records (m : Mark) (r : QuoteResult) (s : State) :
    (s.resolveQuote m r).records = s.records := by
  unfold State.resolveQuote
  split <;> rfl

@[simp] theorem State.resolveQuote_reg (m : Mark) (r : QuoteResult) (s : State) : (s.resolveQuote m r).reg = s.reg := by
  unfold State.resolveQuote
  split <;> rfl

theorem State.records_of_besidePcu {s t : State} (h : t.besidePcu = s.besidePcu) : t.records = s.records := by
  simp only [State.records, State.count, State.flight_of_besidePcu h, State.auth_of_besidePcu h,
    State.acc_of_besidePcu h, State.arb_of_besidePcu h, State.table_of_besidePcu h]

/-! ## The vessels called -/

/-- The entries that are called in a later register were called as they stand in an earlier one, and none of them has one of these marks. -/
def CalledBut (marks : List Mark) (before after : List Vessel) : Prop :=
  ∀ v ∈ after, ∀ id e, v.state = .called id e → v ∈ before ∧ v.mark ∉ marks

theorem CalledBut.of_eq {a b : List Vessel} (h : b = a) : CalledBut [] a b :=
  fun _ hv _ _ _ => ⟨h ▸ hv, List.not_mem_nil⟩

theorem CalledBut.append {l m : List Mark} {a b c : List Vessel} (h : CalledBut l a b) (k : CalledBut m b c) :
    CalledBut (l ++ m) a c := fun v hv id e hs => by
  obtain ⟨hb, hm⟩ := k v hv id e hs
  obtain ⟨ha, hl⟩ := h v hb id e hs
  exact ⟨ha, by simp [hl, hm]⟩

theorem State.each_calledBut {α : Type} {f : α → State → State} {mark : α → List Mark}
    (h : ∀ x s, CalledBut (mark x) s.reg.entries (f x s).reg.entries) (l : List α) (s : State) :
    CalledBut (l.flatMap mark) s.reg.entries (s.each l f).reg.entries := by
  induction l generalizing s with
  | nil => exact CalledBut.of_eq rfl
  | cons x rest ih => exact (h x s).append (ih (f x s))

theorem State.freeVessel_calledBut (m : Mark) (s : State) :
    CalledBut [m] s.reg.entries (s.freeVessel m).reg.entries := fun v hv _ _ _ => by
  have := List.mem_filter.1 hv
  exact ⟨this.1, by simpa using this.2⟩

/-- An entry set to a state that is not CALLED. -/
theorem State.setVessel_calledBut {m : Mark} {f : Vessel → Vessel} {s : State}
    (h : ∀ v id e, (f v).state ≠ .called id e) : CalledBut [m] s.reg.entries (s.setVessel m f).reg.entries := by
  intro v hv id e hs
  obtain ⟨w, hw, rfl⟩ := List.mem_map.1 hv
  by_cases hm : w.mark = m
  · rw [if_pos hm] at hs
    exact absurd hs (h w id e)
  · rw [if_neg hm] at hs ⊢
    exact ⟨hw, by simpa using hm⟩

theorem State.setQueue_entries (d : Direction) (f : List Mark → List Mark) (s : State) :
    (s.setQueue d f).reg.entries = s.reg.entries := by cases d <;> rfl

theorem State.returnVessels_calledBut (d : Direction) (marks : List Mark) (s : State) :
    CalledBut marks s.reg.entries (s.returnVessels d marks).reg.entries := by
  have each := State.each_calledBut (f := fun m => State.setVessel m (fun x => { x with state := .waiting }))
    (mark := fun m => [m]) (fun m x => State.setVessel_calledBut (by simp)) marks s
  rw [List.flatMap_singleton'] at each
  exact (State.setQueue_entries d _ _).symm ▸ each

@[simp] theorem State.returnVessels_records (d : Direction) (marks : List Mark) (s : State) :
    (s.returnVessels d marks).records = s.records := by
  simp only [State.returnVessels, State.calling_records, State.returnBlock_records]
  exact State.each_records _ _ (fun m x => x.setVessel_records m _) s

theorem State.freeVessels_calledBut (marks : List Mark) (s : State) :
    CalledBut marks s.reg.entries (s.freeVessels marks).reg.entries := by
  have each := State.each_calledBut (mark := fun m => [m]) State.freeVessel_calledBut marks s
  rwa [List.flatMap_singleton'] at each

theorem State.exitVessels_calledBut (t : Transit) (s : State) :
    CalledBut t.marks s.reg.entries (s.exitVessels t).reg.entries := by
  have each := State.each_calledBut
    (f := fun (b : Berth) => State.setVessel b.mark (fun v => { v with state := .exited t.id b.estimate }))
    (mark := fun b => [b.mark]) (fun m x => State.setVessel_calledBut (by simp)) t.berths s
  rwa [← List.map_eq_flatMap] at each

theorem State.abandonBerth_calledBut (id : Nat) (b : Berth) (s : State) :
    CalledBut [b.mark] s.reg.entries (s.abandonBerth id b).reg.entries := by
  have free := State.freeVessel_calledBut b.mark ((s.lowerCommitments [b]).resolveQuote b.mark .noCharge)
  simp only [State.resolveQuote_reg, State.lowerCommitments_reg] at free
  exact free

@[simp] theorem State.abandonBerth_records (id : Nat) (b : Berth) (s : State) :
    (s.abandonBerth id b).records = s.records := by simp [State.abandonBerth]

theorem State.withdrawWaiting_calledBut (c : WithdrawCause) (v : Vessel) (s : State) :
    CalledBut [v.mark] s.reg.entries (s.withdrawWaiting c v).reg.entries := by
  have free := State.freeVessel_calledBut v.mark (s.dequeue v.dir v.mark)
  rw [State.dequeue, State.setQueue_entries] at free
  exact free

@[simp] theorem State.withdrawWaiting_records (c : WithdrawCause) (v : Vessel) (s : State) :
    (s.withdrawWaiting c v).records = s.records := by simp [State.withdrawWaiting]

/-! ## One record replaced, dropped or added in a state -/

theorem State.books_of_legalTable {s u : State} (count : u.count = s.count) (mode : u.auth.mode = s.auth.mode)
    {queue : List Nat} {table : List Transit} (hq : u.arb.queue = queue) (ht : u.table.Perm table)
    (room : u.places ≤ max 128 s.places)
    (h : LegalTable s.count s.auth.mode u.acc.reserved queue u.reg.entries table) : s.books u := by
  refine ⟨?_, room⟩
  rw [State.transitsLegal_iff, count, mode, hq]
  exact h.perm ht.symm

/-- In a legal state a vessel called to a transit has its mark in the transit's berths. -/
theorem LegalTable.mark_of_called {n reserved : Nat} {mode : Mode} {queue : List Nat} {entries : List Vessel}
    {table : List Transit} (h : LegalTable n mode reserved queue entries table) {t : Transit} (ht : t ∈ table)
    {v : Vessel} (hv : v ∈ entries) {e : Nat} (hs : v.state = .called t.id e) : v.mark ∈ t.marks ∧ t.state ≠ .settled := by
  obtain ⟨u, hu, hid, unsettled, b, hb, hm⟩ := h.called v hv t.id e hs
  have := eq_of_id_eq h.ids ht hu hid
  subst this
  exact ⟨List.mem_map.2 ⟨b, hb, hm⟩, unsettled⟩

/-- Where no vessel is called with a mark of a transit none is called to the transit. -/
theorem State.not_called_of_but {s : State} (legal : s.transitsLegal) {t : Transit} (ht : t ∈ s.table)
    {entries : List Vessel} (h : CalledBut t.marks s.reg.entries entries) :
    ∀ v ∈ entries, ∀ id estimate, v.state = .called id estimate → v ∈ s.reg.entries ∧ id ≠ t.id := by
  intro v hv id e hs
  obtain ⟨hv', hm⟩ := h v hv id e hs
  refine ⟨hv', fun hid => hm ?_⟩
  subst hid
  exact ((State.legalTable legal).mark_of_called ht hv' hs).1

/-- A transit freed with the vessels called to it: its record leaves the table and its id the queue. -/
theorem State.books_dropped {s u : State} (legal : s.transitsLegal) {t : Transit} (ht : t ∈ s.table) {r : Nat}
    (records : u.records = (s.count, s.auth.mode, s.acc.reserved - r,
      s.arb.queue.filter (fun x => !decide (x = t.id)), othersIn s.table t.id, s.acc.journal.length))
    (called : ∀ v ∈ u.reg.entries, ∀ id estimate, v.state = .called id estimate → v ∈ s.reg.entries ∧ id ≠ t.id)
    (berths : r ≤ if t.state = .settled then 0 else t.berths.length) : s.books u := by
  have old := State.legalTable legal
  have old' := old.perm (perm_cons_othersIn old.ids ht)
  simp only [State.records, Prod.mk.injEq] at records
  obtain ⟨count, mode, reserved, queue, table, journal⟩ := records
  refine State.books_of_legalTable count mode queue (.of_eq table) ?_ (old'.drop called ?_)
  · simp only [State.places, reserved, journal]
    omega
  · have covered := old'.covered
    rw [unsettledBerthsOf_cons] at covered
    rw [reserved]
    omega

/-- A record replaced by one of the same id in its new shape, r places given back and k of them filled. -/
theorem State.books_replaced {s u : State} (legal : s.transitsLegal) {t : Transit} (ht : t ∈ s.table)
    (f : Transit → Transit) {r k : Nat}
    (records : u.records = (s.count, s.auth.mode, s.acc.reserved - r, queueAfter s.arb.queue (f t),
      s.table.map (fun x => if x.id = t.id then f x else x), s.acc.journal.length + k))
    (posted : k ≤ r)
    (sameId : (f t).id = t.id) (shape : (f t).shaped s.count) (stays : (f t).state = .queued → t.state = .queued)
    (nodup : (f t).held.Nodup) (apart : ∀ c ∈ (f t).held, ∀ x ∈ othersIn s.table t.id, c ∉ x.held)
    (dir : (f t).held ≠ [] → ∀ x ∈ othersIn s.table t.id, x.held ≠ [] → x.dir = (f t).dir)
    (called : ∀ v ∈ u.reg.entries, ∀ id estimate, v.state = .called id estimate →
      v ∈ s.reg.entries ∧ (id = t.id → (f t).state ≠ .settled ∧ ∃ b ∈ (f t).berths, b.mark = v.mark))
    (berths : (if (f t).state = .settled then 0 else (f t).berths.length) + r
      ≤ if t.state = .settled then 0 else t.berths.length) : s.books u := by
  have old := State.legalTable legal
  have old' := old.perm (perm_cons_othersIn old.ids ht)
  simp only [State.records, Prod.mk.injEq] at records
  obtain ⟨count, mode, reserved, queue, table, journal⟩ := records
  refine State.books_of_legalTable count mode queue (table ▸ perm_map_othersIn old.ids ht f) ?_
    (old'.replace sameId shape stays nodup apart dir (sameId ▸ called) ?_)
  · have covered := old'.covered
    rw [unsettledBerthsOf_cons] at covered
    simp only [State.places, reserved, journal]
    omega
  · have covered := old'.covered
    rw [unsettledBerthsOf_cons] at covered
    rw [reserved]
    omega

/-- A record taken on to its next state with its berths, the register as it stands. -/
theorem State.books_moved {s u : State} (legal : s.transitsLegal) {t : Transit} (ht : t ∈ s.table)
    (f : Transit → Transit)
    (records : u.records = (s.count, s.auth.mode, s.acc.reserved, queueAfter s.arb.queue (f t),
      s.table.map (fun x => if x.id = t.id then f x else x), s.acc.journal.length))
    (entries : u.reg.entries = s.reg.entries)
    (sameId : (f t).id = t.id) (shape : (f t).shaped s.count) (stays : (f t).state = .queued → t.state = .queued)
    (unsettled : (f t).state ≠ .settled ∧ t.state ≠ .settled) (sameBerths : (f t).berths = t.berths)
    (nodup : (f t).held.Nodup) (apart : ∀ c ∈ (f t).held, ∀ x ∈ othersIn s.table t.id, c ∉ x.held)
    (dir : (f t).held ≠ [] → ∀ x ∈ othersIn s.table t.id, x.held ≠ [] → x.dir = (f t).dir) : s.books u := by
  refine State.books_replaced (r := 0) (k := 0) legal ht f records le_rfl sameId shape stays nodup apart dir ?_ ?_
  · intro v hv id e hs
    rw [entries] at hv
    refine ⟨hv, fun hid => ⟨unsettled.1, ?_⟩⟩
    subst hid
    rw [sameBerths]
    exact List.mem_map.1 ((State.legalTable legal).mark_of_called ht hv hs).1
  · rw [if_neg unsettled.1, if_neg unsettled.2, sameBerths, Nat.add_zero]

/-- The queue of a legal state holds no id of a transit that is queued no longer. -/
theorem State.queue_of_not_queued {s : State} (legal : s.transitsLegal) {t : Transit} (ht : t ∈ s.table)
    (h : t.state ≠ .queued) : s.arb.queue.filter (fun x => !decide (x = t.id)) = s.arb.queue := by
  refine List.filter_eq_self.2 fun id hid => ?_
  obtain ⟨u, hu, rfl, queued⟩ := ((State.legalTable legal).queueExact id).1 hid
  have : u.id ≠ t.id := fun same => h (eq_of_id_eq (State.legalTable legal).ids ht hu same ▸ queued)
  simp [this]

theorem State.queueAfter_of_not_queued {s : State} (legal : s.transitsLegal) {t u : Transit} (ht : t ∈ s.table)
    (sameId : u.id = t.id) (h : t.state ≠ .queued) : queueAfter s.arb.queue u = s.arb.queue := by
  unfold queueAfter
  split
  · rfl
  · rw [sameId, State.queue_of_not_queued legal ht h]

/-! ## Starting and going on (R105, R106) -/

@[simp] theorem State.raiseAll_records (l : List Notice) (s : State) : (s.raiseAll l).records = s.records :=
  State.records_of_besidePcu (s.raiseAll_besidePcu l)

theorem State.leaveQueue_records (id : Nat) (c : EmptyCause) (s : State) : (s.leaveQueue id c).records
    = (s.count, s.auth.mode, s.acc.reserved, s.arb.queue.filter (fun x => !decide (x = id)), s.table,
      s.acc.journal.length) := by
  unfold State.leaveQueue
  rw [State.calling_records, State.when]
  split <;> rfl

theorem State.leaveQueue_reg (id : Nat) (c : EmptyCause) (s : State) : (s.leaveQueue id c).reg = s.reg := by
  unfold State.leaveQueue
  rw [State.calling_reg, State.when]
  split <;> rfl

theorem State.leaveQueue_table (id : Nat) (c : EmptyCause) (s : State) : (s.leaveQueue id c).table = s.table := by
  unfold State.leaveQueue
  rw [State.calling_table, State.when]
  split <;> rfl

/-- Where a chamber has no holder no record holds it. -/
theorem State.not_held_of_holderOf {s : State} {c : Nat} (h : (s.holderOf c).isNone = true) :
    ∀ t ∈ s.table, c ∉ t.held := by
  intro t ht hc
  rw [State.holderOf, Option.isNone_map, Option.isNone_iff_eq_none] at h
  exact absurd (List.find?_eq_none.1 h t ht) (by simp [hc])

/-- The flight direction is the direction of every holder of a legal state. -/
theorem State.dir_of_flightDir {s : State} (legal : s.transitsLegal) {d : Direction}
    (h : s.flightDir = none ∨ s.flightDir = some d) : ∀ t ∈ s.table, t.held ≠ [] → t.dir = d := by
  intro t ht held
  cases hf : s.table.find? (fun t => !t.held.isEmpty) with
  | none => exact absurd (List.find?_eq_none.1 hf t ht) (by simp [held])
  | some y =>
    rw [State.flightDir, hf, Option.map_some] at h
    rcases h with h | h
    · cases h
    · have some_ := List.find?_some hf
      have hy : y.held ≠ [] := by simpa using some_
      rw [(State.legalTable legal).dirs t ht y (List.mem_of_find?_eq_some hf) held hy, Option.some.inj h]

theorem State.count_pos {s : State} (count : s.countLegal) : 1 ≤ s.count ∧ s.count ≤ 3 := by
  unfold State.count
  cases h : s.flight.n with
  | none => simp
  | some n => exact count n h

/-- A change of a record that sets its move short of CLOSE leaves it open. -/
theorem State.openAt_of_set {s u : State} {id : Nat} {f : Transit → Transit} {m : Move}
    (table : u.table = s.table.map (fun x => if x.id = id then f x else x)) (move : ∀ x, (f x).move = some m)
    (short : m.phase ≠ .close) : u.openAt id := by
  intro x hx hid y hy
  rw [table] at hx
  obtain ⟨w, -, rfl⟩ := List.mem_map.1 hx
  by_cases h : w.id = id
  · rw [if_pos h, move w] at hy
    exact Option.some.inj hy ▸ short
  · rw [if_neg h] at hid
    exact absurd hid h

theorem State.startTransit_books {s : State} {t : Transit} (count : s.countLegal) (legal : s.transitsLegal)
    (ht : t ∈ s.table) (may : s.mayStartTransit t = true) : s.books (s.startTransit t) := by
  simp only [State.mayStartTransit, Bool.and_eq_true, Bool.or_eq_true, decide_eq_true_eq] at may
  obtain ⟨⟨⟨-, dir⟩, free⟩, queued⟩ := may
  have dirs := State.dir_of_flightDir legal dir
  have bounds : 1 ≤ s.entryChamber t.dir ∧ s.entryChamber t.dir ≤ s.count := by
    have := State.count_pos count
    cases t.dir <;> simp [State.entryChamber] <;> omega
  have moved : s.books (((s.leaveQueue t.id .started).setTransit t.id (fun x => { x with
      state := .moving, held := [s.entryChamber t.dir], move := some (s.entryMove t.dir) })).raiseAll
        [.transitStarted t.id t.dir (s.entryChamber t.dir), .moveBegun t.id .entry (s.entryMove t.dir).passage
          (s.entryMove t.dir).source (s.entryMove t.dir).destination]) := by
    refine State.books_moved legal ht (fun x => { x with
      state := .moving, held := [s.entryChamber t.dir], move := some (s.entryMove t.dir) }) ?_ ?_ rfl ?_ (by simp)
      (by simp [queued]) rfl (by simp) ?_ ?_
    · rw [State.raiseAll_records]
      have left := s.leaveQueue_records t.id .started
      simp only [State.records, Prod.mk.injEq] at left ⊢
      obtain ⟨count, mode, reserved, queue, table, journal⟩ := left
      exact ⟨count, mode, reserved, by simpa [queueAfter] using queue, by rw [← table]; rfl, journal⟩
    · rw [State.raiseAll_reg]
      exact congrArg Register.entries (s.leaveQueue_reg _ _)
    · cases hd : t.dir <;> simp [Transit.shaped, State.entryMove, Move.fresh, State.entryChamber, hd] at bounds ⊢ <;> omega
    · intro c hc x hx
      rw [List.mem_singleton.1 hc]
      exact State.not_held_of_holderOf free x (mem_othersIn.1 hx).1
    · exact fun _ x hx held => dirs x (mem_othersIn.1 hx).1 held
  unfold State.startTransit
  refine moved.ledger ((State.newHead_ledger _ _).trans (State.enterEqualise_ledger ?_))
  refine State.openAt_of_set (s := s) (f := fun x => { x with
      state := .moving, held := [s.entryChamber t.dir], move := some (s.entryMove t.dir) })
      (m := s.entryMove t.dir) ?_ (fun _ => rfl) (by cases t.dir <;> simp [State.entryMove, Move.fresh])
  rw [State.table_of_besidePcu (State.raiseAll_besidePcu _ _)]
  exact congrArg (List.map _) (s.leaveQueue_table t.id .started)

theorem State.takeExamineHead_books {s : State} (count : s.countLegal) (legal : s.transitsLegal) :
    s.books s.takeExamineHead := by
  unfold State.takeExamineHead
  split
  · exact .refl legal
  · next t found =>
    obtain ⟨id, -, known⟩ := Option.bind_eq_some_iff.1 found
    split
    · next may => exact State.startTransit_books count legal (State.mem_of_transit known).1 may
    · exact .refl legal

/-- What a transit in WAITING_NEXT holds in a legal state: one chamber, no move. -/
theorem Transit.shaped_waitingNext {n : Nat} {t : Transit} (h : t.shaped n) (hs : t.state = .waitingNext) :
    ∃ c, t.held = [c] ∧ t.move = none ∧ 1 ≤ c ∧ c ≤ n := by
  unfold Transit.shaped at h
  rw [hs] at h
  split at h <;> simp_all

/-- The next move of a transit that holds a chamber of the flight leaves it from that chamber. -/
theorem State.nextMove_from {s : State} {c : Nat} (d : Direction) (h : 1 ≤ c ∧ c ≤ s.count) :
    (s.nextMove d c).source = c ∧ (s.nextMove d c).phase = .prep
      ∧ ((s.nextMove d c).kind = .exit
        ∨ (s.nextMove d c).kind = .shift ∧ 1 ≤ (s.nextMove d c).destination ∧ (s.nextMove d c).destination ≤ s.count
          ∧ (s.nextMove d c).destination ≠ c) := by
  cases d with
  | down =>
    by_cases last : c = s.count
    · simp [State.nextMove, Move.fresh, last]
    · simp [State.nextMove, Move.fresh, last]
      omega
  | up =>
    by_cases last : c = 1
    · simp [State.nextMove, Move.fresh, last]
    · simp [State.nextMove, Move.fresh, last]
      omega

/-- A move that begins for a transit in WAITING_NEXT: it keeps its chamber and takes at most one that no other holds. -/
theorem State.beginMove_books {s : State} {t : Transit} {c : Nat} {held : List Nat} {m : Move}
    (legal : s.transitsLegal) (ht : t ∈ s.table) (hs : t.state = .waitingNext) (hheld : t.held = [c])
    (shape : ({ t with state := .moving, held := held, move := some m } : Transit).shaped s.count) (nodup : held.Nodup)
    (free : ∀ d ∈ held, d ≠ c → ∀ x ∈ s.table, d ∉ x.held) : s.books (s.beginMove t.id held m) := by
  have old := State.legalTable legal
  have split_ := old.perm (perm_cons_othersIn old.ids ht)
  have own : c ∈ t.held := by simp [hheld]
  refine State.books_moved legal ht (fun x => { x with state := .moving, held := held, move := some m }) ?_ rfl rfl
    shape (by simp) (by simp [hs]) rfl nodup ?_ ?_
  · rw [State.queueAfter_of_not_queued (u := { t with state := .moving, held := held, move := some m }) legal ht rfl
      (by simp [hs])]
    rfl
  · intro d hd x hx
    by_cases hdc : d = c
    · exact hdc ▸ split_.held_apart own x hx
    · exact free d hd hdc x (mem_othersIn.1 hx).1
  · exact fun _ x hx hxh => old.dirs x (mem_othersIn.1 hx).1 t ht hxh (List.ne_nil_of_mem own)

theorem State.goOn_books {s : State} {t : Transit} {c : Nat} (legal : s.transitsLegal) (ht : t ∈ s.table)
    (hs : t.state = .waitingNext) (hc : c ∈ t.held) : s.books (s.goOn t c) := by
  obtain ⟨c', hheld, hmove, bounds⟩ := Transit.shaped_waitingNext ((State.legalTable legal).shaped t ht) hs
  rw [hheld, List.mem_singleton] at hc
  subst hc
  obtain ⟨source, phase, kind⟩ := State.nextMove_from (s := s) t.dir bounds
  unfold State.goOn
  rcases kind with exit | ⟨shift, lo, hi, apart⟩
  · simp only [exit]
    refine (State.beginMove_books legal ht hs hheld ?_ (by simp) (by simp)).ledger (State.enterEqualise_ledger ?_)
    · simp [Transit.shaped, bounds, exit, source, phase]
    · exact State.openAt_of_set (s := s) (f := fun x => { x with
        state := .moving, held := [c], move := some (s.nextMove t.dir c) }) rfl (fun _ => rfl) (by simp [phase])
  · simp only [shift]
    split
    · exact .refl legal
    · next vacant =>
      refine (State.beginMove_books legal ht hs hheld ?_ (by simpa using apart.symm) ?_).ledger
        (State.formCascade_ledger _ _ _ _)
      · simp [Transit.shaped, bounds, shift, source, lo, hi]
      · intro d hd hdc
        have : d = (s.nextMove t.dir c).destination := by simpa [hdc] using hd
        exact this ▸ State.not_held_of_holderOf (by simpa using vacant)

theorem State.takeExamineNext_books {s : State} (legal : s.transitsLegal) (id : Nat) :
    s.books (s.takeExamineNext id) := by
  unfold State.takeExamineNext
  split
  · next t known =>
    split
    · next c rest hs hheld =>
      split
      · exact State.goOn_books legal (State.mem_of_transit known).1 hs (by simp [hheld])
      · exact .refl legal
    · exact .refl legal
  · exact .refl legal

end Sys2Proof.Machine
end

