-- ==== Sys2Proof/Proofs/TransitEnds.lean ====
section
/-! SUPPORT. The steps that end, cancel, settle or make a transit (05, 06): each leaves a legal table and keeps the journal's places. -/

namespace Sys2Proof.Machine

/-! ## Gate ends (R111, R112, R114, R116) -/

/-- The shape of a transit that has a move, by the kind of the move. -/
theorem Transit.shaped_moving {n : Nat} {t : Transit} {m : Move} (h : t.shaped n) (hm : t.move = some m) :
    t.state ≠ .queued ∧ ((m.kind = .entry ∧ t.state = .moving ∧ t.held = [m.destination]
        ∧ 1 ≤ m.destination ∧ m.destination ≤ n)
      ∨ (m.kind = .shift ∧ t.state = .moving ∧ t.held = [m.source, m.destination]
        ∧ 1 ≤ m.source ∧ m.source ≤ n ∧ 1 ≤ m.destination ∧ m.destination ≤ n)
      ∨ (m.kind = .exit ∧ (∃ c, t.held = [c] ∧ 1 ≤ c ∧ c ≤ n)
        ∧ ((t.state = .moving ∧ m.phase ≠ .close) ∨ (t.state = .settled ∧ m.phase = .close)))) := by
  unfold Transit.shaped at h
  split at h
  · simp_all
  · simp_all
  · next hs hmove hheld =>
    obtain rfl := Option.some.inj (hmove.symm.trans hm)
    rcases h.2 with ⟨entry, destination⟩ | ⟨exit, source, phase⟩
    · simp [hs, hheld, entry, destination, h.1]
    · simp [hs, hheld, exit, h.1, phase]
  · next hs hmove hheld =>
    obtain rfl := Option.some.inj (hmove.symm.trans hm)
    obtain ⟨⟨c1, c2, d1, d2⟩, shift, source, destination⟩ := h
    simp [hs, hheld, shift, source, destination, c1, c2, d1, d2]
  · next hs hmove hheld =>
    obtain rfl := Option.some.inj (hmove.symm.trans hm)
    simp [hs, hheld, h]
  · exact h.elim

/-- A move ends: its transit waits for the next with one of the chambers it held. -/
theorem State.endMove_books {s : State} {t : Transit} {m : Move} {c : Nat} (legal : s.transitsLegal) (ht : t ∈ s.table)
    (moving : t.state = .moving) (own : c ∈ t.held) : s.books (s.endMove t m [c]) := by
  have old := State.legalTable legal
  refine State.books_moved legal ht (fun x => { x with state := .waitingNext, held := [c], move := none }) ?_ rfl rfl ?_
    (by simp) (by simp [moving]) rfl (by simp) ?_ ?_
  · rw [State.queueAfter_of_not_queued (u := { t with state := .waitingNext, held := [c], move := none }) legal ht rfl
      (by simp [moving])]
    rfl
  · simpa [Transit.shaped] using (Transit.shaped_held (old.shaped t ht)).1 c own
  · intro d hd x hx
    rw [List.mem_singleton.1 hd]
    exact (old.perm (perm_cons_othersIn old.ids ht)).held_apart own x hx
  · exact fun _ x hx hxh => old.dirs x (mem_othersIn.1 hx).1 t ht hxh (List.ne_nil_of_mem own)

theorem State.moveClosed_books {s : State} {t : Transit} {m : Move} (legal : s.transitsLegal) (ht : t ∈ s.table)
    (hm : t.move = some m) (closing : m.phase = .close) : s.books (s.moveClosed t m) := by
  obtain ⟨-, ⟨kind, moving, held, -⟩ | ⟨kind, moving, held, -⟩ | ⟨kind, ⟨c, held, -⟩, ⟨-, opening⟩ | ⟨settled, -⟩⟩⟩ :=
    Transit.shaped_moving ((State.legalTable legal).shaped t ht) hm
  · simp only [State.moveClosed, kind, held]
    exact (State.endMove_books (m := m) legal ht moving (by simp [held])).ledger rfl
  · simp only [State.moveClosed, kind]
    exact (State.endMove_books (m := m) legal ht moving (by simp [held])).ledger rfl
  · exact absurd closing opening
  · simp only [State.moveClosed, kind]
    refine State.books_dropped (r := 0) legal ht ?_ ?_ (Nat.zero_le _)
    · rw [State.queue_of_not_queued legal ht (by simp [settled])]
      rfl
    · intro v hv id e hs
      refine ⟨hv, fun hid => ?_⟩
      subst hid
      exact ((State.legalTable legal).mark_of_called ht hv hs).2 settled

theorem State.reportClosed_besidePcu (id k : Nat) (s : State) : (s.reportClosed id k).besidePcu = s.besidePcu := by
  unfold State.reportClosed
  split
  · unfold State.when
    split
    · exact s.enterShutting_besidePcu k
    · rfl
  · rfl

theorem State.mem_of_moverOf {s : State} {k : Nat} {t : Transit} {m : Move} (h : s.moverOf k = some (t, m)) :
    t ∈ s.table ∧ t.move = some m := by
  obtain ⟨x, hx, found⟩ := List.exists_of_findSome?_eq_some h
  split at found
  · next hm =>
    split at found
    · cases found
      exact ⟨hx, hm⟩
    · cases found
  · cases found

theorem State.takeGateEnd_books {s : State} (legal : s.transitsLegal) (k : Nat) : s.books (s.takeGateEnd k) := by
  unfold State.takeGateEnd
  split
  · exact .refl legal
  · next t m found =>
    obtain ⟨ht, hm⟩ := State.mem_of_moverOf found
    have reported := s.reportClosed_besidePcu t.id m.passage
    have same : s.books (s.reportClosed t.id m.passage) :=
      State.books_of_ledger (State.ledger_of_besidePcu reported) legal
    split
    · split
      · next phase =>
        exact State.books_of_ledger
          (State.enterAwait_ledger (State.openAt_of_legal legal ht hm (by simp [phase]))) legal
      · exact .refl legal
    · unfold State.gateClosed
      split
      · next phase =>
        exact same.trans (State.moveClosed_books same.1 (by rw [State.table_of_besidePcu reported]; exact ht) hm phase)
      · exact same
      · exact same
      · exact .refl legal
      · exact .refl legal
    all_goals exact .refl legal

/-! ## Cancelled and abandoned transits (R96, R97, R124, R125) -/

theorem State.freeTransit_records (id : Nat) (s : State) : (s.freeTransit id).records
    = (s.count, s.auth.mode, s.acc.reserved, s.arb.queue, othersIn s.table id, s.acc.journal.length) := rfl

theorem State.unreserveBerths_records (n : Nat) (s : State) : (s.unreserveBerths n).records
    = (s.count, s.auth.mode, s.acc.reserved - n, s.arb.queue, s.table, s.acc.journal.length) := rfl

/-- A record changed and then freed leaves the others. -/
theorem othersIn_map {table : List Transit} {id : Nat} {f : Transit → Transit} (h : ∀ x, (f x).id = x.id) :
    othersIn (table.map (fun x => if x.id = id then f x else x)) id = othersIn table id := by
  rw [othersIn, othersIn, List.filter_map]
  have same : (fun t : Transit => !decide (t.id = id)) ∘ (fun x => if x.id = id then f x else x)
      = fun t => !decide (t.id = id) := by
    funext x
    by_cases hx : x.id = id <;> simp [hx, h]
  rw [same]
  refine (List.map_congr_left fun x hx => ?_).trans (List.map_id _)
  have := (List.mem_filter.1 hx).2
  simp_all

theorem State.abortAll_besidePcu (t : Transit) (s : State) : (s.abortAll t).besidePcu = s.besidePcu :=
  State.each_besidePcu _ _ (fun _ _ => State.abortOp_besidePcu _ _ _) s

theorem State.cancelQueued_books {s : State} {t : Transit} (legal : s.transitsLegal) (ht : t ∈ s.table)
    (queued : t.state = .queued) : s.books (s.cancelQueued t) := by
  unfold State.cancelQueued
  refine State.books.ledger ?_ (State.newHead_ledger _ _)
  refine State.books_dropped (r := t.berths.length) legal ht ?_ (State.not_called_of_but legal ht ?_) (by simp [queued])
  · have records := (((s.leaveQueue t.id .cancel).uncommitBerths t.berths).returnVessels_records t.dir t.marks).trans
      ((State.uncommitBerths_records _ _).trans (s.leaveQueue_records t.id .cancel))
    rw [State.raise_records, State.freeTransit_records]
    simp only [State.records, Prod.mk.injEq] at records ⊢
    obtain ⟨count, mode, reserved, queue, table, journal⟩ := records
    exact ⟨count, mode, congrArg (· - _) reserved, queue, congrArg (othersIn · _) table, journal⟩
  · have returned := ((s.leaveQueue t.id .cancel).uncommitBerths t.berths).returnVessels_calledBut t.dir t.marks
    simp only [State.uncommitBerths, State.pushAll_reg, State.lowerCommitments_reg, State.leaveQueue_reg] at returned
    exact returned

/-- A transit that gave up its chambers is freed, its vessels gone or WAITING and its berths' places given back. -/
theorem State.books_freed {s u x : State} {t : Transit} (legal : s.transitsLegal) (ht : t ∈ s.table)
    (notQueued : t.state ≠ .queued) (unsettled : t.state ≠ .settled) (same : u.besidePcu = s.besidePcu)
    (records : x.records = (u.setTransit t.id (fun x => { x with held := [] })).records)
    (entries : CalledBut t.marks u.reg.entries x.reg.entries) :
    s.books ((x.freeTransit t.id).unreserveBerths t.berths.length) := by
  rw [State.reg_of_besidePcu same] at entries
  refine State.books_dropped (r := t.berths.length) legal ht ?_ (State.not_called_of_but legal ht entries)
    (by simp [unsettled])
  have kept := State.records_of_besidePcu same
  rw [State.unreserveBerths_records]
  simp only [State.records, Prod.mk.injEq] at records kept ⊢
  obtain ⟨count, mode, reserved, queue, table, journal⟩ := records
  obtain ⟨count', mode', reserved', queue', table', journal'⟩ := kept
  refine ⟨count.trans count', mode.trans mode', congrArg (· - _) (reserved.trans reserved'), ?_, ?_,
    journal.trans journal'⟩
  · rw [State.queue_of_not_queued legal ht notQueued]
    exact queue.trans queue'
  · refine (congrArg (othersIn · _) table).trans ?_
    rw [← table']
    exact othersIn_map fun _ => rfl

theorem State.cancelEntry_books {s : State} {t : Transit} {m : Move} (legal : s.transitsLegal) (ht : t ∈ s.table)
    (moving : t.state = .moving) : s.books (s.cancelEntry t m) := by
  have closed : (((s.abortAll t)).when (!decide (((s.abortAll t).passage m.passage).gate.state = .closed))
      (State.commandClose false m.passage)).besidePcu = s.besidePcu := by
    unfold State.when
    split
    · exact (State.commandClose_besidePcu _ _ _).trans (s.abortAll_besidePcu t)
    · exact s.abortAll_besidePcu t
  simp only [State.cancelEntry]
  generalize ((s.abortAll t)).when (!decide (((s.abortAll t).passage m.passage).gate.state = .closed))
      (State.commandClose false m.passage) = u at closed
  refine State.books.ledger (State.books_freed (x := ((u.setTransit t.id (fun x => { x with held := [] })).uncommitBerths
    t.berths).returnVessels t.dir t.marks) legal ht (by simp [moving]) (by simp [moving]) closed ?_ ?_) rfl
  · exact (State.returnVessels_records _ _ _).trans (State.uncommitBerths_records _ _)
  · have returned := ((u.setTransit t.id (fun x => { x with held := [] })).uncommitBerths
      t.berths).returnVessels_calledBut t.dir t.marks
    rwa [State.uncommitBerths, State.pushAll_reg, State.lowerCommitments_reg] at returned

theorem State.abandonTransit_books {s : State} {t : Transit} (legal : s.transitsLegal) (ht : t ∈ s.table)
    (state : t.state = .moving ∨ t.state = .waitingNext) : s.books (s.abandonTransit t) := by
  have aborted := s.abortAll_besidePcu t
  have notQueued : t.state ≠ .queued := by rcases state with h | h <;> simp [h]
  have unsettled : t.state ≠ .settled := by rcases state with h | h <;> simp [h]
  unfold State.abandonTransit
  generalize s.abortAll t = u at aborted
  refine State.books.ledger (State.books_freed (x := (u.setTransit t.id (fun x => { x with held := [] })).each t.berths
    (State.abandonBerth t.id)) legal ht notQueued unsettled aborted ?_ ?_) rfl
  · exact State.each_records t.berths _ (fun b x => x.abandonBerth_records t.id b) _
  · have left := State.each_calledBut (f := State.abandonBerth t.id) (mark := fun b => [b.mark])
      (fun b x => x.abandonBerth_calledBut t.id b) t.berths (u.setTransit t.id (fun x => { x with held := [] }))
    rwa [← List.map_eq_flatMap] at left

/-! ## WITHDRAW of a called vessel (R71, R97) -/

theorem State.cancelEmptied_reg (t : Transit) (s : State) : (s.cancelEmptied t).reg = s.reg := by
  simp only [State.cancelEmptied, State.newHead, State.when]
  split <;> exact s.leaveQueue_reg t.id .withdrawn

theorem State.cancelEmptied_records (t : Transit) (s : State) : (s.cancelEmptied t).records
    = (s.count, s.auth.mode, s.acc.reserved, s.arb.queue.filter (fun x => !decide (x = t.id)), othersIn s.table t.id,
      s.acc.journal.length) := by
  have freed : (s.cancelEmptied t).records = ((s.leaveQueue t.id .withdrawn).freeTransit t.id).records := by
    simp only [State.cancelEmptied, State.newHead, State.when]
    split <;> rfl
  have left := s.leaveQueue_records t.id .withdrawn
  rw [freed, State.freeTransit_records]
  simp only [State.records, Prod.mk.injEq] at left ⊢
  obtain ⟨count, mode, reserved, queue, table, journal⟩ := left
  exact ⟨count, mode, reserved, queue, congrArg (othersIn · _) table, journal⟩

theorem State.dropBerth_reg (t : Transit) (m : Mark) (s : State) : (s.dropBerth t m).reg = s.reg := by
  simp only [State.dropBerth]
  split
  · exact s.cancelEmptied_reg t
  · rfl

/-- The records after the WITHDRAW of a called vessel: those after its berth is dropped, with one place given back. -/
theorem State.withdrawCalled_records (v : Vessel) (t : Transit) (s : State) :
    (s.withdrawCalled v t).records = ((s.dropBerth t v.mark).unreserveBerths 1).records := by
  unfold State.withdrawCalled
  rw [State.unreserveBerths_records, State.unreserveBerths_records]
  have same : (((((s.dropBerth t v.mark).uncommitBerths (t.berths.filter (fun b => decide (b.mark = v.mark)))).resolveQuote
      v.mark .withdrawn).freeVessel v.mark).raise (.vesselWithdrawn v.mark .withdraw (some t.id))).records
      = (s.dropBerth t v.mark).records := by simp
  simp only [State.records, Prod.mk.injEq] at same ⊢
  obtain ⟨count, mode, reserved, queue, table, journal⟩ := same
  exact ⟨count, mode, congrArg (· - _) reserved, queue, table, journal⟩

theorem State.withdrawCalled_calledBut (v : Vessel) (t : Transit) (s : State) :
    CalledBut [v.mark] s.reg.entries (s.withdrawCalled v t).reg.entries := by
  have free := State.freeVessel_calledBut v.mark (((s.dropBerth t v.mark).uncommitBerths
    (t.berths.filter (fun b => decide (b.mark = v.mark)))).resolveQuote v.mark .withdrawn)
  rwa [State.resolveQuote_reg, State.uncommitBerths, State.pushAll_reg, State.lowerCommitments_reg,
    State.dropBerth_reg] at free

theorem State.withdrawCalled_books {s : State} {v : Vessel} {t : Transit} {e : Nat} (legal : s.transitsLegal)
    (ht : t ∈ s.table) (queued : t.state = .queued) (hv : v ∈ s.reg.entries) (called : v.state = .called t.id e) :
    s.books (s.withdrawCalled v t) := by
  have old := State.legalTable legal
  have unsettled : t.state ≠ .settled := by simp [queued]
  obtain ⟨b, hb, hbm⟩ := List.mem_map.1 (old.mark_of_called ht hv called).1
  have fewer : (t.berths.filter (fun b => !decide (b.mark = v.mark))).length + 1 ≤ t.berths.length :=
    List.length_filter_lt_length_iff_exists.2 ⟨b, hb, by simp [hbm]⟩
  have entries := s.withdrawCalled_calledBut v t
  have records := s.withdrawCalled_records v t
  simp only [State.dropBerth] at records
  by_cases left : (t.berths.filter (fun b => !decide (b.mark = v.mark))).isEmpty = true
  · rw [if_pos left] at records
    refine State.books_dropped (r := 1) legal ht ?_ ?_ (by rw [if_neg unsettled]; omega)
    · have gone := s.cancelEmptied_records t
      rw [records, State.unreserveBerths_records]
      simp only [State.records, Prod.mk.injEq] at gone ⊢
      obtain ⟨count, mode, reserved, queue, table, journal⟩ := gone
      exact ⟨count, mode, congrArg (· - 1) reserved, queue, table, journal⟩
    · intro w hw id e' hs
      obtain ⟨hw', hm⟩ := entries w hw id e' hs
      refine ⟨hw', fun hid => ?_⟩
      subst hid
      obtain ⟨b', hb', hbm'⟩ := List.mem_map.1 (old.mark_of_called ht hw' hs).1
      have := List.filter_eq_nil_iff.1 (List.isEmpty_iff.1 left) b' hb'
      simp_all
  · rw [if_neg left] at records
    refine State.books_replaced (r := 1) (k := 0) legal ht
      (fun x => { x with berths := t.berths.filter (fun b => !decide (b.mark = v.mark)) }) ?_ (Nat.zero_le _) rfl ?_ (fun h => h) ?_ ?_ ?_ ?_ ?_
    · rw [records]
      rw [State.unreserveBerths_records, queueAfter, if_pos queued]
      rfl
    · exact old.shaped t ht
    · exact (old.perm (perm_cons_othersIn old.ids ht)).held_nodup
    · exact fun c hc => (old.perm (perm_cons_othersIn old.ids ht)).held_apart hc
    · exact fun held x hx hxh => old.dirs x (mem_othersIn.1 hx).1 t ht hxh held
    · intro w hw id e' hs
      obtain ⟨hw', hm⟩ := entries w hw id e' hs
      refine ⟨hw', fun hid => ⟨unsettled, ?_⟩⟩
      subst hid
      obtain ⟨b', hb', hbm'⟩ := List.mem_map.1 (old.mark_of_called ht hw' hs).1
      exact ⟨b', List.mem_filter.2 ⟨hb', by simpa [hbm'] using hm⟩, hbm'⟩
    · simpa [unsettled] using fewer

end Sys2Proof.Machine
end

