-- ==== Sys2Proof/Proofs/Settlements.lean ====
section
/-! SUPPORT. Confirmation and settlement (06 R113, R115), the creation of a transit (05 R91, R92) and the work that follows in an event: a legal table stays legal, and the journal's places suffice. -/

namespace Sys2Proof.Machine

/-! ## Confirmation (R113) -/

/-- A record whose move has been confirmed: its overdue timer stopped, its move in CLOSE. -/
def Transit.confirmedClose (t : Transit) : Transit :=
  { t with overdue := .stopped, move := t.move.map (fun x => { x with confirmed := true, phase := .close }) }

/-- Two changes of one record are one. -/
theorem map_set_map_set {table : List Transit} {id : Nat} {f g : Transit → Transit} (h : ∀ x, (f x).id = x.id) :
    (table.map (fun x => if x.id = id then f x else x)).map (fun x => if x.id = id then g x else x)
      = table.map (fun x => if x.id = id then g (f x) else x) := by
  rw [List.map_map]
  refine List.map_congr_left fun x _ => ?_
  by_cases hx : x.id = id <;> simp [hx, h]

theorem State.takeConfirmation_table (t : Transit) (m : Move) (s : State) : (s.takeConfirmation t m).table
    = s.table.map (fun x => if x.id = t.id then x.confirmedClose else x) := by
  have closed : (s.takeConfirmation t m).table
      = (((s.setTransit t.id Transit.stopOverdue).setMove t.id
          (fun x => { x with confirmed := true, phase := .close }))).table := by
    unfold State.takeConfirmation State.when
    split
    · exact (State.table_of_besidePcu (State.commandClose_besidePcu _ _ _)).trans rfl
    · rfl
  rw [closed]
  exact map_set_map_set fun _ => rfl

/-- A confirmation is taken in its move alone: the rest of the records stay. -/
theorem State.takeConfirmation_records (t : Transit) (m : Move) (s : State) : (s.takeConfirmation t m).records
    = (s.count, s.auth.mode, s.acc.reserved, s.arb.queue,
      s.table.map (fun x => if x.id = t.id then x.confirmedClose else x), s.acc.journal.length) := by
  have table := s.takeConfirmation_table t m
  have others : (s.takeConfirmation t m).records = (s.count, s.auth.mode, s.acc.reserved, s.arb.queue,
      (s.takeConfirmation t m).table, s.acc.journal.length) := by
    unfold State.takeConfirmation State.when
    split
    · exact (State.records_of_besidePcu (State.commandClose_besidePcu _ _ _)).trans
        (by rw [State.table_of_besidePcu (State.commandClose_besidePcu _ _ _)]; rfl)
    · rfl
  rw [others, table]

theorem State.takeConfirmation_reg (t : Transit) (m : Move) (s : State) : (s.takeConfirmation t m).reg = s.reg := by
  unfold State.takeConfirmation State.when
  split
  · exact (State.reg_of_besidePcu (State.commandClose_besidePcu _ _ _)).trans rfl
  · rfl

/-- A confirmation of an ENTRY or a SHIFT leaves a legal table. -/
theorem State.takeConfirmation_books {s : State} {t : Transit} {m : Move} (legal : s.transitsLegal) (ht : t ∈ s.table)
    (hm : t.move = some m) (passing : m.kind ≠ .exit) : s.books (s.takeConfirmation t m) := by
  have old := State.legalTable legal
  have apart := old.perm (perm_cons_othersIn old.ids ht)
  obtain ⟨notQueued, shape⟩ := Transit.shaped_moving (old.shaped t ht) hm
  have moving : t.state = .moving ∧ t.confirmedClose.shaped s.count := by
    rcases shape with ⟨kind, moving, held, bounds⟩ | ⟨kind, moving, held, bounds⟩ | ⟨kind, -⟩
    · simp [Transit.shaped, Transit.confirmedClose, hm, moving, held, kind, bounds]
    · simp [Transit.shaped, Transit.confirmedClose, hm, moving, held, kind, bounds]
    · exact absurd kind passing
  refine State.books_moved legal ht Transit.confirmedClose ?_ (congrArg Register.entries (s.takeConfirmation_reg t m)) rfl
    moving.2 (fun h => h) (by simp [Transit.confirmedClose, moving.1]) rfl apart.held_nodup
    (fun c hc => apart.held_apart hc) (fun held x hx hxh => old.dirs x (mem_othersIn.1 hx).1 t ht hxh held)
  rw [State.queueAfter_of_not_queued legal ht (u := t.confirmedClose) rfl notQueued]
  exact s.takeConfirmation_records t m

/-! ## Settlement (R115) -/

theorem State.postCharges_records (l : List Charge) (s : State) : (s.postCharges l).records
    = (s.count, s.auth.mode, s.acc.reserved - l.length, s.arb.queue, s.table, s.acc.journal.length + l.length) := by
  have posted (a : Accounts) : (l.foldl (Accounts.post s.toll.clock.stamp) a).reserved = a.reserved - l.length
      ∧ (l.foldl (Accounts.post s.toll.clock.stamp) a).journal.length = a.journal.length + l.length := by
    induction l generalizing a with
    | nil => exact ⟨rfl, rfl⟩
    | cons c rest ih =>
      obtain ⟨reserved, journal⟩ := ih (a.post s.toll.clock.stamp c)
      simp only [List.foldl_cons, reserved, journal, List.length_cons]
      simp only [Accounts.post, Accounts.unreserve, Accounts.append, Accounts.credit, Accounts.update_reserved,
        Accounts.update_journal, List.length_append, List.length_singleton]
      omega
  have compared (b : Accounts) (n : List Nat) (x : State) : (State.compareStatus b n x).records = x.records :=
    x.raiseAll_records _
  obtain ⟨reserved, journal⟩ := posted s.acc
  rw [State.postCharges, compared]
  simp only [State.records, reserved, journal]
  rfl

theorem State.postCharges_reg (l : List Charge) (s : State) : (s.postCharges l).reg = s.reg :=
  State.raiseAll_reg _ _

theorem State.exitVessels_records (t : Transit) (s : State) : (s.exitVessels t).records = s.records :=
  State.each_records _ _ (fun _ x => x.setVessel_records _ _) s

theorem State.freeVessels_records (l : List Mark) (s : State) : (s.freeVessels l).records = s.records :=
  State.each_records _ _ (fun m x => x.freeVessel_records m) s

theorem State.resolveCharges_records (start : Nat) (l : List Mark) (s : State) :
    (s.resolveCharges start l).records = s.records :=
  State.each_records _ _ (fun m x => by split <;> simp) s

theorem State.each_reg {α : Type} (l : List α) (f : α → State → State) (h : ∀ x s, (f x s).reg = s.reg) (s : State) :
    (s.each l f).reg = s.reg := by
  induction l generalizing s with
  | nil => rfl
  | cons x rest ih => exact (ih (f x s)).trans (h x s)

theorem State.resolveCharges_reg (start : Nat) (l : List Mark) (s : State) : (s.resolveCharges start l).reg = s.reg :=
  State.each_reg _ _ (fun m x => by split <;> simp) s

/-- The water record with its anomaly flag, and then the state SETTLED, are one change of the record. -/
def Transit.settledWith (water : Water) (t : Transit) : Transit := { t with water := water, state := .settled }

theorem State.settleWith_records (t : Transit) (r : Settlement) (s : State) : (s.settleWith t r).records
    = (s.count, s.auth.mode, s.acc.reserved - r.charges.length, s.arb.queue,
      s.table.map (fun x => if x.id = t.id then x.settledWith { t.water with anomaly := r.anomaly } else x),
      s.acc.journal.length + r.charges.length) := by
  have flagged (b : Bool) (n : Notice) (u : State) : (u.when b (State.raise n)).records = u.records := by
    cases b <;> rfl
  simp only [State.settleWith, State.calling_records, State.raise_records]
  have chain : ∀ u : State, ((((((u.exitVessels t).postCharges r.charges).uncommitBerths t.berths).freeVessels
      t.marks).resolveCharges s.acc.journal.length t.marks)).records = (u.count, u.auth.mode,
        u.acc.reserved - r.charges.length, u.arb.queue, u.table, u.acc.journal.length + r.charges.length) := by
    intro u
    rw [State.resolveCharges_records, State.freeVessels_records, State.uncommitBerths_records, State.postCharges_records]
    have kept := u.exitVessels_records t
    simp only [State.records, Prod.mk.injEq] at kept ⊢
    obtain ⟨count, mode, reserved, queue, table, journal⟩ := kept
    simp [count, mode, reserved, queue, table, journal]
  have kept := flagged r.anomaly (.volumeAnomaly t.id t.water.predicted t.water.measured r.bound r.volume)
    (s.setTransit t.id (fun x => { x with water := { t.water with anomaly := r.anomaly } }))
  have after := chain ((s.setTransit t.id (fun x => { x with water := { t.water with anomaly := r.anomaly } })).when
    r.anomaly (State.raise (.volumeAnomaly t.id t.water.predicted t.water.measured r.bound r.volume)))
  simp only [State.records, Prod.mk.injEq] at kept after ⊢
  obtain ⟨count, mode, reserved, queue, table, journal⟩ := kept
  obtain ⟨count', mode', reserved', queue', table', journal'⟩ := after
  refine ⟨count'.trans count, mode'.trans mode, reserved'.trans (congrArg (· - _) reserved), queue'.trans queue, ?_,
    journal'.trans (congrArg (· + _) journal)⟩
  refine (congrArg (List.map _) (table'.trans table)).trans ?_
  exact map_set_map_set fun _ => rfl

theorem State.settleWith_calledBut (t : Transit) (r : Settlement) (s : State) :
    CalledBut t.marks s.reg.entries (s.settleWith t r).reg.entries := by
  simp only [State.settleWith, State.calling_reg, State.raise_reg, State.setTransit_reg, State.resolveCharges_reg]
  generalize hu : ((s.setTransit t.id (fun x => { x with water := { t.water with anomaly := r.anomaly } })).when
    r.anomaly (State.raise (.volumeAnomaly t.id t.water.predicted t.water.measured r.bound r.volume))) = u
  have reg : u.reg = s.reg := by
    rw [← hu, State.when]
    split <;> rfl
  have freed := State.freeVessels_calledBut t.marks (((u.exitVessels t).postCharges r.charges).uncommitBerths t.berths)
  simp only [State.uncommitBerths, State.pushAll_reg, State.lowerCommitments_reg, State.postCharges_reg] at freed
  have both := (u.exitVessels_calledBut t).append freed
  rw [reg] at both
  intro v hv id e hs
  obtain ⟨old, hm⟩ := both v hv id e hs
  exact ⟨old, fun h => hm (List.mem_append_left _ h)⟩

/-- A settlement forms at most one charge for a berth. -/
theorem State.settlement_charges_length (s : State) (t : Transit) :
    (s.settlement t).charges.length ≤ t.berths.length := by
  unfold State.settlement
  refine (List.length_filterMap_le _ _).trans ?_
  rw [List.length_zip]
  exact min_le_left _ _

/-- The CLEAR that settles a transit leaves a legal table, its charges in the places reserved for its berths. -/
theorem State.cleared_books {s : State} {t : Transit} {m : Move} (legal : s.transitsLegal) (ht : t ∈ s.table)
    (hm : t.move = some m) (leaving : m.kind = .exit) (phase : m.phase ≠ .close) :
    s.books ((s.takeConfirmation t m).settleWith t (s.settlement t)) := by
  have old := State.legalTable legal
  have apart := old.perm (perm_cons_othersIn old.ids ht)
  obtain ⟨notQueued, shape⟩ := Transit.shaped_moving (old.shaped t ht) hm
  rcases shape with ⟨kind, -⟩ | ⟨kind, -⟩ | ⟨-, ⟨c, held, bounds⟩, ⟨moving, -⟩ | ⟨-, closing⟩⟩
  · simp [leaving] at kind
  · simp [leaving] at kind
  · refine State.books_replaced (r := (s.settlement t).charges.length) (k := (s.settlement t).charges.length) legal ht
      (fun x => x.confirmedClose.settledWith { t.water with anomaly := (s.settlement t).anomaly }) ?_ le_rfl rfl ?_
      (by simp [Transit.settledWith]) apart.held_nodup (fun c hc => apart.held_apart hc)
      (fun held x hx hxh => old.dirs x (mem_othersIn.1 hx).1 t ht hxh held) ?_ ?_
    · rw [State.queueAfter_of_not_queued (u := t.confirmedClose.settledWith _) legal ht rfl notQueued]
      have settled := (s.takeConfirmation t m).settleWith_records t (s.settlement t)
      have taken := s.takeConfirmation_records t m
      simp only [State.records, Prod.mk.injEq] at settled taken ⊢
      obtain ⟨count, mode, reserved, queue, table, journal⟩ := settled
      obtain ⟨count', mode', reserved', queue', table', journal'⟩ := taken
      refine ⟨count.trans count', mode.trans mode', by rw [reserved, reserved'], queue.trans queue', ?_,
        by rw [journal, journal']⟩
      rw [table, table', map_set_map_set]
      exact fun _ => rfl
    · simp [Transit.shaped, Transit.settledWith, Transit.confirmedClose, hm, held, leaving, bounds]
    · intro v hv id e hs
      have but := (s.takeConfirmation t m).settleWith_calledBut t (s.settlement t)
      rw [State.takeConfirmation_reg] at but
      obtain ⟨hold, hid⟩ := State.not_called_of_but legal ht but v hv id e hs
      exact ⟨hold, fun h => absurd h hid⟩
    · simpa [Transit.settledWith, moving] using s.settlement_charges_length t
  · exact absurd closing phase

end Sys2Proof.Machine
end

