-- ==== Sys2Proof/Proofs/TransitCreation.lean ====
section
/-! SUPPORT. The creation of a transit (05 R91, R92), the passes of a calling event (05 R84), and all the work that follows in an event: a legal table stays legal, and the journal's places suffice. -/

namespace Sys2Proof.Machine

/-! ## A fresh transit id (R91) -/

/-- The id i places after an id of 1 to 255, wrapping from 255 to 1. -/
def idAfter (m i : Nat) : Nat := (m - 1 + i) % 255 + 1

theorem idAfter_zero {m : Nat} (h : 1 ≤ m ∧ m ≤ 255) : idAfter m 0 = m := by
  unfold idAfter
  omega

theorem idAfter_succ (m i : Nat) : (if idAfter m i < 255 then idAfter m i + 1 else 1) = idAfter m (i + 1) := by
  unfold idAfter
  split <;> omega

/-- The search for an id ends at one that is not in use, or every id that it passed is in use. -/
theorem State.nextId_idAfter (s : State) (m fuel i : Nat) :
    s.transit (s.nextId fuel (idAfter m i)) = none ∨ ∀ j, j < fuel → (s.transit (idAfter m (i + 1 + j))).isSome = true := by
  induction fuel generalizing i with
  | zero => exact .inr fun j hj => absurd hj (Nat.not_lt_zero j)
  | succ fuel ih =>
    simp only [State.nextId, idAfter_succ]
    split
    · next used =>
      refine (ih (i + 1)).imp_right fun rest j hj => ?_
      cases j with
      | zero => exact used
      | succ j =>
        have := rest j (Nat.lt_of_succ_lt_succ hj)
        rwa [show i + 1 + 1 + j = i + 1 + (j + 1) by omega] at this
    · next free => exact .inl (by simpa using free)

/-- A table of at most 7 records leaves one of the nine ids tried free. -/
theorem State.transit_nextId {s : State} (short : s.table.length ≤ 7) (n : Nat) :
    s.transit (s.nextId 9 n) = none := by
  have bounds : 1 ≤ (if n < 255 then n + 1 else 1) ∧ (if n < 255 then n + 1 else 1) ≤ 255 := by split <;> omega
  simp only [State.nextId.eq_2 s n 8]
  generalize (if n < 255 then n + 1 else 1) = m at bounds
  split
  · have tried := s.nextId_idAfter m 8 0
    rw [idAfter_zero bounds] at tried
    refine tried.resolve_right fun used => ?_
    have nodup : ((List.range 8).map (fun j => idAfter m (1 + j))).Nodup := by
      refine List.Nodup.map_on (fun i hi j hj h => ?_) List.nodup_range
      rw [List.mem_range] at hi hj
      unfold idAfter at h
      omega
    have sub : (List.range 8).map (fun j => idAfter m (1 + j)) ⊆ s.table.map Transit.id := by
      intro id hid
      obtain ⟨j, hj, rfl⟩ := List.mem_map.1 hid
      obtain ⟨t, ht⟩ := Option.isSome_iff_exists.1 (used j (List.mem_range.1 hj))
      obtain ⟨mem, same⟩ := State.mem_of_transit ht
      exact List.mem_map.2 ⟨t, mem, by simpa using same⟩
    have := (nodup.subperm sub).length_le
    simp only [List.length_map, List.length_range] at this
    omega
  · next free => simpa using free

/-! ## The creation of a transit (R92) -/

theorem State.callVessel_entries {id e : Nat} {v : Vessel} {s : State} {w : Vessel}
    (hw : w ∈ (s.callVessel id v e).reg.entries) :
    w ∈ s.reg.entries ∨ (w.mark = v.mark ∧ ∀ i x, w.state = .called i x → i = id) := by
  obtain ⟨u, hu, rfl⟩ := List.mem_map.1 hw
  rw [State.dequeue, State.setQueue_entries] at hu
  by_cases hm : u.mark = v.mark
  · rw [if_pos hm]
    exact .inr ⟨hm, fun i x h => by cases h; rfl⟩
  · rw [if_neg hm]
    exact .inl hu

theorem State.callVessels_entries (id : Nat) (l : List (Vessel × Nat)) (s : State) {w : Vessel}
    (hw : w ∈ (s.each l (fun b => State.callVessel id b.1 b.2)).reg.entries) :
    w ∈ s.reg.entries ∨ ((∃ b ∈ l, b.1.mark = w.mark) ∧ ∀ i x, w.state = .called i x → i = id) := by
  induction l generalizing s with
  | nil => exact .inl hw
  | cons b rest ih =>
    rcases ih _ hw with old | ⟨⟨c, hc, hm⟩, his⟩
    · rcases State.callVessel_entries old with older | ⟨hm, his⟩
      · exact .inl older
      · exact .inr ⟨⟨b, .head _, hm.symm⟩, his⟩
    · exact .inr ⟨⟨c, .tail _ hc, hm⟩, his⟩

theorem Accounts.commits_kept (l : List (Vessel × Nat)) (a : Accounts) :
    (l.foldl (fun (a : Accounts) (b : Vessel × Nat) => a.commit b.1.account b.2) a).reserved = a.reserved
      ∧ (l.foldl (fun (a : Accounts) (b : Vessel × Nat) => a.commit b.1.account b.2) a).journal = a.journal := by
  induction l generalizing a with
  | nil => exact ⟨rfl, rfl⟩
  | cons b rest ih => exact ⟨(ih _).1.trans (a.update_reserved _ _), (ih _).2.trans (a.update_journal _ _)⟩

theorem State.createTransit_books {s : State} {d : Direction} {o : Origin} {l : List (Vessel × Nat)}
    (count : s.countLegal) (legal : s.transitsLegal) (mode : s.auth.mode ≠ .config)
    (room : s.arb.queue.length < Config.transitQueueSize) (places : s.places + l.length ≤ 128) :
    s.books (s.createTransit d o l) := by
  have old := State.legalTable legal
  have short : s.table.length ≤ 7 := old.length_le.trans (by have := State.count_pos count; omega)
  have fresh : ∀ u ∈ s.table, u.id ≠ s.nextId 9 s.arb.lastId := fun u hu => by
    have := List.find?_eq_none.1 (State.transit_nextId short s.arb.lastId) u hu
    simpa using this
  unfold State.createTransit
  refine State.books.ledger ?_ (State.newHead_ledger _ _)
  generalize s.nextId 9 s.arb.lastId = id at fresh
  have kept := State.each_records l (fun b => State.callVessel id b.1 b.2)
    (fun b x => by simp [State.callVessel]) { s with table := s.table ++ [s.newTransit id d o l] }
  have entries := fun w => State.callVessels_entries (w := w) id l { s with table := s.table ++ [s.newTransit id d o l] }
  simp only
  generalize State.each l (fun b => State.callVessel id b.1 b.2) { s with table := s.table ++ [s.newTransit id d o l] } = u
    at kept entries
  simp only [State.records, Prod.mk.injEq] at kept
  obtain ⟨count', mode', reserved, queue, table, journal⟩ := kept
  obtain ⟨reserved', journal'⟩ := Accounts.commits_kept l u.acc
  have covered : (s.newTransit id d o l).berths.length + unsettledBerthsOf s.table ≤ s.acc.reserved + l.length := by
    have := old.covered
    simp only [State.newTransit, List.length_map]
    omega
  refine State.books_of_legalTable (queue := s.arb.queue ++ [id]) (table := s.newTransit id d o l :: s.table) count' mode'
    ?_ ?_ ?_ ?_
  · exact congrArg (· ++ [id]) queue
  · exact (List.Perm.of_eq table).trans List.perm_append_comm
  · simp only [State.places] at places ⊢
    refine le_max_of_le_left (le_trans (le_of_eq ?_) places)
    refine (congrArg₂ (· + ·) (congrArg List.length journal') (congrArg (· + l.length) reserved')).trans ?_
    rw [reserved, journal, Nat.add_assoc]
  · have reserved'' : s.acc.reserved + l.length
        = ((l.foldl (fun (a : Accounts) (b : Vessel × Nat) => a.commit b.1.account b.2) u.acc).reserve l.length).reserved :=
      (congrArg (· + l.length) (reserved'.trans reserved)).symm
    refine old.add (t := s.newTransit id d o l) fresh rfl trivial rfl room mode ?_ (covered.trans_eq reserved'')
    intro w hw i e hs
    rcases entries w hw with older | ⟨⟨b, hb, hm⟩, his⟩
    · exact .inl older
    · exact .inr ⟨his i e hs, _, List.mem_map.2 ⟨b, hb, rfl⟩, hm⟩

/-! ## Passes and calling events (R83, R84) -/

theorem State.scan_length (s : State) (capacity : Nat) (l : List Vessel) (c : Composition)
    (h : c.berths.length ≤ capacity) : (s.scan capacity l c).berths.length ≤ capacity := by
  induction l generalizing c with
  | nil => exact h
  | cons v rest ih =>
    simp only [State.scan]
    split
    · exact h
    · next room =>
      refine ih _ ?_
      unfold State.scanOne
      split
      · exact h
      · split
        · simp only [List.length_append, List.length_singleton]
          omega
        · exact h

/-- Vessels passed over for fit keep their marks and states. -/
theorem State.skips_books {s : State} (legal : s.transitsLegal) (limit : Nat) (l : List Mark) :
    s.books (s.each l (fun m => State.setVessel m (skipVessel limit))) := by
  have old := State.legalTable legal
  have kept : (s.each l (fun m => State.setVessel m (skipVessel limit))).records = s.records
      ∧ ∀ v ∈ (s.each l (fun m => State.setVessel m (skipVessel limit))).reg.entries,
          ∃ w ∈ s.reg.entries, w.mark = v.mark ∧ w.state = v.state := by
    clear old legal
    induction l generalizing s with
    | nil => exact ⟨rfl, fun v hv => ⟨v, hv, rfl, rfl⟩⟩
    | cons m rest ih =>
      obtain ⟨records, entries⟩ := ih (s := s.setVessel m (skipVessel limit))
      refine ⟨records.trans (s.setVessel_records m _), fun v hv => ?_⟩
      obtain ⟨w, hw, hm, hs⟩ := entries v hv
      obtain ⟨x, hx, rfl⟩ := List.mem_map.1 hw
      refine ⟨x, hx, ?_⟩
      split at hm
      · next h =>
        rw [if_pos h] at hs
        exact ⟨hm, hs⟩
      · next h =>
        rw [if_neg h] at hs
        exact ⟨hm, hs⟩
  generalize s.each l (fun m => State.setVessel m (skipVessel limit)) = u at kept
  obtain ⟨records, entries⟩ := kept
  simp only [State.records, Prod.mk.injEq] at records
  obtain ⟨count, mode, reserved, queue, table, journal⟩ := records
  refine State.books_of_legalTable count mode queue (.of_eq table) ?_
    (old.weaken old.config (fun v hv _ _ _ => entries v hv) reserved.ge)
  simp only [State.places, reserved, journal]
  exact le_max_right _ _

theorem State.capacity_le {s : State} {n : Nat} (h : n ≤ s.capacity) (some : s.capacity ≠ 0) : s.places + n ≤ 128 := by
  simp only [State.capacity, Accounts.margin, Accounts.free, Config.journalDepth, State.places] at *
  omega

theorem State.compose_length {s : State} (d : Direction) (v : Vessel) (h : s.capacity ≠ 0) :
    (s.compose d v).berths.length ≤ s.capacity :=
  State.scan_length _ _ _ _ (Nat.one_le_iff_ne_zero.2 h)

theorem State.callFrom_books {s : State} {d : Direction} {v : Vessel} (count : s.countLegal) (legal : s.transitsLegal)
    (mode : s.auth.mode ≠ .config) (room : s.arb.queue.length < Config.transitQueueSize) (capacity : s.capacity ≠ 0) :
    s.books (s.callFrom d v) := by
  have skipped := State.skips_books legal s.timing.skipLimit (s.compose d v).skipped
  have records := State.each_records (s.compose d v).skipped
    (fun m => State.setVessel m (skipVessel s.timing.skipLimit)) (fun m x => x.setVessel_records m _) s
  have outer := State.each_outer (s.compose d v).skipped
    (fun m => State.setVessel m (skipVessel s.timing.skipLimit)) (fun m x => x.setVessel_outer m _) s
  have places := State.capacity_le (State.compose_length d v capacity) capacity
  simp only [State.callFrom]
  generalize s.each (s.compose d v).skipped (fun m => State.setVessel m (skipVessel s.timing.skipLimit)) = u
    at skipped records outer
  have flight : u.flight = s.flight := congrArg Outer.flight outer
  simp only [State.records, Prod.mk.injEq] at records
  obtain ⟨-, mode', reserved, queue, -, journal⟩ := records
  have made : u.books (u.createTransit d .call (s.compose d v).berths) := State.createTransit_books
    (by rw [State.countLegal, flight]; exact count) skipped.1 (mode' ▸ mode) (queue ▸ room)
    (by rw [State.places, reserved, journal]; exact places)
  refine (skipped.trans made).ledger ?_
  simp only [State.ledger, Arbiter.remember]
  split <;> rfl

/-- The passes of a calling event, each in a transit queue with room and with a berth capacity (R84). -/
theorem State.passes_books {s : State} (fuel : Nat) (count : s.countLegal) (legal : s.transitsLegal)
    (mode : s.auth.mode ≠ .config) : s.books (s.passes fuel) := by
  induction fuel generalizing s with
  | zero => exact .refl legal
  | succ fuel ih =>
    unfold State.passes
    split
    · exact State.books_of_ledger rfl legal
    · next room =>
      split
      · exact State.books_of_ledger rfl legal
      · next capacity =>
        split
        · exact State.books_of_ledger rfl legal
        · next d _ =>
          split
          · exact State.books_of_ledger rfl legal
          · next v _ =>
            have called := State.callFrom_books (d := d) (v := v) count legal mode (Nat.not_le.1 room) capacity
            have outer := s.callFrom_outer d v
            have flight : (s.callFrom d v).flight = s.flight := congrArg Outer.flight outer
            have auth : (s.callFrom d v).auth = s.auth := congrArg Outer.auth outer
            exact called.trans (ih (by rw [State.countLegal, flight]; exact count) called.1 (auth ▸ mode))

theorem State.takeCalling_books {s : State} (count : s.countLegal) (legal : s.transitsLegal) :
    s.books s.takeCalling := by
  unfold State.takeCalling
  split
  · exact State.books_of_ledger rfl legal
  · split
    · exact State.books_of_ledger rfl legal
    · next service =>
      refine State.passes_books 5 count legal ?_
      simp only [State.inService, Bool.not_eq_true', Bool.not_eq_false, decide_eq_true_eq] at service
      simp [service]

/-! ## What follows in an event -/

theorem State.take_books {s : State} (count : s.countLegal) (legal : s.transitsLegal) (t : Task) :
    s.books (s.take t) := by
  cases t with
  | equalTrue k => exact State.books_of_ledger (State.ledger_of_besidePcu (s.takeEqual_besidePcu k)) legal
  | examine k => exact State.books_of_ledger (State.ledger_of_besidePcu (s.examine_besidePcu k)) legal
  | passageChanged k => exact State.books_of_ledger (State.ledger_of_besidePcu (s.takePassageChanged_besidePcu k)) legal
  | arbitrate l => exact State.books_of_ledger (State.ledger_of_besidePcu (State.arbitrate_besidePcu _ _ _)) legal
  | report r => exact State.books_of_ledger (State.takeReport_ledger legal) legal
  | slotFree k => exact State.books_of_ledger (s.takeSlotFree_ledger k) legal
  | request id k p => exact State.books_of_ledger (s.takeRequestOp_ledger id k p) legal
  | gateEnd k => exact State.takeGateEnd_books legal k
  | examineHead => exact State.takeExamineHead_books count legal
  | examineNext id => exact State.takeExamineNext_books legal id
  | released c => exact State.books_of_ledger (s.takeReleased_ledger c) legal
  | accountEvent n => exact State.books_of_ledger (s.takeAccountEvent_ledger n) legal

theorem State.drain_books {s : State} (fuel : Nat) (count : s.countLegal) (legal : s.transitsLegal) :
    s.books (s.drain fuel) := by
  induction fuel generalizing s with
  | zero => exact .refl legal
  | succ fuel ih =>
    unfold State.drain
    split
    · next t rest _ =>
      have taken : s.books (State.take t { s with agenda := rest }) :=
        State.take_books (s := { s with agenda := rest }) count legal t
      have flight : (State.take t { s with agenda := rest }).flight = s.flight :=
        congrArg Outer.flight (State.take_outer t { s with agenda := rest })
      exact taken.trans (ih (by rw [State.countLegal, flight]; exact count) taken.1)
    · split
      · have taken : s.books (State.takeCalling { s with callDue := false }) :=
          State.takeCalling_books (s := { s with callDue := false }) count legal
        have flight : (State.takeCalling { s with callDue := false }).flight = s.flight :=
          congrArg Outer.flight (State.takeCalling_outer { s with callDue := false })
        exact taken.trans (ih (by rw [State.countLegal, flight]; exact count) taken.1)
      · exact .refl legal

/-- All the work that follows in an event keeps the table legal and within the journal's places. -/
theorem State.settle_books {s : State} (count : s.countLegal) (legal : s.transitsLegal) : s.books s.settle := by
  refine (State.drain_books drainFuel count legal).ledger ?_
  unfold State.settle State.reformIdle State.when
  split <;> rfl

/-- A change that is booked, with all the work that follows it. -/
theorem State.books.settle {s t : State} (h : s.books t) (count : t.countLegal) : s.books t.settle :=
  h.trans (State.settle_books count h.1)

/-! ## The Toll Accounts in the work that follows -/

theorem State.each_acc {α : Type} (l : List α) (f : α → State → State) (h : ∀ x s, (f x s).acc = s.acc) (s : State) :
    (s.each l f).acc = s.acc := by
  induction l generalizing s with
  | nil => rfl
  | cons x rest ih => exact (ih (f x s)).trans (h x s)

theorem State.when_acc {c : Bool} {f : State → State} {s : State} (h : (f s).acc = s.acc) :
    (s.when c f).acc = s.acc := by
  unfold State.when
  split
  · exact h
  · rfl

theorem State.leaveQueue_acc (id : Nat) (c : EmptyCause) (s : State) : (s.leaveQueue id c).acc = s.acc :=
  (State.calling_acc _).trans (State.when_acc rfl)

theorem State.enterEqualise_acc (id : Nat) (m : Move) (s : State) : (s.enterEqualise id m).acc = s.acc :=
  State.when_acc rfl

theorem State.requestCascade_acc (id : Nat) (d : Direction) (l : List Nat) (s : State) :
    (s.requestCascade id d l).acc = s.acc := by
  unfold State.requestCascade
  split
  · rfl
  · exact State.when_acc rfl

theorem State.formCascade_acc (id : Nat) (d : Direction) (m : Move) (s : State) : (s.formCascade id d m).acc = s.acc := by
  unfold State.formCascade
  split
  · rfl
  · exact State.requestCascade_acc _ _ _ _

theorem State.takeExamineHead_acc (s : State) : s.takeExamineHead.acc = s.acc := by
  unfold State.takeExamineHead
  split
  · rfl
  · split
    · refine (State.when_acc rfl).trans ((State.enterEqualise_acc _ _ _).trans ?_)
      exact (State.raiseAll_acc _ _).trans (State.leaveQueue_acc _ _ s)
    · rfl

theorem State.takeExamineNext_acc (id : Nat) (s : State) : (s.takeExamineNext id).acc = s.acc := by
  unfold State.takeExamineNext
  split
  · split
    · split
      · simp only [State.goOn]
        split
        · split
          · rfl
          · exact State.formCascade_acc _ _ _ _
        · exact State.enterEqualise_acc _ _ _
        · rfl
      · rfl
    · rfl
  · rfl

theorem State.takeReleased_acc (c : Nat) (s : State) : (s.takeReleased c).acc = s.acc :=
  State.when_acc (State.each_acc _ _ (fun _ _ => State.formCascade_acc _ _ _ _) _)

theorem State.takeRequestOp_acc (id k : Nat) (p : Purpose) (s : State) : (s.takeRequestOp id k p).acc = s.acc := by
  unfold State.takeRequestOp
  repeat' split
  · exact (State.acc_of_besidePcu (State.createOp_besidePcu _ _ _ _ _)).trans rfl
  all_goals rfl

theorem State.enterOpen_acc (id : Nat) (m : Move) (s : State) : (s.enterOpen id m).acc = s.acc :=
  (State.acc_of_besidePcu (State.orderOpen_besidePcu _ _ _)).trans rfl

theorem State.reportMove_acc (r : Report) (t : Transit) (m : Move) (s : State) : (s.reportMove r t m).acc = s.acc := by
  unfold State.reportMove State.cascadeOn State.cascadeBack
  repeat' split
  · exact State.enterOpen_acc _ _ _
  · rfl
  · rfl
  · exact State.enterEqualise_acc _ _ _
  · exact State.requestCascade_acc _ _ _ _
  · rfl
  · rfl
  · exact State.requestCascade_acc _ _ _ _
  · rfl
  · rfl
  · exact State.requestCascade_acc _ _ _ _
  · rfl

theorem State.takeReport_acc (r : Report) (s : State) : (s.takeReport r).acc = s.acc := by
  unfold State.takeReport
  repeat' split
  · exact State.reportMove_acc _ _ _ _
  all_goals rfl

theorem State.takeGateEnd_acc (k : Nat) (s : State) : (s.takeGateEnd k).acc = s.acc := by
  have reported (t : Transit) (m : Move) : (s.reportClosed t.id m.passage).acc = s.acc :=
    State.acc_of_besidePcu (s.reportClosed_besidePcu t.id m.passage)
  unfold State.takeGateEnd
  split
  · rfl
  · next t m _ =>
    split
    · split <;> rfl
    · unfold State.gateClosed State.moveClosed
      split
      · split <;> exact reported t m
      · exact reported t m
      · exact reported t m
      · rfl
      · rfl
    all_goals rfl

/-- No task changes the Toll Accounts. -/
theorem State.take_acc (t : Task) (s : State) : (s.take t).acc = s.acc := by
  cases t with
  | equalTrue k => exact State.acc_of_besidePcu (s.takeEqual_besidePcu k)
  | examine k => exact State.acc_of_besidePcu (s.examine_besidePcu k)
  | passageChanged k => exact State.acc_of_besidePcu (s.takePassageChanged_besidePcu k)
  | arbitrate l => exact State.acc_of_besidePcu (State.arbitrate_besidePcu _ _ _)
  | report r => exact s.takeReport_acc r
  | slotFree k => exact State.when_acc rfl
  | request id k p => exact s.takeRequestOp_acc id k p
  | gateEnd k => exact s.takeGateEnd_acc k
  | examineHead => exact s.takeExamineHead_acc
  | examineNext id => exact s.takeExamineNext_acc id
  | released c => exact s.takeReleased_acc c
  | accountEvent n => exact State.when_acc rfl

/-- A transit created takes one place of the journal for each berth (R92). -/
theorem State.createTransit_places (d : Direction) (o : Origin) (l : List (Vessel × Nat)) (s : State) :
    (s.createTransit d o l).places = s.places + l.length := by
  unfold State.createTransit
  have kept := State.each_acc l (fun b => State.callVessel (s.nextId 9 s.arb.lastId) b.1 b.2)
    (fun b x => by cases hd : b.1.dir <;> simp [State.callVessel, State.dequeue, State.setQueue, hd])
    { s with table := s.table ++ [s.newTransit (s.nextId 9 s.arb.lastId) d o l] }
  have head (b : Option Nat) (u : State) : (u.newHead b).acc = u.acc := State.when_acc rfl
  obtain ⟨reserved, journal⟩ := Accounts.commits_kept l s.acc
  simp only [State.places, head, State.raise_acc, kept, Accounts.reserve, reserved, journal]
  omega

theorem State.callFrom_places {s : State} (d : Direction) (v : Vessel) (capacity : s.capacity ≠ 0) :
    (s.callFrom d v).places ≤ 128 := by
  have skipped := State.each_acc (s.compose d v).skipped
    (fun m => State.setVessel m (skipVessel s.timing.skipLimit)) (fun m x => x.setVessel_acc m _) s
  have room := State.capacity_le (State.compose_length d v capacity) capacity
  refine le_trans (le_of_eq ?_) room
  refine (State.createTransit_places _ _ _ _).trans ?_
  simp only [State.places, skipped]

theorem State.passes_places (fuel : Nat) (s : State) : (s.passes fuel).places ≤ max 128 s.places := by
  induction fuel generalizing s with
  | zero => exact le_max_right _ _
  | succ fuel ih =>
    unfold State.passes
    split
    · exact le_max_right _ _
    · split
      · exact le_max_right _ _
      · next capacity =>
        split
        · exact le_max_right _ _
        · next d _ =>
          split
          · exact le_max_right _ _
          · next v _ =>
            have := State.callFrom_places d v capacity
            have := ih (s.callFrom d v)
            omega

theorem State.drain_places (fuel : Nat) (s : State) : (s.drain fuel).places ≤ max 128 s.places := by
  induction fuel generalizing s with
  | zero => exact le_max_right _ _
  | succ fuel ih =>
    unfold State.drain
    split
    · next t rest _ =>
      have kept : (State.take t { s with agenda := rest }).places = s.places := by
        simp only [State.places, State.take_acc]
      exact kept ▸ ih _
    · split
      · have called : (State.takeCalling { s with callDue := false }).places ≤ max 128 s.places := by
          unfold State.takeCalling
          split
          · exact le_max_right _ _
          · split
            · exact le_max_right _ _
            · exact State.passes_places 5 { s with callDue := false }
        have := ih (State.takeCalling { s with callDue := false })
        omega
      · exact le_max_right _ _

/-- The work that follows in an event takes no more places of the journal than it has, whatever stands in the table. -/
theorem State.settle_places (s : State) : s.settle.places ≤ max 128 s.places := by
  have formed : s.settle.acc = (s.drain drainFuel).acc := State.when_acc (f := State.raise _) rfl
  rw [State.places, formed]
  exact s.drain_places drainFuel

end Sys2Proof.Machine
end

