-- ==== Sys2Proof/Proofs/TransitRules.lean ====
section
/-! SUPPORT. Changes of mode, requests, field events and resets: each leaves a legal table and keeps the journal's places. Settles O3. -/

namespace Sys2Proof.Machine

/-! ## Changes of mode -/

theorem State.books_of_mode {s u : State} {m : Mode} (legal : s.transitsLegal)
    (h : u.ledger = { s.ledger with mode := m }) (config : m = .config → s.table = []) : s.books u := by
  have old := State.legalTable legal
  have count : u.count = s.count := congrArg Ledger.count h
  have mode : u.auth.mode = m := congrArg Ledger.mode h
  have reserved : u.acc.reserved = s.acc.reserved := congrArg Ledger.reserved h
  have queue : u.arb.queue = s.arb.queue := congrArg Ledger.queue h
  have entries : u.reg.entries = s.reg.entries := congrArg Ledger.entries h
  have keys : u.table.map Transit.key = s.table.map Transit.key := congrArg Ledger.keys h
  have journal : u.acc.journal.length = s.acc.journal.length := congrArg Ledger.entered h
  refine ⟨?_, by rw [State.places, journal, reserved]; exact le_max_right _ _⟩
  rw [State.transitsLegal_iff, count, mode, reserved, queue, entries]
  exact (old.weaken config (fun v hv _ _ _ => ⟨v, hv, rfl, rfl⟩) le_rfl).of_keys keys

theorem State.blockNotService_ledger (s : State) : s.blockNotService.ledger = s.ledger := by
  unfold State.blockNotService
  split <;> rfl

theorem State.enterSafeHold_ledger (c : HoldCause) (s : State) :
    (s.enterSafeHold c).ledger = { s.ledger with mode := .safeHold } := by
  unfold State.enterSafeHold
  split
  · next mode => simp only [State.ledger, mode]
  · unfold State.holdBlocks
    rw [State.raise_ledger, State.deriveAspects_ledger, State.blockNotService_ledger, State.seqHold_ledger,
      State.ledger_of_besidePcu (State.pcuHold_besidePcu _)]
    rfl

theorem State.enterSafeHold_books {s : State} (legal : s.transitsLegal) (c : HoldCause) : s.books (s.enterSafeHold c) :=
  State.books_of_mode legal (s.enterSafeHold_ledger c) (by simp)

theorem State.enterConfigMode_books {s : State} (legal : s.transitsLegal) (empty : s.table = []) :
    s.books s.enterConfigMode := by
  refine State.books_of_mode (m := .config) legal ?_ fun _ => empty
  unfold State.enterConfigMode
  rw [State.raise_ledger, State.deriveAspects_ledger, State.blockNotService_ledger]
  rfl

theorem State.enterService_books {s : State} (legal : s.transitsLegal) (c : ModeCause) : s.books (s.enterService c) := by
  have mode : s.books (s.setMode .service none) := State.books_of_mode (m := .service) legal rfl (by simp)
  have resumed : s.books ((s.setMode .service none).pcuResume) :=
    mode.ledger (State.ledger_of_besidePcu (State.pcuResume_besidePcu _))
  unfold State.enterService
  refine resumed.ledger ?_
  rw [State.raise_ledger, State.deriveAspects_ledger, State.calling_ledger, State.seqResume_ledger resumed.1]

/-! ## The records of a part with no transits -/

/-- A state with no transits and none called is legal. -/
theorem State.transitsLegal_of_empty {s : State} (table : s.table = []) (queue : s.arb.queue = [])
    (free : ∀ v ∈ s.reg.entries, ∀ id estimate, v.state ≠ .called id estimate) : s.transitsLegal := by
  rw [State.transitsLegal_iff, table, queue]
  exact legalTable_nil free

theorem State.countLegal_of_flightBar {s : State} {f : FlightFields} (h : s.flightBar f = none) : 1 ≤ f.n ∧ f.n ≤ 3 := by
  unfold State.flightBar at h
  split at h
  · cases h
  · split at h
    · cases h
    · cases h
    · cases h
    · next range _ _ =>
      unfold flightRangeBar at range
      split at range
      · cases range
      · next inside =>
        simp only [within, Bool.not_eq_true', Bool.not_eq_false, Bool.and_eq_true, decide_eq_true_eq] at inside
        exact inside

/-- SET_FLIGHT changes none of the records of the transits, the accounts and the queue, and calls no vessel. -/
theorem State.applyFlight_rest (f : FlightFields) (s : State) :
    (s.applyFlight f).table = s.table ∧ (s.applyFlight f).arb = s.arb ∧ (s.applyFlight f).acc = s.acc
      ∧ ∀ v ∈ (s.applyFlight f).reg.entries, ∀ id e, v.state = .called id e → v ∈ s.reg.entries := by
  have renumbered : ∃ u : State, u.table = s.table ∧ u.arb = s.arb ∧ u.acc = s.acc ∧ u.reg = s.reg
      ∧ s.applyFlight f = State.reexamine s (State.regauge s u) := by
    refine ⟨_, ?_, ?_, ?_, ?_, rfl⟩
    all_goals
      simp only [State.when]
      split
      · simp only [State.renumber, State.reformHeads, State.when]
        split <;> rfl
      · rfl
  obtain ⟨u, table, arb, acc, reg, applied⟩ := renumbered
  have withdrawn (l : List Vessel) (x : State) : (x.each l (State.withdrawWaiting .gauge)).table = x.table
      ∧ (x.each l (State.withdrawWaiting .gauge)).arb = x.arb ∧ (x.each l (State.withdrawWaiting .gauge)).acc = x.acc := by
    induction l generalizing x with
    | nil => exact ⟨rfl, rfl, rfl⟩
    | cons v rest ih =>
      obtain ⟨t, a, c⟩ := ih (x.withdrawWaiting .gauge v)
      have one : (x.withdrawWaiting .gauge v).table = x.table ∧ (x.withdrawWaiting .gauge v).arb = x.arb
          ∧ (x.withdrawWaiting .gauge v).acc = x.acc := by
        cases hd : v.dir <;> simp [State.withdrawWaiting, State.dequeue, State.setQueue, hd, State.freeVessel]
      exact ⟨t.trans one.1, a.trans one.2.1, c.trans one.2.2⟩
  rw [applied]
  simp only [State.reexamine, State.regauge, State.when]
  split
  · obtain ⟨t, a, c⟩ := withdrawn u.outOfGauge u
    have but := State.each_calledBut (f := State.withdrawWaiting .gauge) (mark := fun v => [v.mark])
      (fun v x => x.withdrawWaiting_calledBut .gauge v) u.outOfGauge u
    exact ⟨t.trans table, a.trans arb, c.trans acc, fun v hv id e hs => reg ▸ (but v hv id e hs).1⟩
  · exact ⟨table, arb, acc, fun v hv id e hs => by rw [← reg]; exact hv⟩

theorem State.applyFlight_books {s : State} {f : FlightFields} (legal : s.transitsLegal)
    (passed : s.flightBar f = none) : s.books (s.applyFlight f) := by
  have old := State.legalTable legal
  obtain ⟨table, arb, acc, entries⟩ := s.applyFlight_rest f
  have empty := old.config (State.mode_of_flightBar passed)
  have none_called : ∀ v ∈ s.reg.entries, ∀ id e, v.state ≠ .called id e := fun v hv id e hs => by
    obtain ⟨t, ht, -⟩ := old.called v hv id e hs
    simp [empty] at ht
  have no_queue : s.arb.queue = [] := List.eq_nil_iff_forall_not_mem.2 fun id hid => by
    obtain ⟨t, ht, -⟩ := (old.queueExact id).1 hid
    simp [empty] at ht
  refine ⟨State.transitsLegal_of_empty (table.trans empty) (by rw [arb, no_queue]) fun v hv id e hs =>
    none_called v (entries v hv id e hs) id e hs, ?_⟩
  rw [State.places, acc]
  exact le_max_right _ _

/-! ## Requests -/

/-- A change of the register alone that calls no vessel. -/
theorem State.books_of_uncalled {s u : State} (legal : s.transitsLegal) (records : u.records = s.records)
    (entries : ∀ v ∈ u.reg.entries, ∀ id e, v.state = .called id e → v ∈ s.reg.entries) : s.books u := by
  have old := State.legalTable legal
  simp only [State.records, Prod.mk.injEq] at records
  obtain ⟨count, mode, reserved, queue, table, journal⟩ := records
  refine State.books_of_legalTable count mode queue (.of_eq table) ?_
    (old.weaken old.config (fun v hv id e hs => ⟨v, entries v hv id e hs, rfl, rfl⟩) reserved.ge)
  simp only [State.places, reserved, journal]
  exact le_max_right _ _

theorem State.enterVessel_books {s : State} (legal : s.transitsLegal) {v : Vessel} (waiting : v.state = .waiting) :
    s.books (s.enterVessel v) := by
  refine State.books_of_uncalled legal ?_ fun w hw id e hs => ?_
  · unfold State.enterVessel State.placeAnnounced
    rw [State.setQueue_records]
    rfl
  · rw [State.enterVessel, State.placeAnnounced, State.setQueue_entries, List.mem_append, List.mem_singleton] at hw
    rcases hw with old | rfl
    · exact old
    · simp [waiting] at hs

/-- A change of accounts that keeps the journal no longer and the reservation as it stands. -/
theorem State.books_of_acc {s : State} {a : Accounts} (legal : s.transitsLegal) (reserved : a.reserved = s.acc.reserved)
    (places : a.journal.length + a.reserved ≤ max 128 s.places) : s.books { s with acc := a } := by
  refine ⟨?_, places⟩
  have old := State.legalTable legal
  rw [← reserved] at old
  exact (State.transitsLegal_iff _).2 old

theorem State.books_of_acc_kept {s : State} {a : Accounts} (legal : s.transitsLegal)
    (reserved : a.reserved = s.acc.reserved) (journal : a.journal = s.acc.journal) : s.books { s with acc := a } :=
  State.books_of_acc legal reserved (by rw [journal, reserved]; exact le_max_right _ _)

theorem State.changeAccount_books {s : State} (legal : s.transitsLegal) (n : Nat) (f : Account → Account) :
    s.books (s.changeAccount n f) :=
  (State.books_of_acc_kept legal (s.acc.update_reserved n f) (s.acc.update_journal n f)).ledger (State.raiseAll_ledger _ _)

theorem State.postPayment_books {s : State} (legal : s.transitsLegal) {n amount : Nat}
    (passed : s.paymentBar n amount = none) : s.books (s.postPayment n amount) := by
  have room : s.places + 1 ≤ 128 := by
    have margin : ¬ s.acc.margin < 1 := fun h => by
      unfold State.paymentBar at passed
      repeat' split at passed
      all_goals simp_all
    simp only [Accounts.margin, Accounts.free, Config.journalDepth, State.places] at *
    omega
  have posted : ((s.acc.credit n amount).append (.payment n amount) s.toll.clock.stamp).reserved = s.acc.reserved :=
    s.acc.update_reserved n _
  have journal : ((s.acc.credit n amount).append (.payment n amount) s.toll.clock.stamp).journal.length
      = s.acc.journal.length + 1 := by
    simp [Accounts.append, Accounts.credit]
  refine (State.books_of_acc legal posted ?_).ledger ((State.push_ledger _ _).trans (State.raiseAll_ledger _ _))
  rw [journal, posted]
  simp only [State.places] at room ⊢
  omega

theorem State.resolveOrphans_books {s : State} (legal : s.transitsLegal) : s.books s.resolveOrphans := by
  refine State.books_of_uncalled legal (State.each_records _ _ (fun m x => x.resolveQuote_records m _) s) ?_
  rw [State.resolveOrphans, State.each_reg _ _ (fun m x => x.resolveQuote_reg m _) s]
  exact fun v hv _ _ _ => hv

theorem State.countLegal_of_core {s t : State} (h : t.core = s.core) (count : s.countLegal) : t.countLegal := by
  rw [State.countLegal, State.flight_of_core h]
  exact count

/-- A request leaves a chamber count that it has tested. -/
theorem Recasts.countLegal {st : Station} {s t : State} {r : Request} (h : Recasts st s r t.core) (count : s.countLegal) :
    t.countLegal := by
  have flight : t.flight = t.core.flight := rfl
  rw [State.countLegal, flight]
  generalize t.core = c at h
  cases h with
  | flightSet f lm passed =>
    intro n hn
    obtain rfl : f.n = n := Option.some.inj hn
    exact State.countLegal_of_flightBar passed
  | _ => exact count

/-- What a request's block leaves: the places of the journal suffice, and with a legal chamber count the table is legal. -/
def State.prepares (s t : State) : Prop := t.places ≤ max 128 s.places ∧ (s.countLegal → s.books t)

theorem State.books.prepares {s t : State} (h : s.books t) : s.prepares t := ⟨h.2, fun _ => h⟩

/-- A block's work with what follows it. -/
theorem State.prepares.settle {s t : State} (h : s.prepares t) (count : s.countLegal → t.countLegal) :
    s.prepares t.settle :=
  ⟨t.settle_places.trans (max_le (le_max_left _ _) h.1), fun c => (h.2 c).settle (count c)⟩

theorem Serves.prepares {st : Station} {s t : State} {r : Request} (h : Serves st s r t)
    (legal : s.transitsLegal) : s.prepares t := by
  have cored {u : State} (hu : s.books u) (core : u.core = s.core) : s.prepares u.settle :=
    hu.prepares.settle (State.countLegal_of_core core)
  have settled {u : State} (hu : s.books u) (outer : u.outer = s.outer) : s.prepares u.settle :=
    cored hu (State.core_of_outer outer)
  have pcu {u : State} (hu : u.besidePcu = s.besidePcu) (outer : u.outer = s.outer) : s.prepares u.settle :=
    settled (State.books_of_ledger (State.ledger_of_besidePcu hu) legal) outer
  have flown {u : State} (hu : s.books u) (flight : u.flight = s.flight) : s.prepares u.settle :=
    hu.prepares.settle fun count => by rw [State.countLegal, flight]; exact count
  have kept {u : State} (hu : u.ledger = s.ledger) : s.prepares u := (State.books_of_ledger hu legal).prepares
  cases h with
  | unchanged | lostCleared | subscribed => exact kept rfl
  | announced mark dir p v n waiting =>
    exact cored ((State.enterVessel_books legal waiting).ledger rfl) (by simp [State.core_of_outer (State.calling_outer _)])
  | amended mark p m v b n waiting =>
    have set_ : s.books (s.setVessel m (fun _ => v)) := State.books_of_uncalled legal rfl
      fun w hw id e hs => (State.setVessel_calledBut (f := fun _ => v) (by simp [waiting]) w hw id e hs).1
    exact settled (set_.ledger (by cases b <;> rfl)) (by cases b <;> simp)
  | withdrawn mark v =>
    exact (State.books_of_uncalled legal (s.withdrawWaiting_records _ v)
      fun w hw id e hs => (s.withdrawWaiting_calledBut _ v w hw id e hs).1).prepares
  | berthDropped mark v t id e found called known queued =>
    obtain ⟨ht, rfl⟩ := State.mem_of_transit known
    exact cored (State.withdrawCalled_books legal ht queued (List.mem_of_find?_eq_some found) called) (by simp)
  | autoSwitched on b =>
    exact settled (State.books_of_ledger (by cases b <;> rfl) legal) (s.switchAuto_outer b)
  | overflowed => exact kept rfl
  | planned dir d marks passed room =>
    have bars : s.planFormBar marks = none ∧ s.planRoomBar marks = none := by
      simp only [State.planBar, Option.or_eq_none_iff] at passed
      exact ⟨passed.1, passed.2.2⟩
    have mode : s.auth.mode ≠ .config := fun h => by simp [State.planFormBar, h] at bars
    have some_ : marks ≠ [] := fun h => by
      subst h
      simp [State.planFormBar, mode, planMarksOk] at bars
    have capacity : marks.length ≤ s.capacity := by
      by_contra h
      have := bars.2
      simp only [State.planRoomBar, Nat.not_le.1 h, if_true] at this
      split at this <;> cases this
    have fewer : (s.planBerths marks).length ≤ marks.length := by
      rw [State.planBerths, List.length_map]
      exact List.length_filterMap_le _ _
    have places := State.capacity_le (n := (s.planBerths marks).length) (fewer.trans capacity)
      (by have := List.length_pos_iff.2 some_; omega)
    have made : s.prepares (s.createTransit d .plan (s.planBerths marks)) :=
      ⟨by rw [State.createTransit_places]; exact le_max_of_le_left places,
        fun count => State.createTransit_books count legal mode room places⟩
    exact made.settle (State.countLegal_of_core (State.core_of_outer (s.createTransit_outer _ _ _)))
  | queuedCancelled id t known queued =>
    exact settled (State.cancelQueued_books legal (State.mem_of_transit known).1 queued) (s.cancelQueued_outer t)
  | entryCancelled id t m known entry =>
    refine settled (State.cancelEntry_books legal (State.mem_of_transit known).1 ?_) (s.cancelEntry_outer t m)
    unfold Transit.inEntry at entry
    split at entry
    · assumption
    · cases entry
  | confirmed id kind t m known current awaits passing =>
    exact settled (State.takeConfirmation_books legal (State.mem_of_transit known).1 current passing)
      (s.takeConfirmation_outer t m)
  | cleared id kind t m known current awaits leaving =>
    refine flown (State.cleared_books legal (State.mem_of_transit known).1 current leaving (by simp [awaits])) ?_
    have core := State.settleWith_core t (s.settlement t) (s.takeConfirmation t m)
    rw [State.core_of_outer (s.takeConfirmation_outer t m)] at core
    exact congrArg Outer.flight core
  | abandoned id t known held =>
    exact cored (State.abandonTransit_books legal (State.mem_of_transit known).1 held) (by simp)
  | retried k => exact pcu (s.returnToWaiting_besidePcu k) (by simp)
  | gateOpened k => exact pcu (s.commandOpen_besidePcu true k) (by simp)
  | gateClosed k => exact pcu (s.commandClose_besidePcu true k) (by simp)
  | gateStopped k => exact pcu (s.stopGate_besidePcu k) (by simp)
  | sluiceShut k p => exact pcu (s.manualShut_besidePcu k) (by simp)
  | sluiceRaised k p => exact pcu (s.manualRaise_besidePcu k p) (by simp)
  | permitted k a x => exact pcu (s.visualEqual_besidePcu k x) (by simp)
  | stopped => exact flown (State.enterSafeHold_books legal _) (State.enterSafeHold_flight _ _)
  | resumed =>
    exact flown (State.enterService_books legal _) (congrArg Outer.flight (s.enterService_core .resumeService) : _)
  | left => exact flown (State.enterService_books legal _) (congrArg Outer.flight (s.enterService_core .leaveConfig) : _)
  | configured passed =>
    exact flown (State.enterConfigMode_books legal (State.configBar_eq_none.1 passed).2.1)
      (congrArg Outer.flight s.enterConfigMode_core : _)
  | claimed | lodged | released | denied => exact kept rfl
  | flightSet f passed =>
    refine (State.applyFlight_books legal passed).prepares.settle (Recasts.countLegal (st := st) (r := .setFlight f) ?_)
    rw [State.core, State.applyFlight_outer]
    exact .flightSet f _ passed
  | sensorSet f => exact flown (State.books_of_ledger (s := s) rfl legal) rfl
  | timingSet | clockSet | tariffSet => exact kept rfl
  | accountOpened | accountClosed => exact (State.books_of_acc_kept legal rfl rfl).prepares
  | accountHeld r n f => exact (State.changeAccount_books legal n f).prepares
  | accountChanged r n f =>
    exact cored ((State.changeAccount_books legal n f).ledger rfl) (by simp [State.core_of_outer (State.push_outer _ _)])
  | paid n amount passed =>
    exact flown (State.postPayment_books legal passed) (congrArg Outer.flight (s.postPayment_core n amount) : _)
  | taken n =>
    refine flown ((State.books_of_acc (a := s.acc.takeEntries n) legal rfl ?_).ledger rfl) rfl
    simp only [Accounts.takeEntries, List.length_drop, State.places]
    omega
  | orphansResolved m => exact (State.resolveOrphans_books legal).prepares
  | slotSet m n q =>
    exact ((State.resolveOrphans_books legal).trans
      (State.books_of_acc_kept (State.resolveOrphans_books legal).1 rfl rfl)).prepares

/-! ## Field events and timers -/

theorem State.gateFails_books {s u : State} (legal : s.transitsLegal) (h : u.ledger = s.ledger) (k : Nat)
    (c : GateFault) : s.books (u.gateFails k c) := by
  refine State.books_of_mode (m := .safeHold) legal ?_ (by simp)
  rw [State.gateFails, State.enterSafeHold_ledger, State.raise_ledger, State.push_ledger,
    State.ledger_of_besidePcu (State.setGate_besidePcu _ _ _), h]

theorem State.sluiceFails_books {s u : State} (legal : s.transitsLegal) (h : u.ledger = s.ledger) (k : Nat)
    (c : SluiceFault) : s.books (u.sluiceFails k c) := by
  refine State.books_of_mode (m := .safeHold) legal ?_ (by simp)
  rw [State.sluiceFails, State.enterSafeHold_ledger, State.raise_ledger, State.push_ledger,
    State.ledger_of_besidePcu (State.setSluice_besidePcu _ _ _), h]

theorem State.gateMoved_books {s : State} (legal : s.transitsLegal) (k : Nat) (x : GatePosition) :
    s.books (s.gateMoved k x) := by
  have moved : (s.setGate k (fun g => { g with position := x })).ledger = s.ledger :=
    State.ledger_of_besidePcu (s.setGate_besidePcu k _)
  have kept {u : State} (hu : u.besidePcu = (s.setGate k (fun g => { g with position := x })).besidePcu) : s.books u :=
    State.books_of_ledger ((State.ledger_of_besidePcu hu).trans moved) legal
  simp only [State.gateMoved, State.when]
  split
  · split
    · exact kept (State.endTravel_besidePcu _ _)
    · exact kept rfl
  · split
    · exact kept (State.endTravel_besidePcu _ _)
    · exact kept rfl
  · split
    · exact kept (State.gateReached_besidePcu _ _ _)
    · exact kept rfl
  · split
    · exact State.gateFails_books legal moved k _
    · exact kept rfl
  · split
    · exact State.gateFails_books legal moved k _
    · exact kept rfl
  · exact kept rfl

theorem State.feedbackTaken_books {s : State} (legal : s.transitsLegal) (k code : Nat) :
    s.books (s.feedbackTaken k code) := by
  have moved : (s.setSluice k (fun y => { y with position := feedbackPosition code })).ledger = s.ledger :=
    State.ledger_of_besidePcu (s.setSluice_besidePcu k _)
  have kept {u : State} (hu : u.besidePcu
      = (s.setSluice k (fun y => { y with position := feedbackPosition code })).besidePcu) : s.books u :=
    State.books_of_ledger ((State.ledger_of_besidePcu hu).trans moved) legal
  simp only [State.feedbackTaken, State.when]
  split
  · split
    · exact kept (State.finishMove_besidePcu _ _)
    · exact kept rfl
  · exact kept rfl
  · split
    · exact State.sluiceFails_books legal moved k _
    · exact kept rfl
  · split
    · exact State.sluiceFails_books legal moved k _
    · exact kept rfl

/-- The ends of polls leave the ledger alone. -/
theorem State.goodPoll_ledger (p raw : Nat) (s : State) : (s.goodPoll p raw).ledger = s.ledger := by
  simp only [State.goodPoll, State.accumulate, State.when]
  split
  · split <;> rfl
  · split <;> rfl

theorem State.badPoll_ledger (p : Nat) (c : BadPollCause) (s : State) : (s.badPoll p c).ledger = s.ledger := by
  simp only [State.badPoll, State.when]
  split
  · exact State.each_ledger _ State.sensorStall (fun k x => State.ledger_of_besidePcu (x.sensorStall_besidePcu k)) _
  · rfl

theorem State.pollEnded_ledger {result : State → State} (h : ∀ s : State, (result s).ledger = s.ledger) (p : Nat)
    (s : State) : (s.pollEnded p result).ledger = s.ledger := by
  unfold State.pollEnded
  split
  · rfl
  · exact h s

theorem State.takeSilence_books {s : State} (legal : s.transitsLegal) (st : Station) :
    s.books (s.takeSilenceExpiry st) := by
  unfold State.takeSilenceExpiry State.takeSilence State.holderSilent
  split
  · split
    · split
      · exact State.books_of_ledger rfl legal
      · exact State.books_of_mode (m := .safeHold) legal (State.enterSafeHold_ledger _ _) (by simp)
    · exact State.books_of_ledger rfl legal
  · exact .refl legal

theorem FieldWork.books {c : Instr} {f : State → State} (h : FieldWork c f) {s : State} (legal : s.transitsLegal) :
    s.books (f s) := by
  have kept {u : State} (hu : u.ledger = s.ledger) : s.books u := State.books_of_ledger hu legal
  have pcu {u : State} (hu : u.besidePcu = s.besidePcu) : s.books u := kept (State.ledger_of_besidePcu hu)
  cases h with
  | estopAsserted =>
    unfold State.takeEstop
    split
    · exact .refl legal
    · exact State.books_of_mode (m := .safeHold) legal (State.enterSafeHold_ledger _ _) (by simp)
  | estopReleased =>
    unfold State.endEstop
    split <;> exact kept rfl
  | valueReply address raw =>
    unfold State.takeValue
    split
    · split
      · exact kept (State.pollEnded_ledger (fun u => u.goodPoll_ledger _ raw) _ s)
      · exact .refl legal
    · exact .refl legal
  | faultReply address =>
    unfold State.takeFaultReply
    split
    · split
      · exact kept (State.pollEnded_ledger (fun u => u.badPoll_ledger _ _) _ s)
      · exact .refl legal
    · exact .refl legal
  | pollTimeout =>
    unfold State.takePollTimeout
    split
    · split
      · exact kept (State.pollEnded_ledger (fun u => u.badPoll_ledger _ _) _ s)
      · exact .refl legal
    · exact .refl legal
  | limits k a b =>
    unfold State.takeLimits
    split
    · exact State.gateMoved_books legal k _
    · exact .refl legal
  | travelTimeout k =>
    unfold State.takeTravelTimeout State.travelExpired
    repeat' split
    · exact State.gateFails_books legal rfl k _
    · exact pcu (s.setGate_besidePcu k _)
    · exact .refl legal
  | feedback k code =>
    unfold State.takeFeedback
    split
    · exact State.feedbackTaken_books legal k code
    · exact .refl legal
  | moveTimeout k =>
    unfold State.takeMoveTimeout State.moveExpired
    repeat' split
    · exact State.sluiceFails_books legal rfl k _
    · exact pcu (s.setSluice_besidePcu k _)
    · exact .refl legal
  | rampExpiry k =>
    unfold State.takeRampExpiry State.rampExpired State.when
    split
    · split
      · exact pcu ((State.stepUp_besidePcu _ _).trans (s.setSluice_besidePcu k _))
      · exact pcu (s.setSluice_besidePcu k _)
    · exact .refl legal
  | equaliseTimeout k =>
    simp only [State.takeEqualiseTimeout, State.equaliseExpired]
    repeat' split
    · exact .refl legal
    · exact pcu (by simp)
    · exact pcu (s.setOp_besidePcu k _)
    · exact .refl legal
  | agreementExpiry k side =>
    unfold State.takeAgreementExpiry State.agreementExpired State.when
    split
    · split <;> exact kept rfl
    · exact .refl legal
  | silenceExpiry st => exact State.takeSilence_books legal st

/-! ## Resets and steps -/

theorem State.takeOverdue_ledger (id : Nat) (s : State) : (s.takeOverdue id).ledger = s.ledger := by
  unfold State.takeOverdue
  repeat' split
  · rw [State.raise_ledger]
    exact State.setTransit_ledger (f := Transit.stopOverdue) fun _ _ _ => rfl
  all_goals rfl

theorem State.takeDiscard_ledger (n : Nat) (s : State) : (s.takeDiscard n).ledger = s.ledger := by
  unfold State.takeDiscard
  split <;> rfl

theorem State.supplied_books (s : State) : s.supplied.transitsLegal ∧ s.supplied.places ≤ 128 := by
  have legal : s.powerOnBlocks.transitsLegal := State.transitsLegal_of_empty rfl rfl (fun v hv => by cases hv)
  have count : s.powerOnBlocks.countLegal := fun n hn => by cases hn
  have held : s.powerOnBlocks.books ((s.powerOnBlocks).when s.pins.estop (State.enterSafeHold .estop)) := by
    unfold State.when
    split
    · exact State.enterSafeHold_books legal _
    · exact .refl legal
  have flight : ((s.powerOnBlocks).when s.pins.estop (State.enterSafeHold .estop)).flight = s.powerOnBlocks.flight := by
    unfold State.when
    split
    · exact State.enterSafeHold_flight _ _
    · rfl
  exact held.settle (by rw [State.countLegal, flight]; exact count)

theorem State.warmReset_books (s : State) : s.books s.warmReset := by
  have legal : s.warmBlocks.transitsLegal := State.transitsLegal_of_empty rfl rfl (fun v hv => by cases hv)
  have reset : s.books s.warmBlocks := by
    refine ⟨legal, ?_⟩
    have places : s.warmBlocks.places = s.acc.journal.length + 0 := rfl
    rw [places]
    simp only [State.places]
    omega
  exact reset.ledger (State.raiseAll_ledger _ s.warmBlocks)

/-- Every command keeps the journal's places, and with a legal chamber count the table legal. -/
theorem Leaves.prepares {s t : State} {c : Instr} (h : Leaves s c t) (legal : s.transitsLegal) : s.prepares t := by
  have kept {u : State} (hu : u.ledger = s.ledger) : s.prepares u := (State.books_of_ledger hu legal).prepares
  cases h with
  | supplied =>
    exact ⟨s.supplied_books.2.trans (le_max_left _ _), fun _ => ⟨s.supplied_books.1, s.supplied_books.2.trans (le_max_left _ _)⟩⟩
  | resetEnds => exact (State.warmReset_books { s with pins := { s.pins with reset := false } }).prepares
  | restarted => exact s.warmReset_books.prepares
  | worked c f x work =>
    have legal' : State.transitsLegal { s with pins := x } := legal
    have worked : s.books (f { s with pins := x }) := work.books legal'
    have flight : (f { s with pins := x }).flight = s.flight := (work.sameConfig _).1
    exact worked.prepares.settle fun count => by rw [State.countLegal, flight]; exact count
  | overdue id => exact kept (s.takeOverdue_ledger id)
  | handedOver =>
    refine kept ?_
    unfold State.takeHandover
    split <;> rfl
  | served c h r a p t asked right same block =>
    have served : State.prepares { s with ports := p } t := block.prepares legal
    exact ⟨served.1, fun count => (served.2 count).ledger rfl⟩
  | discarded n => exact kept (s.takeDiscard_ledger n)
  | ported | pumped | resetHeld | recorded | ticked | lit | second => exact kept rfl

theorem State.countDown_books {s : State} (legal : s.transitsLegal) : s.books s.countDown := by
  refine State.books_of_ledger ?_ legal
  unfold State.countDown
  split
  · rfl
  · have keys : (s.table.map Transit.countDown).map Transit.key = s.table.map Transit.key := by
      rw [List.map_map]
      refine List.map_congr_left fun t _ => ?_
      rw [Function.comp_apply, Transit.countDown]
      split <;> rfl
    simp only [State.ledger, keys]
    rfl

/-- A step keeps the journal's places, and with a legal chamber count the table legal. -/
theorem step_prepares {s t : State} (legal : s.transitsLegal) (h : step s = .next t) : s.prepares t := by
  rcases step_leaves h with ⟨c, rest, left⟩ | rfl
  · exact Leaves.prepares (s := { s with pending := rest }) left legal
  · exact (State.countDown_books legal).prepares

/-- Settles O3: no block writes the queue of commands; each change of a record, of the queue or of the register keeps the rules of the table; and the rules bound the queued records by the queue and the others by the chambers. -/
theorem commandQueueKept : Obligations.CommandQueueKept := by
  refine ⟨fun c s t h => (exec_leaves h).pending, fun s t count legal h => ((step_prepares legal h).2 count).1,
    fun s count legal => ?_⟩
  have := (State.legalTable legal).length_le
  have := State.count_pos count
  omega

theorem State.warmReset_acc (s : State) : s.warmReset.acc = s.acc.warm := State.raiseAll_acc _ _

/-! ## The numbering of the journal (R158) -/

theorem numberedFrom_append {n : Nat} {l : List JournalEntry} {e : JournalEntry} (h : numberedFrom n l)
    (seq : e.seq = (n + l.length) % 65536) (bound : n < 65536) : numberedFrom n (l ++ [e]) := by
  induction l generalizing n with
  | nil => exact ⟨by rw [seq, List.length_nil, Nat.add_zero, Nat.mod_eq_of_lt bound], trivial⟩
  | cons x rest ih =>
    refine ⟨h.1, ih h.2 ?_ (Nat.mod_lt _ (by decide))⟩
    rw [seq, List.length_cons]
    omega

theorem numberedFrom_drop {n k : Nat} {l : List JournalEntry} (h : numberedFrom n l) (bound : n < 65536)
    (short : k ≤ l.length) : numberedFrom ((n + k) % 65536) (l.drop k) := by
  induction k generalizing n l with
  | zero => rwa [Nat.add_zero, Nat.mod_eq_of_lt bound, List.drop_zero]
  | succ k ih =>
    cases l with
    | nil => simp at short
    | cons x rest =>
      have rested := ih (n := (n + 1) % 65536) h.2 (Nat.mod_lt _ (by decide)) (Nat.le_of_succ_le_succ short)
      rwa [show ((n + 1) % 65536 + k) % 65536 = (n + (k + 1)) % 65536 by omega] at rested

theorem Accounts.sequenced_append {a : Accounts} (h : a.sequenced) (kind : EntryKind) (stamp : Stamp) :
    (a.append kind stamp).sequenced := by
  obtain ⟨next, n, bound, numbered, reached⟩ := h
  refine ⟨Nat.mod_lt _ (by decide), n, bound, numberedFrom_append numbered reached bound, ?_⟩
  simp only [Accounts.append, List.length_append, List.length_singleton, reached]
  omega

/-- Taking entries from the front leaves the rest numbered (R160). -/
theorem Accounts.sequenced_take {a : Accounts} (h : a.sequenced) (k : Nat) : (a.takeEntries k).sequenced := by
  obtain ⟨next, n, bound, numbered, reached⟩ := h
  by_cases short : k ≤ a.journal.length
  · refine ⟨next, (n + k) % 65536, Nat.mod_lt _ (by decide), numberedFrom_drop numbered bound short, ?_⟩
    simp only [Accounts.takeEntries, List.length_drop, reached]
    omega
  · have all : a.journal.drop k = [] := List.drop_eq_nil_iff.2 (Nat.le_of_not_le short)
    refine ⟨next, a.nextSeq, next, ?_, ?_⟩
    · simp only [Accounts.takeEntries, all, numberedFrom]
    · simp only [Accounts.takeEntries, all, List.length_nil, Nat.add_zero]
      exact (Nat.mod_eq_of_lt next).symm

theorem Accounts.sequenced_of_eq {a b : Accounts} (h : a.sequenced) (journal : b.journal = a.journal)
    (next : b.nextSeq = a.nextSeq) : b.sequenced := by
  unfold Accounts.sequenced at h ⊢
  rwa [journal, next]

theorem Accounts.sequenced_posts {a : Accounts} (h : a.sequenced) (stamp : Stamp) (l : List Charge) :
    (l.foldl (Accounts.post stamp) a).sequenced := by
  induction l generalizing a with
  | nil => exact h
  | cons c rest ih =>
    have credited : (a.credit c.account (-(c.parts.amount : Int))).sequenced :=
      Accounts.sequenced_of_eq h (a.update_journal _ _) (a.update_nextSeq _ _)
    exact ih (Accounts.sequenced_of_eq (Accounts.sequenced_append credited (.charge c) stamp) rfl rfl)

/-- A request appends to the journal or takes from its front. -/
theorem Serves.sequenced {st : Station} {s t : State} {r : Request} (h : Serves st s r t) (numbered : s.acc.sequenced) :
    t.acc.sequenced := by
  have made := h.recasts
  have journal : t.acc.journal = t.core.journal := rfl
  have next : t.acc.nextSeq = t.core.nextSeq := rfl
  generalize t.core = c at made journal next
  have as {a : Accounts} (ha : a.sequenced) (j : c.journal = a.journal) (n : c.nextSeq = a.nextSeq) : t.acc.sequenced :=
    Accounts.sequenced_of_eq ha (journal.trans j) (next.trans n)
  cases made with
  | charged r l => exact as (Accounts.sequenced_posts numbered s.toll.clock.stamp l) rfl rfl
  | paid r kind stamp => exact as (Accounts.sequenced_append numbered kind stamp) rfl rfl
  | taken r n => exact as (Accounts.sequenced_take numbered n) rfl rfl
  | _ => exact as numbered rfl rfl

theorem FieldWork.acc {c : Instr} {f : State → State} (h : FieldWork c f) (s : State) :
    (f s).acc.journal = s.acc.journal ∧ (f s).acc.nextSeq = s.acc.nextSeq := by
  have made := h.stirs s
  have journal : (f s).acc.journal = (f s).core.journal := rfl
  have next : (f s).acc.nextSeq = (f s).core.nextSeq := rfl
  rw [journal, next]
  generalize (f s).core = o at made
  cases made <;> exact ⟨rfl, rfl⟩

theorem Leaves.sequenced {s t : State} {c : Instr} (h : Leaves s c t) (numbered : s.acc.sequenced) :
    t.acc.sequenced := by
  have kept {u : State} (journal : u.acc.journal = s.acc.journal) (next : u.acc.nextSeq = s.acc.nextSeq) :
      u.acc.sequenced := Accounts.sequenced_of_eq numbered journal next
  cases h with
  | supplied =>
    have empty : s.supplied.acc.journal = [] ∧ s.supplied.acc.nextSeq = 0 := by
      refine ⟨(State.finish_journal _).trans ?_, (State.finish_nextSeq _).trans ?_⟩ <;> unfold State.when <;> split
      · exact State.enterSafeHold_journal _ _
      · rfl
      · exact State.enterSafeHold_nextSeq _ _
      · rfl
    refine ⟨by rw [empty.2]; decide, 0, by decide, ?_, ?_⟩
    · rw [empty.1]
      trivial
    · rw [empty.1, empty.2]
      rfl
  | resetEnds =>
    have acc := State.warmReset_acc { s with pins := { s.pins with reset := false } }
    exact kept ((congrArg Accounts.journal acc).trans rfl) ((congrArg Accounts.nextSeq acc).trans rfl)
  | restarted =>
    exact kept ((congrArg Accounts.journal s.warmReset_acc).trans rfl) ((congrArg Accounts.nextSeq s.warmReset_acc).trans rfl)
  | worked c f x work =>
    obtain ⟨journal, next⟩ := work.acc { s with pins := x }
    exact kept ((State.finish_journal _).trans journal) ((State.finish_nextSeq _).trans next)
  | overdue id =>
    have core := s.takeOverdue_core id
    exact kept (State.journal_of_core (t := s.takeOverdue id) core) (State.nextSeq_of_core (t := s.takeOverdue id) core)
  | handedOver =>
    unfold State.takeHandover
    split <;> exact kept rfl rfl
  | served c h r a p t asked right same block => exact block.sequenced numbered
  | discarded n =>
    have core := s.takeDiscard_core n
    exact kept (State.journal_of_core core) (State.nextSeq_of_core core)
  | ported | pumped | resetHeld | recorded | ticked | lit | second => exact kept rfl rfl

/-- Settles O59: entries are appended with the next number or taken from the front; and the reservation, which the rules of the table keep above the charges of a settlement, gives back a place for each charge posted. -/
theorem journalKeptSequenced : Obligations.JournalKeptSequenced := by
  refine ⟨fun s t numbered h => ?_, fun s t legal fit h => ?_⟩
  · rcases step_leaves h with ⟨c, rest, left⟩ | rfl
    · exact Leaves.sequenced (s := { s with pending := rest }) left numbered
    · refine Accounts.sequenced_of_eq numbered ?_ ?_ <;> unfold State.countDown <;> split <;> rfl
  · exact (step_prepares legal h).1.trans (max_le le_rfl fit)

end Sys2Proof.Machine
end

