-- ==== Sys2Proof/Proofs/Inputs.lean ====
section
/-! SUPPORT. The machine and its inputs: the front of the queue of commands, the lines the part has, a scan tick, and the inputs while RESET is held. Settles O1, O7, O10, O11, O26. -/

namespace Sys2Proof.Machine

/-- Settles O1: a step on a queue with a command at its front is that command's execution, by definition. -/
theorem stepRunsFront : Obligations.StepRunsFront := fun _ _ _ => rfl

/-! ## Events of the field -/

theorem State.event_held {s : State} (f : State → State) (h : s.pins.reset = true) : s.event f = s := if_pos h

theorem State.event_running {s : State} (f : State → State) (h : s.pins.reset = false) : s.event f = (f s).finish :=
  if_neg (by simp [h])

theorem onPassage_of_lt {k : Nat} (h : k < 4) (s : State) : onPassage k s = .next s := if_pos h

theorem onPassage_of_le {k : Nat} (h : 4 ≤ k) (s : State) : onPassage k s = .fault .noSuchLine :=
  if_neg (Nat.not_lt.2 h)

/-- Settles O10: the events of a passage pass one test of its number, the discard timer one of its slot's. -/
theorem stopsOutsideThePart : Obligations.StopsOutsideThePart := by
  intro s k
  refine ⟨fun above => ?_, fun outside => ?_, fun inside => ?_⟩
  · have stops (u : State) : onPassage k u = .fault .noSuchLine := onPassage_of_le above u
    exact ⟨fun _ _ => stops _, stops _, fun _ => stops _, stops _, stops _, stops _, fun _ _ _ => stops _, fun _ => stops _⟩
  · have outside : within 1 4 k = false := by
      simp only [within, Bool.and_eq_false_iff, decide_eq_false_iff_not]
      omega
    exact if_neg (by simp [outside])
  · have taken (u : State) : ∃ t, onPassage k u = .next t := ⟨u, onPassage_of_lt inside u⟩
    have slot : within 1 4 (k + 1) = true := by
      simp only [within, Bool.and_eq_true, decide_eq_true_eq]
      omega
    exact ⟨fun _ _ => taken _, taken _, fun _ => taken _, taken _, taken _, taken _, fun _ _ _ => taken _,
      fun _ => taken _, ⟨_, if_pos slot⟩⟩

/-! ## The scan tick (R2, R3) -/

/-- Settles O11: a tick is taken where RESET is not held and its timer has run out; a round in progress holds it. -/
theorem scanTickStartsRound : Obligations.ScanTickStartsRound := by
  refine ⟨fun s left => ?_, fun s running out => ⟨fun idle => ?_, fun polling => ?_⟩⟩
  · exact congrArg Host.Outcome.next (if_neg fun h => left h.2)
  · refine (congrArg Host.Outcome.next (if_pos ⟨running, out⟩)).trans ?_
    simp [State.takeTick, LevelMonitor.tick, idle, LevelMonitor.send, Config.pollTimeout]
  · obtain ⟨q, hq⟩ := Option.isSome_iff_exists.1 polling
    refine (congrArg Host.Outcome.next (if_pos ⟨running, out⟩)).trans ?_
    simp [State.takeTick, LevelMonitor.tick, hq]

/-! ## Rights (R194) -/

/-- Settles O26: the table of rights by kind and station, and what it admits. -/
theorem rightsOfEachRole : Obligations.RightsOfEachRole := by
  refine ⟨?_, by decide, by decide, by decide, by decide, rfl, rfl, rfl, fun s kind st => ?_⟩
  · intro kind st h
    cases st <;> revert kind <;> decide
  · unfold State.admits
    split
    · next yes => simp [yes]
    · next holder => simp [holder, State.isHolder]
    · next no => simp [no]

/-! ## While RESET is held (R185) -/

section
variable {s t : State} (held : s.pins.reset = true)
include held

theorem takeFrame_of_held (st : Station) (tag kind : Nat) (payload : List Byte) :
    s.takeFrame st tag kind payload = s := by
  unfold State.takeFrame
  rw [if_pos held]
  split
  · rfl
  · split <;> exact s.takeRequest_held _ _ _ held

theorem takeEvent_of_held {f : State → State} {k : Nat} (h : onPassage k (s.event f) = .next t) : t = s := by
  rw [State.event_held f held] at h
  unfold onPassage at h
  split at h
  · cases h
    rfl
  · cases h

/-- While RESET is held a command that is no input and neither POWER_ON, the release nor the day clock's second changes nothing. -/
theorem exec_of_held {c : Instr} (supply : c ≠ .powerOn) (assert : c ≠ .resetAsserted) (release : c ≠ .resetReleased)
    (second : c ≠ .dayClockSecond) (estop : c ≠ .estopAsserted) (estopEnd : c ≠ .estopReleased)
    (limits : ∀ k o x, c ≠ .gateLimitChange k o x) (feedback : ∀ k code, c ≠ .sluiceFeedback k code)
    (lamps : ∀ k side red green, c ≠ .lampIndicationChange k side red green) (h : exec c s = .next t) : t = s := by
  have next {u : State} (hu : u = s) (e : Host.Outcome.next u = (.next t : Host.Outcome State Fault Refusal)) : t = s :=
    (Host.Outcome.next.inj e).symm.trans hu
  have event {f : State → State} (e : Host.Outcome.next (s.event f) = (.next t : Host.Outcome State Fault Refusal)) :
      t = s := next (State.event_held f held) e
  have kept {u : State} (e : Host.Outcome.next (if s.pins.reset then s else u) = (.next t : Host.Outcome State Fault Refusal)) :
      t = s := next (if_pos held) e
  have asked {h : Hdr} {kind : Nat} {block : State → State × Answer}
      (e : Host.Outcome.next (s.takeRequest h kind block) = (.next t : Host.Outcome State Fault Refusal)) : t = s :=
    next (s.takeRequest_held h kind block held) e
  cases c with
  | powerOn => exact absurd rfl supply
  | resetAsserted => exact absurd rfl assert
  | resetReleased => exact absurd rfl release
  | dayClockSecond => exact absurd rfl second
  | estopAsserted => exact absurd rfl estop
  | estopReleased => exact absurd rfl estopEnd
  | gateLimitChange k a b => exact absurd rfl (limits k a b)
  | sluiceFeedback k code => exact absurd rfl (feedback k code)
  | lampIndicationChange k side a b => exact absurd rfl (lamps k side a b)
  | scanTick => exact next (if_neg (by simp [held])) h
  | pollValueReply | pollFaultReply | pollTimeout | silenceExpiry => exact event h
  | gateTravelTimeout | sluiceMoveTimeout | rampTimerExpiry | equaliseTimeout | lampAgreementExpiry =>
    exact takeEvent_of_held held h
  | overdueTimerExpiry | handoverTimerExpiry | frameDiscarded | idleFrame | frameSent | byteReceived => exact kept h
  | quoteDiscardExpiry n =>
    simp only [exec, execQuoteDiscardExpiry] at h
    split at h
    · exact (Host.Outcome.next.inj h).symm
    · cases h
  | gapTimerExpiry => exact next (if_neg (by simp [held])) h
  | busyAnswer => exact next (takeFrame_of_held held _ _ _ _) h
  | _ => exact asked h

/-- While RESET is held a changed input is recorded at its own line. -/
theorem exec_input_of_held {k : Nat} (inside : k < 4) :
    (∀ o c, exec (.gateLimitChange k o c) s = .next { s with
      pins := { s.pins with limits := s.pins.limits.set k { openLimit := o, closedLimit := c } } })
    ∧ (∀ code, exec (.sluiceFeedback k code) s = .next { s with
      pins := { s.pins with feedback := s.pins.feedback.set k code } })
    ∧ (∀ side red green, exec (.lampIndicationChange k side red green) s = .next { s with
      pins := { s.pins with lamps := s.pins.lamps.set k ((s.pins.lamps.get k).setSide side red green) } }) := by
  refine ⟨fun o c => ?_, fun code => ?_, fun side red green => ?_⟩
  · exact (onPassage_of_lt inside _).trans (congrArg _ (State.event_held (s := s.setLimits k _) _ held))
  · exact (onPassage_of_lt inside _).trans (congrArg _ (State.event_held (s := s.setFeedback k code) _ held))
  · exact (onPassage_of_lt inside _).trans (congrArg _ (if_pos held))

end

/-- Settles O7: every command but an input asks first whether RESET is held; an input is recorded before it asks. -/
theorem heldResetTakesNothing : Obligations.HeldResetTakesNothing := by
  refine ⟨fun c s t held supply assert release second h => ?_, fun s held => ⟨?_, ?_, fun k inside => ?_⟩,
    fun c s t held supply assert release second estop estopEnd limits feedback lamps h =>
      exec_of_held held supply assert release second estop estopEnd limits feedback lamps h⟩
  · have recorded {x : Pins} (e : t = { s with pins := x }) : { t with pins := s.pins } = s := by rw [e]
    have onLine {k : Nat} {u : State} {x : Pins} (hu : u = { s with pins := x }) (e : onPassage k u = .next t) :
        { t with pins := s.pins } = s := by
      unfold onPassage at e
      split at e
      · exact recorded ((Host.Outcome.next.inj e).symm.trans hu)
      · cases e
    have event {u : State} (f : State → State) (hu : u.pins.reset = true) : u.event f = u := State.event_held f hu
    cases c with
    | estopAsserted => exact recorded ((Host.Outcome.next.inj h).symm.trans (event (u := s.setEstopPin true) _ held))
    | estopReleased => exact recorded ((Host.Outcome.next.inj h).symm.trans (event (u := s.setEstopPin false) _ held))
    | gateLimitChange k a b => exact onLine (event (u := s.setLimits k _) _ held) h
    | sluiceFeedback k code => exact onLine (event (u := s.setFeedback k code) _ held) h
    | lampIndicationChange k side a b => exact onLine (if_pos held) h
    | _ =>
      have same := exec_of_held held supply assert release second (by simp) (by simp) (by simp) (by simp) (by simp) h
      rw [same]
  · exact congrArg Host.Outcome.next (State.event_held (s := s.setEstopPin true) _ held)
  · exact congrArg Host.Outcome.next (State.event_held (s := s.setEstopPin false) _ held)
  · obtain ⟨limits, feedback, lamps⟩ := exec_input_of_held held inside
    exact ⟨limits, feedback, fun red green => ⟨lamps .above red green, lamps .below red green⟩⟩

end Sys2Proof.Machine
end

