-- ==== Sys2Proof/Proofs/IdleSteps.lean ====
section
/-! SUPPORT. What the part does while no command waits: the first timer that has run out, else a millisecond (log 2, log 7, log 13). Settles O2. -/

namespace Sys2Proof.Machine

/-! ## The timer taken -/

/-- The commands of the timers that have run out, as lists: what stands first is taken. -/
theorem head?_lapsed (t : Timer) (c : Instr) : (if t = some 0 then [c] else []).head? = whenExpired t c := by
  unfold whenExpired expired
  by_cases h : t = some 0 <;> simp [h]

theorem Transit.head?_due (t : Transit) :
    (match t.overdue with
      | .running _ left => if left = 0 then [Instr.overdueTimerExpiry t.id] else []
      | .stopped => []
      | .paused _ _ => []).head? = t.due := by
  unfold Transit.due
  cases t.overdue with
  | running limit left => cases left <;> rfl
  | _ => rfl

theorem QuoteSlot.head?_due (n : Nat) (q : QuoteSlot) :
    (match q with
      | .resolved _ _ left => if left = 0 then [Instr.quoteDiscardExpiry n] else []
      | .free => []
      | .pending _ => []).head? = q.due n := by
  unfold QuoteSlot.due
  cases q with
  | resolved m r left => cases left <;> rfl
  | _ => rfl

/-- 100 bytes of a millisecond's count are one byte sent. -/
theorem Port.head?_sent (st : Station) (p : Port) :
    (match p.line with
      | some f => if (f.bytes st).length * 100 ≤ p.sent then [Instr.frameSent st] else []
      | none => []).head? = if p.lastByteSent st then some (.frameSent st) else none := by
  unfold Port.lastByteSent Port.bytesSent
  cases p.line with
  | none => rfl
  | some f =>
    have whole : (f.bytes st).length * 100 ≤ p.sent ↔ (f.bytes st).length ≤ p.sent / 100 :=
      (Nat.le_div_iff_mul_le (by decide)).symm
    by_cases h : (f.bytes st).length * 100 ≤ p.sent
    · simp [h, whole.1 h]
    · simp [h, mt whole.2 h]

theorem eq_of_whenExpired {t : Timer} {c x : Instr} (h : whenExpired t x = some c) : c = x := by
  unfold whenExpired at h
  split at h
  · exact (Option.some.inj h).symm
  · cases h

/-- A command found in two places in order stands in one of them. -/
theorem found_of_or {a b : Option Instr} {c : Instr} (h : a.or b = some c) : a = some c ∨ b = some c := by
  cases a with
  | none => exact .inr h
  | some x => exact .inl h

/-- Every timer that the part finds run out has an event that it takes. -/
theorem exec_of_due {s : State} {c : Instr} (h : s.due = some c) : ∃ t, exec c s = .next t := by
  have onPassage_ (k : Nat) (hk : k ∈ [0, 1, 2, 3]) (t : State) : ∃ u, onPassage k t = .next u :=
    ⟨t, onPassage_of_lt (by simp only [List.mem_cons, List.not_mem_nil, or_false] at hk; omega) t⟩
  have next (t : State) : ∃ u, (Host.Outcome.next t : Host.Outcome State Fault Refusal) = .next u := ⟨t, rfl⟩
  unfold State.due at h
  split at h
  · exact eq_of_whenExpired h ▸ next _
  rcases found_of_or h with level | h
  · rcases found_of_or level with poll | scan
    · exact eq_of_whenExpired poll ▸ next _
    · exact eq_of_whenExpired scan ▸ next _
  rcases found_of_or h with passage | h
  · obtain ⟨k, hk, found⟩ := List.exists_of_findSome?_eq_some passage
    rcases found_of_or found with gate | found
    · exact eq_of_whenExpired gate ▸ onPassage_ k hk _
    rcases found_of_or found with move | found
    · exact eq_of_whenExpired move ▸ onPassage_ k hk _
    rcases found_of_or found with ramp | equalise
    · exact eq_of_whenExpired ramp ▸ onPassage_ k hk _
    · exact eq_of_whenExpired equalise ▸ onPassage_ k hk _
  rcases found_of_or h with heads | h
  · obtain ⟨k, hk, found⟩ := List.exists_of_findSome?_eq_some heads
    rcases found_of_or found with above | below
    · exact eq_of_whenExpired above ▸ onPassage_ k hk _
    · exact eq_of_whenExpired below ▸ onPassage_ k hk _
  rcases found_of_or h with overdue | h
  · obtain ⟨t, -, found⟩ := List.exists_of_findSome?_eq_some overdue
    unfold Transit.due at found
    split at found <;> cases found
    exact next _
  rcases found_of_or h with discard | h
  · obtain ⟨i, hi, found⟩ := List.exists_of_findSome?_eq_some discard
    have slot : within 1 4 (i + 1) = true := by
      clear found discard
      revert i
      decide
    unfold QuoteSlot.due at found
    split at found <;> cases found
    exact ⟨_, if_pos slot⟩
  rcases found_of_or h with second | h
  · exact eq_of_whenExpired second ▸ next _
  rcases found_of_or h with ports | claim
  · obtain ⟨st, -, found⟩ := List.exists_of_findSome?_eq_some ports
    rcases found_of_or found with timers | sent
    · rcases found_of_or timers with gap | silence
      · exact eq_of_whenExpired gap ▸ next _
      · exact eq_of_whenExpired silence ▸ next _
    · split at sent <;> cases sent
      exact next _
  · exact eq_of_whenExpired claim ▸ next _

/-! ## A millisecond -/

theorem Transit.countDown_eq (t : Transit) : t.countDown = { t with overdue := match t.overdue with
    | .running limit left => .running limit (left - 1)
    | .stopped => .stopped
    | .paused limit left => .paused limit left } := by
  obtain ⟨id, dir, state, origin, held, move, ops, berths, generation, night, callTime, water, overdue⟩ := t
  cases overdue <;> rfl

theorem QuoteSlot.countDown_eq (q : QuoteSlot) : q.countDown = match q with
    | .resolved m r left => .resolved m r (left - 1)
    | .free => .free
    | .pending m => .pending m := by
  cases q <;> rfl

/-- Settles O2: with an empty queue a step takes the first timer that has run out, each of which has an event that is taken, and lets a millisecond pass where none has. -/
theorem idleStepCompletes : Obligations.IdleStepCompletes := by
  refine ⟨fun s empty => ?_, fun s => ?_, fun s => ?_⟩
  · have idle : step s = s.idle := by simp [step, empty]
    have due (c : Instr) (h : s.due = some c) : step s = exec c s := by simp [idle, State.idle, h]
    have none_ (h : s.due = none) : step s = .next s.countDown := by simp [idle, State.idle, h]
    refine ⟨due, none_, ?_⟩
    cases h : s.due with
    | none => exact ⟨_, none_ h⟩
    | some c =>
      obtain ⟨t, ht⟩ := exec_of_due h
      exact ⟨t, (due c h).trans ht⟩
  · intro lapsed sent overdue discard
    have lapsed_ (t : Timer) (c : Instr) : (lapsed t c).head? = whenExpired t c := head?_lapsed t c
    have sent_ (st : Station) : (sent st).head? = if (s.ports.get st).lastByteSent st then some (.frameSent st) else none :=
      Port.head?_sent st _
    have overdue_ (t : Transit) : (overdue t).head? = t.due := t.head?_due
    have discard_ (n : Nat) : (discard n).head? = (s.acc.slots.get (n - 1)).due n := QuoteSlot.head?_due n _
    refine ⟨fun held => ?_, fun running => ?_⟩
    · rw [lapsed_]
      exact if_pos held
    · have unheld : s.due = _ := if_neg (by simp [running])
      rw [unheld]
      simp only [List.head?_append, List.head?_flatMap, lapsed_, sent_, overdue_, discard_]
      simp only [Option.or_assoc, LevelMonitor.due, Port.due]
      rfl
  · intro less toll
    refine ⟨fun held => if_pos held, fun running => (if_neg (by simp [running])).trans ?_⟩
    have transits : s.table.map Transit.countDown = s.table.map (fun t => { t with overdue := match t.overdue with
        | .running limit left => .running limit (left - 1)
        | .stopped => .stopped
        | .paused limit left => .paused limit left }) := List.map_congr_left fun t _ => t.countDown_eq
    have slots : s.acc.slots.map QuoteSlot.countDown = s.acc.slots.map (fun q => match q with
        | .resolved m r left => .resolved m r (left - 1)
        | .free => .free
        | .pending m => .pending m) := congrArg (Quad.map · s.acc.slots) (funext QuoteSlot.countDown_eq)
    rw [transits, slots]
    rfl

end Sys2Proof.Machine
end

