-- ==== Sys2Proof/Proofs/Resets.lean ====
section
/-! SUPPORT. The records at power-on and after a warm reset (02 R50, R51, 03 R60, 09 R185, R187). Settles O4, O5 and O6. -/

namespace Sys2Proof.Machine

/-! ## Passages and heads read from the inputs (R50, R60) -/

theorem Quad.set_get {α : Type} (q : Quad α) (k : Nat) : q.set k (q.get k) = q := by
  rcases k with _ | _ | _ | _ | k <;> rfl

theorem Pcu.fromPins_passage (t : Timing) (x : Pins) (k : Nat) :
    (Pcu.fromPins t x).passages.get k = Passage.fromPins t (x.limits.get k) (x.feedback.get k) := by
  rcases k with _ | _ | _ | k <;> rfl

theorem LimitPins.position_eq (p : LimitPins) :
    p.position = if p = { openLimit := false, closedLimit := true } then .atClosed
      else if p = { openLimit := true, closedLimit := false } then .atOpen else .between := by
  obtain ⟨a, b⟩ := p
  cases a <;> cases b <;> rfl

theorem LimitPins.initialState_eq (p : LimitPins) :
    p.position.initialState = if p = { openLimit := false, closedLimit := true } then .closed
      else if p = { openLimit := true, closedLimit := false } then .opened else .stopped := by
  obtain ⟨a, b⟩ := p
  cases a <;> cases b <;> rfl

/-- A passage read from its inputs has no gate in travel, no order and a free slot. -/
theorem Passage.fromPins_rest (t : Timing) (x : LimitPins) (code : Nat) :
    (Passage.fromPins t x code).gate.state.travelling = false ∧ (Passage.fromPins t x code).gate.pendingOpen = none
      ∧ (Passage.fromPins t x code).slot = none := by
  refine ⟨?_, rfl, rfl⟩
  simp only [Passage.fromPins, Gate.fromPins]
  cases x.position <;> rfl

theorem Head.powerOn_eq (red green : Bool) : Head.powerOn red green =
    { output := .redFlash, red := red, green := green, fault := false, faultCount := 0
      timer := if red = true ∧ green = false then none else some 2000 } := by
  cases red <;> cases green <;> rfl

/-! ## A part at rest -/

/-- A part at rest in CONFIG or SAFE_HOLD: no gate in travel, no order, no operation, every head in use driven RED_FLASH. -/
structure State.quietPart (s : State) : Prop where
  rest : ∀ k, (s.passage k).gate.state.travelling = false ∧ (s.passage k).gate.pendingOpen = none ∧ (s.passage k).slot = none
  all : s.count = 3
  mode : s.auth.mode ≠ .service
  flash : ∀ k side, (s.head k side).output = .redFlash
  empty : s.table = []
  noQueue : s.arb.queue = []
  idle : s.arb.idle = true
  auto : s.arb.reason = .autoOff
  work : s.agenda = [] ∧ s.callDue = false

section
variable {s : State}

theorem State.setGate_same {k : Nat} {f : Gate → Gate} (h : f (s.passage k).gate = (s.passage k).gate) :
    s.setGate k f = s := by
  have same : s.pcu.passages.set k { s.passage k with gate := f (s.passage k).gate } = s.pcu.passages := by
    rw [h]
    exact Quad.set_get _ k
  simp only [State.setGate, State.setPassage]
  exact congrArg (fun q => { s with pcu := { s.pcu with passages := q } }) same

theorem State.holdPassage_rest {k : Nat} (h : (s.passage k).gate.state.travelling = false ∧ (s.passage k).gate.pendingOpen = none
    ∧ (s.passage k).slot = none) : s.holdPassage k = s := by
  obtain ⟨travel, order, slot⟩ := h
  have stopped : s.stopGate k = s := by
    unfold State.stopGate
    rw [if_neg (by simp [travel])]
    refine State.setGate_same ?_
    rw [← order]
  unfold State.holdPassage
  simp only [stopped, slot]

theorem State.pcuHold_rest (h : ∀ k, (s.passage k).gate.state.travelling = false ∧ (s.passage k).gate.pendingOpen = none
    ∧ (s.passage k).slot = none) : s.pcuHold = s := by
  unfold State.pcuHold
  generalize s.passagesInUse = l
  induction l with
  | nil => rfl
  | cons k rest ih =>
    have one := State.holdPassage_rest (h k)
    exact (congrArg (fun x => State.each rest State.holdPassage x) one).trans ih

theorem State.deriveAspects_quiet (h : s.quietPart) : s.deriveAspects = s := by
  have command (k : Nat) (hk : k ≤ 3) : s.commandHeads k = s.lamps.get k := by
    have aspect (side : Side) : s.aspectOf k side = .redFlash := by
      simp [State.aspectOf, State.inUse, h.all, hk, h.mode]
    have above : (s.lamps.get k).above.output = .redFlash := h.flash k .above
    have below : (s.lamps.get k).below.output = .redFlash := h.flash k .below
    simp [State.commandHeads, aspect, Head.command, above, below]
  unfold State.deriveAspects
  rw [command 0 (by decide), command 1 (by decide), command 2 (by decide), command 3 le_rfl]
  rfl

theorem State.finish_quiet (h : s.quietPart) : s.finish = s.pump := by
  have drained : s.drain drainFuel = s := by
    unfold drainFuel State.drain
    simp [h.work]
  have idle : s.idleNow = true := by simp [State.idleNow, h.noQueue, State.anyHolder, h.empty]
  have formed : s.reformIdle = s := by
    have same : s.arb = { s.arb with idle := true } := by rw [← h.idle]
    unfold State.reformIdle
    simp only [idle, h.idle, Bool.not_true, Bool.and_false, State.when, if_false, Bool.false_eq_true]
    exact congrArg (fun a => { s with arb := a }) same.symm
  unfold State.finish State.settle
  rw [drained, State.deriveAspects_quiet h, formed]

end

/-! ## Power-on (R187, R209) -/

/-- Power-on with the mode set leaves a part at rest. -/
theorem State.quietPart_powerOn (s : State) (m : Mode) (c : Option HoldCause) (h : m ≠ .service) :
    (s.powerOnBlocks.setMode m c).quietPart where
  rest := fun k => by
    have read : (s.powerOnBlocks.setMode m c).passage k = Passage.fromPins Timing.powerOn (s.pins.limits.get k)
        (s.pins.feedback.get k) := Pcu.fromPins_passage _ _ _
    rw [read]
    exact Passage.fromPins_rest _ _ _
  all := rfl
  mode := h
  flash := fun k side => by
    have read : (s.powerOnBlocks.setMode m c).lamps.get k = HeadPair.powerOn (s.pins.lamps.get k) := Quad.get_map _ _ _
    rw [State.head, read]
    cases side <;> simp [HeadPair.powerOn, HeadPair.get, Head.powerOn_eq]
  empty := rfl
  noQueue := rfl
  idle := rfl
  auto := rfl
  work := ⟨rfl, rfl⟩

theorem State.quietPart.raise {s : State} (h : s.quietPart) (n : Notice) : (s.raise n).quietPart :=
  ⟨h.rest, h.all, h.mode, h.flash, h.empty, h.noQueue, h.idle, h.auto, h.work⟩

theorem State.supplied_released {s : State} (h : s.pins.estop = false) : s.supplied = s.powerOnBlocks := by
  have quiet : s.powerOnBlocks.quietPart := s.quietPart_powerOn .config none (by decide)
  unfold State.supplied
  rw [h, State.when, if_neg (by decide), State.finish_quiet quiet]
  rfl

/-- SAFE_HOLD entry at rest changes the mode and says so. -/
theorem State.supplied_asserted {s : State} (h : s.pins.estop = true) : s.supplied
    = ((s.powerOnBlocks.setMode .safeHold (some .estop)).raise (.serviceMode .safeHold .config (.hold .estop))).pump := by
  have quiet := s.quietPart_powerOn .safeHold (some .estop) (by decide)
  have entered : s.powerOnBlocks.enterSafeHold .estop
      = (s.powerOnBlocks.setMode .safeHold (some .estop)).raise (.serviceMode .safeHold .config (.hold .estop)) := by
    have outside : s.powerOnBlocks.auth.mode ≠ .safeHold := by simp [State.powerOnBlocks, Authority.powerOn]
    have seq : (s.powerOnBlocks.setMode .safeHold (some .estop)).seqHold = s.powerOnBlocks.setMode .safeHold (some .estop) := rfl
    have reason : (s.powerOnBlocks.setMode .safeHold (some .estop)).blockNotService
        = s.powerOnBlocks.setMode .safeHold (some .estop) := if_pos rfl
    rw [State.enterSafeHold, if_neg outside, State.holdBlocks, State.pcuHold_rest quiet.rest, seq, reason,
      State.deriveAspects_quiet quiet]
    rfl
  unfold State.supplied
  rw [h, State.when, if_pos rfl, entered, State.finish_quiet (quiet.raise _)]

/-- Settles O5: every record is that of power-on or read from an input, and nothing waits, so the end of the event changes none of them; with ESTOP asserted SAFE_HOLD entry finds nothing to hold. -/
theorem powerOnLeaves : Obligations.PowerOnLeaves := by
  refine ⟨fun t x k inside => ?_, fun s => ⟨fun released => ?_, fun asserted => ?_, fun x => ?_⟩⟩
  · intro limits code q
    have read : q = Passage.fromPins t limits code := Pcu.fromPins_passage t x k
    refine ⟨read, ?_, ?_, ?_, ?_, ?_, ?_, ?_, ?_, rfl⟩
    · rw [read]
      simp only [Passage.fromPins, Gate.fromPins, LimitPins.initialState_eq]
      rw [LimitPins.position_eq]
    · rw [read]
      rfl
    · intro low
      rw [read]
      exact if_pos low
    · rw [read]
      exact feedbackPosition_le code
    · rw [read]
      rfl
    · rw [read]
      rfl
    · rw [read]
      rfl
    · intro c
      rcases c with _ | _ | _ | c <;> rfl
  · refine (congrArg Host.Outcome.next (State.supplied_released released)).trans ?_
    have auth : Authority.powerOn s.pins.estop = State.reset.auth := by rw [released]; rfl
    unfold State.powerOnBlocks
    rw [auth]
  · refine ⟨_, congrArg Host.Outcome.next (State.supplied_asserted asserted), ?_⟩
    have auth : ((s.powerOnBlocks.setMode .safeHold (some .estop)).raise
        (.serviceMode .safeHold .config (.hold .estop))).pump.auth
        = { mode := .safeHold, holder := some .console, claim := none, holdCause := some .estop, estop := s.pins.estop } := rfl
    rw [asserted] at auth
    exact ⟨auth, rfl, rfl, rfl, rfl, rfl, rfl, rfl, rfl, rfl, rfl, rfl, rfl, rfl⟩
  · simp only [HeadPair.powerOn, Head.powerOn_eq]

/-- Settles O4: the records of `State.reset` read off, and the rules hold of a part with no transit, no entry and no claim. -/
theorem resetValues : Obligations.ResetValues := by
  have gates (k : Nat) : (State.reset.passage k).gate.state = .closed := by
    rw [show State.reset.passage k = _ from Pcu.fromPins_passage _ _ _]
    rcases k with _ | _ | _ | k <;> rfl
  have slots (k : Nat) : (State.reset.passage k).slot = none := by
    rw [show State.reset.passage k = _ from Pcu.fromPins_passage _ _ _]
    rfl
  have claims (c : Nat) : State.reset.pcu.claims.get c = none := by rcases c with _ | _ | _ | c <;> rfl
  refine ⟨⟨rfl, rfl, rfl, fun p => ?_, rfl, rfl, rfl, rfl, rfl, rfl, rfl, rfl, rfl, rfl, rfl, rfl, rfl, fun n => ?_,
    fun st => ?_, rfl⟩, Authority.legal_powerOn false, fun st => ?_, ?_, fun n hn => ?_, fun k _ both => ?_, ?_, ?_⟩
  · rcases p with _ | _ | _ | _ | p <;> exact ⟨rfl, rfl, rfl, rfl⟩
  · rcases n with _ | _ | _ | n <;> rfl
  · cases st <;> exact ⟨rfl, rfl, rfl, rfl⟩
  · cases st <;> exact Nat.zero_le _
  · exact ⟨by decide, 0, by decide, trivial, rfl⟩
  · cases hn
  · rw [gates] at both
    cases both.1
  · exact State.transitsLegal_of_empty rfl rfl fun v hv => by cases hv
  · intro c k _ _
    simp [claims, slots]

/-! ## The RESET input and the warm reset (R185) -/

theorem Head.command_output (a : Aspect) (h : Head) : (Head.command a h).output = a := by
  unfold Head.command Head.retime
  repeat' split
  · assumption
  all_goals rfl

theorem Head.warm_eq (a : Aspect) (red green : Bool) (h : Head) : (Head.warm a red green h).output = a
    ∧ (Head.warm a red green h).fault = false ∧ (Head.warm a red green h).faultCount = h.faultCount := by
  unfold Head.warm Head.restart Head.retime
  split <;> exact ⟨rfl, rfl, rfl⟩

theorem restartReply_iff (line : Option OutFrame) :
    restartReply line = true ↔ ∃ tag part parts body, line = some (.reply tag 26 .ok part parts body) := by
  unfold restartReply
  split
  · next tag kind status part parts body =>
    simp only [Bool.and_eq_true, decide_eq_true_eq]
    constructor
    · rintro ⟨rfl, rfl⟩
      exact ⟨tag, part, parts, body, rfl⟩
    · rintro ⟨tag', part', parts', body', h⟩
      cases h
      exact ⟨rfl, rfl⟩
  · next other =>
    constructor
    · intro h
      cases h
    · rintro ⟨tag, part, parts, body, h⟩
      exact absurd h (other _ _ _ _ _ _)

/-- Every sensor after a warm reset (R19): GOOD with its record STALE, set afresh where a new N still waited. -/
theorem LevelMonitor.warm_sensor (interval : Nat) (n : Option Nat) (lm : LevelMonitor) (p : Nat) :
    (lm.warm interval n).sensors.get p = { lm.sensors.get p with
      status := .good, badRun := 0, goodRun := 0
      accum := { count := 0, sum := 0, least := none, greatest := none, clamped := false }
      level :=
        if lm.reformDue then
          { mean := 0, min := 0, max := 0, ripple := 0, clamped := false, stale := true, count := 0 }
        else { (lm.sensors.get p).level with stale := true } } := by
  unfold LevelMonitor.warm
  split
  · simp only [LevelMonitor.reform, Quin.get_map]
    rfl
  · simp only [Quin.get_map]
    rfl

theorem LevelMonitor.warm_eq (interval : Nat) (n : Option Nat) (lm : LevelMonitor) :
    lm.warm interval n = { lm with
      sensors := (lm.warm interval n).sensors, still := Quad.all 0, poll := none, scanTimer := some interval
      tickHeld := false, polledN := n, reformDue := false } := by
  unfold LevelMonitor.warm
  split <;> rfl

/-- Settles O6: the drives drop and the heads flash; the warm reset sets each block afresh, keeps what the manual keeps, and raises its two notices into empty queues. -/
theorem resetInput : Obligations.ResetInput := by
  refine ⟨fun s => ⟨s.resetHeld, rfl, rfl, rfl, rfl, fun k => Quad.get_map _ _ k, fun k side inside => ?_⟩,
    fun s => ⟨⟨s.resetEnds, rfl, ?_⟩, fun running line => ?_⟩, fun _ _ => rfl, rfl, rfl, restartReply_iff⟩
  · have read : s.resetHeld.lamps.get k = s.flashHeads k := by
      rcases k with _ | _ | _ | _ | k <;> first | rfl | omega
    rw [State.head, read, State.flashHeads]
    refine ⟨fun use => ?_, fun unused => ?_⟩
    · rw [if_pos use]
      cases side <;> exact Head.command_output _ _
    · rw [if_neg (by simp [unused])]
      rfl
  · have still (k : Nat) : s.resetEnds.lm.still.get k = 0 :=
      (congrArg (fun lm : LevelMonitor => lm.still.get k) (LevelMonitor.warm_eq s.timing.scan s.flight.n s.lm)).trans
        (Quad.get_all 0 k)
    refine ⟨rfl, rfl, rfl, rfl, rfl, rfl, rfl, rfl, rfl, rfl, rfl, rfl, rfl, rfl, rfl, fun n => Quad.get_all _ n, rfl, rfl,
      LevelMonitor.warm_eq _ _ _, fun p => LevelMonitor.warm_sensor _ _ _ p, fun k => ⟨still k, fun pos => ?_⟩,
      fun k side inside => ?_, fun st command => ?_, rfl⟩
    · have count : s.resetEnds.lm.stillCount = s.lm.stillCount :=
        (congrArg LevelMonitor.stillCount (LevelMonitor.warm_eq s.timing.scan s.flight.n s.lm)).trans rfl
      simp only [State.equal, LevelMonitor.equal, still, count, decide_eq_false_iff_not]
      omega
    · have read : s.resetEnds.lamps.get k = s.warmHeads k := by
        rcases k with _ | _ | _ | _ | k <;> first | rfl | omega
      rw [State.head, read]
      cases side <;> exact Head.warm_eq _ _ _ _
    · rcases command with rfl | rfl <;> rfl
  · have same : ({ s with pins := { s.pins with reset := false } } : State) = s := by rw [← running]
    have sent : exec (.frameSent .console) s = .next s.warmReset := by
      refine congrArg Host.Outcome.next ((if_neg (by simp [running])).trans ?_)
      exact if_pos ⟨rfl, line⟩
    rw [sent]
    exact congrArg (fun x => Host.Outcome.next (State.warmReset x)) same.symm

end Sys2Proof.Machine
end

