-- ==== Sys2Proof/Proofs/LampsAndTimers.lean ====
section
/-! SUPPORT. The lamp heads, and the timers of moves, quote slots, the day clock and a claim. Settles O17, O18. -/

namespace Sys2Proof.Machine

/-! ## One head (R53, R56) -/

theorem Head.indicate_eq (red green : Bool) (h : Head) : Head.indicate red green h =
    { h with
        red := red, green := green
        timer := if decide ((red, green) = h.output.expects) = h.fault then some (h.timer.getD 2000) else none } := by
  unfold Head.indicate Head.retime
  split <;> next against => simp_all [Head.agrees, Config.agreementTime]

theorem Head.command_eq (a : Aspect) (h : Head) : Head.command a h =
    if h.output = a then h
    else { h with output := a, timer := if decide ((h.red, h.green) = a.expects) = h.fault then some 2000 else none } := by
  unfold Head.command Head.retime
  split
  · rfl
  · split <;> next against => simp_all [Head.agrees, Config.agreementTime]

/-! ## The heads of the state -/

@[simp] theorem HeadPair.get_set_same (p : HeadPair) (side : Side) (h : Head) : (p.set side h).get side = h := by
  cases side <;> rfl

theorem HeadPair.get_set_other (p : HeadPair) {side other : Side} (h : Head) (apart : other ≠ side) :
    (p.set side h).get other = p.get other := by
  cases side <;> cases other
  case above.below | below.above => rfl
  all_goals exact absurd rfl apart

theorem State.head_setHead_same (s : State) {k : Nat} (side : Side) (f : Head → Head) (inside : k < 4) :
    (s.setHead k side f).head k side = f (s.head k side) := by
  simp only [State.head, State.setHead, Quad.get_set_same _ _ inside, HeadPair.get_set_same]

theorem State.head_setHead_other (s : State) {k j : Nat} {side other : Side} (f : Head → Head) (inside : j < 4)
    (apart : j ≠ k ∨ other ≠ side) : (s.setHead k side f).head j other = s.head j other := by
  unfold State.head State.setHead
  by_cases same : j = k
  · subst same
    simp only [Quad.get_set_same _ _ inside]
    exact HeadPair.get_set_other _ _ (apart.resolve_left fun h => h rfl)
  · simp only [Quad.get_set_other _ _ inside same]

theorem State.head_deriveAspects (s : State) {k : Nat} (side : Side) (inside : k < 4) :
    s.deriveAspects.head k side = Head.command (s.aspectOf k side) (s.head k side) := by
  have cases : k = 0 ∨ k = 1 ∨ k = 2 ∨ k = 3 := by omega
  rcases cases with rfl | rfl | rfl | rfl <;> cases side <;> rfl

/-! ## Which aspect a head shows (R52 to R55) -/

/-- The head of a passage and side is the source head of a move of a transit (R54). -/
def Transit.source (k : Nat) (side : Side) (t : Transit) (m : Move) : Prop :=
  t.move = some m ∧ m.passage = k ∧ side = sourceSide t.dir

theorem State.sourceMove_none {s : State} {k : Nat} {side : Side} (h : ∀ t ∈ s.table, ∀ m, ¬ t.source k side m) :
    s.sourceMove k side = none := by
  refine List.findSome?_eq_none_iff.2 fun t mem => ?_
  cases move : t.move with
  | none => rfl
  | some m => exact if_neg fun here => h t mem m ⟨move, here.1, here.2.symm⟩

theorem State.sourceMove_some {s : State} {k : Nat} {side : Side} {t : Transit} {m : Move} (mem : t ∈ s.table)
    (here : t.source k side m) (one : ∀ u ∈ s.table, ∀ n, u.source k side n → n = m) :
    s.sourceMove k side = some m := by
  cases found : s.sourceMove k side with
  | none =>
    obtain ⟨move, passage, side⟩ := here
    have missed := List.findSome?_eq_none_iff.1 found t mem
    simp [move, passage, side] at missed
  | some n =>
    obtain ⟨u, mu, hu⟩ := List.exists_of_findSome?_eq_some found
    split at hu
    · next n' move =>
      split at hu
      · next place =>
        obtain rfl := Option.some.inj hu
        rw [one u mu _ ⟨move, place.1, place.2.symm⟩]
      · cases hu
    · cases hu

theorem Move.aspect_eq (m : Move) (g : GateState) : m.aspect g =
    if (m.phase = .opened ∨ m.phase = .await) ∧ m.confirmed = false then
      (if g = .opening then .redGreen else if g = .opened then .green else .red)
    else .red := by
  have gate : g.aspect = if g = .opening then .redGreen else if g = .opened then .green else .red := by cases g <;> rfl
  rw [← gate]
  unfold Move.aspect
  cases m.phase <;> cases m.confirmed <;> simp

/-- Settles O17: a head's change, its timer's expiry and its aspect each come down to one operation on one head. -/
theorem lampEvents : Obligations.LampEvents := by
  refine ⟨fun s k side red green running inside => ?_, fun s k side running inside left => ?_,
    fun s k side running inside out => ?_, fun s k side inside => ?_⟩
  · have taken : exec (.lampIndicationChange k side red green) s
        = .next ((s.setLit k side red green).setHead k side (Head.indicate red green)) :=
      (onPassage_of_lt inside _).trans (congrArg _ (if_neg (by simp [State.setLit, running])))
    refine ⟨_, taken, rfl, ?_, fun j other inside' apart => State.head_setHead_other _ _ inside' apart⟩
    exact (State.head_setHead_same _ side _ inside).trans (Head.indicate_eq red green _)
  · refine (onPassage_of_lt inside _).trans (congrArg _ ((State.event_running _ running).trans ?_))
    exact congrArg State.finish (if_neg left)
  · have taken : exec (.lampAgreementExpiry k side) s = .next (s.agreementExpired k side).finish :=
      (onPassage_of_lt inside _).trans
        (congrArg _ ((State.event_running _ running).trans (congrArg State.finish (if_pos out))))
    have setHead (f : Head → Head) (same : Head.toggle (s.head k side) = f (s.head k side)) :
        s.setHead k side Head.toggle = s.setHead k side f :=
      congrArg (fun x => { s with lamps := s.lamps.set k ((s.lamps.get k).set side x) }) same
    refine ⟨fun clear => taken.trans (congrArg Host.Outcome.next ?_),
      fun fault => taken.trans (congrArg Host.Outcome.next ?_)⟩
    · simp only [State.agreementExpired]
      rw [setHead (fun x => { x with fault := true, timer := none, faultCount := min 255 (x.faultCount + 1) })
        (by simp [Head.toggle, clear])]
      simp [Head.toggleNotice, clear, State.when]
    · simp only [State.agreementExpired]
      rw [setHead (fun x => { x with fault := false, timer := none }) (by simp [Head.toggle, fault])]
      have approach : s.approachHead k side = decide ((side = .above ∧ k = 0) ∨ (side = .below ∧ k = s.count)) := by
        cases side <;> simp [State.approachHead]
      simp [Head.toggleNotice, fault, approach]
  · have shows {a : Aspect} (h : s.aspectOf k side = a) :
        s.deriveAspects.head k side = _ := (s.head_deriveAspects side inside).trans ((congrArg (Head.command · _) h).trans
          (Head.command_eq a _))
    refine ⟨fun outside => shows ?_, fun used idle => shows ?_, fun used service => ⟨fun none => shows ?_,
      fun t mem m here one => shows ?_⟩⟩
    · exact if_pos (by simp [State.inUse, outside])
    · exact (if_neg (by simp [State.inUse, used])).trans (if_pos idle)
    · refine (if_neg (by simp [State.inUse, used])).trans ((if_neg (by simp [service])).trans ?_)
      rw [State.sourceMove_none fun t mem m here => none t mem m here]
    · refine (if_neg (by simp [State.inUse, used])).trans ((if_neg (by simp [service])).trans ?_)
      rw [State.sourceMove_some mem here fun u mu n hn => one u mu n hn]
      exact Move.aspect_eq m _

/-! ## Timers -/

theorem DayClock.elapse_eq (c : DayClock) : c.elapse =
    if c.isSet = true ∧ c.second = some 0 then
      { isSet := true
        day := if c.sec < 86399 then c.day else (c.day + 1) % 65536
        sec := if c.sec < 86399 then c.sec + 1 else 0
        second := some 1000 }
    else c := by
  unfold DayClock.elapse DayClock.advance
  split
  · next run => split <;> simp [run.1, Config.second]
  · rfl

/-- Settles O18: each expiry asks first whether its timer has run out. -/
theorem timerEvents : Obligations.TimerEvents := by
  refine ⟨fun s running => ⟨?_, ?_, ?_, ?_⟩, fun s => ⟨?_, ?_⟩, fun s running => ⟨?_, ?_⟩⟩
  · intro id t m limit left found overdue move
    have taken : exec (.overdueTimerExpiry id) s = .next (s.takeOverdue id).pump :=
      congrArg Host.Outcome.next (if_neg (by simp [running]))
    refine ⟨fun out => taken.trans ?_, fun some => taken.trans ?_⟩
    · subst out
      simp only [State.takeOverdue, found, overdue, move]
      rfl
    · obtain ⟨n, rfl⟩ := Nat.exists_eq_succ_of_ne_zero some
      simp only [State.takeOverdue, found, overdue, move]
  · intro n mark result left low high slot
    have taken : exec (.quoteDiscardExpiry n) s = .next (s.takeDiscard n) :=
      (if_pos (by simp [within, low, high])).trans (congrArg Host.Outcome.next (if_neg (by simp [running])))
    refine ⟨fun out => taken.trans ?_, fun some => taken.trans ?_⟩
    · subst out
      simp only [State.takeDiscard, Accounts.slot, slot]
      rfl
    · obtain ⟨m, rfl⟩ := Nat.exists_eq_succ_of_ne_zero some
      simp only [State.takeDiscard, Accounts.slot, slot]
  · intro id stopped
    refine congrArg Host.Outcome.next ((if_neg (by simp [running])).trans (congrArg State.pump ?_))
    unfold State.takeOverdue
    split
    · next t found =>
      split
      · next limit m overdue move => exact absurd overdue (stopped t _ _ found)
      · rfl
    · rfl
  · intro n low high stopped
    refine (if_pos (by simp [within, low, high])).trans
      (congrArg Host.Outcome.next ((if_neg (by simp [running])).trans ?_))
    unfold State.takeDiscard
    split
    · next mark result slot => exact absurd slot (stopped _ _ _)
    all_goals rfl
  · intro set out
    exact congrArg (fun c => Host.Outcome.next { s with toll := { s.toll with clock := c } })
      ((DayClock.elapse_eq _).trans (if_pos ⟨set, out⟩))
  · intro not
    refine (congrArg (fun c => Host.Outcome.next { s with toll := { s.toll with clock := c } })
      ((DayClock.elapse_eq _).trans (if_neg fun run => ?_))).trans rfl
    rcases not with unset | left
    · simp [run.1] at unset
    · exact left run.2
  · intro out
    exact congrArg Host.Outcome.next ((if_neg (by simp [running])).trans (congrArg State.pump (if_pos out)))
  · intro left
    exact congrArg Host.Outcome.next ((if_neg (by simp [running])).trans (congrArg State.pump (if_neg left)))

end Sys2Proof.Machine
end

