-- ==== Sys2Proof/Proofs/Links.lean ====
section
/-! SUPPORT. The links: a byte at every place of a frame, frames that have left a line, the frames of a reply, and the requests that are turned away. Settles O21, O22, O24, O25. -/

namespace Sys2Proof.Machine

/-! ## The transmitter (R197) -/

theorem replyFrames_one {tag kind : Nat} {a : Answer} (h : ∀ entries held next, a.body = .taken entries held next → entries.length ≤ 4) :
    replyFrames tag kind a = [.reply tag kind a.status 0 1 a.body] := by
  unfold replyFrames
  split
  · next entries held next body => exact if_pos (h entries held next body)
  · rfl

theorem replyFrames_two {tag kind : Nat} {a : Answer} {entries : List JournalEntry} {held next : Nat}
    (body : a.body = .taken entries held next) (more : 4 < entries.length) :
    replyFrames tag kind a = [.reply tag kind a.status 0 2 (.taken (entries.take 4) held next),
      .reply tag kind a.status 1 2 (.takenMore (entries.drop 4))] := by
  simp only [replyFrames, body]
  exact if_neg (Nat.not_le.2 more)

/-- A free line starts the frame that is next. -/
theorem Port.pump_starts {p : Port} {f : OutFrame} (free : p.line = none) (next : p.nextFrame = some f) :
    p.pump = p.start f := by
  simp only [Port.pump, free, next]

theorem Port.pump_of_line {p : Port} (h : p.line.isSome = true) : p.pump = p := by
  obtain ⟨f, line⟩ := Option.isSome_iff_exists.1 h
  simp only [Port.pump, line]

theorem Port.pump_of_none {p : Port} (h : p.nextFrame = none) : p.pump = p := by
  unfold Port.pump
  split
  · next _ next => simp [h] at next
  · rfl

/-- Settles O22: by the frame on the line, and by what its port has to send next. -/
theorem transmitter : Obligations.Transmitter := by
  refine ⟨fun s st running other => ?_, fun p => ⟨Port.pump_of_line, ?_, ?_, ?_, ?_⟩, fun s => rfl, fun s => rfl,
    fun h kind a s => ⟨fun short => ?_, fun entries held next body more => ?_⟩⟩
  · have taken : exec (.frameSent st) s = .next (s.setPort st Port.frameEnds).pump :=
      congrArg Host.Outcome.next ((if_neg (by simp [running])).trans (if_neg other))
    have sent {p : Port} (h : (s.ports.get st).frameEnds = p) :
        exec (.frameSent st) s = .next (State.pump { s with ports := s.ports.set st p }) := by
      rw [taken, State.setPort, h]
    refine ⟨fun tag kind line => sent ?_, fun n line => sent ?_,
      fun tag kind status part parts body r line reply => sent ?_⟩
    · simp only [Port.frameEnds, line]
    · simp only [Port.frameEnds, line]
    · simp only [Port.frameEnds, line, reply, Option.bind_some, ReplyProgress.next]
  · intro free r tag kind status part parts body reply frame
    exact Port.pump_starts (f := .reply tag kind status part parts body) free (by simp only [Port.nextFrame, reply, frame])
  · intro free noReply tag kind busy
    exact Port.pump_starts (f := .busy tag kind) free (by simp only [Port.nextFrame, noReply, busy])
  · intro free noReply notBusy n rest queue
    rw [Port.pump_starts (f := .notice n) free (by simp only [Port.nextFrame, noReply, notBusy, queue]), Port.start, queue]
    rfl
  · intro noReply notBusy queue
    exact Port.pump_of_none (by simp only [Port.nextFrame, noReply, notBusy, queue])
  · simp only [State.replied, State.respond, replyFrames_one short]
    rfl
  · simp only [State.replied, State.respond, replyFrames_two body more]
    rfl

@[simp] theorem Ports.set_get (p : Ports) (st : Station) : p.set st (p.get st) = p := by cases st <;> rfl

@[simp] theorem Ports.set_set (p : Ports) (st : Station) (x y : Port) : (p.set st x).set st y = p.set st y := by
  cases st <;> rfl

/-! ## A byte on a line (R189, R190) -/

theorem byteSum_eq (l : List Byte) : byteSum l = (l.map BitVec.toNat).sum := by
  induction l with
  | nil => rfl
  | cons b rest ih => simp [byteSum, ih]

theorem assembledLength_eq (l : List Byte) : assembledLength l = (l.getD 4 0).toNat := by
  unfold assembledLength
  rw [List.getD_eq_getElem?_getD]
  cases l[4]? <;> rfl

theorem assembledLength_append {l : List Byte} (h : 5 ≤ l.length) (m : List Byte) :
    assembledLength (l ++ m) = assembledLength l := by
  unfold assembledLength
  rw [List.getElem?_append_left (by omega)]

section
variable {code : Nat} {b : Byte} {p : Port} {l : List Byte} (held : p.assembled = l)
include held

theorem Port.receive_joins (started : l ≠ [] ∨ b = syncByte) (good : frameBad code (l ++ [b]) = false)
    (short : frameComplete (l ++ [b]) = false) :
    Port.receive code b p = ({ p with assembled := l ++ [b], gap := some 50 }, none) := by
  subst held
  unfold Port.receive
  rw [if_neg (by simpa [or_iff_not_imp_left] using started), if_neg (by simp [good]), if_neg (by simp [short])]
  rfl

theorem Port.receive_discards (started : l ≠ []) (bad : frameBad code (l ++ [b]) = true) :
    Port.receive code b p = (p.hunt, none) := by
  subst held
  unfold Port.receive
  rw [if_neg (by simp [started]), if_pos bad]

theorem Port.receive_completes (started : l ≠ []) (good : frameBad code (l ++ [b]) = false)
    (complete : frameComplete (l ++ [b]) = true) : Port.receive code b p = (p.hunt, some (l ++ [b])) := by
  subst held
  unfold Port.receive
  rw [if_neg (by simp [started]), if_neg (by simp [good]), if_pos complete]

end

section
variable {code : Nat} {b : Byte} {l : List Byte}

/-- A frame is bad at its station code, at its length byte, or at its last check byte. -/
theorem frameBad_iff : frameBad code l = true ↔ (l.length = 2 ∧ l[1]? ≠ some (byteOf code))
    ∨ (l.length = 5 ∧ 240 < assembledLength l) ∨ (frameComplete l = true ∧ checkAgrees l = false) := by
  simp only [frameBad, Bool.or_eq_true, Bool.and_eq_true, Bool.not_eq_true', decide_eq_true_eq, decide_eq_false_iff_not,
    or_assoc, ne_eq]
  rfl

theorem frameComplete_iff : frameComplete l = true ↔ 5 ≤ l.length ∧ l.length = 7 + assembledLength l := by
  simp only [frameComplete, Bool.and_eq_true, decide_eq_true_eq]

theorem not_frameComplete (h : l.length < 7 + assembledLength l) : frameComplete l = false := by
  rw [← Bool.not_eq_true, frameComplete_iff]
  omega

theorem not_frameBad (head : l.length ≠ 2 ∨ l[1]? = some (byteOf code)) (long : l.length = 5 → assembledLength l ≤ 240)
    (short : frameComplete l = false ∨ checkAgrees l = true) : frameBad code l = false := by
  rw [← Bool.not_eq_true, frameBad_iff]
  rintro (⟨two, other⟩ | ⟨five, above⟩ | ⟨complete, wrong⟩)
  · exact head.elim (fun h => h two) other
  · exact absurd (long five) (by omega)
  · rcases short with h | h <;> simp_all

/-- The two check bytes behind a frame's payload against the sum ahead of them (R189). -/
theorem checkAgrees_iff {n : Nat} (five : 5 ≤ l.length) (count : (l.getD 4 0).toNat = n) (long : l.length = 6 + n) :
    checkAgrees (l ++ [b]) = true
      ↔ (l.getD (5 + n) 0).toNat + 256 * b.toNat = (((l.drop 1).take (4 + n)).map BitVec.toNat).sum % 65536 := by
  have size : assembledLength (l ++ [b]) = n := by rw [assembledLength_append five, assembledLength_eq, count]
  have last : (l ++ [b]).drop (5 + n) = [l.getD (5 + n) 0, b] := by
    rw [List.drop_append_of_le_length (by omega), List.drop_eq_getElem_cons (by omega), List.drop_of_length_le (by omega)]
    rw [List.getD_eq_getElem (hn := by omega)]
    rfl
  have body : ((l ++ [b]).drop 1).take (4 + n) = (l.drop 1).take (4 + n) := by
    rw [List.drop_append_of_le_length (by omega), List.take_append_of_le_length (by simp; omega)]
  simp only [checkAgrees, size, last, body, checkOf, byteSum_eq, leValue, decide_eq_true_eq, Nat.mul_zero, Nat.add_zero]

theorem frameFields_eq {n : Nat} (five : 5 ≤ l.length) (count : (l.getD 4 0).toNat = n) (long : l.length = 6 + n) :
    frameFields (l ++ [b]) = ((l.getD 2 0).toNat, (l.getD 3 0).toNat, (l.drop 5).take n) := by
  have size : assembledLength (l ++ [b]) = n := by rw [assembledLength_append five, assembledLength_eq, count]
  have byte (i : Nat) (h : i < l.length) : (((l ++ [b])[i]?).map BitVec.toNat).getD 0 = (l.getD i 0).toNat := by
    rw [List.getElem?_append_left h, List.getElem?_eq_getElem h, List.getD_eq_getElem (hn := h)]
    rfl
  rw [frameFields, byte 2 (by omega), byte 3 (by omega), size, List.drop_append_of_le_length (by omega),
    List.take_append_of_le_length (by simp; omega)]

end

section
variable {s : State} {st : Station} {b : Byte} (running : s.pins.reset = false)
include running

theorem exec_byteReceived : exec (.byteReceived st b) s = .next (s.takeByte st b) :=
  congrArg Host.Outcome.next (if_neg (by simp [running]))

theorem exec_byte_joins (started : (s.ports.get st).assembled ≠ [] ∨ b = syncByte)
    (good : frameBad (stationCode st) ((s.ports.get st).assembled ++ [b]) = false)
    (short : frameComplete ((s.ports.get st).assembled ++ [b]) = false) :
    exec (.byteReceived st b) s = .next { s with
      ports := s.ports.set st { s.ports.get st with assembled := (s.ports.get st).assembled ++ [b], gap := some 50 } } := by
  rw [exec_byteReceived running, State.takeByte, Port.receive_joins rfl started good short]
  rfl

theorem exec_byte_discards (started : (s.ports.get st).assembled ≠ [])
    (bad : frameBad (stationCode st) ((s.ports.get st).assembled ++ [b]) = true) :
    exec (.byteReceived st b) s
      = .next { s with ports := s.ports.set st { s.ports.get st with assembled := [], gap := none } } := by
  rw [exec_byteReceived running, State.takeByte, Port.receive_discards rfl started bad]
  rfl

theorem exec_byte_completes {n : Nat} (five : 5 ≤ (s.ports.get st).assembled.length)
    (count : ((s.ports.get st).assembled.getD 4 0).toNat = n) (long : (s.ports.get st).assembled.length = 6 + n)
    (check : checkAgrees ((s.ports.get st).assembled ++ [b]) = true) :
    exec (.byteReceived st b) s = .next (State.takeFrame st ((s.ports.get st).assembled.getD 2 0).toNat
      ((s.ports.get st).assembled.getD 3 0).toNat (((s.ports.get st).assembled.drop 5).take n)
      { s with ports := s.ports.set st { s.ports.get st with assembled := [], gap := none } }) := by
  have started : (s.ports.get st).assembled ≠ [] := fun h => by simp [h] at five
  have complete : frameComplete ((s.ports.get st).assembled ++ [b]) = true := by
    rw [frameComplete_iff, assembledLength_append five, assembledLength_eq, count, List.length_append, List.length_singleton]
    omega
  have good : frameBad (stationCode st) ((s.ports.get st).assembled ++ [b]) = false :=
    not_frameBad (.inl (by simp; omega)) (by simp; omega) (.inr check)
  rw [exec_byteReceived running, State.takeByte, Port.receive_completes rfl started good complete]
  simp only [frameFields_eq five count long]
  rfl

end

/-- Settles O21: by the number of bytes assembled before the byte. -/
theorem receiverEvents : Obligations.ReceiverEvents := by
  refine ⟨fun s st running => ⟨fun out => ?_, fun left => ?_, fun cause => ?_, ?_⟩, fun s st b running => ?_, fun s h => rfl⟩
  · exact congrArg Host.Outcome.next (if_pos (by simp [running, out]))
  · exact congrArg Host.Outcome.next (if_neg (by simp [left]))
  · exact congrArg Host.Outcome.next (if_neg (by simp [running]))
  · exact congrArg Host.Outcome.next (if_neg (by simp [running]))
  · intro p l n hunting joins discarded
    have join (started : l ≠ [] ∨ b = syncByte) (good : frameBad (stationCode st) (l ++ [b]) = false)
        (short : frameComplete (l ++ [b]) = false) : joins := exec_byte_joins running started good short
    have discard (started : l ≠ []) (bad : frameBad (stationCode st) (l ++ [b]) = true) : discarded :=
      exec_byte_discards running started bad
    have started {k : Nat} (h : k + 1 ≤ l.length) : l ≠ [] := fun e => by simp [e] at h
    have size : (l ++ [b]).length = l.length + 1 := by simp
    have within5 (h : 5 ≤ l.length) : assembledLength (l ++ [b]) = n :=
      (assembledLength_append h _).trans (assembledLength_eq l)
    refine ⟨fun empty => ⟨fun sync => ?_, fun other => ?_⟩, fun one => ⟨fun own => ?_, fun other => ?_⟩, fun two => ?_,
      fun four => ?_, fun five short => ?_, fun five long => ⟨fun agree => ?_, fun wrong => ?_⟩⟩
    · have short : frameComplete (l ++ [b]) = false := not_frameComplete (by simp [empty]; omega)
      exact join (.inr sync) (not_frameBad (.inl (by simp [empty])) (by simp [empty]) (.inl short)) short
    · rw [exec_byteReceived running, State.takeByte, Port.receive,
        if_pos ⟨List.isEmpty_iff.2 empty, other⟩]
      simp only [State.setPort, Ports.set_get]
    · have short : frameComplete (l ++ [b]) = false := not_frameComplete (by omega)
      exact join (.inl (started one.ge)) (not_frameBad (.inr (by simp [one, own])) (by omega) (.inl short)) short
    · exact discard (started one.ge) (frameBad_iff.2 (.inl ⟨by omega, by simp [one, other]⟩))
    · have short : frameComplete (l ++ [b]) = false := not_frameComplete (by omega)
      exact join (.inl (started (k := 1) (by omega))) (not_frameBad (.inl (by omega)) (by omega) (.inl short)) short
    · have count : assembledLength (l ++ [b]) = b.toNat := by simp [assembledLength, four]
      have short : frameComplete (l ++ [b]) = false := not_frameComplete (by omega)
      refine ⟨fun low => ?_, fun high => ?_⟩
      · exact join (.inl (started four.ge)) (not_frameBad (.inl (by omega)) (by omega) (.inl short)) short
      · exact discard (started four.ge) (frameBad_iff.2 (.inr (.inl ⟨by omega, by omega⟩)))
    · have unfinished : frameComplete (l ++ [b]) = false := not_frameComplete (by rw [within5 five]; omega)
      exact join (.inl (started five)) (not_frameBad (.inl (by omega)) (by omega) (.inl unfinished)) unfinished
    · exact exec_byte_completes running five rfl long ((checkAgrees_iff five rfl long).2 agree)
    · have complete : frameComplete (l ++ [b]) = true := frameComplete_iff.2 (by rw [within5 five]; omega)
      have bad : checkAgrees (l ++ [b]) = false := by
        rw [← Bool.not_eq_true, checkAgrees_iff five rfl long]
        exact wrong
      exact discard (started five) (frameBad_iff.2 (.inr (.inr ⟨complete, bad⟩)))

/-! ## A whole frame (R189) -/

/-- The receiver of a port has assembled bytes of a frame. -/
def State.assembling (st : Station) (l : List Byte) (s : State) : State :=
  { s with ports := s.ports.set st { s.ports.get st with assembled := l, gap := some 50 } }

section
variable {code tag kind : Nat} {payload : List Byte}

theorem frameBytes_eq (code tag kind : Nat) (payload : List Byte) : ∃ x y : Byte,
    frameBytes code tag kind payload
        = (syncByte :: byteOf code :: byteOf tag :: byteOf kind :: byteOf payload.length :: (payload ++ [x])) ++ [y]
      ∧ x.toNat + 256 * y.toNat = checkOf (frameBody code tag kind payload) := by
  refine ⟨byteOf (checkOf (frameBody code tag kind payload)), byteOf (checkOf (frameBody code tag kind payload) / 256),
    by simp [frameBytes, frameBody, leBytes], ?_⟩
  have low : checkOf (frameBody code tag kind payload) < 65536 := Nat.mod_lt _ (by decide)
  simp only [byteOf, BitVec.toNat_ofNat]
  omega

theorem length_frameBytes (code tag kind : Nat) (payload : List Byte) :
    (frameBytes code tag kind payload).length = 7 + payload.length := by
  obtain ⟨x, y, same, -⟩ := frameBytes_eq code tag kind payload
  rw [same]
  simp
  omega

theorem assembledLength_frameBytes (fits : payload.length ≤ 240) :
    assembledLength (frameBytes code tag kind payload) = payload.length := by
  simp only [assembledLength, frameBytes, frameBody, List.cons_append, List.getElem?_cons_succ, List.getElem?_cons_zero,
    Option.map_some, Option.getD_some, byteOf, BitVec.toNat_ofNat]
  omega

theorem checkAgrees_frameBytes (fits : payload.length ≤ 240) : checkAgrees (frameBytes code tag kind payload) = true := by
  obtain ⟨x, y, same, check⟩ := frameBytes_eq code tag kind payload
  have size := assembledLength_frameBytes (code := code) (tag := tag) (kind := kind) fits
  simp only [checkAgrees, size, decide_eq_true_eq]
  rw [same, show 5 + payload.length = payload.length + 5 by omega, show 4 + payload.length = payload.length + 4 by omega]
  simpa [leValue, frameBody] using check

/-- The bytes of a frame behind those a receiver has assembled complete the frame. -/
theorem feedBytes_assembling {s : State} {st : Station} {rest l : List Byte} (running : s.pins.reset = false)
    (fits : payload.length ≤ 240) (tagFits : tag < 256) (kindFits : kind < 256) (started : l ≠ []) (more : rest ≠ [])
    (frame : frameBytes (stationCode st) tag kind payload = l ++ rest) :
    feedBytes st rest (s.assembling st l) = State.takeFrame st tag kind payload
      { s with ports := s.ports.set st { s.ports.get st with assembled := [], gap := none } } := by
  induction rest generalizing l with
  | nil => exact absurd rfl more
  | cons b rest ih =>
    have held : ((s.assembling st l).ports.get st).assembled = l := by simp [State.assembling]
    have running' : (s.assembling st l).pins.reset = false := running
    have size : l.length + rest.length + 1 = 7 + payload.length := by
      rw [← length_frameBytes (stationCode st) tag kind payload, frame]
      simp
      omega
    have count (m n : List Byte) (h : frameBytes (stationCode st) tag kind payload = m ++ n) (five : 5 ≤ m.length) :
        assembledLength m = payload.length := by
      rw [← assembledLength_append five n, ← h, assembledLength_frameBytes fits]
    by_cases last : rest = []
    · subst last
      have five : 5 ≤ l.length := by simp at size; omega
      have done := exec_byte_completes (b := b) running' (n := payload.length) (by rw [held]; exact five)
        (by rw [held, ← assembledLength_eq]; exact count l _ frame five) (by rw [held]; simp at size; omega)
        (by rw [held, ← frame]; exact checkAgrees_frameBytes fits)
      obtain ⟨x, y, same, -⟩ := frameBytes_eq (stationCode st) tag kind payload
      obtain ⟨rfl, -⟩ := List.append_inj' (frame.symm.trans same) rfl
      simp only [feedBytes, List.foldl_cons, List.foldl_nil, done, held]
      simp [State.assembling, byteOf, Nat.mod_eq_of_lt tagFits, Nat.mod_eq_of_lt kindFits]
    · have rest1 : 1 ≤ rest.length := List.length_pos_iff.2 last
      have frame' : frameBytes (stationCode st) tag kind payload = (l ++ [b]) ++ rest := by simp [frame]
      have length' : (l ++ [b]).length = l.length + 1 := by simp
      have short : frameComplete (l ++ [b]) = false := by
        refine not_frameComplete ?_
        by_cases five : 5 ≤ (l ++ [b]).length
        · rw [count _ _ frame' five]
          omega
        · omega
      have good : frameBad (stationCode st) (l ++ [b]) = false := by
        refine not_frameBad ?_ (fun five => (count _ _ frame' five.ge).trans_le fits) (.inl short)
        by_cases two : (l ++ [b]).length = 2
        · refine .inr ?_
          rw [← List.getElem?_append_left (l₂ := rest) (by omega), ← frame']
          rfl
        · exact .inl two
      have join := exec_byte_joins (b := b) (st := st) running' (by rw [held]; exact .inl started) (by rw [held]; exact good)
        (by rw [held]; exact short)
      have next := ih (by simp) last frame'
      simp only [feedBytes, List.foldl_cons, join] at next ⊢
      simpa [State.assembling] using next

end

/-- Settles O24: byte by byte, every prefix of a frame joins and its last byte completes it. -/
theorem receiverAssemblesFrame : Obligations.ReceiverAssemblesFrame := by
  refine ⟨fun s st tag kind payload running hunting tagFits kindFits fits => ?_, fun s st tag kind payload running =>
    ⟨fun idle => ?_, fun tagged r spelled => ?_, fun tagged none => ?_, rfl⟩, fun id code => ?_,
    fun kind payload r h => code_of_readRequest h⟩
  · have short : frameComplete [syncByte] = false := not_frameComplete (by simp; omega)
    have sync := exec_byte_joins (b := syncByte) (st := st) running (.inr rfl)
      (by rw [hunting]; exact not_frameBad (.inl (by simp)) (by simp) (.inl short)) (by rw [hunting]; exact short)
    have rest := feedBytes_assembling (st := st) running fits tagFits kindFits (l := [syncByte]) (by simp) (by simp) rfl
    rw [hunting] at sync
    rw [← rest, frameBytes]
    simp only [feedBytes, List.foldl_cons, sync]
    rfl
  · exact congrArg Host.Outcome.next (if_pos idle).symm
  · rw [exec_command, code_of_readRequest spelled]
    simp only [State.takeFrame, if_neg tagged, spelled, Bool.true_and]
  · refine congrArg Host.Outcome.next ?_
    simp only [State.takeFrame, if_neg tagged, none]
  · simp only [readRequest, if_pos, confirmOfCode]
    split <;> simp_all

/-! ## Requests turned away (R193, R196) -/

/-- A request turned away in its block's stead is told what the Authority Controller tells, where the kind is its own. -/
theorem State.turnAway_eq (s : State) (kind : Nat) (e : Status) (h : e ≠ .pending) : s.turnAway kind e =
    if 19 ≤ kind ∧ kind ≤ 26 then { status := e, body := .authority s.auth.mode s.auth.holder none .nothing }
    else refuse e := by
  simp [State.turnAway, within, State.authorityAnswer, h]

/-- On a REPLYING port a request gets the one busy answer. -/
theorem State.takeRequest_replying (h : Hdr) (kind : Nat) (block : State → State × Answer) (s : State)
    (running : s.pins.reset = false)
    (replying : (s.ports.get h.port).reply.isSome = true ∨ (s.ports.get h.port).busy.isSome = true) :
    s.takeRequest h kind block = State.pump { s with ports := s.ports.set h.port { s.ports.get h.port with
      assembled := [], gap := none, silence := some (s.timing.silence * 1000), heard := true,
      busy := some ((s.ports.get h.port).busy.getD (h.tag, kind)) } } := by
  have state : (s.ports.get h.port).state = .replying := if_pos (by simpa using replying)
  unfold State.takeRequest
  rw [if_neg (by simp [running]), if_pos state]
  simp only [State.goodFrame, State.setPort, Ports.get_set_same, Ports.set_set, Port.answerBusy, Port.goodFrame]
  cases (s.ports.get h.port).busy <;> rfl

/-- The execution of a request is that of taking it by its kind and some block. -/
theorem exec_of_requestOf {c : Instr} {h : Hdr} {kind : Nat} (hc : requestOf c = some (h, kind)) (s : State) :
    within 1 40 kind = true ∧ ∃ block, exec c s = .next (s.takeRequest h kind block) := by
  cases c with
  | setFlight | subscribe =>
    cases hc
    exact ⟨rfl, _, rfl⟩
  | _ => cases hc <;> exact ⟨rfl, _, rfl⟩

/-- Settles O25: the tests of a request in their order, for any block. -/
theorem requestsTurnedAway : Obligations.RequestsTurnedAway := by
  refine ⟨fun s st tag kind payload running tagged replying => ?_, fun s st tag kind running noReply notBusy => ?_,
    fun c h kind s hc running => ?_⟩
  · refine congrArg Host.Outcome.next ?_
    unfold State.takeFrame
    rw [if_neg tagged]
    split <;> exact State.takeRequest_replying _ _ _ _ running replying
  · refine congrArg Host.Outcome.next ((State.takeRequest_badForm _ kind noBlock s ⟨running, noReply, notBusy⟩ rfl).trans ?_)
    rw [State.turnAway_eq _ _ _ (by simp)]
    rfl
  · obtain ⟨known, block, taken⟩ := exec_of_requestOf hc s
    intro turned
    refine ⟨fun reaches bad => ?_, fun reaches good noRight => ?_, fun replying => ?_⟩
    · rw [taken, State.takeRequest_badForm h kind block s reaches (by simp [bad]), State.turnAway_eq _ _ _ (by simp)]
    · rw [taken, State.takeRequest_noRight h kind block s reaches (by simp [good, known]) noRight,
        State.turnAway_eq _ _ _ (by simp)]
    · rw [taken, State.takeRequest_replying h kind block s running replying]

end Sys2Proof.Machine
end

