-- ==== Sys2Proof/Proofs/PassageWork.lean ====
section
/-! SUPPORT. The changes of the passages: what one change of a passage's records may be, and every operation of the PCU, the Sequencer and the Call Arbiter as a sequence of such changes. -/

namespace Sys2Proof.Machine

/-! ## Reading a passage after a change -/

theorem State.setPassage_outside {k : Nat} (h : 4 ≤ k) (f : Passage → Passage) (s : State) : s.setPassage k f = s := by
  obtain ⟨n, rfl⟩ := Nat.exists_eq_add_of_le' h
  rfl

theorem State.passage_setPassage_same {k : Nat} (h : k < 4) (f : Passage → Passage) (s : State) :
    (s.setPassage k f).passage k = f (s.passage k) := Quad.get_set_same _ _ h

theorem State.passage_setPassage_other {j k : Nat} (h : j < 4) (apart : j ≠ k) (f : Passage → Passage) (s : State) :
    (s.setPassage k f).passage j = s.passage j := Quad.get_set_other _ _ h apart

theorem State.passage_setGate_same {k : Nat} (h : k < 4) (f : Gate → Gate) (s : State) :
    (s.setGate k f).passage k = { s.passage k with gate := f (s.passage k).gate } := State.passage_setPassage_same h _ s

theorem State.passage_setSluice_same {k : Nat} (h : k < 4) (f : Sluice → Sluice) (s : State) :
    (s.setSluice k f).passage k = { s.passage k with sluice := f (s.passage k).sluice } := State.passage_setPassage_same h _ s

theorem State.passage_setOp_same {k : Nat} (h : k < 4) (f : Op → Op) (s : State) :
    (s.setOp k f).passage k = { s.passage k with slot := (s.passage k).slot.map f } := State.passage_setPassage_same h _ s

@[simp] theorem State.passage_push (x : Task) (k : Nat) (s : State) : (s.push x).passage k = s.passage k := rfl
@[simp] theorem State.passage_pushAll (l : List Task) (k : Nat) (s : State) : (s.pushAll l).passage k = s.passage k := rfl
@[simp] theorem State.passage_raise (n : Notice) (k : Nat) (s : State) : (s.raise n).passage k = s.passage k := rfl
@[simp] theorem State.passage_setTransit (id : Nat) (f : Transit → Transit) (k : Nat) (s : State) :
    (s.setTransit id f).passage k = s.passage k := rfl
@[simp] theorem State.passage_setMove (id : Nat) (f : Move → Move) (k : Nat) (s : State) :
    (s.setMove id f).passage k = s.passage k := rfl

/-! ## One change of a passage -/

/-- The operation of a passage holds its claims. -/
def Passage.holds (p : Passage) : Bool := p.slot.any Op.claimsHeld

/-- A change of a passage that opens its gate, or drives its sluice up, only where the interlock lets it; that leaves a passage fully closed otherwise; and that leaves its claims as they are. -/
structure State.lawful (s : State) (k : Nat) (q : Passage) : Prop where
  opening : q.gate.state = .opening →
    ((s.passage k).gate.state = .opening ∨ s.mayOpen k = true) ∧ q.permit = (s.passage k).permit
  raised : ∀ c, q.sluice.commanded = some c → q.sluice.position < c →
    ((s.passage k).sluice.commanded = some c ∧ (s.passage k).sluice.position < c
      ∧ ((s.passage k).sluice.state = .moving → q.sluice.state = .moving))
    ∨ (s.interlockOk k = true ∧ q.sluice.state = .moving)
  closed : (s.passage k).fullyClosed = true → q.fullyClosed = true ∨ s.interlockOk k = true
  claims : q.holds = (s.passage k).holds

/-- A change of a passage that leaves its gate, and the slot and the sluice of a STALLED operation. -/
def Passage.rests (p q : Passage) : Prop :=
  q.gate = p.gate ∧ ∀ o, p.slot = some o → o.phase = .stalled → q.slot = some o ∧ q.sluice = p.sluice

/-- The operation of a passage is not STALLED. -/
def Passage.unstalled (p : Passage) : Prop := ∀ o, p.slot = some o → o.phase ≠ .stalled

/-- A sequence of changes of the passages, each lawful, each leaving at rest the passages that `b` does not release. -/
inductive Works (b : Nat → Prop) : State → State → Prop
  | beside {s t : State} (passages : t.pcu.passages = s.pcu.passages) (claims : t.pcu.claims = s.pcu.claims)
      (flight : t.flight = s.flight) (lm : t.lm = s.lm) (mode : t.auth.mode = s.auth.mode ∨ ∀ k, b k) : Works b s t
  | alters (s : State) {k : Nat} {f : Passage → Passage} (inside : k < 4) (lawful : s.lawful k (f (s.passage k)))
      (rests : b k ∨ (s.passage k).rests (f (s.passage k))) : Works b s (s.setPassage k f)
  | claims (s : State) (k : Nat) (slot : k < 4 → (s.passage k).slot.isSome = true) (free : s.unclaimed k = true)
      (rests : k < 4 → b k ∨ (s.passage k).unstalled) : Works b s (s.takeClaims k)
  | releases (s : State) (k : Nat) (o : Op) (slot : (s.passage k).slot = some o)
      (rests : k < 4 → b k ∨ (s.passage k).unstalled) :
      Works b s ((s.setClaims (if o.claimsHeld then s.chambersOf k else []) none).setPassage k
        (fun p => { p with slot := none, slotFreeOwed := false }))
  | trans {s t u : State} (first : Works b s t) (second : Works b t u) : Works b s u

section
variable {b : Nat → Prop}

theorem Works.refl (s : State) : Works b s s := .beside rfl rfl rfl rfl (.inl rfl)

/-- Work that reads the state of `s` but for what is beside the passages. -/
theorem Works.then {s t u : State} (h : Works b s t) (passages : u.pcu.passages = t.pcu.passages)
    (claims : u.pcu.claims = t.pcu.claims) (flight : u.flight = t.flight) (lm : u.lm = t.lm)
    (mode : u.auth.mode = t.auth.mode) : Works b s u := h.trans (.beside passages claims flight lm (.inl mode))

theorem Works.push {s t : State} (h : Works b s t) (x : Task) : Works b s (t.push x) := h.then rfl rfl rfl rfl rfl
theorem Works.pushAll {s t : State} (h : Works b s t) (l : List Task) : Works b s (t.pushAll l) := h.then rfl rfl rfl rfl rfl
theorem Works.raise {s t : State} (h : Works b s t) (n : Notice) : Works b s (t.raise n) := h.then rfl rfl rfl rfl rfl
theorem Works.raiseAll {s t : State} (h : Works b s t) (l : List Notice) : Works b s (t.raiseAll l) := by
  induction l generalizing t with
  | nil => exact h
  | cons n rest ih => exact ih (h.raise n)
theorem Works.setTransit {s t : State} (h : Works b s t) (id : Nat) (f : Transit → Transit) : Works b s (t.setTransit id f) :=
  h.then rfl rfl rfl rfl rfl
theorem Works.setMove {s t : State} (h : Works b s t) (id : Nat) (f : Move → Move) : Works b s (t.setMove id f) :=
  h.then rfl rfl rfl rfl rfl
theorem Works.calling {s t : State} (h : Works b s t) : Works b s t.calling := h.then rfl rfl rfl rfl rfl

theorem Works.when {s t : State} (h : Works b s t) {c : Bool} {f : State → State} (hf : c = true → Works b t (f t)) :
    Works b s (t.when c f) := by
  cases c with
  | false => exact h
  | true => exact h.trans (hf rfl)

theorem Works.each {α : Type} {f : α → State → State} (P : State → Prop) (kept : ∀ x s, P s → P (f x s))
    (work : ∀ x s, P s → Works b s (f x s)) (l : List α) {s : State} (h : P s) : Works b s (s.each l f) := by
  induction l generalizing s with
  | nil => exact .refl s
  | cons x rest ih => exact (work x s h).trans (ih (kept x s h))

/-- A change of a passage that the part has; of another passage it changes nothing. -/
theorem Works.alter {s : State} {k : Nat} {f : Passage → Passage} (lawful : k < 4 → s.lawful k (f (s.passage k)))
    (rests : k < 4 → b k ∨ (s.passage k).rests (f (s.passage k))) : Works b s (s.setPassage k f) := by
  by_cases inside : k < 4
  · exact .alters s inside (lawful inside) (rests inside)
  · rw [State.setPassage_outside (Nat.not_lt.1 inside)]
    exact .refl s

theorem Passage.fullyClosed_iff (p : Passage) : p.fullyClosed = true ↔ p.gate.state = .closed ∧ p.sluice.state = .shut := by
  simp [Passage.fullyClosed]

/-- A change of a gate: to a state in which it does not open, from one in which it was not CLOSED, or under the interlock. -/
theorem Works.gate {s : State} {k : Nat} {f : Gate → Gate} (free : k < 4 → b k ∨ f (s.passage k).gate = (s.passage k).gate)
    (state : k < 4 → (f (s.passage k).gate).state = (s.passage k).gate.state
      ∨ ((s.passage k).gate.state ≠ .closed ∧ (f (s.passage k).gate).state ≠ .opening) ∨ s.mayOpen k = true) :
    Works b s (s.setGate k f) := by
  refine .alter (fun inside => ⟨fun opening => ?_, fun c up low => .inl ⟨up, low, id⟩, fun closed => ?_, rfl⟩)
    (fun inside => (free inside).imp_right fun same => ⟨same, fun o slot _ => ⟨slot, rfl⟩⟩)
  · refine ⟨?_, rfl⟩
    rcases state inside with same | ⟨-, other⟩ | may
    · exact .inl (same.symm.trans opening)
    · exact absurd opening other
    · exact .inr may
  · obtain ⟨gate, shut⟩ := (Passage.fullyClosed_iff _).1 closed
    rcases state inside with same | ⟨apart, -⟩ | may
    · exact .inl ((Passage.fullyClosed_iff _).2 ⟨same.trans gate, shut⟩)
    · exact absurd gate apart
    · exact .inr (Bool.and_eq_true_iff.1 may).2

/-- A change of a sluice: driven up only under the interlock, SHUT left only under it. -/
theorem Works.sluice {s : State} {k : Nat} {f : Sluice → Sluice} (free : k < 4 → b k ∨ (s.passage k).unstalled)
    (raised : k < 4 → ∀ c, (f (s.passage k).sluice).commanded = some c → (f (s.passage k).sluice).position < c →
      ((s.passage k).sluice.commanded = some c ∧ (s.passage k).sluice.position < c
        ∧ ((s.passage k).sluice.state = .moving → (f (s.passage k).sluice).state = .moving))
      ∨ (s.interlockOk k = true ∧ (f (s.passage k).sluice).state = .moving))
    (closed : k < 4 → (s.passage k).sluice.state = .shut → (f (s.passage k).sluice).state = .shut ∨ s.interlockOk k = true) :
    Works b s (s.setSluice k f) := by
  refine .alter (fun inside => ⟨fun opening => ⟨.inl opening, rfl⟩, raised inside, fun full => ?_, rfl⟩)
    (fun inside => (free inside).imp_right fun un => ⟨rfl, fun o slot stalled => absurd stalled (un o slot)⟩)
  obtain ⟨gate, shut⟩ := (Passage.fullyClosed_iff _).1 full
  exact (closed inside shut).imp_left fun shut' => (Passage.fullyClosed_iff _).2 ⟨gate, shut'⟩

/-- A change of a sluice's timers and settings. -/
theorem Works.tune {s : State} {k : Nat} {f : Sluice → Sluice} (free : k < 4 → b k ∨ (s.passage k).unstalled)
    (state : ∀ x, (f x).state = x.state) (commanded : ∀ x, (f x).commanded = x.commanded)
    (position : ∀ x, (f x).position = x.position) : Works b s (s.setSluice k f) :=
  .sluice free (fun _ c up low => .inl ⟨(commanded _).symm.trans up, by rwa [position] at low, (state _).trans⟩)
    (fun _ shut => .inl ((state _).trans shut))

/-- A change of an operation that leaves its claims. -/
theorem Works.op {s : State} {k : Nat} {f : Op → Op} (free : k < 4 → b k ∨ (s.passage k).unstalled)
    (claims : ∀ o, (s.passage k).slot = some o → (f o).claimsHeld = o.claimsHeld) : Works b s (s.setOp k f) := by
  refine .alter (fun inside => ⟨fun opening => ⟨.inl opening, rfl⟩, fun c up low => .inl ⟨up, low, id⟩, .inl, ?_⟩)
    (fun inside => (free inside).imp_right fun un => ⟨rfl, fun o slot stalled => absurd stalled (un o slot)⟩)
  cases slot : (s.passage k).slot with
  | none => simp [Passage.holds, slot]
  | some o => simpa [Passage.holds, slot] using claims o slot

/-- What does not concern the gate, the sluice, the permit, the slot or the claims. -/
theorem Works.mark {s : State} {k : Nat} {f : Passage → Passage} (gate : ∀ p, (f p).gate = p.gate)
    (sluice : ∀ p, (f p).sluice = p.sluice) (slot : ∀ p, (f p).slot = p.slot) (permit : ∀ p, (f p).permit = p.permit) :
    Works b s (s.setPassage k f) := by
  refine .alter (fun _ => ⟨fun opening => ?_, fun c up low => ?_, fun full => ?_, ?_⟩)
    (fun _ => .inr ⟨gate _, fun o held _ => ⟨(slot _).trans held, sluice _⟩⟩)
  · rw [gate] at opening
    exact ⟨.inl opening, permit _⟩
  · rw [sluice] at up low
    exact .inl ⟨up, low, fun moving => by rw [sluice, moving]⟩
  · rw [Passage.fullyClosed_iff] at full ⊢
    exact .inl (by rw [gate, sluice]; exact full)
  · rw [Passage.holds, Passage.holds, slot]


/-! ## What a later change may rest on -/

/-- The operation of a passage may be changed: the passage is released, or its operation is not STALLED. -/
def State.freeAt (b : Nat → Prop) (s : State) (k : Nat) : Prop := k < 4 → b k ∨ (s.passage k).unstalled

/-- Every passage is released, or is held: outside SERVICE, with no pending open order. -/
def State.heldBut (b : Nat → Prop) (s : State) : Prop :=
  ∀ k, k < 4 → b k ∨ (s.auth.mode ≠ .service ∧ (s.passage k).gate.pendingOpen = none)

/-- What is read of a passage is as before where its change leaves it. -/
theorem State.read_setPassage {α : Type} {g : Passage → α} {k : Nat} {f : Passage → Passage} {s : State}
    (same : k < 4 → g (f (s.passage k)) = g (s.passage k)) (j : Nat) :
    g ((s.setPassage k f).passage j) = g (s.passage j) := by
  by_cases inside : k < 4
  · have three (n : Nat) (u : State) : u.passage (n + 3) = u.passage 3 := rfl
    have below (j : Nat) (h : j < 4) : g ((s.setPassage k f).passage j) = g (s.passage j) := by
      by_cases here : j = k
      · subst here
        rw [State.passage_setPassage_same inside, same inside]
      · rw [State.passage_setPassage_other h here]
    by_cases h : j < 4
    · exact below j h
    · obtain ⟨n, rfl⟩ := Nat.exists_eq_add_of_le' (Nat.le_of_not_lt h)
      exact below 3 (by decide)
  · rw [State.setPassage_outside (Nat.not_lt.1 inside)]

section
variable {s t : State} (flight : t.flight = s.flight) (full : ∀ j, (t.passage j).fullyClosed = (s.passage j).fullyClosed)
include flight full

theorem State.interlockOk_congr (k : Nat) : t.interlockOk k = s.interlockOk k := by
  simp only [State.interlockOk, State.othersOf, State.count, flight, full]
  rfl

theorem State.mayOpen_congr {k : Nat} (lm : t.lm = s.lm) (permit : (t.passage k).permit = (s.passage k).permit) :
    t.mayOpen k = s.mayOpen k := by
  simp only [State.mayOpen, State.permissive, State.equal, State.sensorsGood, State.sensor, lm, permit,
    State.interlockOk_congr flight full]
  rfl

end

/-- A change of a gate but for its state leaves the permissive and the interlock of every passage. -/
theorem State.mayOpen_setGate {f : Gate → Gate} (same : ∀ g, (f g).state = g.state) (k j : Nat) (s : State) :
    (s.setGate k f).mayOpen j = s.mayOpen j := by
  have full (i : Nat) : ((s.setGate k f).passage i).fullyClosed = (s.passage i).fullyClosed :=
    State.read_setPassage (g := Passage.fullyClosed) (fun _ => by simp only [Passage.fullyClosed, same]) i
  exact State.mayOpen_congr (s := s) (t := s.setGate k f) rfl full rfl (State.read_setPassage (s := s) (g := Passage.permit) (fun _ => rfl) j)

theorem State.interlockOk_setOp (f : Op → Op) (k j : Nat) (s : State) : (s.setOp k f).interlockOk j = s.interlockOk j :=
  State.interlockOk_congr (s := s) (t := s.setOp k f) rfl (State.read_setPassage (s := s) (g := Passage.fullyClosed) fun _ => rfl) j

theorem State.interlockOk_setSluice {f : Sluice → Sluice} (same : ∀ x, (f x).state = x.state) (k j : Nat) (s : State) :
    (s.setSluice k f).interlockOk j = s.interlockOk j :=
  State.interlockOk_congr (s := s) (t := s.setSluice k f) rfl
    (State.read_setPassage (s := s) (g := Passage.fullyClosed) fun _ => by simp only [Passage.fullyClosed, same]) j

theorem State.freeAt.of_slot {s t : State} {k : Nat} (h : s.freeAt b k) (same : k < 4 → (t.passage k).slot = (s.passage k).slot) :
    t.freeAt b k := fun inside => (h inside).imp_right fun un o slot => un o ((same inside).symm.trans slot)

theorem State.freeAt.setSluice {s : State} {k : Nat} (h : s.freeAt b k) (f : Sluice → Sluice) : (s.setSluice k f).freeAt b k :=
  h.of_slot fun inside => by rw [State.passage_setSluice_same inside]

theorem State.freeAt.setGate {s : State} {k : Nat} (h : s.freeAt b k) (f : Gate → Gate) : (s.setGate k f).freeAt b k :=
  h.of_slot fun inside => by rw [State.passage_setGate_same inside]

theorem State.freeAt_setOp (s : State) {k : Nat} {f : Op → Op} (moving : ∀ o, (s.passage k).slot = some o → (f o).phase ≠ .stalled) :
    (s.setOp k f).freeAt b k := by
  refine fun inside => .inr fun o slot => ?_
  rw [State.passage_setOp_same inside] at slot
  obtain ⟨o', slot', rfl⟩ := Option.map_eq_some_iff.1 slot
  exact moving o' slot'

/-- An operation whose phase is known not to be STALLED may be changed. -/
theorem State.freeAt_of_phase {s : State} {k : Nat} {o : Op} (slot : (s.passage k).slot = some o) (phase : o.phase ≠ .stalled) :
    s.freeAt b k := fun _ => .inr fun o' slot' => by
  cases slot.symm.trans slot'
  exact phase

/-! ## Gates (02 section 2.2) -/

theorem Passage.dropPermit_rest (p : Passage) : p.dropPermit.gate = p.gate ∧ p.dropPermit.sluice = p.sluice
    ∧ p.dropPermit.slot = p.slot ∧ p.dropPermit.slotFreeOwed = p.slotFreeOwed := by
  unfold Passage.dropPermit
  split <;> exact ⟨rfl, rfl, rfl, rfl⟩

theorem GatePosition.endState_ne (x : GatePosition) : x.endState ≠ .opening := by cases x <;> decide

section
variable {s : State} {k : Nat} (free : k < 4 → b k)
include free

theorem State.gateReached_works {state : GateState} (still : state ≠ .opening)
    (opened : k < 4 → (s.passage k).gate.state ≠ .closed) : Works b s (s.gateReached k state) := by
  refine .pushAll (.alter (fun inside => ?_) fun inside => .inl (free inside)) _
  obtain ⟨gate, sluice, slot, -⟩ :=
    Passage.dropPermit_rest { s.passage k with gate := { (s.passage k).gate with state := state } }
  refine ⟨fun opening => ?_, fun c up low => ?_, fun full => ?_, ?_⟩
  · rw [gate] at opening
    exact absurd opening still
  · rw [sluice] at up low ⊢
    exact .inl ⟨up, low, id⟩
  · exact absurd ((Passage.fullyClosed_iff _).1 full).1 (opened inside)
  · simp only [Passage.holds, slot]

theorem State.endTravel_works (opened : k < 4 → (s.passage k).gate.state ≠ .closed) : Works b s (s.endTravel k) := by
  have stopped : Works b s (s.setGate k (fun x => { x with
      drive := .off, timer := none, lastTravel := elapsed (s.passage k).gate.limit (s.passage k).gate.timer })) :=
    .gate (fun inside => .inl (free inside)) fun _ => .inl rfl
  refine (stopped.when fun _ => Works.raise (.refl _) _).trans
    (State.gateReached_works free (GatePosition.endState_ne _) fun inside => ?_)
  unfold State.when
  split <;> simp only [State.passage_raise, State.passage_setGate_same inside] <;> exact opened inside

theorem State.travel_works {state : GateState} {drive : GateDrive} (leaves : state ≠ .closed)
    (may : k < 4 → ((s.passage k).gate.state ≠ .closed ∧ state ≠ .opening) ∨ s.mayOpen k = true) :
    Works b s (s.travel k state drive) := by
  refine Works.when (Works.push (.gate (fun inside => .inl (free inside)) fun inside => .inr (may inside)) _)
    fun _ => State.endTravel_works free fun inside => ?_
  rw [State.passage_push, State.passage_setGate_same inside]
  exact leaves

theorem State.commandOpen_works (manual : Bool) (may : s.mayOpen k = true) : Works b s (s.commandOpen manual k) := by
  have opens : Works b s (s.travel k .opening .opening) := State.travel_works free (by decide) fun _ => .inr may
  unfold State.commandOpen
  split
  · split
    · exact .refl s
    · exact .push (.refl s) _
  · exact .refl s
  · split
    · exact opens
    · exact .refl s
  all_goals exact opens

theorem State.commandClose_works (manual : Bool) : Works b s (s.commandClose manual k) := by
  have cleared : Works b s (s.setGate k (fun g => { g with pendingOpen := none })) :=
    .gate (fun inside => .inl (free inside)) fun _ => .inl rfl
  have closes (state : (s.passage k).gate.state ≠ .closed) :
      Works b s ((s.setGate k (fun g => { g with pendingOpen := none })).travel k .closing .closing) := by
    refine cleared.trans (State.travel_works free (by decide) fun inside => .inl ⟨?_, by decide⟩)
    rw [State.passage_setGate_same inside]
    exact state
  unfold State.commandClose
  split
  · split
    · exact cleared
    · exact cleared.push _
  · exact cleared
  · next state =>
    split
    · exact closes (by simp [state])
    · exact cleared
  all_goals next state => exact closes (by simp [state])

theorem State.stopGate_works : Works b s (s.stopGate k) := by
  unfold State.stopGate
  split
  · next travelling =>
    refine .push (.gate (fun inside => .inl (free inside)) fun inside => .inr (.inl ⟨fun closed => ?_, by simp⟩)) _
    simp [closed, GateState.travelling] at travelling
  · exact .gate (fun inside => .inl (free inside)) fun _ => .inl rfl

theorem State.orderOpen_works (id : Nat) : Works b s (s.orderOpen id k) := by
  unfold State.orderOpen
  split
  · exact .refl s
  · split
    · next may => exact State.commandOpen_works free false may
    · exact .gate (fun inside => .inl (free inside)) fun _ => .inl rfl

end

/-- A passage that is held has no pending order to try. -/
theorem State.retryOpen_works {s : State} (held : s.heldBut b) (k : Nat) : Works b s (s.retryOpen k) := by
  unfold State.retryOpen
  split
  · next due =>
    obtain ⟨order, may⟩ := Bool.and_eq_true_iff.1 due
    have free (inside : k < 4) : b k := (held k inside).resolve_right fun h => by simp [h.2] at order
    exact (Works.gate (fun inside => .inl (free inside)) fun _ => .inl rfl).trans
      (State.commandOpen_works free false
        ((State.mayOpen_setGate (f := fun g => { g with pendingOpen := none }) (fun _ => rfl) k k s).trans may))
  · exact .refl s

/-! ## What held passages stay (R41) -/

/-- Work leaves a passage that is not released held. -/
theorem Works.heldBut {s t : State} (h : Works b s t) (held : s.heldBut b) : t.heldBut b := by
  have sameGate {s t : State} (held : s.heldBut b) (mode : t.auth.mode = s.auth.mode)
      (gate : ∀ k, k < 4 → b k ∨ (t.passage k).gate = (s.passage k).gate) : t.heldBut b := fun k inside => by
    rcases held k inside with free | rest
    · exact .inl free
    · exact (gate k inside).imp_right fun same => by rw [mode, same]; exact rest
  have changed {s : State} (held : s.heldBut b) {k : Nat} {f : Passage → Passage}
      (gate : k < 4 → b k ∨ (f (s.passage k)).gate = (s.passage k).gate) : (s.setPassage k f).heldBut b := by
    refine sameGate held rfl fun j inside => ?_
    by_cases here : j = k
    · subst here
      rw [State.passage_setPassage_same inside]
      exact gate inside
    · exact .inr (by rw [State.passage_setPassage_other inside here])
  induction h with
  | beside passages _ _ _ mode =>
    rcases mode with mode | all
    · exact sameGate held mode fun k _ => .inr (by unfold State.passage; rw [passages])
    · exact fun k _ => .inl (all k)
  | alters s inside lawful rests => exact changed held fun _ => rests.imp_right And.left
  | claims s k => exact changed (s := s.setClaims _ _) held fun _ => .inr rfl
  | releases s k o => exact changed (s := s.setClaims _ _) held fun _ => .inr rfl
  | trans _ _ ih ih' => exact ih' (ih held)

/-! ## Operations and sluices (02 sections 2.3 and 2.4) -/

theorem State.freeAt.setOp {s : State} {k : Nat} (h : s.freeAt b k) {f : Op → Op} (phase : ∀ o, (f o).phase = o.phase) :
    (s.setOp k f).freeAt b k := by
  refine fun inside => (h inside).imp_right fun un o slot => ?_
  rw [State.passage_setOp_same inside] at slot
  obtain ⟨o', slot', rfl⟩ := Option.map_eq_some_iff.1 slot
  rw [phase]
  exact un o' slot'

/-- The capture of the end reading leaves an operation but for that reading. -/
def State.captured (s : State) (k : Nat) (o : Op) : Op :=
  if k = 0 ∧ o.startReading.isSome ∧ o.endReading.isNone then { o with endReading := some s.readingOne } else o

theorem State.captured_rest (s : State) (k : Nat) (o : Op) :
    (s.captured k o).phase = o.phase ∧ (s.captured k o).claimsHeld = o.claimsHeld := by
  unfold State.captured
  split <;> exact ⟨rfl, rfl⟩

theorem State.captureEnd_eq (k : Nat) (s : State) : s.captureEnd k = s.setOp k (s.captured k) := rfl

section
variable {s : State} {k : Nat}

theorem State.captureEnd_works (free : s.freeAt b k) : Works b s (s.captureEnd k) :=
  .op free fun o _ => (s.captured_rest k o).2

theorem State.captureEnd_freeAt (free : s.freeAt b k) : (s.captureEnd k).freeAt b k :=
  free.setOp fun o => (s.captured_rest k o).1

theorem State.closeOp_works {o : Op} (free : s.freeAt b k) (slot : (s.passage k).slot = some o) :
    Works b s (s.closeOp k o) := (Works.releases s k o slot free).then rfl rfl rfl rfl rfl

theorem State.endOp_works (free : s.freeAt b k) : Works b s (s.endOp k) := by
  simp only [State.endOp]
  split
  · exact .refl s
  · next o slot => exact (State.captureEnd_works free).trans (State.closeOp_works (State.captureEnd_freeAt free) slot)

theorem State.afterMove_works : Works b s (s.afterMove k) := by
  simp only [State.afterMove]
  split
  · next phase =>
    obtain ⟨o, slot, shutting⟩ := Option.map_eq_some_iff.1 phase
    split
    · exact State.endOp_works (State.freeAt_of_phase slot (by simp [shutting]))
    · exact .refl s
  · next phase =>
    obtain ⟨o, slot, ramping⟩ := Option.map_eq_some_iff.1 phase
    have free : s.freeAt b k := State.freeAt_of_phase slot (by simp [ramping])
    split
    · exact .tune free (fun _ => rfl) (fun _ => rfl) (fun _ => rfl)
    · exact .op free fun _ _ => rfl
  · exact .refl s

theorem State.finishMove_works (free : s.freeAt b k)
    (rest : k < 4 → (s.passage k).sluice.state = .shut → (s.passage k).sluice.position = 0 ∨ s.interlockOk k = true) :
    Works b s (s.finishMove k) := by
  refine ((Works.sluice free (fun _ c up => by simp [Sluice.arrived] at up) fun inside shut =>
    (rest inside shut).imp_left fun zero => ?_).push _).trans State.afterMove_works
  simp [Sluice.arrived, zero]

/-- A lowering move: of a sluice that is not SHUT, or under the interlock, and never up. -/
theorem State.lower_works {target : Nat} (free : s.freeAt b k) (low : k < 4 → target ≤ (s.passage k).sluice.position)
    (open' : k < 4 → (s.passage k).sluice.state ≠ .shut ∨ s.interlockOk k = true) : Works b s (s.lower k target) := by
  simp only [State.lower]
  split
  · exact .refl s
  · split
    · have cleared : Works b s (s.setSluice k (fun y => { y with rampTimer := none, stepHeld := false })) :=
        .tune free (fun _ => rfl) (fun _ => rfl) (fun _ => rfl)
      refine cleared.trans (State.finishMove_works (free.setSluice _) fun inside shut => .inr ?_)
      rw [State.passage_setSluice_same inside] at shut
      rw [State.interlockOk_setSluice (f := fun y => { y with rampTimer := none, stepHeld := false }) fun _ => rfl]
      exact (open' inside).resolve_left fun h => h shut
    · refine .push (.sluice free (fun inside c up rises => ?_) fun inside shut => .inr ((open' inside).resolve_left fun h => h shut)) _
      obtain rfl := Option.some.inj up
      exact absurd rises (Nat.not_lt.2 (low inside))

theorem State.lowerShut_works (free : s.freeAt b k) (open' : k < 4 → (s.passage k).sluice.state ≠ .shut) :
    Works b s (s.lower k 0) :=
  State.lower_works free (fun _ => Nat.zero_le _) fun inside => .inl (open' inside)

theorem State.lowerManual_works (free : s.freeAt b k) : Works b s (s.lowerManual k) := by
  simp only [State.lowerManual]
  split
  · exact .refl s
  · next notShut =>
    refine (Works.sluice free (fun _ c up low => .inl ⟨up, low, fun moving => by simp [moving]⟩)
      fun _ shut => absurd shut notShut).trans (State.lowerShut_works (free.setSluice _) fun inside => ?_)
    rw [State.passage_setSluice_same inside]
    simp only
    split
    · simp
    · exact notShut

theorem State.stepUp_works (free : s.freeAt b k) : Works b s (s.stepUp k) := by
  simp only [State.stepUp]
  split
  · split
    · next ok => exact .push (.sluice free (fun _ _ _ _ => .inr ⟨ok, rfl⟩) fun _ _ => .inr ok) _
    · exact .tune free (fun _ => rfl) (fun _ => rfl) (fun _ => rfl)
  · exact .refl s

theorem State.retryStep_works : Works b s (s.retryStep k) := by
  unfold State.retryStep
  split
  · next due =>
    obtain ⟨o, slot, ramping⟩ := Option.map_eq_some_iff.1 due.2
    exact State.stepUp_works (State.freeAt_of_phase slot (by simp [ramping]))
  · exact .refl s

theorem State.enterShutting_works (free : s.freeAt b k) : Works b s (s.enterShutting k) := by
  have entered : Works b s (s.setOp k (fun o => { o with phase := .shutting, stall := none })) := .op free fun _ _ => rfl
  have free' : (s.setOp k (fun o => { o with phase := .shutting, stall := none })).freeAt b k :=
    State.freeAt_setOp s fun _ _ => by simp
  simp only [State.enterShutting]
  split
  · exact entered.trans (State.endOp_works free')
  · next notShut => exact entered.trans (State.lowerShut_works free' fun _ => notShut)

theorem State.reachEqualised_works (free : s.freeAt b k) : Works b s (s.reachEqualised k) := by
  have reached : Works b s ((s.captureEnd k).setOp k (fun o => { o with phase := .equalised, timer := none, stall := none })) :=
    (State.captureEnd_works free).trans (.op (State.captureEnd_freeAt free) fun _ _ => rfl)
  simp only [State.reachEqualised]
  split
  · exact .refl s
  · exact (reached.pushAll _).when fun _ => State.enterShutting_works
      ((State.freeAt_setOp _ fun _ _ => by simp).of_slot fun _ => rfl)

/-! ## Creation and claims (R28 to R30) -/

theorem State.enterSlot_works {purpose : Purpose} {transit : Option Nat} {target : Nat} (slot : (s.passage k).slot = none) :
    Works b s (s.enterSlot k purpose transit target) := by
  have entered : Works b s (s.setPassage k (fun p => { p with slot := some (Op.fresh purpose transit target s.pcu.nextOrder) })) := by
    refine .alter (fun inside => ⟨fun opening => ⟨.inl opening, rfl⟩, fun c up low => .inl ⟨up, low, id⟩, .inl, ?_⟩)
      (fun inside => .inr ⟨rfl, fun o held => by cases slot.symm.trans held⟩)
    simp [Passage.holds, slot, Op.fresh]
  exact entered.then rfl rfl rfl rfl rfl

theorem State.createOp_works {purpose : Purpose} {transit : Option Nat} {target : Nat} (slot : (s.passage k).slot = none) :
    Works b s (s.createOp k purpose transit target) := by
  have made (inside : k < 4) : ((s.enterSlot k purpose transit target).passage k).slot
      = some (Op.fresh purpose transit target s.pcu.nextOrder) := by
    rw [State.passage, State.enterSlot, Quad.get_set_same _ _ inside]
  simp only [State.createOp]
  split
  · next free =>
    refine .push ((State.enterSlot_works slot).trans (.claims _ k (fun inside => by rw [made inside]; rfl) free
      fun inside => .inr fun o held => ?_)) _
    rw [made inside] at held
    cases held
    simp [Op.fresh]
  · exact State.enterSlot_works slot

theorem State.bestOf_mem {l : List (Nat × Op)} {x : Nat × Op} (h : s.bestOf l = some x) : x ∈ l := by
  induction l generalizing x with
  | nil => cases h
  | cons y rest ih =>
    unfold State.bestOf at h
    split at h
    · cases h
      exact List.mem_cons_self
    · next z best =>
      split at h <;> cases h
      · exact List.mem_cons_of_mem _ (ih best)
      · exact List.mem_cons_self

theorem State.candidate_some {released : List Nat} {x : Nat × Op} (h : s.candidate released k = some x) :
    x.1 = k ∧ (s.passage k).slot = some x.2 ∧ x.2.phase = .waiting ∧ x.2.claimsHeld = false
      ∧ ((s.chambersOf k).any fun c => released.contains c) = true ∧ s.unclaimed k = true := by
  unfold State.candidate at h
  split at h
  · next o slot =>
    split at h
    · next ok =>
      cases h
      exact ⟨rfl, slot, ok.1, by simpa using ok.2.1, ok.2.2.1, ok.2.2.2⟩
    · cases h
  · cases h

end

theorem State.arbitrate_works (released : List Nat) (fuel : Nat) (s : State) : Works b s (s.arbitrate released fuel) := by
  induction fuel generalizing s with
  | zero => exact .refl s
  | succ fuel ih =>
    unfold State.arbitrate
    split
    · exact .refl s
    · next k o best =>
      obtain ⟨j, -, found⟩ := List.mem_filterMap.1 (State.bestOf_mem best)
      obtain ⟨rfl, slot, waiting, -, -, free⟩ := State.candidate_some found
      refine (Works.claims s _ (fun _ => by rw [slot]; rfl) free fun _ => .inr fun o' slot' => ?_).push _ |>.trans (ih _)
      cases slot.symm.trans slot'
      simpa using waiting.trans_ne (by decide)

/-! ## Leaving WAITING (R31, R32) -/

section
variable {s : State} {k : Nat} {o : Op}

theorem State.captureStart_claimsHeld (s : State) (k : Nat) (o : Op) : (s.captureStart k o).claimsHeld = o.claimsHeld
    ∧ (s.captureStart k o).phase = o.phase := by
  unfold State.captureStart
  repeat' split
  all_goals exact ⟨rfl, rfl⟩

theorem State.startOp_works (slot : (s.passage k).slot = some o) (waiting : o.phase = .waiting)
    (may : s.mayStart k o = true) : Works b s (s.startOp k o) := by
  have free : s.freeAt b k := State.freeAt_of_phase slot (by simp [waiting])
  obtain ⟨⟨⟨-, interlock⟩, -⟩, -⟩ : ((_ ∧ s.interlockOk k = true) ∧ _) ∧ _ := by simpa [State.mayStart] using may
  have copied : Works b s (s.setSluice k (s.copySettings o)) := .tune free (fun _ => rfl) (fun _ => rfl) (fun _ => rfl)
  have held (o' : Op) (slot' : ((s.setSluice k (s.copySettings o)).passage k).slot = some o') : o' = o := by
    have same := State.read_setPassage (g := Passage.slot) (s := s) (k := k)
      (f := fun p => { p with sluice := s.copySettings o p.sluice }) (fun _ => rfl) k
    cases slot.symm.trans (same.symm.trans slot')
    rfl
  let start (o' : Op) : Op := { s.captureStart k o with stall := none, timer := seconds s.timing.eqLimit, highWater := false }
  have started : Works b s ((s.setSluice k (s.copySettings o)).setOp k start) :=
    copied.trans (.op (free.setSluice _) fun o' slot' => by
      rw [held o' slot']
      exact (s.captureStart_claimsHeld k o).1)
  have free' : ((s.setSluice k (s.copySettings o)).setOp k start).freeAt b k :=
    State.freeAt_setOp _ fun _ _ => by simp [start, (s.captureStart_claimsHeld k o).2, waiting]
  have phased (phase : OpPhase) (moving : phase ≠ .stalled) :
      Works b s (((s.setSluice k (s.copySettings o)).setOp k start).setOp k (fun y => { y with phase := phase }))
      ∧ (((s.setSluice k (s.copySettings o)).setOp k start).setOp k (fun y => { y with phase := phase })).freeAt b k :=
    ⟨started.trans (.op free' fun _ _ => rfl), State.freeAt_setOp _ fun _ _ => moving⟩
  simp only [State.startOp]
  split
  · exact started.trans (State.reachEqualised_works free')
  · split
    · exact (phased .ramping (by decide)).1.trans (State.stepUp_works (phased .ramping (by decide)).2)
    · next notBelow =>
      split
      · exact (phased .flowing (by decide)).1
      · refine (phased .flowing (by decide)).1.trans (State.lower_works (phased .flowing (by decide)).2
          (fun inside => ?_) fun inside => .inr ?_)
        · exact (Nat.le_of_not_lt notBelow).trans_eq
            (congrArg (fun p => p.sluice.position) (State.passage_setOp_same inside _ _)).symm
        · rw [State.interlockOk_setOp, State.interlockOk_setOp,
            State.interlockOk_setSluice (f := s.copySettings o) fun _ => rfl]
          exact interlock

theorem State.keepWaiting_works (free : s.freeAt b k) : Works b s (s.keepWaiting k o) :=
  Works.when (.op free fun _ _ => by rfl) fun _ => .raiseAll (.refl _) _

theorem State.examine_works : Works b s (s.examine k) := by
  unfold State.examine
  split
  · exact .refl s
  · next o slot =>
    split
    · next waits =>
      split
      · next may => exact State.startOp_works slot waits.1 may
      · exact State.keepWaiting_works (State.freeAt_of_phase slot (by simp [waits.1]))
    · exact .refl s

/-! ## EQUAL, abort, take-over, SAFE_HOLD -/

theorem State.takeEqual_works (held : s.heldBut b) : Works b s (s.takeEqual k) := by
  have reached : Works b s (match (s.passage k).slot.map Op.phase with
      | some .ramping => s.reachEqualised k
      | some .flowing => s.reachEqualised k
      | _ => s) := by
    split
    · next phase =>
      obtain ⟨o, slot, ramping⟩ := Option.map_eq_some_iff.1 phase
      exact State.reachEqualised_works (State.freeAt_of_phase slot (by simp [ramping]))
    · next phase =>
      obtain ⟨o, slot, flowing⟩ := Option.map_eq_some_iff.1 phase
      exact State.reachEqualised_works (State.freeAt_of_phase slot (by simp [flowing]))
    · exact .refl s
  exact reached.trans (State.retryOpen_works (reached.heldBut held) k)

theorem State.returnToWaiting_works (free : s.freeAt b k) : Works b s (s.returnToWaiting k) :=
  .push (.op free fun _ _ => by rfl) _

theorem State.neighbourChanged_works (held : s.heldBut b) : Works b s (s.neighbourChanged k) :=
  .push ((State.retryOpen_works held k).trans State.retryStep_works) _

theorem State.takePassageChanged_works (held : s.heldBut b) : Works b s (s.takePassageChanged k) :=
  .push (.each (State.heldBut b) (fun _ _ h => (State.neighbourChanged_works h).heldBut h)
    (fun _ _ h => State.neighbourChanged_works h) _ held) _

end

section
variable {s : State} {k : Nat} (all : ∀ k, b k)
include all

theorem State.freeAt_all (s : State) (k : Nat) : s.freeAt b k := fun _ => .inl (all k)

theorem State.freeSlot_works {o : Op} (slot : (s.passage k).slot = some o) (without : o.claimsHeld = false) :
    Works b s (s.freeSlot k) := by
  have freed := Works.releases s k o slot (State.freeAt_all all s k)
  rw [without] at freed
  exact freed.then rfl rfl rfl rfl rfl

theorem State.abortOp_works (id : Nat) : Works b s (s.abortOp id k) := by
  have cleared : Works b s (s.setGate k (fun g => if g.pendingOpen = some id then { g with pendingOpen := none } else g)) :=
    .gate (fun _ => .inl (all k)) fun _ => .inl (by split <;> rfl)
  unfold State.abortOp
  split
  · exact .refl s
  · next o slot =>
    split
    · simp only
      split
      · next waits =>
        refine cleared.trans (State.freeSlot_works all (o := o) ?_ (by simpa using waits.2))
        exact (State.read_setPassage (g := Passage.slot) (s := s) (fun _ => rfl) k).trans slot
      · exact ((cleared.trans (.tune (State.freeAt_all all _ k) (fun _ => by rfl) (fun _ => by rfl) (fun _ => by rfl))).trans
          (.op (State.freeAt_all all _ k) fun _ _ => by rfl)).trans (State.enterShutting_works (State.freeAt_all all _ k))
    · exact .refl s

theorem State.takeOver_works (target : Nat) (o : Op) : Works b s (s.takeOver k target o) := by
  exact .push ((((State.captureEnd_works (State.freeAt_all all s k)).pushAll _).trans
    (.tune (State.freeAt_all all _ k) (fun _ => by rfl) (fun _ => by rfl) (fun _ => by rfl))).trans
      (.op (State.freeAt_all all _ k) fun _ _ => by rfl)) _

theorem State.holdPassage_works : Works b s (s.holdPassage k) := by
  have stopped : Works b s (s.stopGate k) := State.stopGate_works fun _ => all k
  simp only [State.holdPassage]
  split
  · exact stopped
  · split
    · refine Works.when ((stopped.trans (.tune (State.freeAt_all all _ k) (fun _ => by rfl) (fun _ => by rfl)
        (fun _ => by rfl))).trans (.op (State.freeAt_all all _ k) fun _ _ => by rfl))
          fun notRest => State.lowerShut_works (State.freeAt_all all _ k) fun inside => ?_
      · rw [State.passage_setOp_same inside, State.passage_setSluice_same inside]
        simpa using (Bool.and_eq_true_iff.1 notRest).2
    · exact stopped

theorem State.pcuHold_works : Works b s s.pcuHold :=
  .each (fun _ => True) (fun _ _ _ => trivial) (fun _ _ _ => State.holdPassage_works all) _ trivial

theorem State.resumePassage_works : Works b s (s.resumePassage k) := by
  unfold State.resumePassage
  split
  · exact .refl s
  · split
    · exact State.returnToWaiting_works (State.freeAt_all all s k)
    · split
      · exact .push (.refl s) _
      · exact .refl s

theorem State.pcuResume_works : Works b s s.pcuResume :=
  .each (fun _ => True) (fun _ _ _ => trivial) (fun _ _ _ => State.resumePassage_works all) _ trivial

end

end
end Sys2Proof.Machine
end

