-- ==== Sys2Proof/Proofs/FollowingPassages.lean ====
section
/-! SUPPORT. The hand-overs of an event as lawful changes of the passages, and what the work that follows leaves at rest. -/

namespace Sys2Proof.Machine

/-! ## Work that leaves the passages alone -/

@[simp] theorem State.when_pcu (c : Bool) (f : State → State) (s : State) :
    (s.when c f).pcu = if c then (f s).pcu else s.pcu := by cases c <;> rfl

theorem State.each_pcu {α : Type} (l : List α) (f : α → State → State) (h : ∀ x s, (f x s).pcu = s.pcu) (s : State) :
    (s.each l f).pcu = s.pcu := by
  induction l generalizing s with
  | nil => rfl
  | cons x rest ih => exact (ih (f x s)).trans (h x s)

@[simp] theorem State.enterEqualise_pcu (id : Nat) (m : Move) (s : State) : (s.enterEqualise id m).pcu = s.pcu := by
  simp [State.enterEqualise]
@[simp] theorem State.requestCascade_pcu (id : Nat) (d : Direction) (l : List Nat) (s : State) :
    (s.requestCascade id d l).pcu = s.pcu := by
  cases l with
  | nil => rfl
  | cons k rest => simp [State.requestCascade]
@[simp] theorem State.formCascade_pcu (id : Nat) (d : Direction) (m : Move) (s : State) :
    (s.formCascade id d m).pcu = s.pcu := by
  unfold State.formCascade
  split <;> simp
@[simp] theorem State.leaveQueue_pcu (id : Nat) (c : EmptyCause) (s : State) : (s.leaveQueue id c).pcu = s.pcu := by
  simp [State.leaveQueue]
@[simp] theorem State.newHead_pcu (x : Option Nat) (s : State) : (s.newHead x).pcu = s.pcu := by simp [State.newHead]
@[simp] theorem State.startTransit_pcu (t : Transit) (s : State) : (s.startTransit t).pcu = s.pcu := by
  simp [State.startTransit]
@[simp] theorem State.takeExamineHead_pcu (s : State) : s.takeExamineHead.pcu = s.pcu := by
  unfold State.takeExamineHead
  repeat' split
  all_goals simp
@[simp] theorem State.beginMove_pcu (id : Nat) (l : List Nat) (m : Move) (s : State) : (s.beginMove id l m).pcu = s.pcu := rfl
@[simp] theorem State.goOn_pcu (t : Transit) (c : Nat) (s : State) : (s.goOn t c).pcu = s.pcu := by
  simp only [State.goOn]
  repeat' split
  all_goals simp
@[simp] theorem State.takeExamineNext_pcu (id : Nat) (s : State) : (s.takeExamineNext id).pcu = s.pcu := by
  unfold State.takeExamineNext
  repeat' split
  all_goals simp
@[simp] theorem State.takeReleased_pcu (c : Nat) (s : State) : (s.takeReleased c).pcu = s.pcu := by
  simp [State.takeReleased, State.each_pcu _ _ fun (b : Nat × Direction × Move) (x : State) => x.formCascade_pcu b.1 b.2.1 b.2.2]
@[simp] theorem State.takeSlotFree_pcu (k : Nat) (s : State) : (s.takeSlotFree k).pcu = s.pcu := by simp [State.takeSlotFree]
@[simp] theorem State.cascadeOn_pcu (t : Transit) (m : Move) (s : State) : (s.cascadeOn t m).pcu = s.pcu := by
  unfold State.cascadeOn
  repeat' split
  all_goals simp
@[simp] theorem State.cascadeBack_pcu (t : Transit) (m : Move) (k : Nat) (s : State) : (s.cascadeBack t m k).pcu = s.pcu := by
  unfold State.cascadeBack
  split <;> simp
@[simp] theorem State.enterAwait_pcu (t : Transit) (m : Move) (s : State) : (s.enterAwait t m).pcu = s.pcu := rfl
@[simp] theorem State.endMove_pcu (t : Transit) (m : Move) (l : List Nat) (s : State) : (s.endMove t m l).pcu = s.pcu := rfl
@[simp] theorem State.moveClosed_pcu (t : Transit) (m : Move) (s : State) : (s.moveClosed t m).pcu = s.pcu := by
  unfold State.moveClosed
  split <;> rfl
@[simp] theorem State.takeAccountEvent_pcu (n : Nat) (s : State) : (s.takeAccountEvent n).pcu = s.pcu := by
  simp [State.takeAccountEvent]
@[simp] theorem State.freeVessel_pcu (m : Mark) (s : State) : (s.freeVessel m).pcu = s.pcu := rfl
@[simp] theorem State.callVessel_pcu (id : Nat) (v : Vessel) (n : Nat) (s : State) : (s.callVessel id v n).pcu = s.pcu := by
  simp [State.callVessel, State.dequeue]
@[simp] theorem State.createTransit_pcu (d : Direction) (o : Origin) (l : List (Vessel × Nat)) (s : State) :
    (s.createTransit d o l).pcu = s.pcu := by
  simp only [State.createTransit, State.newHead_pcu, State.raise_pcu]
  exact State.each_pcu l (fun b => State.callVessel (s.nextId 9 s.arb.lastId) b.1 b.2) (fun _ _ => State.callVessel_pcu _ _ _ _) _
@[simp] theorem State.callFrom_pcu (d : Direction) (v : Vessel) (s : State) : (s.callFrom d v).pcu = s.pcu := by
  simp [State.callFrom, State.each_pcu _ _ fun m (x : State) => State.setVessel_pcu m _ x]
@[simp] theorem State.passes_pcu (fuel : Nat) (s : State) : (s.passes fuel).pcu = s.pcu := by
  induction fuel generalizing s with
  | zero => rfl
  | succ fuel ih =>
    unfold State.passes
    repeat' split
    all_goals simp [ih]
@[simp] theorem State.takeCalling_pcu (s : State) : s.takeCalling.pcu = s.pcu := by
  unfold State.takeCalling
  repeat' split
  all_goals simp
@[simp] theorem State.reformIdle_pcu (s : State) : s.reformIdle.pcu = s.pcu := by simp [State.reformIdle]
@[simp] theorem State.blockNotService_pcu (s : State) : s.blockNotService.pcu = s.pcu := by
  unfold State.blockNotService
  split <;> rfl

/-! ## Hand-overs as changes of the passages -/

section
variable {b : Nat → Prop} {s t : State}

/-- Work that leaves the PCU and the core. -/
theorem Works.of_core (core : t.core = s.core) (pcu : t.pcu = s.pcu) : Works b s t :=
  .beside (congrArg Pcu.passages pcu) (congrArg Pcu.claims pcu) (State.flight_of_core core) (State.lm_of_core core)
    (.inl (congrArg Authority.mode (State.auth_of_core core)))

theorem Works.of_outer (outer : t.outer = s.outer) (pcu : t.pcu = s.pcu) : Works b s t :=
  .of_core (State.core_of_outer outer) pcu

theorem State.reportClosed_works (id k : Nat) : Works b s (s.reportClosed id k) := by
  unfold State.reportClosed
  split
  · next o slot =>
    refine Works.when (.refl s) fun wanted => State.enterShutting_works (State.freeAt_of_phase slot ?_)
    simp only [Bool.and_eq_true, decide_eq_true_eq] at wanted
    simp [wanted.1.2]
  · exact .refl s

theorem State.gateClosed_works (t : Transit) (m : Move) : Works b s (s.gateClosed t m) := by
  unfold State.gateClosed
  split
  · exact (State.reportClosed_works _ _).trans (.of_outer (State.moveClosed_outer _ _ _) (State.moveClosed_pcu _ _ _))
  · exact State.reportClosed_works _ _
  · exact State.reportClosed_works _ _
  all_goals exact .refl s

theorem State.takeGateEnd_works (k : Nat) : Works b s (s.takeGateEnd k) := by
  unfold State.takeGateEnd
  split
  · exact .refl s
  · split
    · split
      · exact .of_outer (State.enterAwait_outer _ _ _) rfl
      · exact .refl s
    · exact State.gateClosed_works _ _
    all_goals exact .refl s

section
variable (held : s.heldBut b)
include held

/-- In SERVICE every passage is released. -/
theorem State.heldBut.released (service : s.auth.mode = .service) {k : Nat} (inside : k < 4) : b k :=
  (held k inside).resolve_right fun h => h.1 service

theorem State.takeReport_works (r : Report) : Works b s (s.takeReport r) := by
  have noted (t : Transit) : Works b s (s.setTransit t.id (Transit.takeReport r)) := .setTransit (.refl s) _ _
  unfold State.takeReport
  split
  · next t _ =>
    split
    · split
      · next m _ =>
        refine (noted t).trans ?_
        unfold State.reportMove
        split
        · split
          · next wanted =>
            have service : s.auth.mode = .service := of_decide_eq_true wanted.2.2.2
            exact (Works.setMove (.refl _) _ _).trans (State.orderOpen_works (fun inside => held.released service inside) _)
          · exact .refl _
        · split
          · exact .refl _
          · exact .of_outer (State.cascadeOn_outer _ _ _) (State.cascadeOn_pcu _ _ _)
        all_goals
          split
          · exact .refl _
          · exact .of_outer (State.cascadeBack_outer _ _ _ _) (State.cascadeBack_pcu _ _ _ _)
      · exact noted t
    · exact .refl s
  · exact .refl s

omit held in
theorem State.takeRequestOp_works (id k : Nat) (purpose : Purpose) : Works b s (s.takeRequestOp id k purpose) := by
  unfold State.takeRequestOp
  split
  · split
    · split
      · split
        · next slot =>
          exact (Works.setTransit (.refl s) _ _).trans (State.createOp_works (by simpa using slot))
        · exact .setMove (.mark (fun _ => by rfl) (fun _ => by rfl) (fun _ => by rfl) (fun _ => by rfl)) _ _
      · exact .refl s
    · exact .refl s
  · exact .refl s

theorem State.take_works (x : Task) : Works b s (s.take x) := by
  cases x with
  | equalTrue k => exact State.takeEqual_works held
  | examine k => exact State.examine_works
  | passageChanged k => exact State.takePassageChanged_works held
  | arbitrate l => exact State.arbitrate_works l 3 s
  | report r => exact State.takeReport_works held r
  | slotFree k => exact .of_outer (State.take_outer (.slotFree k) s) (State.takeSlotFree_pcu k s)
  | request id k purpose => exact State.takeRequestOp_works id k purpose
  | gateEnd k => exact State.takeGateEnd_works k
  | examineHead => exact .of_outer (State.take_outer .examineHead s) (State.takeExamineHead_pcu s)
  | examineNext id => exact .of_outer (State.take_outer (.examineNext id) s) (State.takeExamineNext_pcu id s)
  | released c => exact .of_outer (State.take_outer (.released c) s) (State.takeReleased_pcu c s)
  | accountEvent n => exact .of_outer (State.take_outer (.accountEvent n) s) (State.takeAccountEvent_pcu n s)

theorem State.drain_works (fuel : Nat) : Works b s (s.drain fuel) := by
  induction fuel generalizing s with
  | zero => exact .refl s
  | succ fuel ih =>
    have next {u : State} (h : Works b s u) : Works b s (u.drain fuel) := h.trans (ih (h.heldBut held))
    unfold State.drain
    split
    · next x rest _ =>
      have taken : Works b s { s with agenda := rest } := .beside rfl rfl rfl rfl (.inl rfl)
      exact next (taken.trans (State.take_works (taken.heldBut held) x))
    · split
      · have taken : Works b s { s with callDue := false } := .beside rfl rfl rfl rfl (.inl rfl)
        exact next (taken.trans (.of_outer (State.takeCalling_outer _) (State.takeCalling_pcu _)))
      · exact .refl s

theorem State.settle_works : Works b s s.settle :=
  (State.drain_works held drainFuel).trans (.of_outer
    (((s.drain drainFuel).deriveAspects.reformIdle_outer).trans (State.deriveAspects_outer _)) (State.reformIdle_pcu _))

end

/-- The work that follows leaves at rest a passage that is held: its gate, and its operation and sluice where that is STALLED. -/
theorem Works.rests {j : Nat} (h : Works (· ≠ j) s t) (inside : j < 4) : (s.passage j).rests (t.passage j) := by
  have changed {s : State} {k : Nat} {f : Passage → Passage} (rest : k = j → (s.passage k).rests (f (s.passage k))) :
      (s.passage j).rests ((s.setPassage k f).passage j) := by
    by_cases here : j = k
    · subst here
      rw [State.passage_setPassage_same inside]
      exact rest rfl
    · rw [State.passage_setPassage_other inside here]
      exact ⟨rfl, fun o slot _ => ⟨slot, rfl⟩⟩
  have freed {p q : Passage} (un : p.unstalled) (gate : q.gate = p.gate) : p.rests q :=
    ⟨gate, fun o slot stalled => absurd stalled (un o slot)⟩
  induction h with
  | beside passages =>
    rw [State.passage, State.passage, passages]
    exact ⟨rfl, fun o slot _ => ⟨slot, rfl⟩⟩
  | alters s _ _ rests => exact changed fun here => rests.resolve_left fun h => h here
  | claims s k _ _ rests =>
    exact changed (s := s.setClaims _ _) fun here => freed ((rests (here ▸ inside)).resolve_left fun h => h here) rfl
  | releases s k o _ rests =>
    exact changed (s := s.setClaims _ _) fun here => freed ((rests (here ▸ inside)).resolve_left fun h => h here) rfl
  | trans _ _ ih ih' =>
    refine ⟨ih'.1.trans ih.1, fun o slot stalled => ?_⟩
    obtain ⟨slot', sluice⟩ := ih.2 o slot stalled
    obtain ⟨slot'', sluice'⟩ := ih'.2 o slot' stalled
    exact ⟨slot'', sluice'.trans sluice⟩

end
end Sys2Proof.Machine
end

