-- ==== Sys2Proof/Proofs/SafeHold.lean ====
section
/-! SUPPORT. The entry into SAFE_HOLD by every cause, and what it makes of each passage by the end of its event. Settles O8, O9, O20, O41. -/

namespace Sys2Proof.Machine

/-! ## Other passages -/

section
variable {j k : Nat} (inside : j < 4) (apart : j ≠ k)
include inside apart

theorem State.passage_setGate_other (f : Gate → Gate) (s : State) : (s.setGate k f).passage j = s.passage j :=
  State.passage_setPassage_other inside apart _ s

theorem State.passage_setSluice_other (f : Sluice → Sluice) (s : State) : (s.setSluice k f).passage j = s.passage j :=
  State.passage_setPassage_other inside apart _ s

theorem State.passage_setOp_other (f : Op → Op) (s : State) : (s.setOp k f).passage j = s.passage j :=
  State.passage_setPassage_other inside apart _ s

theorem State.passage_closeOp_other (o : Op) (s : State) : (s.closeOp k o).passage j = s.passage j := by
  simp only [State.closeOp, State.freeSlot, State.passage_push, State.passage_pushAll,
    State.passage_setPassage_other inside apart]
  rfl

theorem State.passage_endOp_other (s : State) : (s.endOp k).passage j = s.passage j := by
  simp only [State.endOp]
  split
  · rfl
  · exact (State.passage_closeOp_other inside apart _ _).trans (State.passage_setOp_other inside apart _ s)

theorem State.passage_afterMove_other (s : State) : (s.afterMove k).passage j = s.passage j := by
  simp only [State.afterMove]
  repeat' split
  · exact State.passage_endOp_other inside apart s
  · rfl
  · exact State.passage_setSluice_other inside apart _ s
  · exact State.passage_setOp_other inside apart _ s
  · rfl

theorem State.passage_lower_other (target : Nat) (s : State) : (s.lower k target).passage j = s.passage j := by
  simp only [State.lower]
  repeat' split
  · rfl
  · simp only [State.finishMove, State.passage_afterMove_other inside apart, State.passage_push,
      State.passage_setSluice_other inside apart]
  · simp only [State.passage_push, State.passage_setSluice_other inside apart]

theorem State.passage_stopGate_other (s : State) : (s.stopGate k).passage j = s.passage j := by
  unfold State.stopGate
  split <;> simp only [State.passage_push, State.passage_setGate_other inside apart]

theorem State.passage_holdPassage_other (s : State) : (s.holdPassage k).passage j = s.passage j := by
  simp only [State.holdPassage, State.when]
  repeat' split
  all_goals simp only [State.passage_lower_other inside apart, State.passage_setOp_other inside apart,
    State.passage_setSluice_other inside apart, State.passage_stopGate_other inside apart]

end

/-! ## What SAFE_HOLD entry does to one passage (R41) -/

/-- The operation runs, or is stalled by TIMEOUT. -/
def Op.running (o : Op) : Prop := o.phase = .ramping ∨ o.phase = .flowing ∨ (o.phase = .stalled ∧ o.stall = some .timeout)

/-- The gate of a passage that SAFE_HOLD holds: a travel stopped, the pending order gone (R41). -/
def State.gateHeld (s : State) (k : Nat) : State :=
  if (s.passage k).gate.state = .opening ∨ (s.passage k).gate.state = .closing then
    State.push (.passageChanged k) (State.setGate k (fun x =>
      { x with state := .stopped, drive := .off, timer := none, pendingOpen := none }) s)
  else State.setGate k (fun x => { x with pendingOpen := none }) s

/-- The operation of a held passage STALLED with HOLD, its timers stopped (R41). -/
def State.opHeld (k : Nat) (o : Op) (s : State) : State :=
  State.setPassage k (fun p => { p with
    slot := some { o with phase := .stalled, stall := some .hold, timer := none }
    sluice := { p.sluice with rampTimer := none } }) s

theorem State.stopGate_eq (k : Nat) (s : State) : s.stopGate k = s.gateHeld k := by
  unfold State.stopGate State.gateHeld
  simp only [GateState.travelling, Bool.or_eq_true, decide_eq_true_eq]

section
variable {s : State} {k : Nat} (inside : k < 4)
include inside

theorem State.setPassage_setPassage (f g : Passage → Passage) (s : State) :
    (s.setPassage k f).setPassage k g = s.setPassage k (fun p => g (f p)) := by
  have twice (x y : Passage) : (s.pcu.passages.set k x).set k y = s.pcu.passages.set k y := by
    match k, inside with
    | 0, _ | 1, _ | 2, _ | 3, _ => rfl
  simp only [State.setPassage, State.passage, Quad.get_set_same _ _ inside, twice]

theorem State.gateHeld_passage : ((s.gateHeld k).passage k).slot = (s.passage k).slot
    ∧ ((s.gateHeld k).passage k).sluice = (s.passage k).sluice
    ∧ ((s.gateHeld k).passage k).gate = (if (s.passage k).gate.state.travelling
        then { (s.passage k).gate with state := .stopped, drive := .off, timer := none, pendingOpen := none }
        else { (s.passage k).gate with pendingOpen := none }) := by
  simp only [State.gateHeld, GateState.travelling, Bool.or_eq_true, decide_eq_true_eq]
  split <;> simp only [State.passage_push, State.passage_setGate_same inside, and_self]

theorem State.holdPassage_free (slot : (s.passage k).slot = none) : s.holdPassage k = s.gateHeld k := by
  have slot' := (State.gateHeld_passage inside (s := s)).1.trans slot
  simp only [State.holdPassage, State.stopGate_eq, slot']

theorem State.holdPassage_still {o : Op} (slot : (s.passage k).slot = some o) (still : ¬ o.running) :
    s.holdPassage k = s.gateHeld k := by
  have slot' := (State.gateHeld_passage inside (s := s)).1.trans slot
  simp only [State.holdPassage, State.stopGate_eq, slot']
  exact if_neg still

theorem State.holdPassage_running {o : Op} (slot : (s.passage k).slot = some o) (running : o.running) :
    s.holdPassage k = ((s.gateHeld k).opHeld k o).when
      (!decide ((s.passage k).sluice.state = .fault) && !decide ((s.passage k).sluice.state = .shut)) (State.lower k 0) := by
  obtain ⟨slot', sluice', -⟩ := State.gateHeld_passage inside (s := s)
  have stalled : ((s.gateHeld k).setSluice k (fun x => { x with rampTimer := none })).setOp k
      (fun y => { y with phase := .stalled, stall := some .hold, timer := none }) = (s.gateHeld k).opHeld k o := by
    refine (State.setPassage_setPassage inside _ _ _).trans ?_
    have value : (s.gateHeld k).passage k = { (s.gateHeld k).passage k with slot := some o } := by rw [← slot, ← slot']
    simp only [State.opHeld, State.setPassage]
    rw [value]
    rfl
  simp only [State.holdPassage, State.stopGate_eq, slot'.trans slot, sluice']
  exact (if_pos running).trans (by rw [stalled])

/-- What the lowering of a STALLED operation's sluice leaves of its passage. -/
theorem State.lower_stalled {o : Op} (slot : (s.passage k).slot = some o) (stalled : o.phase = .stalled) :
    ((s.lower k 0).passage k).gate = (s.passage k).gate ∧ ((s.lower k 0).passage k).slot = some o
      ∧ ((s.passage k).sluice.state = .moving ∨ (s.passage k).sluice.state = .set ∧ (s.passage k).sluice.position ≠ 0 →
        ((s.lower k 0).passage k).sluice = { (s.passage k).sluice with
          state := .moving, commanded := some 0, rampTimer := none, driven := true, stepHeld := false
          moveTimer := some ((s.passage k).sluice.moveLimit * 1000) }) := by
  simp only [State.lower]
  split
  · next fault => exact ⟨rfl, slot, fun h => by simp [fault] at h⟩
  · split
    · next rest =>
      have arrived (f g : Sluice → Sluice) : (((s.setSluice k f).setSluice k g).push (.passageChanged k)).afterMove k
          = ((s.setSluice k f).setSluice k g).push (.passageChanged k) := by
        have slot' : ((((s.setSluice k f).setSluice k g).push (.passageChanged k)).passage k).slot = some o := by
          rw [State.passage_push, State.passage_setSluice_same inside, State.passage_setSluice_same inside]
          exact slot
        simp only [State.afterMove, slot', Option.map_some, stalled]
      rw [State.finishMove, arrived, State.passage_push, State.passage_setSluice_same inside,
        State.passage_setSluice_same inside]
      refine ⟨rfl, slot, fun h => ?_⟩
      rcases h with moving | ⟨-, away⟩
      · exact absurd moving rest.1
      · exact absurd rest.2 away
    · rw [State.passage_push, State.passage_setSluice_same inside]
      exact ⟨rfl, slot, fun _ => rfl⟩

/-- Entering SAFE_HOLD leaves a passage held, with no pending order. -/
theorem State.holdPassage_heldAs : (s.passage k).heldAs ((s.holdPassage k).passage k)
    ∧ ((s.holdPassage k).passage k).gate.pendingOpen = none := by
  obtain ⟨slot', sluice', gate'⟩ := State.gateHeld_passage inside (s := s)
  have noOrder : ((s.gateHeld k).passage k).gate.pendingOpen = none := by
    rw [gate']
    split <;> rfl
  cases slot : (s.passage k).slot with
  | none =>
    rw [State.holdPassage_free inside slot]
    exact ⟨⟨gate', fun o held => by cases slot.symm.trans held⟩, noOrder⟩
  | some o =>
    by_cases running : o.running
    · rw [State.holdPassage_running inside slot running]
      have stalledAt : ((s.gateHeld k).opHeld k o).passage k = { (s.gateHeld k).passage k with
          slot := some { o with phase := .stalled, stall := some .hold, timer := none }
          sluice := { (s.passage k).sluice with rampTimer := none } } := by
        rw [State.opHeld, State.passage_setPassage_same inside, sluice']
      have held {q : Passage} (gate : q.gate = ((s.gateHeld k).passage k).gate)
          (op : q.slot = some { o with phase := .stalled, stall := some .hold, timer := none })
          (rest : (s.passage k).sluice.state = .fault ∨ (s.passage k).sluice.state = .shut →
            q.sluice = { (s.passage k).sluice with rampTimer := none })
          (lowered : (s.passage k).sluice.state = .moving ∨ (s.passage k).sluice.state = .set ∧ (s.passage k).sluice.position ≠ 0 →
            q.sluice = { (s.passage k).sluice with
              state := .moving, commanded := some 0, rampTimer := none, driven := true, stepHeld := false
              moveTimer := some ((s.passage k).sluice.moveLimit * 1000) }) :
          (s.passage k).heldAs q ∧ q.gate.pendingOpen = none := by
        refine ⟨⟨gate.trans gate', fun o' slot'' _ => ?_⟩, gate ▸ noOrder⟩
        cases slot.symm.trans slot''
        exact ⟨op, rest, lowered⟩
      unfold State.when
      split
      · next notRest =>
        simp only [Bool.and_eq_true, Bool.not_eq_true', decide_eq_false_iff_not] at notRest
        obtain ⟨gate, op, lowered⟩ := State.lower_stalled (s := (s.gateHeld k).opHeld k o) inside (by rw [stalledAt]) rfl
        rw [stalledAt] at gate lowered
        exact held gate op (fun h => (h.elim notRest.1 notRest.2).elim) lowered
      · next rest =>
        rw [stalledAt]
        refine held rfl rfl (fun _ => rfl) fun h => absurd ?_ rest
        rcases h with moving | ⟨set, -⟩
        · simp [moving]
        · simp [set]
    · rw [State.holdPassage_still inside slot running]
      refine ⟨⟨gate', fun o' held run => ?_⟩, noOrder⟩
      cases slot.symm.trans held
      exact absurd run running

end
/-! ## Every passage in use, and the end of the event -/

theorem State.passage_eachHold_other {j : Nat} (inside : j < 4) {l : List Nat} (absent : j ∉ l) (s : State) :
    (s.each l State.holdPassage).passage j = s.passage j := by
  induction l generalizing s with
  | nil => rfl
  | cons k rest ih =>
    obtain ⟨apart, absent'⟩ := not_or.1 fun h => absent (List.mem_cons.2 h)
    exact (ih absent' (s.holdPassage k)).trans (State.passage_holdPassage_other inside apart s)

theorem State.eachHold_heldAs {j : Nat} (inside : j < 4) {l : List Nat} (once : l.Nodup) (mem : j ∈ l) (s : State) :
    (s.passage j).heldAs ((s.each l State.holdPassage).passage j)
      ∧ ((s.each l State.holdPassage).passage j).gate.pendingOpen = none := by
  induction l generalizing s with
  | nil => cases mem
  | cons k rest ih =>
    obtain ⟨absent, once'⟩ := List.nodup_cons.1 once
    change (s.passage j).heldAs (((s.holdPassage k).each rest State.holdPassage).passage j)
      ∧ (((s.holdPassage k).each rest State.holdPassage).passage j).gate.pendingOpen = none
    by_cases here : j = k
    · subst here
      rw [State.passage_eachHold_other inside absent]
      exact State.holdPassage_heldAs inside
    · rw [← State.passage_holdPassage_other inside here s]
      exact ih once' ((List.mem_cons.1 mem).resolve_left here) _

/-- A passage that SAFE_HOLD holds stays as held where it is left at rest. -/
theorem Passage.heldAs.rests {p q r : Passage} (h : p.heldAs q) (rest : q.rests r) : p.heldAs r := by
  obtain ⟨gate, op⟩ := h
  refine ⟨rest.1.trans gate, fun o slot running => ?_⟩
  obtain ⟨slot', still, lowered⟩ := op o slot running
  obtain ⟨slot'', sluice⟩ := rest.2 _ slot' rfl
  exact ⟨slot'', fun h => sluice.trans (still h), fun h => sluice.trans (lowered h)⟩

/-- By the end of its event SAFE_HOLD entry has left every passage in use held (R41). -/
theorem State.enterSafeHold_heldAs {s : State} {c : HoldCause} (outside : s.auth.mode ≠ .safeHold) {j : Nat}
    (used : j ≤ s.count) (inside : j < 4) : (s.passage j).heldAs ((s.enterSafeHold c).settle.passage j) := by
  have entered : (s.enterSafeHold c).passage j = ((s.setMode .safeHold (some c)).pcuHold).passage j := by
    unfold State.enterSafeHold State.passage
    rw [if_neg outside]
    simp only [State.holdBlocks, State.raise_pcu, State.deriveAspects_pcu, State.blockNotService_pcu]
    rfl
  have used' : j ∈ (s.setMode .safeHold (some c)).passagesInUse := List.mem_range.2 (Nat.lt_succ_of_le used)
  obtain ⟨held, order⟩ := State.eachHold_heldAs inside List.nodup_range used' (s.setMode .safeHold (some c))
  have mode : (s.enterSafeHold c).auth.mode = .safeHold := by
    rw [State.enterSafeHold_auth, Authority.held, if_neg outside]
  have rest : (s.enterSafeHold c).heldBut (· ≠ j) := fun k _ => by
    by_cases here : k = j
    · subst here
      exact .inr ⟨by simp [mode], by rw [entered]; exact order⟩
    · exact .inl here
  exact (show (s.passage j).heldAs ((s.enterSafeHold c).passage j) by rw [entered]; exact held).rests
    ((State.settle_works rest).rests inside)

/-! ## The outer parts at the end of an event -/

theorem State.steady_of_outer {s t : State} (h : t.outer = s.outer) : t.steady = s.steady := by
  simp only [State.steady, h]

@[simp] theorem State.steady_pump (s : State) : s.pump.steady = s.steady := rfl

@[simp] theorem State.steady_finish (s : State) : s.finish.steady = s.steady :=
  (State.steady_pump s.settle).trans (State.steady_of_outer s.settle_outer)

theorem State.steady_enterSafeHold (c : HoldCause) (s : State) :
    (s.enterSafeHold c).steady = { s.steady with auth := s.auth.held c } := by
  simp only [State.steady, State.enterSafeHold_outer]

theorem Port.quiet_pump (p : Port) : p.pump.quiet = p.quiet := by
  unfold Port.pump
  split
  · next f _ _ => cases f <;> rfl
  · rfl

theorem Port.quiet_of_outer {p q : Port} (h : p.outer.1 = q.outer.1) : p.quiet = q.quiet := (congrArg Port.quiet h : _)

theorem State.quietPorts_of_outer {s t : State} (console : t.outer.console = s.outer.console)
    (region : t.outer.region = s.outer.region) (toll : t.outer.tollPort = s.outer.tollPort) : t.quietPorts = s.quietPorts := by
  have a := Port.quiet_of_outer (congrArg Prod.fst console : t.ports.console.outer.1 = s.ports.console.outer.1)
  have b := Port.quiet_of_outer (congrArg Prod.fst region : t.ports.region.outer.1 = s.ports.region.outer.1)
  have c := Port.quiet_of_outer (congrArg Prod.fst toll : t.ports.toll.outer.1 = s.ports.toll.outer.1)
  simp only [State.quietPorts, Ports.map, a, b, c]

@[simp] theorem State.quietPorts_pump (s : State) : s.pump.quietPorts = s.quietPorts := by
  simp only [State.quietPorts, State.pump, Ports.map, Port.quiet_pump]

@[simp] theorem State.quietPorts_finish (s : State) : s.finish.quietPorts = s.quietPorts :=
  (State.quietPorts_pump s.settle).trans (State.quietPorts_of_outer (by rw [s.settle_outer]) (by rw [s.settle_outer])
    (by rw [s.settle_outer]))

@[simp] theorem State.quietPorts_enterSafeHold (c : HoldCause) (s : State) : (s.enterSafeHold c).quietPorts = s.quietPorts :=
  State.quietPorts_of_outer (by rw [State.enterSafeHold_outer]) (by rw [State.enterSafeHold_outer])
    (by rw [State.enterSafeHold_outer])

@[simp] theorem State.quietPorts_raise (n : Notice) (s : State) : (s.raise n).quietPorts = s.quietPorts :=
  State.quietPorts_of_outer (by rw [State.raise_outer]) (by rw [State.raise_outer]) (by rw [State.raise_outer])

/-! ## ESTOP (R175) -/

theorem Authority.held_outside {a : Authority} {c : HoldCause} (h : a.mode ≠ .safeHold) :
    a.held c = { a with mode := .safeHold, holdCause := some c } := if_neg h

/-- The authority records that SAFE_HOLD entry leaves, whether it stands or not. -/
theorem Authority.held_eq (a : Authority) (c : HoldCause) : a.held c =
    { a with mode := .safeHold, holdCause := if a.mode = .safeHold then a.holdCause else some c } := by
  unfold Authority.held
  split
  · next mode => rw [← mode]
  · rfl

/-- Settles O8: by the case of SAFE_HOLD entry, of what a passage's slot holds, and of the ESTOP level last read. -/
theorem estopInput : Obligations.EstopInput := by
  refine ⟨fun s c => ⟨fun stands => if_pos stands, fun outside => ?_⟩, fun s k inside => ⟨?_, fun o slot => ⟨?_, ?_, ?_⟩⟩,
    fun s running => ⟨fun released => ?_, fun asserted => ?_⟩⟩
  · have paused (t : Transit) : t.pauseOverdue = { t with overdue := match t.overdue with
        | .running limit left => .paused limit left
        | .stopped => .stopped
        | .paused limit left => .paused limit left } := by
      unfold Transit.pauseOverdue
      cases overdue : t.overdue <;> simp [← overdue]
    have blocked (u : State) : u.blockNotService
        = { u with arb := { u.arb with reason := if u.arb.reason = .autoOff then .autoOff else .notService } } := by
      unfold State.blockNotService
      split
      · next auto => rw [← auto]
      · rfl
    intro held
    refine (if_neg outside).trans ?_
    have frame : held.arb = s.arb ∧ held.table = s.table := by
      have same := State.pcuHold_besidePcu (s.setMode .safeHold (some c))
      exact ⟨State.arb_of_besidePcu (s := s.setMode .safeHold (some c)) same,
        State.table_of_besidePcu (s := s.setMode .safeHold (some c)) same⟩
    rw [State.holdBlocks, blocked, State.seqHold, funext paused, show (s.setMode .safeHold (some c)).pcuHold = held from rfl,
      frame.1, frame.2] <;> rfl
  · exact State.holdPassage_free inside
  · intro running rest
    refine (State.holdPassage_running inside slot running).trans ?_
    rw [show (!decide ((s.passage k).sluice.state = .fault) && !decide ((s.passage k).sluice.state = .shut)) = false by
      rcases rest with h | h <;> simp [h]]
    rfl
  · intro running notFault notShut
    refine (State.holdPassage_running inside slot running).trans ?_
    rw [show (!decide ((s.passage k).sluice.state = .fault) && !decide ((s.passage k).sluice.state = .shut)) = true by
      simp [notFault, notShut]]
    rfl
  · exact fun still => State.holdPassage_still inside slot still
  · let noted := (s.setEstopPin true).setEstop true
    have taken : exec .estopAsserted s = .next (noted.enterSafeHold .estop).finish :=
      congrArg Host.Outcome.next ((State.event_running (s := s.setEstopPin true) _ running).trans
        (congrArg State.finish (if_neg (by simp [State.setEstopPin, released]))))
    refine ⟨_, taken, ?_, ?_, fun outside k used inside =>
      State.enterSafeHold_heldAs (s := noted) outside used inside⟩
    · rw [State.steady_finish, State.steady_enterSafeHold, Authority.held_eq]
      rfl
    · rw [State.quietPorts_finish, State.quietPorts_enterSafeHold]
      rfl
  · have taken : exec .estopReleased s = .next (((s.setEstopPin false).setEstop false).raise .estopReleased).finish :=
      congrArg Host.Outcome.next ((State.event_running (s := s.setEstopPin false) _ running).trans
        (congrArg State.finish (if_pos asserted)))
    refine ⟨_, taken, ?_, ?_⟩
    · rw [State.steady_finish, State.steady_of_outer (State.raise_outer _ _)]
      rfl
    · rw [State.quietPorts_finish, State.quietPorts_raise]
      rfl

/-! ## Device faults (R23, R27) -/

/-- The end of an event in which a passage's records are changed and SAFE_HOLD is entered. -/
theorem State.holds_after {s u : State} {c : HoldCause} (outer : u.outer = s.outer) (outside : s.auth.mode ≠ .safeHold) :
    (u.enterSafeHold c).finish.steady = { s.steady with auth := { s.auth with mode := .safeHold, holdCause := some c } }
      ∧ (u.enterSafeHold c).finish.quietPorts = s.quietPorts
      ∧ ∀ j, j ≤ s.count → j < 4 → (u.passage j).heldAs ((u.enterSafeHold c).finish.passage j) := by
  have auth : u.auth = s.auth := (congrArg Outer.auth outer : _)
  have flight : u.flight = s.flight := (congrArg Outer.flight outer : _)
  refine ⟨?_, ?_, fun j used inside => ?_⟩
  · rw [State.steady_finish, State.steady_enterSafeHold, State.steady_of_outer outer, auth, Authority.held_outside outside]
  · rw [State.quietPorts_finish, State.quietPorts_enterSafeHold,
      State.quietPorts_of_outer (s := s) (by rw [outer]) (by rw [outer]) (by rw [outer])]
  · exact State.enterSafeHold_heldAs (by rw [auth]; exact outside) (by rw [State.count, flight]; exact used) inside

/-- Settles O9: the fault is one change of the passage ahead of SAFE_HOLD entry. -/
theorem deviceFaultHolds : Obligations.DeviceFaultHolds := by
  intro s k running inside outside
  have changed {f : Passage → Passage} {q : Passage} (value : f (s.passage k) = q) (j : Nat) (inside' : j < 4) :
      (s.setPassage k f).passage j = if j = k then q else s.passage j := by
    by_cases here : j = k
    · subst here
      rw [State.passage_setPassage_same inside, value, if_pos rfl]
    · rw [State.passage_setPassage_other inside' here, if_neg here]
  have taken {c : Instr} {f : State → State} {u : State} (row : exec c s = onPassage k (s.event f)) (work : f s = u) :
      exec c s = .next u.finish := by
    rw [row, onPassage_of_lt inside, State.event_running f running, work]
  refine ⟨fun out travelling => ?_, fun out moving => ?_⟩
  · obtain ⟨steady, ports, held⟩ := State.holds_after (c := .gateFault k)
      (u := State.raise (.gateFault k .travelTimeout (s.passage k).gate.position) (State.push (.passageChanged k)
        (s.setGate k (fun g => { g with state := .fault, cause := some .travelTimeout, drive := .off, timer := none }))))
      (by simp) outside
    refine ⟨_, taken rfl ((if_pos out).trans (if_pos travelling)), steady, ports, fun j used inside' => ?_⟩
    have holds := held j used inside'
    rw [State.passage_raise, State.passage_push, State.setGate, changed rfl j inside'] at holds
    exact holds
  · obtain ⟨steady, ports, held⟩ := State.holds_after (c := .sluiceFault k)
      (u := State.raise (.sluiceFault k .moveTimeout (s.passage k).sluice.commanded (s.passage k).sluice.position)
        (State.push (.passageChanged k) (s.setSluice k (fun x =>
          { x with state := .fault, cause := some .moveTimeout, commanded := none, moveTimer := none, driven := false }))))
      (by simp) outside
    refine ⟨_, taken rfl ((if_pos out).trans (if_pos moving)), steady, ports, fun j used inside' => ?_⟩
    have holds := held j used inside'
    rw [State.passage_raise, State.passage_push, State.setSluice, changed rfl j inside'] at holds
    exact holds

/-! ## EMERGENCY_STOP (R176) -/

@[simp] theorem Port.pump_reply (p : Port) : p.pump.reply = p.reply := by
  unfold Port.pump
  split
  · next f _ _ => cases f <;> rfl
  · rfl

@[simp] theorem State.steady_replied (h : Hdr) (kind : Nat) (a : Answer) (s : State) :
    (State.replied h kind a s).steady = s.steady := rfl

/-- The reply to a request is the reply in progress of its port. -/
theorem State.replied_reply (h : Hdr) (kind : Nat) (a : Answer) (s : State) :
    ((State.replied h kind a s).ports.get h.port).reply = some { frames := replyFrames h.tag kind a, sent := 0 } := by
  simp only [State.replied, State.pump, Ports.get_map, Port.pump_reply, State.respond, State.setPort, Ports.get_set_same]

/-- Settles O41: the right by station, then SAFE_HOLD entry and the end of the event. -/
theorem emergencyStopHolds : Obligations.EmergencyStopHolds := by
  intro h s reaches good
  let cause := HoldCause.emergencyStop h.port
  have command (port : h.port = .console ∨ h.port = .region) : exec (.emergencyStop h) s = .next (State.replied h 19
      { status := .ok, body := .authority .safeHold s.auth.holder none .nothing } ((s.heard h).enterSafeHold cause).settle) := by
    have admits : s.admits 19 h.port = true := by rcases port with e | e <;> rw [e] <;> rfl
    refine congrArg Host.Outcome.next ((State.takeRequest_taken h 19 _ s ⟨reaches, good, admits⟩ rfl).trans ?_)
    have auth : ((s.heard h).enterSafeHold cause).settle.auth = s.auth.held cause :=
      (State.auth_of_core (State.settle_core _)).trans (State.enterSafeHold_auth _ _)
    simp only [State.doEmergencyStop, State.acceptMode, accepted]
    rw [State.authorityAnswer_of_ne_pending (by decide), auth, Authority.held_eq]
  refine ⟨fun port => ⟨_, command port, ?_, fun outside k used inside => ?_, ?_⟩, fun port stands => ?_, fun toll => ?_⟩
  · rw [State.steady_replied, State.steady_of_outer (State.settle_outer _), State.steady_enterSafeHold, Authority.held_eq]
    rfl
  · exact State.enterSafeHold_heldAs (s := s.heard h) outside used inside
  · exact ⟨_, State.replied_reply h 19 _ _, rfl⟩
  · rw [command port, State.enterSafeHold, if_pos (show (s.heard h).auth.mode = .safeHold from stands)]
  · have right : s.admits 19 h.port = false := by rw [toll]; rfl
    refine congrArg Host.Outcome.next ((State.takeRequest_noRight h 19 _ s reaches (by rw [good]; rfl) right).trans ?_)
    rw [State.turnAway_eq _ _ _ (by decide)]
    rfl

/-! ## Silence (R183, R192) -/

/-- A port's station is no longer heard. -/
def State.silenced (s : State) (st : Station) : State :=
  { s with ports := s.ports.set st { s.ports.get st with heard := false, silence := none } }

/-- The authority passed on at the holder's silence, with AUTHORITY. -/
def State.passed (s : State) (st : Station) (holder : Option Station) (outcome : ClaimOutcome) : State :=
  State.raise (.authority holder (some st) .silence (s.auth.claim.map (fun _ => outcome)))
    { s.silenced st with auth := { s.auth with holder := holder, claim := none } }

theorem State.quiet_get {s t : State} (h : t.quietPorts = s.quietPorts) (x : Station) :
    (t.ports.get x).quiet = (s.ports.get x).quiet := by
  have same := congrArg (fun p : Ports => p.get x) h
  simpa only [State.quietPorts, Ports.get_map] using same

section
variable {s : State} {st : Station} (running : s.pins.reset = false) (out : (s.ports.get st).silence = some 0)
include running out

theorem exec_silence : exec (.silenceExpiry st) s = .next ((s.silenced st).takeSilence st).finish :=
  congrArg Host.Outcome.next ((State.event_running _ running).trans (congrArg State.finish (if_pos out)))

theorem exec_silence_other (other : s.auth.holder ≠ some st) :
    exec (.silenceExpiry st) s = .next (s.silenced st).finish := by
  rw [exec_silence running out]
  exact congrArg (fun u => Host.Outcome.next (State.finish u)) (if_neg fun own => other (of_decide_eq_true own))

/-- The holder that falls silent passes its authority to the other command station, or to none. -/
theorem exec_silence_holder (holder : s.auth.holder = some st) : exec (.silenceExpiry st) s = .next
    (if (s.silenced st).hears (otherCommand st) then (s.passed st (some (otherCommand st)) .granted).finish
    else ((s.passed st none .lapsed).enterSafeHold .authorityLost).finish) := by
  have asked : (s.silenced st).takeSilence st = (s.silenced st).holderSilent st := if_pos (decide_eq_true holder)
  have set (h : Option Station) (o : ClaimOutcome) :
      (s.silenced st).setHolder h .silence ((s.silenced st).claimOutcome o) = s.passed st h o := by
    simp only [State.setHolder, State.passed, show (s.silenced st).auth.holder = some st from holder]
    rfl
  rw [exec_silence running out, asked, State.holderSilent, set, set]
  split <;> rfl

end

theorem State.silenced_hears {s : State} {st other : Station} (pair : (st = .console ∧ other = .region) ∨ (st = .region ∧ other = .console)) :
    otherCommand st = other ∧ (s.silenced st).hears other = (s.ports.get other).heard := by
  rcases pair with ⟨rfl, rfl⟩ | ⟨rfl, rfl⟩ <;> exact ⟨rfl, rfl⟩

theorem State.passed_finish (s : State) (st : Station) (h : Option Station) (o : ClaimOutcome) :
    (s.passed st h o).finish.steady = { s.steady with auth := { s.auth with holder := h, claim := none } }
      ∧ (s.passed st h o).finish.quietPorts = (s.silenced st).quietPorts := by
  rw [State.steady_finish, State.quietPorts_finish, State.passed, State.quietPorts_raise,
    State.steady_of_outer (State.raise_outer _ _)]
  exact ⟨rfl, rfl⟩

theorem State.orphaned_finish (s : State) (st : Station) :
    ((s.passed st none .lapsed).enterSafeHold .authorityLost).finish.steady = { s.steady with auth := { s.auth with
        holder := none, claim := none, mode := .safeHold
        holdCause := if s.auth.mode = .safeHold then s.auth.holdCause else some .authorityLost } }
      ∧ ((s.passed st none .lapsed).enterSafeHold .authorityLost).finish.quietPorts = (s.silenced st).quietPorts := by
  rw [State.steady_finish, State.quietPorts_finish, State.steady_enterSafeHold, State.quietPorts_enterSafeHold,
    Authority.held_eq, State.passed, State.quietPorts_raise, State.steady_of_outer (State.raise_outer _ _)]
  exact ⟨rfl, rfl⟩

/-- The same by the other command station of a pair. -/
theorem exec_silence_pair {s : State} {st other : Station} (running : s.pins.reset = false)
    (out : (s.ports.get st).silence = some 0) (holder : s.auth.holder = some st)
    (pair : (st = .console ∧ other = .region) ∨ (st = .region ∧ other = .console)) :
    ((s.ports.get other).heard = true → exec (.silenceExpiry st) s = .next (s.passed st (some other) .granted).finish)
    ∧ ((s.ports.get other).heard = false →
      exec (.silenceExpiry st) s = .next ((s.passed st none .lapsed).enterSafeHold .authorityLost).finish) := by
  obtain ⟨second, heard⟩ := State.silenced_hears (s := s) pair
  rw [exec_silence_holder running out holder, second, heard]
  exact ⟨fun yes => by rw [if_pos yes], fun no => by rw [if_neg (by simp [no])]⟩

/-- Settles O20: by the holder and by whether the other command station is heard. -/
theorem silenceExpiryTaken : Obligations.SilenceExpiryTaken := by
  refine ⟨fun s st left running some => ?_, fun s st running out => ⟨?_, fun other => exec_silence_other running out other,
    fun other holder pair => exec_silence_pair running out holder pair⟩⟩
  · exact congrArg Host.Outcome.next ((State.event_running _ running).trans
      (congrArg State.finish (if_neg (by simp [some]))))
  have leaves {t : State} {a : Authority} (steady : t.steady = { s.steady with auth := a })
      (ports : t.quietPorts = (s.silenced st).quietPorts) :
      (t.ports.get st).heard = false ∧ (t.ports.get st).silence = none
      ∧ (∀ x, x ≠ st → (t.ports.get x).quiet = (s.ports.get x).quiet)
      ∧ { t.steady with auth := s.auth } = s.steady ∧ t.auth = a
      ∧ (∀ u, exec (.idleFrame st) t = .next u →
          (u.ports.get st).silence = some (t.timing.silence * 1000) ∧ (u.ports.get st).heard = true)
      ∧ ∀ cause u, exec (.frameDiscarded st cause) t = .next u →
          (u.ports.get st).silence = none ∧ (u.ports.get st).heard = false := by
    have own : (t.ports.get st).quiet = ((s.silenced st).ports.get st).quiet := State.quiet_get ports st
    rw [State.silenced, Ports.get_set_same] at own
    have heard : (t.ports.get st).heard = false := (congrArg Port.heard own : _)
    have silence : (t.ports.get st).silence = none := (congrArg Port.silence own : _)
    have running' : t.pins.reset = false := (congrArg (fun o => o.pins.reset) steady).trans running
    refine ⟨heard, silence, fun x apart => ?_, ?_, (congrArg Outer.auth steady : _), fun u hu => ?_, fun cause u hu => ?_⟩
    · rw [State.quiet_get ports x, State.silenced, Ports.get_set_other _ _ apart.symm]
    · rw [steady]
      rfl
    · have taken : t.goodFrame st = u := (if_neg (by simp [running'])).symm.trans (Host.Outcome.next.inj hu)
      subst taken
      simp only [State.goodFrame, State.setPort, Ports.get_set_same]
      exact ⟨rfl, rfl⟩
    · have taken : t.setPort st Port.hunt = u := (if_neg (by simp [running'])).symm.trans (Host.Outcome.next.inj hu)
      subst taken
      simp only [State.setPort, Ports.get_set_same]
      exact ⟨silence, heard⟩
  by_cases holder : s.auth.holder = some st
  · have taken := exec_silence_holder running out holder
    by_cases hears : (s.silenced st).hears (otherCommand st) = true
    · rw [if_pos hears] at taken
      obtain ⟨heard, silence, rest, steady, auth, idle, discard⟩ :=
        leaves (State.passed_finish s st _ _).1 (State.passed_finish s st _ _).2
      refine ⟨_, taken, heard, silence, rest, steady, fun other => absurd holder other, fun other _ pair => ?_, idle, discard⟩
      obtain ⟨second, heard⟩ := State.silenced_hears (s := s) pair
      rw [second, heard] at hears
      exact ⟨fun _ => by rw [auth, second], fun no => by simp [no] at hears⟩
    · rw [if_neg hears] at taken
      obtain ⟨heard, silence, rest, steady, auth, idle, discard⟩ :=
        leaves (State.orphaned_finish s st).1 (State.orphaned_finish s st).2
      refine ⟨_, taken, heard, silence, rest, steady, fun other => absurd holder other, fun other _ pair => ?_, idle, discard⟩
      obtain ⟨second, heard⟩ := State.silenced_hears (s := s) pair
      rw [second, heard] at hears
      exact ⟨fun yes => absurd yes hears, fun _ => ⟨auth, fun outside k used inside =>
        State.enterSafeHold_heldAs (s := s.passed st none .lapsed) outside used inside⟩⟩
  · obtain ⟨heard, silence, rest, steady, auth, idle, discard⟩ :=
      leaves (t := (s.silenced st).finish) (a := s.auth) (State.steady_finish _) (State.quietPorts_finish _)
    exact ⟨_, exec_silence_other running out holder, heard, silence, rest, steady, fun _ => auth,
      fun other own => absurd own holder, idle, discard⟩

end Sys2Proof.Machine
end

