-- ==== Sys2Proof/Proofs/GateRules.lean ====
section
/-! SUPPORT. What lawful changes of the passages keep: gates apart, openings and raisings under the interlock, the chamber claims whole. -/

namespace Sys2Proof.Machine

/-! ## The interlock and the neighbours (R42) -/

theorem State.count_le {s : State} (h : s.countLegal) : s.count ≤ 3 := by
  unfold State.count
  cases n : s.flight.n with
  | none => decide
  | some n' => exact (h n' n).2

theorem State.mem_othersOf {s : State} {j k : Nat} : j ∈ s.othersOf k ↔
    (1 ≤ k ∧ k ≤ s.count ∧ j = k - 1) ∨ (k + 1 ≤ s.count ∧ j = k + 1) := by
  unfold State.othersOf
  split <;> split <;> simp_all

theorem State.neighboursClosed_of_interlock {s : State} {k : Nat} (used : k ≤ s.count) (ok : s.interlockOk k = true) :
    s.neighboursClosed k := by
  intro j used' beside
  have mem : j ∈ s.othersOf k := State.mem_othersOf.2 (by omega)
  exact (Passage.fullyClosed_iff _).1 (List.all_eq_true.1 ok j mem)

theorem State.permissive_congr {s t : State} {k : Nat} (lm : t.lm = s.lm) (permit : (t.passage k).permit = (s.passage k).permit) :
    t.permissive k = s.permissive k := by
  unfold State.permissive State.equal State.sensorsGood State.sensor
  rw [lm, permit]

/-- What an event that began with the passages of `s` has opened or raised stands under the interlock. -/
structure State.interlocked (s t : State) : Prop where
  gates : ∀ k, k ≤ t.count → (t.passage k).gate.state = .opening →
    (s.passage k).gate.state = .opening ∨ (t.neighboursClosed k ∧ t.permissive k = true)
  sluices : ∀ k, k ≤ t.count → ∀ c, (t.passage k).sluice.commanded = some c → (t.passage k).sluice.position < c →
    (s.passage k).sluice.commanded = some c ∨ ((t.passage k).sluice.state = .moving ∧ t.neighboursClosed k)

section
variable {s t u : State}

theorem State.neighboursClosed_congr (count : u.count = t.count)
    (full : ∀ j, (t.passage j).fullyClosed = true → (u.passage j).fullyClosed = true) {k : Nat} (h : t.neighboursClosed k) :
    u.neighboursClosed k := fun j used beside =>
  (Passage.fullyClosed_iff _).1 (full j ((Passage.fullyClosed_iff _).2 (h j (count ▸ used) beside)))

/-- Work beside the gates, the sluices and the permits keeps what an event has opened under the interlock. -/
theorem State.interlocked.congr (h : s.interlocked t) (flight : u.flight = t.flight) (lm : u.lm = t.lm)
    (same : ∀ j, (u.passage j).gate = (t.passage j).gate ∧ (u.passage j).sluice = (t.passage j).sluice
      ∧ (u.passage j).permit = (t.passage j).permit) : s.interlocked u := by
  have count : u.count = t.count := by simp only [State.count, flight]
  have closed {k : Nat} (h : t.neighboursClosed k) : u.neighboursClosed k :=
    State.neighboursClosed_congr count (fun j full => by rw [Passage.fullyClosed_iff] at full ⊢; rw [(same j).1, (same j).2.1]; exact full) h
  refine ⟨fun k used opening => ?_, fun k used c up rises => ?_⟩
  · rw [(same k).1] at opening
    exact (h.gates k (count ▸ used) opening).imp_right fun ⟨near, permissive⟩ =>
      ⟨closed near, (State.permissive_congr lm (same k).2.2).trans permissive⟩
  · rw [(same k).2.1] at up rises ⊢
    exact (h.sluices k (count ▸ used) c up rises).imp_right fun ⟨moving, near⟩ => ⟨moving, closed near⟩

theorem State.passage_takeClaims (k j : Nat) (s : State) : ((s.takeClaims k).passage j).gate = (s.passage j).gate
    ∧ ((s.takeClaims k).passage j).sluice = (s.passage j).sluice
    ∧ ((s.takeClaims k).passage j).permit = (s.passage j).permit :=
  ⟨State.read_setPassage (s := s.setClaims _ _) (g := Passage.gate) (fun _ => rfl) j,
    State.read_setPassage (s := s.setClaims _ _) (g := Passage.sluice) (fun _ => rfl) j,
    State.read_setPassage (s := s.setClaims _ _) (g := Passage.permit) (fun _ => rfl) j⟩

/-- A lawful change of a passage keeps what an event has opened under the interlock. -/
theorem State.interlocked.alters (h : s.interlocked t) (legal : t.countLegal) {k : Nat} {f : Passage → Passage} (inside : k < 4)
    (lawful : t.lawful k (f (t.passage k))) : s.interlocked (t.setPassage k f) := by
  have bound := State.count_le legal
  have here := State.passage_setPassage_same inside f t
  have there {j : Nat} (used : j ≤ t.count) (apart : j ≠ k) : (t.setPassage k f).passage j = t.passage j :=
    State.passage_setPassage_other (by omega) apart f t
  have own (near : t.neighboursClosed k) : (t.setPassage k f).neighboursClosed k := fun j used beside => by
    rw [there used (by omega)]
    exact near j used beside
  have other {j : Nat} (used : j ≤ t.count) (busy : (t.passage j).fullyClosed = false)
      (near : t.neighboursClosed j) : (t.setPassage k f).neighboursClosed j := fun i used' beside => by
    by_cases same : i = k
    · subst same
      rw [here]
      rcases lawful.closed ((Passage.fullyClosed_iff _).2 (near i used' beside)) with full | ok
      · exact (Passage.fullyClosed_iff _).1 full
      · have full := State.neighboursClosed_of_interlock (s := t) used' ok j used (by omega)
        rw [← Passage.fullyClosed_iff, busy] at full
        cases full
    · rw [there used' same]
      exact near i used' beside
  refine ⟨fun j used opening => ?_, fun j used c up rises => ?_⟩
  · by_cases same : j = k
    · subst same
      rw [here] at opening
      obtain ⟨from', permit⟩ := lawful.opening opening
      have permissive : (t.setPassage j f).permissive j = t.permissive j :=
        State.permissive_congr rfl (by rw [here, permit])
      rw [permissive]
      rcases from' with already | may
      · exact (h.gates j used already).imp_right fun ⟨near, ok⟩ => ⟨own near, ok⟩
      · obtain ⟨ok, interlock⟩ := Bool.and_eq_true_iff.1 may
        exact .inr ⟨own (State.neighboursClosed_of_interlock used interlock), ok⟩
    · have permissive : (t.setPassage k f).permissive j = t.permissive j := by
        simp only [State.permissive, there used same]
        rfl
      rw [there used same] at opening
      rw [permissive]
      refine (h.gates j used opening).imp_right fun ⟨near, ok⟩ => ⟨other used ?_ near, ok⟩
      simp [Passage.fullyClosed, opening]
  · by_cases same : j = k
    · subst same
      rw [here] at up rises ⊢
      rcases lawful.raised c up rises with ⟨up', rises', moving⟩ | ⟨ok, moving⟩
      · exact (h.sluices j used c up' rises').imp_right fun ⟨moves, near⟩ => ⟨moving moves, own near⟩
      · exact .inr ⟨moving, own (State.neighboursClosed_of_interlock used ok)⟩
    · rw [there used same] at up rises ⊢
      refine (h.sluices j used c up rises).imp_right fun ⟨moves, near⟩ => ⟨moves, other used ?_ near⟩
      simp [Passage.fullyClosed, moves]

variable {b : Nat → Prop}

theorem Works.flight (h : Works b t u) : u.flight = t.flight := by
  induction h with
  | beside _ _ flight => exact flight
  | alters | claims | releases => rfl
  | trans _ _ ih ih' => exact ih'.trans ih

theorem Works.countLegal (h : Works b t u) (legal : t.countLegal) : u.countLegal := by
  unfold State.countLegal
  rw [h.flight]
  exact legal

theorem Works.interlocked (h : Works b t u) (legal : t.countLegal) (before : s.interlocked t) : s.interlocked u := by
  induction h with
  | beside passages _ flight lm =>
    exact before.congr flight lm fun j => by simp only [State.passage, passages, and_self]
  | alters t inside lawful => exact before.alters legal inside lawful
  | claims t k => exact before.congr rfl rfl fun j => State.passage_takeClaims k j t
  | releases t k o =>
    exact before.congr rfl rfl fun j => ⟨State.read_setPassage (s := t.setClaims _ _) (g := Passage.gate) (fun _ => rfl) j,
      State.read_setPassage (s := t.setClaims _ _) (g := Passage.sluice) (fun _ => rfl) j,
      State.read_setPassage (s := t.setClaims _ _) (g := Passage.permit) (fun _ => rfl) j⟩
  | trans first _ ih ih' => exact ih' (first.countLegal legal) (ih legal before)

/-! ## Gates apart (R42) -/

theorem State.gatesApart_of_gates (h : t.gatesApart) (count : u.count = t.count)
    (gates : ∀ j, j ≤ t.count → (u.passage j).gate.state = .opening → (t.passage j).gate.state = .opening) : u.gatesApart :=
  fun k used ⟨above, below⟩ =>
    h k (count ▸ used) ⟨gates k (by omega) above, gates (k + 1) (by omega) below⟩

theorem State.gatesApart_alters (h : t.gatesApart) (legal : t.countLegal) {k : Nat} {f : Passage → Passage} (inside : k < 4)
    (lawful : t.lawful k (f (t.passage k))) : (t.setPassage k f).gatesApart := by
  have bound := State.count_le legal
  have here := State.passage_setPassage_same inside f t
  have there {j : Nat} (used : j ≤ t.count) (apart : j ≠ k) : (t.setPassage k f).passage j = t.passage j :=
    State.passage_setPassage_other (by omega) apart f t
  have clash {j : Nat} (used : j ≤ t.count) (used' : k ≤ t.count) (beside : j + 1 = k ∨ k + 1 = j) (may : t.mayOpen k = true)
      (opening : (t.passage j).gate.state = .opening) : False := by
    have closed := (State.neighboursClosed_of_interlock used' (Bool.and_eq_true_iff.1 may).2 j used beside).1
    rw [opening] at closed
    cases closed
  rintro j (used : j + 1 ≤ t.count) ⟨above, below⟩
  by_cases first : j = k
  · subst first
    rw [here] at above
    rw [there used (by omega)] at below
    rcases (lawful.opening above).1 with already | may
    · exact h j used ⟨already, below⟩
    · exact clash used (by omega) (.inr rfl) may below
  · rw [there (by omega) first] at above
    by_cases second : j + 1 = k
    · subst second
      rw [here] at below
      rcases (lawful.opening below).1 with already | may
      · exact h j used ⟨above, already⟩
      · exact clash (by omega) used (.inl rfl) may above
    · rw [there used second] at below
      exact h j used ⟨above, below⟩

theorem Works.gatesApart (h : Works b t u) (legal : t.countLegal) (before : t.gatesApart) : u.gatesApart := by
  induction h with
  | beside passages _ flight =>
    exact State.gatesApart_of_gates before (by simp only [State.count, flight]) fun j _ => by
      simp only [State.passage, passages, imp_self]
  | alters t inside lawful => exact State.gatesApart_alters before legal inside lawful
  | claims t k =>
    exact State.gatesApart_of_gates before rfl fun j _ opening => by rwa [(State.passage_takeClaims k j t).1] at opening
  | releases t k o =>
    exact State.gatesApart_of_gates before rfl fun j _ opening => by
      rwa [State.read_setPassage (s := t.setClaims _ _) (g := Passage.gate) (fun _ => rfl) j] at opening
  | trans first _ ih ih' => exact ih' (first.countLegal legal) (ih legal before)

/-! ## Chamber claims (R29) -/

theorem Tri.get_set_same {α : Type} (q : Tri α) {c : Nat} (x : α) (low : 1 ≤ c) (high : c ≤ 3) : (q.set c x).get c = x := by
  match c, low, high with
  | 1, _, _ | 2, _, _ | 3, _, _ => rfl

theorem Tri.get_set_other {α : Type} (q : Tri α) {c d : Nat} (x : α) (low : 1 ≤ c) (high : c ≤ 3) (apart : c ≠ d) :
    (q.set d x).get c = q.get c := by
  match c, low, high with
  | 1, _, _ =>
    match d with
    | 0 | 2 | 3 | _ + 4 => rfl
    | 1 => exact absurd rfl apart
  | 2, _, _ =>
    match d with
    | 0 | 1 | 3 | _ + 4 => rfl
    | 2 => exact absurd rfl apart
  | 3, _, _ =>
    match d with
    | 0 | 1 | 2 | _ + 4 => rfl
    | 3 => exact absurd rfl apart

theorem State.setClaims_get (l : List Nat) (owner : Option Nat) (s : State) {c : Nat} (low : 1 ≤ c) (high : c ≤ 3) :
    (s.setClaims l owner).pcu.claims.get c = if c ∈ l then owner else s.pcu.claims.get c := by
  change (l.foldl (fun (q : Tri (Option Nat)) d => q.set d owner) s.pcu.claims).get c = _
  generalize s.pcu.claims = q
  induction l generalizing q with
  | nil => simp
  | cons d rest ih =>
    rw [List.foldl_cons, ih]
    by_cases here : c = d
    · subst here
      simp [Tri.get_set_same q owner low high]
    · simp [Tri.get_set_other q owner low high here, here]

theorem Passage.holds_iff (p : Passage) : p.holds = true ↔ ∃ o, p.slot = some o ∧ o.claimsHeld = true := by
  unfold Passage.holds
  cases p.slot <;> simp

theorem State.claimsLegal_iff : s.claimsLegal ↔ ∀ c k, 1 ≤ c → c ≤ 3 →
    (s.pcu.claims.get c = some k ↔ k < 4 ∧ c ∈ s.chambersOf k ∧ (s.passage k).holds = true) := by
  simp only [State.claimsLegal, Passage.holds_iff]

theorem State.claimsLegal.congr (h : t.claimsLegal) (count : u.count = t.count) (claims : u.pcu.claims = t.pcu.claims)
    (holds : ∀ j, j < 4 → (u.passage j).holds = (t.passage j).holds) : u.claimsLegal := by
  rw [State.claimsLegal_iff] at h ⊢
  intro c k low high
  rw [claims, h c k low high, State.chambersOf, State.chambersOf, count]
  exact and_congr_right fun inside => by rw [holds k inside]

/-- A passage that the part does not have needs no chamber. -/
theorem State.chambersOf_outside (legal : t.countLegal) {k : Nat} (outside : 4 ≤ k) : t.chambersOf k = [] := by
  have bound := State.count_le legal
  simp only [State.chambersOf, chambersBeside, within, List.filter_cons, List.filter_nil, Bool.and_eq_true, decide_eq_true_eq]
  rw [if_neg (by omega), if_neg (by omega)]

theorem State.unclaimed_get {k c : Nat} (free : t.unclaimed k = true) (mem : c ∈ t.chambersOf k) : t.pcu.claims.get c = none := by
  simpa using List.all_eq_true.1 free c mem

theorem State.claimsLegal_takeClaims (h : t.claimsLegal) (legal : t.countLegal) {k : Nat}
    (slot : k < 4 → (t.passage k).slot.isSome = true) (free : t.unclaimed k = true) : (t.takeClaims k).claimsLegal := by
  by_cases inside : k < 4
  · have same := State.passage_setOp_same inside (fun o => { o with claimsHeld := true }) (t.setClaims (t.chambersOf k) (some k))
    rw [State.claimsLegal_iff] at h ⊢
    intro c j low high
    have claims := State.setClaims_get (t.chambersOf k) (some k) t low high
    have chambers (i : Nat) : (t.takeClaims k).chambersOf i = t.chambersOf i := rfl
    rw [show (t.takeClaims k).pcu.claims.get c = _ from claims, chambers]
    by_cases here : j = k
    · subst here
      have holds : ((t.takeClaims j).passage j).holds = true := by
        obtain ⟨o, held⟩ := Option.isSome_iff_exists.1 (slot inside)
        rw [State.takeClaims, same]
        simp [Passage.holds, show ((t.setClaims (t.chambersOf j) (some j)).passage j).slot = some o from held]
      split
      · next mem => simp [inside, mem, holds]
      · next absent =>
        refine ⟨fun own => absurd ((h c j low high).1 own).2.1 absent, fun own => absurd own.2.1 absent⟩
    · have holds (inside' : j < 4) : ((t.takeClaims k).passage j).holds = (t.passage j).holds :=
        congrArg Passage.holds (State.passage_setOp_other inside' here _ (t.setClaims _ _))
      split
      · next mem =>
        refine ⟨fun own => absurd (Option.some.inj own).symm here, fun ⟨inside', mem', own⟩ => ?_⟩
        rw [holds inside'] at own
        have claimed := (h c j low high).2 ⟨inside', mem', own⟩
        rw [State.unclaimed_get free mem] at claimed
        cases claimed
      · rw [h c j low high]
        exact and_congr_right fun inside' => by rw [holds inside']
  · refine h.congr rfl ?_ fun j inside' => ?_
    · change (t.setClaims (t.chambersOf k) (some k)).pcu.claims = _
      rw [State.chambersOf_outside legal (Nat.not_lt.1 inside)]
      rfl
    · exact congrArg Passage.holds (State.passage_setOp_other inside' (by omega) _ (t.setClaims _ _))

theorem State.claimsLegal_releases (h : t.claimsLegal) (legal : t.countLegal) {k : Nat} {o : Op}
    (slot : (t.passage k).slot = some o) : ((t.setClaims (if o.claimsHeld then t.chambersOf k else []) none).setPassage k
      (fun p => { p with slot := none, slotFreeOwed := false })).claimsLegal := by
  let f : Passage → Passage := fun p => { p with slot := none, slotFreeOwed := false }
  have within (c : Nat) : c ∈ (if o.claimsHeld then t.chambersOf k else []) ↔ o.claimsHeld = true ∧ c ∈ t.chambersOf k := by
    split <;> simp_all
  have outside (k4 : 4 ≤ k) : (if o.claimsHeld then t.chambersOf k else []) = [] := by
    rw [State.chambersOf_outside legal k4, ite_self]
  generalize (if o.claimsHeld then t.chambersOf k else []) = l at within outside
  change ((t.setClaims l none).setPassage k f).claimsLegal
  by_cases inside : k < 4
  · rw [State.claimsLegal_iff] at h ⊢
    intro c j low high
    have chambers (i : Nat) : ((t.setClaims l none).setPassage k f).chambersOf i = t.chambersOf i := rfl
    rw [show ((t.setClaims l none).setPassage k f).pcu.claims.get c = _ from State.setClaims_get l none t low high, chambers]
    have mine : (t.passage k).holds = o.claimsHeld := by simp [Passage.holds, slot]
    by_cases here : j = k
    · subst here
      have holds : (((t.setClaims l none).setPassage j f).passage j).holds = false := by
        rw [State.passage_setPassage_same inside]
        rfl
      rw [holds]
      refine ⟨fun own => ?_, fun own => by simp at own⟩
      split at own
      · cases own
      · next absent =>
        obtain ⟨-, mem, held⟩ := (h c j low high).1 own
        exact absurd ((within c).2 ⟨mine.symm.trans held, mem⟩) absent
    · have holds (inside' : j < 4) : (((t.setClaims l none).setPassage k f).passage j).holds = (t.passage j).holds :=
        congrArg Passage.holds (State.passage_setPassage_other inside' here _ (t.setClaims l none))
      split
      · next mem =>
        refine ⟨fun own => (by cases own), fun ⟨inside', mem', own⟩ => ?_⟩
        rw [holds inside'] at own
        obtain ⟨held, mem''⟩ := (within c).1 mem
        have other := (h c j low high).2 ⟨inside', mem', own⟩
        have own' := (h c k low high).2 ⟨inside, mem'', mine.trans held⟩
        exact absurd (Option.some.inj (other.symm.trans own')) here
      · rw [h c j low high]
        exact and_congr_right fun inside' => by rw [holds inside']
  · rw [State.setPassage_outside (Nat.not_lt.1 inside), outside (Nat.not_lt.1 inside)]
    exact h.congr rfl rfl fun _ _ => rfl

theorem Works.claimsLegal (h : Works b t u) (legal : t.countLegal) (before : t.claimsLegal) : u.claimsLegal := by
  induction h with
  | beside passages claims flight =>
    exact before.congr (by simp only [State.count, flight]) claims fun j _ => by simp only [State.passage, passages]
  | @alters t k f _ lawful =>
    exact before.congr rfl rfl fun j _ => State.read_setPassage (g := Passage.holds) (s := t) (fun _ => lawful.claims) j
  | claims t k slot free => exact State.claimsLegal_takeClaims before legal slot free
  | releases t k o slot => exact State.claimsLegal_releases before legal slot
  | trans first _ ih ih' => exact ih' (first.countLegal legal) (ih legal before)

end
end Sys2Proof.Machine
end

