-- ==== Sys2Proof/Proofs/GatesApart.lean ====
section
/-! SUPPORT. What each command makes of the passages: calm changes, which open and raise nothing, followed by lawful ones. Settles O60. -/

namespace Sys2Proof.Machine

/-! ## Every request and change of mode as lawful changes -/

/-- All passages are released. -/
def everywhere : Nat → Prop := fun _ => True

theorem State.heldBut_everywhere (s : State) : s.heldBut everywhere := fun _ _ => .inl trivial

section
variable {s t : State}

theorem Works.neutral (pcu : t.pcu = s.pcu) (flight : t.flight = s.flight) (lm : t.lm = s.lm) : Works everywhere s t :=
  .beside (congrArg Pcu.passages pcu) (congrArg Pcu.claims pcu) flight lm (.inr fun _ => trivial)

theorem Works.settle {u : State} (h : Works everywhere s u) : Works everywhere s u.settle :=
  h.trans (State.settle_works u.heldBut_everywhere)

theorem Works.finish {u : State} (h : Works everywhere s u) : Works everywhere s u.finish :=
  h.settle.trans (.neutral rfl rfl rfl)

theorem State.enterSafeHold_works (c : HoldCause) (s : State) : Works everywhere s (s.enterSafeHold c) := by
  unfold State.enterSafeHold
  split
  · exact .refl s
  · have moded : Works everywhere s (s.setMode .safeHold (some c)) := .neutral rfl rfl rfl
    have outer := (State.holdBlocks_outer s.auth.mode c (s.setMode .safeHold (some c))).trans
      (State.pcuHold_outer (s.setMode .safeHold (some c))).symm
    refine (moded.trans (State.pcuHold_works fun _ => trivial)).trans (.of_outer outer ?_)
    simp only [State.holdBlocks, State.raise_pcu, State.deriveAspects_pcu, State.blockNotService_pcu, State.seqHold]

theorem State.reEqualise_works (t : Transit) (m : Move) : Works everywhere s (s.reEqualise t m) := by
  have again : Works everywhere s ((s.setTransit t.id Transit.stopOverdue).setMove t.id
      (fun y => { y with phase := .equalise, owed := none })) := .setMove (.setTransit (.refl s) _ _) _ _
  simp only [State.reEqualise]
  split
  · split
    · split
      · exact again.trans ((Works.setMove (.refl _) _ _).trans (State.orderOpen_works (fun _ => trivial) _))
      · exact again
    · exact again.push _
  · exact again.push _

theorem State.resumeMove_works (t : Transit) (m : Move) : Works everywhere s (s.resumeMove t m) := by
  unfold State.resumeMove
  split
  · refine .of_outer (State.rePrep_outer t m s) ?_
    unfold State.rePrep
    repeat' split
    all_goals simp
  · exact State.reEqualise_works t m
  · exact State.reEqualise_works t m
  · split
    · exact .setTransit (.refl s) _ _
    · exact State.reEqualise_works t m
  · split
    · exact .refl s
    · exact State.commandClose_works (fun _ => trivial) false

theorem State.resumeTransit_works (t : Transit) : Works everywhere s (s.resumeTransit t) := by
  unfold State.resumeTransit
  split
  · exact .push (.refl s) _
  · exact State.resumeMove_works t _
  · exact .refl s

theorem State.enterService_works (c : ModeCause) (s : State) : Works everywhere s (s.enterService c) := by
  have moded : Works everywhere s (s.setMode .service none) := .neutral rfl rfl rfl
  have resumed := moded.trans (State.pcuResume_works fun _ => trivial)
  have taken := resumed.trans (Works.each (fun _ => True) (fun _ _ _ => trivial)
    (fun t _ _ => State.resumeTransit_works t) (s.setMode .service none).pcuResume.table trivial)
  have derived (u : State) : Works everywhere u u.deriveAspects := .neutral rfl rfl rfl
  exact ((taken.push _).calling.trans (derived _)).raise _

theorem State.abortAll_works (t : Transit) : Works everywhere s (s.abortAll t) :=
  .each (fun _ => True) (fun _ _ _ => trivial) (fun _ _ _ => State.abortOp_works (fun _ => trivial) _) _ trivial

theorem State.takeConfirmation_works (t : Transit) (m : Move) : Works everywhere s (s.takeConfirmation t m) := by
  have taken : Works everywhere s (((s.setTransit t.id Transit.stopOverdue).setMove t.id
      (fun x => { x with confirmed := true, phase := .close })).deriveAspects) := .neutral rfl rfl rfl
  exact taken.when fun _ => State.commandClose_works (fun _ => trivial) false

end

/-! ## Requests that leave the passages alone -/

section
variable (s : State)

@[simp] theorem State.compareStatus_pcu (before : Accounts) (l : List Nat) : (State.compareStatus before l s).pcu = s.pcu := by
  simp [State.compareStatus]
@[simp] theorem State.resolveQuote_pcu (m : Mark) (r : QuoteResult) : (s.resolveQuote m r).pcu = s.pcu := by
  unfold State.resolveQuote
  split <;> rfl
@[simp] theorem State.resolveOrphans_pcu : s.resolveOrphans.pcu = s.pcu :=
  State.each_pcu _ _ (fun m x => x.resolveQuote_pcu m .withdrawn) s
@[simp] theorem State.uncommitBerths_pcu (l : List Berth) : (s.uncommitBerths l).pcu = s.pcu := rfl
@[simp] theorem State.unreserveBerths_pcu (n : Nat) : (s.unreserveBerths n).pcu = s.pcu := rfl
@[simp] theorem State.dequeue_pcu (d : Direction) (m : Mark) : (s.dequeue d m).pcu = s.pcu := by simp [State.dequeue]
@[simp] theorem State.returnVessels_pcu (d : Direction) (l : List Mark) : (s.returnVessels d l).pcu = s.pcu := by
  simp only [State.returnVessels, State.returnBlock, State.calling_pcu, State.setQueue_pcu]
  exact State.each_pcu _ _ (fun _ _ => by rfl) s
@[simp] theorem State.withdrawWaiting_pcu (c : WithdrawCause) (v : Vessel) : (s.withdrawWaiting c v).pcu = s.pcu := by
  simp [State.withdrawWaiting]
@[simp] theorem State.enterVessel_pcu (v : Vessel) : (s.enterVessel v).pcu = s.pcu := by
  simp [State.enterVessel, State.placeAnnounced]
@[simp] theorem State.cancelEmptied_pcu (t : Transit) : (s.cancelEmptied t).pcu = s.pcu := by simp [State.cancelEmptied]
@[simp] theorem State.dropBerth_pcu (t : Transit) (m : Mark) : (s.dropBerth t m).pcu = s.pcu := by
  simp only [State.dropBerth]
  split <;> simp
@[simp] theorem State.withdrawCalled_pcu (v : Vessel) (t : Transit) : (s.withdrawCalled v t).pcu = s.pcu := by
  simp [State.withdrawCalled]
@[simp] theorem State.switchAuto_pcu (b : Bool) : (s.switchAuto b).pcu = s.pcu := by
  unfold State.switchAuto
  split <;> rfl
@[simp] theorem State.cancelQueued_pcu (t : Transit) : (s.cancelQueued t).pcu = s.pcu := by simp [State.cancelQueued]
@[simp] theorem State.exitVessels_pcu (t : Transit) : (s.exitVessels t).pcu = s.pcu :=
  State.each_pcu _ _ (fun _ _ => by rfl) s
@[simp] theorem State.freeVessels_pcu (l : List Mark) : (s.freeVessels l).pcu = s.pcu := State.each_pcu _ _ (fun _ _ => by rfl) s
@[simp] theorem State.postCharges_pcu (l : List Charge) : (s.postCharges l).pcu = s.pcu := by simp [State.postCharges]
@[simp] theorem State.resolveCharges_pcu (start : Nat) (l : List Mark) : (s.resolveCharges start l).pcu = s.pcu := by
  refine State.each_pcu _ _ (fun m x => ?_) s
  split <;> simp
@[simp] theorem State.settleWith_pcu (t : Transit) (r : Settlement) : (s.settleWith t r).pcu = s.pcu := by
  simp [State.settleWith]
@[simp] theorem State.abandonBerth_pcu (id : Nat) (x : Berth) : (s.abandonBerth id x).pcu = s.pcu := by
  simp [State.abandonBerth]
@[simp] theorem State.changeAccount_pcu (n : Nat) (f : Account → Account) : (s.changeAccount n f).pcu = s.pcu := by
  simp [State.changeAccount]
@[simp] theorem State.postPayment_pcu (n amount : Nat) : (s.postPayment n amount).pcu = s.pcu := by
  simp [State.postPayment]
@[simp] theorem State.enterConfigMode_pcu : s.enterConfigMode.pcu = s.pcu := by simp [State.enterConfigMode]

end

section
variable {s : State}

theorem State.cancelEntry_works (t : Transit) (m : Move) : Works everywhere s (s.cancelEntry t m) := by
  have aborted : Works everywhere s ((s.abortAll t).when (!decide (((s.abortAll t).passage m.passage).gate.state = .closed))
      (State.commandClose false m.passage)) :=
    (State.abortAll_works t).when fun _ => State.commandClose_works (fun _ => trivial) false
  have outer : ((s.abortAll t).when (!decide (((s.abortAll t).passage m.passage).gate.state = .closed))
      (State.commandClose false m.passage)).outer = s.outer := by simp
  have same := (State.cancelEntry_outer t m s).trans outer.symm
  refine aborted.trans (.of_outer same ?_)
  simp [State.cancelEntry]

theorem State.abandonTransit_works (t : Transit) : Works everywhere s (s.abandonTransit t) := by
  have same := (State.abandonTransit_core t s).trans (State.core_of_outer (State.abortAll_outer t s)).symm
  refine (State.abortAll_works t).trans (.of_core same ?_)
  simp [State.abandonTransit, State.each_pcu _ _ fun (x : Berth) (u : State) => u.abandonBerth_pcu t.id x]

end
/-! ## Calm changes -/

/-- A change of a passage that opens no gate, drives no sluice up and leaves the claims. -/
structure Passage.calm (p q : Passage) : Prop where
  gate : q.gate.state = .opening → p.gate.state = .opening
  sluice : ∀ c, q.sluice.commanded = some c → q.sluice.position < c → p.sluice.commanded = some c
  claims : q.holds = p.holds

theorem Passage.calm_refl (p : Passage) : p.calm p := ⟨id, fun _ up _ => up, rfl⟩

/-- Changes of the passages that open no gate, drive no sluice up and leave the claims. -/
structure State.calm (s t : State) : Prop where
  count : t.count = s.count
  passages : ∀ j, j < 4 → (s.passage j).calm (t.passage j)
  claims : t.pcu.claims = s.pcu.claims

/-- What an event makes of the passages: gates apart, openings and raisings under the interlock, claims whole. -/
structure State.sound (s t : State) : Prop where
  legal : t.countLegal
  apart : s.gatesApart → t.gatesApart
  interlocked : s.interlocked t
  claims : s.claimsLegal → t.claimsLegal

section
variable {s t u : State}

theorem State.calm.same (h : s.calm t) (pcu : u.pcu = t.pcu) (count : u.count = t.count) : s.calm u :=
  ⟨count.trans h.count, fun j inside => by rw [show u.passage j = t.passage j by simp only [State.passage, pcu]]; exact h.passages j inside,
    (congrArg Pcu.claims pcu).trans h.claims⟩

theorem State.calm_of_pcu (pcu : u.pcu = s.pcu) (count : u.count = s.count) : s.calm u :=
  State.calm.same ⟨rfl, fun _ _ => Passage.calm_refl _, rfl⟩ pcu count

theorem State.calm.set (h : s.calm t) {k : Nat} {f : Passage → Passage}
    (change : k < 4 → (s.passage k).calm (t.passage k) → (s.passage k).calm (f (t.passage k))) :
    s.calm (t.setPassage k f) := by
  refine ⟨h.count, fun j inside => ?_, h.claims⟩
  by_cases here : j = k
  · subst here
    rw [State.passage_setPassage_same inside]
    exact change inside (h.passages j inside)
  · rw [State.passage_setPassage_other inside here]
    exact h.passages j inside

theorem State.calm.sound (h : s.calm t) (legal : t.countLegal) : s.sound t := by
  have bound := State.count_le legal
  refine ⟨legal, fun apart => State.gatesApart_of_gates apart h.count fun j used => ?_,
    ⟨fun k used opening => .inl ((h.passages k (by omega)).gate opening),
      fun k used c up rises => .inl ((h.passages k (by omega)).sluice c up rises)⟩,
    fun claims => claims.congr h.count h.claims fun j inside => (h.passages j inside).claims⟩
  exact (h.passages j (by have := h.count; omega)).gate

theorem State.sound.works (h : s.sound t) (work : Works everywhere t u) : s.sound u :=
  ⟨work.countLegal h.legal, fun apart => work.gatesApart h.legal (h.apart apart), work.interlocked h.legal h.interlocked,
    fun claims => work.claimsLegal h.legal (h.claims claims)⟩

theorem State.sound_of_works (legal : s.countLegal) (work : Works everywhere s t) : s.sound t :=
  State.sound.works (State.calm.sound (State.calm_of_pcu rfl rfl) legal) work

theorem State.sound_of_resting (legal : t.countLegal) (gates : ∀ j, j < 4 → (t.passage j).gate.state ≠ .opening)
    (slots : ∀ j, j < 4 → (t.passage j).slot = none)
    (sluices : ∀ j, j < 4 → ∀ c, (t.passage j).sluice.commanded = some c → (s.passage j).sluice.commanded = some c)
    (claims : s.claimsLegal → ∀ c k, 1 ≤ c → c ≤ 3 → t.pcu.claims.get c ≠ some k) : s.sound t := by
  have bound := State.count_le legal
  refine ⟨legal, fun _ k (used : k + 1 ≤ t.count) both => gates k (by omega) both.1,
    ⟨fun k used opening => absurd opening (gates k (by omega)), fun k used c up _ => .inl (sluices k (by omega) c up)⟩,
    fun whole c k low high => ⟨fun own => absurd own (claims whole c k low high), fun ⟨inside, _, o, slot, _⟩ => ?_⟩⟩
  rw [slots k inside] at slot
  cases slot

end

/-! ## Fields and polls -/

section
variable {s t : State}

theorem State.calm.push (h : s.calm t) (x : Task) : s.calm (t.push x) := h.same rfl rfl

theorem State.slot_setSluice (f : Sluice → Sluice) (k j : Nat) (t : State) :
    ((t.setSluice k f).passage j).slot = (t.passage j).slot :=
  State.read_setPassage (s := t) (g := Passage.slot) (f := fun p => { p with sluice := f p.sluice }) (fun _ => rfl) j

theorem State.calm.setGate (h : s.calm t) {k : Nat} {f : Gate → Gate}
    (gate : k < 4 → (f (t.passage k).gate).state = .opening → (t.passage k).gate.state = .opening) : s.calm (t.setGate k f) :=
  h.set fun inside old => ⟨fun opening => old.gate (gate inside opening), old.sluice, old.claims⟩

theorem State.calm.setSluice (h : s.calm t) {k : Nat} {f : Sluice → Sluice}
    (sluice : k < 4 → ∀ c, (f (t.passage k).sluice).commanded = some c → (f (t.passage k).sluice).position < c →
      (t.passage k).sluice.commanded = some c ∧ (t.passage k).sluice.position < c) : s.calm (t.setSluice k f) :=
  h.set fun inside old => ⟨old.gate, fun c up rises => by
    obtain ⟨up', rises'⟩ := sluice inside c up rises
    exact old.sluice c up' rises', old.claims⟩

theorem State.calm.setOp (h : s.calm t) {k : Nat} {f : Op → Op} (claims : ∀ o, (f o).claimsHeld = o.claimsHeld) :
    s.calm (t.setOp k f) :=
  h.set fun _ old => ⟨old.gate, old.sluice, by
    refine Eq.trans ?_ old.claims
    cases slot : (t.passage k).slot <;> simp [Passage.holds, slot, claims]⟩

/-- The operation of a passage after a change that leaves its slot, or gives its operation another phase. -/
theorem State.phase_setOp {k : Nat} {f : Op → Op} {bad : OpPhase} (phase : ∀ o, (f o).phase ≠ bad)
    (before : ∀ o, (t.passage k).slot = some o → o.phase ≠ bad) :
    ∀ o, ((t.setOp k f).passage k).slot = some o → o.phase ≠ bad := by
  intro o slot
  by_cases inside : k < 4
  · rw [State.passage_setOp_same inside] at slot
    obtain ⟨o', -, rfl⟩ := Option.map_eq_some_iff.1 slot
    exact phase o'
  · rw [State.setOp, State.setPassage_outside (Nat.not_lt.1 inside)] at slot
    exact before o slot

/-- A lowering by an operation that is not SHUTTING is calm. -/
theorem State.calm.lower (h : s.calm t) {k target : Nat} (phase : ∀ o, (t.passage k).slot = some o → o.phase ≠ .shutting)
    (low : k < 4 → target ≤ (t.passage k).sluice.position) : s.calm (t.lower k target) := by
  simp only [State.lower]
  split
  · exact h
  · split
    · have arrived : s.calm (((t.setSluice k (fun y => { y with rampTimer := none, stepHeld := false })).setSluice k
          Sluice.arrived).push (.passageChanged k)) := by
        refine ((h.setSluice fun _ c up rises => ?_).setSluice fun _ c up => ?_).push _
        · exact ⟨up, rises⟩
        · simp [Sluice.arrived] at up
      have slot : ((((t.setSluice k (fun y => { y with rampTimer := none, stepHeld := false })).setSluice k
          Sluice.arrived).push (.passageChanged k)).passage k).slot = (t.passage k).slot := by
        rw [State.passage_push, State.slot_setSluice, State.slot_setSluice]
      simp only [State.finishMove, State.afterMove, slot]
      split
      · next shutting =>
        obtain ⟨o, held, bad⟩ := Option.map_eq_some_iff.1 shutting
        exact absurd bad (phase o held)
      · split
        · exact arrived.setSluice fun _ c up rises => ⟨up, rises⟩
        · exact arrived.setOp fun _ => rfl
      · exact arrived
    · refine (h.setSluice fun inside c up rises => ?_).push _
      obtain rfl := Option.some.inj up
      exact absurd rises (Nat.not_lt.2 (low inside))

theorem State.calm.sensorStall (h : s.calm t) (k : Nat) : s.calm (t.sensorStall k) := by
  unfold State.sensorStall
  split
  · exact h
  · next o slot =>
    have stalled (moving : o.phase ≠ .shutting) :
        s.calm ((t.setOp k (fun y => { y with phase := .stalled, stall := some .sensor })).lower k 0) :=
      (h.setOp fun _ => by rfl).lower (State.phase_setOp (by simp) fun o' slot' => by
        cases slot.symm.trans slot'
        exact moving) fun _ => Nat.zero_le _
    simp only
    split
    · next phase =>
      split
      · exact h
      · exact stalled (by simp [phase])
    · next phase =>
      split
      · exact h
      · exact stalled (by simp [phase])
    · next phase _ => exact stalled (by simp [phase])
    · exact h.same rfl rfl
    · exact h

/-- Work on the levels that leaves the PCU is calm. -/
theorem State.calm_of_levels (pcu : t.pcu = s.pcu) (flight : t.flight = s.flight) : s.calm t :=
  State.calm_of_pcu pcu (by simp only [State.count, flight])

theorem State.goodPoll_calm (p raw : Nat) (s : State) : s.calm (s.goodPoll p raw) := by
  simp only [State.goodPoll, State.accumulate, State.when]
  split
  all_goals
    split
    · exact State.calm_of_levels rfl rfl
    · exact State.calm_of_levels rfl rfl

theorem State.badPoll_calm (p : Nat) (cause : BadPollCause) (s : State) : s.calm (s.badPoll p cause) := by
  have counted : s.calm { s with lm := s.lm.setSensor p Sensor.countBad } := State.calm_of_levels rfl rfl
  have each (l : List Nat) {t : State} (h : s.calm t) : s.calm (t.each l State.sensorStall) := by
    induction l generalizing t with
    | nil => exact h
    | cons k rest ih => exact ih (h.sensorStall k)
  simp only [State.badPoll, State.when]
  split
  · exact each _ (counted.same rfl rfl)
  · exact counted

theorem State.pollEnded_calm {result : State → State} (p : Nat) (s : State) (h : s.calm (result s)) :
    s.calm (s.pollEnded p result) := by
  unfold State.pollEnded
  split
  · exact State.calm_of_levels rfl rfl
  · exact h.same rfl rfl

end

/-! ## What events and requests make of the passages -/

section
variable {s t u : State}

/-- Calm changes and then lawful ones, in a flight that stays. -/
theorem State.sound_of_calm (legal : s.countLegal) (calm : s.calm u) (flight : u.flight = s.flight)
    (work : Works everywhere u t) : s.sound t :=
  (calm.sound (by unfold State.countLegal; rw [flight]; exact legal)).works work

theorem State.sound_of_calm_only (legal : s.countLegal) (calm : s.calm t) (flight : t.flight = s.flight) : s.sound t :=
  State.sound_of_calm legal calm flight (.refl t)

/-- A gate or a sluice that is set to FAULT is calm, and SAFE_HOLD entry lawful. -/
theorem State.sound_gateFails (legal : s.countLegal) (calm : s.calm t) (flight : t.flight = s.flight) (k : Nat)
    (cause : GateFault) : s.sound (t.gateFails k cause) := by
  have still : s.calm (t.setGate k (fun g => { g with state := .fault, cause := some cause, drive := .off, timer := none })) :=
    calm.setGate fun _ opening => by simp at opening
  have failed : s.calm (State.raise (.gateFault k cause (t.passage k).gate.position) (State.push (.passageChanged k)
      (t.setGate k (fun g => { g with state := .fault, cause := some cause, drive := .off, timer := none })))) :=
    (still.push (.passageChanged k)).same rfl rfl
  exact State.sound_of_calm legal failed flight (State.enterSafeHold_works _ _)

theorem State.sound_sluiceFails (legal : s.countLegal) (calm : s.calm t) (flight : t.flight = s.flight) (k : Nat)
    (cause : SluiceFault) : s.sound (t.sluiceFails k cause) := by
  have still : s.calm (t.setSluice k (fun x =>
      { x with state := .fault, cause := some cause, commanded := none, moveTimer := none, driven := false })) :=
    calm.setSluice fun _ c up => by simp at up
  have failed : s.calm (State.raise (.sluiceFault k cause (t.passage k).sluice.commanded (t.passage k).sluice.position)
      (State.push (.passageChanged k) (t.setSluice k (fun x =>
        { x with state := .fault, cause := some cause, commanded := none, moveTimer := none, driven := false })))) :=
    (still.push (.passageChanged k)).same rfl rfl
  exact State.sound_of_calm legal failed flight (State.enterSafeHold_works _ _)

theorem State.gateMoved_sound (legal : s.countLegal) (k : Nat) (x : GatePosition) : s.sound (s.gateMoved k x) := by
  have noted : s.calm (s.setGate k (fun g => { g with position := x })) :=
    (State.calm_of_pcu rfl rfl : s.calm s).setGate fun _ => id
  have state (k4 : k < 4) : ((s.setGate k (fun g => { g with position := x })).passage k).gate.state = (s.passage k).gate.state := by
    rw [State.passage_setGate_same k4]
  have still : s.sound (s.setGate k (fun g => { g with position := x })) := State.sound_of_calm_only legal noted rfl
  simp only [State.gateMoved, State.when]
  split
  · next moving =>
    split
    · exact still.works (State.endTravel_works (fun _ => trivial) fun inside => by simp [state inside, moving])
    · exact still
  · next moving =>
    split
    · exact still.works (State.endTravel_works (fun _ => trivial) fun inside => by simp [state inside, moving])
    · exact still
  · next stopped =>
    split
    · exact still.works (State.gateReached_works (fun _ => trivial) (GatePosition.endState_ne x) fun inside => by
        simp [state inside, stopped])
    · exact still
  · split
    · exact State.sound_gateFails legal noted rfl k _
    · exact still
  · split
    · exact State.sound_gateFails legal noted rfl k _
    · exact still
  · exact still

theorem State.feedbackTaken_sound (legal : s.countLegal) (k code : Nat) : s.sound (s.feedbackTaken k code) := by
  have noted : s.calm (s.setSluice k (fun y => { y with position := feedbackPosition code })) :=
    (State.calm_of_pcu rfl rfl : s.calm s).set fun _ old => ⟨old.gate, fun c up _ => up, old.claims⟩
  have still : s.sound (s.setSluice k (fun y => { y with position := feedbackPosition code })) :=
    State.sound_of_calm_only legal noted rfl
  simp only [State.feedbackTaken, State.when]
  split
  · next moving =>
    split
    · refine still.works (State.finishMove_works (State.freeAt_all (fun _ => trivial) _ k) fun inside shut => ?_)
      rw [State.passage_setSluice_same inside] at shut
      simp [moving] at shut
    · exact still
  · exact still
  · split
    · exact State.sound_sluiceFails legal noted rfl k _
    · exact still
  · split
    · exact State.sound_sluiceFails legal noted rfl k _
    · exact still

theorem FieldWork.sound {c : Instr} {f : State → State} (h : FieldWork c f) (s : State) (legal : s.countLegal) :
    s.sound (f s) := by
  have same : s.sound s := State.sound_of_works legal (.refl s)
  have calm : s.calm s := State.calm_of_pcu rfl rfl
  have poll {result : State → State} (p : Nat) (calm : s.calm (result s)) (flight : (result s).flight = s.flight) :
      s.sound (s.pollEnded p result) := by
    refine State.sound_of_calm_only legal (State.pollEnded_calm p s calm) ?_
    unfold State.pollEnded
    split
    · rfl
    · exact flight
  have levels {u : State} (only : s.levelsOnly u) : u.flight = s.flight := by
    obtain ⟨lm, core, -⟩ := only
    exact (congrArg Outer.flight core : _)
  cases h with
  | estopAsserted =>
    unfold State.takeEstop
    split
    · exact same
    · exact State.sound_of_calm (u := s.setEstop true) legal (calm.same rfl rfl) rfl (State.enterSafeHold_works _ _)
  | estopReleased =>
    unfold State.endEstop
    split
    · exact State.sound_of_calm_only legal (calm.same rfl rfl) rfl
    · exact same
  | valueReply address raw =>
    unfold State.takeValue
    split
    · split
      · exact poll _ (State.goodPoll_calm _ raw s) (levels (s.goodPoll_levelsOnly _ raw))
      · exact same
    · exact same
  | faultReply address =>
    unfold State.takeFaultReply
    split
    · split
      · exact poll _ (State.badPoll_calm _ _ s) (levels (s.badPoll_levelsOnly _ _))
      · exact same
    · exact same
  | pollTimeout =>
    unfold State.takePollTimeout
    split
    · split
      · exact poll _ (State.badPoll_calm _ _ s) (levels (s.badPoll_levelsOnly _ _))
      · exact same
    · exact same
  | limits k a b =>
    unfold State.takeLimits
    split
    · exact State.gateMoved_sound legal k _
    · exact same
  | travelTimeout k =>
    unfold State.takeTravelTimeout State.travelExpired
    repeat' split
    · exact State.sound_gateFails legal calm rfl k _
    · exact State.sound_of_calm_only legal (calm.setGate fun _ => id) rfl
    · exact same
  | feedback k code =>
    unfold State.takeFeedback
    split
    · exact State.feedbackTaken_sound legal k code
    · exact same
  | moveTimeout k =>
    unfold State.takeMoveTimeout State.moveExpired
    repeat' split
    · exact State.sound_sluiceFails legal calm rfl k _
    · exact State.sound_of_calm_only legal (calm.setSluice fun _ c up rises => ⟨up, rises⟩) rfl
    · exact same
  | rampExpiry k =>
    unfold State.takeRampExpiry State.rampExpired
    split
    · have stopped : Works everywhere s (s.setSluice k (fun x => { x with rampTimer := none })) :=
        .tune (State.freeAt_all (b := everywhere) (fun _ => trivial) s k) (fun _ => by rfl) (fun _ => by rfl)
          (fun _ => by rfl)
      exact State.sound_of_works legal
        (stopped.when fun _ => State.stepUp_works (State.freeAt_all (fun _ => trivial) _ k))
    · exact same
  | equaliseTimeout k =>
    have timed : s.calm (s.setOp k (fun y => { y with timer := none })) := calm.setOp fun _ => rfl
    simp only [State.takeEqualiseTimeout, State.equaliseExpired]
    repeat' split
    · exact same
    · have stalled : s.calm ((s.setOp k (fun y => { y with timer := none })).setOp k
          (fun y => { y with phase := .stalled, stall := some .timeout })) := timed.setOp fun _ => rfl
      have stopped : s.calm (((s.setOp k (fun y => { y with timer := none })).setOp k
          (fun y => { y with phase := .stalled, stall := some .timeout })).setSluice k
          (fun x => { x with rampTimer := none })) := stalled.setSluice fun _ c up rises => ⟨up, rises⟩
      exact State.sound_of_calm_only legal (stopped.same rfl rfl) rfl
    · exact State.sound_of_calm_only legal timed rfl
    · exact same
  | agreementExpiry k side =>
    unfold State.takeAgreementExpiry State.agreementExpired State.when
    repeat' split
    · exact State.sound_of_calm_only legal (calm.same rfl rfl) rfl
    · exact State.sound_of_calm_only legal (calm.same rfl rfl) rfl
    · exact same
  | silenceExpiry st =>
    unfold State.takeSilenceExpiry State.takeSilence State.holderSilent
    repeat' split
    · exact State.sound_of_calm_only legal (calm.same rfl rfl) rfl
    · exact State.sound_of_calm (u := (s.setPort st Port.fallSilent).setHolder none .silence _) legal (calm.same rfl rfl) rfl
        (State.enterSafeHold_works _ _)
    · exact State.sound_of_calm_only legal (calm.same rfl rfl) rfl
    · exact same

/-! ## Requests -/

theorem State.manualShut_works (k : Nat) : Works everywhere s (s.manualShut k) := by
  have free (u : State) : u.freeAt everywhere k := State.freeAt_all (fun _ => trivial) u k
  unfold State.manualShut
  split
  · exact State.lowerManual_works (free s)
  · split
    · have entered : Works everywhere s (s.setOp k (fun x => { x with phase := .shutting, stall := none })) :=
        .op (free s) fun _ _ => rfl
      simp only
      split
      · exact entered.trans (State.endOp_works (free _))
      · exact entered.trans (State.lowerManual_works (free _))
    · exact State.lowerManual_works (free s)

/-- A new target for a MANUAL operation: a step up is lawful, a lowering calm. -/
theorem State.moveManual_sound (legal : s.countLegal) {k : Nat} (inside : k < 4) (p : Nat) (o : Op) : s.sound (s.moveManual k p o) := by
  have calm : s.calm s := State.calm_of_pcu rfl rfl
  have aimed : s.calm (s.setOp k (fun x => { x with target := p })) := calm.setOp fun _ => rfl
  have targeted : s.calm ((s.setOp k (fun x => { x with target := p })).setSluice k (fun x => { x with target := p })) :=
    aimed.setSluice fun _ c up rises => ⟨up, rises⟩
  have phased (phase : OpPhase) : s.calm (((s.setOp k (fun x => { x with target := p })).setSluice k
      (fun x => { x with target := p })).setOp k (fun x => { x with phase := phase })) := targeted.setOp fun _ => rfl
  simp only [State.moveManual]
  split
  · simp only [State.retarget]
    split
    · exact State.sound_of_calm legal (phased .ramping) rfl
        (Works.when (.refl _) fun _ => State.stepUp_works (State.freeAt_all (fun _ => trivial) _ k))
    · split
      · exact State.sound_of_calm_only legal (phased .flowing) rfl
      · next above notHere =>
        refine State.sound_of_calm_only legal ((phased .flowing).lower ?_ fun _ => ?_)
          (State.flight_of_core (State.core_of_outer (State.lower_outer _ _ _)))
        · intro x slot
          rw [State.passage_setOp_same inside] at slot
          obtain ⟨o', -, rfl⟩ := Option.map_eq_some_iff.1 slot
          simp
        · rw [State.passage_setOp_same inside, State.passage_setSluice_same inside, State.passage_setOp_same inside]
          rw [State.passage_setOp_same inside] at above
          exact Nat.not_lt.1 above
  · exact State.sound_of_calm_only legal aimed rfl

/-- What SET_FLIGHT makes of the PCU: the passages follow a new N. -/
theorem State.applyFlight_pcu (f : FlightFields) (s : State) :
    (s.applyFlight f).pcu = (State.when (!decide (s.flight.n = some f.n)) (State.renumber s) { s with flight := flightOf f }).pcu := by
  simp only [State.applyFlight, State.reexamine, State.pushAll_pcu, State.regauge]
  cases State.when (!decide (s.flight.n = some f.n)) (State.renumber s) { s with flight := flightOf f } |>.flight |> s.flight.gaugeChanged
  · rfl
  · exact State.each_pcu _ _ (fun v u => u.withdrawWaiting_pcu .gauge v) _

/-- With every passage at rest a new N leaves every passage at rest. -/
theorem State.renewPassage_rest {u : State} {k : Nat} (gate : (u.passage k).gate.state ≠ .opening)
    (slot : (u.passage k).slot = none) :
    (State.renewPassage s u k).gate.state ≠ .opening ∧ (State.renewPassage s u k).slot = none
      ∧ ∀ c, (State.renewPassage s u k).sluice.commanded = some c → (u.passage k).sluice.commanded = some c := by
  unfold State.renewPassage
  split
  · exact ⟨gate, slot, fun _ => id⟩
  · split
    · obtain ⟨still, -, free⟩ := Passage.fromPins_rest u.timing (u.pins.limits.get k) (u.pins.feedback.get k)
      refine ⟨fun opening => ?_, free, fun c up => ?_⟩
      · rw [opening] at still
        cases still
      · simp [Passage.fromPins, Sluice.fromPins] at up
    · exact ⟨gate, slot, fun _ => id⟩

theorem State.claims_none_of_free (whole : s.claimsLegal) (free : ∀ j, j < 4 → (s.passage j).slot = none) {c : Nat} (k : Nat)
    (low : 1 ≤ c) (high : c ≤ 3) : s.pcu.claims.get c ≠ some k := by
  intro own
  obtain ⟨inside, -, o, slot, -⟩ := (whole c k low high).1 own
  rw [free k inside] at slot
  cases slot

theorem State.restBar_none {f : FlightFields} (other : s.flight.n ≠ some f.n) (passed : s.flightBar f = none) :
    ∀ j, j < 4 → (s.passage j).atRest = true := by
  unfold State.flightBar at passed
  split at passed
  · cases passed
  · split at passed
    · cases passed
    · cases passed
    · cases passed
    · next rest =>
      intro j inside
      simp only [State.restBar, other, if_false, Option.map_eq_none_iff, List.find?_eq_none] at rest
      have := rest j (by interval_cases j <;> simp)
      simpa using this

theorem State.applyFlight_sound {f : FlightFields} (passed : s.flightBar f = none) :
    s.sound (s.applyFlight f) := by
  have flight : (s.applyFlight f).flight = flightOf f := congrArg Outer.flight (State.applyFlight_outer f s)
  have after : (s.applyFlight f).countLegal := by
    intro n described
    rw [flight] at described
    obtain rfl : f.n = n := Option.some.inj described
    exact State.countLegal_of_flightBar passed
  by_cases same : s.flight.n = some f.n
  · have pcu : (s.applyFlight f).pcu = s.pcu := by rw [State.applyFlight_pcu, same]; simp [State.when]
    have count : (s.applyFlight f).count = s.count := by simp only [State.count, flight, same, flightOf]
    exact State.calm.sound (State.calm_of_pcu pcu count) after
  · have resting := State.restBar_none same passed
    have pcu : (s.applyFlight f).pcu = (State.renumber s { s with flight := flightOf f }).pcu := by
      rw [State.applyFlight_pcu]; simp [State.when, same]
    have claims : (s.applyFlight f).pcu.claims = s.pcu.claims := by
      rw [pcu, State.renumber, State.reformHeads, State.when]
      split <;> rfl
    have read (j : Nat) (inside : j < 4) :
        (s.applyFlight f).passage j = State.renewPassage s { s with flight := flightOf f } j := by
      rw [State.passage, pcu, State.renumber, State.reformHeads, State.when]
      split <;> interval_cases j <;> rfl
    have free (j : Nat) (inside : j < 4) : (s.passage j).slot = none := by
      have := resting j inside
      simp only [Passage.atRest, Bool.and_eq_true, Option.isNone_iff_eq_none] at this
      exact this.1.1
    have gate (j : Nat) (inside : j < 4) : (s.passage j).gate.state ≠ .opening := by
      intro opening
      have := resting j inside
      simp [Passage.atRest, opening, GateState.travelling] at this
    have renewed (j : Nat) (inside : j < 4) :=
      State.renewPassage_rest (s := s) (u := { s with flight := flightOf f }) (gate j inside) (free j inside)
    refine State.sound_of_resting after (fun j inside => ?_) (fun j inside => ?_) (fun j inside c up => ?_)
      fun whole c k low high => ?_
    · rw [read j inside]
      exact (renewed j inside).1
    · rw [read j inside]
      exact (renewed j inside).2.1
    · rw [read j inside] at up
      exact (renewed j inside).2.2 c up
    · rw [claims]
      exact State.claims_none_of_free whole free k low high

theorem Serves.sound {st : Station} {r : Request} (h : Serves st s r t) (legal : s.countLegal) : s.sound t := by
  have calm : s.calm s := State.calm_of_pcu rfl rfl
  have flown {u : State} (pcu : u.pcu = s.pcu) (flight : u.flight = s.flight) : s.sound u :=
    State.sound_of_calm_only legal (State.calm_of_pcu pcu (by simp only [State.count, flight])) flight
  have beside {u : State} (pcu : u.pcu = s.pcu) (core : u.core = s.core) : s.sound u := flown pcu (State.flight_of_core core)
  have settled {u : State} (h : s.sound u) : s.sound u.settle := h.works (Works.settle (.refl u))
  have worked {u : State} (h : Works everywhere s u) : s.sound u.settle := State.sound_of_works legal h.settle
  have free (u : State) (k : Nat) : u.freeAt everywhere k := State.freeAt_all (fun _ => trivial) u k
  have inside {k : Nat} (use : s.inUse k = true) : k < 4 := by
    have := State.count_le legal
    simp only [State.inUse, decide_eq_true_eq] at use
    omega
  cases h with
  | unchanged | lostCleared | subscribed | overflowed | claimed | lodged | released | denied | timingSet | clockSet | tariffSet
    | accountOpened | accountClosed => exact State.sound_of_calm_only legal (State.calm_of_pcu rfl rfl) rfl
  | announced => exact settled (beside (by simp) (by simp [State.core_of_outer (State.calling_outer _)]))
  | amended mark p m v b n => exact settled (beside (by cases b <;> rfl) (State.core_of_outer (by cases b <;> simp)))
  | withdrawn mark v => exact beside (s.withdrawWaiting_pcu .withdraw v) (State.core_of_outer (s.withdrawWaiting_outer _ v))
  | berthDropped => exact settled (beside (by simp) (by simp))
  | autoSwitched on b => exact settled (beside (s.switchAuto_pcu b) (State.core_of_outer (s.switchAuto_outer b)))
  | planned => exact settled (beside (by simp) (State.core_of_outer (s.createTransit_outer _ _ _)))
  | queuedCancelled id t => exact settled (beside (s.cancelQueued_pcu t) (State.core_of_outer (s.cancelQueued_outer t)))
  | entryCancelled id t m => exact worked (State.cancelEntry_works t m)
  | confirmed id kind t m => exact worked (State.takeConfirmation_works t m)
  | cleared id kind t m =>
    have posted := State.settleWith_core t (s.settlement t) (s.takeConfirmation t m)
    exact worked ((State.takeConfirmation_works t m).trans (.neutral (State.settleWith_pcu _ t _)
      (congrArg Outer.flight posted) (congrArg Outer.lm posted)))
  | abandoned id t => exact worked (State.abandonTransit_works t)
  | retried k => exact worked (State.returnToWaiting_works (free s k))
  | gateOpened k a use may => exact worked (State.commandOpen_works (fun _ => trivial) true may)
  | gateClosed k a use => exact worked (State.commandClose_works (fun _ => trivial) true)
  | gateStopped k a use => exact worked (State.stopGate_works fun _ => trivial)
  | sluiceShut k p use => exact worked (State.manualShut_works k)
  | sluiceRaised k p use =>
    refine settled ?_
    unfold State.manualRaise
    split
    · next slot => exact State.sound_of_works legal (State.createOp_works slot)
    · split
      · exact State.moveManual_sound legal (inside use) p _
      · exact State.sound_of_works legal (State.takeOver_works (fun _ => trivial) p _)
  | permitted k a x use =>
    have set_ (on : Bool) : s.calm (s.setPermit k on) := calm.set fun _ old => ⟨old.gate, old.sluice, old.claims⟩
    refine settled ?_
    cases x with
    | grant =>
      exact State.sound_of_calm legal (set_ true) rfl
        ((Works.push (.refl _) _).trans (State.retryOpen_works (State.heldBut_everywhere _) k))
    | withdraw => exact State.sound_of_calm legal (set_ false) rfl (.push (.refl _) _)
  | stopped => exact worked (State.enterSafeHold_works _ s)
  | resumed => exact worked (State.enterService_works _ s)
  | left => exact worked (State.enterService_works _ s)
  | configured => exact settled (flown s.enterConfigMode_pcu (congrArg Outer.flight s.enterConfigMode_core))
  | flightSet f passed => exact settled (State.applyFlight_sound passed)
  | sensorSet f => exact settled (State.sound_of_calm_only legal (State.calm_of_pcu rfl rfl) rfl)
  | accountHeld r n f => exact beside (s.changeAccount_pcu n f) (s.changeAccount_core n f)
  | accountChanged r n f => exact settled (beside (by simp) (by simp [State.core_of_outer (State.push_outer _ _)]))
  | paid n amount => exact settled (flown (s.postPayment_pcu n amount) (congrArg Outer.flight (State.postPayment_core n amount s)))
  | taken n => exact settled (State.sound_of_calm_only legal (State.calm_of_pcu rfl rfl) rfl)
  | orphansResolved => exact beside s.resolveOrphans_pcu s.resolveOrphans_core
  | slotSet m n q => exact beside s.resolveOrphans_pcu ((State.setSlot_core n q _).trans s.resolveOrphans_core)

/-! ## Resets and steps -/

/-- Passages read from the inputs, with no chamber claimed, are sound. -/
theorem State.sound_of_fresh (legal : t.countLegal) {x : Timing} {pins : Pins} (pcu : t.pcu = Pcu.fromPins x pins) :
    s.sound t := by
  have read (j : Nat) : t.passage j = Passage.fromPins x (pins.limits.get j) (pins.feedback.get j) := by
    rw [State.passage, pcu]
    exact Pcu.fromPins_passage x pins j
  refine State.sound_of_resting legal (fun j _ opening => ?_) (fun j _ => ?_) (fun j _ c up => ?_) fun _ c k _ _ => ?_
  · rw [read] at opening
    have still := (Passage.fromPins_rest x (pins.limits.get j) (pins.feedback.get j)).1
    rw [opening] at still
    cases still
  · rw [read]
    rfl
  · rw [read] at up
    cases up
  · rw [pcu]
    rcases c with _ | _ | _ | c <;> exact fun h => by cases h

/-- The same calm change of every passage. -/
theorem State.calm_of_map {f : Passage → Passage} (each : ∀ p : Passage, p.calm (f p)) (passages : t.pcu.passages = s.pcu.passages.map f)
    (claims : t.pcu.claims = s.pcu.claims) (count : t.count = s.count) : s.calm t := by
  refine ⟨count, fun j _ => ?_, claims⟩
  rw [show t.passage j = f (s.passage j) by rw [State.passage, passages, Quad.get_map]; rfl]
  exact each _

theorem State.countDown_calm (s : State) : s.calm s.countDown := by
  unfold State.countDown
  split
  · exact State.calm_of_pcu rfl rfl
  · refine State.calm_of_map (f := Passage.countDown) (fun p => ⟨id, fun c up _ => up, ?_⟩) rfl rfl rfl
    cases slot : p.slot <;> simp [Passage.holds, Passage.countDown, slot]

theorem State.resetHeld_calm (s : State) : s.calm s.resetHeld :=
  State.calm_of_map (f := Passage.dropDrives) (fun _ => ⟨id, fun _ up _ => up, rfl⟩) rfl rfl rfl

theorem Leaves.sound {c : Instr} (h : Leaves s c t) (legal : s.countLegal) : s.sound t := by
  have recorded (x : Pins) : s.calm { s with pins := x } := State.calm_of_pcu rfl rfl
  have from_recorded {x : Pins} {u : State} (h : State.sound { s with pins := x } u) : s.sound u :=
    ⟨h.legal, h.apart, ⟨h.interlocked.gates, h.interlocked.sluices⟩, h.claims⟩
  cases h with
  | supplied =>
    have fresh : s.sound s.powerOnBlocks := State.sound_of_fresh (fun _ described => by cases described) rfl
    exact fresh.works (Works.finish (Works.when (.refl _) fun _ => State.enterSafeHold_works _ _))
  | resetHeld => exact State.sound_of_calm_only legal s.resetHeld_calm rfl
  | resetEnds => exact State.sound_of_fresh legal rfl
  | restarted => exact State.sound_of_fresh legal rfl
  | worked c f x work =>
    exact (from_recorded (FieldWork.sound work { s with pins := x } legal)).works (Works.finish (.refl _))
  | served c h r a p u asked right same block =>
    have ported : State.sound { s with ports := p } u := Serves.sound block legal
    exact ⟨ported.legal, ported.apart, ⟨ported.interlocked.gates, ported.interlocked.sluices⟩, ported.claims⟩
  | recorded c x => exact State.sound_of_calm_only legal (recorded x) rfl
  | ticked =>
    exact State.sound_of_calm_only legal (State.calm_of_pcu rfl rfl) rfl
  | overdue id =>
    have kept : (s.takeOverdue id).pcu = s.pcu ∧ (s.takeOverdue id).count = s.count ∧ (s.takeOverdue id).flight = s.flight := by
      unfold State.takeOverdue
      repeat' split
      all_goals exact ⟨rfl, rfl, rfl⟩
    exact State.sound_of_calm_only legal (State.calm.same (State.calm_of_pcu kept.1 kept.2.1) rfl rfl) kept.2.2
  | lit | second | ported | pumped => exact State.sound_of_calm_only legal (State.calm_of_pcu rfl rfl) rfl
  | discarded n =>
    unfold State.takeDiscard
    split <;> exact State.sound_of_calm_only legal (State.calm_of_pcu rfl rfl) rfl
  | handedOver =>
    unfold State.takeHandover
    split <;> exact State.sound_of_calm_only legal (State.calm_of_pcu rfl rfl) rfl

/-- A step leaves the passages sound. -/
theorem step_sound (legal : s.countLegal) (stepped : step s = .next t) : s.sound t := by
  rcases step_leaves stepped with ⟨c, rest, left⟩ | rfl
  · have queued : State.sound { s with pending := rest } t := Leaves.sound left legal
    exact ⟨queued.legal, queued.apart, ⟨queued.interlocked.gates, queued.interlocked.sluices⟩, queued.claims⟩
  · exact State.sound_of_calm_only legal s.countDown_calm (by unfold State.countDown; split <;> rfl)

end

/-- Settles O60: a step makes calm changes of the passages and then lawful ones, each of which opens or raises only under the interlock and keeps the claims whole. -/
theorem gatesKeptApart : Obligations.GatesKeptApart := by
  refine ⟨fun s t legal apart stepped => ?_, fun s t k legal stepped used => ⟨fun shut opening => ?_, fun c up other rises => ?_⟩,
    fun s t legal whole stepped => ?_⟩
  · have sound := step_sound legal stepped
    exact ⟨sound.legal, sound.apart apart⟩
  · obtain ⟨apart, permissive⟩ := ((step_sound legal stepped).interlocked.gates k used opening).resolve_left shut
    refine ⟨apart, ?_⟩
    simpa [State.permissive, State.sensorsGood] using permissive
  · exact (((step_sound legal stepped).interlocked.sluices k used c up rises).resolve_left other).2
  · exact (step_sound legal stepped).claims whole

end Sys2Proof.Machine
end

