-- ==== Sys2Proof/Proofs/Polls.lean ====
section
/-! SUPPORT. The ends of a poll: what a good and a bad one make of the levels, which poll follows, and the end of a poll under a new N. Settles O12, O13. -/

namespace Sys2Proof.Machine

/-! ## Records and counters -/

theorem Quin.get_set_same {α : Type} (q : Quin α) {p : Nat} (x : α) (h : p ≤ 4) : (q.set p x).get p = x := by
  match p, h with
  | 0, _ => rfl
  | 1, _ => rfl
  | 2, _ => rfl
  | 3, _ => rfl
  | 4, _ => rfl

theorem Quin.get_set_other {α : Type} (q : Quin α) {j p : Nat} (x : α) (inside : j ≤ 4) (apart : j ≠ p) :
    (q.set p x).get j = q.get j := by
  rcases p with _ | _ | _ | _ | _ | p <;> rcases j with _ | _ | _ | _ | _ | j
  all_goals first | rfl | exact absurd rfl apart | omega

theorem Quin.set_set {α : Type} (q : Quin α) (p : Nat) (x y : α) : (q.set p x).set p y = q.set p y := by
  rcases p with _ | _ | _ | _ | _ | p <;> rfl

/-- A table whose places of a list have been changed one after another. -/
theorem Quad.get_foldl_set {α : Type} (f : Nat → α → α) {l : List Nat} (once : l.Nodup) (q : Quad α) {k : Nat} (inside : k < 4) :
    (l.foldl (fun x j => x.set j (f j (x.get j))) q).get k = if k ∈ l then f k (q.get k) else q.get k := by
  induction l generalizing q with
  | nil => simp
  | cons j rest ih =>
    obtain ⟨absent, once'⟩ := List.nodup_cons.1 once
    rw [List.foldl_cons, ih once']
    by_cases here : k = j
    · subst here
      simp [absent, Quad.get_set_same _ _ inside]
    · simp [here, Quad.get_set_other _ _ inside here]

theorem LevelMonitor.setSensor_setSensor (f g : Sensor → Sensor) {p : Nat} (h : p ≤ 4) (lm : LevelMonitor) :
    (lm.setSensor p f).setSensor p g = lm.setSensor p (fun x => g (f x)) := by
  simp only [LevelMonitor.setSensor, Quin.get_set_same _ _ h, Quin.set_set]

theorem State.nodup_passagesBeside (s : State) (p : Nat) : (s.passagesBeside p).Nodup := by
  unfold State.passagesBeside
  split <;> split <;> simp
  omega

theorem State.mem_passagesBeside {s : State} {p k : Nat} : k ∈ s.passagesBeside p ↔ k + 1 = p ∨ (k = p ∧ p ≤ s.count) := by
  unfold State.passagesBeside
  split <;> split <;> simp <;> omega

/-! ## The poll that follows (R2) -/

/-- The poll after that of pound p: the next pound's, or the next round's where a tick is held. -/
theorem LevelMonitor.nextPoll_eq (p : Nat) (lm : LevelMonitor) : lm.nextPoll p = { lm with
    poll := if decide (lm.polledN.getD 3 + 1 ≤ p) then (if lm.tickHeld then some { pound := 0, left := 20 } else none)
      else some { pound := p + 1, left := 20 }
    tickHeld := !decide (lm.polledN.getD 3 + 1 ≤ p) && lm.tickHeld } := by
  unfold LevelMonitor.nextPoll LevelMonitor.lastPound
  split
  · next next =>
    have more : ¬ lm.polledN.getD 3 + 1 ≤ p := by omega
    simp only [more, decide_false, Bool.not_false, Bool.true_and, Bool.false_eq_true, if_false]
    rfl
  · next last =>
    have last : lm.polledN.getD 3 + 1 ≤ p := by omega
    simp only [last, decide_true, Bool.not_true, Bool.false_and, if_true]
    unfold LevelMonitor.endRound
    cases held : lm.tickHeld <;> simp [LevelMonitor.send, Config.pollTimeout]

theorem State.pollEnded_reform {s : State} (due : s.lm.reformDue = true) (p : Nat) (result : State → State) :
    s.pollEnded p result = { s with lm := { s.lm with
      sensors := s.lm.sensors.map Sensor.afresh, still := Quad.all 0
      poll := if s.lm.tickHeld then some { pound := 0, left := 20 } else none
      tickHeld := false, polledN := s.flight.n, reformDue := false } } := by
  rw [State.pollEnded, if_pos due]
  unfold LevelMonitor.endRound LevelMonitor.reform
  cases held : s.lm.tickHeld <;> simp [LevelMonitor.send, Config.pollTimeout]

theorem State.pollEnded_taken {s : State} (kept : s.lm.reformDue = false) (p : Nat) (result : State → State) :
    s.pollEnded p result = { result s with lm := (result s).lm.nextPoll p } := by
  rw [State.pollEnded, if_neg (by simp [kept])]

/-! ## A good poll (R6, R8 to R10) -/

/-- The conditions of R10 on the records of two pounds. -/
theorem LevelMonitor.stillHolds_iff (lm : LevelMonitor) (k : Nat) : lm.stillHolds k = true ↔
    (lm.sensors.get k).status = .good ∧ (lm.sensors.get (k + 1)).status = .good
      ∧ (lm.sensors.get k).level.stale = false ∧ (lm.sensors.get (k + 1)).level.stale = false
      ∧ (lm.sensors.get k).level.mean ≤ (lm.sensors.get (k + 1)).level.mean + lm.eqTol
      ∧ (lm.sensors.get (k + 1)).level.mean ≤ (lm.sensors.get k).level.mean + lm.eqTol
      ∧ (lm.sensors.get k).level.ripple ≤ lm.rippleLim ∧ (lm.sensors.get (k + 1)).level.ripple ≤ lm.rippleLim := by
  have gap (a b c : Nat) : levelGap a b ≤ c ↔ a ≤ b + c ∧ b ≤ a + c := by
    unfold levelGap
    omega
  simp only [LevelMonitor.stillHolds, Bool.and_eq_true, decide_eq_true_eq, Bool.not_eq_true', gap]
  tauto

theorem LevelMonitor.stillHolds_eq (lm : LevelMonitor) (k : Nat) : lm.stillHolds k = decide (
    (lm.sensors.get k).status = .good ∧ (lm.sensors.get (k + 1)).status = .good
      ∧ (lm.sensors.get k).level.stale = false ∧ (lm.sensors.get (k + 1)).level.stale = false
      ∧ (lm.sensors.get k).level.mean ≤ (lm.sensors.get (k + 1)).level.mean + lm.eqTol
      ∧ (lm.sensors.get (k + 1)).level.mean ≤ (lm.sensors.get k).level.mean + lm.eqTol
      ∧ (lm.sensors.get k).level.ripple ≤ lm.rippleLim ∧ (lm.sensors.get (k + 1)).level.ripple ≤ lm.rippleLim) := by
  rw [Bool.eq_iff_iff, lm.stillHolds_iff, decide_eq_true_iff]

/-- One still counter as a window close leaves it. -/
def LevelMonitor.counted (lm : LevelMonitor) (k n : Nat) : Nat := if lm.stillHolds k then min 15 (n + 1) else 0

theorem LevelMonitor.evaluate_all (l : List Nat) (lm : LevelMonitor) : l.foldl LevelMonitor.evaluate lm
    = { lm with still := l.foldl (fun x k => x.set k (lm.counted k (x.get k))) lm.still } := by
  have from_still (still : Quad Nat) : l.foldl LevelMonitor.evaluate { lm with still := still }
      = { lm with still := l.foldl (fun x k => x.set k (lm.counted k (x.get k))) still } := by
    induction l generalizing still with
    | nil => rfl
    | cons k rest ih => exact ih _
  exact from_still lm.still

section
variable (s : State) (p raw : Nat)

/-- The record of pound p with its good poll counted. -/
def State.goodRuns : Sensor := { s.sensor p with badRun := 0, goodRun := min 8 ((s.sensor p).goodRun + 1) }

/-- The window of pound p with its new sample. -/
def State.sampled : Accum :=
  (s.sensor p).accum.join (convertLevel (s.sensor p).zero (s.sensor p).span raw)
    (convertClamped (s.sensor p).zero (s.sensor p).span raw)

/-- The state with another record of a pound. -/
def State.withSensor (x : Sensor) (s : State) : State := { s with lm := { s.lm with sensors := s.lm.sensors.set p x } }

/-- The record of pound p with its window closed. -/
def State.windowRecord : Sensor :=
  { s.goodRuns p with accum := Accum.empty, level := (s.sampled p raw).close s.lm.w (s.sensor p).level.count }

/-- The still counters as the window of pound p leaves them. -/
def State.stillClosed : Quad Nat :=
  (s.passagesBeside p).foldl (fun x k => x.set k ((s.withSensor p (s.windowRecord p raw)).lm.counted k (x.get k))) s.lm.still

/-- What a closed window of pound p leaves before the next poll, with the still counters it leaves (R9, R11, R31). -/
def State.closedBy (still : Quad Nat) : State :=
  let closed := s.withSensor p (s.windowRecord p raw)
  State.pushAll (((s.passagesBeside p).filter (fun k =>
      decide (s.lm.still.get k < s.lm.stillCount ∧ s.lm.stillCount ≤ still.get k))).map Task.equalTrue
        ++ (s.passagesBeside p).map Task.examine)
    (State.raise (.levelWindow p (s.windowRecord p raw).level
      ((s.passagesBeside p).map (fun k => (k, decide (s.lm.stillCount ≤ still.get k)))))
      { closed with lm := { closed.lm with still := still } })

end

theorem equalRisen_eq (before after : LevelMonitor) (l : List Nat) : equalRisen before after l
    = l.filter (fun k => decide (before.still.get k < before.stillCount ∧ after.stillCount ≤ after.still.get k)) := by
  refine List.filter_congr fun k _ => ?_
  rw [Bool.eq_iff_iff]
  simp only [LevelMonitor.equal, Bool.and_eq_true, Bool.not_eq_true', decide_eq_false_iff_not, decide_eq_true_eq, Nat.not_le]

theorem State.windowClosed_of {u : State} {p : Nat} {lm : LevelMonitor} {risen : List Nat} {record : LevelRecord}
    (closed : u.lm.closeWindow p (u.passagesBeside p) = lm) (rising : equalRisen u.lm lm (u.passagesBeside p) = risen)
    (recorded : (lm.sensors.get p).level = record) : u.windowClosed p
      = State.pushAll (risen.map Task.equalTrue ++ (u.passagesBeside p).map Task.examine)
          (State.raise (.levelWindow p record ((u.passagesBeside p).map (fun k => (k, lm.equal k)))) { u with lm := lm }) := by
  subst closed rising recorded
  simp only [State.windowClosed, State.pushAll, List.append_assoc]

section
variable {s : State} {p raw : Nat} (inside : p ≤ 4)
include inside

theorem State.goodPoll_joins (good : (s.sensor p).status = .good) (open' : (s.sampled p raw).count < s.lm.w) :
    s.goodPoll p raw = s.withSensor p { s.goodRuns p with accum := s.sampled p raw } := by
  simp only [State.goodPoll, good, State.accumulate, LevelMonitor.setSensor_setSensor _ _ inside]
  rw [State.when, if_neg]
  · rfl
  · simp only [State.sensor, LevelMonitor.setSensor, Quin.get_set_same _ _ inside, decide_eq_true_eq, Nat.not_le]
    exact open'

theorem State.goodPoll_closes (good : (s.sensor p).status = .good) (full : s.lm.w ≤ (s.sampled p raw).count) :
    s.goodPoll p raw = s.closedBy p raw (s.stillClosed p raw) := by
  simp only [State.goodPoll, good, State.accumulate, LevelMonitor.setSensor_setSensor _ _ inside]
  rw [State.when, if_pos]
  · have closes : LevelMonitor.closeWindow p (s.passagesBeside p) (s.lm.setSensor p (fun x => { x.countGood with
        accum := x.accum.join (convertLevel x.zero x.span raw) (convertClamped x.zero x.span raw) }))
        = { (s.withSensor p (s.windowRecord p raw)).lm with still := s.stillClosed p raw } := by
      rw [LevelMonitor.closeWindow, LevelMonitor.setSensor_setSensor _ _ inside, LevelMonitor.evaluate_all]
      rfl
    have record : ((s.lm.sensors.set p (s.windowRecord p raw)).get p).level = (s.windowRecord p raw).level := by
      rw [Quin.get_set_same _ _ inside]
    have rising : equalRisen s.lm { (s.withSensor p (s.windowRecord p raw)).lm with still := s.stillClosed p raw }
        (s.passagesBeside p) = (s.passagesBeside p).filter (fun k =>
          decide (s.lm.still.get k < s.lm.stillCount ∧ s.lm.stillCount ≤ (s.stillClosed p raw).get k)) := equalRisen_eq _ _ _
    exact State.windowClosed_of closes rising record
  · simp only [State.sensor, LevelMonitor.setSensor, Quin.get_set_same _ _ inside, decide_eq_true_eq]
    exact full

theorem State.goodPoll_recovers (failed : (s.sensor p).status = .failed) (eighth : (s.goodRuns p).goodRun = 8) :
    s.goodPoll p raw = State.pushAll ((s.passagesBeside p).map Task.examine)
      (State.raise (.sensorGood p) (s.withSensor p { s.goodRuns p with status := .good })) := by
  simp only [State.goodPoll, failed]
  rw [State.when, if_pos]
  · simp only [State.sensorRecovers, LevelMonitor.setSensor_setSensor _ _ inside]
    rfl
  · simp only [State.sensor, LevelMonitor.setSensor, Quin.get_set_same _ _ inside, decide_eq_true_eq]
    exact eighth

theorem State.goodPoll_counts (failed : (s.sensor p).status = .failed) (early : (s.goodRuns p).goodRun ≠ 8) :
    s.goodPoll p raw = s.withSensor p (s.goodRuns p) := by
  simp only [State.goodPoll, failed]
  rw [State.when, if_neg]
  · rfl
  · simp only [State.sensor, LevelMonitor.setSensor, Quin.get_set_same _ _ inside, decide_eq_true_eq]
    exact early

end

/-! ## What a poll leaves of the Level Monitor -/

/-- The state as the end of the poll of pound p leaves it: a record of that pound, still counters, and the poll that follows. -/
structure State.polled (s : State) (p : Nat) (x : Sensor) (still : Quad Nat) (t : State) : Prop where
  lm : t.lm = { s.lm with
    sensors := s.lm.sensors.set p x, still := still
    poll := if decide (s.lm.polledN.getD 3 + 1 ≤ p) then (if s.lm.tickHeld then some { pound := 0, left := 20 } else none)
      else some { pound := p + 1, left := 20 }
    tickHeld := !decide (s.lm.polledN.getD 3 + 1 ≤ p) && s.lm.tickHeld }
  steady : { t.steady with lm := s.lm } = s.steady
  ports : t.quietPorts = s.quietPorts

section
variable {s t u : State} {p : Nat} {x : Sensor} {still : Quad Nat}

/-- The next poll sent and the event ended, after work that changes a record and the counters. -/
theorem State.polled_finish (lm : u.lm = { s.lm with sensors := s.lm.sensors.set p x, still := still })
    (steady : { u.steady with lm := s.lm } = s.steady) (ports : u.quietPorts = s.quietPorts) :
    s.polled p x still (State.finish { u with lm := u.lm.nextPoll p }) := by
  refine ⟨?_, ?_, ?_⟩
  · rw [State.finish_lm, lm]
    exact LevelMonitor.nextPoll_eq p _
  · rw [State.steady_finish]
    exact steady
  · rw [State.quietPorts_finish]
    exact ports

theorem State.polled.next (h : s.polled p x still t) :
    (p < s.lm.polledN.getD 3 + 1 → t.lm.poll = some { pound := p + 1, left := 20 } ∧ t.lm.tickHeld = s.lm.tickHeld)
      ∧ (s.lm.polledN.getD 3 + 1 ≤ p → t.lm.tickHeld = false
          ∧ t.lm.poll = if s.lm.tickHeld then some { pound := 0, left := 20 } else none) := by
  rw [h.lm]
  refine ⟨fun more => ?_, fun last => ?_⟩
  · have more : ¬ s.lm.polledN.getD 3 + 1 ≤ p := by omega
    simp [more]
  · simp [last]

theorem State.polled.sensors (h : s.polled p x still t) (inside : p ≤ 4) :
    t.lm.sensors.get p = x ∧ ∀ q, q ≤ 4 → q ≠ p → t.lm.sensors.get q = s.lm.sensors.get q := by
  rw [h.lm]
  exact ⟨Quin.get_set_same _ _ inside, fun q inside' apart => Quin.get_set_other _ _ inside' apart⟩

theorem State.polled.rest (h : s.polled p x still t) :
    { t.lm with sensors := s.lm.sensors, still := s.lm.still, poll := s.lm.poll, tickHeld := s.lm.tickHeld } = s.lm := by
  rw [h.lm]

theorem State.polled.still_eq (h : s.polled p x still t) : t.lm.still = still := by rw [h.lm]

end

section
variable {s : State} {p raw left : Nat}

theorem exec_valueReply_matched (running : s.pins.reset = false) (polling : s.lm.poll = some { pound := p, left := left })
    (readable : raw ≤ 4095) : exec (.pollValueReply (p + 1) raw) s = .next (s.pollEnded p (State.goodPoll p raw)).finish := by
  refine congrArg Host.Outcome.next ((State.event_running _ running).trans (congrArg State.finish ?_))
  simp [State.takeValue, polling, replyMatches, readable]

theorem exec_valueReply_taken (running : s.pins.reset = false) (polling : s.lm.poll = some { pound := p, left := left })
    (readable : raw ≤ 4095) (kept : s.lm.reformDue = false) : exec (.pollValueReply (p + 1) raw) s
      = .next (State.finish { s.goodPoll p raw with lm := (s.goodPoll p raw).lm.nextPoll p }) := by
  rw [exec_valueReply_matched running polling readable, State.pollEnded_taken kept]

theorem State.polled_withSensor (x : Sensor) :
    s.polled p x s.lm.still (State.finish { s.withSensor p x with lm := (s.withSensor p x).lm.nextPoll p }) :=
  State.polled_finish (u := s.withSensor p x) rfl rfl rfl

/-- A good poll and what it makes of the record of its pound and of the still counters, by the sensor's status and its window. -/
theorem State.goodPoll_polled (inside : p ≤ 4) : ∃ x still,
    s.polled p x still (State.finish { s.goodPoll p raw with lm := (s.goodPoll p raw).lm.nextPoll p })
      ∧ ((s.sensor p).status = .good → (s.sampled p raw).count < s.lm.w →
          x = { s.goodRuns p with accum := s.sampled p raw } ∧ still = s.lm.still)
      ∧ ((s.sensor p).status = .good → s.lm.w ≤ (s.sampled p raw).count →
          x = s.windowRecord p raw ∧ still = s.stillClosed p raw)
      ∧ ((s.sensor p).status = .failed →
          x = { s.goodRuns p with status := if (s.goodRuns p).goodRun = 8 then .good else .failed } ∧ still = s.lm.still) := by
  cases status : (s.sensor p).status with
  | good =>
    rcases Nat.lt_or_ge (s.sampled p raw).count s.lm.w with open' | full
    · rw [State.goodPoll_joins inside status open']
      exact ⟨_, _, State.polled_withSensor _, fun _ _ => ⟨rfl, rfl⟩, fun _ full => absurd full (Nat.not_le.2 open'),
        nofun⟩
    · rw [State.goodPoll_closes inside status full]
      exact ⟨_, _, State.polled_finish rfl rfl (State.quietPorts_raise _ _),
        fun _ open' => absurd full (Nat.not_le.2 open'), fun _ _ => ⟨rfl, rfl⟩, nofun⟩
  | failed =>
    by_cases eighth : (s.goodRuns p).goodRun = 8
    · rw [State.goodPoll_recovers inside status eighth]
      exact ⟨_, _, State.polled_finish rfl rfl (State.quietPorts_raise _ _), nofun, nofun,
        fun _ => ⟨by rw [if_pos eighth], rfl⟩⟩
    · rw [State.goodPoll_counts inside status eighth]
      refine ⟨_, _, State.polled_withSensor _, nofun, nofun, fun _ => ⟨?_, rfl⟩⟩
      rw [if_neg eighth, ← status]
      rfl

theorem State.stillClosed_get (k : Nat) (inside : k < 4) : (s.stillClosed p raw).get k
    = if k ∈ s.passagesBeside p then (s.withSensor p (s.windowRecord p raw)).lm.counted k (s.lm.still.get k)
      else s.lm.still.get k :=
  Quad.get_foldl_set (fun k n => (s.withSensor p (s.windowRecord p raw)).lm.counted k n) (s.nodup_passagesBeside p) _ inside

end

/-- Settles O12: a good poll is one of four, by its sensor's status and what its sample makes of the window or its run of the status. -/
theorem goodPollTaken : Obligations.GoodPollTaken := by
  refine ⟨fun s k => decide_eq_true_iff, fun s p raw left running polling readable due => ?_, fun s address raw running other => ?_,
    fun s p raw left running polling inside readable kept => ?_⟩
  · rw [exec_valueReply_matched running polling readable, State.pollEnded_reform due]
    rfl
  · refine congrArg Host.Outcome.next ((State.event_running _ running).trans (congrArg State.finish ?_))
    unfold State.takeValue
    split
    · next q polling =>
      rw [if_neg]
      rcases other with idle | ⟨q', polling', other⟩ | unreadable
      · simp [idle] at polling
      · cases polling.symm.trans polling'
        simp [replyMatches, other]
      · simp [Nat.not_le.2 unreadable]
    · rfl
  · have taken := exec_valueReply_taken running polling readable kept
    refine ⟨⟨_, taken, ?_⟩, ?_⟩
    · obtain ⟨x, still, polled, joined, closed, failed⟩ := State.goodPoll_polled (s := s) (raw := raw) inside
      obtain ⟨own, others⟩ := polled.sensors inside
      obtain ⟨more, last⟩ := polled.next
      have untouched (k : Nat) (k4 : k < 4) (apart : k ∉ s.passagesBeside p) : still.get k = s.lm.still.get k := by
        cases status : (s.sensor p).status with
        | good =>
          rcases Nat.lt_or_ge (s.sampled p raw).count s.lm.w with open' | full
          · rw [(joined status open').2]
          · rw [(closed status full).2, State.stillClosed_get k k4, if_neg apart]
        | failed => rw [(failed status).2]
      refine ⟨fun good open' => ⟨own.trans (joined good open').1, polled.still_eq.trans (joined good open').2⟩,
        fun good full => own.trans (closed good full).1, fun good full k k4 beside => ?_, fun out p4 => ?_,
        fun bad => ⟨own.trans (failed bad).1, polled.still_eq.trans (failed bad).2⟩, others, more, last, polled.rest,
        fun k k4 apart apart' => ?_, polled.steady, polled.ports⟩
      · have sensors := congrArg LevelMonitor.sensors polled.lm
        rw [(closed good full).1] at sensors
        have counter : still.get k = (s.withSensor p (s.windowRecord p raw)).lm.counted k (s.lm.still.get k) := by
          rw [(closed good full).2, State.stillClosed_get k k4, if_pos (State.mem_passagesBeside.2 beside)]
        rw [polled.still_eq, counter, sensors]
        exact ⟨fun holds => if_pos ((LevelMonitor.stillHolds_iff _ k).2 holds),
          fun other => if_neg fun holds => other ((LevelMonitor.stillHolds_iff _ k).1 holds)⟩
      · rw [polled.still_eq]
        exact untouched p p4 fun mem => by
          rw [State.mem_passagesBeside] at mem
          omega
      · rw [polled.still_eq]
        exact untouched k k4 fun mem => by
          rw [State.mem_passagesBeside] at mem
          omega
    · refine ⟨fun good open' => ?_, fun good full => ?_, fun bad eighth => ?_, fun bad early => ?_⟩
      · rw [State.goodPoll_joins inside good open', LevelMonitor.nextPoll_eq] at taken
        exact taken
      · have counted (k n : Nat) : (s.withSensor p (s.windowRecord p raw)).lm.counted k n = if decide _ then min 15 (n + 1) else 0 :=
          congrArg (fun b : Bool => if b then min 15 (n + 1) else 0) (LevelMonitor.stillHolds_eq _ k)
        have still := congrArg (fun f : Nat → Nat → Nat => (s.passagesBeside p).foldl (fun x k => x.set k (f k (x.get k))) s.lm.still)
          (funext fun k => funext fun n => counted k n)
        rw [State.goodPoll_closes inside good full, LevelMonitor.nextPoll_eq,
          show s.stillClosed p raw = _ from still] at taken
        exact taken
      · rw [State.goodPoll_recovers inside bad eighth, LevelMonitor.nextPoll_eq] at taken
        exact taken
      · rw [State.goodPoll_counts inside bad early, LevelMonitor.nextPoll_eq] at taken
        exact taken

/-! ## A bad poll (R5, R7) -/

section
variable (s : State) (p : Nat)

/-- The record of pound p with its bad poll counted. -/
def State.badRuns : Sensor := { s.sensor p with goodRun := 0, badRun := min 3 ((s.sensor p).badRun + 1) }

/-- What the failure of the sensor of pound p leaves before the operations beside it act (R7). -/
def State.failedBy (cause : BadPollCause) : State :=
  State.raise (.sensorFailed p cause) { s with lm := { s.lm with
    sensors := s.lm.sensors.set p (s.badRuns p).fail
    still := (s.passagesBeside p).foldl (fun x k => x.set k 0) s.lm.still } }

/-- The failure of the sensor of pound p with what the operations beside it do (R35). -/
def State.stalledBy (cause : BadPollCause) : State :=
  (s.passagesBeside p).foldl (fun x k => State.sensorStall k x) (s.failedBy p cause)

theorem State.stalledBy_outer (cause : BadPollCause) : (s.stalledBy p cause).outer = (s.failedBy p cause).outer :=
  State.each_outer _ _ (fun k x => x.sensorStall_outer k) _

end

section
variable {s : State} {p : Nat} (inside : p ≤ 4)
include inside

theorem State.badPoll_fails (cause : BadPollCause) (good : (s.sensor p).status = .good) (third : (s.badRuns p).badRun = 3) :
    s.badPoll p cause = s.stalledBy p cause := by
  simp only [State.badPoll]
  rw [State.when, if_pos]
  · simp only [State.sensorFails, LevelMonitor.setSensor_setSensor _ _ inside]
    rfl
  · simp only [State.sensor, LevelMonitor.setSensor, Quin.get_set_same _ _ inside, Bool.and_eq_true, decide_eq_true_eq]
    exact ⟨decide_eq_true good, third⟩

theorem State.badPoll_counts (cause : BadPollCause) (stays : ¬ ((s.sensor p).status = .good ∧ (s.badRuns p).badRun = 3)) :
    s.badPoll p cause = s.withSensor p (s.badRuns p) := by
  simp only [State.badPoll]
  rw [State.when, if_neg]
  · rfl
  · simp only [State.sensor, LevelMonitor.setSensor, Quin.get_set_same _ _ inside, Bool.and_eq_true, decide_eq_true_eq]
    exact fun h => stays ⟨of_decide_eq_true h.1, h.2⟩

theorem State.badPoll_polled (cause : BadPollCause) : ∃ x still,
    s.polled p x still (State.finish { s.badPoll p cause with lm := (s.badPoll p cause).lm.nextPoll p })
      ∧ ((s.sensor p).status = .good ∧ (s.badRuns p).badRun = 3 → x = (s.badRuns p).fail
          ∧ still = (s.passagesBeside p).foldl (fun x k => x.set k 0) s.lm.still)
      ∧ (¬ ((s.sensor p).status = .good ∧ (s.badRuns p).badRun = 3) → x = s.badRuns p ∧ still = s.lm.still) := by
  by_cases fails : (s.sensor p).status = .good ∧ (s.badRuns p).badRun = 3
  · rw [State.badPoll_fails inside cause fails.1 fails.2]
    have outer := s.stalledBy_outer p cause
    exact ⟨_, _, State.polled_finish (congrArg Outer.lm outer)
      (congrArg (fun o => { o with lm := s.lm }) (State.steady_of_outer outer))
      ((State.quietPorts_of_outer (congrArg Outer.console outer) (congrArg Outer.region outer)
        (congrArg Outer.tollPort outer)).trans (State.quietPorts_raise _ _)), fun _ => ⟨rfl, rfl⟩, fun h => absurd fails h⟩
  · rw [State.badPoll_counts inside cause fails]
    exact ⟨_, _, State.polled_withSensor _, fun h => absurd h fails, fun _ => ⟨rfl, rfl⟩⟩

end

section
variable {s : State} {p left : Nat} {c : Instr}

/-- The cause of the bad poll that a command ends. -/
def badPollCause (c : Instr) : BadPollCause := if c = .pollTimeout then .timeout else .faultReply

theorem exec_badPoll (running : s.pins.reset = false) (polling : s.lm.poll = some { pound := p, left := left })
    (ends : c = .pollFaultReply (p + 1) ∨ (c = .pollTimeout ∧ left = 0)) :
    exec c s = .next (s.pollEnded p (State.badPoll p (badPollCause c))).finish := by
  rcases ends with rfl | ⟨rfl, rfl⟩
  · refine congrArg Host.Outcome.next ((State.event_running _ running).trans (congrArg State.finish ?_))
    simp [State.takeFaultReply, polling, replyMatches, badPollCause]
  · refine congrArg Host.Outcome.next ((State.event_running _ running).trans (congrArg State.finish ?_))
    simp [State.takePollTimeout, polling, badPollCause]

theorem exec_badPoll_taken (running : s.pins.reset = false) (polling : s.lm.poll = some { pound := p, left := left })
    (kept : s.lm.reformDue = false) (ends : c = .pollFaultReply (p + 1) ∨ (c = .pollTimeout ∧ left = 0)) :
    exec c s = .next (State.finish { s.badPoll p (badPollCause c) with lm := (s.badPoll p (badPollCause c)).lm.nextPoll p }) := by
  rw [exec_badPoll running polling ends, State.pollEnded_taken kept]

end

/-! ## The operations beside a failed sensor (R35) -/

theorem State.setPassage_congr {s : State} {k : Nat} {f g : Passage → Passage} (h : f (s.passage k) = g (s.passage k)) :
    s.setPassage k f = s.setPassage k g := by
  simp only [State.setPassage, h]

theorem State.setOp_eq {s : State} {k : Nat} {o : Op} (slot : (s.passage k).slot = some o) (f : Op → Op) :
    s.setOp k f = s.setPassage k (fun p => { p with slot := some (f o) }) :=
  State.setPassage_congr (by simp [slot])

/-- The operation of a passage, by its phase, where a sensor beside it has failed. -/
theorem State.sensorStall_cases {s : State} {k : Nat} {o : Op} (slot : (s.passage k).slot = some o) :
    let exempt := o.purpose = .manual ∧ (s.passage k).permit = true
    let running := o.phase = .ramping ∨ o.phase = .flowing
    let timedOut := o.phase = .stalled ∧ o.stall = some .timeout
    ((running ∧ ¬ exempt) ∨ timedOut → s.sensorStall k = State.lower k 0
      (State.setPassage k (fun p => { p with slot := some { o with phase := .stalled, stall := some .sensor } }) s))
    ∧ (running → exempt → s.sensorStall k = s)
    ∧ (o.phase = .waiting → s.sensorStall k = State.push (.examine k) s)
    ∧ (¬ running → ¬ timedOut → o.phase ≠ .waiting → s.sensorStall k = s) := by
  intro exempt running timedOut
  have freed : (s.passage k).exempt o = true ↔ exempt := by simp [Passage.exempt, exempt]
  simp only [State.sensorStall, slot, State.setOp_eq slot]
  generalize State.lower k 0 _ = lowered
  cases phase : o.phase with
  | ramping | flowing => by_cases free : exempt <;> simp [running, timedOut, phase, freed, free]
  | stalled =>
    cases stall : o.stall with
    | none => simp [running, timedOut, phase, stall]
    | some reason => cases reason <;> simp [running, timedOut, phase, stall]
  | waiting | equalised | shutting => simp [running, timedOut, phase]

/-- Settles O13: a bad poll fails its sensor or counts its run, by the sensor's status and the run it reaches. -/
theorem badPollTaken : Obligations.BadPollTaken := by
  refine ⟨fun s p left running polling => ?_, fun s p left c running polling due ends => ?_, fun s address running => ⟨fun idle => ?_, fun other => ?_⟩,
    fun s p left c running polling inside kept ends => ⟨⟨_, exec_badPoll_taken running polling kept ends, ?_⟩, ?_, ?_⟩⟩
  · refine congrArg Host.Outcome.next ((State.event_running _ running).trans (congrArg State.finish ?_))
    simp [State.takePollTimeout, polling]
  · rw [exec_badPoll running polling ends, State.pollEnded_reform due]
    rfl
  · refine congrArg Host.Outcome.next ((State.event_running _ running).trans (congrArg State.finish ?_))
    simp [State.takePollTimeout, idle]
  · refine congrArg Host.Outcome.next ((State.event_running _ running).trans (congrArg State.finish ?_))
    unfold State.takeFaultReply
    split
    · next q polling =>
      rw [if_neg]
      rcases other with idle | ⟨q', polling', other⟩
      · simp [idle] at polling
      · cases polling.symm.trans polling'
        simp [replyMatches, other]
    · rfl
  · obtain ⟨x, still, polled, failed, counted⟩ := State.badPoll_polled (s := s) inside (badPollCause c)
    obtain ⟨own, others⟩ := polled.sensors inside
    obtain ⟨more, last⟩ := polled.next
    have zeroed (bad : (s.sensor p).status = .good ∧ (s.badRuns p).badRun = 3) (k : Nat) (k4 : k < 4)
        (beside : k ∈ s.passagesBeside p) : still.get k = 0 := by
      rw [(failed bad).2, Quad.get_foldl_set (fun _ _ => 0) (s.nodup_passagesBeside p) _ k4, if_pos beside]
    have untouched (k : Nat) (k4 : k < 4) (apart : k ∉ s.passagesBeside p) : still.get k = s.lm.still.get k := by
      by_cases bad : (s.sensor p).status = .good ∧ (s.badRuns p).badRun = 3
      · rw [(failed bad).2, Quad.get_foldl_set (fun _ _ => 0) (s.nodup_passagesBeside p) _ k4, if_neg apart]
      · rw [(counted bad).2]
    refine ⟨fun bad => ⟨own.trans (failed bad).1, fun low k4 => ?_, fun used p4 => ?_⟩,
      fun good => ⟨own.trans (counted good).1, polled.still_eq.trans (counted good).2⟩, more, last, others, polled.rest,
      fun k k4 apart apart' => ?_, polled.steady, polled.ports⟩
    · rw [polled.still_eq]
      exact zeroed bad _ k4 (State.mem_passagesBeside.2 (.inl (Nat.sub_add_cancel low)))
    · rw [polled.still_eq]
      exact zeroed bad p p4 (State.mem_passagesBeside.2 (.inr ⟨rfl, used⟩))
    · rw [polled.still_eq]
      exact untouched k k4 fun mem => by
        rw [State.mem_passagesBeside] at mem
        omega
  · intro s p left c running polling inside kept ends good second
    have third : min 3 ((s.sensor p).badRun + 1) = 3 := min_eq_left (by simp only [State.sensor]; omega)
    have record : (s.badRuns p).fail = { s.lm.sensors.get p with
        goodRun := 0, badRun := 3, status := .failed
        accum := { count := 0, sum := 0, least := none, greatest := none, clamped := false }
        level := { (s.lm.sensors.get p).level with stale := true } } := by
      simp only [State.badRuns, Sensor.fail, third]
      rfl
    have lm : (s.stalledBy p (badPollCause c)).lm = (s.failedBy p (badPollCause c)).lm :=
      congrArg Outer.lm (s.stalledBy_outer p (badPollCause c))
    have taken := exec_badPoll_taken running polling kept ends
    rw [State.badPoll_fails inside (badPollCause c) good third, lm, LevelMonitor.nextPoll_eq] at taken
    simp only [State.stalledBy, State.failedBy, record] at taken
    exact taken
  · exact fun s k _ => ⟨fun free => by simp only [State.sensorStall, free], fun o slot => State.sensorStall_cases slot⟩

end Sys2Proof.Machine
end

