-- ==== Sys2Proof/Proofs/Settings.lean ====
section
/-! SUPPORT. The requests that set the sensors, the timing, the clock and the tariff. Settles O46, O47. -/

namespace Sys2Proof.Machine

/-! ## Ranges and limits -/

theorem clampTo_eq {lo hi : Nat} (ordered : lo ≤ hi) (n : Nat) : clampTo lo hi n = max lo (min hi n) := by
  unfold clampTo
  split
  · omega
  · split <;> omega

/-! ## SET_SENSOR (R206) -/

theorem firstBadItem_eq (f : SensorFields) (bad : Nat → Calibration → Bool) :
    firstBadItem f bad = (List.range 5).find? (fun p => (f.items.get p).any (bad p)) := by
  refine congrArg (fun test => List.find? test (List.range 5)) (funext fun p => ?_)
  cases f.items.get p <;> rfl

theorem firstBadItem_eq_some {f : SensorFields} {bad : Nat → Calibration → Bool} {p : Nat} : firstBadItem f bad = some p
    ↔ p ≤ 4 ∧ (∃ c, f.items.get p = some c ∧ bad p c = true) ∧ ∀ q, q < p → ∀ c, f.items.get q = some c → bad q c = false := by
  rw [firstBadItem_eq, List.find?_range_eq_some, List.mem_range]
  simp only [Option.any_eq_true, Bool.not_eq_true', Option.any_eq_false]
  constructor
  · rintro ⟨own, inside, first⟩
    exact ⟨by omega, own, first⟩
  · rintro ⟨inside, own, first⟩
    exact ⟨own, by omega, first⟩

theorem firstBadItem_eq_none {f : SensorFields} {bad : Nat → Calibration → Bool} : firstBadItem f bad = none
    ↔ ∀ p, p ≤ 4 → ∀ c, f.items.get p = some c → bad p c = false := by
  rw [firstBadItem_eq, List.find?_range_eq_none]
  simp only [Bool.not_eq_true', Option.any_eq_false, Nat.lt_succ_iff]

theorem calibrationOk_iff (c : Calibration) :
    calibrationOk c = true ↔ -5000 ≤ c.zero ∧ c.zero ≤ 15000 ∧ 1000 ≤ c.span ∧ c.span ≤ 20000 := by
  simp [calibrationOk, withinInt, and_assoc]

section
variable (s : State) (f : SensorFields)

theorem State.sensorBar_mode (mode : s.auth.mode ≠ .config) : s.sensorBar f = some (refuse .wrongMode) := if_pos mode

theorem State.sensorBar_config (mode : s.auth.mode = .config) : s.sensorBar f
    = ((firstBadItem f (fun p _ => decide (s.count + 1 < p))).or (firstBadItem f (fun _ c => !calibrationOk c))).map
        fun p => refuseWith .outOfRange (.pound p) := by
  unfold State.sensorBar
  rw [if_neg (by simp [mode])]
  cases firstBadItem f (fun p _ => decide (s.count + 1 < p)) <;> cases firstBadItem f (fun _ c => !calibrationOk c) <;> rfl

theorem calibrateAll_get (items : Quin (Option Calibration)) (x : Quin Sensor) (p : Nat) :
    (calibrateAll items x).get p = (x.get p).calibrate (items.get p) := by
  rcases p with _ | _ | _ | _ | p <;> rfl

end

/-! ## What SET_SENSOR leaves of the Level Monitor (R15) -/

section
variable (f : SensorFields) (lm : LevelMonitor)

theorem LevelMonitor.applySensor_sensor (p : Nat) : (lm.applySensor f).sensors.get p
    = { (lm.sensors.get p).calibrate (f.items.get p) with
        accum := if lm.w = f.w then ((lm.sensors.get p).calibrate (f.items.get p)).accum else Accum.empty } := by
  simp only [LevelMonitor.applySensor]
  split
  · rw [calibrateAll_get]
  · rw [Quin.get_map, calibrateAll_get]

theorem LevelMonitor.zeroes_iff (k : Nat) : lm.zeroes f k = true ↔ f.w ≠ lm.w ∨ f.eqTol ≠ lm.eqTol ∨ f.rippleLim ≠ lm.rippleLim
    ∨ (lm.sensors.get k).recalibrated (f.items.get k) = true
    ∨ (lm.sensors.get (k + 1)).recalibrated (f.items.get (k + 1)) = true := by
  simp only [LevelMonitor.zeroes, Bool.or_eq_true, Bool.not_eq_true', decide_eq_false_iff_not, or_assoc, ne_eq,
    eq_comm (a := lm.w), eq_comm (a := lm.eqTol), eq_comm (a := lm.rippleLim)]

theorem LevelMonitor.applySensor_still {k : Nat} (inside : k < 4) :
    (lm.applySensor f).still.get k = if lm.zeroes f k then 0 else lm.still.get k := by
  interval_cases k <;> rfl

end

theorem Sensor.recalibrated_iff {item : Option Calibration} {x : Sensor} : x.recalibrated item = true
    ↔ (x.calibrate item).zero ≠ x.zero ∨ (x.calibrate item).span ≠ x.span := by
  cases item with
  | none => simp [Sensor.recalibrated, Sensor.calibrate]
  | some c =>
    simp only [Sensor.recalibrated, Sensor.calibrate]
    split
    · next same => simp [same]
    · next other =>
      simp only [Bool.not_eq_true', Bool.and_eq_false_iff, decide_eq_false_iff_not]
      tauto

/-- A calibration that stays leaves the record but for its calibrated mark. -/
theorem Sensor.calibrate_kept {item : Option Calibration} {x : Sensor} (kept : x.recalibrated item = false) :
    (x.calibrate item).accum = x.accum ∧ (x.calibrate item).level = x.level := by
  cases item with
  | none => exact ⟨rfl, rfl⟩
  | some c =>
    have same : x.zero = c.zero ∧ x.span = c.span := by simpa [Sensor.recalibrated] using kept
    simp [Sensor.calibrate, same]

theorem Sensor.calibrate_changed {item : Option Calibration} {x : Sensor} (changed : x.recalibrated item = true) :
    (x.calibrate item).accum = Accum.empty ∧ (x.calibrate item).level = { x.level with stale := true } := by
  cases item with
  | none => cases changed
  | some c =>
    have other : ¬ (x.zero = c.zero ∧ x.span = c.span) := by
      simp only [Sensor.recalibrated, Bool.not_eq_true', Bool.and_eq_false_iff, decide_eq_false_iff_not] at changed
      tauto
    simp [Sensor.calibrate, other]

theorem Sensor.calibrate_status (item : Option Calibration) (x : Sensor) :
    (x.calibrate item).status = x.status ∧ (x.calibrate item).badRun = x.badRun ∧ (x.calibrate item).goodRun = x.goodRun := by
  unfold Sensor.calibrate
  split
  · exact ⟨rfl, rfl, rfl⟩
  · split <;> exact ⟨rfl, rfl, rfl⟩

theorem Sensor.calibrate_some (c : Calibration) (x : Sensor) :
    (x.calibrate (some c)).zero = c.zero ∧ (x.calibrate (some c)).span = c.span ∧ (x.calibrate (some c)).calibrated = true := by
  simp only [Sensor.calibrate]
  split
  · next same => exact ⟨same.1, same.2, rfl⟩
  · exact ⟨rfl, rfl, rfl⟩

theorem exec_setSensor_refused {h : Hdr} {f : SensorFields} {s : State} {a : Answer} (taken : s.takes h 28)
    (barred : s.sensorBar f = some a) : exec (.setSensor h f) s = .next (State.replied h 28 a (s.heard h)) := by
  have block : State.doSetSensor f (s.heard h) = (s.heard h, a) := by
    simp only [State.doSetSensor, show (s.heard h).sensorBar f = some a from barred]
  exact congrArg Host.Outcome.next (State.takeRequest_of_block taken rfl block)

/-- The settings of the window that the clamping altered, from those applied. -/
theorem clampStatus_eq {α : Type} (l : List α) [Decidable (l = [])] : clampStatus l = if l = [] then .ok else .okClamped := by
  cases l <;> simp [clampStatus]

theorem exec_setSensor_applied {h : Hdr} {f : SensorFields} {s : State} (taken : s.takes h 28) (mode : s.auth.mode = .config)
    (fits : ∀ p c, p ≤ 4 → f.items.get p = some c →
      p ≤ s.count + 1 ∧ -5000 ≤ c.zero ∧ c.zero ≤ 15000 ∧ 1000 ≤ c.span ∧ c.span ≤ 20000) :
    exec (.setSensor h f) s = .next (State.replied h 28
      { status := clampStatus (alteredSensor f)
        body := .sensor (clampSensor f).w (clampSensor f).eqTol (clampSensor f).rippleLim (clampSensor f).stillCount
          (alteredSensor f) ((s.heard h).applySensor f).calibratedMarks }
      ((s.heard h).applySensor f).settle) := by
  have used : firstBadItem f (fun p _ => decide (s.count + 1 < p)) = none :=
    firstBadItem_eq_none.2 fun q inside c item => by simpa using (fits q c inside item).1
  have inRange : firstBadItem f (fun _ c => !calibrationOk c) = none :=
    firstBadItem_eq_none.2 fun q inside c item => by simpa [calibrationOk_iff] using (fits q c inside item).2
  have passed : (s.heard h).sensorBar f = none := by
    refine (State.sensorBar_config _ f mode).trans ?_
    rw [used, inRange]
    rfl
  exact congrArg Host.Outcome.next (State.takeRequest_of_block taken rfl (by simp only [State.doSetSensor, passed]))

/-- Settles O46: the first item that fails a test by its pound, or the settings clamped and each record by its item. -/
theorem setSensorStores : Obligations.SetSensorStores := by
  intro h f s taken u refused inUse inRange
  have out (p : Nat) : ¬ inUse p ↔ ∃ c, f.items.get p = some c ∧ decide (s.count + 1 < p) = true := by
    simp [inUse]
  have wrong (p : Nat) : ¬ inRange p ↔ ∃ c, f.items.get p = some c ∧ (!calibrationOk c) = true := by
    simp only [inRange, Bool.not_eq_true', ← Bool.not_eq_true, calibrationOk_iff]
    push Not
    rfl
  refine ⟨fun mode => exec_setSensor_refused taken (s.sensorBar_mode f mode), fun mode => ⟨fun p inside bad first => ?_,
    fun used p inside bad first => ?_⟩, fun mode fits => ?_⟩
  · have bar : firstBadItem f (fun p _ => decide (s.count + 1 < p)) = some p :=
      firstBadItem_eq_some.2 ⟨inside, (out p).1 bad, fun q before c item => by simpa using first q before c item⟩
    exact exec_setSensor_refused taken (by rw [s.sensorBar_config f mode, bar]; rfl)
  · have none_ : firstBadItem f (fun p _ => decide (s.count + 1 < p)) = none :=
      firstBadItem_eq_none.2 fun q inside c item => by simpa using used q inside c item
    have bar : firstBadItem f (fun _ c => !calibrationOk c) = some p :=
      firstBadItem_eq_some.2 ⟨inside, (wrong p).1 bad, fun q before c item => by
        simpa [calibrationOk_iff] using first q before c item⟩
    exact exec_setSensor_refused taken (by rw [s.sensorBar_config f mode, none_, bar]; rfl)
  · have taken := exec_setSensor_applied taken mode fits
    obtain ⟨t, leaves, lm, steady⟩ : ∃ t, exec (.setSensor h f) s = .next t ∧ t.lm = s.lm.applySensor (clampSensor f)
        ∧ { t.steady with lm := s.lm } = s.steady := by
      refine ⟨_, taken, State.lm_of_core (State.settle_core _), ?_⟩
      rw [State.steady_replied, State.steady_of_outer (State.settle_outer _)]
      rfl
    have sensor (p : Nat) := lm ▸ LevelMonitor.applySensor_sensor (clampSensor f) s.lm p
    have moved (p : Nat) : (s.lm.sensors.get p).recalibrated (f.items.get p) = true
        ↔ (t.lm.sensors.get p).zero ≠ (s.lm.sensors.get p).zero ∨ (t.lm.sensors.get p).span ≠ (s.lm.sensors.get p).span := by
      rw [sensor]
      exact Sensor.recalibrated_iff
    have unmoved {p : Nat} (kept : ¬ ((t.lm.sensors.get p).zero ≠ (s.lm.sensors.get p).zero
        ∨ (t.lm.sensors.get p).span ≠ (s.lm.sensors.get p).span)) : (s.lm.sensors.get p).recalibrated (f.items.get p) = false :=
      Bool.eq_false_iff.2 fun h => kept ((moved p).1 h)
    refine ⟨t, leaves, by rw [lm]; rfl, by rw [lm]; exact clampTo_eq (by decide) _, by rw [lm]; exact clampTo_eq (by decide) _,
      by rw [lm]; exact clampTo_eq (by decide) _, fun p c inside item => ?_, fun p inside absent => ?_,
      ⟨fun p inside => ⟨fun changed => ?_, fun window kept => ?_, fun changed => ?_, fun kept => ?_, ?_⟩, fun k inside => ?_⟩,
      steady, by rw [lm]; rfl, ?_⟩
    · rw [sensor]
      have item : (clampSensor f).items.get p = some c := item
      rw [item]
      exact Sensor.calibrate_some c _
    · rw [sensor]
      have absent : (clampSensor f).items.get p = none := absent
      rw [absent]
      exact ⟨rfl, rfl, rfl⟩
    · refine (congrArg Sensor.accum (sensor p)).trans ?_
      rcases changed with window | changed
      · exact if_neg fun same => window (by rw [lm]; exact same.symm)
      · exact (ite_congr rfl (fun _ => (Sensor.calibrate_changed ((moved p).2 changed)).1) fun _ => rfl).trans (ite_self _)
    · refine (congrArg Sensor.accum (sensor p)).trans ((if_pos ?_).trans ?_)
      · rw [lm] at window
        exact window.symm
      · exact (Sensor.calibrate_kept (unmoved kept)).1
    · exact (congrArg Sensor.level (sensor p)).trans (Sensor.calibrate_changed ((moved p).2 changed)).2
    · exact (congrArg Sensor.level (sensor p)).trans (Sensor.calibrate_kept (unmoved kept)).2
    · rw [sensor]
      exact Sensor.calibrate_status _ _
    · have still : t.lm.still.get k = if s.lm.zeroes (clampSensor f) k then 0 else s.lm.still.get k := by
        rw [lm, LevelMonitor.applySensor_still _ _ inside]
      have zeroed : s.lm.zeroes (clampSensor f) k = true ↔ t.lm.w ≠ s.lm.w ∨ t.lm.eqTol ≠ s.lm.eqTol
          ∨ t.lm.rippleLim ≠ s.lm.rippleLim
          ∨ ((t.lm.sensors.get k).zero ≠ (s.lm.sensors.get k).zero ∨ (t.lm.sensors.get k).span ≠ (s.lm.sensors.get k).span)
          ∨ ((t.lm.sensors.get (k + 1)).zero ≠ (s.lm.sensors.get (k + 1)).zero
            ∨ (t.lm.sensors.get (k + 1)).span ≠ (s.lm.sensors.get (k + 1)).span) := by
        rw [LevelMonitor.zeroes_iff, ← moved, ← moved, lm]
        rfl
      exact ⟨fun h => still.trans (if_pos (zeroed.2 h)), fun h => still.trans (if_neg fun z => h (zeroed.1 z))⟩
    · rw [taken, clampStatus_eq, lm]
      have risen := equalRisen_eq s.lm (s.lm.applySensor (clampSensor f)) (List.range (s.count + 1))
      rw [← risen]
      rfl

/-! ## SET_TIMING (R207) -/

theorem clampTiming_eq (x : Timing) : clampTiming x =
    { scan := (max 100 (min 2000 x.scan) + 50) / 100 * 100, gateLimit := max 10 (min 300 x.gateLimit)
      slowPct := max 50 (min 95 x.slowPct), sluiceTarget := max 1 (min 8 x.sluiceTarget)
      rampInterval := max 2 (min 60 x.rampInterval), moveLimit := max 5 (min 120 x.moveLimit)
      eqLimit := max 30 (min 1800 x.eqLimit), entryLimit := max 60 (min 3600 x.entryLimit)
      exitLimit := max 60 (min 3600 x.exitLimit), silence := max 2 (min 60 x.silence)
      handover := max 10 (min 120 x.handover), discard := max 30 (min 600 x.discard)
      runLimit := max 1 (min 4 x.runLimit), skipLimit := max 1 (min 7 x.skipLimit) } := by
  simp only [clampTiming, clampScan, clampTo_eq (show (100 : Nat) ≤ 2000 by decide), clampTo_eq (show (10 : Nat) ≤ 300 by decide),
    clampTo_eq (show (50 : Nat) ≤ 95 by decide), clampTo_eq (show (1 : Nat) ≤ 8 by decide),
    clampTo_eq (show (2 : Nat) ≤ 60 by decide), clampTo_eq (show (5 : Nat) ≤ 120 by decide),
    clampTo_eq (show (30 : Nat) ≤ 1800 by decide), clampTo_eq (show (60 : Nat) ≤ 3600 by decide),
    clampTo_eq (show (10 : Nat) ≤ 120 by decide), clampTo_eq (show (30 : Nat) ≤ 600 by decide),
    clampTo_eq (show (1 : Nat) ≤ 4 by decide), clampTo_eq (show (1 : Nat) ≤ 7 by decide)]

/-- Settings that agree in every place of the table are the same. -/
theorem Timing.eq_of_places {a b : Timing} (h : ∀ i, i < 14 → (timingList a).getD i 0 = (timingList b).getD i 0) : a = b := by
  have place := fun i (inside : i < 14) => h i inside
  simp only [timingList] at place
  cases a
  cases b
  simp only [Timing.mk.injEq]
  exact ⟨place 0 (by decide), place 1 (by decide), place 2 (by decide), place 3 (by decide), place 4 (by decide),
    place 5 (by decide), place 6 (by decide), place 7 (by decide), place 8 (by decide), place 9 (by decide),
    place 10 (by decide), place 11 (by decide), place 12 (by decide), place 13 (by decide)⟩

theorem alteredTiming_eq_nil (x : Timing) : alteredTiming x = [] ↔ clampTiming x = x := by
  constructor
  · intro none_
    refine Timing.eq_of_places fun i inside => ?_
    have same := List.filter_eq_nil_iff.1 none_ i (List.mem_range.2 inside)
    simp only [Bool.not_eq_true', decide_eq_false_iff_not, not_not] at same
    exact same.symm
  · intro same
    refine List.filter_eq_nil_iff.2 fun i _ => ?_
    rw [same]
    simp

/-! ## SET_TARIFF (R130) -/

theorem tariffOk_iff (t : Tariff) :
    let rated (r : ClassRate) : Prop := r.base ≤ 1000000 ∧ r.lengthRate ≤ 10000 ∧ r.tonnageRate ≤ 10000
      ∧ r.waterRate ≤ 1000 ∧ r.nightPct ≤ 200 ∧ 1 ≤ r.cap ∧ r.cap ≤ 10000000
    tariffOk t = true ↔ (rated t.cargo ∧ rated t.passenger ∧ rated t.pleasure ∧ rated t.service)
      ∧ t.nightStart ≤ 1439 ∧ t.nightEnd ≤ 1439 ∧ t.allowance ≤ 50 := by
  simp only [tariffOk, rateOk, Bool.and_eq_true, within_eq_true, Nat.zero_le, true_and, and_assoc]

theorem Transit.unsettled_iff (t : Transit) :
    t.unsettled = true ↔ t.state = .queued ∨ t.state = .moving ∨ t.state = .waitingNext := by
  cases h : t.state <;> simp [Transit.unsettled, h]

/-- Settles O47: the three requests, each by the branches of its block. -/
theorem settingsTaken : Obligations.SettingsTaken := by
  refine ⟨fun h x s taken => ?_, fun h day sec s taken => ⟨fun days secs => ?_, fun out => ?_⟩, tariffOk_iff, fun s => ?_,
    fun h t s taken => ⟨fun wrong => ?_, fun ok busy => ?_, fun ok free => ?_⟩⟩
  · intro limited applied fields altered
    have same : applied = clampTiming x := (clampTiming_eq x).symm
    have places : altered = alteredTiming x := by
      show (List.range 14).filter (fun i => !decide ((fields x).getD i 0 = (fields applied).getD i 0)) = _
      rw [same]
      rfl
    have status : clampStatus (alteredTiming x) = if clampTiming x = x then .ok else .okClamped :=
      (clampStatus_eq _).trans (if_congr (alteredTiming_eq_nil x) rfl rfl)
    rw [places, same, ← status]
    exact ⟨congrArg Host.Outcome.next (State.takeRequest_of_block taken rfl rfl), alteredTiming_eq_nil x⟩
  · exact congrArg Host.Outcome.next (State.takeRequest_of_block taken rfl (if_pos (by simp [days, secs])))
  · refine congrArg Host.Outcome.next (State.takeRequest_of_block taken rfl (if_neg fun inside => ?_))
    simp only [Bool.and_eq_true, within_eq_true] at inside
    omega
  · intro refers
    have same : s.table.filter (fun t => t.unsettled && decide (t.generation = s.toll.previous.number))
        = s.table.filter (fun t => decide (refers t)) := by
      refine List.filter_congr fun t _ => ?_
      rw [Bool.eq_iff_iff, Bool.and_eq_true, Transit.unsettled_iff]
      simp [refers]
    rw [State.previousRefs, same]
  · exact congrArg Host.Outcome.next (State.takeRequest_of_block taken rfl (if_pos (by simp [wrong])))
  · exact congrArg Host.Outcome.next (State.takeRequest_of_block taken rfl
      ((if_neg (by simp [ok])).trans (if_pos busy)))
  · exact congrArg Host.Outcome.next (State.takeRequest_of_block taken rfl
      ((if_neg (by simp [ok])).trans (if_neg (by rw [show (s.heard h).previousRefs = 0 from free]; decide))))

end Sys2Proof.Machine
end

