-- ==== Sys2Proof/Proofs/FlightChanges.lean ====
section
/-! SUPPORT. SET_FLIGHT: its tests in their order, and what the change of the flight makes of the levels, the passages, the heads and the register. Settles O45. -/

namespace Sys2Proof.Machine

/-! ## The tests (R204) -/

theorem mem_numbered {l : List Chamber} {c : Nat} {x : Chamber} (h : (c, x) ∈ numbered l) : x ∈ l := by
  obtain ⟨⟨y, i⟩, mem, same⟩ := List.mem_map.1 h
  cases same
  exact (List.mk_mem_zipIdx_iff_getElem?.1 mem) |> List.mem_of_getElem?

theorem numbered_append (a b : List Chamber) :
    numbered (a ++ b) = numbered a ++ (b.zipIdx a.length).map (fun (x, i) => (i + 1, x)) := by
  simp [numbered, List.zipIdx_append]

/-- The first chamber record that a test names. -/
theorem findSome_numbered {α : Type} {g : Nat × Chamber → Option α} {before rest : List Chamber} {x : Chamber} {d : α}
    (first : ∀ y ∈ before, ∀ c, g (c, y) = none) (own : g (before.length + 1, x) = some d) :
    (numbered (before ++ x :: rest)).findSome? g = some d := by
  rw [numbered_append, List.findSome?_append,
    List.findSome?_eq_none_iff.2 fun y mem => first y.2 (mem_numbered mem) y.1]
  simp [own]

theorem findSome_numbered_none {α : Type} {g : Nat × Chamber → Option α} {l : List Chamber}
    (all : ∀ y ∈ l, ∀ c, g (c, y) = none) : (numbered l).findSome? g = none :=
  List.findSome?_eq_none_iff.2 fun y mem => all y.2 (mem_numbered mem) y.1

/-- A chamber record in its ranges (11 section 11.1). -/
def chamberFits (x : Chamber) : Prop :=
  (100 ≤ x.area ∧ x.area ≤ 5000) ∧ x.hMax ≤ 20000 ∧ x.hBot ≤ 20000 ∧ (200 ≤ x.usable ∧ x.usable ≤ 2500)
    ∧ (30 ≤ x.width ∧ x.width ≤ 300)

theorem chamberBar_of_fits {x : Chamber} (h : chamberFits x) (c : Nat) : chamberBar c x = none := by
  obtain ⟨⟨a, b⟩, d, e, ⟨f, g⟩, i, j⟩ := h
  simp [chamberBar, within, a, b, d, e, f, g, i, j]

theorem chamberBar_of_not_fits {x : Chamber} (h : ¬ chamberFits x) (c : Nat) : chamberBar c x = some (.field
    (if ¬ (100 ≤ x.area ∧ x.area ≤ 5000) then .area else if ¬ x.hMax ≤ 20000 then .hMax
      else if ¬ x.hBot ≤ 20000 then .hBot else if ¬ (200 ≤ x.usable ∧ x.usable ≤ 2500) then .usable
      else .width) (some c)) := by
  have bad : ∀ lo hi n : Nat, (!within lo hi n) = true ↔ ¬ (lo ≤ n ∧ n ≤ hi) := fun lo hi n => by
    rw [← within_eq_true, Bool.not_eq_true']
    exact Bool.not_eq_true _ ▸ Iff.rfl
  simp only [chamberBar, bad, Nat.zero_le, true_and]
  split
  · rfl
  · split
    · rfl
    · split
      · rfl
      · split
        · rfl
        · next a b c' d => exact if_pos fun e => h ⟨not_not.1 a, not_not.1 b, not_not.1 c', not_not.1 d, e⟩

theorem flightRangeBar_eq (f : FlightFields) : flightRangeBar f =
    if ¬ (1 ≤ f.n ∧ f.n ≤ 3) then some (.field .n none)
    else ((numbered f.chambers).findSome? (fun (c, x) => chamberBar c x)).or
      (if f.clearance ≤ 50 then none else some (.field .clearance none)) := by
  unfold flightRangeBar
  by_cases n : 1 ≤ f.n ∧ f.n ≤ 3
  · rw [if_neg (not_not.2 n), if_neg (by simp [within, n])]
    cases (numbered f.chambers).findSome? (fun (c, x) => chamberBar c x) <;> simp [within]
  · rw [if_pos n, if_pos]
    rw [Bool.not_eq_true', ← Bool.not_eq_true, within_eq_true]
    exact n

theorem flightRangeBar_none {f : FlightFields} (n : 1 ≤ f.n ∧ f.n ≤ 3) (clearance : f.clearance ≤ 50)
    (fits : ∀ x ∈ f.chambers, chamberFits x) : flightRangeBar f = none := by
  rw [flightRangeBar_eq, if_neg (not_not.2 n), findSome_numbered_none fun x mem c => chamberBar_of_fits (fits x mem) c,
    if_pos clearance]
  rfl

theorem flightBottomBar_none {f : FlightFields} (fits : ∀ x ∈ f.chambers, x.hBot ≤ x.hMax) : flightBottomBar f = none :=
  findSome_numbered_none fun x mem _ => if_neg (Nat.not_lt.2 (fits x mem))

theorem Passage.atRest_iff (p : Passage) : p.atRest = true ↔ p.slot = none ∧ p.gate.state ≠ .opening
    ∧ p.gate.state ≠ .closing ∧ p.sluice.state ≠ .moving := by
  simp [Passage.atRest, GateState.travelling, and_assoc]

section
variable (s : State) (f : FlightFields)

theorem State.flightBar_config (mode : s.auth.mode = .config) : s.flightBar f
    = (((flightRangeBar f).map (refuseWith .outOfRange)).or ((flightBottomBar f).map (refuseWith .outOfRange))).or
        ((s.restBar f).map (refuseWith .wrongState)) := by
  unfold State.flightBar
  rw [if_neg (by simp [mode])]
  cases flightRangeBar f <;> cases flightBottomBar f <;> cases s.restBar f <;> rfl

theorem State.restBar_same (same : s.flight.n = some f.n) : s.restBar f = none := if_pos same

theorem State.restBar_resting (rest : ∀ k, k < 4 → (s.passage k).atRest = true) : s.restBar f = none := by
  unfold State.restBar
  split
  · rfl
  · simp [rest]

theorem State.restBar_first {k : Nat} (inside : k < 4) (other : s.flight.n ≠ some f.n) (moving : ¬ (s.passage k).atRest = true)
    (first : ∀ j, j < k → (s.passage j).atRest = true) : s.restBar f = some (.passage k) := by
  have found : (List.range 4).find? (fun k => !(s.passage k).atRest) = some k :=
    List.find?_range_eq_some.2 ⟨by simpa using moving, List.mem_range.2 inside, fun j before => by simpa using first j before⟩
  rw [State.restBar, if_neg other]
  exact congrArg (Option.map Detail.passage) found

end

/-! ## The effects (R205) -/

theorem State.withdrawWaiting_eq (v : Vessel) (x : State) : x.withdrawWaiting .gauge v
    = State.raise (.vesselWithdrawn v.mark .gauge none) { x with reg := { x.reg with
        entries := x.reg.entries.filter (fun w => !decide (w.mark = v.mark))
        up := if v.dir = .up then x.reg.up.filter (fun m => !decide (m = v.mark)) else x.reg.up
        down := if v.dir = .down then x.reg.down.filter (fun m => !decide (m = v.mark)) else x.reg.down } } := by
  cases hd : v.dir <;> simp [State.withdrawWaiting, State.dequeue, State.setQueue, State.freeVessel, hd]

/-- Vessels withdrawn one after another leave the state but for the register and the ports. -/
theorem State.withdrawAll_rest (l : List Vessel) (x : State) :
    { x.each l (State.withdrawWaiting .gauge) with reg := x.reg, ports := x.ports } = x := by
  induction l generalizing x with
  | nil => rfl
  | cons v rest ih =>
    have later := congrArg (fun y : State => { y with reg := x.reg, ports := x.ports }) (ih (x.withdrawWaiting .gauge v))
    refine later.trans ?_
    rw [State.withdrawWaiting_eq]
    rfl

theorem State.mem_withdrawAll (l : List Vessel) (x : State) (v : Vessel) :
    v ∈ (x.each l (State.withdrawWaiting .gauge)).reg.entries ↔ v ∈ x.reg.entries ∧ ∀ w ∈ l, w.mark ≠ v.mark := by
  induction l generalizing x with
  | nil => simp [State.each]
  | cons u rest ih =>
    refine (ih (x.withdrawWaiting .gauge u)).trans ?_
    rw [State.withdrawWaiting_eq]
    simp only [State.raise_reg, List.mem_filter, Bool.not_eq_true', decide_eq_false_iff_not, List.mem_cons, forall_eq_or_imp,
      and_assoc, eq_comm (a := v.mark)]

/-- The least of a list of numbers and a first one. -/
theorem foldl_min_least (h : Nat → Nat) (l : List Nat) (b : Nat) :
    l.foldl (fun best d => min best (h d)) b ≤ b ∧ (∀ d ∈ l, l.foldl (fun best d => min best (h d)) b ≤ h d)
      ∧ (l.foldl (fun best d => min best (h d)) b = b ∨ ∃ d ∈ l, h d = l.foldl (fun best d => min best (h d)) b) := by
  induction l generalizing b with
  | nil => simp
  | cons x rest ih =>
    obtain ⟨first, others, own⟩ := ih (min b (h x))
    rw [List.foldl_cons]
    refine ⟨by omega, fun d mem => ?_, ?_⟩
    · rcases List.mem_cons.1 mem with rfl | mem
      · omega
      · exact others d mem
    · rcases own with same | ⟨d, mem, same⟩
      · rcases Nat.le_total b (h x) with le | le
        · exact .inl (same.trans (min_eq_left le))
        · exact .inr ⟨x, List.mem_cons_self, ((same.trans (min_eq_right le))).symm⟩
      · exact .inr ⟨d, List.mem_cons_of_mem _ mem, same⟩

theorem State.when_calling (c : Bool) (t : State) : t.when c State.calling = { t with callDue := t.callDue || c } := by
  cases c
  · simp [State.when]
  · simp [State.when, State.calling]

section
variable (f : FlightFields) (s : State)

/-- The state with the new flight described and, for a new N, its levels, passages and heads (R16, R52, R205). -/
def State.described : State :=
  State.when (!decide (s.flight.n = some f.n)) (State.renumber s) { s with flight := flightOf f }

theorem State.described_same (same : s.flight.n = some f.n) : s.described f = { s with flight := flightOf f } := by
  simp [State.described, State.when, same]

/-- The heads as a new N leaves them. -/
def State.reformedHeads : Quad HeadPair :=
  let form := fun k => HeadPair.map (reformHead (s.inUse k) (decide (k ≤ f.n))) (s.lamps.get k)
  { zero := form 0, one := form 1, two := form 2, three := form 3 }

theorem State.described_other (other : s.flight.n ≠ some f.n) :
    let base : State := { s with flight := flightOf f }
    s.described f = { base with
      lm := s.lm.renumber (some f.n)
      pcu := { s.pcu with passages :=
        { zero := State.renewPassage s base 0, one := State.renewPassage s base 1,
          two := State.renewPassage s base 2, three := State.renewPassage s base 3 } }
      lamps := s.reformedHeads f
      callDue := s.callDue || ((s.suspended .up && !(State.suspended { base with lamps := s.reformedHeads f } .up))
        || (s.suspended .down && !(State.suspended { base with lamps := s.reformedHeads f } .down))) } := by
  intro base
  have new : (!decide (s.flight.n = some f.n)) = true := by simp [other]
  rw [State.described, State.when, if_pos new, State.renumber, State.reformHeads, State.when_calling]
  rfl

theorem State.described_reg : (s.described f).reg = s.reg ∧ (s.described f).ports = s.ports ∧ (s.described f).agenda = s.agenda := by
  by_cases same : s.flight.n = some f.n
  · rw [State.described_same f s same]
    exact ⟨rfl, rfl, rfl⟩
  · rw [State.described_other f s same]
    exact ⟨rfl, rfl, rfl⟩

/-- SET_FLIGHT changes what the new flight makes of the state, and then the register, the notices and the hand-overs alone. -/
theorem State.applyFlight_described :
    { s.applyFlight f with reg := s.reg, ports := s.ports, agenda := s.agenda } = s.described f := by
  obtain ⟨reg, ports, agenda⟩ := State.described_reg f s
  have gauged : { State.regauge s (s.described f) with reg := s.reg, ports := s.ports } = s.described f := by
    rw [State.regauge, State.when]
    split
    · rw [← reg, ← ports]
      exact State.withdrawAll_rest _ _
    · rw [← reg, ← ports]
  exact (congrArg (fun x : State => { x with agenda := s.agenda }) gauged).trans (by rw [← agenda])

theorem State.applyFlight_flight : (s.applyFlight f).flight = flightOf f := by
  refine (congrArg State.flight (State.applyFlight_described f s)).trans ?_
  by_cases same : s.flight.n = some f.n
  · rw [State.described_same f s same]
  · rw [State.described_other f s same]

theorem State.described_eq : s.described f = { s with
    flight := flightOf f, lm := (s.described f).lm, pcu := (s.described f).pcu, lamps := (s.described f).lamps
    callDue := s.callDue || (decide (s.flight.n ≠ some f.n)
      && ((s.suspended .up && !(s.described f).suspended .up) || (s.suspended .down && !(s.described f).suspended .down))) } := by
  by_cases same : s.flight.n = some f.n
  · rw [State.described_same f s same]
    simp [same]
  · rw [State.described_other f s same]
    simp [same, State.suspended, State.count]

/-! ### The gauge -/

theorem State.leastOver_least {n : Nat} (described : s.flight.n = some n) (low : 1 ≤ n) (g : Chamber → Nat) :
    (∀ c, 1 ≤ c → c ≤ n → s.leastOver g ≤ g (s.chamber c)) ∧ ∃ c, 1 ≤ c ∧ c ≤ n ∧ g (s.chamber c) = s.leastOver g := by
  obtain ⟨m, rfl⟩ : ∃ m, n = m + 1 := ⟨n - 1, by omega⟩
  have use : s.chambersInUse = 1 :: (List.range m).map (· + 2) := by
    simp [State.chambersInUse, State.count, described, List.range_succ_eq_map]
  obtain ⟨first, others, own⟩ := foldl_min_least (fun c => g (s.chamber c)) ((List.range m).map (· + 2)) (g (s.chamber 1))
  simp only [State.leastOver, use]
  refine ⟨fun c from1 upTo => ?_, ?_⟩
  · rcases Nat.lt_or_ge 1 c with later | one
    · exact others c (List.mem_map.2 ⟨c - 2, List.mem_range.2 (by omega), by omega⟩)
    · obtain rfl : c = 1 := by omega
      exact first
  · rcases own with same | ⟨c, mem, same⟩
    · exact ⟨1, le_refl 1, by omega, same.symm⟩
    · obtain ⟨i, inside, rfl⟩ := List.mem_map.1 mem
      have := List.mem_range.1 inside
      exact ⟨i + 2, by omega, by omega, same⟩

theorem Flight.gaugeChanged_iff (a b : Flight) : a.gaugeChanged b = true ↔ a.n ≠ b.n ∨ a.clearance ≠ b.clearance
    ∨ ∃ c, 1 ≤ c ∧ c ≤ 3 ∧ ((a.chambers.get c).usable ≠ (b.chambers.get c).usable
      ∨ (a.chambers.get c).width ≠ (b.chambers.get c).width) := by
  have each (P : Nat → Prop) : (∃ c, 1 ≤ c ∧ c ≤ 3 ∧ P c) ↔ P 1 ∨ P 2 ∨ P 3 := by
    constructor
    · rintro ⟨c, low, high, h⟩
      interval_cases c
      · exact .inl h
      · exact .inr (.inl h)
      · exact .inr (.inr h)
    · rintro (h | h | h)
      · exact ⟨1, by decide, by decide, h⟩
      · exact ⟨2, by decide, by decide, h⟩
      · exact ⟨3, by decide, by decide, h⟩
  rw [each]
  simp only [Flight.gaugeChanged, Bool.or_eq_true, Bool.not_eq_true', decide_eq_false_iff_not, or_assoc, Tri.get, ne_eq]

theorem State.mem_queued {v : Vessel} : v ∈ s.queued .up ++ s.queued .down ↔ ∃ d, ∃ m ∈ s.reg.queue d, s.vessel m = some v := by
  simp only [State.queued, List.mem_append, List.mem_filterMap]
  constructor
  · rintro (h | h)
    · exact ⟨.up, h⟩
    · exact ⟨.down, h⟩
  · rintro ⟨d, h⟩
    cases d
    · exact .inl h
    · exact .inr h

end

/-! ### Passages, heads and levels of a new N -/

section
variable {f : FlightFields} {s : State} (other : s.flight.n ≠ some f.n)
include other

theorem State.described_passage {k : Nat} (inside : k < 4) : (s.described f).passage k
    = if k ≤ s.count ∧ ¬ k ≤ f.n then { s.passage k with permit := false }
      else if ¬ k ≤ s.count ∧ k ≤ f.n then Passage.fromPins s.timing (s.pins.limits.get k) (s.pins.feedback.get k)
      else s.passage k := by
  have renewed : State.renewPassage s { s with flight := flightOf f } k
      = if k ≤ s.count ∧ ¬ k ≤ f.n then { s.passage k with permit := false }
        else if ¬ k ≤ s.count ∧ k ≤ f.n then Passage.fromPins s.timing (s.pins.limits.get k) (s.pins.feedback.get k)
        else s.passage k := by
    simp only [State.renewPassage, State.inUse, decide_eq_true_eq]
    rfl
  rw [← renewed, State.described_other f s other]
  interval_cases k <;> rfl

theorem State.described_head {k : Nat} (inside : k < 4) (side : Side) :
    (s.described f).head k side = reformHead (s.inUse k) (decide (k ≤ f.n)) (s.head k side) := by
  have read : (s.reformedHeads f).get k = HeadPair.map (reformHead (s.inUse k) (decide (k ≤ f.n))) (s.lamps.get k) := by
    interval_cases k <;> rfl
  rw [State.described_other f s other, State.head]
  simp only [read]
  cases side <;> rfl

end

theorem Head.restart_output (a : Aspect) (h : Head) : (Head.restart a h).output = a ∧ (Head.restart a h).fault = false := by
  unfold Head.restart Head.retime
  split <;> exact ⟨rfl, rfl⟩

/-! ### The whole effect -/

section
variable (f : FlightFields) (s : State)

theorem State.regauge_eq : State.regauge s (s.described f) = if s.flight.gaugeChanged (flightOf f)
    then (s.described f).each (s.described f).outOfGauge (State.withdrawWaiting .gauge) else s.described f := by
  have flight : (s.described f).flight = flightOf f := congrArg State.flight (s.described_eq f)
  rw [State.regauge, State.when, flight]

theorem State.applyFlight_reg : (s.applyFlight f).reg = (State.regauge s (s.described f)).reg := rfl

theorem State.applyFlight_reads {α : Type} (g : State → α)
    (beside : ∀ (x : State) (reg : Register) (ports : Ports) (agenda : List Task),
      g { x with reg := reg, ports := ports, agenda := agenda } = g x) : g (s.applyFlight f) = g (s.described f) :=
  (beside _ s.reg s.ports s.agenda).symm.trans (congrArg g (State.applyFlight_described f s))

/-- The operations that a changed chamber has examined. -/
theorem State.reexamine_eq {u : State} (flight : u.flight = flightOf f) : State.reexamine s u = State.pushAll
    (((List.range (f.n + 1)).filter (fun k =>
      decide (1 ≤ k ∧ k ≤ f.n ∧ ((s.chamber k).area ≠ (u.chamber k).area ∨ (s.chamber k).hMax ≠ (u.chamber k).hMax))
      || decide (1 ≤ k + 1 ∧ k + 1 ≤ f.n
        ∧ ((s.chamber (k + 1)).area ≠ (u.chamber (k + 1)).area ∨ (s.chamber (k + 1)).hMax ≠ (u.chamber (k + 1)).hMax)))).map
      Task.examine) u := by
  have count : u.count = f.n := by rw [State.count, flight]; rfl
  have filters : u.passagesInUse.filter (fun k => (u.chambersOf k).any (State.waterChanged s u)) = (List.range (f.n + 1)).filter
      (fun k =>
      decide (1 ≤ k ∧ k ≤ f.n ∧ ((s.chamber k).area ≠ (u.chamber k).area ∨ (s.chamber k).hMax ≠ (u.chamber k).hMax))
      || decide (1 ≤ k + 1 ∧ k + 1 ≤ f.n
        ∧ ((s.chamber (k + 1)).area ≠ (u.chamber (k + 1)).area ∨ (s.chamber (k + 1)).hMax ≠ (u.chamber (k + 1)).hMax))) := by
    rw [State.passagesInUse, count]
    refine List.filter_congr fun k _ => ?_
    rw [Bool.eq_iff_iff]
    simp only [State.chambersOf, chambersBeside, count, List.any_filter, List.any_cons, List.any_nil, Bool.or_false,
      Bool.or_eq_true, Bool.and_eq_true, within_eq_true, State.waterChanged, Bool.not_eq_true', decide_eq_false_iff_not,
      decide_eq_true_eq, and_assoc, ne_eq]
  rw [State.reexamine, filters]

theorem State.applyFlight_levels (other : s.flight.n ≠ some f.n) : (s.applyFlight f).lm = s.lm.renumber (some f.n) := by
  rw [State.applyFlight_reads f s State.lm fun _ _ _ _ => rfl, State.described_other f s other]

theorem State.applyFlight_passage (other : s.flight.n ≠ some f.n) {k : Nat} (inside : k < 4) : (s.applyFlight f).passage k
    = if k ≤ s.count ∧ ¬ k ≤ f.n then { s.passage k with permit := false }
      else if ¬ k ≤ s.count ∧ k ≤ f.n then Passage.fromPins s.timing (s.pins.limits.get k) (s.pins.feedback.get k)
      else s.passage k :=
  (State.applyFlight_reads f s (fun x => x.passage k) fun _ _ _ _ => rfl).trans (State.described_passage other inside)

theorem State.applyFlight_head (other : s.flight.n ≠ some f.n) {k : Nat} (inside : k < 4) (side : Side) :
    (k ≤ f.n → ((s.applyFlight f).head k side).output = .redFlash)
      ∧ (f.n < k → ((s.applyFlight f).head k side).output = .dark ∧ (k ≤ s.count → ((s.applyFlight f).head k side).fault = false)) := by
  rw [State.applyFlight_reads f s (fun x => x.head k side) fun _ _ _ _ => rfl, State.described_head other inside]
  refine ⟨fun used => ?_, fun out => ⟨?_, fun was => ?_⟩⟩
  · rw [reformHead, if_pos (by simp [used])]
    exact Head.command_output _ _
  · rw [reformHead, if_neg (by simp [Nat.not_le.2 out])]
    split
    · exact (Head.restart_output _ _).1
    · exact Head.command_output _ _
  · rw [reformHead, if_neg (by simp [Nat.not_le.2 out]), if_pos (by simp [State.inUse, was])]
    exact (Head.restart_output _ _).2

/-- The vessels that the new gauge turns away. -/
theorem State.outOfGauge_eq : (s.described f).outOfGauge = ((s.reg.up ++ s.reg.down).filterMap s.vessel).filter (fun v =>
    !decide (v.length + f.clearance ≤ (s.applyFlight f).minUsable ∧ v.beam ≤ (s.applyFlight f).minWidth)) := by
  have reg := (State.described_reg f s).1
  have flight : (s.described f).flight = flightOf f := congrArg State.flight (s.described_eq f)
  have queued : (s.described f).queued .up ++ (s.described f).queued .down = (s.reg.up ++ s.reg.down).filterMap s.vessel := by
    have vessel : (s.described f).vessel = s.vessel := funext fun m => by rw [State.vessel, reg, State.vessel]
    rw [State.queued, State.queued, reg, vessel, List.filterMap_append]
    rfl
  rw [State.applyFlight_reads f s State.minUsable fun _ _ _ _ => rfl, State.applyFlight_reads f s State.minWidth fun _ _ _ _ => rfl,
    State.outOfGauge, queued]
  refine List.filter_congr fun v _ => ?_
  simp only [State.fits, State.berthLength, flight, Bool.decide_and]
  rfl

theorem State.mem_outOfGauge (w : Vessel) : w ∈ (s.described f).outOfGauge ↔ (∃ d, ∃ m ∈ s.reg.queue d, s.vessel m = some w)
    ∧ ¬ (w.length + f.clearance ≤ (s.applyFlight f).minUsable ∧ w.beam ≤ (s.applyFlight f).minWidth) := by
  rw [State.outOfGauge_eq, List.mem_filter, List.filterMap_append]
  refine and_congr s.mem_queued ?_
  rw [Bool.not_eq_true', decide_eq_false_iff_not]

end

/-! ## The request -/

theorem State.takesCounted {s : State} {h : Hdr} {kind : Nat} (reaches : s.reaches h) (ok : h.lengthOk = true) {wf : Bool}
    (counts : wf = true) (right : s.admits kind h.port = true) :
    State.takes s { h with lengthOk := h.lengthOk && wf } kind :=
  ⟨reaches, by simp [ok, counts], right⟩

section
variable {h : Hdr} {f : FlightFields} {s : State} (reaches : s.reaches h) (ok : h.lengthOk = true)
  (counts : f.chambers.length = f.n) (right : s.admits 27 h.port = true)
include reaches ok counts right

theorem exec_setFlight_refused {a : Answer} (barred : s.flightBar f = some a) :
    exec (.setFlight h f) s = .next (State.replied h 27 a (s.heard h)) := by
  have block : State.doSetFlight f (s.heard h) = (s.heard h, a) := by
    simp only [State.doSetFlight, show (s.heard h).flightBar f = some a from barred]
  have taken := State.takesCounted reaches ok (show f.wf = true by simp [FlightFields.wf, counts]) right
  exact congrArg Host.Outcome.next (State.takeRequest_of_block taken rfl block)

theorem exec_setFlight_applied (passed : s.flightBar f = none) : exec (.setFlight h f) s = .next (State.replied h 27
    (accept (.flight f.n ((s.heard h).applyFlight f).minUsable ((s.heard h).applyFlight f).minWidth
      ((s.heard h).vessels - ((s.heard h).applyFlight f).vessels))) ((s.heard h).applyFlight f).settle) := by
  have block : State.doSetFlight f (s.heard h) = (((s.heard h).applyFlight f).settle,
      accept (.flight f.n ((s.heard h).applyFlight f).minUsable ((s.heard h).applyFlight f).minWidth
        ((s.heard h).vessels - ((s.heard h).applyFlight f).vessels))) := by
    simp only [State.doSetFlight, show (s.heard h).flightBar f = none from passed]
  have taken := State.takesCounted reaches ok (show f.wf = true by simp [FlightFields.wf, counts]) right
  exact congrArg Host.Outcome.next (State.takeRequest_of_block taken rfl block)

end

/-- Settles O45: the tests one after another, and the flight's effects on the levels, the passages, the heads and the register. -/
theorem setFlightReplaces : Obligations.SetFlightReplaces := by
  refine ⟨fun h f s reaches ok counts right => ?_, fun f s low high => ?_, fun s p left raw c running due polling ends => ?_⟩
  · intro u refused fits inRange resting
    have barred {a : Answer} (bar : s.flightBar f = some a) : refused a := exec_setFlight_refused reaches ok counts right bar
    refine ⟨fun mode => barred (if_pos mode), fun mode => ⟨fun n => barred ?_, fun low high => ⟨fun before x rest records bad first => barred ?_,
      fun good clearance => barred ?_⟩, fun range => ⟨fun before x rest records bad first => barred ?_, fun bottoms =>
      ⟨fun k inside other moving first => barred ?_, fun still => ?_⟩⟩⟩⟩
    · rw [s.flightBar_config f mode, flightRangeBar_eq, if_pos n]
      rfl
    · rw [s.flightBar_config f mode, flightRangeBar_eq, if_neg (not_not.2 ⟨low, high⟩), records,
        findSome_numbered (fun y mem c => chamberBar_of_fits (first y mem) c) (chamberBar_of_not_fits bad _)]
      rfl
    · rw [s.flightBar_config f mode, flightRangeBar_eq, if_neg (not_not.2 ⟨low, high⟩),
        findSome_numbered_none fun x mem c => chamberBar_of_fits (good x mem) c, if_neg clearance]
      rfl
    · obtain ⟨n, clearance, good⟩ := range
      have bottom : flightBottomBar f = some (.field .hBot (some (before.length + 1))) := by
        rw [flightBottomBar, records]
        exact findSome_numbered (fun y mem c => if_neg (Nat.not_lt.2 (first y mem))) (if_pos bad)
      rw [s.flightBar_config f mode, flightRangeBar_none n clearance good, bottom]
      rfl
    · obtain ⟨n, clearance, good⟩ := range
      rw [s.flightBar_config f mode, flightRangeBar_none n clearance good, flightBottomBar_none bottoms,
        s.restBar_first f inside other (fun rest => moving ((Passage.atRest_iff _).1 rest)) fun j before =>
          (Passage.atRest_iff _).2 (first j before)]
      rfl
    · obtain ⟨n, clearance, good⟩ := range
      have rest : s.restBar f = none := by
        rcases still with same | still
        · exact s.restBar_same f same
        · exact s.restBar_resting f fun k inside => (Passage.atRest_iff _).2 (still k inside)
      refine exec_setFlight_applied reaches ok counts right ?_
      rw [s.flightBar_config f mode, flightRangeBar_none n clearance good, flightBottomBar_none bottoms, rest]
      rfl
  · intro t least regauged unfit
    have flight : t.flight = flightOf f := State.applyFlight_flight f s
    have n : t.flight.n = some f.n := by rw [flight]; rfl
    have chamber (c : Nat) : t.chamber c = (flightOf f).chambers.get c := by rw [State.chamber, flight]
    have changed : regauged ↔ s.flight.gaugeChanged (flightOf f) = true := by
      rw [Flight.gaugeChanged_iff]
      simp only [regauged, chamber]
      exact Iff.rfl
    have given {i : Nat} (inside : i < f.chambers.length) : f.chambers[i]? = some (f.chambers.getD i Chamber.unset) := by
      rw [List.getElem?_eq_getElem inside, List.getD_eq_getElem _ _ inside]
    have same_pcu (same : s.flight.n = some f.n) : t.lm = s.lm ∧ t.pcu = s.pcu ∧ t.lamps = s.lamps := by
      have described := State.described_same f s same
      exact ⟨(State.applyFlight_reads f s State.lm fun _ _ _ _ => rfl).trans (by rw [described]),
        (State.applyFlight_reads f s State.pcu fun _ _ _ _ => rfl).trans (by rw [described]),
        (State.applyFlight_reads f s State.lamps fun _ _ _ _ => rfl).trans (by rw [described])⟩
    have gauged := State.regauge_eq f s
    refine ⟨n, by rw [flight]; rfl, fun c from1 upTo inside => ?_, State.leastOver_least t n low Chamber.usable,
      State.leastOver_least t n low Chamber.width, same_pcu, fun other => ⟨fun polling => ?_, fun idle => ?_, fun k inside =>
        ⟨fun was out => ?_, fun was used => ?_, fun same => ?_, fun side => State.applyFlight_head f s other inside side⟩⟩,
      fun kept => ?_, fun lost v => ?_, ?_, ?_⟩
    · rw [chamber]
      interval_cases c
      · exact given inside
      · exact given inside
      · exact given inside
    · obtain ⟨q, polled⟩ := Option.isSome_iff_exists.1 polling
      exact (State.applyFlight_levels f s other).trans (by simp [LevelMonitor.renumber, polled])
    · have levels : t.lm = s.lm.reform (some f.n) :=
        (State.applyFlight_levels f s other).trans (by simp [LevelMonitor.renumber, idle])
      rw [levels]
      exact ⟨rfl, fun p => (Quin.get_map _ _ _).trans rfl, fun k => Quad.get_all _ _⟩
    · exact (State.applyFlight_passage f s other inside).trans (if_pos ⟨was, by omega⟩)
    · exact (State.applyFlight_passage f s other inside).trans ((if_neg (by omega)).trans (if_pos ⟨by omega, used⟩))
    · exact (State.applyFlight_passage f s other inside).trans ((if_neg (by omega)).trans (if_neg (by omega)))
    · rw [State.applyFlight_reg, gauged, if_neg fun h => kept (changed.2 h)]
      exact (State.described_reg f s).1
    · rw [State.applyFlight_reg, gauged, if_pos (changed.1 lost), State.mem_withdrawAll, (State.described_reg f s).1]
      simp only [State.mem_outOfGauge]
      exact Iff.rfl
    · by_cases same : s.flight.n = some f.n
      · rw [(same_pcu same).2.1]
      · rw [State.applyFlight_reads f s State.pcu fun _ _ _ _ => rfl, State.described_other f s same]
    · intro described withdrawn withdraw moved examined
      have whole : t = State.pushAll examined (State.regauge s (s.described f)) := State.reexamine_eq f s flight
      have suspended : (s.described f).suspended = t.suspended :=
        (State.applyFlight_reads f s State.suspended fun _ _ _ _ => rfl).symm
      have base : s.described f = described := by
        rw [s.described_eq f, suspended, ← flight, ← State.applyFlight_reads f s State.lm fun _ _ _ _ => rfl,
          ← State.applyFlight_reads f s State.pcu fun _ _ _ _ => rfl, ← State.applyFlight_reads f s State.lamps fun _ _ _ _ => rfl]
      have steps : withdraw = fun x v => State.withdrawWaiting .gauge v x :=
        funext fun x => funext fun v => (State.withdrawWaiting_eq v x).symm
      refine ⟨fun lost => ?_, fun kept => ?_⟩
      · rw [whole, gauged, if_pos (changed.1 lost), State.outOfGauge_eq, base, steps]
        rfl
      · rw [whole, gauged, if_neg fun h => kept (changed.2 h), base]
  · intro afresh
    have matched : exec c s = .next (State.finish { s with lm := { s.lm with
        sensors := s.lm.sensors.map Sensor.afresh, still := Quad.all 0
        poll := if s.lm.tickHeld then some { pound := 0, left := 20 } else none
        tickHeld := false, polledN := s.flight.n, reformDue := false } }) := by
      rcases ends with ⟨rfl, readable⟩ | ends
      · rw [exec_valueReply_matched running polling readable, State.pollEnded_reform due]
      · rw [exec_badPoll running polling ends, State.pollEnded_reform due]
    exact matched

end Sys2Proof.Machine
end

