-- ==== Sys2Proof/Proofs/AccountRules.lean ====
section
/-! SUPPORT. The requests that open, close and change an account (08 section 8.2). Settles O50, O51. -/

namespace Sys2Proof.Machine

/-! ## The table in rising order -/

section
variable (x : Account) (l : List Account)

theorem find_insertAccount_same (fresh : ∀ a ∈ l, a.number ≠ x.number) :
    (insertAccount x l).find? (fun a => decide (a.number = x.number)) = some x := by
  induction l with
  | nil => simp [insertAccount]
  | cons y rest ih =>
    have other : ¬ y.number = x.number := fresh y List.mem_cons_self
    unfold insertAccount
    split
    · simp
    · simp [other, ih fun a mem => fresh a (List.mem_cons_of_mem _ mem)]

theorem find_insertAccount_other {m : Nat} (apart : m ≠ x.number) :
    (insertAccount x l).find? (fun a => decide (a.number = m)) = l.find? (fun a => decide (a.number = m)) := by
  have skip : ¬ x.number = m := fun h => apart h.symm
  induction l with
  | nil => simp [insertAccount, skip]
  | cons y rest ih =>
    unfold insertAccount
    split
    · simp [skip]
    · rw [List.find?_cons, List.find?_cons, ih]

theorem length_insertAccount : (insertAccount x l).length = l.length + 1 := by
  induction l with
  | nil => rfl
  | cons y rest ih =>
    unfold insertAccount
    split
    · rfl
    · simp [ih]

theorem mem_insertAccount {a : Account} : a ∈ insertAccount x l ↔ a = x ∨ a ∈ l := by
  induction l with
  | nil => simp [insertAccount]
  | cons y rest ih =>
    unfold insertAccount
    split
    · simp
    · simp only [List.mem_cons, ih]
      tauto

theorem pairwise_insertAccount (fresh : ∀ a ∈ l, a.number ≠ x.number) (rising : l.Pairwise (fun a b => a.number < b.number)) :
    (insertAccount x l).Pairwise (fun a b => a.number < b.number) := by
  induction l with
  | nil => simp [insertAccount]
  | cons y rest ih =>
    obtain ⟨above, later⟩ := List.pairwise_cons.1 rising
    unfold insertAccount
    split
    · next below =>
      refine List.pairwise_cons.2 ⟨fun a mem => ?_, rising⟩
      rcases List.mem_cons.1 mem with rfl | mem
      · exact below
      · exact below.trans (above a mem)
    · next notBelow =>
      have apart := fresh y List.mem_cons_self
      refine List.pairwise_cons.2 ⟨fun a mem => ?_, ih (fun a mem => fresh a (List.mem_cons_of_mem _ mem)) later⟩
      rcases (mem_insertAccount x rest).1 mem with rfl | mem
      · omega
      · exact above a mem

end

/-! ## Tests and answers -/

section
variable {s : State} {n : Nat}

theorem Accounts.find_table {a : Accounts} (other : n ≠ 0) : a.find n = a.table.find? (fun x => decide (x.number = n)) := if_neg other

theorem Accounts.number_of_find {a : Accounts} {x : Account} (other : n ≠ 0) (found : a.find n = some x) : x.number = n :=
  Accounts.number_of_find_table ((Accounts.find_table other).symm.trans found)

theorem State.withAccount_unknown {f : Account → State × Answer} (other : n ≠ 0) (absent : s.acc.find n = none) :
    s.withAccount n f = (s, refuse .unknown) := by
  rw [State.withAccount, if_neg other, absent]

theorem State.withAccount_found {f : Account → State × Answer} {a : Account} (other : n ≠ 0) (found : s.acc.find n = some a) :
    s.withAccount n f = f a := by
  rw [State.withAccount, if_neg other, found]

theorem State.accountAnswer_found {a : Account} (found : s.acc.find n = some a) :
    s.accountAnswer n = accept (.accountState a a.status) := by
  rw [State.accountAnswer, found]

end

theorem Accounts.update_zero (f : Account → Account) (a : Accounts) : a.update 0 f = { a with counter := f a.counter } := rfl

theorem Accounts.update_other {n : Nat} (other : n ≠ 0) (f : Account → Account) (a : Accounts) :
    a.update n f = { a with table := a.table.map (fun x => if x.number = n then f x else x) } := if_neg other

/-- A changed account, with its change of status reported. -/
theorem State.changeAccount_found {s : State} {n : Nat} {a : Account} {f : Account → Account} (other : n ≠ 0)
    (found : s.acc.find n = some a) (number : ∀ x, (f x).number = x.number) : s.changeAccount n f
      = State.raiseAll (statusNotice a (f a))
          { s with acc := { s.acc with table := s.acc.table.map (fun x => if x.number = n then f x else x) } } := by
  have after : (s.acc.update n f).find n = some (f a) := by rw [Accounts.find_update number, found]; rfl
  rw [State.changeAccount, State.compareStatus_singleton found after, Accounts.update_other other]

theorem Account.status_number_zero {a : Account} (zero : a.number = 0) : a.status = .opened := if_pos zero

theorem Account.status_other {a : Account} (other : a.number ≠ 0) :
    a.status = .blocked ↔ a.hold = true ∨ a.balance < -(a.limit : Int) := by
  rw [Account.status, if_neg other]
  simp only [Bool.or_eq_true, decide_eq_true_eq]
  split
  · next h => simp [h]
  · next h => simp [h]

theorem statusNotice_cases (a b : Account) :
    (a.status = b.status → statusNotice a b = [])
      ∧ (a.status = .opened → b.status = .blocked → statusNotice a b =
          [.accountBlocked b.number b.balance b.limit (if b.hold then .hold else .limit)])
      ∧ (a.status = .blocked → b.status = .opened → statusNotice a b = [.accountOpened b.number b.balance b.limit]) := by
  unfold statusNotice
  cases a.status <;> cases b.status <;> simp

/-! ## OPEN_ACCOUNT and CLOSE_ACCOUNT -/

theorem State.openBar_eq (s : State) (n credit limit : Nat) : s.openBar n credit limit =
    if ¬ (1 ≤ n ∧ n ≤ 65535 ∧ credit ≤ 2000000000 ∧ limit ≤ 10000000) then some .outOfRange
    else if (s.acc.find n).isSome = true then some .duplicate
    else if 256 ≤ s.acc.table.length then some .full else none := by
  unfold State.openBar
  refine if_congr ?_ rfl rfl
  rw [Bool.not_eq_true', ← Bool.not_eq_true]
  simp only [Bool.and_eq_true, within_eq_true, Nat.zero_le, true_and, and_assoc]

theorem State.doOpenAccount_barred {s : State} {n credit limit : Nat} {e : Status} (bar : s.openBar n credit limit = some e) :
    s.doOpenAccount n credit limit = (s, refuse e) := by
  simp only [State.doOpenAccount, bar]

theorem State.closeBar_eq {s : State} {n : Nat} {a : Account} (number : a.number = n) : s.closeBar a =
    if a.balance ≠ 0 then some 1 else if a.commitment ≠ 0 then some 2
    else if ∃ v ∈ s.reg.entries, v.account = n then some 3 else none := by
  unfold State.closeBar
  simp only [List.any_eq_true, decide_eq_true_eq, number]

theorem State.doCloseAccount_barred {s : State} {n i : Nat} {a : Account} (other : n ≠ 0) (found : s.acc.find n = some a)
    (bar : s.closeBar a = some i) : s.doCloseAccount n = (s, refuseWith .wrongState (.test i)) := by
  rw [State.doCloseAccount, State.withAccount_found other found, bar]

theorem State.doCloseAccount_passed {s : State} {n : Nat} {a : Account} (other : n ≠ 0) (found : s.acc.find n = some a)
    (passed : s.closeBar a = none) : s.doCloseAccount n = (s.freeAccount n, accept .empty) := by
  rw [State.doCloseAccount, State.withAccount_found other found, passed]

/-- Settles O50: each refusal is the test that bars the request; an accepted one inserts or filters the account. -/
theorem openAndCloseAccount : Obligations.OpenAndCloseAccount := by
  refine ⟨fun h n credit limit s taken => ?_, fun h n a s taken other found => ?_⟩
  · intro u inRange account
    have barred {e : Status} (bar : u.openBar n credit limit = some e) :
        exec (.openAccount h n credit limit) s = .next (State.replied h 32 (refuse e) u) :=
      congrArg Host.Outcome.next (State.takeRequest_of_block taken rfl (State.doOpenAccount_barred bar))
    have tests := u.openBar_eq n credit limit
    have absent (inside : inRange) (fresh : s.acc.find n = none) : ∀ a ∈ s.acc.table, a.number ≠ n := fun a mem => by
      have none_ := (Accounts.find_table (Nat.pos_iff_ne_zero.1 inside.1)).symm.trans fresh
      simpa using List.find?_eq_none.1 none_ a mem
    refine ⟨fun out => barred (tests.trans (if_pos out)), fun inside dup => barred ?_, fun inside fresh full => barred ?_,
      fun inside fresh room => ⟨insertAccount account s.acc.table, ?_, ?_, fun m apart => ?_, ?_, fun rising => ?_⟩⟩
    · exact tests.trans ((if_neg (not_not.2 inside)).trans (if_pos dup))
    · exact tests.trans ((if_neg (not_not.2 inside)).trans ((if_neg (by rw [show u.acc.find n = none from fresh]; simp)).trans
        (if_pos full)))
    · have other : account.number ≠ 0 := Nat.pos_iff_ne_zero.1 inside.1
      have passed : u.openBar n credit limit = none :=
        tests.trans ((if_neg (not_not.2 inside)).trans ((if_neg (by rw [show u.acc.find n = none from fresh]; simp)).trans
          (if_neg (Nat.not_le.2 room))))
      have opened : account.status = .opened := by
        rw [Account.status, if_neg other, if_neg]
        simp [account]
      have block : State.doOpenAccount n credit limit u = (u.openAccount n credit limit, accept (.accountState account account.status)) := by
        simp only [State.doOpenAccount, passed]
        rfl
      rw [opened] at block
      exact congrArg Host.Outcome.next (State.takeRequest_of_block taken rfl block)
    · exact find_insertAccount_same account s.acc.table (absent inside fresh)
    · exact find_insertAccount_other account s.acc.table apart
    · exact length_insertAccount account s.acc.table
    · exact pairwise_insertAccount account s.acc.table (absent inside fresh) rising
  · intro u refused
    have found : u.acc.find n = some a := found
    have tests := State.closeBar_eq (s := u) (Accounts.number_of_find other found)
    have barred {i : Nat} (bar : u.closeBar a = some i) : refused i := by
      exact congrArg Host.Outcome.next (State.takeRequest_of_block taken rfl (State.doCloseAccount_barred other found bar))
    refine ⟨fun owes => barred (tests.trans (if_pos owes)), fun even committed => barred ?_, fun even free vessel => barred ?_,
      fun even free none_ => ?_⟩
    · exact tests.trans ((if_neg (not_not.2 even)).trans (if_pos committed))
    · exact tests.trans ((if_neg (not_not.2 even)).trans ((if_neg (not_not.2 free)).trans (if_pos vessel)))
    · have passed : u.closeBar a = none := tests.trans ((if_neg (not_not.2 even)).trans ((if_neg (not_not.2 free)).trans
        (if_neg fun ⟨v, mem, own⟩ => none_ v mem own)))
      exact congrArg Host.Outcome.next (State.takeRequest_of_block taken rfl (State.doCloseAccount_passed other found passed))

/-! ## SET_CREDIT, HOLD_ACCOUNT and RELEASE_ACCOUNT -/

section
variable {s : State} {n : Nat}

theorem State.doSetCredit_inRange {limit : Nat} (inside : limit ≤ 10000000) : s.doSetCredit n limit
    = s.withAccount n (fun a => if a.limit = limit then (s, s.accountAnswer n)
        else (s.changeAccount n (fun x => { x with limit := limit })).acceptAccount n true) :=
  if_neg (by simp [within, inside])

variable {a : Account} (other : n ≠ 0) (found : s.acc.find n = some a)
include other found

theorem State.doSetCredit_found {limit : Nat} (inside : limit ≤ 10000000) : s.doSetCredit n limit
    = if a.limit = limit then (s, accept (.accountState a a.status))
      else (s.changeAccount n (fun x => { x with limit := limit })).acceptAccount n true := by
  rw [State.doSetCredit_inRange inside, State.withAccount_found other found, State.accountAnswer_found found]

theorem State.doHoldAccount_found : s.doHoldAccount n
    = if a.hold = true then (s, accept (.accountState a a.status))
      else (s.changeAccount n (fun x => { x with hold := true })).acceptAccount n false := by
  rw [State.doHoldAccount, State.withAccount_found other found, State.accountAnswer_found found]

theorem State.doReleaseAccount_found : s.doReleaseAccount n
    = if a.hold = true then (s.changeAccount n (fun x => { x with hold := false })).acceptAccount n true
      else (s, accept (.accountState a a.status)) := by
  rw [State.doReleaseAccount, State.withAccount_found other found, State.accountAnswer_found found]

end

/-- Settles O51: each request by the account that it finds, and the status of an account by its number, hold and balance. -/
theorem accountRequests : Obligations.AccountRequests := by
  refine ⟨fun h n limit s taken above => ?_, fun h n limit s inside => ?_, fun h n limit a s other found => ?_, fun a b => ?_,
    fun s n f => ⟨rfl, Accounts.find_table, Accounts.update_zero f s.acc, fun other => Accounts.update_other other f s.acc,
      fun a found => State.accountAnswer_found found⟩⟩
  · exact congrArg Host.Outcome.next (State.takeRequest_of_block taken rfl (if_pos (by simp [within, above])))
  · intro u same
    have block {kind : Nat} {block : State → State × Answer} {c : Instr} {a : Answer} (inside : within 1 40 kind = true)
        (left : block u = (u, a)) (run : exec c s = .next (s.takeRequest h kind block)) : same kind c a := fun taken =>
      run.trans (congrArg Host.Outcome.next (State.takeRequest_of_block taken inside left))
    refine ⟨fun zero => ?_, fun other absent => ?_, fun a other found => ?_⟩
    · subst zero
      exact ⟨block rfl (State.doSetCredit_inRange inside) rfl, block rfl rfl rfl, block rfl rfl rfl, block rfl rfl rfl⟩
    · have absent : u.acc.find n = none := absent
      exact ⟨block rfl ((State.doSetCredit_inRange inside).trans (State.withAccount_unknown other absent)) rfl,
        block rfl (State.withAccount_unknown other absent) rfl, block rfl (State.withAccount_unknown other absent) rfl,
        block rfl (State.withAccount_unknown other absent) rfl⟩
    · have found : u.acc.find n = some a := found
      exact ⟨fun stands => block rfl ((State.doSetCredit_found other found inside).trans (if_pos stands)) rfl,
        fun held => block rfl ((State.doHoldAccount_found other found).trans (if_pos held)) rfl,
        fun free => block rfl ((State.doReleaseAccount_found other found).trans (if_neg (by simp [free]))) rfl⟩
  · intro u changed
    have found : u.acc.find n = some a := found
    have changes (f : Account → Account) (number : ∀ x, (f x).number = x.number) : u.changeAccount n f = changed f :=
      State.changeAccount_found other found number
    refine ⟨fun taken inside apart => ?_, fun taken free => ?_, fun taken held => ?_⟩
    · refine congrArg Host.Outcome.next (State.takeRequest_of_block taken rfl
        ((State.doSetCredit_found other found inside).trans ((if_neg apart).trans ?_)))
      rw [changes (fun x => { x with limit := limit }) fun _ => by rfl]
      rfl
    · refine congrArg Host.Outcome.next (State.takeRequest_of_block taken rfl
        ((State.doHoldAccount_found other found).trans ((if_neg (by simp [free])).trans ?_)))
      rw [changes (fun x => { x with hold := true }) fun _ => by rfl]
      rfl
    · refine congrArg Host.Outcome.next (State.takeRequest_of_block taken rfl
        ((State.doReleaseAccount_found other found).trans ((if_pos held).trans ?_)))
      rw [changes (fun x => { x with hold := false }) fun _ => by rfl]
      rfl
  · exact ⟨Account.status_number_zero, Account.status_other, fun _ => rfl, statusNotice_cases a b⟩

end Sys2Proof.Machine
end

