-- ==== Sys2Proof/Proofs/Quotes.lean ====
section
/-! SUPPORT. Charges and quotes (07, 08): the parts of a charge, the quote slots, and the answers of QUOTE. Settles O48, O54. -/

namespace Sys2Proof.Machine

/-! ## Charges (R136 to R144) -/

theorem mem_charges {s : State} {t : Transit} {c : Charge} (mem : c ∈ (s.settlement t).charges) : ∃ b ∈ t.berths, ∃ v,
    s.vessel b.mark = some v
      ∧ c = chargeOf (s.toll.tariffOf t.generation) t (s.settlement t).anomaly v c.share := by
  obtain ⟨⟨b, share⟩, berth, formed⟩ := List.mem_filterMap.1 mem
  obtain ⟨v, found, rfl⟩ := Option.map_eq_some_iff.1 formed
  exact ⟨b, (List.of_mem_zip berth).1, v, found, rfl⟩

theorem formParts_eq (r : ClassRate) (length deadweight share : Nat) (night : Bool) :
    let p := formParts r length deadweight share night
    let subtotal := p.base + p.length + p.tonnage + p.water
    p.base = r.base ∧ p.length = r.lengthRate * ((length + 9) / 10) ∧ p.tonnage = r.tonnageRate * ((deadweight + 9) / 10)
      ∧ p.water = (share * r.waterRate + 999) / 1000
      ∧ p.surcharge = (if night then (subtotal * r.nightPct + 50) / 100 else 0)
      ∧ p.amount = min (subtotal + p.surcharge) r.cap ∧ (p.capped = true ↔ r.cap < subtotal + p.surcharge) :=
  ⟨rfl, rfl, rfl, rfl, rfl, rfl, decide_eq_true_iff⟩

/-- Settles O48: the charges are formed berth by berth, each from the class record of its vessel. -/
theorem chargeFormed : Obligations.ChargeFormed := by
  refine ⟨fun s t => ⟨rfl, rfl, decide_eq_true_iff, fun c mem => ?_⟩, formParts_eq, fun s v => ⟨?_, rfl⟩⟩
  · obtain ⟨b, berth, v, found, formed⟩ := mem_charges mem
    refine ⟨b, berth, v, found, formed.trans ?_⟩
    cases cls : v.cls <;> simp only [chargeOf, tariffRate, cls] <;> rfl
  · unfold State.estimateParts
    cases v.cls <;> rfl

/-! ## The quote slots (R161, R165) -/

theorem find_four {p : Nat → Bool} {n : Nat} : ([0, 1, 2, 3].find? p).map (· + 1) = some n
    ↔ 1 ≤ n ∧ n ≤ 4 ∧ p (n - 1) = true ∧ ∀ i, 1 ≤ i → i < n → p (i - 1) = false := by
  rw [Option.map_eq_some_iff]
  constructor
  · rintro ⟨i, found, rfl⟩
    obtain ⟨own, inside, first⟩ := List.find?_range_eq_some.1 (show (List.range 4).find? p = some i from found)
    have := List.mem_range.1 inside
    exact ⟨by omega, by omega, own, fun j low high => by simpa using first (j - 1) (by omega)⟩
  · rintro ⟨low, high, own, first⟩
    refine ⟨n - 1, (List.find?_range_eq_some (n := 4)).2 ⟨own, List.mem_range.2 (by omega), fun j before => ?_⟩, by omega⟩
    simpa using first (j + 1) (by omega) (by omega)

theorem Accounts.slotOf_eq_some {a : Accounts} {m : Mark} {n : Nat} : a.slotOf m = some n ↔ 1 ≤ n ∧ n ≤ 4
    ∧ (a.slots.get (n - 1)).mark = some m ∧ ∀ i, 1 ≤ i → i < n → (a.slots.get (i - 1)).mark ≠ some m := by
  rw [Accounts.slotOf, find_four]
  simp only [decide_eq_true_eq, decide_eq_false_iff_not, ne_eq]

theorem Accounts.freeSlot_eq_some {a : Accounts} {n : Nat} : a.freeSlot = some n ↔ 1 ≤ n ∧ n ≤ 4
    ∧ a.slots.get (n - 1) = .free ∧ ∀ i, 1 ≤ i → i < n → a.slots.get (i - 1) ≠ .free := by
  rw [Accounts.freeSlot, find_four]
  simp only [decide_eq_true_eq, decide_eq_false_iff_not, ne_eq]

theorem Accounts.slotOf_place {a : Accounts} {m : Mark} {i : Nat} : a.slotOf m = some (i + 1) ↔ i < 4
    ∧ (a.slots.get i).mark = some m ∧ ∀ j, j < i → (a.slots.get j).mark ≠ some m := by
  rw [Accounts.slotOf_eq_some]
  constructor
  · rintro ⟨-, high, own, first⟩
    exact ⟨by omega, own, fun j before => first (j + 1) (by omega) (by omega)⟩
  · rintro ⟨high, own, first⟩
    exact ⟨by omega, by omega, own, fun j low before => first (j - 1) (by omega)⟩

/-- Two tables of slots with the same marks hold a mark at the same place. -/
theorem Accounts.slotOf_congr {a b : Accounts} (marks : ∀ i, i < 4 → (b.slots.get i).mark = (a.slots.get i).mark) (m : Mark) :
    b.slotOf m = a.slotOf m := by
  refine Option.ext fun n => ?_
  rw [Accounts.slotOf_eq_some, Accounts.slotOf_eq_some]
  constructor
  all_goals
    rintro ⟨low, high, own, first⟩
    refine ⟨low, high, ?_, fun i from1 before => ?_⟩
  · exact (marks _ (by omega)).symm.trans own
  · rw [← marks _ (by omega)]
    exact first i from1 before
  · exact (marks _ (by omega)).trans own
  · rw [marks _ (by omega)]
    exact first i from1 before

/-- The slot of a mark as its resolution leaves it, with a fresh discard time. -/
def State.resolution (s : State) (m : Mark) (r : QuoteResult) : QuoteSlot := .resolved m r (s.timing.discard * 1000)

section
variable (m : Mark) (r : QuoteResult) (s : State)

theorem State.resolveQuote_rest : { s.resolveQuote m r with acc := s.acc, ports := s.ports } = s := by
  unfold State.resolveQuote
  split <;> rfl

theorem State.resolveQuote_acc : { (s.resolveQuote m r).acc with slots := s.acc.slots } = s.acc := by
  unfold State.resolveQuote
  split <;> rfl

theorem State.resolveQuote_slot {i : Nat} (inside : i < 4) : (s.resolveQuote m r).acc.slots.get i
    = if s.acc.slotOf m = some (i + 1) then s.resolution m r else s.acc.slots.get i := by
  unfold State.resolveQuote
  split
  · next absent => simp [absent]
  · next n slot =>
    obtain ⟨low, high, -⟩ := Accounts.slotOf_eq_some.1 slot
    rw [State.raise_acc]
    by_cases here : n = i + 1
    · subst here
      rw [if_pos slot]
      exact Quad.get_set_same _ _ inside
    · rw [if_neg (by rw [slot]; simpa using here)]
      exact Quad.get_set_other _ _ inside (by omega)

theorem State.resolveQuote_marks {i : Nat} (inside : i < 4) :
    ((s.resolveQuote m r).acc.slots.get i).mark = (s.acc.slots.get i).mark := by
  rw [State.resolveQuote_slot m r s inside]
  split
  · next slot => exact (Accounts.slotOf_place.1 slot).2.1.symm
  · rfl

end

/-- The slots of a list of marks resolved, each with the result that a mark has. -/
def State.resolveEach (f : Mark → Option QuoteResult) (l : List Mark) (s : State) : State :=
  s.each l (fun m x => ((f m).map (fun r => x.resolveQuote m r)).getD x)

section
variable (f : Mark → Option QuoteResult)

theorem State.resolveEach_induct (l : List Mark) (s : State) {P : State → Prop} (base : P s)
    (step : ∀ m r (x : State), P x → P (x.resolveQuote m r)) : P (s.resolveEach f l) := by
  unfold State.resolveEach State.each
  induction l generalizing s with
  | nil => exact base
  | cons m rest ih =>
    refine ih _ ?_
    show P (((f m).map (fun r => s.resolveQuote m r)).getD s)
    cases f m with
    | none => exact base
    | some r => exact step m r s base

theorem State.resolveEach_rest (l : List Mark) (s : State) : { s.resolveEach f l with acc := s.acc, ports := s.ports } = s :=
  State.resolveEach_induct f l s (P := fun x => { x with acc := s.acc, ports := s.ports } = s) rfl fun m r x h =>
    (congrArg (fun y : State => { y with acc := s.acc, ports := s.ports }) (x.resolveQuote_rest m r)).trans h

theorem State.resolveEach_acc (l : List Mark) (s : State) : { (s.resolveEach f l).acc with slots := s.acc.slots } = s.acc :=
  State.resolveEach_induct f l s (P := fun x => { x.acc with slots := s.acc.slots } = s.acc) rfl fun m r x h =>
    (congrArg (fun y : Accounts => { y with slots := s.acc.slots }) (x.resolveQuote_acc m r)).trans h

theorem State.resolveEach_marks (l : List Mark) (s : State) :
    ∀ i, i < 4 → ((s.resolveEach f l).acc.slots.get i).mark = (s.acc.slots.get i).mark :=
  State.resolveEach_induct f l s (P := fun x => ∀ i, i < 4 → (x.acc.slots.get i).mark = (s.acc.slots.get i).mark)
    (fun _ _ => rfl) fun m r x h i inside => (x.resolveQuote_marks m r inside).trans (h i inside)

/-- The slot of a mark holds its result where the mark is of the list. -/
theorem State.resolveEach_slot {m : Mark} {i : Nat} (l : List Mark) (s : State) (slot : s.acc.slotOf m = some (i + 1)) :
    (s.resolveEach f l).acc.slots.get i
      = if m ∈ l then ((f m).map (s.resolution m)).getD (s.acc.slots.get i) else s.acc.slots.get i := by
  induction l generalizing s with
  | nil => rfl
  | cons x rest ih =>
    have inside := (Accounts.slotOf_place.1 slot).1
    show (State.resolveEach f rest (((f x).map (fun r => s.resolveQuote x r)).getD s)).acc.slots.get i = _
    cases result : f x with
    | none =>
      refine (ih s slot).trans ?_
      by_cases own : m = x
      · subst own
        simp [result]
      · simp [own]
    | some r =>
      have slot' : (s.resolveQuote x r).acc.slotOf m = some (i + 1) :=
        (Accounts.slotOf_congr (fun j inside => s.resolveQuote_marks x r inside) m).trans slot
      have timing : (s.resolveQuote x r).resolution = s.resolution := by
        rw [show (s.resolveQuote x r).resolution = State.resolution { s.resolveQuote x r with acc := s.acc, ports := s.ports } from rfl,
          s.resolveQuote_rest x r]
      refine (ih (s.resolveQuote x r) slot').trans ?_
      rw [timing, State.resolveQuote_slot x r s inside]
      by_cases own : m = x
      · subst own
        simp [slot, result]
      · have elsewhere : s.acc.slotOf x ≠ some (i + 1) := fun h =>
          own (Option.some.inj ((Accounts.slotOf_place.1 slot).2.1.symm.trans (Accounts.slotOf_place.1 h).2.1))
        simp [own, elsewhere]

/-- A slot that is no place of a mark of the list stays. -/
theorem State.resolveEach_other {i : Nat} (inside : i < 4) (l : List Mark) (s : State)
    (other : ∀ m ∈ l, (s.acc.slots.get i).mark ≠ some m) : (s.resolveEach f l).acc.slots.get i = s.acc.slots.get i := by
  induction l generalizing s with
  | nil => rfl
  | cons x rest ih =>
    show (State.resolveEach f rest (((f x).map (fun r => s.resolveQuote x r)).getD s)).acc.slots.get i = _
    have later : ∀ m ∈ rest, (s.acc.slots.get i).mark ≠ some m := fun m mem => other m (List.mem_cons_of_mem _ mem)
    cases f x with
    | none => exact ih s later
    | some r =>
      have stays : (s.resolveQuote x r).acc.slots.get i = s.acc.slots.get i := by
        rw [State.resolveQuote_slot x r s inside, if_neg]
        exact fun slot => other x List.mem_cons_self (Accounts.slotOf_place.1 slot).2.1
      exact (ih (s.resolveQuote x r) (by rw [stays]; exact later)).trans stays

end

/-! ## QUOTE (R162 to R167) -/

theorem Accounts.newestCharge_some {a : Accounts} {m : Mark} {older newer : List JournalEntry} {e : JournalEntry}
    {test : JournalEntry → Bool} (defined : a.newestCharge m = a.journal.reverse.find? test) (split : a.journal = older ++ e :: newer)
    (own : test e = true) (after : ∀ x ∈ newer, test x = false) : a.newestCharge m = some e := by
  rw [defined, split, List.reverse_append, List.reverse_cons, List.append_assoc, List.find?_append,
    List.find?_eq_none.2 fun x mem => by simp [after x (List.mem_reverse.1 mem)]]
  simp [own]

theorem State.mem_orphans {s : State} {n : Nat} {m : Mark} (inside : n < 4) (pending : s.acc.slots.get n = .pending m)
    (gone : s.vessel m = none) : m ∈ s.orphans := by
  have place : s.acc.slots.get n ∈ s.acc.slots.toList := by
    rcases n with _ | _ | _ | _ | n
    all_goals first | omega | simp [Quad.get, Quad.toList]
  refine List.mem_filterMap.2 ⟨_, place, ?_⟩
  simp only [pending, gone]
  rfl

section
variable {h : Hdr} {m : Mark} {s : State}

theorem exec_quote_of_block (taken : s.takes h 39) (good : markOk m = true) {t : State} {a : Answer}
    (block : (s.heard h).resolveOrphans.answerQuote m = (t, a)) : exec (.quote h m) s = .next (State.replied h 39 a t) :=
  congrArg Host.Outcome.next (State.takeRequest_of_block taken rfl ((if_pos good).trans block))

end

section
variable {s : State} {m : Mark}

theorem State.answerQuote_gone (gone : s.vessel m = none) : s.answerQuote m = s.quoteGone m := by
  rw [State.answerQuote, gone]

theorem State.answerQuote_called {v : Vessel} {id estimate : Nat} (known : s.vessel m = some v) (called : v.state = .called id estimate) :
    s.answerQuote m = s.quoteCalled m id estimate := by
  simp only [State.answerQuote, known, called]

theorem State.answerQuote_waiting {v : Vessel} (known : s.vessel m = some v) (waiting : v.state = .waiting) :
    s.answerQuote m = (s, accept (.estimate (s.estimateParts v) s.toll.current.number s.toll.nightNow)) := by
  simp only [State.answerQuote, known, waiting]
  rfl

theorem State.quoteGone_resolved {n left : Nat} {x : Mark} {r : QuoteResult} (slot : s.acc.slotOf m = some n)
    (resolved : s.acc.slot n = .resolved x r left) :
    s.quoteGone m = ({ s with acc := s.acc.setSlot n .free }, accept (.quoted r)) := by
  simp only [State.quoteGone, slot, resolved]

theorem State.quoteGone_none (slot : s.acc.slotOf m = none) : s.quoteGone m = s.quoteJournal m := by
  simp only [State.quoteGone, slot]

end

/-- Settles O54: the orphans resolved, the answer is read from the entry of the mark, its slot or the journal. -/
theorem quoteAnswers : Obligations.QuoteAnswers := by
  refine ⟨fun h m s taken bad => ?_, fun a m n => ?_, fun a m => ?_, fun s => ?_, fun h m s taken good => ?_⟩
  · exact congrArg Host.Outcome.next (State.takeRequest_of_block taken rfl (if_neg (by simp [bad])))
  · intro holds
    have marked (i : Nat) : holds i ↔ (a.slots.get (i - 1)).mark = some m := by
      simp only [holds]
      cases a.slots.get (i - 1) <;> simp [QuoteSlot.mark]
    refine ⟨?_, Accounts.freeSlot_eq_some⟩
    simp only [marked]
    exact Accounts.slotOf_eq_some
  · intro charged
    refine ⟨fun older e newer parts own after => Accounts.newestCharge_some rfl parts ?_ fun x mem => ?_, fun none_ => ?_⟩
    · revert own
      simp only [charged]
      cases e.kind <;> simp
    · have other := after x mem
      revert other
      simp only [charged]
      cases x.kind <;> simp
    · refine List.find?_eq_none.2 fun x mem => ?_
      have other := none_ x (List.mem_reverse.1 mem)
      revert other
      simp only [charged]
      cases x.kind <;> simp
  · rw [State.orphans, show s.acc.slots.toList = [0, 1, 2, 3].map s.acc.slots.get from rfl, List.filterMap_map]
    refine congrArg (fun f => List.filterMap f [0, 1, 2, 3]) (funext fun n => ?_)
    simp only [Function.comp]
    cases s.acc.slots.get n with
    | pending m => cases found : s.vessel m <;> simp [found]
    | free | resolved => rfl
  · intro u answered
    have rest : { u with acc := s.acc, ports := (s.heard h).ports } = s.heard h := State.resolveEach_rest (fun _ => some .withdrawn) s.orphans (s.heard h)
    have reads {α : Type} (g : State → α) (beside : ∀ (x : State) (acc : Accounts) (ports : Ports),
        g { x with acc := acc, ports := ports } = g x) : g u = g s :=
      (beside u s.acc (s.heard h).ports).symm.trans ((congrArg g rest).trans (beside s s.acc (s.heard h).ports))
    have vessel (x : Mark) : u.vessel x = s.vessel x := reads (fun y => y.vessel x) fun _ _ _ => rfl
    have estimates : u.estimateParts = s.estimateParts := reads State.estimateParts fun _ _ _ => rfl
    have toll : u.toll = s.toll := reads State.toll fun _ _ _ => rfl
    have marks := State.resolveEach_marks (fun _ => some .withdrawn) s.orphans (s.heard h)
    have answer {slots : Quad QuoteSlot} {a : Answer}
        (block : u.answerQuote m = ({ u with acc := { u.acc with slots := slots } }, a)) : answered slots a :=
      exec_quote_of_block taken good block
    refine ⟨fun v known waiting => answer ?_, fun v id estimate known called => ⟨fun n slot => answer ?_, fun none_ => answer ?_⟩,
      fun gone => ⟨fun n x r left slot resolved => answer ?_, fun n inside pending first => answer ?_, fun absent => answer ?_⟩⟩
    · have block := State.answerQuote_waiting ((vessel m).trans known) waiting
      rw [estimates, toll] at block
      exact block
    · rw [State.answerQuote_called ((vessel m).trans known) called, State.quoteCalled, slot]
      rfl
    · rw [State.answerQuote_called ((vessel m).trans known) called, State.quoteCalled, none_]
    · rw [State.answerQuote_gone ((vessel m).trans gone), State.quoteGone_resolved slot resolved]
      rfl
    · have slot : s.acc.slotOf m = some (n + 1) := Accounts.slotOf_place.2 ⟨inside, by rw [pending]; rfl, first⟩
      have slot' : u.acc.slotOf m = some (n + 1) := (Accounts.slotOf_congr marks m).trans slot
      have resolved : u.acc.slots.get n = (s.heard h).resolution m .withdrawn :=
        (State.resolveEach_slot (fun _ => some .withdrawn) s.orphans (s.heard h) slot).trans
          (if_pos (State.mem_orphans inside pending gone))
      rw [State.answerQuote_gone ((vessel m).trans gone), State.quoteGone_resolved slot' resolved]
      rfl
    · have absent' : u.acc.slotOf m = none := (Accounts.slotOf_congr marks m).trans absent
      have entries := congrArg (fun a : Accounts => a.newestCharge m)
        (State.resolveEach_acc (fun _ => some .withdrawn) s.orphans (s.heard h))
      have journal : u.acc.newestCharge m = s.acc.newestCharge m := entries
      rw [State.answerQuote_gone ((vessel m).trans gone), State.quoteGone_none absent', State.quoteJournal, journal]
      cases s.acc.newestCharge m <;> rfl

end Sys2Proof.Machine
end

