-- ==== Sys2Proof/Proofs/SettlementSteps.lean ====
section
/-! SUPPORT. The settlement of a transit, step by step: the entries, the postings, the commitments, the quote slots, and the CLEAR that makes it. Settles O36. -/

namespace Sys2Proof.Machine

/-! ## Posting (R156) -/

/-- An account with an amount taken from its balance. -/
def Account.debited (amount : Nat) (x : Account) : Account := { x with balance := x.balance - amount }

theorem Accounts.post_eq (stamp : Stamp) (a : Accounts) (c : Charge) : a.post stamp c = { a.update c.account (Account.debited c.parts.amount) with
    journal := a.journal ++ [{ seq := a.nextSeq, kind := .charge c, stamp := stamp }]
    nextSeq := (a.nextSeq + 1) % 65536
    reserved := a.reserved - 1 } := by
  have debit : (fun x : Account => { x with balance := x.balance + -(c.parts.amount : Int) }) = Account.debited c.parts.amount :=
    funext fun x => by rw [Account.debited, Int.sub_eq_add_neg]
  rw [Accounts.post, Accounts.credit, debit, Accounts.append, Accounts.unreserve, Accounts.update_journal, Accounts.update_nextSeq,
    Accounts.update_reserved]

theorem Accounts.update_slots (n : Nat) (f : Account → Account) (a : Accounts) : (a.update n f).slots = a.slots := by
  unfold Accounts.update
  split <;> rfl

/-- The Toll Accounts with charges posted in order. -/
def Accounts.posted (stamp : Stamp) (l : List Charge) (a : Accounts) : Accounts := l.foldl (Accounts.post stamp) a

section
variable {f : Account → Account} (number : ∀ x, (f x).number = x.number) (a : Accounts)
include number

theorem Accounts.find_update_other {n k : Nat} (apart : n ≠ k) : (a.update k f).find n = a.find n := by
  have sameTest : (fun y : Account => decide (y.number = n)) ∘ (fun x => if x.number = k then f x else x)
      = fun y => decide (y.number = n) := by
    funext y
    by_cases hy : y.number = k <;> simp [hy, number]
  by_cases zero : k = 0
  · subst zero
    simp [Accounts.update, Accounts.find, apart]
  · by_cases self : n = 0
    · simp [Accounts.update, Accounts.find, self, zero]
    · simp only [Accounts.update, Accounts.find, if_neg zero, if_neg self, List.find?_map, sameTest]
      refine (Option.map_congr fun x found => ?_).trans Option.map_id'
      rw [if_neg fun own => apart ((Accounts.number_of_find_table found).symm.trans own)]

end

/-- What the account of a number reads after a change of another or of itself. -/
theorem Accounts.read_update {α : Type} (g : Account → α) {f : Account → Account} (number : ∀ x, (f x).number = x.number) (a : Accounts)
    (n k : Nat) : ((a.update k f).find n).map g = (a.find n).map (fun x => if n = k then g (f x) else g x) := by
  by_cases own : n = k
  · subst own
    rw [Accounts.find_update number, Option.map_map]
    simp [Function.comp_def]
  · rw [Accounts.find_update_other number a own]
    simp [own]

section
variable (stamp : Stamp) (l : List Charge) (a : Accounts)

theorem Accounts.post_find (c : Charge) (n : Nat) :
    (a.post stamp c).find n = (a.update c.account (Account.debited c.parts.amount)).find n := by
  rw [Accounts.post_eq]
  rfl

theorem Accounts.posted_slots : (a.posted stamp l).slots = a.slots := by
  induction l generalizing a with
  | nil => rfl
  | cons c rest ih => exact (ih _).trans (by rw [Accounts.post_eq, Accounts.update_slots])

theorem Accounts.posted_commitment (n : Nat) :
    ((a.posted stamp l).find n).map Account.commitment = (a.find n).map Account.commitment := by
  induction l generalizing a with
  | nil => rfl
  | cons c rest ih =>
    refine (ih _).trans ?_
    rw [Accounts.post_find, Accounts.read_update Account.commitment (fun _ => by rfl)]
    congr 1
    funext x
    exact ite_self _

theorem Accounts.posted_balance (n : Nat) : ((a.posted stamp l).find n).map Account.balance = (a.find n).map (fun x =>
    x.balance - ((((l.filter (fun c => decide (c.account = n))).map (fun c => c.parts.amount)).sum : Nat) : Int)) := by
  induction l generalizing a with
  | nil => simp [Accounts.posted]
  | cons c rest ih =>
    refine (ih _).trans ?_
    rw [Accounts.post_find, Accounts.read_update
      (fun x => x.balance - ((((rest.filter (fun c => decide (c.account = n))).map (fun c => c.parts.amount)).sum : Nat) : Int))
      (fun _ => by rfl)]
    congr 1
    funext x
    by_cases own : n = c.account
    · simp only [own, List.filter_cons, decide_true, if_true, List.map_cons, List.sum_cons, Account.debited]
      push_cast
      omega
    · simp [own, Ne.symm own]

/-- The journal entries of charges posted in order from a sequence number on. -/
def chargeEntries (stamp : Stamp) (seq : Nat) (l : List Charge) : List JournalEntry :=
  l.zipIdx.map (fun (c, i) => { seq := (seq + i) % 65536, kind := .charge c, stamp := stamp })

theorem chargeEntries_cons {seq : Nat} (inside : seq < 65536) (c : Charge) : chargeEntries stamp seq (c :: l)
    = { seq := seq, kind := .charge c, stamp := stamp } :: chargeEntries stamp ((seq + 1) % 65536) l := by
  simp only [chargeEntries, List.zipIdx_cons', List.map_cons, List.map_map, Function.comp_def, Nat.add_zero,
    Nat.mod_eq_of_lt inside, List.cons.injEq, true_and]
  refine List.map_congr_left fun x _ => ?_
  show ({ seq := (seq + (x.2 + 1)) % 65536, kind := .charge x.1, stamp := stamp } : JournalEntry)
    = { seq := ((seq + 1) % 65536 + x.2) % 65536, kind := .charge x.1, stamp := stamp }
  rw [Nat.mod_add_mod, Nat.add_assoc, Nat.add_comm 1]

variable {a}

theorem Accounts.posted_journal (inside : a.nextSeq < 65536) :
    (a.posted stamp l).journal = a.journal ++ chargeEntries stamp a.nextSeq l
      ∧ (a.posted stamp l).nextSeq = (a.nextSeq + l.length) % 65536 := by
  induction l generalizing a with
  | nil => exact ⟨(List.append_nil _).symm, (Nat.mod_eq_of_lt inside).symm⟩
  | cons c rest ih =>
    have seq : (a.post stamp c).nextSeq = (a.nextSeq + 1) % 65536 := by rw [Accounts.post_eq]
    have journal : (a.post stamp c).journal = a.journal ++ [{ seq := a.nextSeq, kind := .charge c, stamp := stamp }] := by
      rw [Accounts.post_eq]
    obtain ⟨later, next⟩ := ih (a := a.post stamp c) (by omega)
    refine ⟨later.trans ?_, next.trans ?_⟩
    · rw [journal, seq, chargeEntries_cons stamp rest inside, List.append_assoc, List.singleton_append]
    · rw [seq, List.length_cons, Nat.mod_add_mod, Nat.add_assoc, Nat.add_comm 1]

end

/-! ## Commitments removed (R155) -/

/-- The Toll Accounts with the estimate of each berth taken from the account that its mark counts on. -/
def Accounts.uncommitted (of : Mark → Nat) (l : List Berth) (a : Accounts) : Accounts :=
  l.foldl (fun x b => x.uncommit (of b.mark) b.estimate) a

section
variable (of : Mark → Nat) (l : List Berth) (a : Accounts)

theorem Accounts.uncommit_rest (n e : Nat) : { a.uncommit n e with counter := a.counter, table := a.table } = a := by
  unfold Accounts.uncommit Accounts.update
  split <;> rfl

theorem Accounts.uncommitted_rest : { a.uncommitted of l with counter := a.counter, table := a.table } = a := by
  induction l generalizing a with
  | nil => rfl
  | cons b rest ih =>
    have here := a.uncommit_rest (of b.mark) b.estimate
    have later := congrArg (fun x : Accounts => { x with counter := a.counter, table := a.table }) (ih (a.uncommit (of b.mark) b.estimate))
    exact later.trans here

theorem Accounts.uncommitted_commitment (n : Nat) : ((a.uncommitted of l).find n).map Account.commitment
    = (a.find n).map (fun x => x.commitment - ((l.filter (fun b => decide (of b.mark = n))).map Berth.estimate).sum) := by
  induction l generalizing a with
  | nil => simp [Accounts.uncommitted]
  | cons b rest ih =>
    refine (ih (a.uncommit (of b.mark) b.estimate)).trans ?_
    rw [Accounts.uncommit, Accounts.read_update
      (fun x => x.commitment - ((rest.filter (fun b => decide (of b.mark = n))).map Berth.estimate).sum) (fun _ => by rfl)]
    congr 1
    funext x
    by_cases own : n = of b.mark
    · simp [own, Nat.sub_sub]
    · simp [own, Ne.symm own]

theorem Accounts.uncommitted_balance (n : Nat) :
    ((a.uncommitted of l).find n).map Account.balance = (a.find n).map Account.balance := by
  induction l generalizing a with
  | nil => rfl
  | cons b rest ih =>
    refine (ih (a.uncommit (of b.mark) b.estimate)).trans ?_
    rw [Accounts.uncommit, Accounts.read_update Account.balance (fun _ => by rfl)]
    congr 1
    funext x
    exact ite_self _

end

/-! ## The steps of a settlement (R115) -/

section
variable (t : Transit) (r : Settlement) (s : State)

theorem State.setVessel_vessel {m : Mark} {f : Vessel → Vessel} (mark : ∀ v, (f v).mark = v.mark) (x : Mark) :
    (s.setVessel m f).vessel x = (s.vessel x).map (fun v => if v.mark = m then f v else v) := by
  simp only [State.setVessel, State.vessel, List.find?_map]
  congr 2
  funext v
  by_cases own : v.mark = m <;> simp [own, mark]

theorem State.setVessel_accountOf {m : Mark} {f : Vessel → Vessel} (mark : ∀ v, (f v).mark = v.mark)
    (account : ∀ v, (f v).account = v.account) : (s.setVessel m f).accountOf = s.accountOf := by
  funext x
  rw [State.accountOf, State.setVessel_vessel s mark, Option.map_map, State.accountOf]
  congr 2
  funext v
  by_cases own : v.mark = m <;> simp [own, account]

theorem State.exitVessels_rest : { s.exitVessels t with reg := s.reg } = s := by
  unfold State.exitVessels State.each
  generalize t.berths = l
  induction l generalizing s with
  | nil => rfl
  | cons b rest ih =>
    exact (congrArg (fun x : State => { x with reg := s.reg }) (ih (s.setVessel b.mark _))).trans rfl

theorem State.exitVessels_acc : (s.exitVessels t).acc = s.acc := (congrArg State.acc (s.exitVessels_rest t) : _)

theorem State.exitVessels_toll : (s.exitVessels t).toll = s.toll := (congrArg State.toll (s.exitVessels_rest t) : _)

theorem State.exitVessels_accountOf : (s.exitVessels t).accountOf = s.accountOf := by
  unfold State.exitVessels State.each
  generalize t.berths = l
  induction l generalizing s with
  | nil => rfl
  | cons b rest ih => exact (ih _).trans (s.setVessel_accountOf (fun _ => by rfl) (fun _ => by rfl))

/-- A vessel of another mark is an entry after the exits as before. -/
theorem State.mem_exitVessels {v : Vessel} (other : v.mark ∉ t.marks) :
    v ∈ (s.exitVessels t).reg.entries ↔ v ∈ s.reg.entries := by
  unfold Transit.marks at other
  unfold State.exitVessels State.each
  generalize t.berths = l at other ⊢
  induction l generalizing s with
  | nil => exact Iff.rfl
  | cons b rest ih =>
    simp only [List.map_cons, List.mem_cons, not_or] at other
    refine (ih _ other.2).trans (List.mem_map.trans ⟨?_, fun mem => ⟨v, mem, if_neg other.1⟩⟩)
    rintro ⟨w, mem, rfl⟩
    by_cases own : w.mark = b.mark
    · exact absurd (by rw [if_pos own]; exact own) other.1
    · rw [if_neg own]
      exact mem

theorem State.freeVessels_eq (l : List Mark) : s.freeVessels l = { s with reg := { s.reg with
    entries := s.reg.entries.filter (fun v => !decide (v.mark ∈ l)) } } := by
  unfold State.freeVessels State.each
  induction l generalizing s with
  | nil => simp
  | cons m rest ih =>
    refine (ih _).trans ?_
    simp only [State.freeVessel, List.filter_filter, List.mem_cons, Bool.decide_or, Bool.not_or, Bool.and_comm]

/-- The charges resolve the quote slots with the entries found in the journal as it stands. -/
theorem State.resolveCharges_eq (start : Nat) (l : List Mark) :
    s.resolveCharges start l = s.resolveEach (fun m => (s.entryOf start m).map QuoteResult.charge) l := by
  have same : ∀ x : State, x.acc.journal = s.acc.journal → x.entryOf start = s.entryOf start := fun x journal => by
    funext m
    rw [State.entryOf, journal, State.entryOf]
  have walk : ∀ (x : State), x.acc.journal = s.acc.journal →
      x.resolveCharges start l = x.resolveEach (fun m => (s.entryOf start m).map QuoteResult.charge) l := by
    unfold State.resolveCharges State.resolveEach State.each
    induction l with
    | nil => exact fun _ _ => rfl
    | cons m rest ih =>
      intro x journal
      simp only [List.foldl_cons, same x journal]
      cases s.entryOf start m with
      | none => exact ih x journal
      | some e =>
        exact ih _ ((congrArg Accounts.journal (x.resolveQuote_acc m (.charge e)) : _).trans journal)
  exact walk s rfl

/-- The record with its anomaly flag, reported where it is set (R136). -/
def State.flagged : State :=
  (s.setTransit t.id (fun x => { x with water := { t.water with anomaly := r.anomaly } })).when r.anomaly
    (State.raise (.volumeAnomaly t.id t.water.predicted t.water.measured r.bound r.volume))

theorem State.flagged_rest : { s.flagged t r with table := s.table, ports := s.ports } = s := by
  unfold State.flagged State.when
  split <;> rfl

/-- The Toll Accounts with the charges posted under the clock as it stands. -/
def State.postedAcc : Accounts := s.acc.posted s.toll.clock.stamp r.charges

/-- The settlement as far as the entries freed (R115 steps 1 to 3). -/
def State.settledBooks : State :=
  ((((s.flagged t r).exitVessels t).postCharges r.charges).uncommitBerths t.berths).freeVessels t.marks

theorem State.posting_eq : ((s.flagged t r).exitVessels t).postCharges r.charges
    = State.raiseAll (statusNotices s.acc (s.postedAcc r) (r.charges.map Charge.account))
      { (s.flagged t r).exitVessels t with acc := s.postedAcc r } := by
  have acc : ((s.flagged t r).exitVessels t).acc = s.acc :=
    (State.exitVessels_acc _ _).trans (congrArg State.acc (s.flagged_rest t r) : _)
  have toll : ((s.flagged t r).exitVessels t).toll = s.toll :=
    (State.exitVessels_toll _ _).trans (congrArg State.toll (s.flagged_rest t r) : _)
  have posted : r.charges.foldl (Accounts.post ((s.flagged t r).exitVessels t).toll.clock.stamp) s.acc = s.postedAcc r := by
    rw [toll]
    rfl
  rw [State.postCharges, acc, posted]
  rfl

theorem State.settledBooks_acc : (s.settledBooks t r).acc = (s.postedAcc r).uncommitted s.accountOf t.berths := by
  have account : (((s.flagged t r).exitVessels t).postCharges r.charges).accountOf = s.accountOf := by
    have reg : (((s.flagged t r).exitVessels t).postCharges r.charges).accountOf = ((s.flagged t r).exitVessels t).accountOf := by
      funext m
      rw [State.accountOf, State.vessel, State.postCharges_reg]
      rfl
    refine reg.trans ((State.exitVessels_accountOf t _).trans ?_)
    funext m
    have same : (s.flagged t r).reg = s.reg := (congrArg State.reg (s.flagged_rest t r) : _)
    rw [State.accountOf, State.vessel, same]
    rfl
  unfold State.settledBooks
  rw [State.freeVessels_eq]
  show Accounts.uncommitted (((s.flagged t r).exitVessels t).postCharges r.charges).accountOf t.berths
    (((s.flagged t r).exitVessels t).postCharges r.charges).acc = _
  rw [account, State.posting_eq, State.raiseAll_acc]

/-- What resolves the quote slot of a mark at a settlement: the entry just appended for it (R165). -/
def State.chargeResult (m : Mark) : Option QuoteResult :=
  (State.entryOf { s with acc := s.postedAcc r } s.acc.journal.length m).map QuoteResult.charge

theorem State.settleWith_eq : s.settleWith t r = { State.raise
    (.transitSettled t.id { t.water with anomaly := r.anomaly } r.volume (r.charges.map (fun c => (c.mark, c.parts.amount))))
    (((s.settledBooks t r).resolveEach (s.chargeResult r) t.marks).setTransit t.id (fun x => { x with state := .settled })) with
      callDue := true } := by
  have journal : (s.settledBooks t r).acc.journal = (s.postedAcc r).journal := by
    rw [State.settledBooks_acc]
    exact (congrArg Accounts.journal (Accounts.uncommitted_rest s.accountOf t.berths (s.postedAcc r)) : _)
  have entry : (fun m => ((s.settledBooks t r).entryOf s.acc.journal.length m).map QuoteResult.charge) = s.chargeResult r := by
    funext m
    rw [State.entryOf, journal]
    rfl
  have resolved := (s.settledBooks t r).resolveCharges_eq s.acc.journal.length t.marks
  rw [entry] at resolved
  exact congrArg (fun x : State => ((x.setTransit t.id (fun x => { x with state := .settled })).raise
    (.transitSettled t.id { t.water with anomaly := r.anomaly } r.volume
      (r.charges.map (fun c => (c.mark, c.parts.amount))))).calling) resolved

end

/-! ## What a settlement leaves -/

section
variable (t : Transit) (r : Settlement) (s : State)

theorem State.settledBooks_slots : (s.settledBooks t r).acc.slots = s.acc.slots := by
  rw [State.settledBooks_acc]
  refine (congrArg Accounts.slots (Accounts.uncommitted_rest s.accountOf t.berths (s.postedAcc r)) : _).trans ?_
  exact Accounts.posted_slots _ _ _

theorem State.settleWith_acc : { (s.settleWith t r).acc with slots := s.acc.slots } = (s.postedAcc r).uncommitted s.accountOf t.berths := by
  rw [State.settleWith_eq, ← State.settledBooks_acc t r s, ← State.settledBooks_slots t r s]
  exact (s.settledBooks t r).resolveEach_acc (s.chargeResult r) t.marks

theorem State.settleWith_find (n : Nat) :
    (s.settleWith t r).acc.find n = ((s.postedAcc r).uncommitted s.accountOf t.berths).find n := by
  rw [← State.settleWith_acc]
  rfl

theorem State.settleWith_reg : (s.settleWith t r).reg = (s.settledBooks t r).reg := by
  rw [State.settleWith_eq]
  exact (congrArg State.reg ((s.settledBooks t r).resolveEach_rest (s.chargeResult r) t.marks) : _)

theorem State.mem_settleWith (v : Vessel) :
    v ∈ (s.settleWith t r).reg.entries ↔ v ∈ s.reg.entries ∧ v.mark ∉ t.marks := by
  have same : (s.flagged t r).reg = s.reg := (congrArg State.reg (s.flagged_rest t r) : _)
  rw [State.settleWith_reg, State.settledBooks, State.freeVessels_eq]
  show v ∈ List.filter (fun v => !decide (v.mark ∈ t.marks))
    ((((s.flagged t r).exitVessels t).postCharges r.charges).uncommitBerths t.berths).reg.entries ↔ _
  have entries : ((((s.flagged t r).exitVessels t).postCharges r.charges).uncommitBerths t.berths).reg
      = ((s.flagged t r).exitVessels t).reg := by
    rw [State.posting_eq]
    exact State.raiseAll_reg _ _
  rw [entries, List.mem_filter, Bool.not_eq_true', decide_eq_false_iff_not]
  refine and_congr_left fun other => ?_
  rw [State.mem_exitVessels t _ other, same]

theorem State.settleWith_transit : (s.settleWith t r).transit t.id
    = (s.transit t.id).map (fun x => { x with state := .settled, water := { t.water with anomaly := r.anomaly } }) := by
  have table := s.settleWith_records t r
  simp only [State.records, Prod.mk.injEq] at table
  obtain ⟨-, -, -, -, table, -⟩ := table
  rw [State.transit, table, List.find?_map, State.transit]
  have sameTest : (fun x : Transit => decide (x.id = t.id)) ∘
      (fun x => if x.id = t.id then x.settledWith { t.water with anomaly := r.anomaly } else x) = fun x => decide (x.id = t.id) := by
    funext x
    by_cases own : x.id = t.id <;> simp [own, Transit.settledWith]
  rw [sameTest]
  refine Option.map_congr fun x found => ?_
  have own : x.id = t.id := by simpa using List.find?_some found
  rw [if_pos own]
  rfl

theorem State.settleWith_slots : (s.settleWith t r).acc.slots = ((s.settledBooks t r).resolveEach (s.chargeResult r) t.marks).acc.slots := by
  rw [State.settleWith_eq]
  rfl

theorem State.settledBooks_timing : (s.settledBooks t r).timing = s.timing := by
  have whole : (s.settleWith t r).timing = s.timing := (congrArg Outer.timing (s.settleWith_core t r) : _)
  rw [State.settleWith_eq] at whole
  exact (congrArg State.timing ((s.settledBooks t r).resolveEach_rest (s.chargeResult r) t.marks) : _).symm.trans whole

/-- The first charge of a mark among those posted is the entry that its slot takes. -/
theorem State.chargeResult_first {m : Mark} {i : Nat} {c : Charge} (inside : s.acc.nextSeq < 65536) (place : r.charges[i]? = some c)
    (own : c.mark = m) (first : ∀ j x, j < i → r.charges[j]? = some x → x.mark ≠ m) : s.chargeResult r m
      = some (.charge { seq := (s.acc.nextSeq + i) % 65536, kind := .charge c, stamp := s.toll.clock.stamp }) := by
  have entries : (s.postedAcc r).journal.drop s.acc.journal.length = chargeEntries s.toll.clock.stamp s.acc.nextSeq r.charges := by
    rw [State.postedAcc, (Accounts.posted_journal s.toll.clock.stamp r.charges inside).1, List.drop_left]
  have entry (j : Nat) (hj : j < (chargeEntries s.toll.clock.stamp s.acc.nextSeq r.charges).length) :
      ∃ x, r.charges[j]? = some x ∧ (chargeEntries s.toll.clock.stamp s.acc.nextSeq r.charges)[j]
        = { seq := (s.acc.nextSeq + j) % 65536, kind := .charge x, stamp := s.toll.clock.stamp } := by
    have bound : j < r.charges.length := by simpa [chargeEntries] using hj
    exact ⟨r.charges[j], List.getElem?_eq_getElem bound, by simp [chargeEntries]⟩
  obtain ⟨bound, -⟩ := List.getElem?_eq_some_iff.1 place
  have here : i < (chargeEntries s.toll.clock.stamp s.acc.nextSeq r.charges).length := by simpa [chargeEntries] using bound
  refine Option.map_eq_some_iff.2 ⟨_, ?_, rfl⟩
  unfold State.entryOf
  rw [entries]
  refine List.find?_eq_some_iff_getElem.2 ⟨by simpa using own, i, here, ?_, fun j before => ?_⟩
  · obtain ⟨x, at_, eq⟩ := entry i here
    obtain rfl : c = x := Option.some.inj (place.symm.trans at_)
    exact eq
  · obtain ⟨x, at_, eq⟩ := entry j (by omega)
    rw [eq]
    simpa using first j x before at_

end

/-! ## The register in the work that follows -/

section
variable (s : State)

theorem State.requestCascade_reg (id : Nat) (d : Direction) (l : List Nat) : (s.requestCascade id d l).reg.entries = s.reg.entries :=
  congrArg Ledger.entries (s.requestCascade_ledger id d l)

theorem State.enterEqualise_reg (id : Nat) (m : Move) : (s.enterEqualise id m).reg = s.reg := by
  unfold State.enterEqualise State.when
  split <;> rfl

theorem State.enterOpen_reg (id : Nat) (m : Move) : (s.enterOpen id m).reg = s.reg :=
  (State.reg_of_besidePcu (State.orderOpen_besidePcu _ _ _)).trans rfl

theorem State.reportMove_entries (r : Report) (t : Transit) (m : Move) : (s.reportMove r t m).reg.entries = s.reg.entries := by
  unfold State.reportMove State.cascadeOn State.cascadeBack
  repeat' split
  · exact congrArg Register.entries (s.enterOpen_reg _ _)
  · rfl
  · rfl
  · exact congrArg Register.entries (State.enterEqualise_reg _ _ _)
  · exact State.requestCascade_reg _ _ _ _
  · rfl
  · rfl
  · exact State.requestCascade_reg _ _ _ _
  · rfl
  · rfl
  · exact State.requestCascade_reg _ _ _ _
  · rfl

theorem State.takeReport_entries (r : Report) : (s.takeReport r).reg.entries = s.reg.entries := by
  unfold State.takeReport
  repeat' split
  · exact State.reportMove_entries _ _ _ _
  all_goals rfl

theorem State.takeGateEnd_entries (k : Nat) : (s.takeGateEnd k).reg.entries = s.reg.entries := by
  have reported (t : Transit) (m : Move) : (s.reportClosed t.id m.passage).reg.entries = s.reg.entries :=
    congrArg Register.entries (State.reg_of_besidePcu (s.reportClosed_besidePcu t.id m.passage))
  unfold State.takeGateEnd
  split
  · rfl
  · next t m _ =>
    split
    · split <;> rfl
    · unfold State.gateClosed State.moveClosed
      split
      · split <;> exact reported t m
      · exact reported t m
      · exact reported t m
      · rfl
      · rfl
    all_goals rfl

theorem State.takeExamineHead_entries : s.takeExamineHead.reg.entries = s.reg.entries := by
  have when_ {c : Bool} {f : State → State} {u : State} (h : (f u).reg = u.reg) : (u.when c f).reg = u.reg := by
    cases c
    · rfl
    · exact h
  unfold State.takeExamineHead
  split
  · rfl
  · split
    · refine congrArg Register.entries ((when_ rfl).trans ((State.enterEqualise_reg _ _ _).trans ?_))
      exact (State.raiseAll_reg _ _).trans (State.leaveQueue_reg _ _ s)
    · rfl

theorem State.takeExamineNext_entries (id : Nat) : (s.takeExamineNext id).reg.entries = s.reg.entries := by
  unfold State.takeExamineNext
  split
  · split
    · split
      · simp only [State.goOn]
        split
        · split
          · rfl
          · exact congrArg Ledger.entries (State.formCascade_ledger _ _ _ _)
        · exact congrArg Register.entries (State.enterEqualise_reg _ _ _)
        · rfl
      · rfl
    · rfl
  · rfl

/-- No task changes the register's entries. -/
theorem State.take_entries (t : Task) : (s.take t).reg.entries = s.reg.entries := by
  have beside {u : State} (h : u.besidePcu = s.besidePcu) : u.reg.entries = s.reg.entries :=
    congrArg Register.entries (State.reg_of_besidePcu h)
  have ledger {u : State} (h : u.ledger = s.ledger) : u.reg.entries = s.reg.entries := congrArg Ledger.entries h
  cases t with
  | equalTrue k => exact beside (s.takeEqual_besidePcu k)
  | examine k => exact beside (s.examine_besidePcu k)
  | passageChanged k => exact beside (s.takePassageChanged_besidePcu k)
  | arbitrate l => exact beside (State.arbitrate_besidePcu _ _ _)
  | report r => exact s.takeReport_entries r
  | slotFree k => exact ledger (s.takeSlotFree_ledger k)
  | request id k p => exact ledger (s.takeRequestOp_ledger id k p)
  | gateEnd k => exact s.takeGateEnd_entries k
  | examineHead => exact s.takeExamineHead_entries
  | examineNext id => exact s.takeExamineNext_entries id
  | released c => exact ledger (s.takeReleased_ledger c)
  | accountEvent n => exact ledger (s.takeAccountEvent_ledger n)

/-- The marks of the register, in arrival order. -/
def State.registered : List Mark := s.reg.entries.map Vessel.mark

theorem State.setVessel_registered {m : Mark} {f : Vessel → Vessel} (mark : ∀ v, (f v).mark = v.mark) :
    (s.setVessel m f).registered = s.registered := by
  simp only [State.registered, State.setVessel, List.map_map]
  refine List.map_congr_left fun v _ => ?_
  by_cases own : v.mark = m <;> simp [own, mark]

theorem State.each_registered {α : Type} (l : List α) (f : α → State → State) (h : ∀ x u, (f x u).registered = u.registered) :
    (s.each l f).registered = s.registered := by
  unfold State.each
  induction l generalizing s with
  | nil => rfl
  | cons x rest ih => exact (ih (f x s)).trans (h x s)

theorem State.callVessel_registered (id : Nat) (v : Vessel) (e : Nat) : (s.callVessel id v e).registered = s.registered :=
  (State.setVessel_registered _ (fun _ => by rfl)).trans (congrArg (List.map Vessel.mark) (State.setQueue_entries _ _ s))

theorem State.createTransit_registered (d : Direction) (o : Origin) (l : List (Vessel × Nat)) :
    (s.createTransit d o l).registered = s.registered := by
  have head (b : Option Nat) (u : State) : (u.newHead b).registered = u.registered := by
    unfold State.newHead State.when
    split <;> rfl
  exact (head _ _).trans (State.each_registered
    { s with table := s.table ++ [s.newTransit (s.nextId 9 s.arb.lastId) d o l] } l _ fun b u => u.callVessel_registered _ b.1 b.2)

theorem State.passes_registered (fuel : Nat) : (s.passes fuel).registered = s.registered := by
  induction fuel generalizing s with
  | zero => rfl
  | succ n ih =>
    unfold State.passes
    repeat' split
    · rfl
    · rfl
    · rfl
    · rfl
    · refine (ih _).trans ((State.createTransit_registered _ _ _ _).trans ?_)
      exact State.each_registered s _ _ fun m u => u.setVessel_registered (fun x => by unfold skipVessel; rfl)

theorem State.takeCalling_registered : s.takeCalling.registered = s.registered := by
  unfold State.takeCalling
  split
  · rfl
  · split
    · rfl
    · exact s.passes_registered 5

theorem State.drain_registered (fuel : Nat) : (s.drain fuel).registered = s.registered := by
  induction fuel generalizing s with
  | zero => rfl
  | succ n ih =>
    unfold State.drain
    split
    · exact (ih _).trans (congrArg (List.map Vessel.mark) (State.take_entries _ _))
    · split
      · exact (ih _).trans (State.takeCalling_registered _)
      · rfl

/-- What follows in an event frees no entry and makes none. -/
theorem State.settle_registered : s.settle.registered = s.registered := by
  refine Eq.trans ?_ (s.drain_registered drainFuel)
  unfold State.settle State.reformIdle State.when
  split <;> rfl

theorem State.vessel_eq_none {m : Mark} : s.vessel m = none ↔ m ∉ s.registered := by
  simp [State.vessel, State.registered]

end

/-! ## The CLEAR that settles -/

theorem exec_confirm_of_block {h : Hdr} {id : Nat} {kind : Option ConfirmKind} {s t : State} {a : Answer} (taken : s.takes h 13)
    (block : State.doConfirm id kind (s.heard h) = (t, a)) : exec (.confirm h id kind) s = .next (State.replied h 13 a t) :=
  congrArg Host.Outcome.next (State.takeRequest_of_block taken rfl block)

theorem State.doConfirm_awaited {id : Nat} {s : State} {t : Transit} {m : Move} (mode : s.auth.mode ≠ .config)
    (known : s.transit id = some t) (move : t.move = some m) (phase : m.phase = .await) :
    s.doConfirm id (some m.kind.awaits) = s.confirmMove t m m.kind.awaits := by
  simp [State.doConfirm, State.confirmTransit, mode, known, move, phase]

/-- States alike in their outer parts give every account the same balance. -/
theorem State.balance_of_outer {s t : State} (h : t.outer = s.outer) (n : Nat) :
    (t.acc.find n).map Account.balance = (s.acc.find n).map Account.balance := by
  have counter : t.acc.counter.warm = s.acc.counter.warm := congrArg Outer.accountZero h
  have table : t.acc.table.map Account.warm = s.acc.table.map Account.warm := congrArg Outer.accounts h
  have warm (a : Accounts) : (a.find n).map Account.warm
      = if n = 0 then some a.counter.warm else (a.table.map Account.warm).find? (fun x => decide (x.number = n)) := by
    unfold Accounts.find
    split
    · rfl
    · rw [List.find?_map]
      rfl
  have same : (t.acc.find n).map Account.warm = (s.acc.find n).map Account.warm := by rw [warm, warm, counter, table]
  have read := congrArg (Option.map Account.balance) same
  rw [Option.map_map, Option.map_map] at read
  exact read

/-- What a settlement and the work behind it leave: the charges posted, and the vessels out of the register. -/
theorem State.settleWith_posted (t : Transit) (r : Settlement) (s : State) (inside : s.acc.nextSeq < 65536) :
    (s.settleWith t r).settle.acc.journal = s.acc.journal ++ chargeEntries s.toll.clock.stamp s.acc.nextSeq r.charges
    ∧ (s.settleWith t r).settle.acc.nextSeq = (s.acc.nextSeq + r.charges.length) % 65536
    ∧ (∀ n, ((s.settleWith t r).settle.acc.find n).map Account.balance = (s.acc.find n).map (fun a =>
        a.balance - ((((r.charges.filter (fun c => decide (c.account = n))).map (fun c => c.parts.amount)).sum : Nat) : Int)))
    ∧ ∀ b ∈ t.berths, (s.settleWith t r).settle.vessel b.mark = none := by
  obtain ⟨journal, next⟩ := Accounts.posted_journal s.toll.clock.stamp r.charges inside
  have core := (s.settleWith t r).settle_core.trans (s.settleWith_core t r)
  refine ⟨(congrArg Outer.journal core : _).trans journal, (congrArg Outer.nextSeq core : _).trans next, fun n => ?_, fun b berth => ?_⟩
  · rw [State.balance_of_outer (State.settle_outer _), State.settleWith_find, Accounts.uncommitted_balance]
    exact Accounts.posted_balance _ _ _ _
  · rw [State.vessel_eq_none, State.settle_registered, State.registered, List.mem_map]
    rintro ⟨v, mem, own⟩
    exact ((s.mem_settleWith t r v).1 mem).2 (own ▸ List.mem_map_of_mem berth)

/-- Settles O36: the steps of a settlement are those of the statement once each is in its explicit form; what they leave is read from them; and the work behind the CLEAR keeps the outer parts and the register's marks. -/
theorem settlementPostsCharges : Obligations.SettlementPostsCharges := by
  refine ⟨fun s t r => ?_, fun s t r => ?_, ?_⟩
  · intro marks water put recorded flagged exited posted told uncommitted freed charged resolved
    have posts : posted = s.postedAcc r := by
      show r.charges.foldl _ s.acc = r.charges.foldl _ s.acc
      congr 1
      funext a c
      exact (a.post_eq _ c).symm
    have books : freed = s.settledBooks t r := by
      rw [State.settledBooks, State.posting_eq, State.freeVessels_eq, ← posts]
      rfl
    have resolves : resolved = (s.settledBooks t r).resolveEach (s.chargeResult r) t.marks := by
      show marks.foldl _ freed = List.foldl _ _ _
      rw [books]
      congr 1
      funext x m
      have result : s.chargeResult r m = (State.entryOf { s with acc := posted } s.acc.journal.length m).map QuoteResult.charge := by
        rw [posts]
        rfl
      show _ = ((s.chargeResult r m).map (fun q => x.resolveQuote m q)).getD x
      rw [result]
      show (match State.entryOf { s with acc := posted } s.acc.journal.length m with
        | some e => x.resolveQuote m (.charge e)
        | none => x) = _
      cases State.entryOf { s with acc := posted } s.acc.journal.length m <;> rfl
    rw [State.settleWith_eq, ← resolves]
    rfl
  · intro u account
    have counts : account = s.accountOf := by
      funext m
      show (match s.vessel m with | some v => v.account | none => 0) = ((s.vessel m).map Vessel.account).getD 0
      cases s.vessel m <;> rfl
    have reserved := s.settleWith_records t r
    simp only [State.records, Prod.mk.injEq] at reserved
    have found (n : Nat) (m : Mark) (i : Nat) (inside : n < 4) (held : (s.acc.slots.get n).mark = some m)
        (first : ∀ j, j < n → (s.acc.slots.get j).mark ≠ some m) : (s.settledBooks t r).acc.slotOf m = some (n + 1) := by
      refine (Accounts.slotOf_congr (a := s.acc) (fun j _ => by rw [State.settledBooks_slots]) m).trans ?_
      exact Accounts.slotOf_place.2 ⟨inside, held, first⟩
    refine ⟨fun n => ?_, reserved.2.2.1, s.settleWith_transit t r, s.mem_settleWith t r, fun n inside other => ?_,
      fun n m i c next inside mem held first place own earlier => ?_⟩
    · rw [counts, State.settleWith_find, Accounts.uncommitted_commitment, State.postedAcc]
      simpa only [Option.map_map, Function.comp_def] using congrArg
        (Option.map fun x => x - ((t.berths.filter (fun b => decide (s.accountOf b.mark = n))).map Berth.estimate).sum)
        (s.acc.posted_commitment s.toll.clock.stamp r.charges n)
    · rw [State.settleWith_slots, State.resolveEach_other _ inside, State.settledBooks_slots]
      rw [State.settledBooks_slots]
      exact other
    · have slot := found n m i inside held first
      rw [State.settleWith_slots, State.resolveEach_slot _ _ _ slot]
      refine (if_pos mem).trans ?_
      rw [s.chargeResult_first r next place own earlier]
      exact congrArg (fun x : Timing => QuoteSlot.resolved m _ (x.discard * 1000)) (s.settledBooks_timing t r)
  · intro h id t m s taken mode inside known move phase leaving charges
    have kind : m.kind.awaits = .cleared := by rw [leaving]; rfl
    have block := (State.doConfirm_awaited (s := s.heard h) mode known move phase)
    rw [kind] at block
    rw [exec_confirm_of_block taken block]
    have acc : ((s.heard h).takeConfirmation t m).acc = s.acc := State.takeConfirmation_acc t m (s.heard h)
    have core := State.core_of_outer ((s.heard h).takeConfirmation_outer t m)
    have toll := State.toll_of_core core
    obtain ⟨journal, next, balance, gone⟩ := State.settleWith_posted t ((s.heard h).settlement t) ((s.heard h).takeConfirmation t m)
      (by rw [acc]; exact inside)
    have after := (State.settle_core _).trans (((s.heard h).takeConfirmation t m).settleWith_core t ((s.heard h).settlement t))
    rw [acc, toll] at journal
    rw [acc] at next balance
    exact ⟨_, rfl, journal, next, balance, gone, (congrArg Outer.flight after : _).trans (congrArg Outer.flight core : _),
      (congrArg Outer.timing after : _).trans (congrArg Outer.timing core : _),
      (congrArg Outer.lm after : _).trans (congrArg Outer.lm core : _),
      (congrArg Outer.toll after : _).trans (congrArg Outer.toll core : _),
      (congrArg Outer.auth after : _).trans (congrArg Outer.auth core : _),
      (congrArg Outer.pins after : _).trans (congrArg Outer.pins core : _)⟩

end Sys2Proof.Machine
end

