-- ==== Sys2Proof/Proofs/ReadReplies.lean ====
section
/-! SUPPORT. What each read answers: its selection, and each report written out by fields. Settles O27. -/

namespace Sys2Proof.Machine

/-! ## The report of a transit (R126) -/

section
variable (s : State) (t : Transit)

theorem opposite_iff {d e : Direction} : d = opposite e ↔ d ≠ e := by
  cases d <;> cases e <;> simp [opposite]

/-- A queue head whose entry chamber is held, or which the holders oppose, is blocked. -/
theorem State.entryBlocked_of (head : s.arb.queue.head? = some t.id)
    (bar : (∃ x ∈ s.table, s.entryChamber t.dir ∈ x.held)
      ∨ ((∃ x ∈ s.table, x.held ≠ []) ∧ ∀ x ∈ s.table, x.held ≠ [] → x.dir ≠ t.dir)) : s.entryBlocked t = true := by
  have front : decide (s.arb.queue.head? = some t.id) = true := decide_eq_true head
  rw [State.entryBlocked, front, Bool.true_and, Bool.or_eq_true]
  refine bar.symm.imp (fun opposed => ?_) State.holderOf_isSome.2
  obtain ⟨⟨x, mem, holds⟩, apart⟩ := opposed
  obtain ⟨y, first⟩ : ∃ y, s.table.find? (fun t => !t.held.isEmpty) = some y :=
    Option.isSome_iff_exists.1 (List.find?_isSome.2 ⟨x, mem, by simpa using holds⟩)
  have dir := apart y (List.mem_of_find?_eq_some first) (by simpa using List.find?_some first)
  simp [State.flightDir, first, opposite_iff, dir]

/-- One with its entry chamber free and every holder of its direction is not. -/
theorem State.not_entryBlocked_of (free : ¬ ∃ x ∈ s.table, s.entryChamber t.dir ∈ x.held)
    (along : ∀ x ∈ s.table, x.held ≠ [] → x.dir = t.dir) : s.entryBlocked t = false := by
  have unheld : (s.holderOf (s.entryChamber t.dir)).isSome = false := by
    rw [Bool.eq_false_iff]
    exact fun h => free (State.holderOf_isSome.1 h)
  have open_ : s.flightDir ≠ some (opposite t.dir) := by
    intro h
    obtain ⟨y, first, dir⟩ := Option.map_eq_some_iff.1 h
    exact opposite_iff.1 dir (along y (List.mem_of_find?_eq_some first) (by simpa using List.find?_some first))
  simp [State.entryBlocked, unheld, open_]

/-- The chamber that an EXIT of a direction leaves. -/
def State.exitChamber (s : State) : Direction → Nat
  | .down => s.count
  | .up => 1

/-- The next chamber along a direction. -/
def chamberAfter (c : Nat) : Direction → Nat
  | .down => c + 1
  | .up => c - 1

theorem State.nextMove_shift {d : Direction} {c : Nat} (more : c ≠ s.exitChamber d) :
    (s.nextMove d c).kind = .shift ∧ (s.nextMove d c).destination = chamberAfter c d := by
  have shift : s.nextMove d c = Move.fresh .shift (match d with | .down => c | .up => c - 1) c (chamberAfter c d) := by
    cases d <;> exact if_neg more
  rw [shift]
  exact ⟨rfl, rfl⟩

theorem State.nextMove_exit {d : Direction} {c : Nat} (last : c = s.exitChamber d) : (s.nextMove d c).kind = .exit := by
  cases d <;> exact (congrArg Move.kind (if_pos last)).trans rfl

theorem State.destinationHeld_iff {c : Nat} {more : List Nat} (held : t.held = c :: more) : s.destinationHeld t = true
    ↔ c ≠ s.exitChamber t.dir ∧ ∃ x ∈ s.table, chamberAfter c t.dir ∈ x.held := by
  unfold State.destinationHeld
  rw [held]
  show (decide ((s.nextMove t.dir c).kind = .shift) && (s.holderOf (s.nextMove t.dir c).destination).isSome) = true ↔ _
  by_cases end_ : c = s.exitChamber t.dir
  · rw [s.nextMove_exit end_]
    simp [end_]
  · obtain ⟨kind, destination⟩ := s.nextMove_shift end_
    simp [kind, destination, end_, State.holderOf_isSome]

theorem State.waitCondition_hold (safe : s.auth.mode = .safeHold) : s.waitCondition t = .hold := if_pos safe

variable {s t} (mode : s.auth.mode ≠ .safeHold)
include mode

theorem State.waitCondition_queued (state : t.state = .queued) :
    s.waitCondition t = if s.entryBlocked t then .entryBlocked else .none := by
  rw [State.waitCondition, if_neg mode, state]

theorem State.waitCondition_waitingNext (state : t.state = .waitingNext) :
    s.waitCondition t = if s.destinationHeld t then .destinationHeld else .none := by
  rw [State.waitCondition, if_neg mode, state]

theorem State.waitCondition_move {m : Move} (queued : t.state ≠ .queued) (waiting : t.state ≠ .waitingNext) (move : t.move = some m) :
    s.waitCondition t = s.moveWait t m := by
  rw [State.waitCondition, if_neg mode, move]
  cases h : t.state with
  | queued => exact absurd h queued
  | waitingNext => exact absurd h waiting
  | moving => rfl
  | settled => rfl

end

theorem State.moveWait_blocked (s : State) (t : Transit) {m : Move} {c : Nat} (blocked : m.blockedAt = some c) :
    s.moveWait t m = .cascadeBlocked c := by
  rw [State.moveWait, blocked]

theorem State.moveWait_owed (s : State) (t : Transit) {m : Move} {k : Nat} (free : m.blockedAt = none) (owed : m.owed = some k) :
    s.moveWait t m = .slotBusy k := by
  rw [State.moveWait, free, owed]

theorem State.moveWait_operation (s : State) (t : Transit) {m : Move} (free : m.blockedAt = none) (none_ : m.owed = none) :
    s.moveWait t m = (s.openOperation t m).getD (s.gateWait t m) := by
  rw [State.moveWait, free, none_]
  cases s.openOperation t m <;> rfl

theorem State.gateWait_cases (s : State) (t : Transit) (m : Move) :
    let g := (s.passage m.passage).gate
    (m.phase = .opened → s.gateWait t m = if g.pendingOpen.isSome then .gatePending
      else if g.state = .opening ∨ g.state = .closing then .gateTravel else .none)
    ∧ (m.phase = .close → s.gateWait t m = if g.state = .opening ∨ g.state = .closing then .gateTravel else .none)
    ∧ (m.phase = .await → s.gateWait t m = .confirmation m.kind.awaits t.overdue)
    ∧ (m.phase = .prep ∨ m.phase = .equalise → s.gateWait t m = .none) := by
  intro g
  have travels : g.state.travelling = true ↔ g.state = .opening ∨ g.state = .closing := by simp [GateState.travelling]
  unfold State.gateWait
  refine ⟨fun phase => ?_, fun phase => ?_, fun phase => ?_, fun phase => ?_⟩
  · simp only [phase, ← travels]
    rfl
  · simp only [phase, ← travels]
    rfl
  · simp only [phase]
  · rcases phase with phase | phase <;> simp only [phase]

theorem findSome?_filter_eq {α β : Type} (p : α → Bool) (f : α → Option β) (l : List α) :
    (l.filter p).findSome? f = l.findSome? (fun x => if p x then f x else none) := by
  induction l with
  | nil => rfl
  | cons x rest ih => cases h : p x <;> simp [h, ih, List.findSome?_cons]

/-! ## The accounts in order (R168) -/

/-- In a table in rising order of number, the first account above a number is the one with the least number above it. -/
theorem above_eq_some {l : List Account} (rising : l.Pairwise (fun b c => b.number < c.number)) {n : Nat} {a : Account} :
    l.find? (fun x => decide (n < x.number)) = some a ↔ a ∈ l ∧ n < a.number ∧ ∀ b ∈ l, n < b.number → a.number ≤ b.number := by
  induction l with
  | nil => simp
  | cons x rest ih =>
    obtain ⟨later, rising'⟩ := List.pairwise_cons.1 rising
    by_cases above : n < x.number
    · rw [List.find?_cons_of_pos (by simpa using above)]
      constructor
      · rintro ⟨⟩
        refine ⟨List.mem_cons_self, above, fun b mem _ => ?_⟩
        rcases List.mem_cons.1 mem with rfl | mem
        · exact le_refl _
        · exact (later b mem).le
      · rintro ⟨mem, -, least⟩
        rcases List.mem_cons.1 mem with rfl | mem
        · rfl
        · exact absurd (later a mem) (Nat.not_lt.2 (least x List.mem_cons_self above))
    · rw [List.find?_cons_of_neg (by simpa using above), ih rising']
      constructor
      · rintro ⟨mem, high, least⟩
        refine ⟨List.mem_cons_of_mem _ mem, high, fun b memb hb => ?_⟩
        rcases List.mem_cons.1 memb with rfl | memb
        · exact absurd hb above
        · exact least b memb hb
      · rintro ⟨mem, high, least⟩
        rcases List.mem_cons.1 mem with rfl | mem
        · exact absurd high above
        · exact ⟨mem, high, fun b memb => least b (List.mem_cons_of_mem _ memb)⟩

/-! ## STATUS (R201) -/

section
variable (s : State)

theorem State.equalReport_eq : s.lm.reportedPassages.map s.equal = (match s.lm.polledN with
    | none => []
    | some n => (List.range (n + 1)).map s.equal) := by
  unfold LevelMonitor.reportedPassages
  cases s.lm.polledN <;> rfl

theorem State.holdersReport_eq : s.chambersInUse.map s.holderOf
    = (List.range s.count).map (fun i => (s.table.find? (fun t => t.held.contains (i + 1))).map Transit.id) := by
  rw [State.chambersInUse, List.map_map]
  rfl

theorem State.blockers_eq : s.blockers = (if s.auth.mode = .config ∨ s.auth.mode = .safeHold then [] else [.mode])
    ++ s.incompleteBlockers ++ s.estopBlockers ++ (if s.auth.mode = .config then [] else s.faultBlockers ++ s.sensorBlockers) := by
  unfold State.blockers State.leaveBlockers State.resumeBlockers State.modeBlockers
  cases s.auth.mode <;> simp

theorem State.faultBlockers_eq : s.faultBlockers = ((List.range (s.count + 1)).filter (fun k =>
    decide ((s.passage k).gate.state = .fault ∨ (s.passage k).sluice.state = .fault))).map Blocker.faultAt :=
  congrArg (List.map Blocker.faultAt) (List.filter_congr fun _ _ => (Bool.decide_or _ _).symm)

theorem State.sensorBlockers_eq : s.sensorBlockers = (((List.range s.count).map (· + 1)).filter (fun c =>
    s.table.any (fun t => t.held.contains c) && decide ((s.sensor c).status = .failed))).map Blocker.sensorFailedAt := by
  refine congrArg (List.map Blocker.sensorFailedAt) (List.filter_congr fun c _ => congrArg (· && _) ?_)
  rw [Bool.eq_iff_iff, State.holderOf_isSome, List.any_eq_true]
  simp

end

/-! ## The reads -/

section
variable {h : Hdr} {s : State}

theorem exec_readLevels (taken : s.takes h 2) :
    exec (.readLevels h) s = .next (State.replied h 2 (accept (.levels (s.lm.reported.map s.lm.item))) (s.heard h)) :=
  congrArg Host.Outcome.next (State.takeRequest_of_block taken rfl rfl)

theorem exec_status (taken : s.takes h 1) : exec (.status h) s
    = .next (State.replied h 1 (accept (.status ((s.heard h).statusReport h.port)))
        ((s.heard h).setPort h.port (fun p => { p with lost := false }))) :=
  congrArg Host.Outcome.next (State.takeRequest_of_block taken rfl rfl)

theorem exec_readPassage (taken : s.takes h 3) (k : Nat) : exec (.readPassage h k) s
    = .next (State.replied h 3 (if s.lm.reportedPassages.contains k then accept (.passage ((s.heard h).passageReport k))
        else refuse .outOfRange) (s.heard h)) :=
  congrArg Host.Outcome.next (State.takeRequest_of_block taken rfl rfl)

theorem exec_readVessel (taken : s.takes h 4) {sel : VesselSelector} {a : Answer}
    (block : State.doReadVessel sel (s.heard h) = (s.heard h, a)) :
    exec (.readVessel h sel) s = .next (State.replied h 4 a (s.heard h)) :=
  congrArg Host.Outcome.next (State.takeRequest_of_block taken rfl block)

theorem exec_readAccount (taken : s.takes h 6) {sel : AccountSelector} {a : Answer}
    (block : State.doReadAccount sel (s.heard h) = (s.heard h, a)) :
    exec (.readAccount h sel) s = .next (State.replied h 6 a (s.heard h)) :=
  congrArg Host.Outcome.next (State.takeRequest_of_block taken rfl block)

theorem State.doReadVessel_found {sel : VesselSelector} {v : Vessel} (found : s.selectVessel sel = .ok v) :
    s.doReadVessel sel = (s, accept (.vessel (s.vesselReport v))) := by
  rw [State.doReadVessel, found]

theorem State.doReadVessel_refused {sel : VesselSelector} {e : Status} (refused : s.selectVessel sel = .error e) :
    s.doReadVessel sel = (s, refuse e) := by
  rw [State.doReadVessel, refused]

theorem State.selectVessel_byMark (m : Mark) :
    s.selectVessel (.byMark m) = ((s.vessel m).map Except.ok).getD (.error .unknown) := by
  rw [State.selectVessel]
  cases s.vessel m <;> rfl

theorem State.selectVessel_byPosition {n : Nat} (inside : 1 ≤ n ∧ n ≤ 32) (d : Direction) : s.selectVessel (.byPosition (some d) n)
    = (((s.reg.queue d)[n - 1]?.bind s.vessel).map Except.ok).getD (.error .unknown) := by
  unfold State.selectVessel
  simp only [within_eq_true.2 inside]
  cases (s.reg.queue d)[n - 1]?.bind s.vessel <;> rfl

theorem State.selectVessel_outside {n : Nat} {d : Option Direction} (bad : d = none ∨ ¬ (1 ≤ n ∧ n ≤ 32)) :
    s.selectVessel (.byPosition d n) = .error .outOfRange := by
  cases d with
  | none => rfl
  | some d =>
    have outside : within 1 32 n = false := by
      rw [Bool.eq_false_iff, Ne, within_eq_true]
      exact bad.resolve_left nofun
    unfold State.selectVessel
    simp only [outside]
    rfl

theorem State.doReadAccount_byNumber {n : Nat} (inside : n ≤ 65535) : s.doReadAccount (.byNumber n)
    = (s, ((s.acc.find n).map (fun x => accept (.account x.report))).getD (refuse .unknown)) := by
  rw [State.doReadAccount, Accounts.select, if_neg (Nat.not_lt.2 inside)]
  cases s.acc.find n <;> rfl

theorem State.doReadAccount_nextAbove {n : Nat} (inside : n ≤ 65535) : s.doReadAccount (.nextAbove n)
    = (s, ((s.acc.above n).map (fun x => accept (.account x.report))).getD (refuse .unknown)) := by
  rw [State.doReadAccount, Accounts.select, if_neg (Nat.not_lt.2 inside)]
  cases s.acc.above n <;> rfl

theorem LevelMonitor.reportedPassages_contains {lm : LevelMonitor} {n : Nat} (polled : lm.polledN = some n) (k : Nat) :
    lm.reportedPassages.contains k = true ↔ k ≤ n := by
  rw [LevelMonitor.reportedPassages, polled]
  simp

end

/-- Settles O27: each report is read off by fields; what a transit waits for, by its state and the move in hand. -/
theorem readsAnswer : Obligations.ReadsAnswer := by
  refine ⟨fun h s => ?_, fun s p => ⟨rfl, rfl⟩, fun s k => ?_, fun s v => ?_, fun a x n => ⟨rfl, ?_, fun rising => above_eq_some rising⟩,
    fun s t => ?_, fun s st => ?_⟩
  · intro u
    refine ⟨exec_status, exec_readLevels, fun k n taken polled => (exec_readPassage taken k).trans ?_,
      fun k taken polled => (exec_readPassage taken k).trans ?_, fun m taken => exec_readVessel taken ?_,
      fun d n taken low high => exec_readVessel taken ?_,
      fun id taken => congrArg Host.Outcome.next (State.takeRequest_of_block taken rfl rfl),
      fun n taken high => exec_readAccount taken ?_, fun n taken high => exec_readAccount taken ?_,
      fun d n taken bad => exec_readVessel taken ?_,
      fun n taken high => ⟨exec_readAccount taken ?_, exec_readAccount taken ?_⟩⟩
    · by_cases inside : k ≤ n
      · have listed : s.lm.reportedPassages.contains k = true := (LevelMonitor.reportedPassages_contains polled k).2 inside
        rw [if_pos inside, if_pos listed]
      · have unlisted : ¬ s.lm.reportedPassages.contains k = true :=
          fun c => inside ((LevelMonitor.reportedPassages_contains polled k).1 c)
        rw [if_neg inside, if_neg unlisted]
    · have unset : s.lm.polledN = none := polled
      rw [LevelMonitor.reportedPassages, unset]
      rfl
    · have select := State.selectVessel_byMark (s := u) m
      unfold State.vessel at select
      cases found : u.reg.entries.find? (fun v => decide (v.mark = m)) with
      | none => exact State.doReadVessel_refused (select.trans (by rw [found]; rfl))
      | some v => exact State.doReadVessel_found (select.trans (by rw [found]; rfl))
    · have select := State.selectVessel_byPosition (s := u) ⟨low, high⟩ d
      cases found : (u.reg.queue d)[n - 1]?.bind u.vessel with
      | none => exact State.doReadVessel_refused (select.trans (by rw [found]; rfl))
      | some v => exact State.doReadVessel_found (select.trans (by rw [found]; rfl))
    · refine (State.doReadAccount_byNumber (s := u) high).trans ?_
      cases u.acc.find n <;> rfl
    · refine (State.doReadAccount_nextAbove (s := u) high).trans ?_
      cases u.acc.above n <;> rfl
    · exact State.doReadVessel_refused (State.selectVessel_outside (bad.imp_right (by omega)))
    · rw [State.doReadAccount, Accounts.select, if_pos high]
    · rw [State.doReadAccount, Accounts.select, if_pos high]
  · intro p n lamp
    have heads (x : Head) : lamp x = x.item := by
      cases h : x.output <;> simp [lamp, h, Head.item, Head.agrees, Aspect.expects]
    have beside : [k, k + 1].filter (fun c => decide (1 ≤ c ∧ c ≤ n)) = chambersBeside n k :=
      List.filter_congr fun c _ => by rw [Bool.eq_iff_iff, decide_eq_true_iff, within_eq_true]
    rw [heads, heads, beside]
    rfl
  · intro waiting
    rfl
  · simp [Accounts.above]
  · intro w isHeld first last
    have entry : s.entryChamber t.dir = first := by cases h : t.dir <;> simp [first, h, State.entryChamber]
    refine ⟨rfl, rfl, s.waitCondition_hold t, fun mode => ⟨fun queued => ⟨fun behind => ?_, fun head => ⟨fun bar => ?_, fun free along => ?_⟩⟩,
      fun c more waiting held => ?_, fun m queued waiting move => ?_⟩⟩
    · have unblocked : s.entryBlocked t = false := by simp [State.entryBlocked, behind]
      exact (State.waitCondition_queued mode queued).trans (by rw [unblocked]; rfl)
    · rw [← entry] at bar
      exact (State.waitCondition_queued mode queued).trans (if_pos (s.entryBlocked_of t head bar))
    · rw [← entry] at free
      exact (State.waitCondition_queued mode queued).trans (by rw [s.not_entryBlocked_of t free along]; rfl)
    · intro next
      have wait := State.waitCondition_waitingNext mode waiting
      have apart : s.destinationHeld t = true ↔ c ≠ last ∧ isHeld next := s.destinationHeld_iff t held
      refine ⟨fun more taken => wait.trans (if_pos (apart.2 ⟨more, taken⟩)), fun free => wait.trans (if_neg fun h => ?_)⟩
      obtain ⟨more, taken⟩ := apart.1 h
      exact free.elim more (absurd taken)
    · intro g going
      have wait : w = s.moveWait t m := State.waitCondition_move mode queued waiting move
      have operation : s.openOperation t m = t.ops.findSome? going := by
        unfold State.openOperation
        rw [findSome?_filter_eq]
        refine congrArg (fun f => t.ops.findSome? f) (funext fun e => ?_)
        by_cases own : e.purpose ≠ .move ∨ e.passage = m.passage
        · have counted : (!decide (e.purpose = .move) || decide (e.passage = m.passage)) = true := by simpa using own
          simp only [going, if_pos own, if_pos counted]
          cases (s.passage e.passage).slot <;> rfl
        · have passed : ¬ (!decide (e.purpose = .move) || decide (e.passage = m.passage)) = true := by simpa using own
          simp only [going, if_neg own, if_neg passed]
      have gate := s.gateWait_cases t m
      refine ⟨fun c blocked => wait.trans (s.moveWait_blocked t blocked), fun k free owed => wait.trans (s.moveWait_owed t free owed),
        fun x free owed found => ?_, fun free owed found => ?_⟩
      · rw [wait, s.moveWait_operation t free owed, operation, found]
        rfl
      · rw [wait, s.moveWait_operation t free owed, operation, found]
        obtain ⟨opened, close, await, idle⟩ := gate
        exact ⟨opened, close, await, idle⟩
  · intro p
    rw [State.statusReport, State.equalReport_eq, State.holdersReport_eq, State.blockers_eq, State.faultBlockers_eq,
      State.sensorBlockers_eq]
    rfl

end Sys2Proof.Machine
end

