-- ==== Sys2Proof/Proofs/VesselRules.lean ====
section
/-! SUPPORT. ANNOUNCE, AMEND and WITHDRAW, each test and each step on its own. Settles O29, O30, O31. -/

namespace Sys2Proof.Machine

/-! ## Marks, particulars and the gauge (R63) -/

theorem markChar_iff (c : Char) : markChar c = true ↔ ('A'.toNat ≤ c.toNat ∧ c.toNat ≤ 'Z'.toNat)
    ∨ ('0'.toNat ≤ c.toNat ∧ c.toNat ≤ '9'.toNat) ∨ c = '-' := by
  have hyphen : c = '-' ↔ c.toNat = 45 := ⟨fun h => h ▸ rfl, fun h => Char.toNat_inj.1 h⟩
  rw [hyphen]
  simp only [markChar, Bool.or_eq_true, within_eq_true, decide_eq_true_eq, or_assoc]
  exact Iff.rfl

theorem markOk_iff (m : Mark) : markOk m = true ↔ 1 ≤ m.length ∧ m.length ≤ 12 ∧ ∀ c ∈ m, ('A'.toNat ≤ c.toNat ∧ c.toNat ≤ 'Z'.toNat)
    ∨ ('0'.toNat ≤ c.toNat ∧ c.toNat ≤ '9'.toNat) ∨ c = '-' := by
  rw [markOk, Bool.and_eq_true, within_eq_true, List.all_eq_true, and_assoc]
  exact and_congr_right fun _ => and_congr_right fun _ => forall₂_congr fun c _ => markChar_iff c

theorem particularsOk_iff (p : Particulars) : particularsOk p = true ↔ (50 ≤ p.length ∧ p.length ≤ 1350)
    ∧ (10 ≤ p.beam ∧ p.beam ≤ 240) ∧ p.deadweight ≤ 9999 ∧ p.cls.isSome = true ∧ p.account ≤ 65535 := by
  simp only [particularsOk, Bool.and_eq_true, within_eq_true, Nat.zero_le, true_and, and_assoc]

section
variable (s : State)

theorem State.fits_iff (length beam : Nat) :
    s.fits length beam = true ↔ length + s.flight.clearance ≤ s.minUsable ∧ beam ≤ s.minWidth := by
  rw [State.fits, Bool.and_eq_true, decide_eq_true_iff, decide_eq_true_iff]
  exact Iff.rfl

theorem State.leastOver_count (low : 1 ≤ s.count) (g : Chamber → Nat) :
    (∀ c, 1 ≤ c → c ≤ s.count → s.leastOver g ≤ g (s.chamber c)) ∧ ∃ c, 1 ≤ c ∧ c ≤ s.count ∧ g (s.chamber c) = s.leastOver g :=
  State.leastOver_least { s with flight := { s.flight with n := some s.count } } rfl low g

theorem State.isService_iff (m : Mark) : s.isService m = true ↔ ∃ v, s.vessel m = some v ∧ v.cls = .service := by
  unfold State.isService
  cases s.vessel m <;> simp

end

theorem positionIn_split {α : Type} [DecidableEq α] {x : α} {before after : List α} (fresh : x ∉ before) :
    positionIn x (before ++ x :: after) = before.length + 1 := by
  induction before with
  | nil => simp [positionIn]
  | cons y rest ih =>
    obtain ⟨apart, fresh⟩ := not_or.1 (List.mem_cons.not.1 fresh)
    rw [List.cons_append, positionIn, if_neg (Ne.symm apart), ih fresh]
    simp

/-! ## ANNOUNCE (R62 to R65) -/

section
variable {h : Hdr} {mark : Mark} {dir : Option Direction} {p : Particulars} {s : State}

theorem exec_announce_of_block (taken : s.takes h 7) {t : State} {a : Answer}
    (block : State.doAnnounce h.port mark dir p (s.heard h) = (t, a)) : exec (.announce h mark dir p) s = .next (State.replied h 7 a t) :=
  congrArg Host.Outcome.next (State.takeRequest_of_block taken rfl block)

theorem State.doAnnounce_barred {st : Station} {e : Status} (bar : s.announceBar mark dir p = some e) :
    s.doAnnounce st mark dir p = (s, refuse e) := by
  simp only [State.doAnnounce, bar]

theorem State.doAnnounce_passed {st : Station} {d : Direction} {c : VesselClass} (bar : s.announceBar mark (some d) p = none)
    (cls : p.cls = some c) : s.doAnnounce st mark (some d) p = s.announceVessel (s.newVessel st mark d c p) := by
  simp only [State.doAnnounce, bar, cls]

theorem not_isNone {α : Type} {o : Option α} (some_ : o.isSome = true) : ¬ o.isNone = true := by
  obtain ⟨x, rfl⟩ := Option.isSome_iff_exists.1 some_
  exact Bool.false_ne_true

theorem State.particularsBar_none (account : (s.acc.find p.account).isSome = true) (fits : s.fits p.length p.beam = true) :
    s.particularsBar p = none := by
  rw [State.particularsBar, if_neg (not_isNone account), fits]
  rfl

theorem State.particularsBar_account (account : s.acc.find p.account = none) : s.particularsBar p = some .unknown := by
  rw [State.particularsBar, account]
  rfl

theorem State.particularsBar_gauge (account : (s.acc.find p.account).isSome = true) (fits : s.fits p.length p.beam = false) :
    s.particularsBar p = some .outOfGauge := by
  rw [State.particularsBar, if_neg (not_isNone account), fits]
  rfl

section
variable (mode : s.auth.mode ≠ .config) (described : s.flight.n.isSome = true)
include mode described

theorem State.announceModeBar_none : s.announceModeBar = none := by
  rw [State.announceModeBar, if_neg mode, if_neg (not_isNone described)]

theorem State.announceBar_range (bad : (markOk mark && particularsOk p && dir.isSome) = false) :
    s.announceBar mark dir p = some .outOfRange := by
  rw [State.announceBar, State.announceModeBar_none mode described, bad]
  rfl

variable (inRange : (markOk mark && particularsOk p && dir.isSome) = true)
include inRange

theorem State.announceBar_inRange : s.announceBar mark dir p = (s.entryBar mark).or (s.particularsBar p) := by
  rw [State.announceBar, State.announceModeBar_none mode described, inRange]
  rfl

end

theorem State.entryBar_none (fresh : s.vessel mark = none) (room : s.reg.entries.length < 32) : s.entryBar mark = none := by
  rw [State.entryBar, fresh]
  exact if_neg (Nat.not_le.2 room)

theorem State.entryBar_full (fresh : s.vessel mark = none) (full : 32 ≤ s.reg.entries.length) : s.entryBar mark = some .full := by
  rw [State.entryBar, fresh]
  exact if_pos full

end

/-- Settles O29: the tests as the branches of `announceBar`, the rest by the definitions. -/
theorem announceTaken : Obligations.AnnounceTaken := by
  refine ⟨?_, ?_, fun m p => ⟨markOk_iff m, particularsOk_iff p⟩, fun s length beam => ⟨s.fits_iff length beam, ?_, ?_⟩,
    fun s m q => ⟨s.isService_iff m, fun before after split fresh => split ▸ positionIn_split fresh⟩⟩
  · intro h mark d cls p s taken mode described good ranges own fresh room account fits v filled queued position
    have inRange : (markOk mark && particularsOk p && (some d).isSome) = true := by simp [good, ranges]
    have passed : (s.heard h).announceBar mark (some d) p = none := by
      refine (State.announceBar_inRange (s := s.heard h) mode described inRange).trans ?_
      rw [State.entryBar_none (s := s.heard h) fresh room]
      exact State.particularsBar_none (s := s.heard h) account fits
    exact exec_announce_of_block taken (State.doAnnounce_passed passed own)
  · intro h mark dir p s taken inRange refused
    have barred {e : Status} (bar : (s.heard h).announceBar mark dir p = some e) : refused e :=
      exec_announce_of_block taken (State.doAnnounce_barred bar)
    refine ⟨fun mode => barred ?_, fun mode => ⟨fun unset => barred ?_, fun described => ⟨fun bad =>
      barred (State.announceBar_range (s := s.heard h) mode described bad), fun good => ?_⟩⟩⟩
    · rw [State.announceBar, State.announceModeBar, if_pos (show (s.heard h).auth.mode = .config from mode)]
      rfl
    · rw [State.announceBar, State.announceModeBar, if_neg (show (s.heard h).auth.mode ≠ .config from mode),
        if_pos (show (s.heard h).flight.n.isNone = true from by simp [unset])]
      rfl
    · have bar := State.announceBar_inRange (s := s.heard h) mode described good
      refine ⟨fun known => barred (bar.trans ?_), fun fresh => ⟨fun full => barred (bar.trans ?_), fun room => ⟨fun account =>
        barred (bar.trans ?_), fun account fits => barred (bar.trans ?_)⟩⟩⟩
      · rw [State.entryBar, if_pos (show ((s.heard h).vessel mark).isSome = true from known)]
        rfl
      · rw [State.entryBar_full (s := s.heard h) fresh full]
        rfl
      · rw [State.entryBar_none (s := s.heard h) fresh room, State.particularsBar_account (s := s.heard h) account]
        rfl
      · rw [State.entryBar_none (s := s.heard h) fresh room, State.particularsBar_gauge (s := s.heard h) account fits]
        rfl
  · intro c low high
    exact ⟨(s.leastOver_count (low.trans high) Chamber.usable).1 c low high,
      (s.leastOver_count (low.trans high) Chamber.width).1 c low high⟩
  · intro low
    obtain ⟨-, c, from1, upTo, usable⟩ := s.leastOver_count low Chamber.usable
    obtain ⟨-, d, from1', upTo', width⟩ := s.leastOver_count low Chamber.width
    exact ⟨⟨c, from1, upTo, usable.symm⟩, d, from1', upTo', width.symm⟩

/-! ## AMEND (R67 to R69) -/

section
variable {h : Hdr} {mark : Mark} {p : Particulars} {s : State} {v : Vessel}

theorem exec_amend_of_block (taken : s.takes h 8) {t : State} {a : Answer}
    (block : State.doAmend h.port mark p (s.heard h) = (t, a)) : exec (.amend h mark p) s = .next (State.replied h 8 a t) :=
  congrArg Host.Outcome.next (State.takeRequest_of_block taken rfl block)

theorem State.mayHandle_iff {st : Station} : s.mayHandle st v = true ↔ s.auth.holder = some st ∨ v.station = st := by
  simp [State.mayHandle, State.isHolder]

theorem State.doAmend_admitted {st : Station} (known : s.vessel mark = some v) (admitted : s.auth.holder = some st ∨ v.station = st) :
    s.doAmend st mark p = s.amendEntry v p := by
  simp only [State.doAmend, known, if_pos (State.mayHandle_iff.2 admitted)]

theorem State.amendEntry_barred {e : Status} (waiting : v.state = .waiting) (bar : s.amendBar p = some e) :
    s.amendEntry v p = (s, refuse e) := by
  simp only [State.amendEntry, if_neg (not_not.2 waiting), bar]

theorem State.amendEntry_passed {cls : VesselClass} (waiting : v.state = .waiting) (bar : s.amendBar p = none) (own : p.cls = some cls) :
    s.amendEntry v p = s.amendVessel v p cls := by
  simp only [State.amendEntry, if_neg (not_not.2 waiting), bar, own]

theorem State.amendBar_inRange (inRange : particularsOk p = true) : s.amendBar p = s.particularsBar p := by
  rw [State.amendBar, inRange]
  rfl

end

/-- Settles O30. -/
theorem amendReplaces : Obligations.AmendReplaces := by
  intro h mark p s taken u
  refine ⟨fun unknown => exec_amend_of_block taken ?_, fun v known => ⟨fun other stranger => exec_amend_of_block taken ?_,
    fun admitted => ⟨fun busy => ?_, fun waiting => ?_, fun cls waiting inRange own account fits => ?_⟩⟩⟩
  · simp only [State.doAmend, show (s.heard h).vessel mark = none from unknown]
    rfl
  · have barred : ¬ (s.heard h).mayHandle h.port v = true := fun c => (State.mayHandle_iff.1 c).elim other stranger
    simp only [State.doAmend, show (s.heard h).vessel mark = some v from known, if_neg barred]
    rfl
  all_goals have block := State.doAmend_admitted (s := s.heard h) (p := p) known admitted
  · exact exec_amend_of_block taken (block.trans (if_pos busy))
  · intro inRange refused
    have barred {e : Status} (bar : (s.heard h).amendBar p = some e) : refused e :=
      exec_amend_of_block taken (block.trans (State.amendEntry_barred waiting bar))
    refine ⟨fun bad => barred ?_, fun good => ?_⟩
    · have outside : particularsOk p = false := by
        rw [Bool.eq_false_iff]
        exact fun c => bad ((particularsOk_iff p).1 c)
      rw [State.amendBar, outside]
      rfl
    · have bar := State.amendBar_inRange (s := s.heard h) ((particularsOk_iff p).2 good)
      exact ⟨fun account => barred (bar.trans (State.particularsBar_account account)),
        fun account fits => barred (bar.trans (State.particularsBar_gauge account fits))⟩
  · intro w t answer
    have bar := (State.amendBar_inRange (s := s.heard h) inRange).trans (State.particularsBar_none account fits)
    have amended := block.trans (State.amendEntry_passed waiting bar own)
    exact ⟨fun same => exec_amend_of_block taken (amended.trans (if_pos same)),
      fun changed => exec_amend_of_block taken (amended.trans (if_neg changed))⟩

/-! ## WITHDRAW (R70 to R72), and the steps it makes -/

section
variable {h : Hdr} {mark : Mark} {s : State} {v : Vessel}

theorem exec_withdraw_of_block (taken : s.takes h 9) {t : State} {a : Answer}
    (block : State.doWithdraw h.port mark (s.heard h) = (t, a)) : exec (.withdraw h mark) s = .next (State.replied h 9 a t) :=
  congrArg Host.Outcome.next (State.takeRequest_of_block taken rfl block)

theorem State.doWithdraw_admitted {st : Station} (known : s.vessel mark = some v) (admitted : s.auth.holder = some st ∨ v.station = st) :
    s.doWithdraw st mark = s.withdrawEntry v := by
  simp only [State.doWithdraw, known, if_pos (State.mayHandle_iff.2 admitted)]

theorem State.withdrawEntry_called {id estimate : Nat} {t : Transit} (called : v.state = .called id estimate)
    (known : s.transit id = some t) : s.withdrawEntry v = if t.state = .queued then
      ((s.withdrawCalled v t).settle, accept (.withdrawn (some (t.id, t.berthsLeft v.mark)))) else (s, refuse .wrongState) := by
  simp only [State.withdrawEntry, called, known]

end

section
variable (s : State)

theorem State.withdrawWaiting_rest (cause : WithdrawCause) (v : Vessel) : s.withdrawWaiting cause v
    = State.raise (.vesselWithdrawn v.mark cause none) { s with reg := { s.reg with
        entries := s.reg.entries.filter (fun w => !decide (w.mark = v.mark))
        up := if v.dir = .up then s.reg.up.filter (fun m => !decide (m = v.mark)) else s.reg.up
        down := if v.dir = .down then s.reg.down.filter (fun m => !decide (m = v.mark)) else s.reg.down } } := by
  cases hd : v.dir <;> simp [State.withdrawWaiting, State.dequeue, State.setQueue, State.freeVessel, hd]

theorem State.leaveQueue_eq (id : Nat) (cause : EmptyCause) : s.leaveQueue id cause
    = { (if s.arb.queue.filter (fun x => !decide (x = id)) = [] ∧ s.arb.queue ≠ [] then s.raise (.queueEmpty id cause) else s) with
        arb := { s.arb with queue := s.arb.queue.filter (fun x => !decide (x = id)) }, callDue := true } := by
  have test : ((s.arb.queue.filter (fun x => !decide (x = id))).isEmpty && !s.arb.queue.isEmpty) = true
      ↔ s.arb.queue.filter (fun x => !decide (x = id)) = [] ∧ s.arb.queue ≠ [] := by
    rw [Bool.and_eq_true, List.isEmpty_iff, Bool.not_eq_true', ← Bool.not_eq_true, List.isEmpty_iff]
  by_cases last : s.arb.queue.filter (fun x => !decide (x = id)) = [] ∧ s.arb.queue ≠ []
  · rw [if_pos last]
    exact congrArg State.calling (if_pos (test.2 last))
  · rw [if_neg last]
    exact congrArg State.calling (if_neg (test.not.2 last))

theorem State.newHead_eq (before : Option Nat) :
    s.newHead before = if s.arb.queue.head? = before then s else { s with agenda := s.agenda ++ [.examineHead] } := by
  by_cases same : s.arb.queue.head? = before <;> simp [State.newHead, State.when, same, State.push]

/-- The account that a mark counts on. -/
theorem State.accountOf_eq (m : Mark) : s.accountOf m = (match s.vessel m with | some v => v.account | none => 0) := by
  unfold State.accountOf
  cases s.vessel m <;> rfl

theorem Accounts.uncommitted_find (of : Mark → Nat) (l : List Berth) (a : Accounts) (n : Nat) : (a.uncommitted of l).find n
    = (a.find n).map (fun x => { x with commitment := x.commitment
        - ((l.filter (fun b => decide (of b.mark = n))).map Berth.estimate).sum }) := by
  induction l generalizing a with
  | nil => simp [Accounts.uncommitted]
  | cons b rest ih =>
    have read := Accounts.read_update (fun x => { x with commitment := x.commitment
        - ((rest.filter (fun b : Berth => decide (of b.mark = n))).map Berth.estimate).sum })
      (f := fun x => { x with commitment := x.commitment - b.estimate }) (fun _ => by rfl) a n (of b.mark)
    refine (ih (a.uncommit (of b.mark) b.estimate)).trans (read.trans ?_)
    congr 1
    funext x
    by_cases own : n = of b.mark
    · simp [own, Nat.sub_sub]
    · simp [own, Ne.symm own]

theorem Accounts.uncommitted_eq (of : Mark → Nat) (l : List Berth) (a : Accounts) :
    a.uncommitted of l = { a with table := (a.uncommitted of l).table, counter := (a.uncommitted of l).counter } :=
  congrArg (fun x : Accounts => { x with table := (a.uncommitted of l).table, counter := (a.uncommitted of l).counter })
    (Accounts.uncommitted_rest of l a)

/-- A mark that no slot holds resolves nothing. -/
theorem State.resolveQuote_absent {m : Mark} (absent : ∀ n, 1 ≤ n → n ≤ 4 → (s.acc.slots.get (n - 1)).mark ≠ some m) (r : QuoteResult) :
    s.resolveQuote m r = s := by
  have none_ : s.acc.slotOf m = none := by
    rw [Option.eq_none_iff_forall_ne_some]
    intro n found
    obtain ⟨low, high, own, -⟩ := Accounts.slotOf_eq_some.1 found
    exact absent n low high own
  rw [State.resolveQuote, none_]

theorem State.resolveQuote_held {m : Mark} {n : Nat} (slot : s.acc.slotOf m = some n) (r : QuoteResult) : s.resolveQuote m r
    = State.raise (.quoteReady m n r.kind)
      { s with acc := { s.acc with slots := s.acc.slots.set (n - 1) (.resolved m r (s.timing.discard * 1000)) } } := by
  rw [State.resolveQuote, slot]
  rfl

end

/-- Settles O31: the tests and steps of WITHDRAW, then what each step does. -/
theorem withdrawTaken : Obligations.WithdrawTaken := by
  refine ⟨?_, ?_, ?_, fun s id cause => s.leaveQueue_eq id cause, ?_, ?_, fun s id n m before f =>
    ⟨rfl, rfl, rfl, rfl, s.newHead_eq before⟩⟩
  · intro h mark s taken refused
    refine ⟨fun unknown => exec_withdraw_of_block taken ?_, fun v known other stranger => exec_withdraw_of_block taken ?_⟩
    · simp only [State.doWithdraw, show (s.heard h).vessel mark = none from unknown]
    · have barred : ¬ (s.heard h).mayHandle h.port v = true := fun c => (State.mayHandle_iff.1 c).elim other stranger
      simp only [State.doWithdraw, show (s.heard h).vessel mark = some v from known, if_neg barred]
  · intro h mark v s taken known admitted u
    have block := State.doWithdraw_admitted (s := s.heard h) known admitted
    refine ⟨fun waiting => exec_withdraw_of_block taken (block.trans ?_),
      fun id estimate t called found moved => exec_withdraw_of_block taken (block.trans ?_)⟩
    · rw [State.withdrawEntry, waiting, State.withdrawWaiting_rest]
    · exact (State.withdrawEntry_called (s := s.heard h) called found).trans (if_neg moved)
  · intro h mark v id estimate t s taken known admitted called found queued u kept dropped
    have block := State.doWithdraw_admitted (s := s.heard h) known admitted
    have drops : dropped = u.dropBerth t v.mark := by
      by_cases emptied : kept = []
      · have none_ : (t.berths.filter (fun b => !decide (b.mark = v.mark))).isEmpty = true := List.isEmpty_iff.2 emptied
        exact (if_pos emptied).trans (if_pos none_).symm
      · have some_ : ¬ (t.berths.filter (fun b => !decide (b.mark = v.mark))).isEmpty = true := List.isEmpty_iff.not.2 emptied
        exact (if_neg emptied).trans (if_neg some_).symm
    rw [drops]
    exact exec_withdraw_of_block taken (block.trans
      ((State.withdrawEntry_called (s := s.heard h) called found).trans (if_pos queued)))
  · intro s berths u account
    have counts : account = s.accountOf := funext fun m => (s.accountOf_eq m).symm
    rw [counts]
    refine ⟨?_, rfl, fun n => Accounts.uncommitted_find s.accountOf berths s.acc n⟩
    exact congrArg (fun x : Accounts => { s with acc := x, agenda := s.agenda ++ s.accountEvents berths })
      (Accounts.uncommitted_eq s.accountOf berths s.acc)
  · intro s m r holds kind
    have held (n : Nat) : holds n ↔ (s.acc.slots.get (n - 1)).mark = some m := by
      simp only [holds]
      cases s.acc.slots.get (n - 1) <;> simp [QuoteSlot.mark]
    have own : kind = r.kind := by cases r <;> rfl
    refine ⟨fun absent => s.resolveQuote_absent (fun n low high => (held n).not.1 (absent n low high)) r, fun n low high own' first => ?_⟩
    rw [own]
    exact s.resolveQuote_held (Accounts.slotOf_eq_some.2 ⟨low, high, (held n).1 own', fun i from1 before =>
      (held i).not.1 (first i from1 before)⟩) r

end Sys2Proof.Machine
end

