-- ==== Sys2Proof/Proofs/AutomaticCalls.lean ====
section
/-! SUPPORT. Automatic calling: who is callable, the direction of a pass, its berths, and the passes of a calling event. Settles O32. -/

namespace Sys2Proof.Machine

/-! ## Changes of several entries -/

/-- The same change for the entries of several marks is one change of the register, where no mark comes twice or the change made twice is the change made once. -/
theorem State.each_setVessel {f : Vessel → Vessel} (mark : ∀ v, (f v).mark = v.mark) (l : List Mark)
    (once : l.Nodup ∨ ∀ v, f (f v) = f v) (s : State) : s.each l (fun m => State.setVessel m f)
      = { s with reg := { s.reg with entries := s.reg.entries.map (fun v => if v.mark ∈ l then f v else v) } } := by
  unfold State.each
  induction l generalizing s with
  | nil => simp
  | cons m rest ih =>
    refine (ih (once.imp_left List.Nodup.of_cons) _).trans ?_
    simp only [State.setVessel, List.map_map]
    congr 2
    refine List.map_congr_left fun v _ => ?_
    by_cases own : v.mark = m
    · by_cases again : m ∈ rest
      · have twice : f (f v) = f v := (once.resolve_left fun nodup => (List.nodup_cons.1 nodup).1 again) v
        simp [own, mark, again, twice]
      · simp [own, mark, again]
    · simp [own]

/-! ## Credit and calling (R74, R85) -/

section
variable (s : State)

theorem State.mem_queued_one {d : Direction} {v : Vessel} : v ∈ s.queued d ↔ ∃ m ∈ s.reg.queue d, s.vessel m = some v :=
  List.mem_filterMap

/-- A vessel is callable (R85): waiting, not credit-held, its approach not suspended. -/
def State.mayCall (v : Vessel) : Prop := v.state = .waiting ∧ s.creditHeld v = false ∧ s.suspended v.dir = false

theorem State.callable_iff (v : Vessel) : s.callable v = true ↔ s.mayCall v := by
  simp [State.callable, State.mayCall, and_assoc]

theorem State.creditHeldWith_iff {v : Vessel} {a : Account} (found : s.acc.find v.account = some a) (extra : Nat) :
    s.creditHeldWith extra v = true ↔ a.status = .blocked ∨ (a.number ≠ 0 ∧ v.cls ≠ .service
      ∧ a.balance - ((a.commitment + extra : Nat) : Int) - (s.estimate v : Int) < -(a.limit : Int)) := by
  simp only [State.creditHeldWith, found, creditHeldOn, Bool.or_eq_true, Bool.and_eq_true, decide_eq_true_eq, Bool.not_eq_true',
    decide_eq_false_iff_not, and_assoc, ne_eq]

theorem State.firstService_none : s.firstService = none ↔ ∀ v ∈ s.reg.entries, ¬ (v.cls = .service ∧ s.mayCall v) := by
  simp only [State.firstService, List.find?_eq_none, Bool.and_eq_true, decide_eq_true_eq, State.callable_iff]

theorem State.firstService_some {before rest : List Vessel} {v : Vessel} (split : s.reg.entries = before ++ v :: rest)
    (own : v.cls = .service ∧ s.mayCall v) (first : ∀ w ∈ before, ¬ (w.cls = .service ∧ s.mayCall w)) :
    s.firstService = some v := by
  rw [State.firstService, split, List.find?_append, List.find?_eq_none.2 fun w mem => by
    simpa only [Bool.and_eq_true, decide_eq_true_eq, State.callable_iff] using first w mem]
  have test : (decide (v.cls = .service) && s.callable v) = true := by
    simpa only [Bool.and_eq_true, decide_eq_true_eq, State.callable_iff] using own
  exact Option.none_or.trans (List.find?_cons_of_pos test)

end

/-! ## The direction of a pass and its first berth (R86, R89) -/

section
variable {s : State}

theorem State.chooseDirection_service {v : Vessel} (found : s.firstService = some v) : s.chooseDirection = some v.dir := by
  simp only [State.chooseDirection, found]

theorem State.chooseDirection_none (none_ : s.firstService = none) : s.chooseDirection =
    if s.callables (opposite s.arb.lastDir) ≠ [] ∧ s.timing.runLimit ≤ s.arb.runCount then some (opposite s.arb.lastDir)
    else if s.callables s.arb.lastDir ≠ [] then some s.arb.lastDir
    else if s.callables (opposite s.arb.lastDir) ≠ [] then some (opposite s.arb.lastDir) else none := by
  simp only [State.chooseDirection, none_, Bool.and_eq_true, Bool.not_eq_true', decide_eq_true_eq, ne_eq]
  simp only [← Bool.not_eq_true, List.isEmpty_iff]

theorem State.berthOne_precedence {d : Direction} {before rest : List Vessel} {v : Vessel} (split : s.callables d = before ++ v :: rest)
    (own : v.precedence = true) (first : ∀ w ∈ before, w.precedence = false) : s.berthOne d = some v := by
  have found : (s.callables d).find? Vessel.precedence = some v := by
    rw [split, List.find?_append, List.find?_eq_none.2 fun w mem => by simp [first w mem], List.find?_cons_of_pos own]
    rfl
  simp only [State.berthOne, found]

theorem State.berthOne_head {d : Direction} (plain : ∀ w ∈ s.callables d, w.precedence = false) :
    s.berthOne d = (s.callables d).head? := by
  have none_ : (s.callables d).find? Vessel.precedence = none := List.find?_eq_none.2 fun w mem => by simp [plain w mem]
  simp only [State.berthOne, none_]

end

/-! ## The passes (R84) -/

section
variable {s : State} (n : Nat)

theorem State.capacity_eq_zero : s.capacity = 0 ↔ s.acc.margin = 0 := by
  unfold State.capacity
  have places : Config.maxBerths = 8 := rfl
  omega

theorem State.passes_full (full : 4 ≤ s.arb.queue.length) : s.passes (n + 1) = s.block .queueFull := if_pos full

variable (room : s.arb.queue.length < 4)
include room

theorem State.passes_journal (none_ : s.acc.margin = 0) : s.passes (n + 1) = s.block .journalFull :=
  (if_neg (Nat.not_le.2 room)).trans (if_pos (State.capacity_eq_zero.2 none_))

variable (margin : 0 < s.acc.margin)
include margin

theorem State.passes_idle (none_ : s.chooseDirection = none) : s.passes (n + 1) = s.block .noVessel := by
  refine (if_neg (Nat.not_le.2 room)).trans ((if_neg fun c => margin.ne' (State.capacity_eq_zero.1 c)).trans ?_)
  rw [none_]

theorem State.passes_called {d : Direction} {v : Vessel} (dir : s.chooseDirection = some d) (first : s.berthOne d = some v) :
    s.passes (n + 1) = State.passes n (s.callFrom d v) := by
  refine (if_neg (Nat.not_le.2 room)).trans ((if_neg fun c => margin.ne' (State.capacity_eq_zero.1 c)).trans ?_)
  rw [dir]
  show (match s.berthOne d with
    | none => s.block .noVessel
    | some v => State.passes n (s.callFrom d v)) = _
  rw [first]

end

/-! ## The creation of a transit (R91, R92) -/

section
variable (s : State) (id : Nat) (l : List (Vessel × Nat))

/-- The vessels of a berth list called, one after another. -/
def State.callEach : State := s.each l (fun b => State.callVessel id b.1 b.2)

theorem State.callVessel_rest (v : Vessel) (e : Nat) : { s.callVessel id v e with reg := s.reg } = s := by
  unfold State.callVessel State.dequeue State.setQueue
  cases v.dir <;> rfl

theorem State.callEach_rest : { s.callEach id l with reg := s.reg } = s := by
  unfold State.callEach State.each
  induction l generalizing s with
  | nil => rfl
  | cons b rest ih =>
    exact (congrArg (fun x : State => { x with reg := s.reg }) (ih (s.callVessel id b.1 b.2))).trans (s.callVessel_rest id b.1 b.2)

theorem State.callEach_table (table : List Transit) :
    State.callEach { s with table := table } id l = { s.callEach id l with table := table } := by
  have one (v : Vessel) (e : Nat) (x : State) :
      State.callVessel id v e { x with table := table } = { x.callVessel id v e with table := table } := by
    unfold State.callVessel State.dequeue State.setQueue
    cases v.dir <;> rfl
  unfold State.callEach State.each
  induction l generalizing s with
  | nil => rfl
  | cons b rest ih => exact (congrArg (fun x => List.foldl _ x rest) (one b.1 b.2 s)).trans (ih (s.callVessel id b.1 b.2))

theorem State.callEach_eq : s.callEach id l = { s with reg := (s.callEach id l).reg } :=
  congrArg (fun x : State => { x with reg := (s.callEach id l).reg }) (s.callEach_rest id l)

/-- The Toll Accounts with the estimates of a berth list added to the commitments, and its places reserved. -/
def Accounts.booked (l : List (Vessel × Nat)) (a : Accounts) : Accounts :=
  (l.foldl (fun (x : Accounts) (b : Vessel × Nat) => x.commit b.1.account b.2) a).reserve l.length

theorem State.createTransit_eq (d : Direction) (o : Origin) : s.createTransit d o l = State.newHead s.arb.queue.head?
    (State.raise (.transitCalled (s.nextId 9 s.arb.lastId) d o (s.arb.queue.length + 1) s.toll.current.number s.toll.nightNow
      (s.newTransit (s.nextId 9 s.arb.lastId) d o l).berths)
    { s with
      table := s.table ++ [s.newTransit (s.nextId 9 s.arb.lastId) d o l]
      reg := (s.callEach (s.nextId 9 s.arb.lastId) l).reg
      acc := s.acc.booked l
      arb := { s.arb with queue := s.arb.queue ++ [s.nextId 9 s.arb.lastId], lastId := s.nextId 9 s.arb.lastId } }) := by
  have called := (s.callEach_table (s.nextId 9 s.arb.lastId) l (s.table ++ [s.newTransit (s.nextId 9 s.arb.lastId) d o l])).trans
    (congrArg (fun x : State => { x with table := s.table ++ [s.newTransit (s.nextId 9 s.arb.lastId) d o l] }) (s.callEach_eq _ l))
  exact congrArg (fun x : State => State.newHead s.arb.queue.head? (State.raise (.transitCalled (s.nextId 9 s.arb.lastId) d o
      (s.arb.queue.length + 1) s.toll.current.number s.toll.nightNow (s.newTransit (s.nextId 9 s.arb.lastId) d o l).berths)
    { x with
      acc := x.acc.booked l
      arb := { x.arb with queue := x.arb.queue ++ [s.nextId 9 s.arb.lastId], lastId := s.nextId 9 s.arb.lastId } })) called

end

/-- Settles O32. -/
theorem autoCalling : Obligations.AutoCalling := by
  refine ⟨?_, ?_, ?_, ?_, ?_⟩
  · intro h s taken u
    have block {on : Option Bool} {t : State} {a : Answer} (done : State.doAutoCall on u = (t, a)) :
        exec (.autoCall h on) s = .next (State.replied h 10 a t) :=
      congrArg Host.Outcome.next (State.takeRequest_of_block taken rfl done)
    exact ⟨block rfl, fun b same => block (if_pos same), fun off => block (if_neg fun c => absurd (c.trans off) nofun),
      fun on => block (if_neg fun c => absurd (c.trans on) nofun)⟩
  · intro s
    have called (on : s.arb.autoOn = true) (mode : s.auth.mode = .service) : s.takeCalling = s.passes 5 := by
      rw [State.takeCalling, on, State.inService, mode]
      rfl
    refine ⟨fun off => by rw [State.takeCalling, off]; rfl, fun on mode => ?_, fun on mode => ⟨fun full =>
      (called on mode).trans (s.passes_full 4 full), fun room none_ => (called on mode).trans (s.passes_journal 4 room none_),
      fun room margin up down service => (called on mode).trans (s.passes_idle 4 room margin ?_), called on mode⟩⟩
    · rw [State.takeCalling, on, State.inService, decide_eq_false mode]
      rfl
    · rw [State.chooseDirection_none service]
      cases s.arb.lastDir <;> simp [opposite, up, down]
  · intro s callable last other
    have callable_iff (v : Vessel) : s.mayCall v ↔ callable v := by
      cases h : v.dir <;> simp [callable, State.mayCall, State.suspended, State.head, HeadPair.get, h]
    have turned : opposite s.arb.lastDir = other := by cases h : s.arb.lastDir <;> simp [other, last, h, opposite]
    refine ⟨rfl, ⟨rfl, rfl⟩, ?_, fun d v => ?_, fun v a extra found => ⟨s.creditHeldWith_iff found extra, rfl⟩,
      fun before v rest split service mine first => ?_, fun nobody => ?_,
      fun d before v rest split own first => State.berthOne_precedence split own first, fun d => State.berthOne_head⟩
    · simp only [s.firstService_none, callable_iff]
    · rw [State.callables, List.mem_filter, State.mem_queued_one, State.callable_iff, callable_iff]
    · refine State.chooseDirection_service (s.firstService_some split ⟨service, (callable_iff v).2 mine⟩ fun w mem own => ?_)
      exact first w mem ⟨own.1, (callable_iff w).1 own.2⟩
    · have none_ : s.firstService = none := s.firstService_none.2 fun v mem own => nobody v mem ⟨own.1, (callable_iff v).1 own.2⟩
      have choice := State.chooseDirection_none none_
      rw [turned] at choice
      refine ⟨fun some_ limit => choice.trans (if_pos ⟨some_, limit⟩), fun some_ kept => choice.trans ((if_neg ?_).trans (if_pos some_)),
        fun empty some_ => choice.trans ?_, fun empty none_ => choice.trans ?_⟩
      · rintro ⟨some_, limit⟩
        exact kept.elim some_ fun below => Nat.not_le.2 below limit
      · rw [if_neg (not_not.2 empty), if_pos some_, ite_self]
      · rw [if_neg fun c => c.1 none_, if_neg (not_not.2 empty), if_neg (not_not.2 none_)]
  · intro s d first c
    refine ⟨rfl, rfl, fun capacity v rest x => ?_, fun nodup => ?_, fun n room margin dir own => State.passes_called n room margin dir own⟩
    · intro held berth
      refine ⟨rfl, fun full => if_pos full, fun room own => ?_, fun room own fits => ?_, fun room own tight => ?_⟩
      all_goals refine (if_neg (Nat.not_le.2 room)).trans (congrArg (s.scan capacity rest) ?_)
      · exact if_pos own
      · exact (if_neg (Bool.eq_false_iff.1 own)).trans (if_pos fits)
      · exact (if_neg (Bool.eq_false_iff.1 own)).trans (if_neg (Nat.not_le.2 tight))
    · intro made
      have passed := State.each_setVessel (f := skipVessel s.timing.skipLimit) (fun _ => by rfl) c.skipped (.inl nodup) s
      have arb : made.arb.lastDir = s.arb.lastDir ∧ made.arb.runCount = s.arb.runCount := by
        simp only [made]
        rw [State.createTransit_eq, State.newHead, State.when]
        split <;> exact ⟨rfl, rfl⟩
      have whole : s.callFrom d first = { made with arb := made.arb.remember d } :=
        congrArg (fun x : State => { State.createTransit d .call c.berths x with
          arb := (State.createTransit d .call c.berths x).arb.remember d }) passed
      rw [whole, Arbiter.remember, arb.1, arb.2]
      by_cases same : d = s.arb.lastDir
      · rw [if_pos same, if_pos same, ← same]
      · rw [if_neg same, if_neg same]
  · intro s n blocked
    exact ⟨rfl, s.passes_full n, s.passes_journal n, s.passes_idle n⟩

end Sys2Proof.Machine
end

