-- ==== Sys2Proof/Proofs/Planning.lean ====
section
/-! SUPPORT. PLAN_TRANSIT: the next transit id, what the creation of a transit leaves, and the tests of a plan in their order. Settles O33. -/

namespace Sys2Proof.Machine

/-! ## The next transit id (R91) -/

/-- The id after another, counted from 255 on to 1. -/
def nextUp (n : Nat) : Nat := if n < 255 then n + 1 else 1

theorem nextUp_bounds (n : Nat) : 1 ≤ nextUp n ∧ nextUp n ≤ 255 := by
  unfold nextUp
  split <;> omega

theorem nextUp_iterate (n i : Nat) : nextUp^[i + 1] n = idAfter (nextUp n) i := by
  induction i with
  | zero => exact (idAfter_zero (nextUp_bounds n)).symm
  | succ i ih =>
    rw [Function.iterate_succ_apply', ih]
    exact idAfter_succ (nextUp n) i

section
variable (s : State)

theorem State.transit_isSome {id : Nat} : (s.transit id).isSome = true ↔ ∃ t ∈ s.table, t.id = id := by
  simp [State.transit]

theorem State.nextId_succ (fuel n : Nat) :
    s.nextId (fuel + 1) n = if (s.transit (nextUp n)).isSome then s.nextId fuel (nextUp n) else nextUp n := rfl

theorem State.nextId_bounds (fuel n : Nat) : 1 ≤ s.nextId (fuel + 1) n ∧ s.nextId (fuel + 1) n ≤ 255 := by
  induction fuel generalizing n with
  | zero =>
    rw [State.nextId_succ]
    split <;> exact nextUp_bounds n
  | succ fuel ih =>
    rw [State.nextId_succ]
    split
    · exact ih _
    · exact nextUp_bounds n

/-- The search ends at the first id that no record holds. -/
theorem State.nextId_first (fuel n k : Nat) (inside : k < fuel) (used : ∀ j, j < k → (s.transit (nextUp^[j + 1] n)).isSome = true)
    (free : (s.transit (nextUp^[k + 1] n)).isSome = false) : s.nextId fuel n = nextUp^[k + 1] n := by
  induction fuel generalizing n k with
  | zero => exact absurd inside (Nat.not_lt_zero k)
  | succ fuel ih =>
    rw [State.nextId_succ]
    cases k with
    | zero => exact if_neg (Bool.eq_false_iff.1 free)
    | succ k =>
      refine (if_pos (used 0 (Nat.succ_pos k))).trans ?_
      exact ih (nextUp n) k (Nat.lt_of_succ_lt_succ inside) (fun j before => used (j + 1) (Nat.succ_lt_succ before)) free

/-- A table of at most 8 records leaves one of the nine ids tried free. -/
theorem State.nextId_free (short : s.table.length ≤ 8) (n : Nat) : (s.transit (s.nextId 9 n)).isSome = false := by
  by_contra used
  have all (k : Nat) : k < 9 → (s.transit (nextUp^[k + 1] n)).isSome = true := by
    induction k using Nat.strong_induction_on with
    | _ k ih =>
      intro inside
      by_contra free
      refine used ?_
      rw [s.nextId_first 9 n k inside (fun j before => ih j before (before.trans inside)) (Bool.eq_false_iff.2 free)]
      exact Bool.eq_false_iff.2 free
  have nodup : ((List.range 9).map (fun j => nextUp^[j + 1] n)).Nodup := by
    refine List.Nodup.map_on (fun i hi j hj h => ?_) List.nodup_range
    rw [List.mem_range] at hi hj
    rw [nextUp_iterate, nextUp_iterate] at h
    unfold idAfter at h
    omega
  have sub : (List.range 9).map (fun j => nextUp^[j + 1] n) ⊆ s.table.map Transit.id := by
    intro id hid
    obtain ⟨j, hj, rfl⟩ := List.mem_map.1 hid
    exact List.mem_map.2 ((State.transit_isSome s).1 (all j (List.mem_range.1 hj)))
  have := (nodup.subperm sub).length_le
  simp only [List.length_map, List.length_range] at this
  omega

end

/-! ## What the creation leaves (R92) -/

section
variable (s : State) (id : Nat) (l : List (Vessel × Nat))

/-- A vessel called, by the berth list it is in. -/
def calledIn (v : Vessel) : Vessel :=
  match l.find? (fun b => decide (b.1.mark = v.mark)) with
  | some b => { v with state := .called id b.2, skips := 0, precedence := false }
  | none => v

theorem State.callEach_entries (apart : (l.map (fun b => b.1.mark)).Nodup) :
    (s.callEach id l).reg.entries = s.reg.entries.map (calledIn id l) := by
  unfold State.callEach State.each
  induction l generalizing s with
  | nil => exact (List.map_id' _).symm
  | cons b rest ih =>
    obtain ⟨fresh, apart⟩ := List.nodup_cons.1 apart
    refine (ih _ apart).trans ?_
    simp only [State.callVessel, State.dequeue, State.setVessel, State.setQueue_entries, List.map_map]
    refine List.map_congr_left fun v _ => ?_
    by_cases own : v.mark = b.1.mark
    · have none_ : rest.find? (fun c => decide (c.1.mark = b.1.mark)) = none :=
        List.find?_eq_none.2 fun c mem => by simpa using fun same => fresh (List.mem_map.2 ⟨c, mem, same⟩)
      simp [calledIn, own, none_]
    · simp [calledIn, own, Ne.symm own]

theorem State.mem_callEach_queue (d : Direction) (m : Mark) :
    m ∈ (s.callEach id l).reg.queue d ↔ m ∈ s.reg.queue d ∧ ∀ b ∈ l, ¬ (b.1.dir = d ∧ b.1.mark = m) := by
  unfold State.callEach State.each
  induction l generalizing s with
  | nil => simp
  | cons b rest ih =>
    have one : m ∈ (s.callVessel id b.1 b.2).reg.queue d ↔ m ∈ s.reg.queue d ∧ ¬ (b.1.dir = d ∧ b.1.mark = m) := by
      cases hd : b.1.dir <;> cases d <;>
        simp [State.callVessel, State.dequeue, State.setQueue, State.setVessel, Register.queue, hd, eq_comm (a := m)]
    exact (ih (s.callVessel id b.1 b.2)).trans (by rw [one, List.forall_mem_cons, and_assoc])

theorem State.newHead_rest (before : Option Nat) : { s.newHead before with agenda := s.agenda } = s := by
  rw [State.newHead_eq]
  split <;> rfl

theorem Accounts.booked_rest (a : Accounts) :
    { a.booked l with counter := a.counter, table := a.table } = a.reserve l.length := by
  have walk (b : Accounts) : { l.foldl (fun (x : Accounts) (b : Vessel × Nat) => x.commit b.1.account b.2) b with
      counter := b.counter, table := b.table } = b := by
    induction l generalizing b with
    | nil => rfl
    | cons c rest ih =>
      have one : { b.commit c.1.account c.2 with counter := b.counter, table := b.table } = b := by
        unfold Accounts.commit Accounts.update
        split <;> rfl
      exact (congrArg (fun x : Accounts => { x with counter := b.counter, table := b.table }) (ih (b.commit c.1.account c.2))).trans one
  exact congrArg (Accounts.reserve l.length) (walk a)

theorem Accounts.booked_find (a : Accounts) (n : Nat) : (a.booked l).find n = (a.find n).map (fun x => { x with
    commitment := x.commitment + ((l.filter (fun b => decide (b.1.account = n))).map Prod.snd).sum }) := by
  have walk (b : Accounts) : (l.foldl (fun (x : Accounts) (b : Vessel × Nat) => x.commit b.1.account b.2) b).find n
      = (b.find n).map (fun x => { x with
        commitment := x.commitment + ((l.filter (fun b => decide (b.1.account = n))).map Prod.snd).sum }) := by
    induction l generalizing b with
    | nil => simp
    | cons c rest ih =>
      have read := Accounts.read_update (fun x => { x with commitment := x.commitment
          + ((rest.filter (fun b : Vessel × Nat => decide (b.1.account = n))).map Prod.snd).sum })
        (f := fun x => { x with commitment := x.commitment + c.2 }) (fun _ => by rfl) b n c.1.account
      refine (ih (b.commit c.1.account c.2)).trans (read.trans ?_)
      congr 1
      funext x
      by_cases own : n = c.1.account
      · simp [own, Nat.add_assoc]
      · simp [own, Ne.symm own]
  exact walk a

end

/-! ## The tests of a plan (R94) -/

theorem find?_split {α : Type} {p : α → Bool} {before rest : List α} {x : α} (own : p x = true) (first : ∀ y ∈ before, p y = false) :
    (before ++ x :: rest).find? p = some x := by
  rw [List.find?_append, List.find?_eq_none.2 fun y mem => by simp [first y mem], List.find?_cons_of_pos own]
  rfl

theorem planMarksOk_iff (marks : List Mark) : planMarksOk marks = true
    ↔ 1 ≤ marks.length ∧ marks.length ≤ 8 ∧ ∀ m ∈ marks, markOk m = true := by
  simp only [planMarksOk, Bool.and_eq_true, within_eq_true, List.all_eq_true, and_assoc]
  exact Iff.rfl

section
variable {s : State} {d : Direction} {marks : List Mark}

section
variable (mode : s.auth.mode ≠ .config)
include mode

theorem State.planFormBar_range (bad : ¬ planMarksOk marks = true) : s.planFormBar marks = some (refuse .outOfRange) :=
  (if_neg mode).trans (if_pos (by simpa using bad))

variable (good : planMarksOk marks = true)
include good

theorem State.planFormBar_doubled (bad : ¬ marks.Nodup) : s.planFormBar marks = some (refuse .badRequest) := by
  refine (if_neg mode).trans ((if_neg (by simp [good])).trans (if_neg (by simpa using bad)))

theorem State.planFormBar_none (nodup : marks.Nodup) : s.planFormBar marks = none :=
  (if_neg mode).trans ((if_neg (by simp [good])).trans (if_pos (by simpa using nodup)))

end

theorem State.planBar_form {a : Answer} (bar : s.planFormBar marks = some a) : s.planBar d marks = some a := by
  rw [State.planBar, bar]
  rfl

theorem State.planBar_marks (form : s.planFormBar marks = none) {a : Answer} (bar : s.planMarkBar d marks = some a) :
    s.planBar d marks = some a := by
  rw [State.planBar, form, bar]
  rfl

theorem State.planBar_room (form : s.planFormBar marks = none) (bar : s.planMarkBar d marks = none) :
    s.planBar d marks = s.planRoomBar marks := by
  rw [State.planBar, form, bar]
  rfl

theorem State.planUnknown_first {before rest : List Mark} {m : Mark} (split : marks = before ++ m :: rest) (unknown : s.vessel m = none)
    (first : ∀ x ∈ before, (s.vessel x).isSome = true) : s.planUnknown marks = some m := by
  rw [State.planUnknown, split]
  exact find?_split (by simp [unknown]) fun y mem => by
    rw [Bool.eq_false_iff]
    exact not_isNone (first y mem)

theorem State.planUnknown_none (known : ∀ m ∈ marks, (s.vessel m).isSome = true) : s.planUnknown marks = none :=
  List.find?_eq_none.2 fun m mem => not_isNone (known m mem)

theorem State.planMisplaced_first {before rest : List Mark} {m : Mark} {v : Vessel} (split : marks = before ++ m :: rest)
    (known : s.vessel m = some v) (out : ¬ (v.state = .waiting ∧ v.dir = d))
    (first : ∀ x ∈ before, ∀ v, s.vessel x = some v → v.state = .waiting ∧ v.dir = d) : s.planMisplaced d marks = some m := by
  have found : (s.planVessels marks).find? (fun v => !decide (v.state = .waiting) || !decide (v.dir = d)) = some v := by
    rw [State.planVessels, split, List.filterMap_append, List.filterMap_cons_some known]
    refine find?_split ?_ fun w mem => ?_
    · rw [Bool.or_eq_true, Bool.not_eq_true', Bool.not_eq_true', decide_eq_false_iff_not, decide_eq_false_iff_not]
      exact not_and_or.1 out
    · obtain ⟨x, memx, own⟩ := List.mem_filterMap.1 mem
      obtain ⟨waiting, dir⟩ := first x memx w own
      simp [waiting, dir]
  rw [State.planMisplaced, found, Option.map_some, State.vessel_mark known]

theorem State.planMisplaced_none (placed : ∀ m ∈ marks, ∀ v, s.vessel m = some v → v.state = .waiting ∧ v.dir = d) :
    s.planMisplaced d marks = none := by
  refine Option.map_eq_none_iff.2 (List.find?_eq_none.2 fun w mem => ?_)
  obtain ⟨x, memx, own⟩ := List.mem_filterMap.1 mem
  obtain ⟨waiting, dir⟩ := placed x memx w own
  simp [waiting, dir]

theorem State.planMarkBar_unknown {m : Mark} (unknown : s.planUnknown marks = some m) :
    s.planMarkBar d marks = some (refuseWith .unknown (.mark m)) := by
  simp only [State.planMarkBar, unknown]

theorem State.planMarkBar_misplaced {m : Mark} (known : s.planUnknown marks = none) (out : s.planMisplaced d marks = some m) :
    s.planMarkBar d marks = some (refuseWith .wrongState (.mark m)) := by
  simp only [State.planMarkBar, known, out]

theorem State.planMarkBar_held (known : s.planUnknown marks = none) (placed : s.planMisplaced d marks = none) :
    s.planMarkBar d marks = (s.firstHeld [] (s.planBerths marks)).map (fun m => refuseWith .wrongState (.creditHeld m)) := by
  simp only [State.planMarkBar, known, placed]
  cases s.firstHeld [] (s.planBerths marks) <;> rfl

theorem State.firstHeld_heard (h : Hdr) (ahead l : List (Vessel × Nat)) : (s.heard h).firstHeld ahead l = s.firstHeld ahead l := by
  induction l generalizing ahead with
  | nil => rfl
  | cons b rest ih =>
    show (if s.creditHeldWith (countedOn ahead b.1.account) b.1 then some b.1.mark else (s.heard h).firstHeld (ahead ++ [b]) rest) = _
    rw [ih]
    rfl

theorem exec_planTransit_of_block {h : Hdr} {dir : Option Direction} (taken : s.takes h 11) {t : State} {a : Answer}
    (block : State.doPlanTransit dir marks (s.heard h) = (t, a)) :
    exec (.planTransit h dir marks) s = .next (State.replied h 11 a t) :=
  congrArg Host.Outcome.next (State.takeRequest_of_block taken rfl block)

theorem State.doPlanTransit_barred {a : Answer} (bar : s.planBar d marks = some a) : s.doPlanTransit (some d) marks = (s, a) := by
  simp only [State.doPlanTransit, bar]

theorem State.doPlanTransit_passed (bar : s.planBar d marks = none) : s.doPlanTransit (some d) marks = s.plan d marks := by
  simp only [State.doPlanTransit, bar]

end

/-- Settles O33. -/
theorem planTransitTaken : Obligations.PlanTransitTaken := by
  refine ⟨fun s => ?_, fun s d o l => ?_, ?_, ?_, fun s ahead b rest => ⟨rfl, fun held => if_pos held, fun free => if_neg (Bool.eq_false_iff.1 free)⟩, ?_⟩
  · intro id after held
    have isHeld (n : Nat) : held n ↔ (s.transit n).isSome = true := (s.transit_isSome).symm
    refine ⟨fun k low high used free => ?_, s.nextId_bounds 8 s.arb.lastId, fun short => ?_⟩
    · obtain ⟨i, rfl⟩ := Nat.exists_eq_add_of_le' low
      refine s.nextId_first 9 s.arb.lastId i high (fun j before => (isHeld _).1 (used (j + 1) (Nat.succ_pos j) (Nat.succ_lt_succ before))) ?_
      exact Bool.eq_false_iff.2 fun c => free ((isHeld _).2 c)
    · rw [isHeld]
      exact Bool.eq_false_iff.1 (s.nextId_free short s.arb.lastId)
  · intro u id
    have whole := s.createTransit_eq l d o
    have rest := State.newHead_rest (State.raise (.transitCalled id d o (s.arb.queue.length + 1) s.toll.current.number s.toll.nightNow
        (s.newTransit id d o l).berths)
      { s with
        table := s.table ++ [s.newTransit id d o l]
        reg := (s.callEach id l).reg
        acc := s.acc.booked l
        arb := { s.arb with queue := s.arb.queue ++ [id], lastId := id } }) s.arb.queue.head?
    rw [← whole] at rest
    have acc : u.acc = s.acc.booked l := (congrArg State.acc rest : _)
    have reg : u.reg = (s.callEach id l).reg := (congrArg State.reg rest : _)
    have books := s.acc.booked_rest l
    have agenda : u.agenda = if (s.arb.queue ++ [id]).head? = s.arb.queue.head? then s.agenda else s.agenda ++ [.examineHead] := by
      show (s.createTransit d o l).agenda = _
      rw [whole, State.newHead_eq]
      exact apply_ite State.agenda _ _ _
    refine ⟨(congrArg State.table rest : _), (congrArg State.arb rest : _), ?_, ?_, (congrArg State.auth rest : _), (congrArg State.lm rest : _),
      (congrArg State.pcu rest : _), (congrArg State.toll rest : _), (congrArg State.ports rest : _), fun apart => ?_, fun m => ⟨?_, ?_⟩,
      fun n => ?_, fun empty => ?_, fun some_ => ?_⟩
    · rw [acc]
      exact (congrArg Accounts.reserved books : _)
    · rw [acc]
      exact (congrArg Accounts.journal books : _)
    · rw [reg, State.callEach_entries s id l apart]
      rfl
    · rw [reg]
      exact s.mem_callEach_queue id l .up m
    · rw [reg]
      exact s.mem_callEach_queue id l .down m
    · rw [acc]
      exact s.acc.booked_find l n
    · rw [agenda, empty]
      rfl
    · rw [agenda, if_pos]
      obtain ⟨x, more, split⟩ := List.exists_cons_of_ne_nil some_
      rw [split]
      rfl
  · intro h d marks s taken mode low high good nodup placed credit length journal u
    have known : ∀ m ∈ marks, (s.vessel m).isSome = true := fun m mem => by
      obtain ⟨v, own, -⟩ := placed m mem
      rw [own]
      rfl
    have there : ∀ m ∈ marks, ∀ v, s.vessel m = some v → v.state = .waiting ∧ v.dir = d := fun m mem v own => by
      obtain ⟨w, own', here⟩ := placed m mem
      obtain rfl : w = v := Option.some.inj (own'.symm.trans own)
      exact here
    have bar : u.planBar d marks = none := by
      have form : u.planFormBar marks = none :=
        State.planFormBar_none (s := u) mode ((planMarksOk_iff marks).2 ⟨low, high, good⟩) nodup
      have held := State.planMarkBar_held (s := u) (d := d) (State.planUnknown_none known) (State.planMisplaced_none there)
      refine (State.planBar_room form (held.trans (Option.map_eq_none_iff.2 ((s.firstHeld_heard h _ _).trans credit)))).trans ?_
      exact (if_neg (Nat.not_lt.2 length)).trans (if_neg (Nat.not_lt.2 journal))
    have block := State.doPlanTransit_passed bar
    refine ⟨?_, ?_, fun room => exec_planTransit_of_block taken (block.trans (if_neg (Nat.not_le.2 room))),
      fun full => exec_planTransit_of_block taken (block.trans (if_pos full))⟩
    · rw [State.planBerths, State.planVessels, List.map_filterMap]
    · rw [State.planLength, State.planBerths, List.map_map]
      rfl
  · intro h d marks s taken refused inRange
    have barred {a : Answer} (bar : (s.heard h).planBar d marks = some a) : refused a :=
      exec_planTransit_of_block taken (State.doPlanTransit_barred bar)
    have ranges : planMarksOk marks = true ↔ inRange := planMarksOk_iff marks
    refine ⟨fun mode => barred (State.planBar_form (if_pos mode)),
      fun mode bad => barred (State.planBar_form (State.planFormBar_range (s := s.heard h) mode (ranges.not.2 bad))),
      fun mode good bad => barred (State.planBar_form (State.planFormBar_doubled (s := s.heard h) mode (ranges.2 good) bad)),
      fun mode good nodup => ?_⟩
    have form := State.planFormBar_none (s := s.heard h) mode (ranges.2 good) nodup
    refine ⟨fun before m rest split unknown first => barred (State.planBar_marks form
      (State.planMarkBar_unknown (State.planUnknown_first split unknown first))),
      fun known => ⟨fun before m rest split out first => ?_, fun placed => ?_⟩⟩
    · obtain ⟨v, own⟩ := Option.isSome_iff_exists.1 (known m (split ▸ List.mem_append_right _ List.mem_cons_self))
      exact barred (State.planBar_marks form (State.planMarkBar_misplaced (State.planUnknown_none known)
        (State.planMisplaced_first split own (out v own) first)))
    · have held := State.planMarkBar_held (s := s.heard h) (d := d) (State.planUnknown_none known) (State.planMisplaced_none placed)
      refine ⟨fun m found => barred (State.planBar_marks form (held.trans (Option.map_eq_some_iff.2 ⟨m, (s.firstHeld_heard h _ _).trans found, rfl⟩))), fun free => ?_⟩
      have room := State.planBar_room form (held.trans (Option.map_eq_none_iff.2 ((s.firstHeld_heard h _ _).trans free)))
      exact ⟨fun long => barred (room.trans (if_pos long)),
        fun fits full => barred (room.trans ((if_neg (Nat.not_lt.2 fits)).trans (if_pos full)))⟩
  · intro h marks s taken refused
    exact ⟨fun mode => exec_planTransit_of_block taken (congrArg (Prod.mk _) (if_pos mode)),
      fun mode => exec_planTransit_of_block taken (congrArg (Prod.mk _) (if_neg mode))⟩

end Sys2Proof.Machine
end

