-- ==== Sys2Proof/Proofs/TransitRequests.lean ====
section
/-! SUPPORT. CANCEL_TRANSIT, CONFIRM and ABANDON_TRANSIT, the end of a gate for its move, and the abort of an operation. Settles O34, O35, O37. -/

namespace Sys2Proof.Machine

/-! ## Vessels returned (R65, R66) -/

section
variable (s : State) (d : Direction) (marks : List Mark)

theorem State.isService_marked {f : Vessel → Vessel} (mark : ∀ v, (f v).mark = v.mark) (cls : ∀ v, (f v).cls = v.cls) :
    State.isService { s with reg := { s.reg with entries := s.reg.entries.map f } } = s.isService := by
  have sameTest (m : Mark) : (fun v : Vessel => decide (v.mark = m)) ∘ f = fun v => decide (v.mark = m) := by
    funext v
    simp [mark]
  funext m
  rw [Bool.eq_iff_iff, State.isService_iff, State.isService_iff]
  simp only [State.vessel, List.find?_map, sameTest, Option.map_eq_some_iff]
  constructor
  · rintro ⟨v, ⟨w, found, rfl⟩, own⟩
    exact ⟨w, found, (cls w).symm.trans own⟩
  · rintro ⟨w, found, own⟩
    exact ⟨f w, ⟨w, found, rfl⟩, (cls w).trans own⟩

theorem State.returnVessels_eq : s.returnVessels d marks = { s with
    reg := { s.reg with
      entries := s.reg.entries.map (fun v => if v.mark ∈ marks then { v with state := .waiting } else v)
      up := if d = .up then insertBehindRun s.isService marks s.reg.up else s.reg.up
      down := if d = .down then insertBehindRun s.isService marks s.reg.down else s.reg.down }
    callDue := true } := by
  have waits := State.each_setVessel (f := fun v => { v with state := .waiting }) (fun _ => by rfl) marks (.inr fun _ => by rfl) s
  have service := s.isService_marked (f := fun v => if v.mark ∈ marks then { v with state := .waiting } else v)
    (fun v => by split <;> rfl) (fun v => by split <;> rfl)
  unfold State.returnVessels State.returnBlock
  rw [waits, service]
  cases d <;> rfl

end

/-! ## CANCEL_TRANSIT (R96, R125) -/

section
variable {h : Hdr} {id : Nat} {s : State} {t : Transit}

theorem exec_cancelTransit_of_block (taken : s.takes h 12) {u : State} {a : Answer}
    (block : State.doCancelTransit id (s.heard h) = (u, a)) : exec (.cancelTransit h id) s = .next (State.replied h 12 a u) :=
  congrArg Host.Outcome.next (State.takeRequest_of_block taken rfl block)

theorem State.doCancelTransit_known (known : s.transit id = some t) : s.doCancelTransit id = s.cancelTransit t := by
  simp only [State.doCancelTransit, known]

theorem Transit.inEntry_some {m : Move} (moving : t.state = .moving) (move : t.move = some m) (entry : m.kind = .entry)
    (open_ : m.confirmed = false) : t.inEntry = some m := by
  simp [Transit.inEntry, moving, move, entry, open_]

theorem Transit.inEntry_none (other : t.state = .waitingNext ∨ t.state = .settled
    ∨ (t.state = .moving ∧ ∀ m, t.move = some m → m.kind ≠ .entry ∨ m.confirmed = true)) : t.inEntry = none := by
  unfold Transit.inEntry
  rcases other with state | state | ⟨state, past⟩
  · rw [state]
  · rw [state]
  · rw [state]
    cases move : t.move with
    | none => rfl
    | some m =>
      refine if_neg fun c => (past m move).elim (fun kind => kind c.1) fun confirmed => c.2 confirmed

theorem State.cancelTransit_entry {m : Move} (queued : t.state ≠ .queued) (entry : t.inEntry = some m) : s.cancelTransit t
    = if s.inService then ((s.cancelEntry t m).settle, accept (.cancelled t.berths.length)) else (s, refuse .wrongMode) := by
  simp only [State.cancelTransit, if_neg queued, entry]

theorem State.cancelTransit_past (queued : t.state ≠ .queued) (past : t.inEntry = none) :
    s.cancelTransit t = (s, refuse .wrongState) := by
  simp only [State.cancelTransit, if_neg queued, past]

end

/-- Settles O34. -/
theorem cancelTransitTaken : Obligations.CancelTransitTaken := by
  refine ⟨fun s d marks => s.returnVessels_eq d marks, ?_⟩
  intro h id s taken u
  refine ⟨?_, fun t known => ?_⟩
  · intro unknown
    refine exec_cancelTransit_of_block taken ?_
    simp only [State.doCancelTransit, show (s.heard h).transit id = none from unknown]
    rfl
  · have block := State.doCancelTransit_known (s := s.heard h) known
    refine ⟨fun queued mode => exec_cancelTransit_of_block taken (block.trans ((if_pos queued).trans (if_neg mode))),
      fun m moving move entry open_ mode => ?_, fun m moving move entry open_ mode => ?_, fun past => ?_,
      fun queued mode => exec_cancelTransit_of_block taken (block.trans ((if_pos queued).trans (if_pos mode)))⟩
    · intro stopped closed released
      have commanded : closed = stopped.when (!decide ((stopped.passage m.passage).gate.state = .closed))
          (State.commandClose false m.passage) := by
        by_cases shut : (stopped.passage m.passage).gate.state = .closed <;> simp [closed, State.when, shut]
      have done := (State.cancelTransit_entry (s := s.heard h) (by rw [moving]; nofun) (Transit.inEntry_some moving move entry open_)).trans
        (if_pos (decide_eq_true mode))
      rw [show released = { closed with table := closed.table.map (fun x => if x.id = t.id then { x with held := [] } else x) } from rfl,
        commanded]
      exact exec_cancelTransit_of_block taken (block.trans done)
    · have done := (State.cancelTransit_entry (s := s.heard h) (by rw [moving]; nofun) (Transit.inEntry_some moving move entry open_)).trans
        (if_neg fun c => mode (of_decide_eq_true c))
      exact exec_cancelTransit_of_block taken (block.trans done)
    · refine exec_cancelTransit_of_block taken (block.trans (State.cancelTransit_past ?_ (Transit.inEntry_none past)))
      rcases past with state | state | ⟨state, -⟩ <;> rw [state] <;> nofun

/-! ## The end of a gate for its move (R111, R114) -/

section
variable {s : State} {k : Nat} {t : Transit} {m : Move}

theorem State.moverOf_some (h : s.moverOf k = some (t, m)) : t ∈ s.table ∧ t.move = some m ∧ m.passage = k := by
  obtain ⟨x, hx, found⟩ := List.exists_of_findSome?_eq_some h
  split at found
  · next hm =>
    split at found
    · next here =>
      cases found
      exact ⟨hx, hm, here⟩
    · cases found
  · cases found

/-- The transit whose move crosses a passage, where it is the only one. -/
theorem State.moverOf_only (mem : t ∈ s.table) (move : t.move = some m) (here : m.passage = k)
    (only : ∀ u ∈ s.table, ∀ n, u.move = some n → n.passage = k → u = t) : s.moverOf k = some (t, m) := by
  have found : (s.moverOf k).isSome = true := by
    rw [State.moverOf, List.findSome?_isSome_iff]
    exact ⟨t, mem, by simp [move, here]⟩
  obtain ⟨⟨u, n⟩, eq⟩ := Option.isSome_iff_exists.1 found
  obtain ⟨memu, moveu, hereu⟩ := State.moverOf_some eq
  obtain rfl : u = t := only u memu n moveu hereu
  obtain rfl : n = m := Option.some.inj (moveu.symm.trans move)
  exact eq

section
variable (mover : s.moverOf k = some (t, m))
include mover

theorem State.takeGateEnd_opened (gate : (s.passage k).gate.state = .opened) :
    s.takeGateEnd k = if m.phase = .opened then s.enterAwait t m else s := by
  simp only [State.takeGateEnd, mover, gate]

theorem State.takeGateEnd_closed (gate : (s.passage k).gate.state = .closed) : s.takeGateEnd k = s.gateClosed t m := by
  simp only [State.takeGateEnd, mover, gate]

theorem State.takeGateEnd_between (opened : (s.passage k).gate.state ≠ .opened) (closed : (s.passage k).gate.state ≠ .closed) :
    s.takeGateEnd k = s := by
  simp only [State.takeGateEnd, mover]
  cases gate : (s.passage k).gate.state with
  | opened => exact absurd gate opened
  | closed => exact absurd gate closed
  | opening | closing | stopped | fault => rfl

end

/-- The time that a move in AWAIT gives its confirmation (R112). -/
def State.awaitLimit (s : State) (m : Move) : Nat := if m.kind = .entry then s.timing.entryLimit else s.timing.exitLimit

theorem State.enterAwait_eq : s.enterAwait t m = State.raise (.moveReady t.id m.kind m.passage m.kind.awaits)
    { s with table := s.table.map (fun y => if y.id = t.id then { y with
        overdue := if s.auth.mode = .service then .running (s.awaitLimit m) (s.awaitLimit m * 1000)
          else .paused (s.awaitLimit m) (s.awaitLimit m * 1000)
        move := y.move.map (fun n => { n with phase := .await }) } else y) } := by
  have timer : (if s.inService then Overdue.running (s.awaitLimit m) (s.awaitLimit m * 1000)
      else .paused (s.awaitLimit m) (s.awaitLimit m * 1000)) = if s.auth.mode = .service then .running (s.awaitLimit m)
        (s.awaitLimit m * 1000) else .paused (s.awaitLimit m) (s.awaitLimit m * 1000) := by
    simp only [State.inService, decide_eq_true_eq]
  rw [← timer]
  exact congrArg (fun table => State.raise (.moveReady t.id m.kind m.passage m.kind.awaits) { s with table := table })
    (map_set_map_set fun _ => rfl)

theorem State.reportClosed_eq (id : Nat) : s.reportClosed id k = (match (s.passage k).slot with
    | some o => if o.purpose = .move ∧ o.phase = .equalised ∧ o.transit = some id then s.enterShutting k else s
    | none => s) := by
  unfold State.reportClosed
  cases (s.passage k).slot with
  | none => rfl
  | some o => by_cases own : o.purpose = .move ∧ o.phase = .equalised ∧ o.transit = some id <;> simp [State.when, own, and_assoc]

end

/-! ## CONFIRM (R113) -/

theorem State.takeConfirmation_eq (t : Transit) (m : Move) (s : State) : s.takeConfirmation t m
    = (State.deriveAspects { s with table := s.table.map (fun x => if x.id = t.id then x.confirmedClose else x) }).when
        (decide (s.auth.mode = .service)) (State.commandClose false m.passage) :=
  congrArg (fun table => (State.deriveAspects { s with table := table }).when (decide (s.auth.mode = .service))
    (State.commandClose false m.passage)) (map_set_map_set fun _ => rfl)

/-- Settles O35. -/
theorem confirmTaken : Obligations.ConfirmTaken := by
  refine ⟨?_, fun h id kind s taken => ⟨fun mode => exec_confirm_of_block taken (if_pos mode), fun mode none_ =>
    exec_confirm_of_block taken ((if_neg mode).trans (by rw [none_]))⟩, ?_⟩
  · intro s k t m mem move here only g put limit awaited shut
    have mover := State.moverOf_only mem move here only
    have report : s.reportClosed t.id m.passage = shut := by rw [here]; exact s.reportClosed_eq t.id
    subst here
    have awaits : awaited = m.kind.awaits := by
      unfold MoveKind.awaits
      rfl
    refine ⟨fun opened phase => ?_, fun closed phase => ⟨fun kind => ?_, fun kind => ?_, fun kind => ?_⟩, fun closed phase => ?_,
      fun notOpened notClosed => ?_⟩
    · exact (State.takeGateEnd_opened mover opened).trans ((if_pos phase).trans State.enterAwait_eq)
    · rw [State.takeGateEnd_closed mover closed, State.gateClosed, phase, ← report]
      show State.moveClosed t m (s.reportClosed t.id m.passage) = _
      rw [State.moveClosed, kind]
      show State.push (.examineNext t.id) (State.endMove t m t.held _) = _
      rw [State.endMove, kind]
      rfl
    · rw [State.takeGateEnd_closed mover closed, State.gateClosed, phase, ← report]
      show State.moveClosed t m (s.reportClosed t.id m.passage) = _
      rw [State.moveClosed, kind]
      show State.pushAll [.released m.source, .examineNext t.id] (State.endMove t m [m.destination] _) = _
      rw [State.endMove, kind]
      rfl
    · rw [State.takeGateEnd_closed mover closed, State.gateClosed, phase, ← report]
      show State.moveClosed t m (s.reportClosed t.id m.passage) = _
      rw [State.moveClosed, kind]
      rfl
    · rw [State.takeGateEnd_closed mover closed, State.gateClosed, ← report]
      rcases phase with phase | phase <;> rw [phase]
    · by_cases closed : g = .closed
      · rw [State.takeGateEnd_closed mover closed, State.gateClosed]
        cases phase : m.phase with
        | prep | equalise => rfl
        | opened | await | close => exact absurd ⟨closed, by rw [phase]; nofun, by rw [phase]; nofun⟩ notClosed
      · by_cases opened : g = .opened
        · exact (State.takeGateEnd_opened mover opened).trans (if_neg fun phase => notOpened ⟨opened, phase⟩)
        · exact State.takeGateEnd_between mover opened closed
  · intro h id kind s taken mode u
    refine ⟨fun unknown => exec_confirm_of_block taken ((if_neg mode).trans ?_), fun t known => ⟨fun other =>
      exec_confirm_of_block taken ((if_neg mode).trans ?_), ?_⟩⟩
    · rw [show (s.heard h).transit id = none from unknown]
    · rw [show (s.heard h).transit id = some t from known]
      refine (?_ : State.confirmTransit t kind (s.heard h) = _)
      unfold State.confirmTransit
      cases move : t.move with
      | none => rfl
      | some m => exact if_neg (other m move)
    · intro m move phase own close confirmed closing r
      have block : (s.heard h).doConfirm id (some kind) = (s.heard h).confirmMove t m kind :=
        own ▸ State.doConfirm_awaited (s := s.heard h) mode known move phase
      have taking : (s.heard h).takeConfirmation t m = closing := (s.heard h).takeConfirmation_eq t m
      refine ⟨fun passing => exec_confirm_of_block taken (block.trans ?_), fun clear => exec_confirm_of_block taken (block.trans ?_)⟩
      · cases kind with
        | entered | moved => exact congrArg (fun x : State => (x.settle, accept (.confirmed .close none))) taking
        | cleared => exact absurd rfl passing
      · rw [clear]
        exact congrArg (fun x : State => ((State.settleWith t r x).settle, accept (.confirmed .close
          (some (r.volume, (r.charges.map (fun c => c.parts.amount)).sum))))) taking

/-! ## ABANDON_TRANSIT (R124), and the abort of an operation (R40) -/

theorem nodup_eraseDups {α : Type} [DecidableEq α] (l : List α) : l.eraseDups.Nodup := by
  match l with
  | [] => exact List.nodup_nil
  | x :: rest =>
    rw [List.eraseDups_cons, List.nodup_cons]
    exact ⟨by simp [List.mem_eraseDups], nodup_eraseDups _⟩
termination_by l.length
decreasing_by exact Nat.lt_succ_of_le (List.length_filter_le _ _)

section
variable (s : State) (berths : List Berth) (n : Nat)

theorem State.mem_accountEvents :
    Task.accountEvent n ∈ s.accountEvents berths ↔ ∃ b ∈ berths, 0 < b.estimate ∧ s.accountOf b.mark = n := by
  simp [State.accountEvents, and_assoc]

/-- An account is handed at most one account event. -/
theorem State.accountEvents_nodup : (s.accountEvents berths).Nodup :=
  List.Nodup.map (fun a b h => by injection h) (nodup_eraseDups _)

end

section
variable {s : State} {id k : Nat} {o : Op}

theorem State.abortOp_other (other : ∀ o, (s.passage k).slot = some o → o.transit ≠ some id) : s.abortOp id k = s := by
  unfold State.abortOp
  cases slot : (s.passage k).slot with
  | none => rfl
  | some o => exact if_neg (other o slot)

theorem State.abortOp_own (slot : (s.passage k).slot = some o) (own : o.transit = some id) : s.abortOp id k
    = if o.phase = .waiting ∧ ¬ o.claimsHeld then
        State.freeSlot k (s.setGate k (fun g => if g.pendingOpen = some id then { g with pendingOpen := none } else g))
      else State.enterShutting k (State.setOp k (fun y => { y with timer := none, aborted := true })
        (State.setSluice k (fun x => { x with rampTimer := none })
          (s.setGate k (fun g => if g.pendingOpen = some id then { g with pendingOpen := none } else g)))) := by
  simp only [State.abortOp, slot, if_pos own]

end

section
variable {h : Hdr} {id : Nat} {s : State} {t : Transit}

theorem exec_abandonTransit_of_block (taken : s.takes h 14) {u : State} {a : Answer}
    (block : State.doAbandonTransit id (s.heard h) = (u, a)) : exec (.abandonTransit h id) s = .next (State.replied h 14 a u) :=
  congrArg Host.Outcome.next (State.takeRequest_of_block taken rfl block)

theorem State.doAbandonTransit_hold (safe : s.auth.mode = .safeHold) :
    s.doAbandonTransit id = ((s.transit id).map (fun t => s.abandon t)).getD (s, refuse .unknown) := by
  refine (if_neg (not_not.2 safe)).trans ?_
  cases s.transit id <;> rfl

end

/-- Settles O37. -/
theorem abandonFrees : Obligations.AbandonFrees := by
  refine ⟨?_, fun s berths n => ⟨fun some_ => ?_, fun none_ => ?_⟩, ?_, fun s id b => ?_⟩
  · intro h id s taken u
    refine ⟨fun mode => exec_abandonTransit_of_block taken (if_pos mode), fun safe => ?_⟩
    have block := State.doAbandonTransit_hold (s := s.heard h) (id := id) safe
    refine ⟨fun unknown => exec_abandonTransit_of_block taken (block.trans ?_), fun t known => ?_⟩
    · rw [show (s.heard h).transit id = none from unknown]
      rfl
    · rw [show (s.heard h).transit id = some t from known] at block
      refine ⟨fun state => exec_abandonTransit_of_block taken (block.trans ?_),
        fun state => exec_abandonTransit_of_block taken (block.trans ?_)⟩
      · show State.abandon t (s.heard h) = _
        rcases state with state | state <;> rw [State.abandon, state]
      · show State.abandon t (s.heard h) = _
        rcases state with state | state <;> rw [State.abandon, state] <;> rfl
  · exact List.count_eq_one_of_mem (s.accountEvents_nodup berths) ((s.mem_accountEvents berths n).2 some_)
  · rw [State.mem_accountEvents]
    rintro ⟨b, mem, positive, own⟩
    exact none_ b mem positive own
  · intro s id k inside gate
    refine ⟨State.abortOp_other, fun o slot own => ⟨fun waiting unclaimed => ?_, fun busy => ?_⟩⟩
    · rw [State.abortOp_own slot own, if_pos ⟨waiting, by simp [unclaimed]⟩, State.freeSlot,
        State.passage_setGate_same inside]
      exact congrArg (State.pushAll _) (State.setPassage_setPassage inside _ _ s)
    · rw [State.abortOp_own slot own, if_neg fun c => busy ⟨c.1, by simpa using c.2⟩]
      refine congrArg (State.enterShutting k) ?_
      refine (congrArg (State.setOp k _) (State.setPassage_setPassage inside _ _ s)).trans
        ((State.setPassage_setPassage inside _ _ s).trans (State.setPassage_congr ?_))
      simp only [slot]
      rfl
  · intro account u
    have own : s.accountOf b.mark = account := s.accountOf_eq b.mark
    have lowered : s.lowerCommitments [b] = { s with
        acc := s.acc.update account (fun a => { a with commitment := a.commitment - b.estimate }) } := by
      rw [← own]
      rfl
    rw [State.abandonBerth, lowered]
    rfl

end Sys2Proof.Machine
end

