-- ==== Sys2Proof/Proofs/PassageEvents.lean ====
section
/-! SUPPORT. The events of a passage's field lines and timers: gate limits and travels, sluice feedback and moves, the ramp and equalise timers. Settles O15, O16. -/

namespace Sys2Proof.Machine

/-! ## The events (R22, R23) -/

theorem LimitPins.position_of {o c : Bool} {position : GatePosition} (shown : position = (match o, c with
    | false, true => GatePosition.atClosed
    | true, false => .atOpen
    | _, _ => .between)) : position = ({ openLimit := o, closedLimit := c } : LimitPins).position := by
  rw [shown]
  cases o <;> cases c <;> rfl

section
variable {s : State} {k : Nat} (running : s.pins.reset = false) (inside : k < 4)
include running inside

theorem exec_passageEvent {c : Instr} {f : State → State} {x : State} (row : exec c s = onPassage k (x.event f))
    (pins : x.pins.reset = s.pins.reset) : exec c s = .next (f x).finish := by
  rw [row, onPassage_of_lt inside, State.event_running f (pins.trans running)]

end

section
variable {k : Nat} (inside : k < 4) (s : State)
include inside

theorem State.setGate_setGate (f g : Gate → Gate) : (s.setGate k f).setGate k g = s.setGate k (fun x => g (f x)) :=
  State.setPassage_setPassage inside _ _ s

theorem State.setSluice_setSluice (f g : Sluice → Sluice) : (s.setSluice k f).setSluice k g = s.setSluice k (fun x => g (f x)) :=
  State.setPassage_setPassage inside _ _ s

/-- A travel that ends at its limit: the drive and the timer stopped, the time captured, the state that the limit shows (R22). -/
theorem State.endTravel_eq : s.endTravel k = State.pushAll [.passageChanged k, .gateEnd k]
    ((s.setPassage k (fun p => Passage.dropPermit { p with gate := { p.gate with
        drive := .off, timer := none, lastTravel := elapsed (s.passage k).gate.limit (s.passage k).gate.timer
        state := (s.passage k).gate.position.endState } })).when
      ((s.passage k).gate.slow (elapsed (s.passage k).gate.limit (s.passage k).gate.timer))
      (State.raise (.gateSlow k (elapsed (s.passage k).gate.limit (s.passage k).gate.timer)))) := by
  have late (b : Bool) (n : Notice) (f : Passage → Passage) (x : State) :
      (x.when b (State.raise n)).setPassage k f = (x.setPassage k f).when b (State.raise n) := by
    cases b <;> rfl
  rw [State.endTravel, State.gateReached, late]
  exact congrArg (fun x : State => State.pushAll [.passageChanged k, .gateEnd k] (x.when _ _)) (State.setPassage_setPassage inside _ _ s)

/-- What a gate record becomes where a travel ends at a position (R22). -/
def Gate.ended (g : Gate) (position : GatePosition) : Gate :=
  { g with position := position, drive := .off, timer := none, lastTravel := elapsed g.limit g.timer, state := position.endState }

theorem State.gateMoved_ends {position : GatePosition} (ends : ((s.passage k).gate.state = .opening ∧ position = .atOpen)
    ∨ ((s.passage k).gate.state = .closing ∧ position = .atClosed)) : s.gateMoved k position
      = State.pushAll [.passageChanged k, .gateEnd k]
        ((s.setPassage k (fun p => Passage.dropPermit { p with gate := p.gate.ended position })).when
          ((s.passage k).gate.slow (elapsed (s.passage k).gate.limit (s.passage k).gate.timer))
          (State.raise (.gateSlow k (elapsed (s.passage k).gate.limit (s.passage k).gate.timer)))) := by
  have reached : s.gateMoved k position = State.endTravel k (s.setGate k (fun g => { g with position := position })) := by
    rcases ends with ⟨state, rfl⟩ | ⟨state, rfl⟩ <;> rw [State.gateMoved, state] <;> rfl
  rw [reached, State.endTravel_eq inside, State.passage_setGate_same inside]
  refine congrArg (fun x : State => State.pushAll [.passageChanged k, .gateEnd k] (x.when _ _)) ?_
  exact (State.setPassage_setPassage inside _ _ s).trans (State.setPassage_congr rfl)

omit inside in
/-- A position that is no end of the travel, or that a FAULT or a STOPPED gate meets between its ends, is recorded only. -/
theorem State.gateMoved_recorded {position : GatePosition} (other : ((s.passage k).gate.state = .opening ∧ position ≠ .atOpen)
    ∨ ((s.passage k).gate.state = .closing ∧ position ≠ .atClosed) ∨ (s.passage k).gate.state = .fault
    ∨ ((s.passage k).gate.state = .stopped ∧ position = .between)) :
    s.gateMoved k position = s.setGate k (fun g => { g with position := position }) := by
  rcases other with ⟨state, away⟩ | ⟨state, away⟩ | state | ⟨state, rfl⟩ <;> rw [State.gateMoved, state]
  · exact if_neg (by simpa using away)
  · exact if_neg (by simpa using away)
  · rfl

/-- A STOPPED gate that a limit shows stands at that end. -/
theorem State.gateMoved_stopped {position : GatePosition} (state : (s.passage k).gate.state = .stopped) (limit : position ≠ .between) :
    s.gateMoved k position = State.pushAll [.passageChanged k, .gateEnd k] (s.setPassage k (fun p => Passage.dropPermit
      { p with gate := { p.gate with position := position, state := position.endState } })) := by
  rw [State.gateMoved, state]
  refine (if_pos (by simpa using limit)).trans (congrArg (State.pushAll [.passageChanged k, .gateEnd k]) ?_)
  exact State.setPassage_setPassage inside _ _ s

/-- A gate at rest at an end that leaves it has lost its limit (R23). -/
theorem State.gateMoved_lost {position : GatePosition} (lost : ((s.passage k).gate.state = .closed ∧ position ≠ .atClosed)
    ∨ ((s.passage k).gate.state = .opened ∧ position ≠ .atOpen)) : s.gateMoved k position = State.enterSafeHold (.gateFault k)
      (State.raise (.gateFault k .limitLost position) (State.push (.passageChanged k) (s.setGate k (fun x =>
        { x with position := position, state := .fault, cause := some .limitLost, drive := .off, timer := none })))) := by
  have fails : s.gateMoved k position = State.gateFails k .limitLost (s.setGate k (fun g => { g with position := position })) := by
    rcases lost with ⟨state, away⟩ | ⟨state, away⟩ <;> rw [State.gateMoved, state] <;> exact if_pos (by simpa using away)
  rw [fails, State.gateFails, State.passage_setGate_same inside, State.setGate_setGate inside]

end

section
variable {s : State} {k : Nat} {o c : Bool} (running : s.pins.reset = false) (inside : k < 4)
include running inside

theorem exec_gateLimitChange_moved (used : s.inUse k = true) (moved : ({ openLimit := o, closedLimit := c } : LimitPins).position
    ≠ (s.passage k).gate.position) : exec (.gateLimitChange k o c) s = .next (State.gateMoved k
      ({ openLimit := o, closedLimit := c } : LimitPins).position (s.setLimits k { openLimit := o, closedLimit := c })).finish := by
  refine (exec_passageEvent running inside (x := s.setLimits k { openLimit := o, closedLimit := c }) rfl rfl).trans ?_
  exact congrArg (fun x : State => Host.Outcome.next x.finish) (if_pos ⟨used, moved⟩)

theorem exec_gateLimitChange_recorded (still : s.inUse k = false ∨ ({ openLimit := o, closedLimit := c } : LimitPins).position
    = (s.passage k).gate.position) : exec (.gateLimitChange k o c) s
      = .next (s.setLimits k { openLimit := o, closedLimit := c }).finish := by
  refine (exec_passageEvent running inside (x := s.setLimits k { openLimit := o, closedLimit := c }) rfl rfl).trans ?_
  refine congrArg (fun x : State => Host.Outcome.next x.finish) (if_neg ?_)
  rintro ⟨used, moved⟩
  exact still.elim (fun unused => Bool.false_ne_true (unused.symm.trans used)) fun same => moved same

end

/-- Settles O15. -/
theorem gateEvents : Obligations.GateEvents := by
  refine ⟨?_, ?_, ?_, ?_⟩
  · intro s k o c position running inside used defined moved g pins time slow ended
    have shown := LimitPins.position_of defined
    have row := exec_gateLimitChange_moved running inside used (shown ▸ moved)
    rw [← shown] at row
    have ends := State.gateMoved_ends inside (s.setLimits k { openLimit := o, closedLimit := c }) (position := position)
    refine ⟨fun state limit => ?_, fun state limit => ?_, fun other => ?_, fun state limit => ?_, fun other => ?_⟩
    all_goals rw [row]; refine congrArg (fun x : State => Host.Outcome.next x.finish) ?_
    · refine (ends (.inl ⟨state, limit⟩)).trans ?_
      subst limit
      exact congrArg (fun x : State => State.pushAll [.passageChanged k, .gateEnd k] (x.when _ _)) (State.setPassage_congr rfl)
    · refine (ends (.inr ⟨state, limit⟩)).trans ?_
      subst limit
      exact congrArg (fun x : State => State.pushAll [.passageChanged k, .gateEnd k] (x.when _ _)) (State.setPassage_congr rfl)
    · exact State.gateMoved_recorded _ other
    · refine (State.gateMoved_stopped inside (s.setLimits k { openLimit := o, closedLimit := c }) state limit).trans ?_
      refine congrArg (State.pushAll [.passageChanged k, .gateEnd k]) (State.setPassage_congr ?_)
      cases position with
      | atOpen | atClosed => simp [Passage.dropPermit, GatePosition.endState, g, State.passage, State.setLimits]
      | between => exact absurd rfl limit
    · exact State.gateMoved_lost inside _ other
  · intro s k running inside left
    exact (exec_passageEvent running inside (x := s) (f := State.takeTravelTimeout k) rfl rfl).trans
      (congrArg (fun x : State => Host.Outcome.next x.finish) (if_neg left))
  · intro s k running inside out
    have row := (exec_passageEvent running inside (x := s) (c := .gateTravelTimeout k) (f := State.takeTravelTimeout k) rfl rfl).trans
      (congrArg (fun x : State => Host.Outcome.next x.finish) (if_pos out))
    exact ⟨fun travelling => row.trans (congrArg (fun x : State => Host.Outcome.next x.finish) (if_pos travelling)),
      fun resting => row.trans (congrArg (fun x : State => Host.Outcome.next x.finish) (if_neg (Bool.eq_false_iff.1 resting)))⟩
  · intro s k o c position running inside defined still
    have shown := LimitPins.position_of defined
    exact exec_gateLimitChange_recorded running inside (by rw [← shown]; exact still)

/-! ## Sluices (R25 to R27) -/

theorem State.setPassage_id {s : State} {k : Nat} (inside : k < 4) {f : Passage → Passage} (same : f (s.passage k) = s.passage k) :
    s.setPassage k f = s := by
  have kept : s.pcu.passages.set k (s.pcu.passages.get k) = s.pcu.passages := by
    match k, inside with
    | 0, _ | 1, _ | 2, _ | 3, _ => rfl
  rw [State.setPassage, same, State.passage, kept]

section
variable {k : Nat} (inside : k < 4) (s : State) {code : Nat}

/-- A feedback during a move that is not commanded, or in FAULT, is recorded only. -/
theorem State.feedbackTaken_recorded (other : ((s.passage k).sluice.state = .moving ∧ (s.passage k).sluice.commanded ≠ some code)
    ∨ (s.passage k).sluice.state = .fault) :
    s.feedbackTaken k code = s.setSluice k (fun y => { y with position := feedbackPosition code }) := by
  rcases other with ⟨state, away⟩ | state <;> rw [State.feedbackTaken, state]
  exact if_neg (by simpa using away)

include inside

/-- The commanded feedback ends the move (R25, R26). -/
theorem State.feedbackTaken_commanded (state : (s.passage k).sluice.state = .moving)
    (commanded : (s.passage k).sluice.commanded = some code) : s.feedbackTaken k code = State.afterMove k (State.push (.passageChanged k)
      (s.setSluice k (fun y => { y with position := feedbackPosition code
                                        state := if feedbackPosition code = 0 then .shut else .set
                                        commanded := none, moveTimer := none, driven := false }))) := by
  have done : s.feedbackTaken k code = State.finishMove k (s.setSluice k (fun y => { y with position := feedbackPosition code })) := by
    rw [State.feedbackTaken, state]
    exact if_pos (decide_eq_true commanded)
  rw [done, State.finishMove, State.setSluice_setSluice inside]
  rfl

/-- A change of a sluice at rest is an uncommanded move (R27). -/
theorem State.feedbackTaken_uncommanded (rest : (s.passage k).sluice.state = .shut ∨ (s.passage k).sluice.state = .set)
    (moved : (s.passage k).sluice.position ≠ code) : s.feedbackTaken k code = State.enterSafeHold (.sluiceFault k)
      (State.raise (.sluiceFault k .uncommanded (s.passage k).sluice.commanded (feedbackPosition code)) (State.push (.passageChanged k)
        (s.setSluice k (fun y => { y with position := feedbackPosition code, state := .fault, cause := some .uncommanded
                                          commanded := none, moveTimer := none, driven := false })))) := by
  have fails : s.feedbackTaken k code
      = State.sluiceFails k .uncommanded (s.setSluice k (fun y => { y with position := feedbackPosition code })) := by
    rcases rest with state | state <;> rw [State.feedbackTaken, state] <;> exact if_pos (by simpa using moved)
  rw [fails, State.sluiceFails, State.passage_setSluice_same inside, State.setSluice_setSluice inside]

omit inside in
theorem State.feedbackTaken_same (rest : (s.passage k).sluice.state = .shut ∨ (s.passage k).sluice.state = .set)
    (same : (s.passage k).sluice.position = code) :
    s.feedbackTaken k code = s.setSluice k (fun y => { y with position := feedbackPosition code }) := by
  rcases rest with state | state <;> rw [State.feedbackTaken, state] <;> exact if_neg (by simpa using same)

end

/-! ## The operation in the slot (R33, R36 to R38) -/

section
variable {s : State} {k : Nat} {o : Op} (slot : (s.passage k).slot = some o)
include slot

theorem State.afterMove_ramping (phase : o.phase = .ramping) : s.afterMove k
    = if (s.passage k).sluice.position < (s.passage k).sluice.target then s.setSluice k (fun y => { y with rampTimer := seconds y.rampInterval })
      else s.setOp k (fun o => { o with phase := .flowing }) := by
  simp only [State.afterMove, slot, Option.map_some, phase]

theorem State.afterMove_shutting (phase : o.phase = .shutting) :
    s.afterMove k = if (s.passage k).sluice.position = 0 then s.endOp k else s := by
  simp only [State.afterMove, slot, Option.map_some, phase]

theorem State.afterMove_other (ramping : o.phase ≠ .ramping) (shutting : o.phase ≠ .shutting) : s.afterMove k = s := by
  simp only [State.afterMove, slot, Option.map_some]
  cases phase : o.phase with
  | ramping => exact absurd phase ramping
  | shutting => exact absurd phase shutting
  | waiting | flowing | equalised | stalled => rfl

theorem State.takeEqual_running (running : o.phase = .ramping ∨ o.phase = .flowing) :
    s.takeEqual k = (s.reachEqualised k).retryOpen k := by
  rcases running with phase | phase <;> simp only [State.takeEqual, slot, Option.map_some, phase]

theorem State.takeEqual_other (ramping : o.phase ≠ .ramping) (flowing : o.phase ≠ .flowing) : s.takeEqual k = s.retryOpen k := by
  simp only [State.takeEqual, slot, Option.map_some]
  cases phase : o.phase with
  | ramping => exact absurd phase ramping
  | flowing => exact absurd phase flowing
  | waiting | equalised | shutting | stalled => rfl

end

theorem State.pushAll_pushAll (a b : List Task) (s : State) : s.pushAll (a ++ b) = (s.pushAll a).pushAll b :=
  congrArg (fun agenda => { s with agenda := agenda }) (List.append_assoc _ _ _).symm

theorem State.reportTasks_eq (s : State) (k : Nat) (o : Op) (outcome : Outcome) : s.reportTasks k o outcome
    = o.transit.toList.map (fun id => .report {
        transit := id, passage := k, purpose := o.purpose, outcome := outcome
        predicted := (s.opVolumes o).1, measured := (s.opVolumes o).2.1, stale := (s.opVolumes o).2.2 }) := by
  unfold State.reportTasks
  cases o.transit <;> rfl

section
variable {s : State} {k : Nat} {o : Op} (inside : k < 4) (slot : (s.passage k).slot = some o)
include inside slot

theorem State.captured_slot : ((s.captureEnd k).passage k).slot = some (s.captured k o) := by
  rw [State.captureEnd_eq, State.passage_setOp_same inside, slot]
  rfl

omit inside in
theorem State.captureEnd_set : s.captureEnd k = s.setPassage k (fun p => { p with slot := some (s.captured k o) }) :=
  State.setOp_eq slot _

/-- An operation reaches EQUALISED: the end reading captured, its timer stopped, its report; all but a MOVE enter SHUTTING (R33, R37). -/
theorem State.reachEqualised_eq : s.reachEqualised k = State.when (decide (o.purpose ≠ .move)) (State.enterShutting k)
    (State.pushAll (s.reportTasks k { s.captured k o with phase := .equalised, timer := none, stall := none } .equalised)
      (s.setPassage k (fun p => { p with slot := some { s.captured k o with phase := .equalised, timer := none, stall := none } }))) := by
  have purpose : (s.captured k o).purpose = o.purpose := by
    unfold State.captured
    split <;> rfl
  have set : (s.captureEnd k).setOp k (fun o => { o with phase := .equalised, timer := none, stall := none })
      = s.setPassage k (fun p => { p with slot := some { s.captured k o with phase := .equalised, timer := none, stall := none } }) := by
    rw [State.captureEnd_set slot]
    exact (State.setPassage_setPassage inside _ _ s).trans (State.setPassage_congr rfl)
  simp only [State.reachEqualised, set, State.passage_setPassage_same inside, purpose]
  rfl

/-- The end of an operation: its claims released, its report, its slot freed, the chambers arbitrated (R36). -/
theorem State.endOp_eq : s.endOp k = State.push (.arbitrate (if o.claimsHeld then s.chambersOf k else []))
    (State.pushAll (s.reportTasks k (s.captured k o) (if o.aborted then .aborted else .done)
        ++ (if (s.passage k).slotFreeOwed then [.slotFree k] else []))
      (State.setPassage k (fun p => { p with slot := none, slotFreeOwed := false })
        (s.setClaims (if o.claimsHeld then s.chambersOf k else []) none))) := by
  have claims := (s.captured_rest k o).2
  have aborted : (s.captured k o).aborted = o.aborted := by
    unfold State.captured
    split <;> rfl
  simp only [State.endOp, State.captured_slot inside slot, State.closeOp, claims, aborted]
  rw [State.captureEnd_set slot]
  have owed : ((s.setPassage k (fun p => { p with slot := some (s.captured k o) })).passage k).slotFreeOwed
      = (s.passage k).slotFreeOwed := by rw [State.passage_setPassage_same inside]
  have once := State.setPassage_setPassage inside (fun p => { p with slot := some (s.captured k o) })
    (fun p => { p with slot := none, slotFreeOwed := false }) (s.setClaims (if o.claimsHeld then s.chambersOf k else []) none)
  rw [State.pushAll_pushAll, ← once, ← owed]
  rfl

end

/-! ## The timers of a sluice and its operation (R25, R27, R33, R34) -/

section
variable {s : State} {k : Nat} (running : s.pins.reset = false) (inside : k < 4)
include running inside

theorem exec_sluiceFeedback (code : Nat) : exec (.sluiceFeedback k code) s
    = .next (State.takeFeedback k code (s.setFeedback k code)).finish :=
  exec_passageEvent running inside rfl rfl

theorem exec_sluiceMoveTimeout : exec (.sluiceMoveTimeout k) s = .next (s.takeMoveTimeout k).finish :=
  exec_passageEvent running inside rfl rfl

theorem exec_rampTimerExpiry : exec (.rampTimerExpiry k) s = .next (s.takeRampExpiry k).finish :=
  exec_passageEvent running inside rfl rfl

theorem exec_equaliseTimeout : exec (.equaliseTimeout k) s = .next (s.takeEqualiseTimeout k).finish :=
  exec_passageEvent running inside rfl rfl

end

section
variable {s : State} {k : Nat} (inside : k < 4)
include inside

/-- The next step of an operation in RAMPING, held back where the interlock does not pass (R25, R42). -/
theorem State.rampExpired_step {o : Op} (slot : (s.passage k).slot = some o) (phase : o.phase = .ramping)
    (rest : (s.passage k).sluice.state = .shut ∨ (s.passage k).sluice.state = .set) : s.rampExpired k
      = if s.interlockOk k then State.push (.passageChanged k) (s.setSluice k (fun y =>
            { y with rampTimer := none, state := .moving, commanded := some (y.position + 1), moveTimer := some (y.moveLimit * 1000)
                     driven := true, stepHeld := false }))
        else s.setSluice k (fun y => { y with rampTimer := none, stepHeld := true }) := by
  have steps : s.rampExpired k = State.stepUp k (s.setSluice k (fun x => { x with rampTimer := none })) :=
    if_pos (by simp [slot, phase])
  have same : (s.setSluice k (fun x => { x with rampTimer := none })).interlockOk k = s.interlockOk k :=
    State.interlockOk_setSluice (fun _ => by rfl) k k s
  have resting : ((s.setSluice k (fun x => { x with rampTimer := none })).passage k).sluice.state = .shut
      ∨ ((s.setSluice k (fun x => { x with rampTimer := none })).passage k).sluice.state = .set := by
    rw [State.passage_setSluice_same inside]
    exact rest
  rw [steps, State.stepUp, if_pos resting, same, State.setSluice_setSluice inside, State.setSluice_setSluice inside]
  rfl

theorem State.rampExpired_idle (idle : (∀ o, (s.passage k).slot = some o → o.phase ≠ .ramping)
    ∨ (s.passage k).sluice.state = .moving ∨ (s.passage k).sluice.state = .fault) :
    s.rampExpired k = s.setSluice k (fun x => { x with rampTimer := none }) := by
  by_cases ramping : (s.passage k).slot.map Op.phase = some .ramping
  · obtain ⟨o, slot, phase⟩ := Option.map_eq_some_iff.1 ramping
    refine (if_pos (decide_eq_true ramping)).trans (if_neg ?_)
    rw [State.passage_setSluice_same inside]
    rcases idle.resolve_left fun h => h o slot phase with state | state <;> simp [state]
  · exact if_neg (by simpa using ramping)

theorem State.equaliseExpired_running {o : Op} (slot : (s.passage k).slot = some o) (running : o.phase = .ramping ∨ o.phase = .flowing) :
    s.equaliseExpired k = State.raise (.levelTimeout k o.purpose o.transit (s.passage k).sluice.position)
      (s.setPassage k (fun p => { p with
        slot := some { o with timer := none, phase := .stalled, stall := some .timeout }
        sluice := { p.sluice with rampTimer := none } })) := by
  simp only [State.equaliseExpired, slot, if_pos running]
  refine congrArg (State.raise _) ?_
  refine (congrArg (fun x => State.setSluice k _ x) (State.setPassage_setPassage inside _ _ s)).trans
    ((State.setPassage_setPassage inside _ _ s).trans (State.setPassage_congr ?_))
  simp [slot]

omit inside in
theorem State.equaliseExpired_other {o : Op} (slot : (s.passage k).slot = some o) (ramping : o.phase ≠ .ramping)
    (flowing : o.phase ≠ .flowing) : s.equaliseExpired k = s.setPassage k (fun p => { p with slot := some { o with timer := none } }) := by
  simp only [State.equaliseExpired, slot, if_neg (not_or.2 ⟨ramping, flowing⟩)]
  exact State.setOp_eq slot _

end

/-- Settles O16. -/
theorem sluiceEvents : Obligations.SluiceEvents := by
  have ended {c : Instr} {s x y : State} (row : exec c s = .next x.finish) (work : x = y) : exec c s = .next y.finish := work ▸ row
  refine ⟨?_, ?_, ?_, ?_, ?_, ?_, ?_⟩
  · intro s k position running inside used valid x u
    have row := ended (exec_sluiceFeedback running inside position) (if_pos used)
    have own := feedbackPosition_of_le valid
    refine ⟨fun state commanded => ended row ?_, fun other => ended row ?_, fun rest moved => ended row ?_⟩
    · refine (State.feedbackTaken_commanded inside u state commanded).trans ?_
      rw [own]
    · refine (State.feedbackTaken_recorded u other).trans ?_
      rw [own]
    · refine (State.feedbackTaken_uncommanded inside u rest moved).trans ?_
      rw [own]
      rfl
  · intro s k position running inside x still
    by_cases used : s.inUse k = true
    · obtain ⟨valid, rest, same⟩ := still.resolve_left fun unused => Bool.false_ne_true (unused.symm.trans used)
      refine ended (exec_sluiceFeedback running inside position) ((if_pos used).trans ?_)
      refine (State.feedbackTaken_same (s.setFeedback k position) rest same).trans ?_
      rw [feedbackPosition_of_le valid, ← same]
      exact State.setPassage_id inside rfl
    · exact ended (exec_sluiceFeedback running inside position) (if_neg used)
  · intro s k code running inside used high x u uncommanded moved
    have row := ended (exec_sluiceFeedback running inside code) (if_pos used)
    refine ⟨feedbackPosition code, feedbackPosition_le code, fun other => ended row ?_, fun rest => ended row ?_⟩
    · exact State.feedbackTaken_recorded u (other.imp_left fun state => ⟨state, uncommanded⟩)
    · exact State.feedbackTaken_uncommanded inside u rest moved
  · intro s k o slot x
    refine ⟨fun phase below => (State.afterMove_ramping slot phase).trans (if_pos below),
      fun phase reached => (State.afterMove_ramping slot phase).trans (if_neg (Nat.not_lt.2 reached)),
      fun phase zero => (State.afterMove_shutting slot phase).trans (if_pos zero), fun ramping rest => ?_⟩
    by_cases phase : o.phase = .shutting
    · exact (State.afterMove_shutting slot phase).trans (if_neg fun zero => rest ⟨phase, zero⟩)
    · exact State.afterMove_other slot ramping phase
  · intro s k o inside slot reading captured report equalised reached chambers
    have capture : captured = s.captured k o := by
      simp only [captured, State.captured, Option.isNone_iff_eq_none]
      rfl
    refine ⟨State.takeEqual_running slot, ?_, fun x outcome => s.reportTasks_eq k x outcome, State.takeEqual_other slot, ?_,
      fun a b start end_ => ?_, fun none_ => ?_⟩
    · rw [State.reachEqualised_eq inside slot, State.reportTasks_eq, ← capture]
      by_cases move : o.purpose = .move
      · rw [if_pos move, decide_eq_false (not_not.2 move)]
        rfl
      · rw [if_neg move, decide_eq_true move]
        rfl
    · rw [State.endOp_eq inside slot, State.reportTasks_eq, ← capture]
    · simp only [State.opVolumes, start, end_]
      rfl
    · simp only [State.opVolumes, none_]
  · intro s k running inside x
    have move := exec_sluiceMoveTimeout running inside
    have ramp := exec_rampTimerExpiry running inside
    have equalise := exec_equaliseTimeout running inside
    refine ⟨fun left => ended move (if_neg left), fun left => ended ramp (if_neg left), fun left => ended equalise (if_neg ?_),
      fun out state => ended move ((if_pos out).trans (if_pos state)), fun o out slot phase rest => ended ramp ((if_pos out).trans ?_),
      fun o slot out state => ended equalise ((if_pos ?_).trans ?_)⟩
    · rw [Option.bind_eq_some_iff]
      rintro ⟨o, slot, out⟩
      exact left o slot out
    · exact State.rampExpired_step inside slot phase rest
    · rw [slot]
      exact out
    · exact State.equaliseExpired_running inside slot state
  · intro s k running inside x
    refine ⟨fun out state => ended (exec_sluiceMoveTimeout running inside) ((if_pos out).trans (if_neg state)),
      fun out idle => ended (exec_rampTimerExpiry running inside) ((if_pos out).trans (State.rampExpired_idle inside idle)),
      fun o slot out ramping flowing => ended (exec_equaliseTimeout running inside) ((if_pos ?_).trans ?_)⟩
    · rw [slot]
      exact out
    · exact State.equaliseExpired_other slot ramping flowing

end Sys2Proof.Machine
end

