-- ==== Sys2Proof/Proofs/GateRequests.lean ====
section
/-! SUPPORT. Gates by request: when one is admitted, what a gate command does, and MANUAL_GATE. Settles O39. -/

namespace Sys2Proof.Machine

/-! ## Admission, the permissive and the interlock (R42, R43, R45) -/

section
variable {s : State} {k : Nat}

theorem State.interlockOk_iff (used : k ≤ s.count) : s.interlockOk k = true ↔ s.neighboursClosed k := by
  refine ⟨State.neighboursClosed_of_interlock used, fun closed => List.all_eq_true.2 fun j mem => ?_⟩
  have beside := State.mem_othersOf.1 mem
  exact (Passage.fullyClosed_iff _).2 (closed j (by omega) (by omega))

theorem State.permissive_iff : s.permissive k = true
    ↔ (s.equal k = true ∧ (s.sensor k).status = .good ∧ (s.sensor (k + 1)).status = .good) ∨ (s.passage k).permit = true := by
  simp [State.permissive, State.sensorsGood]

theorem State.mayOpen_iff (used : k ≤ s.count) : s.mayOpen k = true
    ↔ ((s.equal k = true ∧ (s.sensor k).status = .good ∧ (s.sensor (k + 1)).status = .good) ∨ (s.passage k).permit = true)
      ∧ s.neighboursClosed k := by
  rw [State.mayOpen, Bool.and_eq_true, State.permissive_iff, State.interlockOk_iff used]

theorem State.mem_chambersOf {c : Nat} : c ∈ s.chambersOf k ↔ (c = k ∨ c = k + 1) ∧ 1 ≤ c ∧ c ≤ s.count := by
  rw [State.chambersOf, chambersBeside, List.mem_filter, within_eq_true]
  simp

theorem State.unclaimed_iff : s.unclaimed k = true
    ↔ ∀ c, (c = k ∨ c = k + 1) → 1 ≤ c → c ≤ s.count → s.pcu.claims.get c = none := by
  simp only [State.unclaimed, List.all_eq_true, State.mem_chambersOf, Option.isNone_iff_eq_none, and_imp]

theorem Passage.manualSlot_iff (p : Passage) : p.manualSlot = true ↔ ∀ o, p.slot = some o → o.purpose = .manual := by
  unfold Passage.manualSlot
  cases p.slot <;> simp

theorem State.holderOf_isNone {c : Nat} : (s.holderOf c).isNone = true ↔ ∀ t ∈ s.table, c ∉ t.held := by
  simp [State.holderOf]

theorem State.manualAdmitted_iff : s.manualAdmitted k = true ↔ (s.auth.mode = .service →
    (∀ o, (s.passage k).slot = some o → o.purpose = .manual)
    ∧ ∀ c, (c = k ∨ c = k + 1) → 1 ≤ c → c ≤ s.count → ∀ t ∈ s.table, c ∉ t.held) := by
  simp only [State.manualAdmitted, State.inService, Bool.or_eq_true, Bool.and_eq_true, Bool.not_eq_true', decide_eq_false_iff_not,
    Passage.manualSlot_iff, List.all_eq_true, State.holderOf_isNone, State.mem_chambersOf, and_imp]
  exact ⟨fun h serving => h.resolve_left (not_not.2 serving), fun h => or_iff_not_imp_left.2 fun serving => h (not_not.1 serving)⟩

end

/-! ## Gate commands (R21, R24) -/

/-- A gate record as a travel begins, with freshly copied limits and a fresh timer (R21). -/
def Gate.fresh (g : Gate) (timing : Timing) : Gate :=
  { g with cause := none, limit := timing.gateLimit, slowPct := timing.slowPct, timer := some (timing.gateLimit * 1000) }

section
variable {s : State} {k : Nat} {state : GateState} {drive : GateDrive}

theorem State.travel_starts (away : state.goal ≠ some (s.passage k).gate.position) : s.travel k state drive
    = State.push (.passageChanged k) (s.setGate k (fun g => { g.fresh s.timing with state := state, drive := drive })) :=
  if_neg (by simpa using away)

/-- A travel to the limit that is asserted ends in the event that commands it (R21; log 17). -/
theorem State.travel_ends (inside : k < 4) (there : state.goal = some (s.passage k).gate.position) : s.travel k state drive
    = State.pushAll [.passageChanged k, .passageChanged k, .gateEnd k] (s.setPassage k (fun p => Passage.dropPermit
        { p with gate := { p.gate.fresh s.timing with
            timer := none, drive := .off, lastTravel := 0, state := p.gate.position.endState } })) := by
  have none_ : elapsed s.timing.gateLimit (seconds s.timing.gateLimit) = 0 := by simp [elapsed, seconds]
  have begun : s.travel k state drive = State.endTravel k (State.push (.passageChanged k)
      (s.setGate k (fun g => { g.fresh s.timing with state := state, drive := drive }))) := if_pos (decide_eq_true there)
  have quick (g : Gate) : g.slow 0 = false := by simp [Gate.slow]
  rw [begun, State.endTravel_eq inside, State.passage_push, State.passage_setGate_same inside]
  simp only [Gate.fresh]
  rw [show some (s.timing.gateLimit * 1000) = seconds s.timing.gateLimit from rfl, none_, quick]
  have order (f : Passage → Passage) (g : Gate → Gate) (n : Notice) : State.pushAll [.passageChanged k, .gateEnd k]
      (((State.push (.passageChanged k) (s.setGate k g)).setPassage k f).when false (State.raise n))
        = State.pushAll [.passageChanged k, .passageChanged k, .gateEnd k] (s.setPassage k (fun p => f { p with gate := g p.gate })) :=
    (State.pushAll_pushAll [.passageChanged k] _ ((s.setGate k g).setPassage k f)).symm.trans
      (congrArg (State.pushAll _) (State.setPassage_setPassage inside _ _ s))
  exact (order _ _ _).trans (congrArg (State.pushAll _) (State.setPassage_congr rfl))

theorem State.commandOpen_travels {manual : Bool} (leaves : (s.passage k).gate.state = .closed ∨ (s.passage k).gate.state = .closing
    ∨ (s.passage k).gate.state = .stopped ∨ ((s.passage k).gate.state = .fault ∧ manual = true)) :
    s.commandOpen manual k = s.travel k .opening .opening := by
  rcases leaves with state | state | state | ⟨state, rfl⟩ <;> rw [State.commandOpen, state]
  exact if_pos rfl

theorem State.commandClose_travels {manual : Bool} (leaves : (s.passage k).gate.state = .opened ∨ (s.passage k).gate.state = .opening
    ∨ (s.passage k).gate.state = .stopped ∨ ((s.passage k).gate.state = .fault ∧ manual = true)) :
    s.commandClose manual k = (s.setGate k (fun g => { g with pendingOpen := none })).travel k .closing .closing := by
  rcases leaves with state | state | state | ⟨state, rfl⟩ <;> rw [State.commandClose, state]
  exact if_pos rfl

theorem State.commandOpen_starts {manual : Bool} (leaves : (s.passage k).gate.state = .closed ∨ (s.passage k).gate.state = .closing
    ∨ (s.passage k).gate.state = .stopped ∨ ((s.passage k).gate.state = .fault ∧ manual = true))
    (away : (s.passage k).gate.position ≠ .atOpen) : s.commandOpen manual k = State.push (.passageChanged k)
      (s.setGate k (fun g => { g.fresh s.timing with state := .opening, drive := .opening })) :=
  (State.commandOpen_travels leaves).trans (State.travel_starts fun c => away (Option.some.inj c).symm)

theorem State.commandClose_starts (inside : k < 4) {manual : Bool} (leaves : (s.passage k).gate.state = .opened
    ∨ (s.passage k).gate.state = .opening ∨ (s.passage k).gate.state = .stopped
    ∨ ((s.passage k).gate.state = .fault ∧ manual = true)) (away : (s.passage k).gate.position ≠ .atClosed) :
    s.commandClose manual k = State.push (.passageChanged k) (s.setGate k (fun g =>
      { g.fresh s.timing with state := .closing, drive := .closing, pendingOpen := none })) := by
  have position : GateState.closing.goal ≠ some ((s.setGate k (fun g => { g with pendingOpen := none })).passage k).gate.position := by
    rw [State.passage_setGate_same inside]
    exact fun c => away (Option.some.inj c).symm
  refine ((State.commandClose_travels leaves).trans (State.travel_starts position)).trans ?_
  exact congrArg (State.push _) (State.setGate_setGate inside s _ _)

theorem State.commandOpen_ends (inside : k < 4) {manual : Bool} (leaves : (s.passage k).gate.state = .closed
    ∨ (s.passage k).gate.state = .closing ∨ (s.passage k).gate.state = .stopped
    ∨ ((s.passage k).gate.state = .fault ∧ manual = true)) (there : (s.passage k).gate.position = .atOpen) :
    s.commandOpen manual k = State.pushAll [.passageChanged k, .passageChanged k, .gateEnd k] (s.setPassage k (fun p =>
      { p with gate := { p.gate.fresh s.timing with timer := none, drive := .off, lastTravel := 0, state := .opened } })) := by
  refine ((State.commandOpen_travels leaves).trans (State.travel_ends inside (congrArg some there.symm))).trans ?_
  exact congrArg (State.pushAll _) (State.setPassage_congr (by rw [there]; rfl))

theorem State.commandClose_ends (inside : k < 4) {manual : Bool} (leaves : (s.passage k).gate.state = .opened
    ∨ (s.passage k).gate.state = .opening ∨ (s.passage k).gate.state = .stopped
    ∨ ((s.passage k).gate.state = .fault ∧ manual = true)) (there : (s.passage k).gate.position = .atClosed) :
    s.commandClose manual k = State.pushAll [.passageChanged k, .passageChanged k, .gateEnd k] (s.setPassage k (fun p =>
      { p with
        gate := { p.gate.fresh s.timing with
          timer := none, drive := .off, lastTravel := 0, state := .closed, pendingOpen := none }
        permit := false })) := by
  have position : GateState.closing.goal
      = some ((s.setGate k (fun g => { g with pendingOpen := none })).passage k).gate.position := by
    rw [State.passage_setGate_same inside]
    exact congrArg some there.symm
  refine ((State.commandClose_travels leaves).trans (State.travel_ends inside position)).trans (congrArg (State.pushAll _) ?_)
  exact (State.setPassage_setPassage inside _ _ s).trans (State.setPassage_congr (by rw [there]; rfl))

end

/-! ## MANUAL_GATE (R45, R46) -/

section
variable {h : Hdr} {k : Nat} {a : Option GateAction} {s : State}

theorem exec_manualGate_of_block (taken : s.takes h 16) {u : State} {r : Answer}
    (block : State.doManualGate k a (s.heard h) = (u, r)) : exec (.manualGate h k a) s = .next (State.replied h 16 r u) :=
  congrArg Host.Outcome.next (State.takeRequest_of_block taken rfl block)

theorem State.doManualGate_admitted {action : GateAction} (used : s.inUse k = true) (admitted : s.manualAdmitted k = true) :
    s.doManualGate k (some action) = s.manualGate k action := by
  simp only [State.doManualGate, used, admitted, Bool.not_true, Bool.false_eq_true, if_false, if_true]

end

/-- Settles O39. -/
theorem manualGateTaken : Obligations.ManualGateTaken := by
  refine ⟨?_, ?_, ?_, ?_, ?_⟩
  · intro s k used
    exact ⟨State.interlockOk_iff used, State.mayOpen_iff used, State.manualAdmitted_iff⟩
  · intro h k a s taken unused
    refine exec_manualGate_of_block taken (if_pos ?_)
    rw [show (s.heard h).inUse k = false from unused]
    rfl
  · intro h k s taken used u
    have past : (!u.inUse k) ≠ true := by rw [show u.inUse k = true from used]; nofun
    refine ⟨exec_manualGate_of_block taken (if_neg past), fun a refused => exec_manualGate_of_block taken ((if_neg past).trans ?_),
      fun admitted => ?_⟩
    · exact if_neg (Bool.eq_false_iff.1 refused)
    have row {action : GateAction} {t : State} {r : Answer} (block : u.manualGate k action = (t, r)) :
        exec (.manualGate h k (some action)) s = .next (State.replied h 16 r t) :=
      exec_manualGate_of_block taken ((State.doManualGate_admitted (s := s.heard h) used admitted).trans block)
    refine ⟨fun barred => row (if_neg (Bool.eq_false_iff.1 barred)), fun may => row (if_pos may), row rfl, ?_⟩
    intro stopped t
    exact row (congrArg (State.acceptPassage k) rfl)
  · intro s k inside g fresh
    refine ⟨fun manual leaves away => ?_, fun manual leaves away => ?_, fun state manual => ?_, fun state => ?_, fun state => ?_,
      fun state manual => ?_⟩
    · exact (State.commandOpen_starts leaves away).trans (congrArg (State.push _) (State.setPassage_congr rfl))
    · exact (State.commandClose_starts inside leaves away).trans (congrArg (State.push _) (State.setPassage_congr rfl))
    all_goals simp only [State.commandOpen, State.commandClose, show (s.passage k).gate.state = _ from state]
    all_goals rfl
  · intro s k inside g ended there
    refine ⟨fun state => ?_, fun state => ?_, fun state => ?_, fun state => ?_, fun manual leaves at_ => ?_, fun manual leaves at_ => ?_⟩
    · rw [State.commandOpen, show (s.passage k).gate.state = _ from state]
      rfl
    · rw [State.commandClose, show (s.passage k).gate.state = _ from state]
      rfl
    · rw [State.commandClose, show (s.passage k).gate.state = _ from state]
      rfl
    · rw [State.commandClose, show (s.passage k).gate.state = _ from state]
      rfl
    · refine (State.commandOpen_ends inside (leaves.elim (fun state => .inr (.inr (.inl state))) fun rest =>
        rest.elim (fun state => .inr (.inl state)) fun fault => .inr (.inr (.inr fault))) at_).trans ?_
      exact congrArg (State.pushAll _) (State.setPassage_congr rfl)
    · refine (State.commandClose_ends inside (leaves.elim (fun state => .inr (.inr (.inl state))) fun rest =>
        rest.elim (fun state => .inr (.inl state)) fun fault => .inr (.inr (.inr fault))) at_).trans ?_
      exact congrArg (State.pushAll _) (State.setPassage_congr rfl)

end Sys2Proof.Machine
end

