-- ==== Sys2Proof/Proofs/SluiceRequests.lean ====
section
/-! SUPPORT. Sluices by request: what a lowering and an opening step do, a manual shut, a new position, a take-over, and MANUAL_SLUICE. Settles O40. -/

namespace Sys2Proof.Machine

/-! ## Lowering and opening steps (R25, R26) -/

section
variable {s : State} {k target : Nat}

theorem State.lower_fault (fault : (s.passage k).sluice.state = .fault) : s.lower k target = s := if_pos fault

theorem State.stepUp_fault (fault : (s.passage k).sluice.state = .fault) : s.stepUp k = s := if_neg (by simp [fault])

theorem State.stepUp_moving (moving : (s.passage k).sluice.state = .moving) : s.stepUp k = s := if_neg (by simp [moving])

theorem State.stepUp_rest (rest : (s.passage k).sluice.state = .shut ∨ (s.passage k).sluice.state = .set) : s.stepUp k
    = if s.interlockOk k then
        State.push (.passageChanged k) (s.setSluice k (fun y =>
          { y with state := .moving, commanded := some (y.position + 1), driven := true, stepHeld := false
                   moveTimer := some (y.moveLimit * 1000) }))
      else s.setSluice k (fun y => { y with stepHeld := true }) := if_pos rest

theorem State.lower_moves (away : (s.passage k).sluice.state = .moving
    ∨ ((s.passage k).sluice.state ≠ .fault ∧ (s.passage k).sluice.position ≠ target)) : s.lower k target
      = State.push (.passageChanged k) (s.setSluice k (fun y =>
          { y with state := .moving, commanded := some target, rampTimer := none, driven := true, stepHeld := false
                   moveTimer := some (y.moveLimit * 1000) })) := by
  have sound : (s.passage k).sluice.state ≠ .fault := away.elim (fun moving => by rw [moving]; nofun) And.left
  exact (if_neg sound).trans (if_neg fun rest => away.elim rest.1 fun other => other.2 rest.2)

/-- A lowering move to the position that stands is complete at once (R26). -/
theorem State.lower_there (inside : k < 4) (rest : (s.passage k).sluice.state = .shut ∨ (s.passage k).sluice.state = .set)
    (there : (s.passage k).sluice.position = target) : s.lower k target
      = (State.push (.passageChanged k) (s.setSluice k (fun y =>
          { y with state := if target = 0 then .shut else .set, commanded := none, rampTimer := none, moveTimer := none
                   driven := false, stepHeld := false }))).afterMove k := by
  have still : (s.passage k).sluice.state ≠ .fault ∧ (s.passage k).sluice.state ≠ .moving := by
    rcases rest with state | state <;> rw [state] <;> exact ⟨nofun, nofun⟩
  refine ((if_neg still.1).trans (if_pos ⟨still.2, there⟩)).trans ?_
  rw [State.finishMove, State.setSluice_setSluice inside]
  exact congrArg (fun x : State => (State.push (.passageChanged k) x).afterMove k) (State.setPassage_congr (by simp [Sluice.arrived, there]))

end

/-! ## A manual shut (R47) -/

section
variable {s : State} {k : Nat}

theorem State.manualShut_other (other : ∀ o, (s.passage k).slot = some o → o.purpose ≠ .manual) : s.manualShut k = s.lowerManual k := by
  unfold State.manualShut
  cases slot : (s.passage k).slot with
  | none => rfl
  | some o => exact if_neg (other o slot)

theorem State.manualShut_manual (inside : k < 4) {o : Op} (slot : (s.passage k).slot = some o) (manual : o.purpose = .manual) :
    s.manualShut k = if (s.passage k).sluice.state = .shut
      then State.endOp k (s.setOp k (fun y => { y with phase := .shutting, stall := none }))
      else State.lowerManual k (s.setOp k (fun y => { y with phase := .shutting, stall := none })) := by
  simp only [State.manualShut, slot, manual, if_true, State.passage_setOp_same inside]

theorem State.enterShutting_eq (inside : k < 4) : s.enterShutting k = if (s.passage k).sluice.state = .shut
    then State.endOp k (s.setOp k (fun y => { y with phase := .shutting, stall := none }))
    else State.lower k 0 (s.setOp k (fun y => { y with phase := .shutting, stall := none })) := by
  simp only [State.enterShutting, State.passage_setOp_same inside]

end

/-! ## A new position for a MANUAL operation, and a take-over (R48) -/

section
variable {s : State} {k p : Nat} {o : Op} (slot : (s.passage k).slot = some o)

theorem State.moveManual_waits (other : ¬ (o.phase = .ramping ∨ o.phase = .flowing)) :
    s.moveManual k p o = s.setOp k (fun y => { y with target := p }) := if_neg other

/-- A MANUAL operation in RAMPING or FLOWING with a new target, as it stands in a phase (R48). -/
def State.retargeted (s : State) (k p : Nat) (o : Op) (phase : OpPhase) : State :=
  s.setPassage k (fun q => { q with slot := some { o with target := p, phase := phase }, sluice := { q.sluice with target := p } })

include slot

theorem State.moveManual_runs (inside : k < 4) (running : o.phase = .ramping ∨ o.phase = .flowing) : s.moveManual k p o
    = if (s.passage k).sluice.position < p then (s.retargeted k p o .ramping).when (decide (o.phase = .flowing)) (State.stepUp k)
      else if (s.passage k).sluice.position = p then s.retargeted k p o .flowing
      else (s.retargeted k p o .flowing).lower k p := by
  have set (phase : OpPhase) : State.setOp k (fun x => { x with phase := phase })
      (State.setSluice k (fun x => { x with target := p }) (s.setOp k (fun y => { y with target := p }))) = s.retargeted k p o phase := by
    refine (congrArg (State.setOp k _) (State.setPassage_setPassage inside _ _ s)).trans
      ((State.setPassage_setPassage inside _ _ s).trans (State.setPassage_congr ?_))
    simp [slot]
  have position : ((s.setOp k (fun y => { y with target := p })).passage k).sluice.position = (s.passage k).sluice.position := by
    rw [State.passage_setOp_same inside]
  refine (if_pos running).trans ?_
  simp only [State.retarget, set, position]

omit slot in
/-- An operation as a manual request leaves it, taken from its transit with a new target (R48). -/
def Op.takenOver (o : Op) (p : Nat) : Op :=
  { o with
    transit := none, purpose := .manual, target := p, phase := .waiting, stall := none, timer := none
    startReading := none, endReading := none, predicted := none, aborted := false
    highWater := o.highWater && decide (o.phase = .waiting) }

omit slot in
/-- The end reading that a take-over captures for its report goes with the other captures. -/
theorem State.captured_takenOver : (s.captured k o).takenOver p = o.takenOver p := by
  unfold State.captured
  split <;> rfl

theorem State.takeOver_eq (inside : k < 4) : s.takeOver k p o = State.push (.examine k)
    (State.setPassage k (fun q => { q with slot := some (o.takenOver p), sluice := { q.sluice with rampTimer := none } })
      (s.pushAll (s.reportTasks k (s.captured k o) .takenOver))) := by
  have set : State.setOp k (fun y => y.takenOver p) (State.setSluice k (fun x => { x with rampTimer := none })
      (s.setPassage k (fun q => { q with slot := some (s.captured k o) })))
        = s.setPassage k (fun q => { q with slot := some (o.takenOver p), sluice := { q.sluice with rampTimer := none } }) := by
    refine (congrArg (State.setOp k _) (State.setPassage_setPassage inside _ _ s)).trans
      ((State.setPassage_setPassage inside _ _ s).trans (State.setPassage_congr ?_))
    rw [Option.map_some, State.captured_takenOver]
  simp only [State.takeOver, State.captured_slot inside slot, Option.getD_some]
  rw [State.captureEnd_set slot]
  exact congrArg (fun x : State => State.push (.examine k) (x.pushAll (s.reportTasks k (s.captured k o) .takenOver))) set

end

/-! ## Creation (R28, R29) -/

theorem State.createOp_eq {s : State} {k : Nat} (inside : k < 4) (purpose : Purpose) (transit : Option Nat) (target : Nat) :
    s.createOp k purpose transit target = if s.unclaimed k
      then State.push (.examine k) (State.setClaims (s.chambersOf k) (some k) { s with pcu := { s.pcu with
        passages := s.pcu.passages.set k
          { s.passage k with slot := some { Op.fresh purpose transit target s.pcu.nextOrder with claimsHeld := true } }
        nextOrder := s.pcu.nextOrder + 1 } })
      else s.enterSlot k purpose transit target := by
  unfold State.createOp
  by_cases free : s.unclaimed k = true
  · rw [if_pos free, if_pos free]
    refine congrArg (State.push _) ?_
    exact State.setPassage_setPassage inside (fun p => { p with slot := some (Op.fresh purpose transit target s.pcu.nextOrder) })
      (fun p => { p with slot := p.slot.map (fun o => { o with claimsHeld := true }) })
      (State.setClaims (s.chambersOf k) (some k) { s with pcu := { s.pcu with nextOrder := s.pcu.nextOrder + 1 } })
  · rw [if_neg free, if_neg free]

/-! ## MANUAL_SLUICE (R45, R47, R48) -/

section
variable {h : Hdr} {k p : Nat} {s : State}

theorem exec_manualSluice_of_block (taken : s.takes h 17) {u : State} {r : Answer}
    (block : State.doManualSluice k p (s.heard h) = (u, r)) : exec (.manualSluice h k p) s = .next (State.replied h 17 r u) :=
  congrArg Host.Outcome.next (State.takeRequest_of_block taken rfl block)

theorem State.positionOk_iff : s.positionOk p = true ↔ p ≤ 8 ∧ (p = 0 ∨ s.flight.n.isSome = true) := by
  simp [State.positionOk]

theorem Passage.manualShutting_iff (q : Passage) :
    q.manualShutting = true ↔ ∃ o, q.slot = some o ∧ o.purpose = .manual ∧ o.phase = .shutting := by
  unfold Passage.manualShutting
  cases q.slot <;> simp

theorem State.doManualSluice_admitted (used : s.inUse k = true) (position : s.positionOk p = true)
    (admitted : s.manualAdmitted k = true) : s.doManualSluice k p = s.manualSluice k p := by
  simp only [State.doManualSluice, used, position, admitted, Bool.not_true, Bool.false_eq_true, if_false, if_true]

theorem State.doManualSluice_outside (used : s.inUse k = true) (outside : 8 < p ∨ (p ≠ 0 ∧ s.flight.n = none)) :
    s.doManualSluice k p = s.refusePassage k .outOfRange := by
  have bad : s.positionOk p = false := by
    rw [Bool.eq_false_iff, Ne, State.positionOk_iff]
    rintro ⟨low, flight⟩
    exact outside.elim (Nat.not_lt.2 low) fun high => flight.elim high.1 fun set => by simp [high.2] at set
  simp only [State.doManualSluice, used, bad, Bool.not_true, Bool.not_false, Bool.false_eq_true, if_false, if_true]

theorem State.doManualSluice_barred (used : s.inUse k = true) (position : s.positionOk p = true) (barred : s.manualAdmitted k = false) :
    s.doManualSluice k p = s.refusePassage k .wrongState := by
  simp only [State.doManualSluice, used, position, barred, Bool.not_true, Bool.false_eq_true, if_false]

theorem State.manualSluice_shutting {o : Op} (up : p ≠ 0) (slot : (s.passage k).slot = some o) (manual : o.purpose = .manual)
    (shutting : o.phase = .shutting) : s.manualSluice k p = s.refusePassage k .wrongState :=
  (if_neg up).trans (if_pos (.inr ((Passage.manualShutting_iff _).2 ⟨o, slot, manual, shutting⟩)))

theorem State.manualSluice_raises (up : p ≠ 0) (sound : (s.passage k).sluice.state ≠ .fault)
    (free : ∀ o, (s.passage k).slot = some o → o.purpose = .manual → o.phase ≠ .shutting) :
    s.manualSluice k p = (s.manualRaise k p).acceptPassage k := by
  refine (if_neg up).trans (if_neg ?_)
  rw [Passage.manualShutting_iff]
  rintro (fault | ⟨o, slot, manual, shutting⟩)
  · exact sound fault
  · exact free o slot manual shutting

theorem State.manualSluice_free (up : p ≠ 0) (sound : (s.passage k).sluice.state ≠ .fault) (slot : (s.passage k).slot = none) :
    s.manualSluice k p = (s.createOp k .manual none p).acceptPassage k := by
  have free (x : Op) (same : (s.passage k).slot = some x) (_ : x.purpose = .manual) : x.phase ≠ .shutting :=
    absurd (slot.symm.trans same) (nofun)
  simp only [State.manualSluice_raises up sound free, State.manualRaise, slot]

theorem State.manualSluice_own {o : Op} (up : p ≠ 0) (sound : (s.passage k).sluice.state ≠ .fault)
    (slot : (s.passage k).slot = some o) (manual : o.purpose = .manual) (phase : o.phase ≠ .shutting) :
    s.manualSluice k p = (s.moveManual k p o).acceptPassage k := by
  have free (x : Op) (same : (s.passage k).slot = some x) (_ : x.purpose = .manual) : x.phase ≠ .shutting := by
    rwa [Option.some.inj (same.symm.trans slot)]
  simp only [State.manualSluice_raises up sound free, State.manualRaise, slot, manual, if_true]

theorem State.manualSluice_other {o : Op} (up : p ≠ 0) (sound : (s.passage k).sluice.state ≠ .fault)
    (slot : (s.passage k).slot = some o) (other : o.purpose ≠ .manual) :
    s.manualSluice k p = (s.takeOver k p o).acceptPassage k := by
  have free (x : Op) (same : (s.passage k).slot = some x) (manual : x.purpose = .manual) : x.phase ≠ .shutting := by
    rw [Option.some.inj (same.symm.trans slot)] at manual
    exact absurd manual other
  simp only [State.manualSluice_raises up sound free, State.manualRaise, slot, other, if_false]

end

/-- Settles O40. -/
theorem manualSluiceActs : Obligations.ManualSluiceActs := by
  refine ⟨?_, ?_, ?_, ?_, ?_, ?_⟩
  · intro h k p s taken u o refused done
    have row {t : State} {r : Answer} (block : u.doManualSluice k p = (t, r)) :
        exec (.manualSluice h k p) s = .next (State.replied h 17 r t) := exec_manualSluice_of_block taken block
    refine ⟨fun unused => row (if_pos ?_), fun used outside => row (State.doManualSluice_outside used outside),
      fun used low flight => ?_⟩
    · rw [show u.inUse k = false from unused]
      rfl
    have position : u.positionOk p = true := State.positionOk_iff.2 ⟨low, flight⟩
    refine ⟨fun barred => row (State.doManualSluice_barred used position barred), fun admitted => ?_⟩
    have through := State.doManualSluice_admitted (s := u) (k := k) (p := p) used position admitted
    exact ⟨fun zero => row (through.trans (if_pos zero)),
      fun up fault => row (through.trans ((if_neg up).trans (if_pos (.inl fault)))),
      fun x up slot manual shutting => row (through.trans (State.manualSluice_shutting up slot manual shutting)),
      fun up sound => ⟨fun slot => row (through.trans (State.manualSluice_free up sound slot)),
        fun x slot manual phase => row (through.trans (State.manualSluice_own up sound slot manual phase)),
        fun x slot other => row (through.trans (State.manualSluice_other up sound slot other))⟩⟩
  · intro s k inside x fresh shutting
    refine ⟨State.manualShut_other, fun o slot manual => ?_, State.enterShutting_eq inside⟩
    rw [State.manualShut_manual inside slot manual]
    by_cases shut : (s.passage k).sluice.state = .shut
    · rw [if_pos shut, if_pos shut]
    · rw [if_neg shut, if_neg shut, State.lowerManual, State.passage_setOp_same inside]
      exact if_neg shut
  · intro s k target inside x
    exact ⟨fun fault => ⟨State.lower_fault fault, State.stepUp_fault fault⟩, State.lower_moves, State.lower_there inside,
      State.stepUp_moving, State.stepUp_rest⟩
  · intro s k p o inside slot position running
    refine ⟨fun ramping flowing => State.moveManual_waits (not_or.2 ⟨ramping, flowing⟩), fun phase below => ?_, fun phase below => ?_,
      fun phase there => ?_, fun phase beyond => ?_, ?_⟩
    · rw [State.moveManual_runs slot inside (.inl phase), if_pos below, phase]
      rfl
    · rw [State.moveManual_runs slot inside (.inr phase), if_pos below, phase]
      rfl
    · rw [State.moveManual_runs slot inside phase, if_neg (Nat.not_lt.2 (Nat.le_of_eq there.symm)), if_pos there]
      rfl
    · rw [State.moveManual_runs slot inside phase, if_neg (Nat.not_lt.2 (Nat.le_of_lt beyond)), if_neg (Nat.ne_of_gt beyond)]
      rfl
    · intro reading captured
      have capture : captured = s.captured k o := by
        simp only [captured, State.captured, Option.isNone_iff_eq_none]
        rfl
      rw [capture]
      exact State.takeOver_eq slot inside
  · intro s k target purpose transit inside free o u
    refine ⟨State.unclaimed_iff, fun c => State.mem_chambersOf, ?_⟩
    rw [State.createOp_eq inside]
    by_cases all : s.unclaimed k = true
    · simp only [u, o, free, all, if_true]
      rfl
    · simp only [u, o, free, Bool.eq_false_iff.2 all, Bool.false_eq_true, if_false]
      rfl
  · intro s c chambers owner low high all
    exact ⟨rfl, State.setClaims_get chambers owner s low high⟩

end Sys2Proof.Machine
end

