-- ==== Sys2Proof/Proofs/ModeChanges.lean ====
section
/-! SUPPORT. Changes of mode by request: the tests of RESUME_SERVICE, LEAVE_CONFIG and ENTER_CONFIG, and what the return to SERVICE takes up. Settles O42. -/

namespace Sys2Proof.Machine

/-! ## The first test that fails (R172, R177) -/

section
variable {s : State}

theorem State.doResumeService_refused {b : Blocker} (first : s.resumeBlockers.head? = some b) :
    s.doResumeService = s.refuseAuthority b.status b.detail := by
  obtain ⟨rest, all⟩ := List.head?_eq_some_iff.1 first
  simp only [State.doResumeService, all]

theorem State.doLeaveConfig_refused {b : Blocker} (first : s.leaveBlockers.head? = some b) :
    s.doLeaveConfig = s.refuseAuthority b.status b.detail := by
  obtain ⟨rest, all⟩ := List.head?_eq_some_iff.1 first
  simp only [State.doLeaveConfig, all]

theorem State.doResumeService_passed (passed : s.resumeBlockers = []) :
    s.doResumeService = (s.enterService .resumeService).acceptMode := by
  simp only [State.doResumeService, passed]

theorem State.doLeaveConfig_passed (passed : s.leaveBlockers = []) : s.doLeaveConfig = (s.enterService .leaveConfig).acceptMode := by
  simp only [State.doLeaveConfig, passed]

theorem State.modeBlockers_other {m : Mode} (other : s.auth.mode ≠ m) : s.modeBlockers m = [.mode] := if_neg other

theorem State.modeBlockers_same {m : Mode} (same : s.auth.mode = m) : s.modeBlockers m = [] := if_pos same

theorem State.incompleteBlockers_some {item : ConfigItem} (missing : s.missing = some item) :
    s.incompleteBlockers = [.incomplete item] := by
  rw [State.incompleteBlockers, missing]
  rfl

theorem State.incompleteBlockers_none (missing : s.missing = none) : s.incompleteBlockers = [] := by
  rw [State.incompleteBlockers, missing]
  rfl

theorem State.estopBlockers_set (estop : s.auth.estop = true) : s.estopBlockers = [.estop] := if_pos estop

theorem State.estopBlockers_clear (estop : s.auth.estop = false) : s.estopBlockers = [] := if_neg (Bool.eq_false_iff.1 estop)

theorem Passage.faulted_iff (p : Passage) : p.faulted = true ↔ p.gate.state = .fault ∨ p.sluice.state = .fault := by
  simp [Passage.faulted]

theorem State.faultBlockers_head {k : Nat} (used : k ≤ s.count) (fault : (s.passage k).faulted = true)
    (first : ∀ j, j < k → ¬ (s.passage j).faulted = true) : s.faultBlockers.head? = some (.faultAt k) := by
  rw [State.faultBlockers, List.head?_map, List.head?_filter, State.passagesInUse,
    List.find?_range_eq_some.2 ⟨fault, List.mem_range.2 (Nat.lt_succ_of_le used), fun j before => by simpa using first j before⟩]
  rfl

theorem State.sensorBlockers_head {c : Nat} (low : 1 ≤ c) (used : c ≤ s.count) (held : (s.holderOf c).isSome = true)
    (failed : (s.sensor c).status = .failed)
    (first : ∀ d, 1 ≤ d → d < c → ¬ ((s.holderOf d).isSome = true ∧ (s.sensor d).status = .failed)) :
    s.sensorBlockers.head? = some (.sensorFailedAt c) := by
  obtain ⟨i, rfl⟩ := Nat.exists_eq_add_of_le' low
  rw [State.sensorBlockers, List.head?_map, List.head?_filter, State.chambersInUse, List.find?_map,
    List.find?_range_eq_some.2 ⟨?_, List.mem_range.2 used, fun j before => ?_⟩]
  · rfl
  · simpa using ⟨held, failed⟩
  · refine (Bool.not_eq_true' _).mpr (Bool.eq_false_iff.2 fun both => ?_)
    exact first (j + 1) (Nat.le_add_left 1 j) (Nat.succ_lt_succ before)
      ((Bool.and_eq_true_iff.1 both).imp_right of_decide_eq_true)

end

/-! ## The change to another mode (R171) -/

theorem State.enterService_outer (c : ModeCause) (s : State) :
    (s.enterService c).outer = { s.outer with auth := { s.auth with mode := .service, holdCause := none } } := by
  refine Eq.trans (b := (s.setMode .service none).outer) ?_ rfl
  simp [State.enterService]

theorem State.enterConfigMode_outer (s : State) :
    s.enterConfigMode.outer = { s.outer with auth := { s.auth with mode := .config, holdCause := none } } := by
  refine Eq.trans (b := (s.setMode .config none).outer) ?_ rfl
  simp [State.enterConfigMode]

theorem State.drain_task {s : State} {x : Task} {rest : List Task} (first : s.agenda = x :: rest) (fuel : Nat) :
    s.drain (fuel + 1) = State.drain fuel (State.take x { s with agenda := rest }) := by
  simp only [State.drain, first]

theorem State.drain_calls {s : State} (empty : s.agenda = []) (due : s.callDue = true) (fuel : Nat) :
    s.drain (fuel + 1) = State.drain fuel (State.takeCalling { s with callDue := false }) := by
  simp only [State.drain, empty, due, if_true]

theorem State.drain_idle {s : State} (empty : s.agenda = []) (quiet : s.callDue = false) (fuel : Nat) : s.drain fuel = s := by
  cases fuel with
  | zero => rfl
  | succ n => simp only [State.drain, empty, quiet, Bool.false_eq_true, if_false]

/-- A calling event outside SERVICE leaves the passages and hands on nothing (R83). -/
theorem State.takeCalling_outside {s : State} (outside : s.auth.mode ≠ .service) : s.takeCalling.agenda = s.agenda
    ∧ s.takeCalling.callDue = s.callDue ∧ s.takeCalling.pcu = s.pcu := by
  unfold State.takeCalling
  cases s.arb.autoOn with
  | false => exact ⟨rfl, rfl, rfl⟩
  | true => simp [State.inService, outside, State.block]

theorem State.settle_pcu_outside {s : State} (empty : s.agenda = []) (outside : s.auth.mode ≠ .service) : s.settle.pcu = s.pcu := by
  have drained : (s.drain drainFuel).pcu = s.pcu := by
    cases due : s.callDue with
    | false => rw [State.drain_idle empty due]
    | true =>
      obtain ⟨agenda, callDue, pcu⟩ := State.takeCalling_outside (s := { s with callDue := false }) outside
      rw [drainFuel, State.drain_calls empty due, State.drain_idle (agenda.trans empty) callDue]
      exact pcu
  rw [State.settle, State.reformIdle_pcu]
  exact drained

/-! ## ENTER_CONFIG (R173) -/

section
variable {s : State}

theorem State.doEnterConfig_refused {n : Nat} {d : Detail} (bar : s.configBar = some (n, d)) :
    s.doEnterConfig = s.refuseAuthority (configStatus n) d := by
  simp only [State.doEnterConfig, bar]

theorem State.doEnterConfig_passed (passed : s.configBar = none) : s.doEnterConfig = s.enterConfigMode.acceptMode := by
  simp only [State.doEnterConfig, passed]

theorem State.anySlot_iff : s.passagesInUse.any (fun k => (s.passage k).slot.isSome) = true
    ↔ ∃ k, k ≤ s.count ∧ (s.passage k).slot.isSome = true := by
  simp [State.mem_passagesInUse]

theorem State.anyAjar_iff : s.passagesInUse.any (fun k => !(s.passage k).fullyClosed) = true
    ↔ ∃ k, k ≤ s.count ∧ ¬ ((s.passage k).gate.state = .closed ∧ (s.passage k).sluice.state = .shut) := by
  simp only [List.any_eq_true, State.mem_passagesInUse, Bool.not_eq_true', ← Bool.not_eq_true, Passage.fullyClosed_iff]

theorem State.configBar_config (mode : s.auth.mode = .config) : s.configBar = some (1, .nothing) := if_pos mode

theorem State.configBar_table (mode : s.auth.mode ≠ .config) (table : s.table ≠ []) : s.configBar = some (2, .test 2) :=
  (if_neg mode).trans (if_pos (by simpa using table))

theorem State.configBar_slot (mode : s.auth.mode ≠ .config) (table : s.table = [])
    (slot : ∃ k, k ≤ s.count ∧ (s.passage k).slot.isSome = true) : s.configBar = some (3, .test 3) :=
  (if_neg mode).trans ((if_neg (by simp [table])).trans (if_pos (State.anySlot_iff.2 slot)))

theorem State.configBar_ajar (mode : s.auth.mode ≠ .config) (table : s.table = [])
    (free : ∀ k, k ≤ s.count → (s.passage k).slot = none)
    (ajar : ∃ k, k ≤ s.count ∧ ¬ ((s.passage k).gate.state = .closed ∧ (s.passage k).sluice.state = .shut)) :
    s.configBar = some (4, .test 4) := by
  have none_ : ¬ s.passagesInUse.any (fun k => (s.passage k).slot.isSome) = true := by
    rw [State.anySlot_iff]
    rintro ⟨k, used, slot⟩
    simp [free k used] at slot
  exact (if_neg mode).trans ((if_neg (by simp [table])).trans ((if_neg none_).trans (if_pos (State.anyAjar_iff.2 ajar))))

end

/-! ## The replies -/

section
variable {h : Hdr} {s u : State} {a : Answer}

theorem exec_resumeService_of_block (taken : s.takes h 20) (block : State.doResumeService (s.heard h) = (u, a)) :
    exec (.resumeService h) s = .next (State.replied h 20 a u) :=
  congrArg Host.Outcome.next (State.takeRequest_of_block taken rfl block)

theorem exec_enterConfig_of_block (taken : s.takes h 24) (block : State.doEnterConfig (s.heard h) = (u, a)) :
    exec (.enterConfig h) s = .next (State.replied h 24 a u) :=
  congrArg Host.Outcome.next (State.takeRequest_of_block taken rfl block)

theorem exec_leaveConfig_of_block (taken : s.takes h 25) (block : State.doLeaveConfig (s.heard h) = (u, a)) :
    exec (.leaveConfig h) s = .next (State.replied h 25 a u) :=
  congrArg Host.Outcome.next (State.takeRequest_of_block taken rfl block)

theorem State.refuseAuthority_eq {status : Status} (d : Detail) (settled : status ≠ .pending) :
    s.refuseAuthority status d = (s, { status := status, body := .authority s.auth.mode s.auth.holder none d }) :=
  congrArg (Prod.mk s) (State.authorityAnswer_of_ne_pending settled d s)

theorem Blocker.status_settled (b : Blocker) : b.status ≠ .pending := by
  cases b <;> nofun

theorem exec_resumeService_refused {b : Blocker} (taken : s.takes h 20) (first : s.resumeBlockers.head? = some b) :
    exec (.resumeService h) s = .next (State.replied h 20
      { status := b.status, body := .authority s.auth.mode s.auth.holder none b.detail } (s.heard h)) :=
  exec_resumeService_of_block taken ((State.doResumeService_refused (s := s.heard h) first).trans
    (State.refuseAuthority_eq _ b.status_settled))

theorem exec_leaveConfig_refused {b : Blocker} (taken : s.takes h 25) (first : s.leaveBlockers.head? = some b) :
    exec (.leaveConfig h) s = .next (State.replied h 25
      { status := b.status, body := .authority s.auth.mode s.auth.holder none b.detail } (s.heard h)) :=
  exec_leaveConfig_of_block taken ((State.doLeaveConfig_refused (s := s.heard h) first).trans
    (State.refuseAuthority_eq _ b.status_settled))

theorem exec_enterConfig_refused {n : Nat} {d : Detail} (taken : s.takes h 24) (bar : s.configBar = some (n, d)) :
    exec (.enterConfig h) s = .next (State.replied h 24
      { status := configStatus n, body := .authority s.auth.mode s.auth.holder none d } (s.heard h)) := by
  have settled : configStatus n ≠ .pending := by
    unfold configStatus
    split <;> nofun
  exact exec_enterConfig_of_block taken ((State.doEnterConfig_refused (s := s.heard h) bar).trans (State.refuseAuthority_eq _ settled))

/-- The reply to an accepted change of mode tells the mode entered. -/
theorem State.acceptMode_eq {m : Mode} {x : State} (outer : x.outer = { s.outer with
    auth := { s.auth with mode := m, holdCause := none } }) :
    x.acceptMode = (x.settle, { status := .ok, body := .authority m s.auth.holder none .nothing }) := by
  have auth : x.settle.auth = { s.auth with mode := m, holdCause := none } := congrArg Outer.auth (x.settle_outer.trans outer)
  simp only [State.acceptMode, accepted, State.authorityAnswer_of_ne_pending (show Status.ok ≠ .pending by decide), auth]

theorem exec_resumeService_passed (taken : s.takes h 20) (passed : s.resumeBlockers = []) : exec (.resumeService h) s
    = .next (State.replied h 20 { status := .ok, body := .authority .service s.auth.holder none .nothing }
      ((s.heard h).enterService .resumeService).settle) :=
  exec_resumeService_of_block taken ((State.doResumeService_passed (s := s.heard h) passed).trans
    (State.acceptMode_eq (s := s.heard h) (State.enterService_outer _ _)))

theorem exec_leaveConfig_passed (taken : s.takes h 25) (passed : s.leaveBlockers = []) : exec (.leaveConfig h) s
    = .next (State.replied h 25 { status := .ok, body := .authority .service s.auth.holder none .nothing }
      ((s.heard h).enterService .leaveConfig).settle) :=
  exec_leaveConfig_of_block taken ((State.doLeaveConfig_passed (s := s.heard h) passed).trans
    (State.acceptMode_eq (s := s.heard h) (State.enterService_outer _ _)))

theorem exec_enterConfig_passed (taken : s.takes h 24) (passed : s.configBar = none) : exec (.enterConfig h) s
    = .next (State.replied h 24 { status := .ok, body := .authority .config s.auth.holder none .nothing }
      (s.heard h).enterConfigMode.settle) :=
  exec_enterConfig_of_block taken ((State.doEnterConfig_passed (s := s.heard h) passed).trans
    (State.acceptMode_eq (s := s.heard h) (State.enterConfigMode_outer _)))

/-- The outer parts but for the ports after a change of mode. -/
theorem State.steady_replied_mode {kind : Nat} {m : Mode} {x : State} (outer : x.outer = { (s.heard h).outer with
    auth := { s.auth with mode := m, holdCause := none } }) : (State.replied h kind a x.settle).steady
      = { s.steady with auth := { s.auth with mode := m, holdCause := none } } := by
  rw [State.steady_replied, State.steady_of_outer x.settle_outer]
  simp only [State.steady, outer]
  rfl

end

/-! ## What the return to SERVICE takes up (R41, R123) -/

section
variable {s : State} {k : Nat}

theorem State.resumePassage_free (slot : (s.passage k).slot = none) : s.resumePassage k = s := by
  simp only [State.resumePassage, slot]

theorem State.resumePassage_slot {o : Op} (slot : (s.passage k).slot = some o) : s.resumePassage k
    = if o.phase = .stalled ∧ o.stall = some .hold then s.returnToWaiting k
      else if o.phase = .waiting then s.push (.examine k) else s := by
  simp only [State.resumePassage, slot]

theorem State.returnToWaiting_eq {o : Op} (slot : (s.passage k).slot = some o) : s.returnToWaiting k = State.push (.examine k)
    (s.setPassage k (fun p => { p with slot := some { o with phase := .waiting, stall := none, timer := none, highWater := false } })) :=
  congrArg (State.push _) (State.setOp_eq slot _)

end

section
variable {s : State} {t : Transit} {m : Move}

theorem State.resumeTransit_waiting (waiting : t.state = .waitingNext) : s.resumeTransit t = s.push (.examineNext t.id) := by
  simp only [State.resumeTransit, waiting]

theorem State.resumeTransit_moving (other : t.state ≠ .waitingNext) (move : t.move = some m) : s.resumeTransit t = s.resumeMove t m := by
  unfold State.resumeTransit
  cases state : t.state with
  | waitingNext => exact absurd state other
  | queued | moving | settled => simp only [move]

/-- The move of a transit with its overdue timer stopped, in a phase, owing nothing (R123). -/
def State.again (s : State) (t : Transit) (phase : MovePhase) : State :=
  s.setTransit t.id (fun y => { y with overdue := .stopped, move := y.move.map (fun n => { n with phase := phase, owed := none }) })

/-- The slot of the passage of a move holds the MOVE operation of its transit. -/
def Transit.owns (t : Transit) (k : Nat) (o : Op) : Prop := o.transit = some t.id ∧ o.purpose = .move ∧ t.hasOp k .move = true

theorem State.setTransit_setTransit {id : Nat} {f : Transit → Transit} (kept : ∀ x, (f x).id = x.id) (g : Transit → Transit) :
    (s.setTransit id f).setTransit id g = s.setTransit id (fun x => g (f x)) :=
  congrArg (fun table => { s with table := table }) (map_set_map_set kept)

theorem State.again_equalise : (s.setTransit t.id Transit.stopOverdue).setMove t.id (fun y => { y with phase := .equalise, owed := none })
    = s.again t .equalise :=
  State.setTransit_setTransit (f := Transit.stopOverdue) (fun _ => rfl) _

theorem State.again_opened (phase : MovePhase) : State.setMove t.id (fun y => { y with phase := .opened }) (s.again t phase)
    = s.again t .opened := by
  refine (State.setTransit_setTransit (fun _ => by rfl) _).trans (congrArg (fun f => s.setTransit t.id f) (funext fun y => ?_))
  simp only [Option.map_map]
  rfl

theorem State.reEqualise_request (none_ : ∀ o, (s.passage m.passage).slot = some o → ¬ t.owns m.passage o) :
    s.reEqualise t m = State.push (.request t.id m.passage .move) (s.again t .equalise) := by
  rw [State.reEqualise, State.again_equalise]
  cases slot : (s.passage m.passage).slot with
  | none => rfl
  | some o => exact if_neg (none_ o slot)

theorem State.reEqualise_own {o : Op} (slot : (s.passage m.passage).slot = some o) (own : t.owns m.passage o) :
    s.reEqualise t m = if o.phase = .equalised then (s.again t .opened).orderOpen t.id m.passage else s.again t .equalise := by
  rw [State.reEqualise, State.again_equalise]
  simp only [slot]
  refine (if_pos own).trans ?_
  rw [State.enterOpen, State.again_opened]

theorem Transit.owns_iff {k : Nat} {o : Op} : t.owns k o
    ↔ o.transit = some t.id ∧ o.purpose = .move ∧ ∃ e ∈ t.ops, e.passage = k ∧ e.purpose = .move := by
  simp [Transit.owns, Transit.hasOp]

theorem Transit.hasCascadeOp_iff : t.hasCascadeOp = true ↔ ∃ e ∈ t.ops, e.purpose ≠ .move := by
  simp [Transit.hasCascadeOp]

end

section
variable {s : State} {t : Transit} {m : Move}

theorem State.resumeMove_again (equal : m.phase = .equalise ∨ m.phase = .opened
    ∨ (m.phase = .await ∧ (s.passage m.passage).gate.state ≠ .opened)) : s.resumeMove t m = s.reEqualise t m := by
  rcases equal with phase | phase | ⟨phase, away⟩ <;> simp only [State.resumeMove, phase]
  exact if_neg away

theorem State.resumeMove_await (phase : m.phase = .await) (gate : (s.passage m.passage).gate.state = .opened) :
    s.resumeMove t m = s.setTransit t.id Transit.resumeOverdue := by
  simp only [State.resumeMove, phase, gate, if_true]

theorem State.resumeMove_close (phase : m.phase = .close) (gate : (s.passage m.passage).gate.state ≠ .closed) :
    s.resumeMove t m = s.commandClose false m.passage := by
  simp only [State.resumeMove, phase, gate, if_false]

theorem State.resumeMove_prep (phase : m.phase = .prep) : s.resumeMove t m = s.rePrep t m := by
  simp only [State.resumeMove, phase]

theorem State.rePrep_blocked {c : Nat} (blocked : m.blockedAt = some c) :
    s.rePrep t m = if (s.holderOf c).isSome then s else s.formCascade t.id t.dir m := by
  simp only [State.rePrep, blocked]

theorem State.rePrep_free (free : m.blockedAt = none) :
    s.rePrep t m = if t.hasCascadeOp then s else s.requestCascade t.id t.dir m.cascade := by
  simp only [State.rePrep, free]

theorem State.requestCascade_service {id k : Nat} {dir : Direction} {rest : List Nat} (serving : s.auth.mode = .service) :
    s.requestCascade id dir (k :: rest) = s.push (.request id k (cascadePurpose dir)) :=
  if_pos (decide_eq_true serving)

end

/-- Settles O42. -/
theorem modeRequests : Obligations.ModeRequests := by
  refine ⟨?_, ?_, ?_, ?_, ?_, ?_, ?_, ?_⟩
  · intro h s back answer
    exact ⟨fun taken passed => exec_resumeService_passed taken passed, fun taken passed => exec_leaveConfig_passed taken passed⟩
  · intro h s taken u refused faulted barred
    have first {b : Blocker} (bar : s.resumeBlockers.head? = some b) : refused b.status b.detail := exec_resumeService_refused taken bar
    have head : s.resumeBlockers.head? = (s.modeBlockers .safeHold).head?.or (s.incompleteBlockers.head?.or
        (s.estopBlockers.head?.or (s.faultBlockers.head?.or s.sensorBlockers.head?))) := by
      simp only [State.resumeBlockers, List.head?_append, Option.or_assoc]
    refine ⟨fun other => first (b := .mode) ?_, fun mode => ⟨fun item missing => first (b := .incomplete item) ?_, fun complete =>
      ⟨fun estop => first (b := .estop) ?_, fun clear => ⟨fun k used fault before => first (b := .faultAt k) ?_, fun sound =>
        ⟨fun c low used bar before => first (b := .sensorFailedAt c) ?_, fun good => ?_⟩⟩⟩⟩⟩
    · rw [head, State.modeBlockers_other other]
      rfl
    · rw [head, State.modeBlockers_same mode, State.incompleteBlockers_some missing]
      rfl
    · rw [head, State.modeBlockers_same mode, State.incompleteBlockers_none complete, State.estopBlockers_set estop]
      rfl
    · rw [head, State.modeBlockers_same mode, State.incompleteBlockers_none complete, State.estopBlockers_clear clear,
        State.faultBlockers_head used ((Passage.faulted_iff _).2 fault) fun j earlier c => before j earlier ((Passage.faulted_iff _).1 c)]
      rfl
    · rw [head, State.modeBlockers_same mode, State.incompleteBlockers_none complete, State.estopBlockers_clear clear,
        State.faultBlockers_eq_nil.2 sound, State.sensorBlockers_head low used (State.holderOf_isSome.2 bar.1) bar.2
          fun d low' earlier c => before d low' earlier ⟨State.holderOf_isSome.1 c.1, c.2⟩]
      rfl
    · have status (x : Sensor) (up : x.status ≠ .failed) : x.status = .good := by
        cases is : x.status with
        | good => rfl
        | failed => exact absurd is up
      have passed : s.resumeBlockers = [] := State.resumeBlockers_eq_nil.2 ⟨mode, complete, clear, sound,
        fun c low used held => status _ fun failed => good c low used ⟨held, failed⟩⟩
      exact ⟨passed, _, exec_resumeService_passed taken passed, State.steady_replied_mode (State.enterService_outer _ _)⟩
  · intro h s taken u refused closed
    have first {n : Nat} {d : Detail} (bar : s.configBar = some (n, d)) : refused (configStatus n) d := exec_enterConfig_refused taken bar
    refine ⟨fun mode => first (State.configBar_config mode), fun mode => ⟨fun table => first (State.configBar_table mode table),
      fun table => ⟨fun slot => first (State.configBar_slot mode table slot), fun free =>
        ⟨fun ajar => first (State.configBar_ajar mode table free ajar), fun shut => ?_⟩⟩⟩⟩
    have passed : s.configBar = none := State.configBar_eq_none.2 ⟨mode, table, free, shut⟩
    refine ⟨_, exec_enterConfig_passed taken passed, State.steady_replied_mode (State.enterConfigMode_outer _), fun empty => ?_⟩
    have outside : u.enterConfigMode.auth.mode = .config := congrArg (fun o : Outer => o.auth.mode) (State.enterConfigMode_outer u)
    have agenda : u.enterConfigMode.agenda = [] := by
      refine Eq.trans ?_ empty
      unfold State.enterConfigMode State.blockNotService
      split <;> rfl
    exact (State.settle_pcu_outside agenda (by rw [outside]; nofun)).trans u.enterConfigMode_pcu
  · intro h s taken u refused
    have first {b : Blocker} (bar : s.leaveBlockers.head? = some b) : refused b.status b.detail := exec_leaveConfig_refused taken bar
    have head : s.leaveBlockers.head?
        = (s.modeBlockers .config).head?.or (s.incompleteBlockers.head?.or s.estopBlockers.head?) := by
      simp only [State.leaveBlockers, List.head?_append, Option.or_assoc]
    refine ⟨fun other => first (b := .mode) ?_, fun mode => ⟨fun item missing => first (b := .incomplete item) ?_, fun complete =>
      ⟨fun estop => first (b := .estop) ?_, fun clear => ?_⟩⟩⟩
    · rw [head, State.modeBlockers_other other]
      rfl
    · rw [head, State.modeBlockers_same mode, State.incompleteBlockers_some missing]
      rfl
    · rw [head, State.modeBlockers_same mode, State.incompleteBlockers_none complete, State.estopBlockers_set estop]
      rfl
    · have passed : s.leaveBlockers = [] := State.leaveBlockers_eq_nil.2 ⟨mode, complete, clear⟩
      exact ⟨passed, _, exec_leaveConfig_passed taken passed, State.steady_replied_mode (State.enterService_outer _ _)⟩
  · intro h s taken
    exact congrArg Host.Outcome.next (State.takeRequest_of_block taken rfl (State.acceptAuthority_ok _))
  · intro s
    rfl
  · intro s k inside
    refine ⟨State.resumePassage_free, fun o slot => ⟨fun phase stall => ?_, fun phase => ?_, fun waiting other => ?_⟩⟩
    all_goals rw [State.resumePassage_slot slot]
    · exact (if_pos ⟨phase, stall⟩).trans (State.returnToWaiting_eq slot)
    · exact (if_neg fun c => by rw [phase] at c; exact nomatch c.1).trans (if_pos phase)
    · exact (if_neg other).trans (if_neg waiting)
  · intro s t
    refine ⟨State.resumeTransit_waiting, fun m other move inside => ?_⟩
    rw [State.resumeTransit_moving other move]
    intro g put again own held
    refine ⟨fun equal => ?_, fun phase gate => ?_, State.resumeMove_close, fun phase => ?_⟩
    · rw [State.resumeMove_again equal]
      refine ⟨fun none_ => State.reEqualise_request fun o slot own => none_ o slot (Transit.owns_iff.1 own), fun o slot own => ?_⟩
      rw [State.reEqualise_own slot (Transit.owns_iff.2 own)]
      exact ⟨fun equalised => if_pos equalised, fun open_ _ => if_neg open_⟩
    · refine (State.resumeMove_await phase gate).trans (congrArg put (funext fun y => ?_))
      obtain ⟨_, _, _, _, _, _, _, _, _, _, _, _, overdue⟩ := y
      cases overdue <;> rfl
    · rw [State.resumeMove_prep phase]
      refine ⟨fun c blocked => ?_, fun free ops => ?_, fun k rest free ops cascade serving => ?_⟩
      · rw [State.rePrep_blocked blocked]
        exact ⟨fun h => if_pos (State.holderOf_isSome.2 h), fun h => if_neg fun c => h (State.holderOf_isSome.1 c)⟩
      · rw [State.rePrep_free free]
        exact if_pos (Transit.hasCascadeOp_iff.2 ops)
      · have none_ : ¬ t.hasCascadeOp = true := by
          rw [Transit.hasCascadeOp_iff]
          rintro ⟨e, mem, other⟩
          exact other (ops e mem)
        rw [State.rePrep_free free, if_neg none_, cascade, State.requestCascade_service serving]
        cases t.dir <;> rfl

end Sys2Proof.Machine
end

