-- ==== Sys2Proof/Proofs/WaitingOperations.lean ====
section
/-! SUPPORT. A waiting operation: when it is examined, starts or waits, which of them takes released chambers, what a change of a passage does beside it, and RETRY_LEVEL and VISUAL_EQUAL. Settles O38. -/

namespace Sys2Proof.Machine

/-! ## The conditions to start (R31) -/

/-- Both sensors beside a passage are GOOD and neither record is STALE (R31). -/
def State.sensorsReady (s : State) (k : Nat) : Prop := (s.sensor k).status = .good ∧ (s.sensor (k + 1)).status = .good
  ∧ (s.sensor k).level.stale = false ∧ (s.sensor (k + 1)).level.stale = false

/-- The overflow check of a passage fails, with data to predict from (R31). -/
def State.atRisk (s : State) (k : Nat) : Prop := (s.sensor k).level.stale = false ∧ (s.sensor (k + 1)).level.stale = false
  ∧ s.overflowPasses (s.receiver k) (s.predictedLevel k) = false

section
variable {s : State} {k : Nat} {o : Op}

theorem State.predict_fresh (above : (s.sensor k).level.stale = false) (below : (s.sensor (k + 1)).level.stale = false) :
    s.predict k = .level (s.predictedLevel k) (s.sensor k).level.mean (s.sensor (k + 1)).level.mean (s.receiver k)
      (s.overflowPasses (s.receiver k) (s.predictedLevel k)) := State.predictIn_of_fresh s.count above below

/-- The answer to a prediction request by the two records: both hold data, or it has none. -/
theorem State.predict_cases (s : State) (k : Nat) :
    ((s.sensor k).level.stale = false ∧ (s.sensor (k + 1)).level.stale = false)
    ∨ (¬ ((s.sensor k).level.stale = false ∧ (s.sensor (k + 1)).level.stale = false) ∧ ∃ l, s.predict k = .noData l) := by
  by_cases fresh : (s.sensor k).level.stale = false ∧ (s.sensor (k + 1)).level.stale = false
  · exact .inl fresh
  · refine .inr ⟨fresh, ?_⟩
    have stale : (s.sensor k).level.stale = true ∨ (s.sensor (k + 1)).level.stale = true := by
      rcases not_and_or.1 fresh with h | h
      · exact .inl (by simpa using h)
      · exact .inr (by simpa using h)
    obtain ⟨l, none_, -⟩ := State.predictIn_of_stale s.count stale
    exact ⟨l, none_⟩

theorem State.hasData_iff : (s.predict k).hasData = true ↔ (s.sensor k).level.stale = false ∧ (s.sensor (k + 1)).level.stale = false := by
  rcases s.predict_cases k with fresh | ⟨stale, l, none_⟩
  · rw [State.predict_fresh fresh.1 fresh.2]
    exact ⟨fun _ => fresh, fun _ => rfl⟩
  · rw [none_]
    exact ⟨nofun, fun c => absurd c stale⟩

theorem State.overflows_iff : (s.predict k).overflows = true ↔ s.atRisk k := by
  rcases s.predict_cases k with fresh | ⟨stale, l, none_⟩
  · rw [State.predict_fresh fresh.1 fresh.2, Prediction.overflows, Bool.not_eq_true']
    exact ⟨fun fails => ⟨fresh.1, fresh.2, fails⟩, fun risk => risk.2.2⟩
  · rw [none_]
    exact ⟨nofun, fun risk => absurd ⟨risk.1, risk.2.1⟩ stale⟩

theorem State.sensorsServe_iff : s.sensorsServe k = true ↔ s.sensorsReady k := by
  simp only [State.sensorsServe, State.sensorsGood, Bool.and_eq_true, decide_eq_true_eq, State.hasData_iff, State.sensorsReady, and_assoc]

theorem Passage.exempt_iff (p : Passage) : p.exempt o = true ↔ o.purpose = .manual ∧ p.permit = true := by
  simp [Passage.exempt]

theorem State.mayStart_iff (used : k ≤ s.count) : s.mayStart k o = true ↔ (s.auth.mode = .service ∨ o.purpose = .manual)
    ∧ ((o.purpose = .manual ∧ (s.passage k).permit = true) ∨ (s.sensorsReady k ∧ ¬ s.atRisk k)) ∧ s.neighboursClosed k
    ∧ (s.passage k).sluice.state ≠ .fault ∧ (s.passage k).sluice.state ≠ .moving := by
  simp only [State.mayStart, Bool.and_eq_true, Bool.or_eq_true, decide_eq_true_eq, Bool.not_eq_true', decide_eq_false_iff_not,
    ← Bool.not_eq_true (Prediction.overflows _), State.overflows_iff, State.sensorsServe_iff, Passage.exempt_iff,
    State.interlockOk_iff used, and_assoc, ne_eq]

/-! ## A waiting operation that stays (R31) -/

theorem State.waitReason_none (clear : (o.purpose = .manual ∧ (s.passage k).permit = true) ∨ (s.sensorsReady k ∧ ¬ s.atRisk k)) :
    s.waitReason k o = none := by
  by_cases exempt : (s.passage k).exempt o = true
  · exact if_pos exempt
  · obtain ⟨ready, safe⟩ := clear.resolve_left fun c => exempt ((Passage.exempt_iff _).2 c)
    exact (if_neg exempt).trans ((if_neg fun c => safe (State.overflows_iff.1 c)).trans (if_pos (State.sensorsServe_iff.2 ready)))

theorem State.waitReason_sensor (bound : ¬ (o.purpose = .manual ∧ (s.passage k).permit = true)) (safe : ¬ s.atRisk k)
    (out : ¬ s.sensorsReady k) : s.waitReason k o = some .sensor :=
  (if_neg fun c => bound ((Passage.exempt_iff _).1 c)).trans
    ((if_neg fun c => safe (State.overflows_iff.1 c)).trans (if_neg fun c => out (State.sensorsServe_iff.1 c)))

theorem State.waitReason_risk (bound : ¬ (o.purpose = .manual ∧ (s.passage k).permit = true)) (risk : s.atRisk k) :
    s.waitReason k o = some .overflowRisk :=
  (if_neg fun c => bound ((Passage.exempt_iff _).1 c)).trans (if_pos (State.overflows_iff.2 risk))

/-- The operation of a passage replaced. -/
def State.withOp (s : State) (k : Nat) (o : Op) : State := s.setPassage k (fun p => { p with slot := some o })

theorem State.keepWaiting_shows (slot : (s.passage k).slot = some o) (plain : s.waitReason k o ≠ some .overflowRisk) :
    s.keepWaiting k o = s.withOp k { o with stall := s.waitReason k o } := by
  rw [State.keepWaiting, decide_eq_false plain]
  simp only [Bool.or_false]
  exact State.setOp_eq slot _

theorem State.keepWaiting_risk (slot : (s.passage k).slot = some o) (risk : s.waitReason k o = some .overflowRisk) :
    s.keepWaiting k o = State.raiseAll (s.highWaterNotice k o) (s.withOp k { o with stall := some .overflowRisk, highWater := true }) := by
  rw [State.keepWaiting, decide_eq_true risk, risk]
  simp only [Bool.or_true]
  exact congrArg (State.raiseAll _) (State.setOp_eq slot _)

theorem State.highWaterNotice_once (raised : o.highWater = true) : s.highWaterNotice k o = [] := by
  unfold State.highWaterNotice
  rw [raised]
  split
  · next absurd_ => cases absurd_
  · rfl

theorem State.highWaterNotice_first {p : Nat} (fresh : o.highWater = false) (risk : s.atRisk k) (receiver : s.receiver k = some p) :
    s.highWaterNotice k o = [.highWater k (s.predictedLevel k) (s.chamber p).hMax] := by
  obtain ⟨above, below, fails⟩ := risk
  rw [receiver] at fails
  simp only [State.highWaterNotice, State.predict_fresh above below, fresh, fails, receiver]

theorem State.examine_other (slot : (s.passage k).slot = some o) (other : ¬ (o.phase = .waiting ∧ o.claimsHeld = true)) :
    s.examine k = s := by
  simp only [State.examine, slot]
  exact if_neg other

theorem State.examine_waiting (slot : (s.passage k).slot = some o) (waiting : o.phase = .waiting) (held : o.claimsHeld = true) :
    s.examine k = if s.mayStart k o then s.startOp k o else s.keepWaiting k o := by
  simp only [State.examine, slot]
  exact if_pos ⟨waiting, held⟩

/-! ## The start (R32, R38) -/

/-- A passage as the start of an operation leaves it in a phase: its captures, its timer, and the settings copied (R32). -/
def State.begun (s : State) (k : Nat) (o : Op) (phase : OpPhase) : State :=
  s.setPassage k (fun p => { p with
    slot := some { s.captureStart k o with phase := phase, stall := none, timer := seconds s.timing.eqLimit, highWater := false }
    sluice := s.copySettings o p.sluice })

theorem State.captureStart_phase : (s.captureStart k o).phase = o.phase := (State.captureStart_claimsHeld s k o).2

theorem State.startOp_eq (inside : k < 4) (slot : (s.passage k).slot = some o) : s.startOp k o
    = if s.equal k then (s.begun k o o.phase).reachEqualised k
      else if (s.passage k).sluice.position < (s.copySettings o (s.passage k).sluice).target then (s.begun k o .ramping).stepUp k
      else if (s.passage k).sluice.position = (s.copySettings o (s.passage k).sluice).target then s.begun k o .flowing
      else (s.begun k o .flowing).lower k (s.copySettings o (s.passage k).sluice).target := by
  have set : (s.setSluice k (s.copySettings o)).setOp k (fun _ =>
      { s.captureStart k o with stall := none, timer := seconds s.timing.eqLimit, highWater := false }) = s.begun k o o.phase := by
    refine (State.setPassage_setPassage inside _ _ s).trans (State.setPassage_congr ?_)
    rw [← State.captureStart_phase (s := s) (k := k) (o := o)]
    simp [slot]
  have turn (phase : OpPhase) : (s.begun k o o.phase).setOp k (fun y => { y with phase := phase }) = s.begun k o phase :=
    State.setPassage_setPassage inside _ _ s
  have sluice : ((s.begun k o o.phase).passage k).sluice = s.copySettings o (s.passage k).sluice := by
    rw [State.begun, State.passage_setPassage_same inside]
  simp only [State.startOp, set, turn, sluice]
  rfl

end

/-! ## Arbitration (R30) -/

section
variable {s : State} {a b : Op}

theorem State.ranksAhead_iff : s.ranksAhead a b = true
    ↔ s.claimRank b < s.claimRank a ∨ (s.claimRank a = s.claimRank b ∧ a.order < b.order) := by
  simp only [State.ranksAhead, Bool.or_eq_true, Bool.and_eq_true, decide_eq_true_eq]

theorem State.ranksAhead_asymm (ahead : s.ranksAhead a b = true) : s.ranksAhead b a = false := by
  rw [Bool.eq_false_iff, Ne, State.ranksAhead_iff]
  have := State.ranksAhead_iff.1 ahead
  omega

theorem State.claimRank_none (free : a.transit = none) : s.claimRank a = 0 := by
  simp only [State.claimRank, free]

theorem State.claimRank_some (owned : a.transit.isSome = true) :
    s.claimRank a = 1 + ((a.transit.bind s.transit).map Transit.lead).getD 0 := by
  obtain ⟨id, owned⟩ := Option.isSome_iff_exists.1 owned
  simp only [State.claimRank, owned, Option.bind_some]

/-- An operation ahead of all others of a list is its first-ranked. -/
theorem State.bestOf_eq {l : List (Nat × Op)} {x : Nat × Op} (mem : x ∈ l)
    (ahead : ∀ y ∈ l, y ≠ x → s.ranksAhead x.2 y.2 = true) : s.bestOf l = some x := by
  induction l with
  | nil => cases mem
  | cons z rest ih =>
    have behind (y : Nat × Op) (here : y ∈ rest) := ahead y (List.mem_cons_of_mem z here)
    unfold State.bestOf
    by_cases first : z = x
    · cases best : s.bestOf rest with
      | none => exact congrArg some first
      | some y =>
        by_cases same : y = x
        · simp [first, same]
        · have slower := State.ranksAhead_asymm (behind y (State.bestOf_mem best) same)
          simp [first, slower]
    · rw [ih ((List.mem_cons.1 mem).resolve_left fun c => first c.symm) behind]
      exact if_pos (ahead z List.mem_cons_self first)

end

/-- The operation of passage k waits without claims, wants a released chamber and finds all its chambers unclaimed (R30). -/
def State.wants (s : State) (released : List Nat) (k : Nat) (o : Op) : Prop :=
  k ≤ s.count ∧ (s.passage k).slot = some o ∧ o.phase = .waiting ∧ o.claimsHeld = false
    ∧ (∃ c ∈ released, c ∈ s.chambersOf k) ∧ ∀ c ∈ s.chambersOf k, s.pcu.claims.get c = none

/-- The candidates for a release of chambers, in the order of their passages (R30). -/
def State.candidates (s : State) (released : List Nat) : List (Nat × Op) := s.passagesInUse.filterMap (s.candidate released)

section
variable {s : State} {released : List Nat} {k : Nat} {o : Op}

theorem State.mem_candidates : (k, o) ∈ s.candidates released ↔ s.wants released k o := by
  have any : ((s.chambersOf k).any fun c => released.contains c) = true ↔ ∃ c ∈ released, c ∈ s.chambersOf k := by
    simp [and_comm]
  have free : s.unclaimed k = true ↔ ∀ c ∈ s.chambersOf k, s.pcu.claims.get c = none := by
    simp [State.unclaimed]
  rw [State.candidates, List.mem_filterMap]
  constructor
  · rintro ⟨j, used, found⟩
    obtain ⟨rfl, slot, waiting, without, wanted, unclaimed⟩ := State.candidate_some found
    exact ⟨State.mem_passagesInUse.1 used, slot, waiting, without, any.1 wanted, free.1 unclaimed⟩
  · rintro ⟨used, slot, waiting, without, wanted, unclaimed⟩
    refine ⟨k, State.mem_passagesInUse.2 used, ?_⟩
    have all : o.phase = .waiting ∧ ¬ o.claimsHeld = true ∧ ((s.chambersOf k).any fun c => released.contains c) = true
        ∧ s.unclaimed k = true := ⟨waiting, by simp [without], any.2 wanted, free.2 unclaimed⟩
    simp only [State.candidate, slot]
    exact if_pos all

/-- A grant of arbitration: the claims taken, and the operation examined (R29, R30). -/
def State.grant (s : State) (k : Nat) : State := (s.takeClaims k).push (.examine k)

theorem State.arbitrate_none (empty : s.bestOf (s.candidates released) = none) (rounds : Nat) : s.arbitrate released rounds = s := by
  unfold State.candidates at empty
  cases rounds with
  | zero => rfl
  | succ n => simp only [State.arbitrate, empty]

theorem State.arbitrate_some (best : s.bestOf (s.candidates released) = some (k, o)) (rounds : Nat) :
    s.arbitrate released (rounds + 1) = State.arbitrate released rounds (s.grant k) := by
  unfold State.candidates at best
  simp only [State.arbitrate, best]
  rfl

theorem State.bestOf_none {l : List (Nat × Op)} (none_ : s.bestOf l = none) : l = [] := by
  cases l with
  | nil => rfl
  | cons x rest =>
    unfold State.bestOf at none_
    split at none_
    · cases none_
    · split at none_ <;> cases none_

theorem State.grant_eq (slot : (s.passage k).slot = some o) : s.grant k = State.push (.examine k)
    (State.setPassage k (fun p => { p with slot := some { o with claimsHeld := true } }) (s.setClaims (s.chambersOf k) (some k))) :=
  congrArg (State.push _) (State.setOp_eq (s := s.setClaims (s.chambersOf k) (some k)) slot _)

/-- The chambers that no operation claims. -/
def State.freeChambers (s : State) : List Nat := [1, 2, 3].filter (fun c => (s.pcu.claims.get c).isNone)

theorem State.mem_freeChambers {c : Nat} : c ∈ s.freeChambers ↔ c ∈ [1, 2, 3] ∧ s.pcu.claims.get c = none := by
  simp [State.freeChambers]

theorem State.wants_free (wanted : s.wants released k o) (flight : s.count ≤ 3) : ∃ c ∈ s.chambersOf k, c ∈ s.freeChambers := by
  obtain ⟨-, -, -, -, ⟨c, -, mine⟩, unclaimed⟩ := wanted
  obtain ⟨-, low, high⟩ := State.mem_chambersOf.1 mine
  refine ⟨c, mine, State.mem_freeChambers.2 ⟨?_, unclaimed c mine⟩⟩
  simp only [List.mem_cons, List.not_mem_nil, or_false]
  omega

/-- A grant claims a chamber that was free. -/
theorem State.grant_freeChambers (wanted : s.wants released k o) (flight : s.count ≤ 3) :
    (s.grant k).freeChambers.length < s.freeChambers.length := by
  have claim (d : Nat) (mem : d ∈ [1, 2, 3]) : (s.grant k).pcu.claims.get d = if d ∈ s.chambersOf k then some k else s.pcu.claims.get d := by
    simp only [List.mem_cons, List.not_mem_nil, or_false] at mem
    exact State.setClaims_get _ _ s (by omega) (by omega)
  have fewer : (s.grant k).freeChambers = s.freeChambers.filter (fun d => decide (d ∉ s.chambersOf k)) := by
    rw [State.freeChambers, State.freeChambers, List.filter_filter]
    refine List.filter_congr fun d mem => ?_
    rw [claim d mem]
    by_cases mine : d ∈ s.chambersOf k <;> simp [mine]
  obtain ⟨c, mine, free⟩ := State.wants_free wanted flight
  rw [fewer]
  refine List.length_filter_lt_length_iff_exists.2 ⟨c, free, ?_⟩
  simpa using mine

/-- Rounds enough for the free chambers leave no candidate. -/
theorem State.arbitrate_exhausts (rounds : Nat) (flight : s.count ≤ 3) (enough : s.freeChambers.length ≤ rounds) (k : Nat) (o : Op) :
    ¬ (s.arbitrate released rounds).wants released k o := by
  induction rounds generalizing s with
  | zero =>
    intro wanted
    obtain ⟨c, -, free⟩ : ∃ c ∈ s.chambersOf k, c ∈ s.freeChambers := State.wants_free wanted flight
    rw [List.length_eq_zero_iff.1 (Nat.le_zero.1 enough)] at free
    cases free
  | succ n ih =>
    cases best : s.bestOf (s.candidates released) with
    | none =>
      rw [State.arbitrate_none best]
      intro wanted
      have mem := State.mem_candidates.2 wanted
      rw [State.bestOf_none best] at mem
      cases mem
    | some x =>
      obtain ⟨j, y⟩ := x
      rw [State.arbitrate_some best]
      have less := State.grant_freeChambers (State.mem_candidates.1 (State.bestOf_mem best)) flight
      exact ih (s := s.grant j) flight (by omega)

end

/-- The greatest value over a list is at least each, and is one of them where the list has any. -/
theorem foldl_max_spec (f : Nat → Nat) (l : List Nat) (b : Nat) : b ≤ l.foldl (fun best c => max best (f c)) b
    ∧ (∀ c ∈ l, f c ≤ l.foldl (fun best c => max best (f c)) b)
    ∧ (l.foldl (fun best c => max best (f c)) b = b ∨ ∃ c ∈ l, l.foldl (fun best c => max best (f c)) b = f c) := by
  induction l generalizing b with
  | nil => exact ⟨Nat.le_refl b, nofun, .inl rfl⟩
  | cons d rest ih =>
    obtain ⟨above, each, one⟩ := ih (max b (f d))
    refine ⟨Nat.le_trans (Nat.le_max_left b (f d)) above, fun c mem => ?_, ?_⟩
    · rcases List.mem_cons.1 mem with rfl | mem
      · exact Nat.le_trans (Nat.le_max_right b (f c)) above
      · exact each c mem
    · rcases one with start | ⟨c, mem, is⟩
      · rcases max_choice b (f d) with m | m
        · exact .inl (start.trans m)
        · exact .inr ⟨d, List.mem_cons_self, start.trans m⟩
      · exact .inr ⟨c, List.mem_cons_of_mem d mem, is⟩

theorem foldl_max_mem (f : Nat → Nat) {l : List Nat} (any : l ≠ []) : ∃ c ∈ l, l.foldl (fun best c => max best (f c)) 0 = f c := by
  obtain ⟨-, each, zero | some_⟩ := foldl_max_spec f l 0
  · obtain ⟨c, mem⟩ := List.exists_mem_of_ne_nil l any
    exact ⟨c, mem, zero.trans (Nat.le_zero.1 (zero ▸ each c mem)).symm⟩
  · exact some_

/-! ## A change of a passage reaches its neighbours (R31, R42, R43) -/

section
variable {s : State} {k : Nat}

theorem State.takePassageChanged_eq (used : k ≤ s.count) : s.takePassageChanged k = State.push (.examine k)
    (if k < s.count then State.neighbourChanged (k + 1) (if 1 ≤ k then s.neighbourChanged (k - 1) else s)
      else if 1 ≤ k then s.neighbourChanged (k - 1) else s) := by
  have others : s.othersOf k = (if 1 ≤ k then [k - 1] else []) ++ (if k < s.count then [k + 1] else []) := by
    simp [State.othersOf, used, Nat.succ_le_iff]
  rw [State.takePassageChanged, others]
  refine congrArg (State.push _) ?_
  by_cases low : 1 ≤ k
  · by_cases high : k < s.count
    · rw [if_pos low, if_pos high, if_pos high, if_pos low]
      rfl
    · rw [if_pos low, if_neg high, if_neg high, if_pos low]
      rfl
  · by_cases high : k < s.count
    · rw [if_neg low, if_pos high, if_pos high, if_neg low]
      rfl
    · rw [if_neg low, if_neg high, if_neg high, if_neg low]
      rfl

theorem State.ramping_iff : (s.passage k).slot.map Op.phase = some .ramping ↔ ∃ o, (s.passage k).slot = some o ∧ o.phase = .ramping :=
  Option.map_eq_some_iff

end

/-! ## RETRY_LEVEL and VISUAL_EQUAL (R39, R44) -/

section
variable {h : Hdr} {k : Nat} {s : State}

theorem exec_retryLevel_of_block (taken : s.takes h 15) {u : State} {r : Answer}
    (block : State.doRetryLevel k (s.heard h) = (u, r)) : exec (.retryLevel h k) s = .next (State.replied h 15 r u) :=
  congrArg Host.Outcome.next (State.takeRequest_of_block taken rfl block)

theorem exec_visualEqual_of_block {a : Option PermitAction} (taken : s.takes h 18) {u : State} {r : Answer}
    (block : State.doVisualEqual k a (s.heard h) = (u, r)) : exec (.visualEqual h k a) s = .next (State.replied h 18 r u) :=
  congrArg Host.Outcome.next (State.takeRequest_of_block taken rfl block)

theorem State.retryLevel_other (other : ∀ o, (s.passage k).slot = some o → o.phase ≠ .stalled) :
    s.retryLevel k = s.refusePassage k .wrongState := by
  unfold State.retryLevel
  cases slot : (s.passage k).slot with
  | none => rfl
  | some o => exact if_pos (other o slot)

theorem State.retryLevel_stalled {o : Op} (slot : (s.passage k).slot = some o) (stalled : o.phase = .stalled) : s.retryLevel k
    = if o.transit.isSome = true ∧ s.auth.mode ≠ .service then s.refusePassage k .wrongMode
      else (s.returnToWaiting k).acceptPassage k := by
  simp only [State.retryLevel, slot, stalled, ne_eq, not_true_eq_false, if_false]

end

/-- Settles O38. -/
theorem retryAndPermit : Obligations.RetryAndPermit := by
  refine ⟨?_, ?_, ?_, ?_, ?_, ?_, ?_, ?_, ?_, ?_, ?_⟩
  · intro h k s taken u
    refine ⟨fun unused => exec_retryLevel_of_block taken (if_neg (Bool.eq_false_iff.1 unused)), fun used => ?_⟩
    have row {t : State} {r : Answer} (block : u.retryLevel k = (t, r)) : exec (.retryLevel h k) s = .next (State.replied h 15 r t) :=
      exec_retryLevel_of_block taken ((if_pos used).trans block)
    refine ⟨fun other => row (State.retryLevel_other other), fun o slot stalled => ?_⟩
    have block := State.retryLevel_stalled (s := u) slot stalled
    refine ⟨fun owned mode => row (block.trans (if_pos ⟨owned, mode⟩)), fun admitted => ?_⟩
    have open_ : ¬ (o.transit.isSome = true ∧ u.auth.mode ≠ .service) := fun c =>
      admitted.elim (fun free => by simp [free] at c) c.2
    intro t
    exact row ((block.trans (if_neg open_)).trans (congrArg (State.acceptPassage k) (State.returnToWaiting_eq (s := u) slot)))
  · intro h k s taken u permit
    have past (used : s.inUse k = true) : ¬ (!u.inUse k) = true := by
      rw [show u.inUse k = true from used]
      nofun
    refine ⟨fun unused a => exec_visualEqual_of_block taken (if_pos ?_), fun used => exec_visualEqual_of_block taken (if_neg (past used)),
      fun used => ⟨exec_visualEqual_of_block taken (if_neg (past used)), exec_visualEqual_of_block taken (if_neg (past used))⟩⟩
    rw [show u.inUse k = false from unused]
    rfl
  · intro s k o inside used slot x exempt sensors risk ready waits
    refine ⟨State.examine_other slot, fun waiting held => ?_⟩
    rw [State.examine_waiting slot waiting held]
    have start : s.mayStart k o = true ↔ ready := State.mayStart_iff used
    have stays (unready : ¬ ready) : (if s.mayStart k o then s.startOp k o else s.keepWaiting k o) = s.keepWaiting k o :=
      if_neg fun c => unready (start.1 c)
    refine ⟨fun all => if_pos (start.2 all), fun unready clear => ?_, fun bound safe out => ?_, fun bound danger => ?_⟩
    · have shown := State.waitReason_none (s := s) (k := k) (o := o) clear
      rw [stays unready, State.keepWaiting_shows slot (by rw [shown]; nofun), shown]
      rfl
    · have shown := State.waitReason_sensor (s := s) (k := k) (o := o) bound safe out
      rw [stays fun all => all.2.1.elim bound fun c => out c.1, State.keepWaiting_shows slot (by rw [shown]; nofun), shown]
      rfl
    · have shown := State.waitReason_risk (s := s) (k := k) (o := o) bound danger
      rw [stays fun all => all.2.1.elim bound fun c => c.2 danger, State.keepWaiting_risk slot shown]
      intro u
      refine ⟨fun raised => ?_, fun p fresh receiver => ?_⟩
      · rw [State.highWaterNotice_once raised]
        rfl
      · rw [State.highWaterNotice_first fresh danger receiver]
        rfl
  · intro s k o inside slot manual target reading first started position
    have captures : s.captureStart k o = first := rfl
    have copied : (s.copySettings o (s.passage k).sluice).target = target := rfl
    have begun (phase : OpPhase) : s.begun k o phase = started phase := by
      rw [State.begun, captures]
      rfl
    rw [State.startOp_eq inside slot, copied]
    simp only [begun]
    refine ⟨fun equal => if_pos equal, fun unequal below => ?_, fun unequal there => ?_, fun unequal above => ?_⟩
    all_goals rw [if_neg (Bool.eq_false_iff.1 unequal)]
    · exact if_pos below
    · exact (if_neg (Nat.not_lt.2 (Nat.le_of_eq there.symm))).trans (if_pos there)
    · exact (if_neg (Nat.not_lt.2 (Nat.le_of_lt above))).trans (if_neg (Nat.ne_of_gt above))
  · intro s a b lead
    refine ⟨fun owned free => ?_, fun free free' => ?_, fun owned owned' => ?_⟩
    · have ahead : s.ranksAhead a b = true := by
        rw [State.ranksAhead_iff, State.claimRank_none free, State.claimRank_some owned]
        omega
      exact ⟨ahead, State.ranksAhead_asymm ahead⟩
    · rw [State.ranksAhead_iff, State.claimRank_none free, State.claimRank_none free']
      omega
    · rw [State.ranksAhead_iff, State.claimRank_some owned, State.claimRank_some owned']
      change 1 + lead b < 1 + lead a ∨ (1 + lead a = 1 + lead b ∧ a.order < b.order) ↔ _
      omega
  · intro released beside wants s flight
    have same (x : State) (k : Nat) (o : Op) : x.wants released k o ↔ wants x k o := by
      simp only [State.wants, State.mem_chambersOf]
      rfl
    refine ⟨fun none_ rounds => ?_, fun k o rounds wanted ahead => ?_, fun k o wanted => ?_⟩
    · refine State.arbitrate_none ?_ rounds
      have empty : s.candidates released = [] :=
        List.eq_nil_iff_forall_not_mem.2 fun y mem => none_ y.1 y.2 ((same s _ _).1 (State.mem_candidates.1 mem))
      rw [empty]
      rfl
    · have mine := (same s k o).2 wanted
      have best : s.bestOf (s.candidates released) = some (k, o) := by
        refine State.bestOf_eq (State.mem_candidates.2 mine) fun y mem other => ?_
        have its := State.mem_candidates.1 mem
        refine ahead y.1 y.2 ((same s _ _).1 its) fun here => other ?_
        have op : some o = some y.2 := mine.2.1.symm.trans (here ▸ its.2.1)
        exact Prod.ext here (Option.some.inj op).symm
      rw [State.arbitrate_some best, State.grant_eq mine.2.1]
    · exact State.arbitrate_exhausts 3 flight (List.length_filter_le _ _) k o ((same _ k o).2 wanted)
  · intro s k used changed above below
    exact State.takePassageChanged_eq used
  · intro s k ramping
    refine ⟨fun held now => if_pos ⟨held, State.ramping_iff.2 now⟩, fun no => if_neg fun both => ?_⟩
    exact no.elim (Bool.eq_false_iff.1 · both.1) fun c => c (State.ramping_iff.1 both.2)
  · intro s id k inside g
    refine ⟨fun no => if_neg ?_, fun pending may => if_pos (Bool.and_eq_true_iff.2 ⟨pending, may⟩), fun fault => if_pos fault,
      fun sound may => (if_neg sound).trans (if_pos may),
      fun sound barred => (if_neg sound).trans (if_neg (Bool.eq_false_iff.1 barred))⟩
    rw [Bool.and_eq_true_iff]
    rintro ⟨pending, may⟩
    exact no.elim (fun none_ => by simp [g, none_] at pending) (Bool.eq_false_iff.1 · may)
  · intro s k e
    rfl
  · intro t place
    obtain ⟨_, dir, _, _, held, _, _, _, _, _, _, _, _⟩ := t
    cases dir with
    | down => exact ⟨(foldl_max_spec (fun c => c) held 0).2.1, fun empty => by subst empty; rfl, foldl_max_mem (fun c => c)⟩
    | up => exact ⟨(foldl_max_spec (fun c => 4 - c) held 0).2.1, fun empty => by subst empty; rfl, foldl_max_mem (fun c => 4 - c)⟩

end Sys2Proof.Machine
end

