-- ==== Sys2Proof/Proofs/MovesBegun.lean ====
section
/-! SUPPORT. What follows in an event: the hand-overs in their order, the flight idle condition, the start of the queue head and the next move of a waiting transit; O55 rests on it. -/

namespace Sys2Proof.Machine

/-! ## The end of an event (R99) -/

theorem State.idleNow_eq (s : State) : s.idleNow = (decide (s.arb.queue = []) && s.table.all (fun x => x.held.isEmpty)) := by
  have queue : s.arb.queue.isEmpty = decide (s.arb.queue = []) := by
    rw [Bool.eq_iff_iff, List.isEmpty_iff, decide_eq_true_iff]
  rw [State.idleNow, State.anyHolder, queue, List.not_any_eq_all_not]
  simp only [Bool.not_not]

theorem State.reformIdle_eq (s : State) : s.reformIdle
    = { (if s.idleNow && !s.arb.idle then s.raise (.flightIdle s.toll.clock.stamp) else s) with
        arb := { (if s.idleNow && !s.arb.idle then s.raise (.flightIdle s.toll.clock.stamp) else s).arb with idle := s.idleNow } } := rfl

/-! ## The flight direction and the holders (R104) -/

section
variable {s : State} {d : Direction}

theorem State.flightDir_along (along : ∀ x ∈ s.table, x.held ≠ [] → x.dir = d) : s.flightDir = none ∨ s.flightDir = some d := by
  cases first : s.table.find? (fun t => !t.held.isEmpty) with
  | none => exact .inl (by rw [State.flightDir, first]; rfl)
  | some y =>
    have dir := along y (List.mem_of_find?_eq_some first) (by simpa using List.find?_some first)
    exact .inr (by rw [State.flightDir, first, Option.map_some, dir])

theorem State.flightDir_against (any : ∃ x ∈ s.table, x.held ≠ []) (against : ∀ x ∈ s.table, x.held ≠ [] → x.dir ≠ d) :
    ¬ (s.flightDir = none ∨ s.flightDir = some d) := by
  obtain ⟨x, mem, holds⟩ := any
  obtain ⟨y, first⟩ : ∃ y, s.table.find? (fun t => !t.held.isEmpty) = some y :=
    Option.isSome_iff_exists.1 (List.find?_isSome.2 ⟨x, mem, by simpa using holds⟩)
  have dir := against y (List.mem_of_find?_eq_some first) (by simpa using List.find?_some first)
  rw [State.flightDir, first, Option.map_some]
  rintro (none_ | some_)
  · cases none_
  · exact dir (Option.some.inj some_)

theorem State.mayStartTransit_iff (t : Transit) : s.mayStartTransit t = true ↔ s.auth.mode = .service
    ∧ (s.flightDir = none ∨ s.flightDir = some t.dir) ∧ (∀ x ∈ s.table, s.entryChamber t.dir ∉ x.held) ∧ t.state = .queued := by
  simp only [State.mayStartTransit, State.inService, Bool.and_eq_true, Bool.or_eq_true, decide_eq_true_eq, State.holderOf_isNone,
    and_assoc]

end

/-! ## A move begins (R105, R106) -/

section
variable {s : State} {id : Nat} {m : Move} {held : List Nat}

theorem State.raiseAll_setTransit (l : List Notice) (f : Transit → Transit) :
    (s.setTransit id f).raiseAll l = (s.raiseAll l).setTransit id f := by
  induction l generalizing s with
  | nil => rfl
  | cons n rest ih => exact ih (s := s.raise n)

theorem State.enterEqualise_service (serving : s.auth.mode = .service) : s.enterEqualise id m
    = State.push (.request id m.passage .move) (s.setMove id (fun x => { x with phase := .equalise })) :=
  if_pos (decide_eq_true serving)

/-- The record of a transit whose move begins (R105, R106). -/
def Transit.begun (held : List Nat) (m : Move) (t : Transit) : Transit := { t with state := .moving, held := held, move := some m }

/-- A move that begins in EQUALISE and requests its MOVE operation (R110). -/
theorem State.begun_equalise (serving : s.auth.mode = .service) (l : List Notice) :
    ((s.setTransit id (Transit.begun held m)).raiseAll l).enterEqualise id m = State.push (.request id m.passage .move)
      ((s.raiseAll l).setTransit id (Transit.begun held { m with phase := .equalise })) := by
  have mode : ((s.raiseAll l).setTransit id (Transit.begun held m)).auth.mode = .service := by
    rw [← serving]
    exact congrArg Authority.mode (State.raiseAll_auth l s)
  rw [State.raiseAll_setTransit, State.enterEqualise_service mode]
  exact congrArg (State.push _) (State.setTransit_setTransit (f := Transit.begun held m) (fun _ => rfl) _)

theorem State.raiseAll_append (a b : List Notice) : s.raiseAll (a ++ b) = (s.raiseAll a).raiseAll b := List.foldl_append

theorem State.raiseAll_ports (l : List Notice) : s.raiseAll l = { s with ports := (s.raiseAll l).ports } := by
  induction l generalizing s with
  | nil => rfl
  | cons n rest ih => exact ih (s := s.raise n)

theorem State.newHead_agenda (before : Option Nat) : s.newHead before
    = { s with agenda := s.agenda ++ (if s.arb.queue.head? = before then [] else [.examineHead]) } := by
  rw [State.newHead_eq]
  by_cases same : s.arb.queue.head? = before
  · rw [if_pos same, if_pos same, List.append_nil]
  · rw [if_neg same, if_neg same]

/-- The notices of a transit that leaves a queue with something in it (R99). -/
def State.emptied (s : State) (id : Nat) (cause : EmptyCause) : List Notice :=
  if s.arb.queue.filter (fun x => !decide (x = id)) = [] then [.queueEmpty id cause] else []

theorem State.leaveQueue_raised {cause : EmptyCause} (queued : s.arb.queue ≠ []) : s.leaveQueue id cause
    = { s.raiseAll (s.emptied id cause) with
        arb := { s.arb with queue := s.arb.queue.filter (fun x => !decide (x = id)) }, callDue := true } := by
  rw [State.leaveQueue_eq, State.emptied]
  by_cases last : s.arb.queue.filter (fun x => !decide (x = id)) = []
  · rw [if_pos ⟨last, queued⟩, if_pos last]
    rfl
  · rw [if_neg fun c => last c.1, if_neg last]
    rfl

theorem State.startTransit_eq {t : Transit} (serving : s.auth.mode = .service) (queued : s.arb.queue ≠ []) : s.startTransit t
    = { s.raiseAll (s.emptied t.id .started
          ++ [.transitStarted t.id t.dir (s.entryChamber t.dir),
            .moveBegun t.id .entry (s.entryMove t.dir).passage (s.entryMove t.dir).source (s.entryMove t.dir).destination]) with
        arb := { s.arb with queue := s.arb.queue.filter (fun x => !decide (x = t.id)) }
        table := s.table.map (fun x => if x.id = t.id
          then x.begun [s.entryChamber t.dir] { s.entryMove t.dir with phase := .equalise } else x)
        agenda := s.agenda ++ [.request t.id (s.entryMove t.dir).passage .move]
          ++ (if (s.arb.queue.filter (fun x => !decide (x = t.id))).head? = s.arb.queue.head? then [] else [.examineHead])
        callDue := true } := by
  have mode : (s.leaveQueue t.id .started).auth.mode = .service := by
    rw [State.leaveQueue_raised queued, State.raiseAll_ports]
    exact serving
  refine (congrArg (State.newHead s.arb.queue.head?) (State.begun_equalise mode _)).trans ?_
  rw [State.newHead_agenda, State.leaveQueue_raised queued, State.raiseAll_append, State.raiseAll_ports (s.emptied t.id .started)]
  generalize (s.raiseAll (s.emptied t.id .started)).ports = ports
  rfl

/-- The examination of the queue head: it starts, or stays (R105). -/
theorem State.takeExamineHead_of {t : Transit} (head : s.arb.queue.head?.bind s.transit = some t) :
    s.takeExamineHead = if s.mayStartTransit t then s.startTransit t else s := by
  simp only [State.takeExamineHead, head]

end

/-! ## The next move of a transit in WAITING_NEXT (R106) -/

section
variable {s : State} {id c : Nat} {t : Transit} {more : List Nat}

theorem State.takeExamineNext_of (found : s.transit id = some t) (waiting : t.state = .waitingNext) (held : t.held = c :: more) :
    s.takeExamineNext id = if s.inService then s.goOn t c else s := by
  simp only [State.takeExamineNext, found, waiting, held]

/-- The passage of the move that leaves a chamber in a direction. -/
def passageFrom (c : Nat) : Direction → Nat
  | .down => c
  | .up => c - 1

theorem State.nextMove_of_shift {d : Direction} (further : c ≠ s.exitChamber d) :
    s.nextMove d c = Move.fresh .shift (passageFrom c d) c (chamberAfter c d) := by
  cases d <;> exact if_neg further

theorem State.nextMove_of_exit {d : Direction} (last : c = s.exitChamber d) :
    s.nextMove d c = Move.fresh .exit (passageFrom c d) c (chamberAfter c d) := by
  cases d with
  | down => exact if_pos last
  | up =>
    obtain rfl : c = 1 := last
    rfl

theorem State.goOn_exit (serving : s.auth.mode = .service) (last : c = s.exitChamber t.dir) : s.goOn t c
    = State.push (.request t.id (passageFrom c t.dir) .move)
      ((s.raise (.moveBegun t.id .exit (passageFrom c t.dir) c (chamberAfter c t.dir))).setTransit t.id
        (Transit.begun [c] { Move.fresh .exit (passageFrom c t.dir) c (chamberAfter c t.dir) with phase := .equalise })) := by
  rw [State.goOn, State.nextMove_of_exit last]
  exact State.begun_equalise serving [_]

theorem State.goOn_blocked (further : c ≠ s.exitChamber t.dir) (held : ∃ x ∈ s.table, chamberAfter c t.dir ∈ x.held) : s.goOn t c = s := by
  rw [State.goOn, State.nextMove_of_shift further]
  exact if_pos (State.holderOf_isSome.2 held)

theorem State.goOn_shift (further : c ≠ s.exitChamber t.dir) (free : ∀ x ∈ s.table, chamberAfter c t.dir ∉ x.held) : s.goOn t c
    = State.formCascade t.id t.dir (Move.fresh .shift (passageFrom c t.dir) c (chamberAfter c t.dir))
      ((s.raise (.moveBegun t.id .shift (passageFrom c t.dir) c (chamberAfter c t.dir))).setTransit t.id
        (Transit.begun [c, chamberAfter c t.dir] (Move.fresh .shift (passageFrom c t.dir) c (chamberAfter c t.dir)))) := by
  rw [State.goOn, State.nextMove_of_shift further]
  refine if_neg fun held => ?_
  obtain ⟨x, mem, holds⟩ := State.holderOf_isSome.1 held
  exact free x mem holds

end

end Sys2Proof.Machine
end

