-- ==== Sys2Proof/Proofs/Cascades.lean ====
section
/-! SUPPORT. Cascades, requests and reports: the walk of a cascade, the request for an operation, the report of one, released chambers and freed slots. Settles O55. -/

namespace Sys2Proof.Machine

/-! ## The walk of a cascade (R107, R108) -/

section
variable {s : State} {j : Nat}

theorem State.walkDown_end (fuel : Nat) (last : s.count ≤ j) : s.walkDown fuel j = .formed [j] := by
  cases fuel with
  | zero => rfl
  | succ n => exact if_pos last

theorem State.walkDown_step (fuel : Nat) (further : j < s.count) : s.walkDown (fuel + 1) j
    = if (s.holderOf (j + 1)).isSome then .blocked (j + 1)
      else if (s.predict j).hasData && !(s.predict j).overflows then .formed [j]
      else (s.walkDown fuel (j + 1)).visit j := if_neg (Nat.not_le.2 further)

/-- A walk with fuel for the passages left does not depend on it. -/
theorem State.walkDown_fuel (f g : Nat) (j : Nat) (enough : s.count ≤ j + f) (enough' : s.count ≤ j + g) :
    s.walkDown f j = s.walkDown g j := by
  induction f generalizing g j with
  | zero => exact (s.walkDown_end 0 enough).trans (s.walkDown_end g enough).symm
  | succ n ih =>
    by_cases further : j < s.count
    · obtain ⟨i, rfl⟩ : ∃ i, g = i + 1 := ⟨g - 1, by omega⟩
      rw [s.walkDown_step n further, s.walkDown_step i further, ih i (j + 1) (by omega) (by omega)]
    · rw [s.walkDown_end _ (Nat.not_lt.1 further), s.walkDown_end _ (Nat.not_lt.1 further)]

theorem State.walk_down (flight : s.count ≤ 3) (further : j < s.count) : s.walk .down j
    = if (s.holderOf (j + 1)).isSome then .blocked (j + 1)
      else if (s.predict j).hasData && !(s.predict j).overflows then .formed [j]
      else (s.walk .down (j + 1)).visit j := by
  change s.walkDown 4 j = if _ then _ else if _ then _ else (s.walkDown 4 (j + 1)).visit j
  rw [s.walkDown_step 3 further, s.walkDown_fuel 3 4 (j + 1) (by omega) (by omega)]

theorem State.walk_up (low : 1 ≤ j) : s.walk .up (j + 1)
    = if (s.holderOf j).isSome then .blocked j else (s.walk .up j).visit j := by
  obtain ⟨i, rfl⟩ := Nat.exists_eq_add_of_le' low
  rfl

theorem State.passes_iff : ((s.predict j).hasData && !(s.predict j).overflows) = true ↔ (s.sensor j).level.stale = false
    ∧ (s.sensor (j + 1)).level.stale = false ∧ s.overflowPasses (s.receiver j) (s.predictedLevel j) = true := by
  rw [Bool.and_eq_true, State.hasData_iff, Bool.not_eq_true', ← Bool.not_eq_true (Prediction.overflows _), State.overflows_iff,
    State.atRisk]
  constructor
  · rintro ⟨⟨above, below⟩, safe⟩
    exact ⟨above, below, Bool.not_eq_false _ |>.mp fun fails => safe ⟨above, below, fails⟩⟩
  · rintro ⟨above, below, passes⟩
    exact ⟨⟨above, below⟩, fun risk => Bool.false_ne_true (risk.2.2.symm.trans passes)⟩

theorem State.not_holderOf (free : ∀ t ∈ s.table, j ∉ t.held) : ¬ (s.holderOf j).isSome = true := fun held =>
  let ⟨t, mem, holds⟩ := State.holderOf_isSome.1 held
  free t mem holds

end

/-! ## The cascade of a move (R109) -/

section
variable {s : State} {id : Nat} {dir : Direction} {m : Move}

theorem State.formCascade_blocked {c : Nat} (walk : s.walk dir m.destination = .blocked c) : s.formCascade id dir m
    = State.raise (.moveBlocked id m.passage c) (s.setMove id (fun x => { x with blockedAt := some c })) := by
  simp only [State.formCascade, walk]

theorem State.formCascade_formed {l : List Nat} (walk : s.walk dir m.destination = .formed l) : s.formCascade id dir m
    = (s.setMove id (fun x => { x with blockedAt := none, cascade := l.reverse })).requestCascade id dir l.reverse := by
  simp only [State.formCascade, walk]

theorem State.requestCascade_cons {k : Nat} {rest : List Nat} : s.requestCascade id dir (k :: rest)
    = if s.auth.mode = .service then s.push (.request id k (cascadePurpose dir)) else s := by
  by_cases serving : s.auth.mode = .service
  · rw [if_pos serving, State.requestCascade_service serving]
  · rw [if_neg serving]
    exact if_neg (by simpa [State.inService] using serving)

end

/-! ## A request reaches its passage (R28, R109, R110) -/

section
variable {s : State} {id k : Nat} {purpose : Purpose} {t : Transit} {m : Move}

theorem Transit.hasOp_iff : t.hasOp k purpose = true ↔ ∃ e ∈ t.ops, e.passage = k ∧ e.purpose = purpose := by
  simp [Transit.hasOp]

theorem Move.wants_iff : m.wants t k purpose = true ↔
    if purpose = .move then m.phase = .equalise ∧ m.passage = k ∧ ∀ e ∈ t.ops, ¬ (e.passage = k ∧ e.purpose = .move)
    else m.phase = .prep ∧ m.cascade.head? = some k ∧ ∀ e ∈ t.ops, e.purpose = .move := by
  unfold Move.wants
  by_cases move : purpose = .move
  · rw [if_pos move, if_pos move, Bool.and_eq_true, Bool.and_eq_true, decide_eq_true_iff, decide_eq_true_iff, Bool.not_eq_true',
      ← Bool.not_eq_true, Transit.hasOp_iff, and_assoc]
    simp
  · rw [if_neg move, if_neg move, Bool.and_eq_true, Bool.and_eq_true, decide_eq_true_iff, decide_eq_true_iff, Bool.not_eq_true',
      ← Bool.not_eq_true, Transit.hasCascadeOp_iff, and_assoc]
    simp

theorem State.takeRequestOp_of (found : s.transit id = some t) (move : t.move = some m) : s.takeRequestOp id k purpose
    = if s.inService && m.wants t k purpose then
        if (s.passage k).slot.isNone then
          (s.setTransit id (Transit.accepted k purpose)).createOp k purpose (some id) s.timing.sluiceTarget
        else (s.setPassage k (fun p => { p with slotFreeOwed := true })).setMove id (fun x => { x with owed := some k })
      else s := by
  simp only [State.takeRequestOp, found, move]

end

/-! ## Reports (R117, R118) -/

section
variable {s : State} {r : Report} {t : Transit} {m : Move}

/-- The water that a report leaves in the record of its transit (R118). -/
def Report.water (r : Report) (t : Transit) : Water :=
  if r.passage = 0 ∧ t.ops.any (fun e => r.names e && !e.waterTaken) = true then
    { t.water with predicted := t.water.predicted + r.predicted, measured := t.water.measured + r.measured
                   stale := t.water.stale || r.stale }
  else t.water

/-- The operations list that a report leaves to its transit (R117). -/
def Report.ops (r : Report) (t : Transit) : List OpEntry :=
  if r.outcome = .equalised then t.ops.map (fun e => if r.names e = true ∧ r.passage = 0 then { e with waterTaken := true } else e)
  else t.ops.filter (fun e => !r.names e)

theorem Transit.takeWater_eq (r : Report) (t : Transit) : t.takeWater r = { t with water := r.water t } := by
  unfold Transit.takeWater Report.water
  split <;> rfl

theorem Transit.takeReport_eq (r : Report) (t : Transit) : t.takeReport r = { t with water := r.water t, ops := r.ops t } := by
  unfold Transit.takeReport Report.ops
  rw [Transit.takeWater_eq]
  cases r.outcome <;> rfl

/-- The state once a report is in the record of its transit. -/
def State.reported (s : State) (r : Report) : State := s.setTransit r.transit (fun x => { x with water := r.water x, ops := r.ops x })

theorem State.reported_eq (s : State) (r : Report) : s.setTransit r.transit (Transit.takeReport r) = s.reported r :=
  congrArg (fun f => s.setTransit r.transit f) (funext (Transit.takeReport_eq r))

theorem State.takeReport_none (none_ : s.transit r.transit = none) : s.takeReport r = s := by
  simp only [State.takeReport, none_]

theorem State.takeReport_unnamed (found : s.transit r.transit = some t) (unnamed : t.ops.any r.names = false) : s.takeReport r = s := by
  simp only [State.takeReport, found, unnamed, Bool.false_eq_true, if_false]

theorem State.takeReport_still (found : s.transit r.transit = some t) (named : t.ops.any r.names = true) (move : t.move = none) :
    s.takeReport r = s.reported r := by
  simp only [State.takeReport, found, named, if_true, move, (State.mem_of_transit found).2, State.reported_eq]

theorem State.takeReport_move (found : s.transit r.transit = some t) (named : t.ops.any r.names = true) (move : t.move = some m) :
    s.takeReport r = (s.reported r).reportMove r t m := by
  simp only [State.takeReport, found, named, if_true, move, (State.mem_of_transit found).2, State.reported_eq]

theorem State.reportMove_equalised (outcome : r.outcome = .equalised) : s.reportMove r t m
    = if r.purpose = .move ∧ m.phase = .equalise ∧ m.passage = r.passage ∧ s.inService = true then s.enterOpen t.id m else s := by
  simp only [State.reportMove, outcome]

theorem State.reportMove_settled (outcome : r.outcome ≠ .equalised) (still : r.purpose = .move ∨ m.phase ≠ .prep) :
    s.reportMove r t m = s := by
  have settled (x : State) (same : m.phase ≠ .prep → x = s) : (if r.purpose = .move then s else x) = s := by
    by_cases move : r.purpose = .move
    · exact if_pos move
    · exact (if_neg move).trans (same (still.resolve_left move))
  unfold State.reportMove
  cases is : r.outcome with
  | equalised => exact absurd is outcome
  | done => exact settled _ fun phase => if_neg phase
  | aborted | takenOver => exact settled _ fun phase => if_neg phase

theorem State.reportMove_done (outcome : r.outcome = .done) (cascade : r.purpose ≠ .move) (prep : m.phase = .prep) :
    s.reportMove r t m = if m.cascade.isEmpty then s.enterEqualise t.id m else s.requestCascade t.id t.dir m.cascade := by
  simp only [State.reportMove, outcome]
  exact (if_neg cascade).trans (if_pos prep)

theorem State.reportMove_back (outcome : r.outcome = .aborted ∨ r.outcome = .takenOver) (cascade : r.purpose ≠ .move)
    (prep : m.phase = .prep) : s.reportMove r t m
      = (s.setMove t.id (fun x => { x with cascade := r.passage :: x.cascade })).requestCascade t.id t.dir (r.passage :: m.cascade) := by
  rcases outcome with outcome | outcome <;> simp only [State.reportMove, outcome]
  · exact (if_neg cascade).trans (if_pos prep)
  · exact (if_neg cascade).trans (if_pos prep)

theorem State.enterEqualise_eq {id : Nat} : s.enterEqualise id m = if s.auth.mode = .service
    then State.push (.request id m.passage .move) (s.setMove id (fun x => { x with phase := .equalise }))
    else s.setMove id (fun x => { x with phase := .equalise }) := by
  by_cases serving : s.auth.mode = .service
  · rw [if_pos serving, State.enterEqualise_service serving]
  · rw [if_neg serving]
    exact if_neg (by simpa [State.inService] using serving)

end

/-! ## Freed slots, released chambers, account events (R28, R75, R116) -/

section
variable {s : State}

theorem State.takeSlotFree_eq (k : Nat) : s.takeSlotFree k
    = if s.auth.mode = .service then s.pushAll (s.table.filterMap (fun t => t.owedRequest k)) else s := by
  by_cases serving : s.auth.mode = .service
  · rw [if_pos serving]
    exact if_pos (decide_eq_true serving)
  · rw [if_neg serving]
    exact if_neg (by simpa [State.inService] using serving)

/-- The hand-overs of a released chamber: the head and each transit in WAITING_NEXT examined (R116). -/
def State.releasing (s : State) : State :=
  s.pushAll (.examineHead :: (s.table.filter (fun t => decide (t.state = .waitingNext))).map (fun t => .examineNext t.id))

/-- The move of a transit that a chamber blocks, with its transit. -/
def Transit.blockedAt (c : Nat) (t : Transit) : Option (Nat × Direction × Move) :=
  (t.move.filter (fun m => decide (m.blockedAt = some c))).map (fun m => (t.id, t.dir, m))

theorem Transit.blockedAt_here {c : Nat} {t : Transit} {m : Move} (move : t.move = some m) (here : m.blockedAt = some c) :
    t.blockedAt c = some (t.id, t.dir, m) := by
  simp [Transit.blockedAt, move, here]

theorem Transit.blockedAt_other {c : Nat} {t : Transit} (other : ∀ m, t.move = some m → m.blockedAt ≠ some c) : t.blockedAt c = none := by
  unfold Transit.blockedAt
  cases move : t.move with
  | none => rfl
  | some m => simp [other m move]

/-- Two readings of the moves that a chamber blocks agree where they agree on each kind of transit. -/
theorem Transit.blockedAt_cases {α : Type} {c : Nat} {t : Transit} {x : Option (Nat × Direction × Move) → α} {y : α}
    (here : ∀ m, t.move = some m → m.blockedAt = some c → x (some (t.id, t.dir, m)) = y)
    (other : (∀ m, t.move = some m → m.blockedAt ≠ some c) → x none = y) : x (t.blockedAt c) = y := by
  by_cases any : ∃ m, t.move = some m ∧ m.blockedAt = some c
  · obtain ⟨m, move, blocked⟩ := any
    rw [Transit.blockedAt_here move blocked]
    exact here m move blocked
  · have none_ : ∀ m, t.move = some m → m.blockedAt ≠ some c := fun m move blocked => any ⟨m, move, blocked⟩
    rw [Transit.blockedAt_other none_]
    exact other none_

theorem State.takeReleased_eq (c : Nat) : s.takeReleased c = if s.auth.mode = .service
    then (s.table.filterMap (Transit.blockedAt c)).foldl (fun x b => x.formCascade b.1 b.2.1 b.2.2) s.releasing
    else s.releasing := by
  have pushed : (s.push .examineHead).pushAll ((s.table.filter (fun t => decide (t.state = .waitingNext))).map
      (fun t => Task.examineNext t.id)) = s.releasing := (State.pushAll_pushAll [.examineHead] _ s).symm
  by_cases serving : s.auth.mode = .service
  · rw [if_pos serving, ← pushed]
    refine (if_pos (decide_eq_true serving)).trans ?_
    refine congrArg (fun l => State.each l (fun (b : Nat × Direction × Move) y => State.formCascade b.1 b.2.1 b.2.2 y) _) (List.filterMap_congr fun t _ => ?_)
    refine (Transit.blockedAt_cases (x := fun b => b) (fun m move here => ?_) fun other => ?_).symm
    · simp only [move, here, if_true]
    · cases move : t.move with
      | none => rfl
      | some m => exact (if_neg (other m move)).symm
  · rw [if_neg serving, ← pushed]
    exact if_neg (by simpa [State.inService] using serving)

theorem State.freed_iff (n : Nat) : s.reg.entries.any (fun v => decide (v.account = n) && decide (v.state = .waiting) && !s.creditHeld v) = true
    ↔ ∃ v ∈ s.reg.entries, v.account = n ∧ v.state = .waiting ∧ s.creditHeld v = false := by
  simp only [List.any_eq_true, Bool.and_eq_true, decide_eq_true_eq, Bool.not_eq_true', and_assoc]

end

/-- Settles O55. -/
theorem followingWork : Obligations.FollowingWork := by
  refine ⟨State.settle_outer, fun _ => rfl, fun _ _ _ => ⟨rfl, rfl, rfl⟩, ?_, ?_, ?_, ?_, ?_, ?_, ?_, ?_, ?_, ?_, ?_, ?_⟩
  · intro s idle stamp n
    rw [State.reformIdle_eq, State.idleNow_eq]
    rfl
  · intro s fuel
    refine ⟨fun x rest first => ?_, fun empty due => State.drain_calls empty due fuel,
      fun empty quiet => State.drain_idle empty quiet fuel⟩
    intro u
    refine (State.drain_task first fuel).trans (congrArg (State.drain fuel) ?_)
    cases x <;> rfl
  · intro s empty quiet t idle stamp n
    rw [State.settle, State.drain_idle empty quiet, State.reformIdle_eq, State.idleNow_eq]
    rfl
  · intro s t head queued c m rest begun may
    obtain ⟨id, first, found⟩ := Option.bind_eq_some_iff.1 head
    have waiting : s.arb.queue ≠ [] := fun empty => by simp [empty] at first
    have entry : s.entryChamber t.dir = c := by
      unfold State.entryChamber
      cases dir : t.dir <;> simp only [c, dir]
    have move : { s.entryMove t.dir with phase := .equalise } = m := by
      unfold State.entryMove
      cases dir : t.dir <;> simp only [m, c, dir] <;> rfl
    rw [State.takeExamineHead_of head]
    refine ⟨fun ⟨serving, along, free⟩ => ?_, fun bar => if_neg fun starts => ?_⟩
    · have starts : s.mayStartTransit t = true :=
        (State.mayStartTransit_iff t).2 ⟨serving, State.flightDir_along along, entry ▸ free, queued⟩
      have at_ := congrArg Move.passage move
      have source := congrArg Move.source move
      have destination := congrArg Move.destination move
      rw [if_pos starts, State.startTransit_eq serving waiting, move, entry, at_, source, destination]
      rfl
    · obtain ⟨serving, flow, free, -⟩ := (State.mayStartTransit_iff t).1 starts
      rw [entry] at free
      rcases bar with out | ⟨x, mem, holds⟩ | ⟨any, against⟩
      · exact out serving
      · exact free x mem holds
      · exact State.flightDir_against any against flow
  · intro s id c t more found waiting held last next passage move begun
    have exit_ : s.exitChamber t.dir = last := by
      unfold State.exitChamber
      cases dir : t.dir <;> simp only [last, dir]
    have after : chamberAfter c t.dir = next := by
      unfold chamberAfter
      cases dir : t.dir <;> simp only [next, dir]
    have across : passageFrom c t.dir = passage := by
      unfold passageFrom
      cases dir : t.dir <;> simp only [passage, dir]
    rw [State.takeExamineNext_of found waiting held]
    refine ⟨fun out => if_neg (by simpa [State.inService] using out), fun serving => ?_⟩
    rw [if_pos (show s.inService = true from decide_eq_true serving)]
    refine ⟨fun there => ?_, fun further holds => ?_, fun further free => ?_⟩
    · rw [State.goOn_exit serving (there.trans exit_.symm), after, across]
      rfl
    · exact State.goOn_blocked (exit_ ▸ further) (after ▸ holds)
    · rw [State.goOn_shift (exit_ ▸ further) (after ▸ free), after, across]
      rfl
  · intro s j flight low passes
    refine ⟨s.walkDown_end 4, fun further held => ?_, fun further free => ?_, rfl, fun held => ?_, fun free => ?_⟩
    · rw [State.walk_down flight further]
      exact if_pos (State.holderOf_isSome.2 held)
    · rw [State.walk_down flight further, if_neg (State.not_holderOf free)]
      refine ⟨fun pass => if_pos (State.passes_iff.2 pass), fun fail => ?_⟩
      rw [if_neg fun c => fail (State.passes_iff.1 c)]
      exact ⟨fun l formed => by rw [formed]; rfl, fun c blocked => by rw [blocked]; rfl⟩
    · rw [State.walk_up low]
      exact if_pos (State.holderOf_isSome.2 held)
    · rw [State.walk_up low, if_neg (State.not_holderOf free)]
      exact ⟨fun l formed => by rw [formed]; rfl, fun c blocked => by rw [blocked]; rfl⟩
  · intro s id dir m put purpose
    have own : cascadePurpose dir = purpose := by
      unfold cascadePurpose
      cases dir <;> rfl
    refine ⟨fun c walk => State.formCascade_blocked walk, fun l k rest walk order => ?_⟩
    rw [State.formCascade_formed walk, order, State.requestCascade_cons, own]
    rfl
  · intro s id k purpose t m found move inside wanted put
    have wants : (s.inService && m.wants t k purpose) = true ↔ wanted := by
      rw [Bool.and_eq_true, Move.wants_iff, State.inService, decide_eq_true_iff]
    rw [State.takeRequestOp_of found move]
    refine ⟨fun no => if_neg fun c => no (wants.1 c), fun yes slot => ?_, fun yes slot => ?_⟩
    · rw [if_pos (wants.2 yes), slot]
      rfl
    · rw [if_pos (wants.2 yes)]
      exact if_neg (by simpa [Option.isSome_iff_ne_none] using slot)
  · intro s r names water ops u move ask
    refine ⟨State.takeReport_none, fun t found => ⟨State.takeReport_unnamed found, fun named => ?_⟩⟩
    intro purpose
    have id := (State.mem_of_transit found).2
    have own : cascadePurpose t.dir = purpose := by
      unfold cascadePurpose
      cases dir : t.dir <;> simp only [purpose, dir]
    refine ⟨fun still => (State.takeReport_still found named still).trans ?_, fun m moves => ?_⟩
    · rfl
    have taken : s.takeReport r = u.reportMove r t m := State.takeReport_move found named moves
    rw [taken]
    refine ⟨fun outcome => ?_, fun outcome still => State.reportMove_settled outcome still, fun cascade prep =>
      ⟨fun outcome empty => ?_, fun k rest outcome some_ => ?_, fun outcome => ?_⟩⟩
    · rw [State.reportMove_equalised outcome]
      intro opens
      have same : (r.purpose = .move ∧ m.phase = .equalise ∧ m.passage = r.passage ∧ u.inService = true) ↔ opens := by
        rw [State.inService, decide_eq_true_iff]
      refine ⟨fun open_ => (if_pos (same.2 open_)).trans ?_, fun no => if_neg fun c => no (same.1 c)⟩
      rw [id]
      rfl
    · rw [State.reportMove_done outcome cascade prep, empty, State.enterEqualise_eq, id]
      rfl
    · rw [State.reportMove_done outcome cascade prep, some_, State.requestCascade_cons, id, own]
      rfl
    · rw [State.reportMove_back outcome cascade prep, State.requestCascade_cons, id, own]
      rfl
  · intro s k again
    have asks : (fun t : Transit => t.owedRequest k) = again := by
      funext t
      obtain ⟨_, dir, _, _, _, move, _, _, _, _, _, _, _⟩ := t
      cases move with
      | none => rfl
      | some m => cases dir <;> rfl
    rw [State.takeSlotFree_eq, asks]
    exact ⟨fun serving => if_pos serving, fun out => if_neg out⟩
  · intro s c u
    rw [State.takeReleased_eq]
    refine ⟨fun serving => (if_pos serving).trans ?_, fun out => if_neg out⟩
    rw [List.foldl_filterMap]
    refine congrArg (fun f => s.table.foldl f u) (funext fun x => funext fun t => ?_)
    by_cases any : ∃ m, t.move = some m ∧ m.blockedAt = some c
    · obtain ⟨m, move, here⟩ := any
      rw [Transit.blockedAt_here move here, move]
      exact (if_pos here).symm
    · rw [Transit.blockedAt_other fun m move here => any ⟨m, move, here⟩]
      cases move : t.move with
      | none => rfl
      | some m => exact (if_neg fun here => any ⟨m, move, here⟩).symm
  · intro s n freed
    exact ⟨fun yes => if_pos ((s.freed_iff n).2 yes), fun no => if_neg fun c => no ((s.freed_iff n).1 c)⟩

end Sys2Proof.Machine
end
